-- ==== Sys2Proof/Word.lean ====
section
/-! DEFINITION. The plain number types of the GLD12 manual and their saturating sum. -/

namespace Sys2Proof

/-- One byte of the board or of a bay link frame. -/
abbrev Byte := BitVec 8

/-- A 16-bit word: one half of a register, a change count, a commit count. -/
abbrev Half := BitVec 16

/-- A 64-bit serial, nonce, key, response, receipt or token. -/
abbrev Quad := BitVec 64

/-- The sum of two counts that stays at `limit` once it is reached ("saturating", 00_scope.md, Counters). -/
def satAdd (limit a b : Nat) : Nat := min limit (a + b)

/-- 2³² − 1, where the 32-bit volumes and counters saturate. -/
def max32 : Nat := 4294967295

/-- 65,535, where the 16-bit counters of part information saturate. -/
def max16 : Nat := 65535

/-- One tally unit is 100,000 nL (00_scope.md, Tally unit). -/
def unitVolume : Nat := 100000

/-- The largest tally a cartridge can hold, 16,383 units (00_scope.md, Tally unit). -/
def maxTally : Nat := 16383

end Sys2Proof
end

