-- ==== Sys2Proof/Syntax.lean ====
section
/-! DEFINITION. The commands of the GLD12: one constructor of `Instr` for each row of spec/opcode_table.json, each one
whole step of the part (95_what_each_step_holds.md). -/

namespace Sys2Proof

/-- A bay and its slot, 0 to 11 (00_scope.md, Slots and channels). -/
abbrev Slot := Fin 12

/-- An ink channel, 0 to 11. -/
abbrev Channel := Fin 12

/-- A request cell, 0 to 23. -/
abbrev CellNo := Fin 24

/-- A tally bank, 0 to 3. -/
abbrev BankNo := Fin 4

/-- What the read-back of a settings write or a counter write finds (R161, R164 to R166). -/
inductive ReadBack where
  /-- The read-back equals what was written. -/
  | equal
  /-- The read-back differs. `targetFails` says in what state the write leaves its target copy, the older one: failing
  its check, or as it stood before. -/
  | differs (targetFails : Bool)
deriving DecidableEq, Repr

/-- The register halves of 0xFF0 to 0xFFF on which an engine write has no effect (R148). -/
inductive InertHalf where
  | idLower | idUpper | noticeUpper | statusLower | statusUpper
deriving DecidableEq, Repr

/-- The commands, one constructor per row of the operation table, in the table's order. An operand `lineLow` says
whether the bay's line is still being driven low at the moment a failure of the operation is judged (R5). -/
inductive Instr where
  /-- R1: the presence contact of `bay` closes. -/
  | contactCloses (bay : Slot)
  /-- R1: the presence contact of `bay` opens. -/
  | contactOpens (bay : Slot)
  /-- R1: the settle timer of `bay` reaches 50 ms. -/
  | settleTimerExpiry (bay : Slot)
  /-- R1: the removal timer of `bay` reaches 5 ms. -/
  | removalTimerExpiry (bay : Slot)
  /-- R13: the engine that `bay` holds drives the start of its command frame. -/
  | linkOperationStart (bay : Slot)
  /-- R7: the last byte of the command frame on `bay` has been sent. -/
  | commandFrameEnd (bay : Slot)
  /-- R13: 3 ms have passed without the inter-frame gap of `bay` having passed. -/
  | linkGapTimeout (bay : Slot) (lineLow : Bool)
  /-- R7: no response start within 3 ms. -/
  | responseTimeout (bay : Slot) (lineLow : Bool)
  /-- R7: an expected response byte does not begin within 100 µs. -/
  | responseByteTimeout (bay : Slot) (lineLow : Bool)
  /-- R8, R9: the payload and CRC of an IDENTIFY response have been received. -/
  | identify (bay : Slot) (payload : List Byte) (crc : Byte) (lineLow : Bool)
  /-- R8, R10: the payload and CRC of a CHALLENGE response have been received. -/
  | challenge (bay : Slot) (payload : List Byte) (crc : Byte) (lineLow : Bool)
  /-- R8, R11: the payload and CRC of a READ_TALLY response have been received. -/
  | readTally (bay : Slot) (payload : List Byte) (crc : Byte) (lineLow : Bool)
  /-- R8, R12: the payload and CRC of an ADVANCE_TALLY response have been received. -/
  | advanceTally (bay : Slot) (payload : List Byte) (crc : Byte) (lineLow : Bool)
  /-- R27: the 20 ms retry timer of `slot` expires. -/
  | retryTimerExpiry (slot : Slot)
  /-- R43: the 1000 ms probe timer of `slot` expires. -/
  | probeTimerExpiry (slot : Slot)
  /-- R28: the DERIVE being computed completes. -/
  | derive
  /-- R30, R40: the CHALLENGE_CHECK being computed completes. -/
  | challengeCheck
  /-- R128: the RECEIPT_CHECK being computed completes. -/
  | receiptCheck
  /-- R161: the TOKEN_CHECK being computed completes. -/
  | tokenCheck
  /-- R52: the write attempt of a history place ends; `verified` says whether the read-back equals the copy. -/
  | historyWriteAttemptEnd (verified : Bool)
  /-- R161, R165: the write attempt of the service counter ends. -/
  | counterWriteEnd (readBack : ReadBack)
  /-- R166: the write attempt of the settings page ends. -/
  | settingsWriteEnd (readBack : ReadBack)
  /-- R83: the bank at the head of the charge list is accounted. -/
  | bankAccounting
  /-- R93: the purge at the head of the charge list is accounted. -/
  | purgeAccounting
  /-- R155: the current pattern period of `bay` ends. -/
  | patternPeriodEnd (bay : Slot)
  /-- R140, R141: the engine writes POSTED, with `kind` as the other byte of the word, into `cell`. -/
  | cellArrival (cell : CellNo) (kind : Byte)
  /-- R140, R141: the engine writes FREE, with `kind` as the other byte, meaning to withdraw `cell`. -/
  | cellWithdrawal (cell : CellNo) (kind : Byte)
  /-- R140: the engine writes FREE, with `kind` as the other byte, meaning to give `cell` back. -/
  | cellGiveBack (cell : CellNo) (kind : Byte)
  /-- R80: the engine writes READY, with `flags` as the other byte, into `bank`. -/
  | bankArrival (bank : BankNo) (flags : Byte)
  /-- R79: the engine writes OPEN, with `flags` as the other byte, into `bank`. -/
  | bankReopen (bank : BankNo) (flags : Byte)
  /-- R137: any other engine write to the board: the two bytes of the word numbered `word` (byte address `2 * word`). -/
  | boardWrite (word : BitVec 11) (first second : Byte)
  /-- R148: an engine write to NOTICE's lower half. -/
  | noticeClear (value : Half)
  /-- R149: an engine write to CONTROL's lower half. -/
  | controlLowerHalfWrite (value : Half)
  /-- R149: an engine write to CONTROL's upper half, a whole write, named for its byte-order step. -/
  | controlByteOrder (upper : Half)
  /-- R149: an engine write to CONTROL's upper half, a whole write, named for its mask and polarity step. -/
  | controlMaskPolarity (upper : Half)
  /-- R149, R173: an engine write to CONTROL's upper half, a whole write, named for its RESTART step. -/
  | restart (upper : Half)
  /-- R148: an engine write to a register half that takes no value. -/
  | registerWriteOther (half : InertHalf) (value : Half)
  /-- R142: a cell whose kind is not known is taken. -/
  | unknownKind
  /-- R114: a SET_THRESHOLDS cell is taken. -/
  | setThresholds
  /-- R125: a SET_COMMIT cell is taken. -/
  | setCommit
  /-- R133: a COMMIT_NOW cell is taken. -/
  | commitNow
  /-- R38: a REVERIFY cell is taken. -/
  | reverify
  /-- R92: a PURGE cell is taken. -/
  | purge
  /-- R58: a READ_HISTORY cell is taken. -/
  | readHistory
  /-- R152: a SET_NOTICE_LEVELS cell is taken. -/
  | setNoticeLevels
  /-- R157: a SET_LED_BRIGHTNESS cell is taken. -/
  | setLedBrightness
  /-- R169: a SET_POWER cell is taken. -/
  | setPower
  /-- R160: an ENTER_SERVICE cell is taken. -/
  | enterService
  /-- R162: a LEAVE_SERVICE cell is taken. -/
  | leaveService
  /-- R94: a LOAD_CALIBRATION cell is taken. -/
  | loadCalibration
  /-- R116: a SET_FEED cell is taken. -/
  | setFeed
  /-- R115: a RECONCILE cell is taken. -/
  | reconcile
  /-- R59: a FORGET_HISTORY cell is taken. -/
  | forgetHistory
  /-- R77: a SET_REFILL_MARGIN cell is taken. -/
  | setRefillMargin
  /-- R170: the wind-down is complete. -/
  | windDownComplete
  /-- R172: the supply comparator goes from GOOD to LOW. -/
  | supplyLow
  /-- R172: the supply comparator goes from LOW to GOOD. -/
  | supplyGood
  /-- R172, R173: the first GOOD at power-on starts the power-on sequence. -/
  | powerOn
  /-- R173: the reset input is asserted. -/
  | resetAsserted
  /-- R173: the reset input is released. -/
  | resetReleased
  /-- R174: the work of the fold phase has drained. -/
  | foldPhaseEnd
  /-- R174: 120 ms have passed since the sequence began. -/
  | foldPhaseTimeLimit
  /-- R175: the clearing point. -/
  | clearingPoint
  /-- R175: the load from NV ends and BUSY clears. -/
  | loadComplete
  /-- R159: the lockout timer reaches 60 s. -/
  | lockoutTimerExpiry
  /-- R162: the idle timer reaches 600 s. -/
  | idleTimerExpiry
  /-- R172: the supply falls below the level at which the part can run. -/
  | powerLoss
  /-- R7: the start of a response is seen on the line of `bay`. -/
  | responseStartSeen (bay : Slot)
  /-- R7: the status byte and then the length byte of a response on `bay` are received. -/
  | statusLengthReceived (bay : Slot) (status length : Byte) (lineLow : Bool)
  /-- R5: the line of `bay`, still held low when a failure was judged, is found high. -/
  | lineFoundHigh (bay : Slot)
deriving DecidableEq, Repr

end Sys2Proof
end

