-- ==== Sys2Proof/Decode.lean ====
section
/-! DEFINITION. The decoder that the host asks: spec/opcode_table.json gives no row any bits. -/

namespace Sys2Proof

/-- The command that a word of `nbits` bits spells by the operation table. No row of the table gives bits, so no word
spells a command. -/
def decodeTableWord (_nbits _w : Nat) : Option Instr := none

end Sys2Proof
end

