-- ==== Sys2Proof/Config.lean ====
section
/-! DEFINITION. What one GLD12 is fused with and what the manual leaves open: constants without a body, so that no
proof can see their values. -/

namespace Sys2Proof

/-- The confidential digest function. The manual gives it no definition and relies on equal inputs giving equal
outputs (00_scope.md, Scope; R34: "The digest function is deterministic"). The message is the `‖` of R34. -/
opaque Config.digest {k n : Nat} (key : BitVec k) (message : BitVec n) : Quad

/-- The width of the master secrets, which the manual does not give. -/
opaque Config.secretBits : Nat

/-- R33: four cartridge master secrets, one for each key generation, fused at manufacture. -/
opaque Config.master : Fin 4 → BitVec Config.secretBits

/-- R33: the service master secret, fused at manufacture. -/
opaque Config.serviceMaster : BitVec Config.secretBits

/-- R33: the 64-bit part serial, fused at manufacture. -/
opaque Config.partSerial : Quad

/-- R37: the random source. The k-th nonce drawn after the n-th power-on is `nonceShuffle n k`. A permutation, because
"No two nonces drawn since power-on are equal"; nothing else is known of the values. -/
opaque Config.nonceShuffle : Nat → Equiv.Perm Quad

/-- R164: the NV copy that the first settings write fills when no copy holds the current page. The manual does not
name one. -/
opaque Config.firstPageCopy : Fin 2

/-- R164: the generation number that the first settings write carries when no copy holds the current page. -/
opaque Config.firstGeneration : BitVec 32

/-- R164: the copy loaded when both settings copies pass their check with one and the same generation. -/
opaque Config.pageTie : Fin 2

/-- R165: the NV copy that the first counter write fills when no copy holds the current value. -/
opaque Config.firstCounterCopy : Fin 2

/-- R165: the copy taken as holding the current value when both counter copies pass with the same value. -/
opaque Config.counterTie : Fin 2

/-- R40, R75: the tally that a REVERIFY shows which completes on a receipt mismatch before any tally was read. The k-th
such completion shows `unreadTally k`; like every tally it has 14 bits (R176). -/
opaque Config.unreadTally : Nat → BitVec 14

end Sys2Proof
end

