-- ==== Sys2Proof/Machine/State.lean ====
section
/-! DEFINITION. Every piece of state the manual gives the GLD12, block by block (00_scope.md, Block overview), the queue
of commands that wait, and the values at power-on. -/

namespace Sys2Proof.Machine
open Sys2Proof

/-- Reasons to stop with a fault. The manual names no event that stops the part, so there is none: a fault can never
be raised (safe). -/
inductive Fault
deriving DecidableEq, Repr

/-- Reasons to refuse a command. -/
inductive Refusal where
  /-- Raised by `exec` alone, for a row of the operation table that has no meaning yet. Safe: nothing is claimed of such
  a command. No arm of this model uses it. -/
  | notModelled (mnemonic : String)
deriving DecidableEq, Repr

/-! ## Bay monitor (BM) -/

/-- The presence states of a bay (R1). -/
inductive Presence where
  | absent | settling | present | leaving
deriving DecidableEq, Repr

/-- The one timer of a bay, used as settle timer and as removal timer (R1). -/
inductive BayTimer where
  | stopped | settle | removal
deriving DecidableEq, Repr

/-- The inter-frame gap of a bay's line (R5): counted since the last frame ended, or not yet counted because the line
was still being driven low when a failure was judged. -/
inductive LineGap where
  | counting | heldLow
deriving DecidableEq, Repr

/-- The six LED patterns (R153). -/
inductive Pattern where
  | off | solid | slowBlink | fastBlink | doubleFlash | steadyFast
deriving DecidableEq, Repr

/-- One bay: its contact pin, its presence state and timer (R1), the settled declaration held while BUSY is shown (R4),
the gap of its line (R5) and its LED patterns (R154, R155). -/
structure Bay where
  contactClosed : Bool
  presence : Presence
  timer : BayTimer
  settledHeld : Bool
  gap : LineGap
  selected : Pattern
  current : Pattern
deriving DecidableEq, Repr

/-! ## Link pool (LP) -/

/-- An operation on the bay link (12.6): IDENTIFY, CHALLENGE with its nonce, READ_TALLY, ADVANCE_TALLY with its size. -/
inductive LinkOp where
  | identify
  | challenge (nonce : Quad)
  | readTally
  | advance (units : Nat)
deriving DecidableEq, Repr

/-- What a cartridge is, as IDENTIFY reports it (R9, R23). The key generation is the top two bits of the batch code. -/
structure Identity where
  serial : Quad
  ink : Byte
  volumeClass : Byte
  batch : Half
  tally : Nat
deriving DecidableEq, Repr

/-- The outcome of an operation that was not cut off (R8). -/
inductive LinkOutcome where
  | noResponse | checkError | malformed | refused
  | tallyFull
  | identified (identity : Identity)
  | challenged (response : Quad)
  | tallyRead (tally : Nat)
  | advanced (tally : Nat) (receipt : Quad)
deriving DecidableEq, Repr

/-- How far the operation of a hold has come (R7, R13, R18, R127). -/
inductive LinkPhase where
  /-- The engine has taken the slot; the start is not yet driven. -/
  | ready
  /-- The command frame with these bytes is being sent. -/
  | sending (frame : List Byte)
  /-- The line is released; no response start has been seen. -/
  | awaiting
  /-- A start has been seen; filler, status and length are being received. -/
  | receiving
  /-- Status and length have passed; payload and CRC are being received. -/
  | payload (status length : Byte)
  /-- The operation has ended while its bay is LEAVING; the engine holds the outcome (R18). -/
  | outcomeHeld (outcome : LinkOutcome)
  /-- The ADVANCE_TALLY was ACCEPTED; its RECEIPT_CHECK has not been handed over (R127). -/
  | awaitingReceipt
deriving DecidableEq, Repr

/-- A hold of a link engine (R13, R16): its sort, its operation, the ADVANCE_TALLY frames it has sent, and the deferred
join of the slot, which is always of the bring-up class (R15). -/
structure Hold where
  commit : Bool
  op : LinkOp
  phase : LinkPhase
  frames : Nat
  deferred : Option LinkOp
deriving DecidableEq, Repr

/-- The link state of a slot (R13). HELD WITH A DEFERRED JOIN is `held` with `deferred` present. A slot that waits for `op`
has in `behind` the deferred join that SLEEP entry has placed at the tail of its class, behind the operation put back at the
head (R21, assumption 31). -/
inductive LinkState where
  | none
  | waitingBringUp (op : LinkOp) (behind : Option LinkOp)
  | waitingCommit
  | held (hold : Hold)
deriving DecidableEq, Repr

/-- The link pool. The link wait list (R14) is `bringUp` followed by `commit`. An engine is held by each slot whose link
state is `held`; which of the three it is has no effect on behaviour (R14). -/
structure LinkPool where
  states : Vector LinkState 12
  bringUp : List Slot
  commit : List Slot
deriving DecidableEq, Repr

/-! ## Digest engine (DG) -/

/-- An owner of a digest queue entry (R35). -/
inductive DigestOwner where
  | slot (slot : Slot)
  | gate
deriving DecidableEq, Repr

/-- A digest operation with its inputs (R34). -/
inductive DigestOp where
  | derive (generation : Fin 4) (serial : Quad) (batch : Half)
  | challengeCheck (key nonce serial : Quad) (tally : Nat) (response : Quad)
  | receiptCheck (key nonce : Quad) (count : Half) (tally : Nat) (receipt : Quad)
  | tokenCheck (counter : BitVec 32) (token : Quad)
deriving DecidableEq, Repr

/-- One entry of the digest queue (R35). -/
structure DigestEntry where
  owner : DigestOwner
  op : DigestOp
deriving DecidableEq, Repr

/-- The digest engine (R35): the queue, whether its head is being computed, and the requests held outside the queue
behind an entry of the same owner. -/
structure DigestEngine where
  queue : List DigestEntry
  computing : Bool
  behind : List DigestEntry
deriving DecidableEq, Repr

/-! ## Slot manager (SM) -/

/-- The slot states (R23, 12.7). -/
inductive SlotState where
  | empty | settling | identify | derive | challenge | check | resolve | inService | rejected | reverify | linkLost
deriving DecidableEq, Repr

/-- The verdicts (R62, 12.7). -/
inductive Verdict where
  | new | used | resumed | depleted | refilled | regressed | clone | counterfeit | wrongInk | unknownType | unreadable
deriving DecidableEq, Repr

/-- The stage of a reverify (R23, R39). -/
inductive ReverifyStage where
  | none | challenge | readTally | check
deriving DecidableEq, Repr

/-- The timer of a slot (R23). -/
inductive SlotTimer where
  | stopped | retry | probe
deriving DecidableEq, Repr

/-- One row of the slot table (R23). `reverifyTally` is the T_r that step 3 of R39 keeps; R23 lists no such field, and when
it is absent is the model's (DESIGN CHOICE, assumption 61). -/
structure SlotRow where
  state : SlotState
  verdict : Option Verdict
  identity : Option Identity
  key : Option Quad
  nonce : Option Quad
  candidate : Option Quad
  response : Option Quad
  attempts : Nat
  linkFailures : Nat
  stage : ReverifyStage
  reverifyOpen : Bool
  parkedCell : Option CellNo
  historyLink : Bool
  timer : SlotTimer
  reverifyTally : Option Nat
deriving DecidableEq, Repr

/-! ## Accounting unit (AU) -/

/-- A channel's calibration (R85): drop volumes in 1/16 pL and key factors K0 to K7 in 1/1024. -/
structure Calibration where
  small : Nat
  medium : Nat
  large : Nat
  keys : Vector Nat 8
deriving DecidableEq, Repr

/-- A channel's feed (R101); 255 in a slot field is `none`. -/
structure Feed where
  ink : Byte
  primary : Option Slot
  secondary : Option Slot
deriving DecidableEq, Repr

/-- What the accounting unit keeps per channel (R85, R88, R90, R96, R101 to R103). -/
structure ChannelRow where
  calibration : Calibration
  pendingCalibration : Option Calibration
  residue : Nat
  total : Quad
  maintenance : Quad
  feed : Feed
  pendingFeed : Option Feed
  active : Option Slot
  unfed : Nat
deriving DecidableEq, Repr

/-- A pair of thresholds in nL (R110). -/
structure Thresholds where
  warn : Nat
  stop : Nat
deriving DecidableEq, Repr

/-- What the accounting unit keeps per slot (R90, R107 to R118). -/
structure Volumes where
  remaining : Nat
  postEmpty : Nat
  maintenance : Nat
  thresholds : Thresholds
  pending : Option Thresholds
  low : Bool
  spent : Bool
  exhausted : Bool
deriving DecidableEq, Repr

/-- An item of the charge list (R82, R92). -/
inductive ChargeItem where
  | bank (bank : BankNo)
  | purge (cell : CellNo) (mask : Half) (volumes : Vector Nat 12) (clamped : Bool)
deriving DecidableEq, Repr

/-- The accounting unit. -/
structure Accounting where
  channels : Vector ChannelRow 12
  slots : Vector Volumes 12
  /-- The refill margin in per mille of rated volume (R77). -/
  margin : Nat
  /-- R95. -/
  betweenPages : Bool
  /-- R84: the last accounted band sequence. -/
  lastSequence : Half
  /-- R84: whether a bank has been accounted since the last reset. -/
  bankSeen : Bool
  /-- R84: part-information counter "sequence gaps". -/
  sequenceGaps : Nat
  chargeList : List ChargeItem
deriving DecidableEq, Repr

/-! ## Commit engine (CE) -/

/-- An unsettled ADVANCE_TALLY: its size and the commit count it carried (R120, R127). -/
structure Advance where
  units : Nat
  count : Half
deriving DecidableEq, Repr

/-- What the commit engine keeps per slot (R120). `windDownHolder` is the wind-down as a flush holder; `windDownEnded`
says that the wind-down in progress has already ended its flush of this slot (R170). -/
structure CommitRow where
  uncommitted : Nat
  inDoubt : Nat
  count : Half
  tallyFull : Bool
  linkLost : Bool
  unsettled : Option Advance
  holders : List CellNo
  windDownHolder : Bool
  windDownEnded : Bool
deriving DecidableEq, Repr

/-- The commit engine (R120). -/
structure CommitEngine where
  rows : Vector CommitRow 12
  quantum : Nat
  burst : Bool
deriving DecidableEq, Repr

/-! ## History store (HS) and non-volatile memory -/

/-- A history entry (R46), less its dirty flag, which stands in `PlaceRow`. -/
structure Entry where
  serial : Quad
  ink : Byte
  volumeClass : Byte
  tally : Nat
  remaining : Nat
  carried : Nat
  inDoubt : Nat
  postEmpty : Nat
  verdict : Verdict
  exhausted : Bool
  tallyFull : Bool
  lastSlot : Slot
  sighting : Nat
deriving DecidableEq, Repr

/-- One place of the RAM table (R46, R51): free or holding an entry, and dirty or not. -/
structure PlaceRow where
  entry : Option Entry
  dirty : Bool
deriving DecidableEq, Repr

/-- One channel of the settings page (R164); an absent part has its written mark clear. -/
structure ChannelSettings where
  calibration : Option Calibration
  feed : Option Feed
deriving DecidableEq, Repr

/-- The settings page (R164). -/
abbrev Page := Vector ChannelSettings 12

/-- The value that a settings write carries (R166). -/
inductive Setting where
  | calibration (value : Calibration)
  | feed (value : Feed)
deriving DecidableEq, Repr

/-- A parked LOAD_CALIBRATION or SET_FEED on its way to the settings page (R94, R116, R166). -/
structure SettingsRequest where
  cell : CellNo
  channel : Channel
  value : Setting
  clamped : Bool
deriving DecidableEq, Repr

/-- What the saver is doing (R52, R165, R166): idle, or in the first or second attempt of a write. -/
inductive Saver where
  | idle
  | place (place : Fin 64) (copy : Option Entry) (counter : Nat) (second changed : Bool)
  | counter (value : BitVec 32) (second : Bool)
  | settings (request : SettingsRequest) (page : Page) (second : Bool)
deriving DecidableEq, Repr

/-- The history store in RAM (R46 to R61, R164 to R166). `pageCopy` and `counterCopy` name the NV copy that holds the
current page and the current counter value, when one does. -/
structure HistoryStore where
  places : Vector PlaceRow 64
  saveQueue : List (Fin 64)
  saver : Saver
  sightings : Nat
  storeFault : Bool
  foldAtWrite : Bool
  page : Page
  pageCopy : Option (Fin 2)
  settingsQueue : List SettingsRequest
  counter : BitVec 32
  counterCopy : Option (Fin 2)
  counterWaiting : Bool
deriving DecidableEq, Repr

/-- An NV place (R46, R50, R60): failing its check, or holding the free mark or an entry, with the sighting counter
recorded at its write. -/
inductive NvPlace where
  | failing
  | free (counter : Nat)
  | entry (entry : Entry) (counter : Nat)
deriving DecidableEq, Repr

/-- A settings copy that passes its check: its generation number and its page (R164). -/
structure PageCopy where
  generation : BitVec 32
  page : Page
deriving DecidableEq, Repr

/-- Non-volatile memory: the history places, the two settings copies and the two counter copies; a copy that fails its
check is absent. -/
structure NonVolatile where
  places : Vector NvPlace 64
  pages : Vector (Option PageCopy) 2
  counters : Vector (Option (BitVec 32)) 2
deriving DecidableEq, Repr

/-! ## Engine port (EP), request unit (RQ), notice unit (NU) -/

/-- The engine port's registers and counters (R81, R138, R149). `activeHigh` is the interrupt polarity. -/
structure Port where
  maskLevel : BitVec 3
  activeHigh : Bool
  bigEndian : Bool
  heldLower : Option Half
  droppedWrites : Nat
  bankOverruns : Nat
deriving DecidableEq, Repr

/-- The end cause of a slot in a COMMIT_NOW (12.1, R134). -/
inductive EndCause where
  | notTargeted | drained | stopped | linkFailed | removed | skipped
deriving DecidableEq, Repr

/-- What a parked request waits for (R143). -/
inductive ParkedWork where
  | reverify (slot : Slot)
  | commitNow (single : Option Slot) (causes : Vector EndCause 12)
  | purge
  | settings
  /-- R59: `covered` once a write of the place has begun after the removal. -/
  | forget (place : Fin 64) (covered : Bool)
  | windDown
  | enterService
deriving DecidableEq, Repr

/-- A parked request (R143). -/
structure Parked where
  cell : CellNo
  work : ParkedWork
deriving DecidableEq, Repr

/-- The request unit (R141, R143, R144). `parked` stands in the order in which the cells were taken. -/
structure RequestUnit where
  posted : List CellNo
  parked : List Parked
  completion : Half
deriving DecidableEq, Repr

/-- The notice unit and the interrupt output pin (R150, R151). Bit n of `pending` is class n of 12.6. -/
structure NoticeUnit where
  pending : Byte
  levels : Vector (Fin 8) 8
  outputHigh : Bool
deriving DecidableEq, Repr

/-! ## Power and supply (PS) -/

/-- The power states (R168). -/
inductive PowerState where
  | run | doze | windingDown | sleep
deriving DecidableEq, Repr

/-- The three sequences that start the part afresh (R173). -/
inductive SequenceKind where
  | powerOn | resetLine | restart
deriving DecidableEq, Repr

/-- How far a sequence has come (R173): waiting for the first GOOD, the fold phase, waiting for the clearing point, or
the load after it. -/
inductive SequencePhase where
  | waitGood | fold | awaitClear | load
deriving DecidableEq, Repr

/-- A sequence in progress; BUSY is shown while there is one (R173). -/
structure Sequence where
  kind : SequenceKind
  phase : SequencePhase
deriving DecidableEq, Repr

/-- The power and supply block (R159, R168, R172, R173). `comparatorLow` is the comparator's state, `supplyLow` what it
has reported (STATUS SUPPLY_LOW). -/
structure PowerSupply where
  power : PowerState
  wakeRequests : Bool
  wakeBands : Bool
  windDownCell : Option CellNo
  comparatorLow : Bool
  supplyLow : Bool
  sequence : Option Sequence
  resetAsserted : Bool
  serviceMode : Bool
  checkOutstanding : Option CellNo
  failedAttempts : Nat
  lockoutRunning : Bool
  idleRunning : Bool
deriving DecidableEq, Repr

/-- The MODEL's own counters, which index the free values of Config: power-ons so far, nonces drawn since power-on
(R37), and tally bytes shown that no rule gives (`Config.unreadTally`). -/
structure FreeCounters where
  powerOns : Nat
  nonces : Nat
  unreadTallies : Nat
deriving DecidableEq, Repr

/-- A block that writes slot records (R137, R147). -/
inductive Recorder where
  | slotManager | accountingUnit | commitEngine
deriving DecidableEq, Repr

/-- A write of a slot's record that a block has asked for in the step under way (R147). -/
structure OpenWrite where
  slot : Slot
  block : Recorder
deriving DecidableEq, Repr

/-- The GLD12: its board SRAM, its blocks, its non-volatile memory. -/
structure Part where
  /-- The 4 KiB board, as a list of address and byte pairs in canonical form; an unlisted byte reads 0 (R137). -/
  board : List Host.Cell
  /-- The MODEL's own: the writes of slot records that the blocks have asked for in the step under way, each of which
  carries all that its block writes into that record in the step (R147). Empty between steps. -/
  openWrites : List OpenWrite
  port : Port
  rq : RequestUnit
  bays : Vector Bay 12
  /-- The LED brightness setting (R157). -/
  brightness : Byte
  /-- R156: the effective brightnesses that stood before each change since the last PWM period boundary that the part has
  shown, latest first. A change reaches the outputs at the start of the next PWM period, so the present period still
  shows an earlier one. -/
  earlierBrightness : List Nat
  lp : LinkPool
  dg : DigestEngine
  sm : Vector SlotRow 12
  au : Accounting
  ce : CommitEngine
  hs : HistoryStore
  nv : NonVolatile
  nu : NoticeUnit
  ps : PowerSupply
  free : FreeCounters
deriving DecidableEq, Repr

/-- The machine: the commands that wait, first in first out, and the part. -/
structure State where
  pending : List Instr
  part : Part
deriving DecidableEq, Repr

/-! ## Values after power-on -/

/-- A row of the slot table after any reset (R23), and at EMPTY (R44). R23 gives the kept tally T_r no value: that it is
absent is the model's (DESIGN CHOICE, assumption 61). -/
def SlotRow.blank : SlotRow where
  state := .empty
  verdict := none
  identity := none
  key := none
  nonce := none
  candidate := none
  response := none
  attempts := 0
  linkFailures := 0
  stage := .none
  reverifyOpen := false
  parkedCell := none
  historyLink := false
  timer := .stopped
  reverifyTally := none

/-- A bay at the clearing point, before its contact is sampled (R4, R158). -/
def Bay.blank (contactClosed : Bool) : Bay where
  contactClosed := contactClosed
  presence := .absent
  timer := .stopped
  settledHeld := false
  gap := .counting
  selected := .off
  current := .off

/-- The default calibration (R85, R164). -/
def Calibration.default : Calibration where
  small := 32
  medium := 80
  large := 160
  keys := Vector.replicate 8 1024

/-- The default feed of a channel (R101, R164). -/
def Feed.default (channel : Channel) : Feed where
  ink := 0
  primary := some channel
  secondary := none

/-- A channel after any reset (R85, R88, R90, R101 to R103). -/
def ChannelRow.blank (channel : Channel) : ChannelRow where
  calibration := .default
  pendingCalibration := none
  residue := 0
  total := 0
  maintenance := 0
  feed := .default channel
  pendingFeed := none
  active := none
  unfed := 0

/-- A slot's volumes while it is EMPTY (R110, R118). -/
def Volumes.blank : Volumes where
  remaining := 0
  postEmpty := 0
  maintenance := 0
  thresholds := ⟨0, 0⟩
  pending := none
  low := false
  spent := false
  exhausted := false

/-- The accounting unit after any reset (R77, R84, R95, R100, R119). -/
def Accounting.blank : Accounting where
  channels := Vector.ofFn ChannelRow.blank
  slots := Vector.replicate 12 Volumes.blank
  margin := 50
  betweenPages := true
  lastSequence := 0
  bankSeen := false
  sequenceGaps := 0
  chargeList := []

/-- A slot's commit state after any reset (R120). -/
def CommitRow.blank : CommitRow where
  uncommitted := 0
  inDoubt := 0
  count := 0
  tallyFull := false
  linkLost := false
  unsettled := none
  holders := []
  windDownHolder := false
  windDownEnded := false

/-- The blank settings page: every written mark clear (R164). -/
def Page.blank : Page := Vector.replicate 12 ⟨none, none⟩

/-- The history store before the load (R60, R164, R165): nothing loaded, nothing to save. -/
def HistoryStore.blank : HistoryStore where
  places := Vector.replicate 64 ⟨none, false⟩
  saveQueue := []
  saver := .idle
  sightings := 0
  storeFault := false
  foldAtWrite := false
  page := Page.blank
  pageCopy := none
  settingsQueue := []
  counter := 0
  counterCopy := none
  counterWaiting := false

/-- The default levels of the eight notice classes, in NOTICE bit order (9.1, 12.6). -/
def NoticeUnit.defaultLevels : Vector (Fin 8) 8 := #v[3, 3, 4, 6, 5, 7, 6, 2]

/-- The part at power-on, waiting for the supply's first GOOD (R172, R173; 12.6: STATUS shows 0x00000011), with no
contact closed, the reset input released and an NV that has never been written (R60). -/
def Part.reset : Part where
  board := []
  openWrites := []
  port := ⟨0, false, false, none, 0, 0⟩
  rq := ⟨[], [], 0⟩
  bays := Vector.replicate 12 (Bay.blank false)
  brightness := 255
  earlierBrightness := []
  lp := ⟨Vector.replicate 12 .none, [], []⟩
  dg := ⟨[], false, []⟩
  sm := Vector.replicate 12 SlotRow.blank
  au := .blank
  ce := ⟨Vector.replicate 12 CommitRow.blank, 10, false⟩
  hs := .blank
  nv := ⟨Vector.replicate 64 .failing, #v[none, none], #v[none, none]⟩
  nu := ⟨0, NoticeUnit.defaultLevels, true⟩
  ps := { power := .run, wakeRequests := false, wakeBands := false, windDownCell := none, comparatorLow := true,
          supplyLow := true, sequence := some ⟨.powerOn, .waitGood⟩, resetAsserted := false, serviceMode := false,
          checkOutstanding := none, failedAttempts := 0, lockoutRunning := false, idleRunning := false }
  free := ⟨0, 0, 0⟩

/-- The machine right after power-on: no command waits. -/
def State.reset : State where
  pending := []
  part := Part.reset

end Sys2Proof.Machine
end

