-- ==== Sys2Proof/Machine/Ops.lean ====
section
/-! DEFINITION. The named operations over the board's bytes and over the rows of each block. -/

namespace Sys2Proof.Machine
open Sys2Proof

/-! ## The board as memory (R137) -/

/-- The byte that `memory` holds at `address`; an unlisted byte reads 0 (R137: every byte is 0 after a reset). -/
def Memory.read : List Host.Cell → Nat → Byte
  | [], _ => 0
  | (k, v) :: rest, address => if k = address then v else Memory.read rest address

/-- Write one byte and keep the canonical form: addresses strictly rising, no entry 0. -/
def Memory.write : List Host.Cell → Nat → Byte → List Host.Cell
  | [], address, value => if value = 0 then [] else [(address, value)]
  | (k, v) :: rest, address, value =>
    if k < address then (k, v) :: Memory.write rest address value
    else if k = address then (if value = 0 then rest else (k, value) :: rest)
    else (if value = 0 then (k, v) :: rest else (address, value) :: (k, v) :: rest)

/-- Every listed address is above `floor`, addresses rise strictly and no listed byte is 0. -/
def Memory.wfAbove : Nat → List Host.Cell → Bool
  | _, [] => true
  | floor, (k, v) :: rest => decide (floor ≤ k) && decide (v ≠ 0) && Memory.wfAbove (k + 1) rest

/-- The canonical form of a memory. -/
def Memory.wf (memory : List Host.Cell) : Bool := Memory.wfAbove 0 memory

/-- Write consecutive bytes from `address` on. -/
def Memory.writeBytes : List Host.Cell → Nat → List Byte → List Host.Cell
  | memory, _, [] => memory
  | memory, address, b :: rest => Memory.writeBytes (Memory.write memory address b) (address + 1) rest

/-- Read `count` consecutive bytes from `address` on. -/
def Memory.readBytes (memory : List Host.Cell) : Nat → Nat → List Byte
  | _, 0 => []
  | address, count + 1 => Memory.read memory address :: Memory.readBytes memory (address + 1) count

/-- The `width` bytes of `value`, least significant first; higher bits are dropped. -/
def bytesOf : Nat → Nat → List Byte
  | 0, _ => []
  | width + 1, value => BitVec.ofNat 8 value :: bytesOf width (value / 256)

/-- The number whose bytes, least significant first, are given. -/
def numberOf : List Byte → Nat
  | [] => 0
  | b :: rest => b.toNat + 256 * numberOf rest

/-- The bytes of a field of the board in the byte order CONTROL selects (R177). -/
def fieldBytes (bigEndian : Bool) (width value : Nat) : List Byte :=
  if bigEndian then (bytesOf width value).reverse else bytesOf width value

/-- The number a field of the board holds in the byte order CONTROL selects (R177). -/
def fieldNumber (bigEndian : Bool) (bytes : List Byte) : Nat :=
  if bigEndian then numberOf bytes.reverse else numberOf bytes

/-- A field to be written: offset, width in bytes, value. -/
structure Field where
  offset : Nat
  width : Nat
  value : Nat
deriving DecidableEq, Repr

/-- Write fields at their offsets from `base`, in list order. -/
def Memory.writeFields (bigEndian : Bool) (base : Nat) : List Host.Cell → List Field → List Host.Cell
  | memory, [] => memory
  | memory, f :: rest =>
    Memory.writeFields bigEndian base
      (Memory.writeBytes memory (base + f.offset) (fieldBytes bigEndian f.width f.value)) rest

/-- Read the field of `width` bytes at `address`. -/
def Memory.readField (bigEndian : Bool) (memory : List Host.Cell) (address width : Nat) : Nat :=
  fieldNumber bigEndian (Memory.readBytes memory address width)

/-- One record write (R146): the leading count is increased by one, the fields are written, and the trailing count is
written equal to it. `size` is the length of the record; `oldOrder` is the order in which the count stands. -/
def Memory.writeRecord (oldOrder bigEndian : Bool) (base size : Nat) (fields : List Field)
    (memory : List Host.Cell) : List Host.Cell :=
  let count := (Memory.readField oldOrder memory base 2 + 1) % 65536
  Memory.writeFields bigEndian base memory (⟨0, 2, count⟩ :: fields ++ [⟨size - 2, 2, count⟩])

/-- Write several fields of the board in the order in force. -/
def Part.writeFields (p : Part) (base : Nat) (fields : List Field) : Part :=
  { p with board := Memory.writeFields p.port.bigEndian base p.board fields }

/-- Read a field of the board in the order in force. -/
def Part.readField (p : Part) (address width : Nat) : Nat :=
  Memory.readField p.port.bigEndian p.board address width

/-- Read one byte of the board. -/
def Part.readByte (p : Part) (address : Nat) : Byte := Memory.read p.board address

/-- Write one byte of the board. -/
def Part.writeByte (p : Part) (address : Nat) (value : Byte) : Part :=
  { p with board := Memory.write p.board address value }

/-! ## The board map (R137) -/

def cellBase (cell : CellNo) : Nat := 64 * cell.val
def bankBase (bank : BankNo) : Nat := 0x600 + 256 * bank.val
def slotBase (slot : Slot) : Nat := 0xA00 + 64 * slot.val
def channelBase (channel : Channel) : Nat := 0xD00 + 32 * channel.val
def partInfoBase : Nat := 0xE80

/-- All slots, or channels, in ascending order. -/
def allSlots : List Slot := [0, 1, 2, 3, 4, 5, 6, 7, 8, 9, 10, 11]

/-- All request cells in ascending order. -/
def allCells : List CellNo :=
  [0, 1, 2, 3, 4, 5, 6, 7, 8, 9, 10, 11, 12, 13, 14, 15, 16, 17, 18, 19, 20, 21, 22, 23]

/-- All tally banks in ascending order. -/
def allBanks : List BankNo := [0, 1, 2, 3]

/-- All history places in ascending order. -/
def allPlaces : List (Fin 64) := List.finRange 64

/-- Apply an operation to each slot, or channel, in ascending order. -/
def Part.forSlots (p : Part) (f : Part → Slot → Part) : Part := allSlots.foldl f p

/-! ## The rows of each block -/

def Part.bay (p : Part) (b : Slot) : Bay := p.bays[b]
def Part.link (p : Part) (i : Slot) : LinkState := p.lp.states[i]
def Part.slot (p : Part) (i : Slot) : SlotRow := p.sm[i]
def Part.channel (p : Part) (c : Channel) : ChannelRow := p.au.channels[c]
def Part.volumes (p : Part) (i : Slot) : Volumes := p.au.slots[i]
def Part.commit (p : Part) (i : Slot) : CommitRow := p.ce.rows[i]
def Part.place (p : Part) (k : Fin 64) : PlaceRow := p.hs.places[k]

def Part.setBay (p : Part) (b : Slot) (r : Bay) : Part := { p with bays := p.bays.set b r }
def Part.setLink (p : Part) (i : Slot) (r : LinkState) : Part :=
  { p with lp := { p.lp with states := p.lp.states.set i r } }
def Part.setSlot (p : Part) (i : Slot) (r : SlotRow) : Part := { p with sm := p.sm.set i r }
def Part.setChannel (p : Part) (c : Channel) (r : ChannelRow) : Part :=
  { p with au := { p.au with channels := p.au.channels.set c r } }
def Part.setVolumes (p : Part) (i : Slot) (r : Volumes) : Part :=
  { p with au := { p.au with slots := p.au.slots.set i r } }
def Part.setCommit (p : Part) (i : Slot) (r : CommitRow) : Part :=
  { p with ce := { p.ce with rows := p.ce.rows.set i r } }
def Part.setPlace (p : Part) (k : Fin 64) (r : PlaceRow) : Part :=
  { p with hs := { p.hs with places := p.hs.places.set k r } }

def Part.updBay (p : Part) (b : Slot) (f : Bay → Bay) : Part := p.setBay b (f (p.bay b))
def Part.updSlot (p : Part) (i : Slot) (f : SlotRow → SlotRow) : Part := p.setSlot i (f (p.slot i))
def Part.updChannel (p : Part) (c : Channel) (f : ChannelRow → ChannelRow) : Part := p.setChannel c (f (p.channel c))
def Part.updVolumes (p : Part) (i : Slot) (f : Volumes → Volumes) : Part := p.setVolumes i (f (p.volumes i))
def Part.updCommit (p : Part) (i : Slot) (f : CommitRow → CommitRow) : Part := p.setCommit i (f (p.commit i))
def Part.updPlace (p : Part) (k : Fin 64) (f : PlaceRow → PlaceRow) : Part := p.setPlace k (f (p.place k))

/-! ## Conditions that many rules share -/

/-- BUSY is set from the start of each sequence until its end (R173). -/
def Part.busy (p : Part) : Bool := p.ps.sequence.isSome

/-- The fold phase of a reset-line reset or a restart is under way (R174). -/
def Part.inFoldPhase (p : Part) : Bool :=
  match p.ps.sequence with
  | some q => q.phase == .fold
  | none => false

/-- The part is in SLEEP (R171). -/
def Part.asleep (p : Part) : Bool := p.ps.power == .sleep

/-- The accounting unit and the saver work: not in SLEEP (R52, R99), and during a sequence only in its fold phase
(R61, R100, R174). -/
def Part.works (p : Part) : Bool := !p.asleep && (!p.busy || p.inFoldPhase)

/-! ## Notices (R150, R151) -/

/-- The notice classes, in NOTICE bit order (12.6). -/
inductive NoticeClass where
  | done | slot | level | verdict | tally | supply | store | port
deriving DecidableEq, Repr

/-- The NOTICE bit of a class (12.6). -/
def NoticeClass.bit : NoticeClass → Fin 8
  | .done => 0 | .slot => 1 | .level => 2 | .verdict => 3 | .tally => 4 | .supply => 5 | .store => 6 | .port => 7

/-- A raise makes a class pending; an already pending class stays so (R150). -/
def Part.raise (p : Part) (c : NoticeClass) : Part :=
  { p with nu := { p.nu with pending := p.nu.pending ||| (1#8 <<< c.bit.val) } }

/-- Whether a class is pending. -/
def Part.noticePending (p : Part) (c : NoticeClass) : Bool := p.nu.pending.getLsbD c.bit.val

/-- R151: the output is active while BUSY is clear and some pending class has a level above the mask level. -/
def Part.interruptActive (p : Part) : Bool :=
  !p.busy && (List.finRange 8).any fun c =>
    p.nu.pending.getLsbD c.val && decide (p.port.maskLevel.toNat < (p.nu.levels[c]).val)

/-- The notice unit drives the output to the state the condition gives, at the polarity in CONTROL (R151). -/
def Part.reviewOutput (p : Part) : Part :=
  { p with nu := { p.nu with outputHigh := p.interruptActive == p.port.activeHigh } }

end Sys2Proof.Machine
end

