-- ==== Sys2Proof/Machine/Operands.lean ====
section
/-! DEFINITION. The code tables of section 12.7 and the operands that a request carries: kinds, targets, payload fields,
and the clamping of values to a range. -/

namespace Sys2Proof.Machine
open Sys2Proof

/-! ## State codes (12.1, 12.2) -/

/-- The states of a request cell (R140). -/
inductive CellState where
  | free | posted | taken | done
deriving DecidableEq, Repr

def CellState.code : CellState → Byte
  | .free => 0x00 | .posted => 0x5A | .taken => 0xA5 | .done => 0x3C

/-- The states of a tally bank (R79). -/
inductive BankState where
  | opened | ready | accounted
deriving DecidableEq, Repr

def BankState.code : BankState → Byte
  | .opened => 0x00 | .ready => 0x5A | .accounted => 0x3C

/-- The cell state that a state byte shows. The part and the port write only the four codes; any other byte counts as
FREE. -/
def cellStateOf (b : Byte) : CellState :=
  if b = CellState.posted.code then .posted
  else if b = CellState.taken.code then .taken
  else if b = CellState.done.code then .done
  else .free

/-- The bank state that a state byte shows; a byte other than the READY and ACCOUNTED codes counts as OPEN. -/
def bankStateOf (b : Byte) : BankState :=
  if b = BankState.ready.code then .ready
  else if b = BankState.accounted.code then .accounted
  else .opened

def Part.cellState (p : Part) (c : CellNo) : CellState := cellStateOf (p.readByte (cellBase c))
def Part.bankState (p : Part) (b : BankNo) : BankState := bankStateOf (p.readByte (bankBase b))
def Part.setCellState (p : Part) (c : CellNo) (s : CellState) : Part := p.writeByte (cellBase c) s.code
def Part.setBankState (p : Part) (b : BankNo) (s : BankState) : Part := p.writeByte (bankBase b) s.code

/-! ## Kinds and results (8.3, 12.7) -/

/-- The request kinds (8.3). -/
inductive Kind where
  | setThresholds | setCommit | commitNow | reverify | purge | readHistory | setNoticeLevels | setLedBrightness
  | enterService | leaveService | loadCalibration | setFeed | reconcile | forgetHistory | setRefillMargin | setPower
deriving DecidableEq, Repr

def Kind.code : Kind → Byte
  | .setThresholds => 0x01 | .setCommit => 0x02 | .commitNow => 0x03 | .reverify => 0x04
  | .purge => 0x05 | .readHistory => 0x06 | .setNoticeLevels => 0x07 | .setLedBrightness => 0x08
  | .enterService => 0x09 | .leaveService => 0x0A | .loadCalibration => 0x0B | .setFeed => 0x0C
  | .reconcile => 0x0D | .forgetHistory => 0x0E | .setRefillMargin => 0x0F | .setPower => 0x10

/-- All kinds of the summary table (8.3). -/
def allKinds : List Kind :=
  [.setThresholds, .setCommit, .commitNow, .reverify, .purge, .readHistory, .setNoticeLevels, .setLedBrightness,
   .enterService, .leaveService, .loadCalibration, .setFeed, .reconcile, .forgetHistory, .setRefillMargin, .setPower]

/-- The kind that a kind byte names, if any (R142 step 3). -/
def kindOf (b : Byte) : Option Kind := allKinds.find? fun k => k.code == b

/-- The service-only kinds (8.3, chapter 10). -/
def Kind.serviceOnly : Kind → Bool
  | .loadCalibration | .setFeed | .reconcile | .forgetHistory | .setRefillMargin => true
  | .setThresholds | .setCommit | .commitNow | .reverify | .purge | .readHistory | .setNoticeLevels
  | .setLedBrightness | .enterService | .leaveService | .setPower => false

/-- The result codes (8.3, 12.7). -/
inductive Result where
  | ok | clamped | busy | noCartridge | badArgument | needsService | notNow | locked | tokenRejected | storeFailed
  | linkFailed | abortedRemoved | abortedRestart | superseded | unknownKind
deriving DecidableEq, Repr

def Result.code : Result → Nat
  | .ok => 0x00 | .clamped => 0x01 | .busy => 0x10 | .noCartridge => 0x11 | .badArgument => 0x12
  | .needsService => 0x13 | .notNow => 0x14 | .locked => 0x15 | .tokenRejected => 0x16 | .storeFailed => 0x20
  | .linkFailed => 0x21 | .abortedRemoved => 0x30 | .abortedRestart => 0x31 | .superseded => 0x32
  | .unknownKind => 0x3F

/-- OK, or CLAMPED when an argument was clamped. -/
def okOrClamped (clamped : Bool) : Result := if clamped then .clamped else .ok

/-! ## Codes of the published states (12.1, 12.7) -/

def SlotState.code : SlotState → Nat
  | .empty => 0 | .settling => 1 | .identify => 2 | .derive => 3 | .challenge => 4 | .check => 5 | .resolve => 6
  | .inService => 7 | .rejected => 8 | .reverify => 9 | .linkLost => 10

def Verdict.code : Verdict → Nat
  | .new => 0x01 | .used => 0x02 | .resumed => 0x03 | .depleted => 0x10 | .refilled => 0x11 | .regressed => 0x12
  | .clone => 0x13 | .counterfeit => 0x20 | .wrongInk => 0x21 | .unknownType => 0x22 | .unreadable => 0x23

/-- The code of a verdict field; none is 0x00. -/
def verdictCode : Option Verdict → Nat
  | none => 0
  | some v => v.code

def EndCause.code : EndCause → Nat
  | .notTargeted => 0 | .drained => 1 | .stopped => 2 | .linkFailed => 3 | .removed => 4 | .skipped => 5

def PowerState.code : PowerState → Nat
  | .run => 0 | .doze => 1 | .sleep => 2 | .windingDown => 3

/-- The code of a slot field: 255 means none (00_scope.md, Slots and channels). -/
def slotCode : Option Slot → Nat
  | none => 255
  | some i => i.val

/-- A slot or channel number 0 to 11, if the byte is one. -/
def slotOf (b : Byte) : Option Slot := if h : b.toNat < 12 then some ⟨b.toNat, h⟩ else none

def boolBit (b : Bool) (n : Nat) : Nat := if b then 2 ^ n else 0

/-! ## The operands of a request cell (12.1) -/

def Part.kindByte (p : Part) (c : CellNo) : Byte := p.readByte (cellBase c + 1)
def Part.targetByte (p : Part) (c : CellNo) : Byte := p.readByte (cellBase c + 6)
def Part.optionByte (p : Part) (c : CellNo) : Byte := p.readByte (cellBase c + 7)

/-- The slot or channel that the target names, if it is 0 to 11. -/
def Part.target (p : Part) (c : CellNo) : Option Slot := slotOf (p.targetByte c)

/-- The payload field of `width` bytes at payload offset `offset`, in the byte order in force (R137, R177). -/
def Part.argument (p : Part) (c : CellNo) (offset width : Nat) : Nat := p.readField (cellBase c + 8 + offset) width

/-- The payload byte at payload offset `offset`. -/
def Part.argumentByte (p : Part) (c : CellNo) (offset : Nat) : Byte := p.readByte (cellBase c + 8 + offset)

/-- A value taken into the range from `low` to `high`. -/
def clampTo (low high value : Nat) : Nat := max low (min high value)

/-! ## Bay link codes (R8, 12.6) -/

def statusAccepted : Byte := 0x00
def statusRefused : Byte := 0x01
def statusTallyFull : Byte := 0x02

/-- The command code of an operation (12.6). -/
def LinkOp.code : LinkOp → Byte
  | .identify => 0x10 | .challenge _ => 0x11 | .readTally => 0x12 | .advance _ => 0x13

/-- The response payload length on ACCEPTED (table "Commands at a glance"). -/
def LinkOp.acceptedLength : LinkOp → Nat
  | .identify => 15 | .challenge _ => 8 | .readTally => 2 | .advance _ => 10

end Sys2Proof.Machine
end

