-- ==== Sys2Proof/Machine/Frames.lean ====
section
/-! DEFINITION. The bay link frames: their CRC, the command frames the part sends and the judging of a response
(R5 to R12, 12.6). -/

namespace Sys2Proof.Machine
open Sys2Proof

/-- One shift of the CRC register toward its most significant end (R6). -/
def crcShift (r : Byte) : Byte := if r.getLsbD 7 then (r <<< 1) ^^^ 0x07 else r <<< 1

/-- One byte is taken into the CRC register and shifted eight times (R6). -/
def crcByte (r b : Byte) : Byte :=
  crcShift (crcShift (crcShift (crcShift (crcShift (crcShift (crcShift (crcShift (r ^^^ b))))))))

/-- The CRC-8 of a frame body, from a register of 0x00 (R6). -/
def crc8 (bytes : List Byte) : Byte := bytes.foldl crcByte 0

/-- The command payload of an operation (12.6); `count` is the slot's commit count. -/
def LinkOp.payload (op : LinkOp) (count : Half) : List Byte :=
  match op with
  | .identify => []
  | .challenge nonce => bytesOf 8 nonce.toNat
  | .readTally => []
  | .advance units => bytesOf 1 units ++ bytesOf 2 count.toNat

/-- The bytes of a command frame after its start: code, length, payload, CRC-8 (R6). -/
def LinkOp.frame (op : LinkOp) (count : Half) : List Byte :=
  let body := op.code :: BitVec.ofNat 8 (op.payload count).length :: op.payload count
  body ++ [crc8 body]

/-- The length that a response to `op` with this status must have; none for a status the command may not give
(R7, R8). -/
def LinkOp.requiredLength (op : LinkOp) (status : Byte) : Option Nat :=
  if status = statusAccepted then some op.acceptedLength
  else if status = statusRefused then some 0
  else if status = statusTallyFull then
    (match op with
     | .advance _ => some 0
     | .identify | .challenge _ | .readTally => none)
  else none

/-- Reception goes on past the status and length bytes (R7). -/
def LinkOp.headerOk (op : LinkOp) (status length : Byte) : Bool := op.requiredLength status == some length.toNat

/-- The field of a payload, least significant byte first (R5). -/
def payloadField (payload : List Byte) (offset width : Nat) : Nat := numberOf ((payload.drop offset).take width)

/-- The decoded fields of an ACCEPTED response, or MALFORMED when a field fails its check (R9 to R12). -/
def LinkOp.decodeAccepted (op : LinkOp) (payload : List Byte) : LinkOutcome :=
  match op with
  | .identify =>
    let ink := payloadField payload 8 1
    let tally := payloadField payload 12 2
    if payloadField payload 14 1 = 1 ∧ 1 ≤ ink ∧ ink ≤ 254 ∧ tally ≤ maxTally then
      .identified ⟨BitVec.ofNat 64 (payloadField payload 0 8), BitVec.ofNat 8 ink,
        BitVec.ofNat 8 (payloadField payload 9 1), BitVec.ofNat 16 (payloadField payload 10 2), tally⟩
    else .malformed
  | .challenge _ => .challenged (BitVec.ofNat 64 (payloadField payload 0 8))
  | .readTally =>
    let tally := payloadField payload 0 2
    if tally ≤ maxTally then .tallyRead tally else .malformed
  | .advance _ =>
    let tally := payloadField payload 0 2
    if tally ≤ maxTally then .advanced tally (BitVec.ofNat 64 (payloadField payload 2 8)) else .malformed

/-- R8: a completely received response is judged by the first case that applies. -/
def LinkOp.judge (op : LinkOp) (status length : Byte) (payload : List Byte) (crc : Byte) : LinkOutcome :=
  if crc8 (status :: length :: payload) ≠ crc then .checkError
  else if status = statusRefused then .refused
  else if status = statusTallyFull then .tallyFull
  else op.decodeAccepted payload

/-- The four failures of R8. -/
def LinkOutcome.isFailure : LinkOutcome → Bool
  | .noResponse | .checkError | .malformed | .refused => true
  | .tallyFull | .identified _ | .challenged _ | .tallyRead _ | .advanced _ _ => false

/-- R9: the key generation is the two most significant bits of the batch code. -/
def keyGeneration (batch : Half) : Fin 4 := ⟨(batch >>> 14).toNat, by
  have h := batch.isLt
  simp only [BitVec.toNat_ushiftRight, Nat.shiftRight_eq_div_pow]
  omega⟩

end Sys2Proof.Machine
end

