-- ==== Sys2Proof/Machine/Digest.lean ====
section
/-! DEFINITION. The digest engine: its queue and what each operation compares (R34 to R37). -/

namespace Sys2Proof.Machine
open Sys2Proof

/-- The entry belongs to the owner. -/
def DigestEntry.ownedBy (owner : DigestOwner) (e : DigestEntry) : Bool := e.owner == owner

/-- The operation is a DERIVE or a CHALLENGE_CHECK (R36). -/
def DigestOp.forSlotManager : DigestOp → Bool
  | .derive _ _ _ | .challengeCheck _ _ _ _ _ => true
  | .receiptCheck _ _ _ _ _ | .tokenCheck _ _ => false

/-- R35: an owner queues an operation; while an entry of the owner stands in the queue, the request is held outside. -/
def Part.queueDigest (p : Part) (owner : DigestOwner) (op : DigestOp) : Part :=
  if p.dg.queue.any (DigestEntry.ownedBy owner) then
    { p with dg := { p.dg with behind := p.dg.behind ++ [⟨owner, op⟩] } }
  else { p with dg := { p.dg with queue := p.dg.queue ++ [⟨owner, op⟩] } }

/-- R36: every entry and every held request that meets the condition is cancelled. An operation being computed is
stopped when its entry is cancelled. A request of the same owner that is not cancelled joins the tail. -/
def Part.cancelDigest (p : Part) (cancelled : DigestEntry → Bool) : Part :=
  let stopped := p.dg.computing &&
    (match p.dg.queue with
     | e :: _ => cancelled e
     | [] => true)
  let queue := p.dg.queue.filter fun e => !cancelled e
  let behind := p.dg.behind.filter fun e => !cancelled e
  let freed := behind.filter fun e => !queue.any (DigestEntry.ownedBy e.owner)
  let waiting := behind.filter fun e => queue.any (DigestEntry.ownedBy e.owner)
  { p with dg := ⟨queue ++ freed, p.dg.computing && !stopped, waiting⟩ }

/-- R35: the result of the head is handed over: the entry leaves the queue, and a request held behind it joins the
tail. -/
def Part.popDigest (p : Part) : Part :=
  match p.dg.queue with
  | e :: rest =>
    let next := p.dg.behind.filter (DigestEntry.ownedBy e.owner)
    { p with dg := ⟨rest ++ next.take 1, false,
        next.drop 1 ++ p.dg.behind.filter fun x => !DigestEntry.ownedBy e.owner x⟩ }
  | [] => p

/-- The entry that is being computed (R35). -/
def Part.digestHead (p : Part) : Option DigestEntry := if p.dg.computing then p.dg.queue.head? else none

/-- R35, R36: the idle digest engine takes the head of the queue, except in SLEEP. -/
def Part.takeDigest (p : Part) : Part :=
  if !p.dg.computing && !p.dg.queue.isEmpty && !p.asleep then { p with dg := { p.dg with computing := true } } else p

/-- R34, DERIVE: digest(master[key generation], serial ‖ batch code). -/
def cartridgeKey (generation : Fin 4) (serial : Quad) (batch : Half) : Quad :=
  Config.digest (Config.master generation) (serial ++ batch)

/-- R34, CHALLENGE_CHECK: digest(cartridge key, nonce ‖ serial ‖ tally) equals the challenge response. -/
def challengeMatches (key nonce serial : Quad) (tally : Nat) (response : Quad) : Bool :=
  Config.digest key (nonce ++ serial ++ BitVec.ofNat 16 tally) == response

/-- R34, RECEIPT_CHECK: digest(cartridge key, bring-up nonce ‖ commit count ‖ new tally) equals the receipt. -/
def receiptMatches (key nonce : Quad) (count : Half) (tally : Nat) (receipt : Quad) : Bool :=
  Config.digest key (nonce ++ count ++ BitVec.ofNat 16 tally) == receipt

/-- R34, TOKEN_CHECK: digest(service master, part serial ‖ service counter) equals the token. -/
def tokenMatches (counter : BitVec 32) (token : Quad) : Bool :=
  Config.digest Config.serviceMaster (Config.partSerial ++ counter) == token

/-- R37: the nonce that the random source gives next. -/
def Part.freshNonce (p : Part) : Quad := Config.nonceShuffle p.free.powerOns (BitVec.ofNat 64 p.free.nonces)

/-- R37: a nonce has been drawn. -/
def Part.nonceDrawn (p : Part) : Part := { p with free := { p.free with nonces := p.free.nonces + 1 } }

end Sys2Proof.Machine
end

