-- ==== Sys2Proof/Machine/Flags.lean ====
section
/-! DEFINITION. The conditions and flags computed from a slot's or a channel's values: verdict classes, rated volumes,
LOW, SPENT, qualification, feed state, LED pattern. -/

namespace Sys2Proof.Machine
open Sys2Proof

/-- The three classes of verdict (R62). -/
inductive VerdictClass where
  | tracked | untracked | rejected
deriving DecidableEq, Repr

def Verdict.class : Verdict → VerdictClass
  | .new | .used | .resumed => .tracked
  | .depleted | .refilled | .regressed | .clone => .untracked
  | .counterfeit | .wrongInk | .unknownType | .unreadable => .rejected

/-- R62, column "Commits": the verdicts whose slots commit. -/
def Verdict.allowsCommits : Verdict → Bool
  | .new | .used | .resumed | .depleted | .refilled => true
  | .regressed | .clone | .counterfeit | .wrongInk | .unknownType | .unreadable => false

/-- R62, column "Refill margin tested". -/
def Verdict.marginTested : Verdict → Bool
  | .new | .used | .resumed | .depleted => true
  | .refilled | .regressed | .clone | .counterfeit | .wrongInk | .unknownType | .unreadable => false

/-- The verdicts that the history keeps for a serial (R49, R66). -/
def Verdict.sticky : Verdict → Bool
  | .refilled | .regressed | .clone => true
  | .new | .used | .resumed | .depleted | .counterfeit | .wrongInk | .unknownType | .unreadable => false

/-- The order in which a verdict in service moves (R71). -/
def Verdict.rank : Verdict → Nat
  | .new | .used | .resumed => 0
  | .depleted => 1 | .refilled => 2 | .regressed => 3 | .clone => 4
  | .counterfeit => 5 | .wrongInk | .unknownType | .unreadable => 6

/-- R71: whether an escalation to `next` is carried out on a slot whose verdict is `now`. -/
def escalates (now next : Verdict) : Bool :=
  now.class != .rejected && (next == .counterfeit || decide (now.rank < next.rank))

/-- The rated volume of a volume class in nL (R63 step 2, R110); 0 for an unknown class. -/
def ratedVolume (volumeClass : Byte) : Nat :=
  if volumeClass = 1 then 130000000
  else if volumeClass = 2 then 220000000
  else if volumeClass = 3 then 440000000
  else if volumeClass = 4 then 700000000
  else 0

/-- The volume classes that are known (R64 case 2). -/
def knownClass (volumeClass : Byte) : Bool :=
  volumeClass == 1 || volumeClass == 2 || volumeClass == 3 || volumeClass == 4

/-- The default thresholds of a volume class: a tenth and a fiftieth of the rated volume (R110). -/
def defaultThresholds (volumeClass : Byte) : Thresholds :=
  ⟨ratedVolume volumeClass / 10, ratedVolume volumeClass / 50⟩

/-- The margin volume: the margin in per mille times the rated volume, divided by 1000 (R63 step 2). -/
def marginVolume (margin : Nat) (volumeClass : Byte) : Nat := margin * ratedVolume volumeClass / 1000

/-! ## Groups of slot states (R24) -/

def SlotState.bringUp : SlotState → Bool
  | .identify | .derive | .challenge | .check | .resolve => true
  | .empty | .settling | .inService | .rejected | .reverify | .linkLost => false

def SlotState.inServiceGroup : SlotState → Bool
  | .inService | .reverify | .linkLost => true
  | .empty | .settling | .identify | .derive | .challenge | .check | .resolve | .rejected => false

/-- The slot has a verdict of the given class. -/
def SlotRow.hasClass (r : SlotRow) (c : VerdictClass) : Bool :=
  match r.verdict with
  | some v => v.class == c
  | none => false

/-- The slot's verdict allows commits (R62). -/
def SlotRow.allowsCommits (r : SlotRow) : Bool :=
  match r.verdict with
  | some v => v.allowsCommits
  | none => false

/-- The slot's verdict is one whose post-empty draw is tested against the margin (R73). -/
def SlotRow.marginTested (r : SlotRow) : Bool :=
  match r.verdict with
  | some v => v.marginTested
  | none => false

/-- The slot carries `serial` (R48). -/
def SlotRow.carries (r : SlotRow) (serial : Quad) : Bool :=
  match r.identity with
  | some id => id.serial == serial
  | none => false

/-- The volume class of the slot's cartridge, 0 while no identity is present. -/
def SlotRow.volumeClass (r : SlotRow) : Byte :=
  match r.identity with
  | some id => id.volumeClass
  | none => 0

/-! ## Qualification and feed state -/

/-- R104: the slot qualifies as a source. -/
def Part.qualifies (p : Part) (i : Slot) : Bool :=
  (p.slot i).state.inServiceGroup && (p.slot i).hasClass .tracked
    && decide ((p.volumes i).thresholds.stop < (p.volumes i).remaining)

/-- R104: the slot is present for a channel. -/
def Part.presentForChannel (p : Part) (i : Slot) : Bool := (p.slot i).state.inServiceGroup

/-- The feed states (R103). -/
inductive FeedState where
  | unfed | primary | secondary | starved
deriving DecidableEq, Repr

def FeedState.code : FeedState → Nat
  | .unfed => 0 | .primary => 1 | .secondary => 2 | .starved => 3

/-- The feed state follows from the active source (R103). -/
def Part.feedState (p : Part) (c : Channel) : FeedState :=
  match (p.channel c).active with
  | none => .unfed
  | some i =>
    if (p.slot i).hasClass .tracked && decide (0 < (p.volumes i).remaining) then
      (if (p.channel c).feed.primary = some i then .primary else .secondary)
    else .starved

/-- The channel whose effective feed names the slot, if any (R101). -/
def Part.channelOf (p : Part) (i : Slot) : Option Channel :=
  allSlots.find? fun c => (p.channel c).feed.primary == some i || (p.channel c).feed.secondary == some i

/-- Any setting of any item is pending (R98). -/
def Part.settingPending (p : Part) : Bool :=
  allSlots.any fun n => (p.channel n).pendingCalibration.isSome || (p.channel n).pendingFeed.isSome
    || (p.volumes n).pending.isSome

/-! ## Bay indicators (R153, R154, R156) -/

/-- R154: the pattern that a slot's state, verdict, LOW and SPENT select, by the first row that applies. -/
def selectPattern (r : SlotRow) (low spent : Bool) : Pattern :=
  match r.state with
  | .empty | .settling => .off
  | .identify | .derive | .challenge | .check | .resolve => .fastBlink
  | .rejected => .steadyFast
  | .inService | .reverify | .linkLost =>
    if r.hasClass .untracked then .doubleFlash
    else if spent then .fastBlink
    else if low then .slowBlink
    else .solid

/-- R153: the period of a pattern in ms. -/
def Pattern.period : Pattern → Nat
  | .off | .solid => 1
  | .slowBlink | .doubleFlash => 1000
  | .fastBlink => 250
  | .steadyFast => 125

/-- R153: whether a moment, in ms from the start of the period, lies in an on interval of the pattern. -/
def Pattern.isOn : Pattern → Nat → Bool
  | .off, _ => false
  | .solid, t => t < 1
  | .slowBlink, t => t < 500
  | .fastBlink, t => t < 125
  | .doubleFlash, t => t < 100 || (200 ≤ t && t < 300)
  | .steadyFast, t => t < 62

/-- R156: the effective brightness in each power state. -/
def Part.effectiveBrightness (p : Part) : Nat :=
  match p.ps.power with
  | .run | .windingDown => p.brightness.toNat
  | .doze => p.brightness.toNat / 4
  | .sleep => 0

/-- R156: the brightness of a PWM period within which the effective brightness has changed `changes` times. A change
takes effect at the start of the next PWM period, so that the period keeps the brightness it began with (assumption 3). -/
def Part.shownBrightness (p : Part) (changes : Nat) : Nat :=
  match changes with
  | 0 => p.effectiveBrightness
  | n + 1 => p.earlierBrightness[n]?.getD p.effectiveBrightness

/-- R156: the effective brightness that stood before a step is kept when the step changed it. -/
def Part.keepBrightness (before p : Part) : Part :=
  if before.effectiveBrightness = p.effectiveBrightness then p
  else { p with earlierBrightness := before.effectiveBrightness :: p.earlierBrightness }

/-- R155, R156: the LED output of a bay, `t` ms into the current period of its pattern and `x`/255 into a PWM period that
has seen `changes` changes of the effective brightness: active in an on interval for the first b/255 of the PWM period, b
being the brightness with which that period began. -/
def Part.ledActive (p : Part) (b : Slot) (t x changes : Nat) : Bool :=
  (p.bay b).current.isOn t && decide (x < p.shownBrightness changes)

/-- The pattern generator chooses each bay's selected pattern again from its inputs (R154). -/
def Part.choosePatterns (p : Part) : Part :=
  { p with bays := Vector.ofFn fun b =>
      { p.bay b with selected := selectPattern (p.slot b) (p.volumes b).low (p.volumes b).spent } }

/-! ## Line power (R3) -/

/-- R3: the bay's link line is on. -/
def Part.lineOn (p : Part) (b : Slot) : Bool :=
  !p.asleep && ((p.bay b).presence == .present || (p.bay b).presence == .leaving)

end Sys2Proof.Machine
end

