-- ==== Sys2Proof/Machine/Records.lean ====
section
/-! DEFINITION. The records that the part publishes on the board (R146, R147, R176; layouts of 12.3 and 12.4), the
completion of a request (R144), and what the engine reads (R137, R139, R148, R149). -/

namespace Sys2Proof.Machine
open Sys2Proof

/-- One record write by the record writer (R147); `oldOrder` is the order in which the record's counts stand. -/
def Part.writeRecord (p : Part) (oldOrder : Bool) (base size : Nat) (fields : List Field) : Part :=
  { p with board := Memory.writeRecord oldOrder p.port.bigEndian base size fields p.board }

/-! ## Slot records (12.3) -/

/-- The fields that the slot manager writes: state, verdict, identity; the identity fields are 0 while it is absent. -/
def Part.slotIdentityFields (p : Part) (i : Slot) : List Field :=
  let r := p.slot i
  ⟨2, 1, r.state.code⟩ :: ⟨3, 1, verdictCode r.verdict⟩ ::
  (match r.identity with
   | some id => [⟨6, 2, id.batch.toNat⟩, ⟨8, 8, id.serial.toNat⟩, ⟨16, 1, id.ink.toNat⟩,
                 ⟨17, 1, id.volumeClass.toNat⟩, ⟨18, 2, id.tally⟩]
   | none => [⟨6, 2, 0⟩, ⟨8, 8, 0⟩, ⟨16, 1, 0⟩, ⟨17, 1, 0⟩, ⟨18, 2, 0⟩])

/-- The flags byte: LOW, SPENT, EXHAUSTED of the accounting unit, LINK_LOST and TALLY_FULL of the commit engine. -/
def Part.slotFlags (p : Part) (i : Slot) : Nat :=
  boolBit (p.volumes i).low 0 + boolBit (p.volumes i).spent 1 + boolBit (p.volumes i).exhausted 2
    + boolBit (p.commit i).linkLost 3 + boolBit (p.commit i).tallyFull 4

/-- The fields that the accounting unit writes. -/
def Part.slotVolumeFields (p : Part) (i : Slot) : List Field :=
  let v := p.volumes i
  [⟨4, 1, p.slotFlags i⟩, ⟨20, 4, v.remaining⟩, ⟨24, 4, v.thresholds.warn⟩, ⟨28, 4, v.thresholds.stop⟩,
   ⟨32, 4, v.postEmpty⟩, ⟨36, 4, v.maintenance⟩]

/-- The fields that the commit engine writes. -/
def Part.slotCommitFields (p : Part) (i : Slot) : List Field :=
  [⟨4, 1, p.slotFlags i⟩, ⟨5, 1, (p.commit i).inDoubt⟩, ⟨40, 4, (p.commit i).uncommitted⟩]

/-- Bytes 44 to 61 of a slot record are written 0 at every record write (R176). -/
def slotZeroFields : List Field := [⟨44, 18, 0⟩]

/-- A block asks for a write of a slot's record with the given fields (R147). All that one block asks for in one step
goes into one write, so that the change counts grow at its first asking and its later fields join that write; two blocks
make two writes. A step is one command (assumption 13). -/
def Part.writeSlotRecord (p : Part) (block : Recorder) (i : Slot) (fields : List Field) : Part :=
  if p.openWrites.contains ⟨i, block⟩ then p.writeFields (slotBase i) (fields ++ slotZeroFields)
  else { p.writeRecord p.port.bigEndian (slotBase i) 64 (fields ++ slotZeroFields) with
           openWrites := ⟨i, block⟩ :: p.openWrites }

/-- R147: at the end of a step every write that a block asked for is done. -/
def Part.closeWrites (p : Part) : Part := { p with openWrites := [] }

/-- The slot manager's record write (R24); two changes of one slot in one step make one write (R147). -/
def Part.recordIdentity (p : Part) (i : Slot) : Part := p.writeSlotRecord .slotManager i (p.slotIdentityFields i)

/-- The accounting unit's record write (R113, R115). -/
def Part.recordVolumes (p : Part) (i : Slot) : Part := p.writeSlotRecord .accountingUnit i (p.slotVolumeFields i)

/-- The commit engine's record write (R120). -/
def Part.recordCommit (p : Part) (i : Slot) : Part := p.writeSlotRecord .commitEngine i (p.slotCommitFields i)

/-- The accounting unit's record write of a share, which carries the commit engine's fields as well (R109, R120). -/
def Part.recordShare (p : Part) (i : Slot) : Part :=
  p.writeSlotRecord .accountingUnit i (p.slotVolumeFields i ++ p.slotCommitFields i)

/-- The slot manager's record write of an escalation: state and verdict with the cleared LOW and SPENT (R72, R112). -/
def Part.recordEscalation (p : Part) (i : Slot) : Part :=
  p.writeSlotRecord .slotManager i (p.slotIdentityFields i ++ p.slotVolumeFields i)

/-- Every field of a slot record. -/
def Part.slotFields (p : Part) (i : Slot) : List Field :=
  p.slotIdentityFields i ++ p.slotVolumeFields i ++ p.slotCommitFields i

/-- The slot manager's record write with every field (R44, R118). -/
def Part.recordSlot (p : Part) (i : Slot) : Part := p.writeSlotRecord .slotManager i (p.slotFields i)

/-! ## Channel records and part information (12.4) -/

/-- Every field of a channel record. -/
def Part.channelFields (p : Part) (c : Channel) : List Field :=
  let r := p.channel c
  [⟨2, 1, r.feed.ink.toNat⟩, ⟨3, 1, slotCode r.feed.primary⟩, ⟨4, 1, slotCode r.feed.secondary⟩,
   ⟨5, 1, slotCode r.active⟩, ⟨6, 1, (p.feedState c).code⟩, ⟨7, 1, boolBit p.settingPending 0⟩,
   ⟨8, 8, r.total.toNat⟩, ⟨16, 8, r.maintenance.toNat⟩, ⟨24, 4, r.unfed⟩, ⟨28, 2, 0⟩]

/-- A channel's record write (R102). -/
def Part.recordChannel (p : Part) (c : Channel) : Part :=
  p.writeRecord p.port.bigEndian (channelBase c) 32 (p.channelFields c)

/-- Every field of part information. -/
def Part.partInfoFields (p : Part) : List Field :=
  [⟨2, 8, Config.partSerial.toNat⟩, ⟨10, 2, p.port.droppedWrites⟩, ⟨12, 2, p.port.bankOverruns⟩,
   ⟨14, 2, p.au.sequenceGaps⟩, ⟨16, 2, p.au.lastSequence.toNat⟩, ⟨18, 1, boolBit p.hs.storeFault 0⟩, ⟨19, 1, 0⟩,
   ⟨20, 2, p.au.margin⟩, ⟨22, 104, 0⟩]

/-- The write of part information (R147). -/
def Part.recordPartInfo (p : Part) : Part :=
  p.writeRecord p.port.bigEndian partInfoBase 128 p.partInfoFields

/-- What part information shows besides the part serial. -/
def Part.partInfo (p : Part) : Nat × Nat × Nat × Half × Bool × Nat :=
  (p.port.droppedWrites, p.port.bankOverruns, p.au.sequenceGaps, p.au.lastSequence, p.hs.storeFault, p.au.margin)

/-- The records stand on the board: outside a sequence and in the fold phase. Between the end of the fold phase and the
end of the load they are not kept, since the clearing point blanks them (R137). -/
def Part.recordsKept (p : Part) : Bool := !p.busy || p.inFoldPhase

/-- R102: a channel's record is written when one of its fields has changed in the step from `before` to `p`, once. -/
def Part.syncChannel (before p : Part) (c : Channel) : Part :=
  if before.channelFields c = p.channelFields c then p else p.recordChannel c

/-- Part information is written when one of its fields has changed in the step, once. -/
def Part.syncPartInfo (before p : Part) : Part :=
  if before.partInfo = p.partInfo then p else p.recordPartInfo

/-- The record writes of channel records and part information that a step calls for. -/
def Part.syncRecords (before p : Part) : Part :=
  if p.recordsKept then Part.syncPartInfo before (p.forSlots (Part.syncChannel before)) else p

/-- R147, R149: after a change of byte order every record is rewritten in the new order. -/
def Part.rewriteRecords (p : Part) (oldOrder : Bool) : Part :=
  let p := p.forSlots fun q i => q.writeRecord oldOrder (slotBase i) 64 (q.slotFields i ++ slotZeroFields)
  let p := p.forSlots fun q c => q.writeRecord oldOrder (channelBase c) 32 (q.channelFields c)
  p.writeRecord oldOrder partInfoBase 128 p.partInfoFields

/-! ## Completion of a request (R144) -/

/-- R144: the result data, the result code, the completion number, then DONE; the DONE notice is raised, and the cell
leaves the set of parked requests. Offsets of `data` are payload offsets. -/
def Part.complete (p : Part) (cell : CellNo) (result : Result) (data : List Field) : Part :=
  let number := p.rq.completion + 1
  let p := p.writeFields (cellBase cell + 8) data
  let p := p.writeFields (cellBase cell) [⟨3, 1, result.code⟩, ⟨4, 2, number.toNat⟩]
  let p := p.setCellState cell .done
  Part.raise { p with rq := { p.rq with completion := number,
                                        parked := p.rq.parked.filter fun k => k.cell != cell } } .done

/-- Park a taken request (R143). -/
def Part.park (p : Part) (cell : CellNo) (work : ParkedWork) : Part :=
  { p with rq := { p.rq with parked := p.rq.parked ++ [⟨cell, work⟩] } }

/-! ## Engine reads (R137, R139, R148, R149) -/

/-- STATUS (12.6): BUSY, power state, SERVICE, SUPPLY_LOW, posted count. -/
def Part.statusValue (p : Part) : BitVec 32 :=
  BitVec.ofNat 32 (boolBit p.busy 0 + 2 * p.ps.power.code + boolBit p.ps.serviceMode 3 + boolBit p.ps.supplyLow 4
    + 256 * p.rq.posted.length)

/-- CONTROL as it reads: RESTART 0, mask level, polarity, byte order in all four bytes (R149). -/
def Part.controlValue (p : Part) : BitVec 32 :=
  BitVec.ofNat 32 (2 * p.port.maskLevel.toNat + boolBit p.port.activeHigh 4
    + (if p.port.bigEndian then 0x80808080 else 0))

/-- One of the four registers (12.6). -/
inductive Register where
  | id | control | notice | status
deriving DecidableEq, Repr

/-- A read of a whole register. While BUSY is shown only STATUS answers (R139). -/
def Part.readRegister (p : Part) (r : Register) : BitVec 32 :=
  match r with
  | .status => p.statusValue
  | .id => if p.busy then 0 else 0x3A120003
  | .control => if p.busy then 0 else p.controlValue
  | .notice => if p.busy then 0 else BitVec.ofNat 32 p.nu.pending.toNat

/-- The register that a word address from 0xFF0 on belongs to (12.6). -/
def registerAt (address : Nat) : Register :=
  if address < 0xFF4 then .id else if address < 0xFF8 then .control else if address < 0xFFC then .notice else .status

/-- One half of a register: bits 15 to 0, or bits 31 to 16. -/
def Part.readHalf (p : Part) (r : Register) (upper : Bool) : Half :=
  (p.readRegister r).extractLsb' (if upper then 16 else 0) 16

/-- R137, R177: the half that stands at a word address from 0xFF0 on: the lower half at the register's address, the upper
half at the address two above, whatever the byte order. -/
def Part.halfAt (p : Part) (address : Nat) : Half := p.readHalf (registerAt address) (decide (2 ≤ address % 4))

/-- The assigned bits of a bank's flags byte: PAGE_END (12.2). -/
def bankFlagBits : Byte := 1

/-- R176: the bits of the board byte at an address that an engine read can show. In the flags byte of a bank, which lands as
the engine writes it (R79), the bits that 12.2 does not assign read 0 (DEDUCED, assumption 59). -/
def shownBits (address : Nat) : Byte :=
  if 0x600 ≤ address ∧ address < 0xA00 ∧ address % 256 = 1 then bankFlagBits else 0xFF

/-- A byte of the board as an engine read shows it (R137, R176). -/
def Part.shownByte (p : Part) (address : Nat) : Byte := p.readByte address &&& shownBits address

/-- An engine read of the two bytes of a word (R137, R139): of a half of a register from 0xFF0 on, bits 7 to 0 first
(assumption 46); below, 0 while BUSY is shown and in the undecoded region 0xF00 to 0xFEF, else the board's bytes. -/
def Part.readWord (p : Part) (word : BitVec 11) : Byte × Byte :=
  let address := 2 * word.toNat
  if 0xFF0 ≤ address then ((p.halfAt address).extractLsb' 0 8, (p.halfAt address).extractLsb' 8 8)
  else if p.busy || decide (0xF00 ≤ address) then (0, 0)
  else (p.shownByte address, p.shownByte (address + 1))

end Sys2Proof.Machine
end

