-- ==== Sys2Proof/Machine/History.lean ====
section
/-! DEFINITION. The history table in RAM: lookup, dirtying and the save queue (R46 to R51, R56). -/

namespace Sys2Proof.Machine
open Sys2Proof

/-- The place holds an entry for `serial`. -/
def PlaceRow.holds (r : PlaceRow) (serial : Quad) : Bool :=
  match r.entry with
  | some e => e.serial == serial
  | none => false

/-- R48: lookup by serial. -/
def Part.findPlace (p : Part) (serial : Quad) : Option (Fin 64) := allPlaces.find? fun k => (p.place k).holds serial

/-- R48: an entry is held when some slot's identity carries its serial. -/
def Part.serialHeld (p : Part) (serial : Quad) : Bool := allSlots.any fun i => (p.slot i).carries serial

/-- The place holds an entry that is held (R48). -/
def Part.placeHeld (p : Part) (k : Fin 64) : Bool :=
  match (p.place k).entry with
  | some e => p.serialHeld e.serial
  | none => false

/-- R48: the place of the entry that a slot holds: the one whose serial its identity carries. -/
def Part.heldPlace (p : Part) (i : Slot) : Option (Fin 64) := (p.slot i).identity.bind fun id => p.findPlace id.serial

/-- R48: the place of the entry that a slot's history link stands for. -/
def Part.linkedPlace (p : Part) (i : Slot) : Option (Fin 64) := if (p.slot i).historyLink then p.heldPlace i else none

/-- The entry that a slot's history link stands for. -/
def Part.linkedEntry (p : Part) (i : Slot) : Option Entry := (p.linkedPlace i).bind fun k => (p.place k).entry

/-- The committed tally T_h of a slot (R120): the field of its history entry. A slot without an entry, which no rule
asks for, reads 0. -/
def Part.committedTally (p : Part) (i : Slot) : Nat :=
  match p.linkedEntry i with
  | some e => e.tally
  | none => 0

/-- The saver is writing this place (R52). -/
def Saver.writes (s : Saver) (k : Fin 64) : Bool :=
  match s with
  | .place w _ _ _ _ => w == k
  | .idle | .counter _ _ | .settings _ _ _ => false

/-- Mark the place in the saver's hands changed during write. -/
def Saver.markChanged (s : Saver) : Saver :=
  match s with
  | .place k copy sightings second _ => .place k copy sightings second true
  | .idle => .idle
  | .counter value second => .counter value second
  | .settings request page second => .settings request page second

/-- A place joins the tail of the save queue unless it already stands on it. -/
def Part.enqueuePlace (p : Part) (k : Fin 64) : Part :=
  if p.hs.saveQueue.contains k then p
  else { p with hs := { p.hs with saveQueue := p.hs.saveQueue ++ [k] } }

/-- R51: a place is dirtied. A place being written is marked changed during write; any other joins the queue or keeps
its position on it. -/
def Part.dirtyPlace (p : Part) (k : Fin 64) : Part :=
  let p := p.updPlace k fun r => { r with dirty := true }
  if p.hs.saver.writes k then { p with hs := { p.hs with saver := p.hs.saver.markChanged } }
  else p.enqueuePlace k

/-- A field of an entry is written and the place dirtied (R47, R51). -/
def Part.changeEntry (p : Part) (k : Fin 64) (f : Entry → Entry) : Part :=
  (p.updPlace k fun r => { r with entry := r.entry.map f }).dirtyPlace k

/-- A field of the entry of a slot is written through its history link (R47, R48). -/
def Part.changeLinkedEntry (p : Part) (i : Slot) (f : Entry → Entry) : Part :=
  match p.linkedPlace i with
  | some k => p.changeEntry k f
  | none => p

/-- Some slot with history link yes holds the entry in the place (R56). -/
def Part.placeLinked (p : Part) (k : Fin 64) : Bool := allSlots.any fun i => p.linkedPlace i == some k

/-- R56: the places of the entries that some slot with history link yes holds, ordered by the lowest slot number holding
each, with or without a history link (R48). -/
def Part.heldPlaces (p : Part) : List (Fin 64) := (allSlots.filterMap p.heldPlace).eraseDups.filter p.placeLinked

/-- R56: the held entries go to the head of the save queue in slot order and are dirty; a place being written is marked
changed, so that it stays dirty while it stands on the queue. -/
def Part.reorderSaveQueue (p : Part) : Part :=
  let group := p.heldPlaces
  let p := group.foldl (fun q k => q.dirtyPlace k) p
  { p with hs := { p.hs with saveQueue := group ++ p.hs.saveQueue.filter fun k => !group.contains k } }

/-! ## Insertion and eviction (R46, R49) -/

/-- The free place with the lowest number. -/
def Part.freePlace (p : Part) : Option (Fin 64) := allPlaces.find? fun k => (p.place k).entry.isNone

/-- The entry in a place, when it may be evicted: it is not held (R49 step 1). -/
def Part.evictable (p : Part) (k : Fin 64) : Option (Fin 64 × Entry) :=
  match (p.place k).entry with
  | some e => if p.serialHeld e.serial then none else some (k, e)
  | none => none

/-- The candidate with the lowest sighting number, the earlier one on equal numbers (R49 step 3). -/
def lowestSighting : List (Fin 64 × Entry) → Option (Fin 64 × Entry)
  | [] => none
  | x :: rest =>
    match lowestSighting rest with
    | some y => if x.2.sighting ≤ y.2.sighting then some x else some y
    | none => some x

/-- R49: the place that eviction empties. -/
def Part.evictionPlace (p : Part) : Option (Fin 64) :=
  let candidates := allPlaces.filterMap p.evictable
  let preferred := candidates.filter fun x => !x.2.verdict.sticky
  (lowestSighting (if preferred.isEmpty then candidates else preferred)).map fun x => x.1

/-- R46, R49: insert a new entry, in the free place with the lowest number or in the place that eviction empties, and
dirty the place. -/
def Part.insertEntry (p : Part) (e : Entry) : Part :=
  match p.freePlace.or p.evictionPlace with
  | some k => (p.updPlace k fun r => { r with entry := some e }).dirtyPlace k
  | none => p

end Sys2Proof.Machine
end

