-- ==== Sys2Proof/Machine/Commit.lean ====
section
/-! DEFINITION. The commit engine's conditions and the end of a flush (R120 to R126, R133, R134). -/

namespace Sys2Proof.Machine
open Sys2Proof

/-- The slot is IN_SERVICE, its verdict allows commits and its TALLY_FULL is clear (R124, R126). -/
def Part.serviceable (p : Part) (i : Slot) : Bool :=
  (p.slot i).state == .inService && (p.slot i).allowsCommits && !(p.commit i).tallyFull

/-- The slot has a flush holder (R120, R133). -/
def CommitRow.flushing (r : CommitRow) : Bool := !r.holders.isEmpty || r.windDownHolder

/-- R124: the slot is commit-due, by its quantum in RUN or for a flush holder in RUN, DOZE or WINDING_DOWN. -/
def Part.commitDue (p : Part) (i : Slot) : Bool :=
  p.serviceable i &&
    ((p.ps.power == .run && decide (p.ce.quantum * unitVolume ≤ (p.commit i).uncommitted))
      || ((p.commit i).flushing && !p.asleep && decide (unitVolume ≤ (p.commit i).uncommitted)))

/-- The size of the ADVANCE_TALLY that the commit engine asks for (R126). -/
def Part.advanceSize (p : Part) (i : Slot) : Nat := min 255 ((p.commit i).uncommitted / unitVolume)

/-- R126: the commit engine's answer, after an operation that was a success or not (`success`), in a hold that has sent
`frames` ADVANCE_TALLY frames. -/
def Part.asksAdvance (p : Part) (i : Slot) (frames : Nat) (success : Bool) : Bool :=
  success && p.serviceable i && decide ((p.commit i).inDoubt = 0) && !p.asleep &&
    (if frames = 0 then p.commitDue i
     else decide (unitVolume ≤ (p.commit i).uncommitted) && (p.ps.power == .run || (p.commit i).flushing))

/-! ## The end of a flush (R134) -/

/-- The cell is still a flush holder of some slot. -/
def Part.holdsSomeSlot (p : Part) (cell : CellNo) : Bool := allSlots.any fun i => (p.commit i).holders.contains cell

/-- R134: the result of a COMMIT_NOW whose slots have all ended. -/
def commitNowResult (single : Option Slot) (causes : Vector EndCause 12) : Result :=
  match single with
  | some i =>
    (match causes[i] with
     | .linkFailed => .linkFailed
     | .removed => .abortedRemoved
     | .notTargeted | .drained | .stopped | .skipped => .ok)
  | none => if causes.toList.contains .linkFailed then .linkFailed else .ok

/-- The result data of a COMMIT_NOW: one end-cause byte per slot (12.1). -/
def endCauseFields (causes : Vector EndCause 12) : List Field :=
  allSlots.map fun i => ⟨i.val, 1, (causes[i]).code⟩

/-- The flush of slot `i` is noted in the parked COMMIT_NOW of a cell that held it. -/
def Parked.noteEnd (holders : List CellNo) (i : Slot) (cause : EndCause) (k : Parked) : Parked :=
  match k.work with
  | .commitNow single causes =>
    if holders.contains k.cell then { k with work := .commitNow single (causes.set i cause) } else k
  | .reverify _ | .purge | .settings | .forget _ _ | .windDown | .enterService => k

/-- R134: a parked COMMIT_NOW that held the slot completes when every slot it holds has ended. -/
def Part.completeFlushed (holders : List CellNo) (p : Part) (k : Parked) : Part :=
  match k.work with
  | .commitNow single causes =>
    if holders.contains k.cell && !p.holdsSomeSlot k.cell then
      p.complete k.cell (commitNowResult single causes) (endCauseFields causes)
    else p
  | .reverify _ | .purge | .settings | .forget _ _ | .windDown | .enterService => p

/-- R134: the flush of a slot ends: every holder leaves it, and the cells that this completes are completed in the order
in which they were taken. -/
def Part.endFlush (p : Part) (i : Slot) (cause : EndCause) : Part :=
  let r := p.commit i
  if r.flushing then
    let p := p.setCommit i { r with holders := [], windDownHolder := false,
                                    windDownEnded := r.windDownEnded || r.windDownHolder }
    let parked := p.rq.parked.map (Parked.noteEnd r.holders i cause)
    parked.foldl (Part.completeFlushed r.holders) { p with rq := { p.rq with parked := parked } }
  else p

/-- The volume of a slot that a fold has moved into its entry, while fold at write is enabled (R55, R58). -/
def Part.foldedVolume (p : Part) (i : Slot) : Nat :=
  if p.hs.foldAtWrite then
    (match p.linkedEntry i with
     | some e => e.carried
     | none => 0)
  else 0

/-- R134: the slot is drained. Volume that a fold has moved out of U still counts, so that a flush waits through a low
supply (R134, last sentence; R170). -/
def Part.drained (p : Part) (i : Slot) : Bool :=
  decide ((p.commit i).uncommitted + p.foldedVolume i < unitVolume) && (p.commit i).unsettled.isNone

/-- R134: the examination of a slot with flush holders, for drained and stopped. The causes link failed and removed are
found where they arise. With the supply low R170 says that flushes cannot end, while an operation in flight runs to its end
and is reported (R20): the examination that follows ends the flush at once, low supply or not (DESIGN CHOICE, log 58). -/
def Part.examineFlush (p : Part) (i : Slot) : Part :=
  if p.drained i then p.endFlush i .drained
  else if !p.serviceable i then p.endFlush i .stopped
  else p

/-! ## Uncommitted volume and in-doubt units -/

/-- R122: a slot's in-doubt units change; the entry's field follows and is dirtied, and the record is written. -/
def Part.setInDoubt (p : Part) (i : Slot) (units : Nat) : Part :=
  let p := p.updCommit i fun r => { r with inDoubt := units }
  let p := p.changeLinkedEntry i fun e => { e with inDoubt := units }
  p.recordCommit i

/-- R122, R129, R130: an ADVANCE_TALLY that was sent becomes in-doubt units; one that was not leaves nothing. -/
def Part.doubtUnsettled (p : Part) (i : Slot) : Part :=
  match (p.commit i).unsettled with
  | some a => (p.updCommit i fun r => { r with unsettled := none }).setInDoubt i a.units
  | none => p

/-- The unsettled ADVANCE becomes absent (R127). -/
def Part.clearUnsettled (p : Part) (i : Slot) : Part := p.updCommit i fun r => { r with unsettled := none }

end Sys2Proof.Machine
end

