-- ==== Sys2Proof/Machine/Link.lean ====
section
/-! DEFINITION. The link pool: joins, the wait list, taking, and the end of a hold (R13 to R17). -/

namespace Sys2Proof.Machine
open Sys2Proof

/-- The slot holds a link engine. -/
def LinkState.isHeld : LinkState → Bool
  | .held _ => true
  | .none | .waitingBringUp _ _ | .waitingCommit => false

/-- The number of slots that hold link engines. -/
def Part.heldCount (p : Part) : Nat := (allSlots.filter fun i => (p.link i).isHeld).length

/-- R14: an engine is idle and engines take from the list: the supply is not low (R20), the part is not in SLEEP (R21)
and no reset sequence is under way (R22). -/
def Part.engineFree (p : Part) : Bool := decide (p.heldCount < 3) && !p.ps.supplyLow && !p.asleep && !p.busy

/-- The link wait list (R14): the bring-up class stands ahead of the commit class. -/
def LinkPool.waitList (l : LinkPool) : List Slot := l.bringUp ++ l.commit

/-- R15: a bring-up-class join; `none` when it is refused as link-busy. -/
def Part.placeBringUp (p : Part) (i : Slot) (op : LinkOp) : Option Part :=
  match p.link i with
  | .none => some { p with lp := { p.lp with states := p.lp.states.set i (.waitingBringUp op none),
                                             bringUp := p.lp.bringUp ++ [i] } }
  | .waitingBringUp _ _ => none
  | .waitingCommit => some { p with lp := { states := p.lp.states.set i (.waitingBringUp op none),
                                            bringUp := p.lp.bringUp ++ [i], commit := p.lp.commit.erase i } }
  | .held h =>
    (match h.deferred with
     | none => some (p.setLink i (.held { h with deferred := some op }))
     | some _ => none)

/-- R15: a commit-class join; it is dropped unless the slot's link state is NONE. -/
def Part.placeCommit (p : Part) (i : Slot) : Part :=
  match p.link i with
  | .none => { p with lp := { p.lp with states := p.lp.states.set i .waitingCommit, commit := p.lp.commit ++ [i] } }
  | .waitingBringUp _ _ | .waitingCommit | .held _ => p

/-- R124: the test of a slot, which places a commit-class join when it is due. From the start of a reset sequence no
join is made. -/
def Part.testPlace (p : Part) (i : Slot) : Part := if p.commitDue i && !p.busy then p.placeCommit i else p

/-- R17, R129, R134: the report to the commit engine that a slot has given up an engine: its flush is examined and the
slot is tested. -/
def Part.releaseReport (p : Part) (i : Slot) : Part := (p.examineFlush i).testPlace i

/-- R126: a commit hold begins: with a READ_TALLY when units are in doubt, with an ADVANCE_TALLY when the commit engine
asks for one; when it declines, the hold ends at once with no operation. -/
def Part.openCommitHold (p : Part) (i : Slot) : Part :=
  if (p.commit i).inDoubt ≠ 0 then
    (if p.serviceable i then p.setLink i (.held ⟨true, .readTally, .ready, 0, none⟩)
     else (p.setLink i .none).releaseReport i)
  else if p.asksAdvance i 0 true then p.setLink i (.held ⟨true, .advance (p.advanceSize i), .ready, 0, none⟩)
  else (p.setLink i .none).releaseReport i

/-- A slot leaves the bring-up class, with every join it has there, and its link state becomes `l` (R14, R19). -/
def Part.leaveBringUp (p : Part) (i : Slot) (l : LinkState) : Part :=
  { p with lp := { p.lp with states := p.lp.states.set i l, bringUp := p.lp.bringUp.filter fun j => j != i } }

/-- A slot taken from the bring-up class holds its engine for its one operation (R13, R14). A join that SLEEP placed behind
it leaves the list, since a slot that holds an engine does not stand on it (R14), and is the hold's deferred join again
(assumption 31). -/
def Part.openSingleHold (p : Part) (i : Slot) : Part :=
  match p.link i with
  | .waitingBringUp op behind => p.leaveBringUp i (.held ⟨false, op, .ready, 0, behind⟩)
  | .none | .waitingCommit | .held _ => p

/-- R14: an idle engine takes the head of the wait list. -/
def Part.takeHeadOfList (p : Part) : Part :=
  match p.lp.bringUp with
  | i :: rest => ({ p with lp := { p.lp with bringUp := rest } }).openSingleHold i
  | [] =>
    match p.lp.commit with
    | i :: rest => ({ p with lp := { p.lp with commit := rest } }).openCommitHold i
    | [] => p

/-- R14: idle engines take from the list, at most `fuel` times. -/
def Part.takeUpTo : Nat → Part → Part
  | 0, p => p
  | fuel + 1, p => if p.engineFree && !p.lp.waitList.isEmpty then Part.takeUpTo fuel p.takeHeadOfList else p

/-- R14: idle engines take from the list while they may. Each take shortens the list, and a slot whose hold ends at once
is not due, so that as many takes as the list holds are enough. -/
def Part.takeFromList (p : Part) : Part := Part.takeUpTo p.lp.waitList.length p

/-- R124: the commit engine tests a slot, and an idle engine takes the join at once. -/
def Part.testCommit (p : Part) (i : Slot) : Part := (p.testPlace i).takeFromList

/-- R124: every slot is tested, in ascending order. -/
def Part.testAll (p : Part) : Part := p.forSlots Part.testCommit

/-- R17: a hold has ended: its deferred join is placed at the tail of the bring-up class, and without one the link state
becomes NONE. -/
def Part.placeDeferred (p : Part) (i : Slot) (deferred : Option LinkOp) : Part :=
  match deferred with
  | some op => { p with lp := { p.lp with states := p.lp.states.set i (.waitingBringUp op none),
                                          bringUp := p.lp.bringUp ++ [i] } }
  | none => p.setLink i .none

/-- R17: a hold ends: the engine is freed, a deferred join is placed at the tail of the bring-up class, the release is
reported, and the freed engine takes the head of the list. -/
def Part.endHold (p : Part) (i : Slot) : Part :=
  match p.link i with
  | .held h => ((p.placeDeferred i h.deferred).releaseReport i).takeFromList
  | .none | .waitingBringUp _ _ | .waitingCommit => p

/-- R16, R22, R126: the commit engine has given its answer after an operation of a commit hold; the hold goes on with
an ADVANCE_TALLY or ends. -/
def Part.continueHold (p : Part) (i : Slot) (success : Bool) : Part :=
  match p.link i with
  | .held h =>
    if p.asksAdvance i h.frames success && decide (h.frames < 8) && (p.ce.burst || h.frames == 0)
        && h.deferred.isNone && !p.ps.supplyLow && !p.busy then
      p.setLink i (.held { h with op := .advance (p.advanceSize i), phase := .ready })
    else p.endHold i
  | .none | .waitingBringUp _ _ | .waitingCommit => p

end Sys2Proof.Machine
end

