-- ==== Sys2Proof/Machine/Feeds.lean ====
section
/-! DEFINITION. Source selection and settings held to the page boundary (R96, R97, R103 to R106, R113, R117, R118). -/

namespace Sys2Proof.Machine
open Sys2Proof

/-- An optional slot meets a condition. -/
def optSlot (o : Option Slot) (f : Slot → Bool) : Bool :=
  match o with
  | some i => f i
  | none => false

/-- R105: the source that a re-selection gives a channel. -/
def Part.chooseSource (p : Part) (c : Channel) : Option Slot :=
  let r := p.channel c
  if optSlot r.active p.qualifies then r.active
  else if optSlot r.feed.primary p.qualifies then r.feed.primary
  else if optSlot r.feed.secondary p.qualifies then r.feed.secondary
  else if optSlot r.feed.primary p.presentForChannel then r.feed.primary
  else if optSlot r.feed.secondary p.presentForChannel then r.feed.secondary
  else none

/-- R105: a channel's source is re-selected. -/
def Part.reselect (p : Part) (c : Channel) : Part := p.updChannel c fun r => { r with active := p.chooseSource c }

/-- R106: the channel of a slot, if it has one, is re-selected. -/
def Part.reselectFor (p : Part) (i : Slot) : Part :=
  match p.channelOf i with
  | some c => p.reselect c
  | none => p

/-- R106: the channel of a slot is re-selected when the slot is its active source. -/
def Part.reselectIfActive (p : Part) (i : Slot) : Part :=
  match p.channelOf i with
  | some c => if (p.channel c).active = some i then p.reselect c else p
  | none => p

/-- R106, R118: a removed slot leaves its channel's source, which is then re-selected. -/
def Part.dropSource (p : Part) (i : Slot) : Part :=
  match p.channelOf i with
  | some c =>
    if (p.channel c).active = some i then (p.updChannel c fun r => { r with active := none }).reselect c else p
  | none => p

/-! ## Settings (R96, R97) -/

/-- An item of setting with its value (R96). -/
inductive SettingItem where
  | calibration (channel : Channel) (value : Calibration)
  | feed (channel : Channel) (value : Feed)
  | thresholds (slot : Slot) (value : Thresholds)
deriving DecidableEq, Repr

/-- The PAGE_END flag of a bank (12.2). -/
def Part.pageEnd (p : Part) (b : BankNo) : Bool := (p.readByte (bankBase b + 1)).getLsbD 0

/-- R113: a threshold pair takes effect: it is evaluated when the slot is tracked and in the in-service group, a change
of LOW or SPENT raises LEVEL once, the record is written, and the slot's channel is re-selected. -/
def Part.thresholdsEffect (p : Part) (i : Slot) (t : Thresholds) : Part :=
  let v := p.volumes i
  let v' := { v with thresholds := t, pending := none }
  if (p.slot i).state.inServiceGroup && (p.slot i).hasClass .tracked then
    let low := decide (v.remaining ≤ t.warn)
    let spent := decide (v.remaining ≤ t.stop)
    let p := p.setVolumes i { v' with low := low, spent := spent }
    let p := if low != v.low || spent != v.spent then p.raise .level else p
    (p.recordVolumes i).reselectFor i
  else ((p.setVolumes i v').recordVolumes i).reselectFor i

/-- R97, R117 steps 2 and 3: a channel whose feed has changed drops a source that its feed no longer names, and
re-selects. -/
def Part.feedChanged (p : Part) (c : Channel) : Part :=
  let r := p.channel c
  let p := if r.active = r.feed.primary || r.active = r.feed.secondary then p
    else p.updChannel c fun r => { r with active := none }
  p.reselect c

/-- A feed becomes effective (R117 step 1). -/
def Part.installFeed (p : Part) (c : Channel) (f : Feed) : Part :=
  p.updChannel c fun r => { r with feed := f, pendingFeed := none }

/-- R97: a setting takes effect on its own; a pending value of the same item is discarded (R96). -/
def Part.settingEffect (p : Part) : SettingItem → Part
  | .calibration c v => p.updChannel c fun r => { r with calibration := v, pendingCalibration := none }
  | .feed c v => if (p.channel c).feed = v then p.installFeed c v else (p.installFeed c v).feedChanged c
  | .thresholds i v => p.thresholdsEffect i v

/-- R96: a setting becomes its item's pending value, replacing an earlier one. -/
def Part.settingPend (p : Part) : SettingItem → Part
  | .calibration c v => p.updChannel c fun r => { r with pendingCalibration := some v }
  | .feed c v => p.updChannel c fun r => { r with pendingFeed := some v }
  | .thresholds i v => p.updVolumes i fun r => { r with pending := some v }

/-- A bank stands on the charge list (R96). -/
def Part.bankWaits (p : Part) : Bool :=
  p.au.chargeList.any fun x =>
    match x with
    | .bank _ => true
    | .purge _ _ _ _ => false

/-- R96: an arriving setting takes effect at once between pages with no bank on the charge list, else it is pending. -/
def Part.placeSetting (p : Part) (item : SettingItem) : Part :=
  if p.au.betweenPages && !p.bankWaits then p.settingEffect item else p.settingPend item

/-- A channel's pending calibration becomes effective (R97). -/
def Part.installPendingCalibration (p : Part) (c : Channel) : Part :=
  match (p.channel c).pendingCalibration with
  | some v => p.settingEffect (.calibration c v)
  | none => p

/-- A channel's pending feed becomes effective (R117 step 1). -/
def Part.installPendingFeed (p : Part) (c : Channel) : Part :=
  match (p.channel c).pendingFeed with
  | some v => p.installFeed c v
  | none => p

/-- A slot's pending thresholds take effect (R97, R113). -/
def Part.installPendingThresholds (p : Part) (i : Slot) : Part :=
  match (p.volumes i).pending with
  | some v => p.thresholdsEffect i v
  | none => p

/-- R97, R113, R117: all pending settings take effect together: calibrations, then feeds, then threshold pairs. No rule
orders the pairs among themselves; the model takes them one slot at a time, ascending, and re-selects after each (DESIGN
CHOICE, assumption 52). -/
def Part.pageBoundary (p : Part) : Part :=
  let p := p.forSlots Part.installPendingCalibration
  let q := p.forSlots Part.installPendingFeed
  let q := q.forSlots fun q c => if (p.channel c).feed = (q.channel c).feed then q else q.feedChanged c
  q.forSlots Part.installPendingThresholds

/-! ## A slot's volumes at entry and exit -/

/-- R110, R31 step 4: a slot enters service with its starting volumes and the default thresholds of its class; LOW and
SPENT are set without a notice, for a tracked verdict only. -/
def Part.enterVolumes (p : Part) (i : Slot) (remaining postEmpty : Nat) (exhausted : Bool) : Part :=
  let t := defaultThresholds (p.slot i).volumeClass
  let tracked := (p.slot i).hasClass .tracked
  let p := p.setVolumes i { remaining := remaining, postEmpty := postEmpty, maintenance := 0, thresholds := t,
                            pending := none, low := tracked && decide (remaining ≤ t.warn),
                            spent := tracked && decide (remaining ≤ t.stop), exhausted := exhausted }
  p.recordVolumes i

end Sys2Proof.Machine
end

