-- ==== Sys2Proof/Machine/Slots.lean ====
section
/-! DEFINITION. The slot manager: reports, escalation, attempts, link failures, removal (R24 to R29, R37 to R44, R54,
R71 to R76), and the in-doubt resolution that it shares with the commit engine (R123). -/

namespace Sys2Proof.Machine
open Sys2Proof

/-! ## Reports of a slot's state and verdict (R24) -/

/-- R24, R124: the commit engine is told a slot's state and verdict: it sets or clears LINK_LOST, examines the slot's
flush and tests the slot. -/
def Part.reportToCommit (p : Part) (i : Slot) : Part :=
  let lost := (p.slot i).state == .linkLost
  let p :=
    if lost && !(p.commit i).linkLost then (p.updCommit i fun r => { r with linkLost := true }).recordCommit i
    else if (p.slot i).state == .inService && (p.commit i).linkLost then
      (p.updCommit i fun r => { r with linkLost := false }).recordCommit i
    else p
  (p.examineFlush i).testCommit i

/-- R24: the record is written, SLOT is raised and the state reported. -/
def Part.reportSlot (p : Part) (i : Slot) : Part := ((p.recordIdentity i).raise .slot).reportToCommit i

/-- A slot's state changes and is reported (R24). -/
def Part.changeState (p : Part) (i : Slot) (s : SlotState) : Part :=
  (p.updSlot i fun r => { r with state := s }).reportSlot i

/-! ## Parked REVERIFY requests (R38) -/

/-- The result data of a REVERIFY: the verdict and the tally read (12.1). -/
def reverifyFields (verdict : Option Verdict) (tally : Nat) : List Field := [⟨0, 1, verdictCode verdict⟩, ⟨2, 2, tally⟩]

/-- A REVERIFY parked with the slot, if any, completes (R38). -/
def Part.finishReverify (p : Part) (i : Slot) (result : Result) (data : List Field) : Part :=
  match (p.slot i).parkedCell with
  | some cell => (p.updSlot i fun r => { r with parkedCell := none }).complete cell result data
  | none => p

/-! ## Escalation (R71, R72, R112) -/

/-- R32: a slot that becomes REJECTED has no bring-up or reverify work left: its timer stops, its joins are discarded and
its digest work for the slot manager is cancelled. At a mismatch R40 clears the challenge response, and it sets the stage to
none for a match only: that stage becomes none and reverify-open no here as well is the model's (DEDUCED, assumption 27). -/
def Part.abandonSlotWork (p : Part) (i : Slot) : Part :=
  let p := p.updSlot i fun r => { r with timer := .stopped, stage := .none, reverifyOpen := false, response := none }
  let p := p.cancelDigest fun e => e.ownedBy (.slot i) && e.op.forSlotManager
  match p.link i with
  | .waitingBringUp _ _ => p.leaveBringUp i .none
  | .held h => p.setLink i (.held { h with deferred := none })
  | .none | .waitingCommit => p

/-- R40, R75: a parked REVERIFY whose slot becomes COUNTERFEIT completes OK with the verdict and the tally read. When no
tally has been read the manual gives none, and the tally is a free value of 14 bits, written with the top two bits of its
field 0 (R176; assumption 11). -/
def Part.finishCounterfeit (p : Part) (i : Slot) : Part :=
  match (p.slot i).parkedCell, (p.slot i).reverifyTally with
  | some _, some t => p.finishReverify i .ok (reverifyFields (some .counterfeit) t)
  | some _, none =>
    let t := Config.unreadTally p.free.unreadTallies
    let p := { p with free := { p.free with unreadTallies := p.free.unreadTallies + 1 } }
    p.finishReverify i .ok (reverifyFields (some .counterfeit) t.toNat)
  | none, _ => p

/-- R72, R112: an escalation is carried out. -/
def Part.carryOutEscalation (p : Part) (i : Slot) (next : Verdict) : Part :=
  let p := p.updSlot i fun r =>
    { r with verdict := some next, state := if next = .counterfeit then .rejected else r.state }
  let p := p.updVolumes i fun v => { v with low := false, spent := false }
  let p := ((p.recordEscalation i).raise .slot).raise .verdict
  let p := if next = .counterfeit then p.abandonSlotWork i else p.changeLinkedEntry i fun e => { e with verdict := next }
  let p := (p.reselectIfActive i).reportToCommit i
  if next = .counterfeit then p.finishCounterfeit i else p

/-- R71: an escalation that does not move the verdict forward is not carried out. -/
def Part.escalate (p : Part) (i : Slot) (next : Verdict) : Part :=
  match (p.slot i).verdict with
  | some now => if escalates now next then p.carryOutEscalation i next else p
  | none => p

/-- R73: the post-empty draw of a slot whose verdict is tested exceeds its margin volume. -/
def Part.pastMargin (p : Part) (i : Slot) : Bool :=
  (p.slot i).marginTested && decide (marginVolume p.au.margin (p.slot i).volumeClass < (p.volumes i).postEmpty)

/-- R73: the margin test, which escalates the slot to REFILLED. -/
def Part.testMargin (p : Part) (i : Slot) : Part := if p.pastMargin i then p.escalate i .refilled else p

/-! ## Attempts, link failures and joins (R27, R40, R42) -/

/-- R170: a slot that enters IN_SERVICE during a wind-down takes the wind-down as flush holder when it meets the
conditions and has not ended its flush in this wind-down. -/
def Part.windDownTakes (p : Part) (i : Slot) : Bool :=
  p.serviceable i && !(p.commit i).windDownEnded
    && (decide (unitVolume ≤ (p.commit i).uncommitted) || (p.commit i).unsettled.isSome)

/-- The wind-down becomes a flush holder of the slot when it is in progress and takes it (R170). -/
def Part.joinWindDown (p : Part) (i : Slot) : Part :=
  if p.ps.power == .windingDown && p.ps.windDownCell.isSome && p.windDownTakes i then
    p.updCommit i fun r => { r with windDownHolder := true }
  else p

/-- A reverify or a link-lost recovery ends with the slot IN_SERVICE (R40, R43). -/
def Part.returnToService (p : Part) (i : Slot) : Part :=
  let p := p.updSlot i fun r => { r with state := .inService, stage := .none, reverifyOpen := false, response := none,
                                         linkFailures := 0, timer := .stopped }
  (p.joinWindDown i).reportSlot i

/-- R40, R42: the slot becomes LINK_LOST and its probe timer starts from 0. -/
def Part.becomeLinkLost (p : Part) (i : Slot) : Part :=
  (p.updSlot i fun r => { r with state := .linkLost, timer := .probe }).reportSlot i

/-- R27: the third failed attempt of a bring-up rejects the slot as UNREADABLE. -/
def Part.rejectUnreadable (p : Part) (i : Slot) : Part :=
  let p := p.updSlot i fun r => { r with state := .rejected, verdict := some .unreadable, timer := .stopped }
  let p := (((p.recordIdentity i).raise .slot).raise .verdict).reportToCommit i
  p.finishReverify i .linkFailed []

/-- R40: the third failed attempt of a reverify makes the slot LINK_LOST with reverify open. -/
def Part.suspendReverify (p : Part) (i : Slot) : Part :=
  ((p.updSlot i fun r => { r with reverifyOpen := true }).becomeLinkLost i).finishReverify i .linkFailed []

/-- R27, R39, R40: a failed attempt is counted; below three the retry timer starts. -/
def Part.attemptFailed (p : Part) (i : Slot) : Part :=
  let n := (p.slot i).attempts + 1
  let p := p.updSlot i fun r => { r with attempts := n }
  if n < 3 then p.updSlot i fun r => { r with timer := .retry }
  else if (p.slot i).state = .reverify then p.suspendReverify i
  else p.rejectUnreadable i

/-- A bring-up-class join of the slot manager. A join refused as link-busy is a failed attempt (R27), and for a probe a
failed probe (R43). -/
def Part.joinBringUp (p : Part) (i : Slot) (op : LinkOp) : Part :=
  match p.placeBringUp i op with
  | some q => q.takeFromList
  | none => if (p.slot i).state = .linkLost then p.updSlot i fun r => { r with timer := .probe } else p.attemptFailed i

/-- R42: a failed operation of a commit hold is counted while the slot is IN_SERVICE; at the third it is LINK_LOST, in the
fold phase of a reset as well, where R45 keeps slot states (DESIGN CHOICE, assumption 48). -/
def Part.linkFailed (p : Part) (i : Slot) : Part :=
  if (p.slot i).state = .inService then
    let n := (p.slot i).linkFailures + 1
    let p := p.updSlot i fun r => { r with linkFailures := n }
    if 3 ≤ n then p.becomeLinkLost i else p
  else p

/-- R42: a success or TALLY_FULL sets the count of consecutive link failures to 0. -/
def Part.linkSucceeded (p : Part) (i : Slot) : Part := p.updSlot i fun r => { r with linkFailures := 0 }

/-! ## In-doubt resolution and tally comparison (R40, R43, R123) -/

/-- R123, first row: the units in doubt were applied. -/
def Part.unitsApplied (p : Part) (i : Slot) (tally : Nat) : Part :=
  let n := (p.commit i).inDoubt
  let p := p.updCommit i fun r => { r with uncommitted := r.uncommitted - n * unitVolume, inDoubt := 0 }
  let p := p.changeLinkedEntry i fun e => { e with tally := tally, inDoubt := 0 }
  ((p.recordCommit i).examineFlush i).testCommit i

/-- R123: the resolution of a slot's in-doubt units against a tally read from the cartridge. -/
def Part.resolveInDoubt (p : Part) (i : Slot) (tally : Nat) : Part :=
  if tally = p.committedTally i + (p.commit i).inDoubt then p.unitsApplied i tally
  else if tally = p.committedTally i then (p.setInDoubt i 0).testCommit i
  else (p.setInDoubt i 0).escalate i .regressed

/-- R123, R126: the tally resolves the slot's in-doubt units as applied or not applied. -/
def Part.resolves (p : Part) (i : Slot) (tally : Nat) : Bool :=
  decide ((p.commit i).inDoubt ≠ 0) &&
    (tally == p.committedTally i + (p.commit i).inDoubt || tally == p.committedTally i)

/-- R40, R43: a tally read during a reverify or a probe is resolved against the units in doubt or, with none, compared
with the committed tally; a disagreement escalates to REGRESSED. -/
def Part.compareTally (p : Part) (i : Slot) (tally : Nat) : Part :=
  if (p.commit i).inDoubt ≠ 0 then p.resolveInDoubt i tally
  else if tally = p.committedTally i then p
  else p.escalate i .regressed

/-! ## Outcomes of the slot manager's own operations (R26, R29, R39, R43) -/

/-- R26: an IDENTIFY succeeds. -/
def Part.identified (p : Part) (i : Slot) (id : Identity) : Part :=
  let p := p.updSlot i fun r => { r with identity := some id, attempts := 0, state := .derive }
  (p.reportSlot i).queueDigest (.slot i) (.derive (keyGeneration id.batch) id.serial id.batch)

/-- The CHALLENGE_CHECK of a slot with the given tally (R29, R39). -/
def Part.queueChallengeCheck (p : Part) (i : Slot) (tally : Nat) : Part :=
  let r := p.slot i
  p.queueDigest (.slot i) (.challengeCheck (r.key.getD 0) (r.nonce.getD 0)
    ((r.identity.map fun id => id.serial).getD 0) tally (r.response.getD 0))

/-- R29: the CHALLENGE of a bring-up succeeds. -/
def Part.challenged (p : Part) (i : Slot) (response : Quad) : Part :=
  let p := (p.updSlot i fun r => { r with response := some response, state := .check }).reportSlot i
  p.queueChallengeCheck i (((p.slot i).identity.map fun id => id.tally).getD 0)

/-- R39 step 2, R43: the CHALLENGE of a reverify succeeds; the candidate nonce becomes the bring-up nonce. -/
def Part.reverifyChallenged (p : Part) (i : Slot) (response : Quad) : Part :=
  let p := p.updSlot i fun r => { r with nonce := r.candidate, candidate := none, response := some response,
                                         stage := .readTally, attempts := 0 }
  let p := p.updCommit i fun r => { r with count := 0 }
  p.joinBringUp i .readTally

/-- R39 step 3: the READ_TALLY of a reverify succeeds. T_r is kept; no rule says for how long, and the model keeps it until
the next REVERIFY or EMPTY (DESIGN CHOICE, assumption 61). -/
def Part.reverifyRead (p : Part) (i : Slot) (tally : Nat) : Part :=
  (p.updSlot i fun r => { r with reverifyTally := some tally, stage := .check }).queueChallengeCheck i tally

/-- R43: a link-lost probe leads back to REVERIFY. R43 gives the attempt count 0 for the CHALLENGE probe alone, and step 3 of
R39, at which a READ_TALLY probe resumes, sets none: that it becomes 0 there too is the model's (DESIGN CHOICE, assumption
60). -/
def Part.resumeReverify (p : Part) (i : Slot) : Part :=
  (p.updSlot i fun r => { r with state := .reverify, reverifyOpen := false, timer := .stopped, attempts := 0 }).reportSlot i

/-- R43: a probe's outcome. R43 names stage READ_TALLY for a READ_TALLY probe with reverify open; the part has no such probe
at another stage, and the model does not look at it (assumption 41). -/
def Part.probeOutcome (p : Part) (i : Slot) (o : LinkOutcome) : Part :=
  match o with
  | .challenged response => (p.resumeReverify i).reverifyChallenged i response
  | .tallyRead tally =>
    if (p.slot i).reverifyOpen then (p.resumeReverify i).reverifyRead i tally
    else (p.compareTally i tally).returnToService i
  | .noResponse | .checkError | .malformed | .refused | .tallyFull | .identified _ | .advanced _ _ =>
    p.updSlot i fun r => { r with timer := .probe }

/-- The outcome of a bring-up or reverify operation that is not the success its state waits for is a failed attempt. -/
def Part.outcomeFailed (p : Part) (i : Slot) (o : LinkOutcome) : Part := if o.isFailure then p.attemptFailed i else p

/-- The outcome of a single hold's operation is handed to the slot manager (R10, R11, R26, R29, R39, R43). From the start
of a reset sequence the slot manager has abandoned the work (R45). -/
def Part.slotOutcome (p : Part) (i : Slot) (o : LinkOutcome) : Part :=
  if p.busy then p
  else
    match (p.slot i).state, o with
    | .identify, .identified id => p.identified i id
    | .challenge, .challenged response => p.challenged i response
    | .reverify, .challenged response => p.reverifyChallenged i response
    | .reverify, .tallyRead tally => p.reverifyRead i tally
    | .linkLost, o => p.probeOutcome i o
    | .identify, o | .challenge, o | .reverify, o => p.outcomeFailed i o
    | _, _ => p

/-! ## Removal (R19, R44, R54, R118) -/

/-- R19: the link pool's part of a removal. An ADVANCE_TALLY cut off after it was sent is recorded in doubt (R44 step 2,
R127, R130). -/
def Part.cutLink (p : Part) (i : Slot) : Part :=
  match p.link i with
  | .none => p
  | .waitingBringUp _ _ => p.leaveBringUp i .none
  | .waitingCommit => { p with lp := { p.lp with states := p.lp.states.set i .none, commit := p.lp.commit.erase i } }
  | .held _ => ((p.setLink i .none).doubtUnsettled i).takeFromList

/-- R54: the removal handling of a slot. -/
def Part.removalHandling (p : Part) (i : Slot) : Part :=
  let c := p.commit i
  let v := p.volumes i
  let p := p.changeLinkedEntry i fun e =>
    { e with carried := satAdd max32 e.carried c.uncommitted, remaining := v.remaining, postEmpty := v.postEmpty,
             exhausted := v.exhausted, tallyFull := c.tallyFull,
             inDoubt := if c.inDoubt = 0 then e.inDoubt else c.inDoubt }
  (p.updCommit i fun r => { r with uncommitted := 0, inDoubt := 0 }).recordCommit i

/-- R44 step 3, R118, R121, R131: every block's values of the slot become those of EMPTY, and the blank record is written. That
the LINK_LOST flag is clear (DEDUCED, assumption 28) and the commit count 0 (DESIGN CHOICE, assumption 64) at EMPTY is the
model's: no rule names them there. -/
def Part.emptySlot (p : Part) (i : Slot) : Part :=
  let p := (p.setSlot i SlotRow.blank).setVolumes i Volumes.blank
  let p := p.setCommit i { CommitRow.blank with windDownEnded := (p.commit i).windDownEnded }
  ((p.recordSlot i).raise .slot).reportToCommit i

/-- R44 step 2: the slot has a history entry to which its removal applies. -/
def SlotRow.keepsHistory (r : SlotRow) : Bool := r.state.inServiceGroup || (r.state == .rejected && r.historyLink)

/-- R19, R36, R44, R134: removal is declared for a bay. -/
def Part.removal (p : Part) (i : Slot) : Part :=
  let p := (p.endFlush i .removed).cutLink i
  let p := (p.updSlot i fun r => { r with timer := .stopped }).cancelDigest (DigestEntry.ownedBy (.slot i))
  let p := if (p.slot i).keepsHistory then p.removalHandling i else p
  let cell := (p.slot i).parkedCell
  let p := (p.emptySlot i).dropSource i
  match cell with
  | some cell => p.complete cell .abortedRemoved []
  | none => p

end Sys2Proof.Machine
end

