-- ==== Sys2Proof/Machine/Verdicts.lean ====
section
/-! DEFINITION. RESOLVE: the verdict of a bring-up, its starting values and what it writes into the history (R31, R49,
R50, R63 to R70, R76). -/

namespace Sys2Proof.Machine
open Sys2Proof

/-- What RESOLVE hands to the slot manager (R63 step 6): the verdict, the starting values, and whether it created or
used a history entry. In-doubt units start at 0 in every case. -/
structure Resolution where
  verdict : Verdict
  remaining : Nat
  postEmpty : Nat
  exhausted : Bool
  tallyFull : Bool
  uncommitted : Nat
  linked : Bool
deriving DecidableEq, Repr

/-- R63: a slot given a rejected verdict starts with all its volumes 0 and both flags clear. -/
def Resolution.reject (v : Verdict) : Resolution := ⟨v, 0, 0, false, false, 0, false⟩

/-- Starting values taken from an entry: remaining, post-empty draw, EXHAUSTED, TALLY_FULL, and U from carried. -/
def Resolution.fromEntry (v : Verdict) (e : Entry) : Resolution :=
  ⟨v, e.remaining, e.postEmpty, e.exhausted, e.tallyFull, e.carried, true⟩

/-- R67: the entry's in-doubt units agree with neither outcome. -/
def Entry.disagrees (e : Entry) (tc : Nat) : Bool :=
  decide (e.inDoubt ≠ 0) && tc != e.tally + e.inDoubt && tc != e.tally

/-- R67: the entry's in-doubt units, if any, are resolved against the identify tally. -/
def Entry.resolveUnits (e : Entry) (tc : Nat) : Entry :=
  if e.inDoubt = 0 then e
  else if tc = e.tally + e.inDoubt then
    { e with tally := tc, carried := e.carried - e.inDoubt * unitVolume, inDoubt := 0 }
  else { e with inDoubt := 0 }

/-- R64 case 3: the slot stands in a channel's feed whose ink code is not 0 and differs from the cartridge's. -/
def Part.wrongInk (p : Part) (i : Slot) (ink : Byte) : Bool :=
  match p.channelOf i with
  | some c => (p.channel c).feed.ink != 0 && (p.channel c).feed.ink != ink
  | none => false

/-- R65 case 4: some other slot's identity carries the serial. -/
def Part.heldElsewhere (p : Part) (i : Slot) (serial : Quad) : Bool :=
  allSlots.any fun j => j != i && (p.slot j).carries serial

/-- A case's decision: the resolution, and the entry as the case leaves its tally and in-doubt units. -/
structure Decision where
  resolution : Resolution
  entry : Entry
deriving DecidableEq, Repr

/-- The entry that a new serial gets, before the starting values are written into it (R65, R69). -/
def newEntry (i : Slot) (id : Identity) : Entry where
  serial := id.serial
  ink := id.ink
  volumeClass := id.volumeClass
  tally := id.tally
  remaining := 0
  carried := 0
  inDoubt := 0
  postEmpty := 0
  verdict := .new
  exhausted := false
  tallyFull := false
  lastSlot := i
  sighting := 0

/-- R65, case 4: CLONE; the in-doubt units stay in the entry, and U is the entry's carried volume, whatever it is
(assumption 63). -/
def decideClone (i : Slot) (id : Identity) (found : Option Entry) : Decision :=
  match found with
  | some e => ⟨⟨.clone, 0, 0, false, e.tallyFull, e.carried, true⟩, e⟩
  | none => ⟨⟨.clone, 0, 0, false, false, 0, true⟩, newEntry i id⟩

/-- R66, case 5: the sticky verdict is kept and T_h is raised to a higher T_c. -/
def decideSticky (id : Identity) (e : Entry) : Decision :=
  let e := e.resolveUnits id.tally
  ⟨.fromEntry e.verdict e, { e with tally := max e.tally id.tally }⟩

/-- R70: the margin test of cases 6 and 7. -/
def Resolution.marginTest (r : Resolution) (marginVol : Nat) : Resolution :=
  if r.verdict.marginTested && decide (marginVol < r.postEmpty) then { r with verdict := .refilled } else r

/-- R68, case 6: the tally is compared with the committed tally. -/
def decideKnown (id : Identity) (e : Entry) : Decision :=
  let tc := id.tally
  if e.volumeClass ≠ id.volumeClass ∨ e.ink ≠ id.ink then ⟨.fromEntry .regressed e, { e with inDoubt := 0 }⟩
  else
    let disagrees := e.disagrees tc
    let e := e.resolveUnits tc
    if disagrees ∨ tc < e.tally then ⟨.fromEntry .regressed e, e⟩
    else if e.tally < tc then
      let remaining := min e.remaining (ratedVolume id.volumeClass - tc * unitVolume)
      ⟨⟨.used, remaining, e.postEmpty, remaining == 0, e.tallyFull, e.carried, true⟩, { e with tally := tc }⟩
    else if e.exhausted then ⟨.fromEntry .depleted e, e⟩
    else ⟨.fromEntry .resumed e, e⟩

/-- R69, case 7: a serial never seen. -/
def decideNew (i : Slot) (id : Identity) (marginVol : Nat) : Decision :=
  let rated := ratedVolume id.volumeClass
  let drawn := id.tally * unitVolume
  let r : Resolution :=
    if id.tally = 0 then ⟨.new, rated, 0, false, false, 0, true⟩
    else if drawn < rated then ⟨.used, rated - drawn, 0, false, false, 0, true⟩
    else if marginVol < drawn - rated then ⟨.refilled, 0, drawn - rated, true, false, 0, true⟩
    else ⟨.depleted, 0, drawn - rated, true, false, 0, true⟩
  ⟨r, newEntry i id⟩

/-- R63 step 3, cases 4 to 7, with the margin test of step 4. -/
def Part.decideEntry (p : Part) (i : Slot) (id : Identity) : Decision :=
  let found := (p.findPlace id.serial).bind fun k => (p.place k).entry
  let marginVol := marginVolume p.au.margin id.volumeClass
  if p.heldElsewhere i id.serial then decideClone i id found
  else
    match found with
    | some e =>
      if e.verdict.sticky then decideSticky id e
      else
        let d := decideKnown id e
        { d with resolution := d.resolution.marginTest marginVol }
    | none =>
      let d := decideNew i id marginVol
      { d with resolution := d.resolution.marginTest marginVol }

/-- R70: the entry as RESOLVE writes it. R70 excepts from carried 0 a clone entry held by another slot, since its carried "has
already been taken". Carried can stand above 0 there all the same, after a fold or the removal of a third holder: the model
then does as R65 says, moves it into U and makes it 0 (DESIGN CHOICE, assumption 63). -/
def Decision.written (d : Decision) (i : Slot) (sighting : Nat) : Entry :=
  { d.entry with verdict := d.resolution.verdict, carried := 0, remaining := d.resolution.remaining,
                 postEmpty := d.resolution.postEmpty, exhausted := d.resolution.exhausted,
                 tallyFull := d.resolution.tallyFull, lastSlot := i, sighting := sighting }

/-- R63 steps 3 to 5: the decision, and the entry created or written. Cases 1 to 3 leave the history untouched (R64). -/
def Part.decideVerdict (p : Part) (i : Slot) (id : Identity) (checkMatched : Bool) : Part × Resolution :=
  if !checkMatched then (p, .reject .counterfeit)
  else if !knownClass id.volumeClass then (p, .reject .unknownType)
  else if p.wrongInk i id.ink then (p, .reject .wrongInk)
  else
    let d := p.decideEntry i id
    let e := d.written i p.hs.sightings
    match p.findPlace id.serial with
    | some k => (p.changeEntry k fun _ => e, d.resolution)
    | none => (p.insertEntry e, d.resolution)

/-- R50: each RESOLVE increments the sighting counter before it decides. -/
def Part.countSighting (p : Part) : Part :=
  { p with hs := { p.hs with sightings := satAdd max32 p.hs.sightings 1 } }

/-- R76: every in-service holder of the serial other than the resolving slot is escalated to CLONE. -/
def Part.escalateHolders (p : Part) (i : Slot) (serial : Quad) : Part :=
  p.forSlots fun q j =>
    if j != i && (q.slot j).carries serial && (q.slot j).state.inServiceGroup then q.escalate j .clone else q

/-- R31: the slot manager completes the bring-up with what RESOLVE has produced. -/
def Part.completeBringUp (p : Part) (i : Slot) (r : Resolution) : Part :=
  let rejected := r.verdict.class == .rejected
  let p := p.updSlot i fun row => { row with verdict := some r.verdict, historyLink := r.linked, linkFailures := 0,
                                             state := if rejected then .rejected else .inService }
  let p := (p.recordIdentity i).raise .slot
  let p := if r.verdict.class == .tracked then p else p.raise .verdict
  let p := if rejected then p.setVolumes i Volumes.blank |>.recordVolumes i
    else p.enterVolumes i r.remaining r.postEmpty r.exhausted
  let p := p.updCommit i fun c => { c with uncommitted := r.uncommitted, inDoubt := 0, tallyFull := r.tallyFull }
  let p := p.recordCommit i
  let p := if rejected then p else (p.reselectFor i).joinWindDown i
  (p.reportToCommit i).finishReverify i .ok
    (reverifyFields (some r.verdict) (((p.slot i).identity.map fun id => id.tally).getD 0))

/-- R30, R31, R63: the slot becomes RESOLVE and is resolved at that moment. R76 escalates the other holders of a CLONE's
serial "within the same resolution" and gives no order; the model completes the slot's own bring-up first (DESIGN CHOICE,
assumption 51). -/
def Part.resolve (p : Part) (i : Slot) (checkMatched : Bool) : Part :=
  let p := (p.updSlot i fun r => { r with response := none, state := .resolve }).reportSlot i
  match (p.slot i).identity with
  | some id =>
    let (q, r) := p.countSighting.decideVerdict i id checkMatched
    let q := q.completeBringUp i r
    if r.verdict = .clone then q.escalateHolders i id.serial else q
  | none => p

/-- R40: the CHALLENGE_CHECK of a reverify completes. -/
def Part.reverifyChecked (p : Part) (i : Slot) (checkMatched : Bool) : Part :=
  if checkMatched then
    let tally := (p.slot i).reverifyTally.getD 0
    let p := (p.compareTally i tally).returnToService i
    p.finishReverify i .ok (reverifyFields (p.slot i).verdict tally)
  else p.escalate i .counterfeit

end Sys2Proof.Machine
end

