-- ==== Sys2Proof/Machine/Accounting.lean ====
section
/-! DEFINITION. The volume computation, the charging procedure, and the accounting of banks and purges (R82 to R97,
R107 to R112). -/

namespace Sys2Proof.Machine
open Sys2Proof

/-! ## From drop counts to nanolitres (R86 to R89) -/

/-- One nanolitre in units of 1/16,384 pL (5.4). -/
def nanolitre : Nat := 16384000

/-- A key factor of a calibration, by number. -/
def keyFactor (keys : Vector Nat 8) (i : Nat) : Nat := keys[i]?.getD 0

/-- R86: the temperature factor F. -/
def temperatureFactor (keys : Vector Nat 8) (t : Nat) : Nat :=
  if t ≤ 10 then keyFactor keys 0
  else if 80 ≤ t then keyFactor keys 7
  else
    let i := (t - 10) / 10
    let d := (t - 10) % 10
    (keyFactor keys i * (10 - d) + keyFactor keys (i + 1) * d + 5) / 10

/-- A channel block of a tally bank (12.2). -/
structure ChannelBlock where
  temperature : Nat
  small : Nat
  medium : Nat
  large : Nat
  spit : Nat
deriving DecidableEq, Repr

/-- R87: the raw sum S, in 1/16 pL. -/
def rawSum (k : Calibration) (b : ChannelBlock) : Nat :=
  b.small * k.small + b.medium * k.medium + (b.large + b.spit) * k.large

/-- R87: the corrected volume E, in 1/16,384 pL. -/
def correctedVolume (k : Calibration) (b : ChannelBlock) : Nat := rawSum k b * temperatureFactor k.keys b.temperature

/-- R88: the band's volume V in nL. -/
def bandVolume (k : Calibration) (b : ChannelBlock) (residue : Nat) : Nat := (correctedVolume k b + residue) / nanolitre

/-- R88: the channel's new residue. -/
def bandResidue (k : Calibration) (b : ChannelBlock) (residue : Nat) : Nat := (correctedVolume k b + residue) % nanolitre

/-- R89: the band's maintenance share M in nL. -/
def bandMaintenance (k : Calibration) (b : ChannelBlock) : Nat :=
  b.spit * k.large * temperatureFactor k.keys b.temperature / nanolitre

/-! ## Shares (R108, R109, R111) -/

/-- R108: a slot's volumes after a share that takes `fell` off remaining and adds `post` to post-empty draw. -/
def Volumes.take (v : Volumes) (fell post : Nat) : Volumes :=
  { v with remaining := v.remaining - fell, postEmpty := satAdd max32 v.postEmpty post,
           exhausted := v.exhausted || (decide (0 < fell) && v.remaining - fell == 0) }

/-- R109 step 1: the commit engine adds a share to U; while fold at write is enabled the entry is dirtied (R55). The slot
is examined and tested (R124, R134). -/
def Part.addUncommitted (p : Part) (i : Slot) (share : Nat) : Part :=
  let p := p.updCommit i fun r => { r with uncommitted := satAdd max32 r.uncommitted share }
  let p :=
    match p.linkedPlace i with
    | some k => if p.hs.foldAtWrite then p.dirtyPlace k else p
    | none => p
  (p.examineFlush i).testCommit i

/-- R111: LOW is crossed. -/
def Part.crossLow (p : Part) (i : Slot) : Part :=
  let v := p.volumes i
  if v.remaining ≤ v.thresholds.warn && !v.low then (p.setVolumes i { v with low := true }).raise .level else p

/-- R111: SPENT is crossed. -/
def Part.crossSpent (p : Part) (i : Slot) : Part :=
  let v := p.volumes i
  if v.remaining ≤ v.thresholds.stop && !v.spent then (p.setVolumes i { v with spent := true }).raise .level else p

/-- R109: one share is placed on a slot, with its effects in order. -/
def Part.placeShare (p : Part) (i : Slot) (fell post : Nat) : Part :=
  if fell + post = 0 then p.recordVolumes i
  else
    let p := p.updVolumes i fun v => v.take fell post
    let p := p.addUncommitted i (fell + post)
    let p := if 0 < fell && (p.slot i).hasClass .tracked then (p.crossLow i).crossSpent i else p
    let p := if 0 < post then p.testMargin i else p
    p.recordShare i

/-- R108: a tracked slot's share is the whole of `x`: off remaining as far as it goes, the rest to post-empty draw. -/
def Part.placeWhole (p : Part) (i : Slot) (x : Nat) : Part :=
  let fell := min x (p.volumes i).remaining
  p.placeShare i fell (x - fell)

/-! ## The charging procedure (R107, R108) -/

/-- The other slot of a feed (R108). -/
def Feed.other (f : Feed) (a : Slot) : Option Slot := if f.primary = some a then f.secondary else f.primary

/-- R108: the other slot `b` qualifies: the active source `a` gives down to its stop, and hands over when it stands there. -/
def Part.chargeTandem (p : Part) (c : Channel) (a b : Slot) (x : Nat) : Part :=
  let stop := (p.volumes a).thresholds.stop
  let share := min x ((p.volumes a).remaining - stop)
  let p := p.placeShare a share 0
  if (p.volumes a).remaining ≤ stop then
    let p := p.updChannel c fun r => { r with active := some b }
    if x - share = 0 then p else p.placeWhole b (x - share)
  else p

/-- R107, R108: a volume is charged to the active source `a` of a channel. -/
def Part.chargeSource (p : Part) (c : Channel) (a : Slot) (x : Nat) : Part :=
  if (p.slot a).hasClass .tracked then
    match (p.channel c).feed.other a with
    | some b => if p.qualifies b then p.chargeTandem c a b x else p.placeWhole a x
    | none => p.placeWhole a x
  else p.placeShare a 0 x

/-- R107: `x` nL are charged to a channel, `maintenance` of them maintenance, which goes to the slot that is active when
the charge begins (R91, R93). A volume of 0 is not charged. -/
def Part.charge (p : Part) (c : Channel) (x maintenance : Nat) : Part :=
  if x = 0 then p
  else
    match (p.channel c).active with
    | none => (p.updChannel c fun r => { r with unfed := satAdd max32 r.unfed x }).raise .tally
    | some a =>
      (p.updVolumes a fun v => { v with maintenance := satAdd max32 v.maintenance maintenance }).chargeSource c a x

/-- R90: a channel's totals grow, wrapping at 64 bits. -/
def ChannelRow.grow (r : ChannelRow) (x maintenance : Nat) : ChannelRow :=
  { r with total := r.total + BitVec.ofNat 64 x, maintenance := r.maintenance + BitVec.ofNat 64 maintenance }

/-! ## Banks (R83, R84) -/

/-- The channel block of channel `c` in a bank, in the byte order in force (12.2). -/
def Part.channelBlock (p : Part) (b : BankNo) (c : Channel) : ChannelBlock :=
  let base := bankBase b + 16 + 20 * c.val
  ⟨(p.readByte base).toNat, p.readField (base + 4) 4, p.readField (base + 8) 4, p.readField (base + 12) 4,
   p.readField (base + 16) 4⟩

/-- The band sequence of a bank (12.2). -/
def Part.bandSequence (p : Part) (b : BankNo) : Half := BitVec.ofNat 16 (p.readField (bankBase b + 2) 2)

/-- The channel-present mask of a bank (12.2). -/
def Part.bandMask (p : Part) (b : BankNo) : Half := BitVec.ofNat 16 (p.readField (bankBase b + 4) 2)

/-- R84: the sequence check of a bank. -/
def Part.checkSequence (p : Part) (b : BankNo) : Part :=
  let seq := p.bandSequence b
  let gap := p.au.bankSeen && seq != p.au.lastSequence + 1
  let gaps := if gap then satAdd max16 p.au.sequenceGaps 1 else p.au.sequenceGaps
  let p := { p with au := { p.au with bankSeen := true, lastSequence := seq, sequenceGaps := gaps } }
  if gap then p.raise .tally else p

/-- R83 step 2: one channel of a bank is accounted. -/
def Part.accountChannel (p : Part) (b : BankNo) (c : Channel) : Part :=
  let r := p.channel c
  let block := p.channelBlock b c
  let volume := bandVolume r.calibration block r.residue
  let maintenance := bandMaintenance r.calibration block
  let p := p.setChannel c { r.grow volume maintenance with residue := bandResidue r.calibration block r.residue }
  p.charge c volume maintenance

/-- R83: a bank is accounted. -/
def Part.accountBank (p : Part) (b : BankNo) : Part :=
  let p := p.checkSequence b
  let p := p.forSlots fun q c => if (q.bandMask b).getLsbD c.val then q.accountChannel b c else q
  let last := p.pageEnd b
  let p := { p with au := { p.au with betweenPages := last } }
  let p := if last then p.pageBoundary else p
  let p := p.setBankState b .accounted
  { p with au := { p.au with chargeList := p.au.chargeList.drop 1 } }

/-! ## Purges (R93) -/

/-- R93: one channel of a purge is charged. -/
def Part.purgeChannel (p : Part) (c : Channel) (x : Nat) : Part :=
  (p.updChannel c fun r => r.grow x x).charge c x x

/-- R93: a purge is accounted and its request completes. -/
def Part.accountPurge (p : Part) (cell : CellNo) (mask : Half) (volumes : Vector Nat 12) (clamped : Bool) : Part :=
  let p := p.forSlots fun q c => if mask.getLsbD c.val then q.purgeChannel c volumes[c] else q
  let p := { p with au := { p.au with chargeList := p.au.chargeList.drop 1 } }
  p.complete cell (okOrClamped clamped) []

end Sys2Proof.Machine
end

