-- ==== Sys2Proof/Machine/Holds.lean ====
section
/-! DEFINITION. How the operations of a hold start, end and are settled (R7, R8, R12, R13, R16, R18, R126 to R131). -/

namespace Sys2Proof.Machine
open Sys2Proof

/-! ## The start of an operation (R5, R12, R13, R127) -/

/-- R12, R127: an ADVANCE_TALLY of `units` counts as sent: it becomes unsettled with the commit count it carries, and the
count increments by one. -/
def CommitRow.send (r : CommitRow) (units : Nat) : CommitRow :=
  { r with unsettled := some ⟨units, r.count⟩, count := r.count + 1 }

/-- R13: the engine that a slot holds drives the start of its operation's command frame. -/
def Part.startOperation (p : Part) (i : Slot) (h : Hold) : Part :=
  let frame := h.op.frame (p.commit i).count
  match h.op with
  | .advance units =>
    (p.updCommit i fun r => r.send units).setLink i (.held { h with phase := .sending frame, frames := h.frames + 1 })
  | .identify | .challenge _ | .readTally => p.setLink i (.held { h with phase := .sending frame })

/-- R3, R5, R13, R20, R22: the operation of a hold may start: the line is on and its gap is counting, the supply is not
low and no reset sequence is under way. An ADVANCE_TALLY that was asked for starts even if a deferred join has appeared since
or the slot has stopped allowing commits, and the hold ends after it: R16, R126 and R132 leave this open (DESIGN CHOICE,
assumption 53). -/
def Part.mayStart (p : Part) (i : Slot) (h : Hold) : Bool :=
  h.phase == .ready && p.lineOn i && (p.bay i).gap == .counting && !p.ps.supplyLow && !p.busy

/-- R20, R132, R135: the supply has gone low: a commit hold with no operation in flight ends (assumption 22). -/
def Part.endIdleCommit (p : Part) (i : Slot) : Part :=
  match p.link i with
  | .held h => if h.commit && h.phase == .ready then p.endHold i else p
  | .none | .waitingBringUp _ _ | .waitingCommit => p

/-! ## The outcomes of a commit hold (R126 to R131) -/

/-- R123, R126: the READ_TALLY that opened a commit hold has succeeded. -/
def Part.openingRead (p : Part) (i : Slot) (tally : Nat) : Part :=
  let resolved := p.resolves i tally
  let p := if (p.commit i).inDoubt = 0 then p else p.resolveInDoubt i tally
  (p.linkSucceeded i).continueHold i resolved

/-- R128: a RECEIPT_CHECK of a slot for the advance `a` answered with `tally` and `receipt`. -/
def Part.queueReceiptCheck (p : Part) (i : Slot) (a : Advance) (tally : Nat) (receipt : Quad) : Part :=
  let r := p.slot i
  p.queueDigest (.slot i) (.receiptCheck (r.key.getD 0) (r.nonce.getD 0) a.count tally receipt)

/-- R128: an ADVANCE_TALLY is answered ACCEPTED. -/
def Part.advanceAccepted (p : Part) (i : Slot) (h : Hold) (tally : Nat) (receipt : Quad) : Part :=
  match (p.commit i).unsettled with
  | some a =>
    if tally = p.committedTally i + a.units then
      (p.setLink i (.held { h with phase := .awaitingReceipt })).queueReceiptCheck i a tally receipt
    else
      ((((p.clearUnsettled i).linkSucceeded i).escalate i .regressed).examineFlush i).continueHold i false
  | none => p.endHold i

/-- R131: an ADVANCE_TALLY is answered TALLY_FULL. -/
def Part.advanceFull (p : Part) (i : Slot) : Part :=
  let p := p.updCommit i fun r => { r with unsettled := none, tallyFull := true }
  let p := p.changeLinkedEntry i fun e => { e with tallyFull := true }
  let p := ((p.recordCommit i).raise .slot).linkSucceeded i
  (p.examineFlush i).continueHold i false

/-- R129: an operation of a commit hold fails: a sent ADVANCE_TALLY that was not REFUSED leaves its units in doubt, the
slot's flush ends, the failure is counted, and the hold ends. -/
def Part.commitFailed (p : Part) (i : Slot) (o : LinkOutcome) : Part :=
  let p := if o = .refused then p.clearUnsettled i else p.doubtUnsettled i
  ((p.endFlush i .linkFailed).linkFailed i).endHold i

/-- The outcome of an operation of a commit hold is handed to the commit engine. -/
def Part.commitOutcome (p : Part) (i : Slot) (h : Hold) (o : LinkOutcome) : Part :=
  match o with
  | .tallyRead tally => p.openingRead i tally
  | .advanced tally receipt => p.advanceAccepted i h tally receipt
  | .tallyFull => p.advanceFull i
  | .noResponse | .checkError | .malformed | .refused => p.commitFailed i o
  | .identified _ | .challenged _ => p.endHold i

/-- R128: the RECEIPT_CHECK of a slot's ADVANCE_TALLY reports a match for the new tally. -/
def Part.advanceConfirmed (p : Part) (i : Slot) (a : Advance) (tally : Nat) : Part :=
  let p := p.updCommit i fun r =>
    { r with uncommitted := r.uncommitted - a.units * unitVolume, unsettled := none }
  let p := p.changeLinkedEntry i fun e => { e with tally := tally }
  let p := (p.recordCommit i).linkSucceeded i
  ((p.examineFlush i).testCommit i).continueHold i true

/-- R128: the RECEIPT_CHECK reports a mismatch. -/
def Part.advanceDisbelieved (p : Part) (i : Slot) : Part :=
  (((p.clearUnsettled i).linkSucceeded i).escalate i .counterfeit).continueHold i false

/-- R128: the result of a RECEIPT_CHECK is handed over. -/
def Part.receiptChecked (p : Part) (i : Slot) (tally : Nat) (checkMatched : Bool) : Part :=
  match (p.commit i).unsettled with
  | some a => if checkMatched then p.advanceConfirmed i a tally else p.advanceDisbelieved i
  | none => p

/-! ## The end of an operation (R8, R17, R18) -/

/-- An outcome is handed to the owner of the operation. A single hold ends with its operation, and the engine is free
before the slot manager acts (R16, R17; step 7 of section 1.4). -/
def Part.deliverOutcome (p : Part) (i : Slot) (o : LinkOutcome) : Part :=
  match p.link i with
  | .held h => if h.commit then p.commitOutcome i h o else (p.endHold i).slotOutcome i o
  | .none | .waitingBringUp _ _ | .waitingCommit => p

/-- R18: an operation ends; while its bay is LEAVING the engine holds the outcome. -/
def Part.operationEnds (p : Part) (i : Slot) (h : Hold) (o : LinkOutcome) : Part :=
  if (p.bay i).presence = .leaving then p.setLink i (.held { h with phase := .outcomeHeld o })
  else p.deliverOutcome i o

/-- R5, R8: the outcome of an operation is judged. A frame has ended; while the line is still driven low at a failure
the gap is not yet counted. -/
def Part.judged (p : Part) (i : Slot) (h : Hold) (o : LinkOutcome) (lineLow : Bool) : Part :=
  (p.updBay i fun b => { b with gap := if o.isFailure && lineLow then .heldLow else .counting }).operationEnds i h o

/-- R18: the bay has returned to PRESENT and a held outcome is handed over. -/
def Part.deliverHeld (p : Part) (i : Slot) : Part :=
  match p.link i with
  | .held h =>
    (match h.phase with
     | .outcomeHeld o => p.deliverOutcome i o
     | .ready | .sending _ | .awaiting | .receiving | .payload _ _ | .awaitingReceipt => p)
  | .none | .waitingBringUp _ _ | .waitingCommit => p

/-- The sort of a command, without its operands. -/
def LinkOp.sameCommand (a b : LinkOp) : Bool := a.code == b.code

/-- R8: the payload and the CRC of a response to `command` have been received, and the response is judged; `none` when
no operation in flight on the bay can give such a response now, or the bay's line is off (R3). -/
def Part.responseReceived (p : Part) (i : Slot) (command : LinkOp) (payload : List Byte) (crc : Byte)
    (lineLow : Bool) : Option Part :=
  match p.link i with
  | .held h =>
    (match h.phase with
     | .payload status length =>
       if p.lineOn i && h.op.sameCommand command && payload.length == length.toNat then
         some (p.judged i h (h.op.judge status length payload crc) lineLow)
       else none
     | .ready | .sending _ | .awaiting | .receiving | .outcomeHeld _ | .awaitingReceipt => none)
  | .none | .waitingBringUp _ _ | .waitingCommit => none

end Sys2Proof.Machine
end

