-- ==== Sys2Proof/Machine/Saver.lean ====
section
/-! DEFINITION. The saver and non-volatile memory: folds and unfolds, the choice of the next write, the ends of writes,
the load (R50 to R57, R59, R60, R161, R164 to R167). -/

namespace Sys2Proof.Machine
open Sys2Proof

/-! ## Fold and unfold (R55, R57) -/

/-- R55: the slot is folded with the entry of `serial`. -/
def SlotRow.folds (r : SlotRow) (serial : Quad) : Bool := r.historyLink && r.carries serial

/-- R55: the entry as the fold of one slot leaves it. -/
def Entry.takeSlot (e : Entry) (c : CommitRow) (v : Volumes) : Entry :=
  { e with carried := satAdd max32 e.carried c.uncommitted, remaining := v.remaining, postEmpty := v.postEmpty,
           exhausted := v.exhausted, tallyFull := c.tallyFull,
           inDoubt := if c.inDoubt = 0 then e.inDoubt else c.inDoubt }

/-- R55: one slot is folded into the entry in place `k`. -/
def Part.foldSlot (k : Fin 64) (p : Part) (i : Slot) : Part :=
  let c := p.commit i
  let v := p.volumes i
  let p := p.updPlace k fun r => { entry := r.entry.map fun e => e.takeSlot c v, dirty := true }
  ((p.updCommit i fun r => { r with uncommitted := 0, inDoubt := 0 }).recordCommit i).examineFlush i

/-- R55: every slot with history link yes that carries the entry's serial is folded. The rule gives no order among them;
the model takes them in ascending order, so that the highest slot's copies stand (DESIGN CHOICE, assumption 49). -/
def Part.foldEntry (p : Part) (k : Fin 64) (serial : Quad) : Part :=
  p.forSlots fun q i => if (q.slot i).folds serial then q.foldSlot k i else q

/-- R55: some slot holding the serial has an ADVANCE_TALLY unsettled. -/
def Part.serialUnsettled (p : Part) (serial : Quad) : Bool :=
  allSlots.any fun i => (p.slot i).carries serial && (p.commit i).unsettled.isSome

/-- R55: the place holds an entry that a slot with an unsettled ADVANCE_TALLY holds. -/
def Part.placeUnsettled (p : Part) (k : Fin 64) : Bool :=
  match (p.place k).entry with
  | some e => p.serialUnsettled e.serial
  | none => false

/-- R57: some slot holding the serial has units in doubt. -/
def Part.serialInDoubt (p : Part) (serial : Quad) : Bool :=
  allSlots.any fun i => (p.slot i).carries serial && decide ((p.commit i).inDoubt ≠ 0)

/-- R57: the fold of one slot is undone. -/
def Part.unfoldSlot (p : Part) (i : Slot) : Part :=
  match p.linkedPlace i, p.linkedEntry i with
  | some k, some e =>
    let units := if e.inDoubt ≠ 0 && !p.serialInDoubt e.serial then e.inDoubt else (p.commit i).inDoubt
    let p := p.updCommit i fun r =>
      { r with uncommitted := satAdd max32 r.uncommitted e.carried, inDoubt := units }
    ((p.changeEntry k fun e => { e with carried := 0 }).recordCommit i).examineFlush i
  | _, _ => p

/-- R57: every fold is undone, in ascending slot order. -/
def Part.unfoldAll (p : Part) : Part := p.forSlots Part.unfoldSlot

/-! ## The store fault (R53, R161, R166) -/

/-- A failed write sets the store-fault flag and raises STORE. -/
def Part.reportStoreFault (p : Part) : Part := Part.raise { p with hs := { p.hs with storeFault := true } } .store

/-! ## Beginning a write (R52, R165, R166) -/

/-- R59: a parked FORGET_HISTORY of place `k` is answered by the write of it that begins now. A write begins with its first
attempt: a FORGET_HISTORY taken during a write is not answered by that write's second attempt, though this one may carry the
free mark (DESIGN CHOICE, assumption 56). -/
def Parked.cover (k : Fin 64) (x : Parked) : Parked :=
  match x.work with
  | .forget place covered => if place = k then { x with work := .forget place true } else { x with work := .forget place covered }
  | .reverify _ | .commitNow _ _ | .purge | .settings | .windDown | .enterService => x

/-- R52 step 1: an attempt to write place `k` begins, with the fold of a held entry when fold at write is enabled. A
second attempt on a place whose ADVANCE_TALLY is unsettled makes no fold (R55). A second attempt belongs to the write that its first
attempt began, so no FORGET_HISTORY taken meanwhile waits for it (R59; DESIGN CHOICE, assumption 56). -/
def Part.beginAttempt (p : Part) (k : Fin 64) (second : Bool) : Part :=
  let p :=
    match (p.place k).entry with
    | some e => if p.hs.foldAtWrite && p.serialHeld e.serial && !p.serialUnsettled e.serial then p.foldEntry k e.serial else p
    | none => p
  { p with hs := { p.hs with saver := .place k (p.place k).entry p.hs.sightings second false } }

/-- R52: the saver takes place `k` from the save queue: a write of it begins, which answers the FORGET_HISTORY requests parked
on it (R59). -/
def Part.takePlace (p : Part) (k : Fin 64) : Part :=
  let p := { p with hs := { p.hs with saveQueue := p.hs.saveQueue.erase k },
                    rq := { p.rq with parked := p.rq.parked.map (Parked.cover k) } }
  p.beginAttempt k false

/-- R52: the first place of the save queue that the saver may write; while fold at write is enabled it passes over
places with an unsettled ADVANCE_TALLY (R55). -/
def Part.writablePlace (p : Part) : Option (Fin 64) :=
  p.hs.saveQueue.find? fun k => !(p.hs.foldAtWrite && p.placeUnsettled k)

/-- What the saver takes next. -/
inductive NextWrite where
  | counter
  | settings (request : SettingsRequest)
  | place (place : Fin 64)
deriving DecidableEq, Repr

/-- R165: the next write, steps 1 and 2. -/
def Part.nextStored (p : Part) : Option NextWrite :=
  if p.hs.counterWaiting then some .counter else p.hs.settingsQueue.head?.map .settings

/-- R165: the next write; while fold at write is enabled the places come first. -/
def Part.nextWrite (p : Part) : Option NextWrite :=
  let place := p.writablePlace.map NextWrite.place
  if p.hs.foldAtWrite then place.or p.nextStored else p.nextStored.or place

/-- The feed that a page gives a channel; a clear mark stands for the default (R164). -/
def Page.feedOf (page : Page) (c : Channel) : Feed := page[c].feed.getD (.default c)

/-- The calibration that a page gives a channel (R164). -/
def Page.calibrationOf (page : Page) (c : Channel) : Calibration := page[c].calibration.getD .default

/-- The feed names the slot. -/
def Feed.names (f : Feed) (i : Slot) : Bool := f.primary == some i || f.secondary == some i

/-- R116: no slot stands in two channels' feeds. -/
def Page.feedsDisjoint (page : Page) : Bool :=
  allSlots.all fun i => decide ((allSlots.filter fun c => (page.feedOf c).names i).length ≤ 1)

/-- R166 step 2: the page with the target channel's part replaced and its mark set. -/
def Page.withSetting (page : Page) (c : Channel) (v : Setting) : Page :=
  match v with
  | .calibration k => page.set c { page[c] with calibration := some k }
  | .feed f => page.set c { page[c] with feed := some f }

/-- R166 step 1: a SET_FEED passes the check against the page; a LOAD_CALIBRATION needs none. -/
def SettingsRequest.passes (r : SettingsRequest) (page : Page) : Bool :=
  match r.value with
  | .feed _ => (Page.withSetting page r.channel r.value).feedsDisjoint
  | .calibration _ => true

/-- R52, R165, R166: the idle saver takes its next write. A SET_FEED that fails its check completes BAD_ARGUMENT and the
saver chooses again. -/
def Part.saverTakeUpTo : Nat → Part → Part
  | 0, p => p
  | fuel + 1, p =>
    if p.hs.saver = .idle && p.works then
      match p.nextWrite with
      | none => p
      | some (.place k) => p.takePlace k
      | some .counter => { p with hs := { p.hs with counterWaiting := false, saver := .counter (p.hs.counter + 1) false } }
      | some (.settings r) =>
        let p := { p with hs := { p.hs with settingsQueue := p.hs.settingsQueue.drop 1 } }
        if r.passes p.hs.page then
          { p with hs := { p.hs with saver := .settings r (Page.withSetting p.hs.page r.channel r.value) false } }
        else Part.saverTakeUpTo fuel (p.complete r.cell .badArgument [])
    else p

/-- The idle saver takes its next write. Each request that fails its check on the way shortens the settings queue. -/
def Part.saverTake (p : Part) : Part := Part.saverTakeUpTo (p.hs.settingsQueue.length + 1) p

/-! ## The end of a place write (R52, R53, R59) -/

/-- R59: the parked FORGET_HISTORY requests that a write of place `k` answers complete. The rule gives no order for several
of them; the model completes them in the order in which they were taken (DESIGN CHOICE, assumption 50). -/
def Part.finishForget (p : Part) (k : Fin 64) (result : Result) : Part :=
  p.rq.parked.foldl (fun q x =>
    match x.work with
    | .forget place covered => if place = k && covered then q.complete x.cell result [⟨0, 1, 1⟩] else q
    | .reverify _ | .commitNow _ _ | .purge | .settings | .windDown | .enterService => q) p

/-- What NV holds of a place after a verified write (R50, R59). -/
def nvPlaceOf (copy : Option Entry) (counter : Nat) : NvPlace :=
  match copy with
  | some e => .entry e counter
  | none => .free counter

/-- R52 step 2: the write of place `k` is verified. -/
def Part.placeVerified (p : Part) (k : Fin 64) (copy : Option Entry) (counter : Nat) (changed : Bool) : Part :=
  let p := { p with nv := { p.nv with places := p.nv.places.set k (nvPlaceOf copy counter) },
                    hs := { p.hs with saver := .idle } }
  let p :=
    if p.hs.saveQueue.contains k then p
    else if changed then p.enqueuePlace k
    else p.updPlace k fun r => { r with dirty := false }
  p.finishForget k .ok

/-- R52 step 4, R53: the write of place `k` fails. -/
def Part.placeFailed (p : Part) (k : Fin 64) : Part :=
  let p := ({ p with hs := { p.hs with saver := .idle } }).enqueuePlace k
  p.reportStoreFault.finishForget k .storeFailed

/-! ## The end of a settings or counter write (R161, R164 to R167) -/

/-- The copy that a write fills: the one that does not hold the current value. -/
def targetCopy (current : Option (Fin 2)) (first : Fin 2) : Fin 2 :=
  match current with
  | some c => c + 1
  | none => first

/-- The settings copy that the next write fills (R164). -/
def Part.pageTarget (p : Part) : Fin 2 := targetCopy p.hs.pageCopy Config.firstPageCopy

/-- The counter copy that the next write fills (R165). -/
def Part.counterTarget (p : Part) : Fin 2 := targetCopy p.hs.counterCopy Config.firstCounterCopy

/-- The generation that the next settings write carries: one greater, wrapping, than the current one (R164). -/
def Part.nextGeneration (p : Part) : BitVec 32 :=
  match p.hs.pageCopy.bind fun c => p.nv.pages[c] with
  | some copy => copy.generation + 1
  | none => Config.firstGeneration

/-- A settings copy of NV takes a value; absent means that it fails its check. -/
def Part.setPageCopy (p : Part) (c : Fin 2) (value : Option PageCopy) : Part :=
  { p with nv := { p.nv with pages := p.nv.pages.set c value } }

/-- A counter copy of NV takes a value; absent means that it fails its check. -/
def Part.setCounterCopy (p : Part) (c : Fin 2) (value : Option (BitVec 32)) : Part :=
  { p with nv := { p.nv with counters := p.nv.counters.set c value } }

/-- The setting that a written request hands to the accounting unit (R166 step 3). -/
def SettingsRequest.item (r : SettingsRequest) : SettingItem :=
  match r.value with
  | .calibration v => .calibration r.channel v
  | .feed f => .feed r.channel f

/-- A settings request completes with a result; from the start of a reset sequence, with ABORTED_RESTART (R167). -/
def Part.finishSettings (p : Part) (r : SettingsRequest) (result : Result) : Part :=
  p.complete r.cell (if p.busy then .abortedRestart else result) []

/-- R166 step 3: the settings write is verified. -/
def Part.settingsVerified (p : Part) (r : SettingsRequest) (page : Page) : Part :=
  let target := p.pageTarget
  let p := p.setPageCopy target (some ⟨p.nextGeneration, page⟩)
  let p := { p with hs := { p.hs with saver := .idle, page := page, pageCopy := some target } }
  (p.placeSetting r.item).finishSettings r (okOrClamped r.clamped)

/-- R166: an attempt of a settings write fails; the first is followed by a second, the second by STORE_FAILED. -/
def Part.settingsDiffers (p : Part) (r : SettingsRequest) (page : Page) (second targetFails : Bool) : Part :=
  let p := if targetFails then p.setPageCopy p.pageTarget none else p
  if second then
    Part.finishSettings (Part.reportStoreFault { p with hs := { p.hs with saver := .idle } }) r .storeFailed
  else { p with hs := { p.hs with saver := .settings r page true } }

/-- R161: the counter write of a successful token check is verified. The rest follows while its check is outstanding;
after a reset has begun only the counter is raised (R167). -/
def Part.counterVerified (p : Part) (value : BitVec 32) : Part :=
  let target := p.counterTarget
  let p := p.setCounterCopy target (some value)
  let p := { p with hs := { p.hs with saver := .idle, counter := value, counterCopy := some target } }
  match p.ps.checkOutstanding with
  | some cell =>
    let p := { p with ps := { p.ps with failedAttempts := 0, serviceMode := true, idleRunning := true,
                                        checkOutstanding := none } }
    p.complete cell .ok []
  | none => p

/-- R161: an attempt of a counter write fails. -/
def Part.counterDiffers (p : Part) (value : BitVec 32) (second targetFails : Bool) : Part :=
  let p := if targetFails then p.setCounterCopy p.counterTarget none else p
  if second then
    let p := Part.reportStoreFault { p with hs := { p.hs with saver := .idle } }
    match p.ps.checkOutstanding with
    | some cell => Part.complete { p with ps := { p.ps with checkOutstanding := none } } cell .storeFailed []
    | none => p
  else { p with hs := { p.hs with saver := .counter value true } }

/-! ## The load (R50, R60, R164, R165) -/

/-- The entry that an NV place holds, when it passes its check. -/
def NvPlace.held (n : NvPlace) : Option Entry :=
  match n with
  | .entry e _ => some e
  | .free _ | .failing => none

/-- The sighting counter recorded with an NV place that passes its check (R50). -/
def NvPlace.recorded (n : NvPlace) : Nat :=
  match n with
  | .entry _ c | .free c => c
  | .failing => 0

/-- R60: place `j` takes precedence over place `k`, both holding entries of one serial. -/
def supersedes (nv : NonVolatile) (e : Entry) (k j : Fin 64) : Bool :=
  match nv.places[j].held with
  | some d => j != k && d.serial == e.serial && (decide (e.sighting < d.sighting) || (d.sighting == e.sighting && decide (j < k)))
  | none => false

/-- R60: what the load puts into place `k` of the RAM table. -/
def NonVolatile.loadPlace (nv : NonVolatile) (k : Fin 64) : PlaceRow :=
  match nv.places[k].held with
  | some e => if allPlaces.any (supersedes nv e k) then ⟨none, false⟩ else ⟨some e, false⟩
  | none => ⟨none, false⟩

/-- R50: the sighting counter after a load: the largest value recorded. -/
def NonVolatile.loadSightings (nv : NonVolatile) : Nat := allPlaces.foldl (fun m k => max m (nv.places[k].recorded)) 0

/-- R60: some place fails its check. -/
def NonVolatile.damaged (nv : NonVolatile) : Bool := allPlaces.any fun k => nv.places[k] == .failing

/-- R164, R165: the copy that holds the newer of two values, given what orders them when neither is one greater. -/
def newerCopy (a b : BitVec 32) (tie : Fin 2) : Fin 2 :=
  if a = b + 1 then 0 else if b = a + 1 then 1 else if b < a then 0 else if a < b then 1 else tie

/-- R164: the settings copy that is loaded. -/
def NonVolatile.currentPage (nv : NonVolatile) : Option (Fin 2) :=
  match nv.pages[(0 : Fin 2)], nv.pages[(1 : Fin 2)] with
  | some a, some b => some (newerCopy a.generation b.generation Config.pageTie)
  | some _, none => some 0
  | none, some _ => some 1
  | none, none => none

/-- R165: the counter copy that is loaded. -/
def NonVolatile.currentCounter (nv : NonVolatile) : Option (Fin 2) :=
  match nv.counters[(0 : Fin 2)], nv.counters[(1 : Fin 2)] with
  | some a, some b => some (newerCopy a b Config.counterTie)
  | some _, none => some 0
  | none, some _ => some 1
  | none, none => none

/-- R164: the page that the load gives. -/
def NonVolatile.loadPage (nv : NonVolatile) : Page :=
  match nv.currentPage.bind fun c => nv.pages[c] with
  | some copy => copy.page
  | none => Page.blank

/-- R165: the service counter that the load gives. -/
def NonVolatile.loadCounter (nv : NonVolatile) : BitVec 32 := (nv.currentCounter.bind fun c => nv.counters[c]).getD 0

/-- The load finds damage: a failing place, or a page or counter whose copies both fail (R60, R164, R165). -/
def NonVolatile.loadFault (nv : NonVolatile) : Bool :=
  nv.damaged || nv.currentPage.isNone || nv.currentCounter.isNone

/-- R60, R164, R165: the history store as the load leaves it. -/
def HistoryStore.load (nv : NonVolatile) : HistoryStore :=
  { HistoryStore.blank with
    places := Vector.ofFn nv.loadPlace, sightings := nv.loadSightings, storeFault := nv.loadFault,
    page := nv.loadPage, pageCopy := nv.currentPage, counter := nv.loadCounter, counterCopy := nv.currentCounter }

/-- R85, R101: the effective calibrations and feeds are taken from the loaded page. -/
def Accounting.loadPage (a : Accounting) (page : Page) : Accounting :=
  { a with channels := Vector.ofFn fun c =>
      { a.channels[c] with calibration := Page.calibrationOf page c, feed := Page.feedOf page c } }

end Sys2Proof.Machine
end

