-- ==== Sys2Proof/Machine/Power.lean ====
section
/-! DEFINITION. Power states, the supply watch, the reset sequences, and what ends every step (R20 to R22, R36, R45,
R61, R99, R100, R135, R136, R145, R162, R167 to R175). -/

namespace Sys2Proof.Machine
open Sys2Proof

/-! ## Waking (R3, R156, R171) -/

/-- R3, R5, R156: the lines of seated bays come on, which ends a frame on each, and every bay begins a new period with
its selected pattern. -/
def Part.linesOn (p : Part) : Part :=
  { p with bays := Vector.ofFn fun b =>
      { p.bay b with gap := if p.lineOn b then .counting else (p.bay b).gap, current := (p.bay b).selected } }

/-- R171: the part wakes. -/
def Part.wake (p : Part) : Part :=
  let p := { p with ps := { p.ps with power := .run, wakeRequests := false, wakeBands := false } }
  p.linesOn.takeFromList.testAll

/-- R2, R171: a presence transition is signalled to the power and supply block, which wakes the part from SLEEP. -/
def Part.presenceChanged (p : Part) : Part := if p.asleep then p.wake else p

/-! ## SLEEP entry (R21, R171) -/

/-- R21: a single hold that is cut off by sleep goes back to waiting with its operation, and its deferred join, if it has one,
is placed at the tail of the class. -/
def Part.putBack (p : Part) (i : Slot) (h : Hold) : Part :=
  { p with lp := { p.lp with states := p.lp.states.set i (.waitingBringUp h.op h.deferred),
                             bringUp := p.lp.bringUp ++ h.deferred.toList.map fun _ => i } }

/-- R21: the hold of a slot is cut off by sleep. A hold that awaits a receipt stays held (R127); a single hold goes back
to waiting; a commit hold ends, its deferred join placed at the tail of the bring-up class. An outcome that the engine
holds for a LEAVING bay (R18) is discarded and its operation counts as cut off by sleep, which no rule says (DESIGN
CHOICE, assumption 47). -/
def Part.cutForSleep (p : Part) (i : Slot) : Part :=
  match p.link i with
  | .held h =>
    if !h.commit then p.putBack i h
    else if h.phase = .awaitingReceipt then p
    else ((p.placeDeferred i h.deferred).doubtUnsettled i).releaseReport i
  | .none | .waitingBringUp _ _ | .waitingCommit => p

/-- The slot has a single hold. -/
def LinkState.singleHold (l : LinkState) : Bool :=
  match l with
  | .held h => !h.commit
  | .none | .waitingBringUp _ _ | .waitingCommit => false

/-- R21, R171: the part enters SLEEP. The single holds stand at the head of the bring-up class in ascending slot order. R21
gives no order to several commit holds: the model cuts them off in ascending slot order too, so that those with a sent
ADVANCE_TALLY dirty their entries in that order, which is their order on the save queue where they join it (DESIGN CHOICE,
assumption 62). -/
def Part.enterSleep (p : Part) : Part :=
  let p := { p with ps := { p.ps with power := .sleep } }
  let back := allSlots.filter fun i => (p.link i).singleHold
  let p := p.forSlots Part.cutForSleep
  { p with lp := { p.lp with bringUp := back ++ p.lp.bringUp } }

/-! ## The wind-down (R169, R170) -/

/-- R170: the wind-down leaves every slot it holds as flush holder, and forgets which slots it has ended. -/
def Part.windDownLeaves (p : Part) : Part :=
  p.forSlots fun q i => q.updCommit i fun r => { r with windDownHolder := false, windDownEnded := false }

/-- R169: a wind-down in progress is superseded; its cell completes SUPERSEDED. -/
def Part.supersede (p : Part) : Part :=
  match p.ps.windDownCell with
  | some cell => Part.complete { p with ps := { p.ps with windDownCell := none } } cell .superseded []
  | none => p

/-- R170: a wind-down begins: it becomes a flush holder of the slots that meet its conditions. -/
def Part.beginWindDown (p : Part) : Part :=
  let p := ({ p with ps := { p.ps with power := .windingDown } }).windDownLeaves
  (p.forSlots fun q i => if q.windDownTakes i then q.updCommit i fun r => { r with windDownHolder := true } else q).testAll

/-- R170: the slot does not hold the wind-down back. -/
def SlotState.restful (s : SlotState) : Bool := !(s == .settling || s.bringUp || s == .reverify)

/-- R170: the wind-down is complete. -/
def Part.windDownDone (p : Part) : Bool :=
  p.ps.power == .windingDown && p.ps.windDownCell.isSome
    && (allSlots.all fun i => !(p.commit i).windDownHolder && (p.slot i).state.restful)
    && p.hs.saveQueue.isEmpty && p.hs.saver == .idle && p.hs.settingsQueue.isEmpty && !p.hs.counterWaiting

/-! ## The supply watch (R172) -/

/-- R172: SUPPLY_LOW is reported: commit holds with no operation in flight end (R20), fold at write is enabled and the save
queue is reordered (R55, R56). -/
def Part.reportSupplyLow (p : Part) : Part :=
  let p := Part.raise { p with ps := { p.ps with supplyLow := true } } .supply
  let p := p.forSlots Part.endIdleCommit
  Part.reorderSaveQueue { p with hs := { p.hs with foldAtWrite := true } }

/-- R172: SUPPLY_GOOD is reported: fold at write is disabled but for the fold phase (R55), folds are undone, the link
pool resumes and every slot is tested. -/
def Part.reportSupplyGood (p : Part) : Part :=
  let p := Part.raise { p with ps := { p.ps with supplyLow := false } } .supply
  let p := p.unfoldAll
  let p := { p with hs := { p.hs with foldAtWrite := p.inFoldPhase } }
  p.takeFromList.testAll

/-- R172: a change of the comparator is reported at once. -/
def Part.supplyReported (p : Part) : Bool := !p.busy || p.inFoldPhase

/-! ## The start of a reset sequence (R22, R36, R45, R100, R136, R145, R162, R167, R174) -/

/-- R162: service mode ends. -/
def PowerSupply.endService (s : PowerSupply) : PowerSupply := { s with serviceMode := false, idleRunning := false }

/-- R22: with a fold phase (`keep`), holds with an operation in flight go on, but for their deferred joins; one whose
operation is not yet driven is given up, since nothing has been sent (R130, assumption 22). Without one every link state
is NONE. -/
def LinkState.atReset (keep : Bool) (l : LinkState) : LinkState :=
  match l with
  | .held h => if keep && h.phase != .ready then .held { h with deferred := Option.none } else .none
  | .none | .waitingBringUp _ _ | .waitingCommit => .none

/-- R22: the link wait list is emptied. -/
def LinkPool.atReset (l : LinkPool) (keep : Bool) : LinkPool := ⟨l.states.map (LinkState.atReset keep), [], []⟩

/-- R36: what the digest engine cancels at the start of a reset: DERIVE and CHALLENGE_CHECK of every slot, and the
service gate's entry; without a fold phase (`keep` false) also the RECEIPT_CHECKs, whose outcomes are discarded (R22). -/
def DigestEntry.cancelledAtReset (keep : Bool) (e : DigestEntry) : Bool :=
  e.op.forSlotManager || e.owner == .gate || !keep

/-- R45: the slot manager abandons its work. -/
def SlotRow.atReset (r : SlotRow) : SlotRow := { r with timer := .stopped, parkedCell := none }

/-- R136: every flush holder leaves its slot. -/
def CommitRow.atReset (r : CommitRow) : CommitRow :=
  { r with holders := [], windDownHolder := false, windDownEnded := false }

/-- The item is a purge. -/
def ChargeItem.isPurge (x : ChargeItem) : Bool :=
  match x with
  | .purge _ _ _ _ => true
  | .bank _ => false

/-- The cell whose settings write is under way (R166). -/
def Saver.settingsCell (s : Saver) : Option CellNo :=
  match s with
  | .settings r _ _ => some r.cell
  | .idle | .place _ _ _ _ _ | .counter _ _ => none

/-- R145: the parked requests complete ABORTED_RESTART, but for one whose settings write is under way (R167). No rule gives
their order; the model completes them in the order in which their cells were taken (DESIGN CHOICE, assumption 54). -/
def Part.abortParked (p : Part) : Part :=
  p.rq.parked.foldl (fun q k => if p.hs.saver.settingsCell = some k.cell then q else q.complete k.cell .abortedRestart []) p

/-- R174: RUN, DOZE and WINDING_DOWN keep their lines; a part asleep is powered as at a wake. -/
def Part.powerAtReset (p : Part) : Part :=
  match p.ps.power with
  | .sleep => Part.linesOn { p with ps := { p.ps with power := .run, wakeRequests := false, wakeBands := false } }
  | .windingDown => { p with ps := { p.ps with power := .run, wakeRequests := false, wakeBands := false } }
  | .run | .doze => p

/-- R100: banks stay on the charge list for the fold phase; without one every item is discarded. -/
def ChargeItem.kept (keep : Bool) (x : ChargeItem) : Bool := keep && !x.isPurge

/-- The start of a reset-line reset or a restart: what every block does there. `keep` says that a fold phase follows, so
that operations in flight run to their ends. -/
def Part.abandonWork (p : Part) (keep : Bool) : Part :=
  let p := { p with ps := { p.ps.endService with checkOutstanding := none, windDownCell := none },
                    hs := { p.hs with settingsQueue := [], counterWaiting := false },
                    lp := p.lp.atReset keep, sm := p.sm.map SlotRow.atReset,
                    ce := { p.ce with rows := p.ce.rows.map CommitRow.atReset },
                    au := { p.au with chargeList := p.au.chargeList.filter (ChargeItem.kept keep) } }
  (p.cancelDigest (DigestEntry.cancelledAtReset keep)).abortParked

/-- R173, R174: a reset-line reset or a restart begins, with a fold phase (`fold`) or without one. Without one there is
no fold (R61), so that a second attempt of a write in progress makes none either. -/
def Part.beginReset (p : Part) (kind : SequenceKind) (fold : Bool) : Part :=
  let p := p.powerAtReset
  let p := { p with ps := { p.ps with sequence := some ⟨kind, if fold then .fold else .awaitClear⟩ } }
  let p := p.abandonWork fold
  let p := { p with hs := { p.hs with foldAtWrite := fold } }
  if fold then p.reorderSaveQueue else p

/-- The sequence in progress takes a new kind and phase. -/
def Part.setSequence (p : Part) (kind : SequenceKind) (phase : SequencePhase) : Part :=
  { p with ps := { p.ps with sequence := some ⟨kind, phase⟩ } }

/-- R173: the reset input is asserted. -/
def Part.resetLine (p : Part) : Part :=
  match p.ps.sequence with
  | none => p.beginReset .resetLine (!p.ps.comparatorLow)
  | some ⟨.restart, .fold⟩ => p.setSequence .resetLine .fold
  | some ⟨.restart, .awaitClear⟩ => p.setSequence .resetLine .awaitClear
  | some ⟨_, .load⟩ => p.setSequence .resetLine .awaitClear
  | some ⟨.powerOn, _⟩ | some ⟨.resetLine, _⟩ | some ⟨.restart, .waitGood⟩ => p

/-- R174: the fold phase has nothing left to do. An engine that holds the outcome of an ended operation for a LEAVING bay
(R18) counts as having it in flight, which R174 leaves open (DESIGN CHOICE, assumption 55). -/
def Part.foldDrained (p : Part) : Bool :=
  (allSlots.all fun i => !(p.link i).isHeld && (p.commit i).unsettled.isNone)
    && (p.au.chargeList.all ChargeItem.isPurge) && p.hs.saveQueue.isEmpty && p.hs.saver == .idle

/-! ## The clearing point (R4, R175) -/

/-- R4: a contact found closed at the clearing point is taken as a contact-closes event: SETTLING, and contact made. -/
def Part.sampleContact (p : Part) (b : Slot) : Part :=
  if (p.bay b).contactClosed then
    (p.updBay b fun r => { r with presence := .settling, timer := .settle }).changeState b .settling
  else p

/-- R149, R175: the port at the clearing point: a restart keeps mask level, polarity and byte order. -/
def Port.cleared (r : Port) (kind : SequenceKind) : Port :=
  match kind with
  | .restart => { Part.reset.port with maskLevel := r.maskLevel, activeHigh := r.activeHigh, bigEndian := r.bigEndian }
  | .powerOn | .resetLine => Part.reset.port

/-- R150: the notice unit at the clearing point: no class is pending; a restart keeps the levels. -/
def NoticeUnit.cleared (n : NoticeUnit) (kind : SequenceKind) : NoticeUnit :=
  match kind with
  | .restart => { n with pending := 0 }
  | .powerOn | .resetLine => { n with pending := 0, levels := NoticeUnit.defaultLevels }

/-- R175: every block takes the values of the clearing point; NV, the contact pins, the reset input, the comparator and
the free values' counters stay. -/
def Part.cleared (p : Part) (kind : SequenceKind) : Part :=
  { Part.reset with
    port := p.port.cleared kind, nu := p.nu.cleared kind, nv := p.nv, free := p.free,
    bays := Vector.ofFn fun b => Bay.blank (p.bay b).contactClosed,
    ps := { Part.reset.ps with comparatorLow := p.ps.comparatorLow, supplyLow := p.ps.supplyLow,
                               resetAsserted := p.ps.resetAsserted, sequence := some ⟨kind, .load⟩ } }

/-- R173: the clearing point has come: no NV write is in progress and, for a reset-line reset, the input is released. -/
def Part.mayClear (p : Part) : Bool :=
  match p.ps.sequence with
  | some ⟨.resetLine, .awaitClear⟩ => p.hs.saver == .idle && !p.ps.resetAsserted
  | some ⟨_, .awaitClear⟩ => p.hs.saver == .idle
  | some ⟨_, .waitGood⟩ | some ⟨_, .fold⟩ | some ⟨_, .load⟩ | none => false

/-- R4, R175: the clearing point of a sequence. -/
def Part.clearingPoint (p : Part) (kind : SequenceKind) : Part := (p.cleared kind).forSlots Part.sampleContact

/-! ## The end of the load (R4, R60, R147, R172, R175) -/

/-- R25: settled: a SETTLING slot becomes IDENTIFY and joins for it. -/
def Part.settled (p : Part) (i : Slot) : Part :=
  if (p.slot i).state = .settling then
    ((p.updSlot i fun r => { r with attempts := 0 }).changeState i .identify).joinBringUp i .identify
  else p

/-- R4: a settled declaration held since the clearing point is made. -/
def Part.releaseSettled (p : Part) (b : Slot) : Part :=
  if (p.bay b).settledHeld then (p.updBay b fun r => { r with settledHeld := false }).settled b else p

/-- R60, R102, R147: the history, the page and the counter are loaded, and the channel records and part information
written. -/
def Part.loadStored (p : Part) : Part :=
  let store := HistoryStore.load p.nv
  let p := { p with hs := store, au := p.au.loadPage store.page }
  (p.forSlots Part.recordChannel).recordPartInfo

/-- R175: the load ends and BUSY clears: a comparator in LOW is reported, STORE is raised for damage, the lockout starts
and held settled declarations are made. -/
def Part.endSequence (p : Part) : Part :=
  let p := { p with ps := { p.ps with sequence := none, supplyLow := false, lockoutRunning := true } }
  let p := if p.ps.comparatorLow then p.reportSupplyLow else p
  let p := if p.hs.storeFault then p.raise .store else p
  p.forSlots Part.releaseSettled

/-! ## Loss of power (R60, R167, R172) -/

/-- A write cut short leaves its target failing its check (R60, R167). -/
def Part.nvAfterPowerLoss (p : Part) : NonVolatile :=
  match p.hs.saver with
  | .idle => p.nv
  | .place k _ _ _ _ => { p.nv with places := p.nv.places.set k .failing }
  | .counter _ _ => { p.nv with counters := p.nv.counters.set p.counterTarget none }
  | .settings _ _ _ => { p.nv with pages := p.nv.pages.set p.pageTarget none }

/-- R172: the next start is a power-on; NV, the contact pins and the reset input are what is left. -/
def Part.powerLost (p : Part) : Part :=
  { Part.reset with
    nv := p.nvAfterPowerLoss, bays := Vector.ofFn fun b => Bay.blank (p.bay b).contactClosed,
    ps := { Part.reset.ps with resetAsserted := p.ps.resetAsserted },
    free := { p.free with powerOns := p.free.powerOns + 1, nonces := 0 } }

/-! ## What ends every step -/

/-- What the blocks do once the rest of a step from `before` has been carried out: the idle digest engine and the idle
saver take their next work, the writes of slot records are done, channel records and part information that changed are
written, the pattern generator chooses,
an effective brightness that has changed is kept for the present PWM period, and the interrupt output is reviewed (R35,
R52, R102, R147, R151, R154, R156). -/
def Part.finish (before p : Part) : Part :=
  (Part.keepBrightness before (Part.syncRecords before p.takeDigest.saverTake.closeWrites).choosePatterns).reviewOutput

/-- The next state in which a command leaves the part `p`. -/
def State.after (s : State) (p : Part) : Host.Outcome State Fault Refusal :=
  .next { s with part := Part.finish s.part p }

/-- The outcome of an event that cannot occur in this state: the state is unchanged. -/
def State.unchanged (s : State) : Host.Outcome State Fault Refusal := .next s

/-- The outcome of an event that may not be possible in this state. -/
def State.afterSome (s : State) (p : Option Part) : Host.Outcome State Fault Refusal :=
  match p with
  | some q => s.after q
  | none => s.unchanged

end Sys2Proof.Machine
end

