-- ==== Sys2Proof/Machine/BandEvents.lean ====
section
/-! DEFINITION. The meanings of the accounting of the item at the head of the charge list (R82, R83, R93, R99, R100). -/

namespace Sys2Proof.Machine
open Sys2Proof

/-- BANK_ACCOUNTING (R83): the bank at the head of the charge list is accounted. -/
def execBankAccounting (s : State) : Host.Outcome State Fault Refusal :=
  match s.part.works, s.part.au.chargeList with
  | true, .bank b :: _ => s.after (s.part.accountBank b)
  | true, .purge _ _ _ _ :: _ | true, [] | false, _ => s.unchanged

/-- PURGE_ACCOUNTING (R93): the purge at the head of the charge list is accounted. -/
def execPurgeAccounting (s : State) : Host.Outcome State Fault Refusal :=
  match s.part.works, s.part.au.chargeList with
  | true, .purge cell mask volumes clamped :: _ => s.after (s.part.accountPurge cell mask volumes clamped)
  | true, .bank _ :: _ | true, [] | false, _ => s.unchanged

end Sys2Proof.Machine
end

