-- ==== Sys2Proof/Machine/BayEvents.lean ====
section
/-! DEFINITION. The meanings of the bay events: contacts, settle and removal timers, pattern periods (R1 to R4, R25,
R155). -/

namespace Sys2Proof.Machine
open Sys2Proof

/-- Which declarations of R2 the bay monitor makes: all of them, none, all but settled, or settled held until BUSY
clears (R4). -/
inductive Declares where
  | all | none | notSettled | settledHeld
deriving DecidableEq, Repr

/-- R4: the declarations that are made at this stage of a sequence. -/
def Part.declares (p : Part) : Declares :=
  match p.ps.sequence with
  | .none => .all
  | some q =>
    match q.phase with
    | .fold => .notSettled
    | .load => .settledHeld
    | .waitGood | .awaitClear => .none

/-- R4: at power-on there is no sensing before the clearing point. -/
def Part.senses (p : Part) : Bool :=
  match p.ps.sequence with
  | some q => !(q.kind == .powerOn && (q.phase == .waitGood || q.phase == .awaitClear))
  | none => true

/-- R25: contact made. -/
def Part.contactMade (p : Part) (i : Slot) : Part :=
  if p.declares = .none then p
  else if (p.slot i).state = .empty then p.changeState i .settling
  else p

/-- R25: settle abandoned. -/
def Part.settleAbandoned (p : Part) (i : Slot) : Part :=
  if p.declares = .none then p
  else if (p.slot i).state = .settling then p.changeState i .empty
  else p

/-- R4, R25: settled is declared, not declared, or held until BUSY clears. -/
def Part.declareSettled (p : Part) (i : Slot) : Part :=
  match p.declares with
  | .all => p.settled i
  | .settledHeld => p.updBay i fun b => { b with settledHeld := true }
  | .none | .notSettled => p

/-- R2, R44: removal is declared. Between the end of the fold phase and the clearing point it is not: an operation in flight
of the bay goes on to its timeout, with its line off, and its engine stays held, which no rule says (DESIGN CHOICE,
assumption 32). -/
def Part.declareRemoval (p : Part) (i : Slot) : Part := if p.declares = .none then p else p.removal i

/-- R1: a bay's presence state and timer change; the change is signalled to the power and supply block (R2). -/
def Part.presenceBecomes (p : Part) (b : Slot) (s : Presence) (t : BayTimer) : Part :=
  (p.updBay b fun r => { r with presence := s, timer := t }).presenceChanged

/-- R1, second column, for a bay whose contact has just closed. -/
def Part.contactClosed (p : Part) (b : Slot) : Part :=
  match (p.bay b).presence with
  | .absent => (p.presenceBecomes b .settling .settle).contactMade b
  | .leaving => (p.presenceBecomes b .present .stopped).deliverHeld b
  | .settling | .present => p

/-- R1, third column, for a bay whose contact has just opened. -/
def Part.contactOpened (p : Part) (b : Slot) : Part :=
  match (p.bay b).presence with
  | .settling => (p.presenceBecomes b .absent .stopped).settleAbandoned b
  | .present => p.presenceBecomes b .leaving .removal
  | .absent | .leaving => p

/-- CONTACT_CLOSES (R1): the contact of a bay closes. -/
def execContactCloses (b : Slot) (s : State) : Host.Outcome State Fault Refusal :=
  if (s.part.bay b).contactClosed then s.unchanged
  else
    let p := s.part.updBay b fun r => { r with contactClosed := true }
    s.after (if p.senses then p.contactClosed b else p)

/-- CONTACT_OPENS (R1): the contact of a bay opens. -/
def execContactOpens (b : Slot) (s : State) : Host.Outcome State Fault Refusal :=
  if (s.part.bay b).contactClosed then
    let p := s.part.updBay b fun r => { r with contactClosed := false }
    s.after (if p.senses then p.contactOpened b else p)
  else s.unchanged

/-- SETTLE_TIMER_EXPIRY (R1): 50 ms of continuous contact: PRESENT, and the line comes on (R3, R5). -/
def execSettleTimerExpiry (b : Slot) (s : State) : Host.Outcome State Fault Refusal :=
  if (s.part.bay b).presence = .settling && (s.part.bay b).timer = .settle then
    let p := s.part.updBay b fun r => { r with gap := .counting }
    s.after ((p.presenceBecomes b .present .stopped).declareSettled b)
  else s.unchanged

/-- REMOVAL_TIMER_EXPIRY (R1): 5 ms of continuous absence: ABSENT, and removal is declared. -/
def execRemovalTimerExpiry (b : Slot) (s : State) : Host.Outcome State Fault Refusal :=
  if (s.part.bay b).presence = .leaving && (s.part.bay b).timer = .removal then
    let p := s.part.updBay b fun r => { r with settledHeld := false }
    s.after ((p.presenceBecomes b .absent .stopped).declareRemoval b)
  else s.unchanged

/-- R153, R155, R156: a bay's pattern period ends: its current pattern becomes the selected pattern, and a PWM period
begins, since every pattern boundary is one, so that every change of the effective brightness is in force. -/
def Part.endPatternPeriod (p : Part) (b : Slot) : Part :=
  { p.updBay b fun r => { r with current := r.selected } with earlierBrightness := [] }

/-- PATTERN_PERIOD_END (R155). Pattern timers are stopped in SLEEP (R156). -/
def execPatternPeriodEnd (b : Slot) (s : State) : Host.Outcome State Fault Refusal :=
  if s.part.asleep then s.unchanged else s.after (s.part.endPatternPeriod b)

end Sys2Proof.Machine
end

