-- ==== Sys2Proof/Machine/DigestEvents.lean ====
section
/-! DEFINITION. The meanings of the completions of the digest engine's four operations (R28 to R30, R34, R35, R40, R128,
R161). -/

namespace Sys2Proof.Machine
open Sys2Proof

/-- R28, R29: the cartridge key is stored, a fresh nonce is drawn, and the slot enters CHALLENGE. -/
def Part.derived (p : Part) (i : Slot) (key : Quad) : Part :=
  let nonce := p.freshNonce
  let p := p.nonceDrawn.updSlot i fun r =>
    { r with key := some key, nonce := some nonce, attempts := 0, state := .challenge }
  let p := p.updCommit i fun r => { r with count := 0 }
  (p.reportSlot i).joinBringUp i (.challenge nonce)

/-- DERIVE (R28): the DERIVE at the head of the digest queue completes. -/
def execDerive (s : State) : Host.Outcome State Fault Refusal :=
  match s.part.digestHead with
  | some ⟨.slot i, .derive generation serial batch⟩ =>
    let p := s.part.popDigest
    s.after (if (p.slot i).state = .derive then p.derived i (cartridgeKey generation serial batch) else p)
  | some ⟨.slot _, .challengeCheck _ _ _ _ _⟩ | some ⟨.slot _, .receiptCheck _ _ _ _ _⟩
  | some ⟨.slot _, .tokenCheck _ _⟩ | some ⟨.gate, _⟩ | none => s.unchanged

/-- R30, R40: the result of a CHALLENGE_CHECK is handed to the slot manager. -/
def Part.challengeChecked (p : Part) (i : Slot) (checkMatched : Bool) : Part :=
  match (p.slot i).state with
  | .check => p.resolve i checkMatched
  | .reverify => p.reverifyChecked i checkMatched
  | .empty | .settling | .identify | .derive | .challenge | .resolve | .inService | .rejected | .linkLost => p

/-- CHALLENGE_CHECK (R30): the CHALLENGE_CHECK at the head of the digest queue completes. -/
def execChallengeCheck (s : State) : Host.Outcome State Fault Refusal :=
  match s.part.digestHead with
  | some ⟨.slot i, .challengeCheck key nonce serial tally response⟩ =>
    s.after (s.part.popDigest.challengeChecked i (challengeMatches key nonce serial tally response))
  | some ⟨.slot _, .derive _ _ _⟩ | some ⟨.slot _, .receiptCheck _ _ _ _ _⟩
  | some ⟨.slot _, .tokenCheck _ _⟩ | some ⟨.gate, _⟩ | none => s.unchanged

/-- RECEIPT_CHECK (R128): the RECEIPT_CHECK at the head of the digest queue completes. -/
def execReceiptCheck (s : State) : Host.Outcome State Fault Refusal :=
  match s.part.digestHead with
  | some ⟨.slot i, .receiptCheck key nonce count tally receipt⟩ =>
    s.after (s.part.popDigest.receiptChecked i tally (receiptMatches key nonce count tally receipt))
  | some ⟨.slot _, .derive _ _ _⟩ | some ⟨.slot _, .challengeCheck _ _ _ _ _⟩
  | some ⟨.slot _, .tokenCheck _ _⟩ | some ⟨.gate, _⟩ | none => s.unchanged

/-- R161: a token check reports mismatch; the third failed attempt starts the lockout. -/
def Part.tokenRejected (p : Part) (cell : CellNo) : Part :=
  let failed := p.ps.failedAttempts + 1
  let ps := { p.ps with checkOutstanding := none }
  let ps := if failed < 3 then { ps with failedAttempts := failed }
    else { ps with failedAttempts := 0, lockoutRunning := true }
  Part.complete { p with ps := ps } cell .tokenRejected []

/-- R161: the result of a TOKEN_CHECK is handed to the power and supply block; a match asks for the counter write. -/
def Part.tokenChecked (p : Part) (checkMatched : Bool) : Part :=
  match p.ps.checkOutstanding with
  | some cell => if checkMatched then { p with hs := { p.hs with counterWaiting := true } } else p.tokenRejected cell
  | none => p

/-- TOKEN_CHECK (R161): the TOKEN_CHECK at the head of the digest queue completes. -/
def execTokenCheck (s : State) : Host.Outcome State Fault Refusal :=
  match s.part.digestHead with
  | some ⟨.gate, .tokenCheck counter token⟩ => s.after (s.part.popDigest.tokenChecked (tokenMatches counter token))
  | some ⟨.gate, .derive _ _ _⟩ | some ⟨.gate, .challengeCheck _ _ _ _ _⟩ | some ⟨.gate, .receiptCheck _ _ _ _ _⟩
  | some ⟨.slot _, _⟩ | none => s.unchanged

end Sys2Proof.Machine
end

