-- ==== Sys2Proof/Machine/LinkEvents.lean ====
section
/-! DEFINITION. The meanings of the bay link events and of the slot manager's timers (R5 to R13, R27, R43). -/

namespace Sys2Proof.Machine
open Sys2Proof

/-- The hold of a slot, if it has one. -/
def Part.hold (p : Part) (i : Slot) : Option Hold :=
  match p.link i with
  | .held h => some h
  | .none | .waitingBringUp _ _ | .waitingCommit => none

/-- LINK_OPERATION_START (R13): the engine drives the start of the command frame. -/
def execLinkOperationStart (b : Slot) (s : State) : Host.Outcome State Fault Refusal :=
  match s.part.hold b with
  | some h => if s.part.mayStart b h then s.after (s.part.startOperation b h) else s.unchanged
  | none => s.unchanged

/-- COMMAND_FRAME_END (R7): the command's last byte has been sent; the engine releases the line and waits. -/
def execCommandFrameEnd (b : Slot) (s : State) : Host.Outcome State Fault Refusal :=
  match s.part.hold b with
  | some h =>
    (match h.phase with
     | .sending _ => s.after (s.part.setLink b (.held { h with phase := .awaiting }))
     | .ready | .awaiting | .receiving | .payload _ _ | .outcomeHeld _ | .awaitingReceipt => s.unchanged)
  | none => s.unchanged

/-- LINK_GAP_TIMEOUT (R13): the operation ends with NO_RESPONSE without its start having been driven. -/
def execLinkGapTimeout (b : Slot) (lineLow : Bool) (s : State) : Host.Outcome State Fault Refusal :=
  match s.part.hold b with
  | some h => if h.phase = .ready then s.after (s.part.judged b h .noResponse lineLow) else s.unchanged
  | none => s.unchanged

/-- RESPONSE_TIMEOUT (R7): no start of a response within 3 ms: NO_RESPONSE. -/
def execResponseTimeout (b : Slot) (lineLow : Bool) (s : State) : Host.Outcome State Fault Refusal :=
  match s.part.hold b with
  | some h => if h.phase = .awaiting then s.after (s.part.judged b h .noResponse lineLow) else s.unchanged
  | none => s.unchanged

/-- RESPONSE_START_SEEN (R7): the start of a response is seen within 3 ms. No response can be received on a line that is off
(R3). -/
def execResponseStartSeen (b : Slot) (s : State) : Host.Outcome State Fault Refusal :=
  match s.part.hold b with
  | some h =>
    if h.phase = .awaiting && s.part.lineOn b then s.after (s.part.setLink b (.held { h with phase := .receiving }))
    else s.unchanged
  | none => s.unchanged

/-- STATUS_LENGTH_RECEIVED (R7): the filler byte, the status byte and the length byte have been received. A status the
command may not give, or a length that is not the one required, is judged MALFORMED at once. The line is on (R3). -/
def execStatusLengthReceived (b : Slot) (status length : Byte) (lineLow : Bool) (s : State) :
    Host.Outcome State Fault Refusal :=
  match s.part.hold b with
  | some h =>
    if h.phase = .receiving && s.part.lineOn b then
      (if h.op.headerOk status length then
        s.after (s.part.setLink b (.held { h with phase := .payload status length }))
       else s.after (s.part.judged b h .malformed lineLow))
    else s.unchanged
  | none => s.unchanged

/-- RESPONSE_BYTE_TIMEOUT (R7): a byte of a response does not begin within 100 µs: MALFORMED. -/
def execResponseByteTimeout (b : Slot) (lineLow : Bool) (s : State) : Host.Outcome State Fault Refusal :=
  match s.part.hold b with
  | some h =>
    (match h.phase with
     | .receiving | .payload _ _ => s.after (s.part.judged b h .malformed lineLow)
     | .ready | .sending _ | .awaiting | .outcomeHeld _ | .awaitingReceipt => s.unchanged)
  | none => s.unchanged

/-- IDENTIFY (R8, R9): a complete response to an IDENTIFY is judged. -/
def execIdentify (b : Slot) (payload : List Byte) (crc : Byte) (lineLow : Bool) (s : State) :
    Host.Outcome State Fault Refusal :=
  s.afterSome (s.part.responseReceived b .identify payload crc lineLow)

/-- CHALLENGE (R8, R10): a complete response to a CHALLENGE is judged. -/
def execChallenge (b : Slot) (payload : List Byte) (crc : Byte) (lineLow : Bool) (s : State) :
    Host.Outcome State Fault Refusal :=
  s.afterSome (s.part.responseReceived b (.challenge 0) payload crc lineLow)

/-- READ_TALLY (R8, R11): a complete response to a READ_TALLY is judged. -/
def execReadTally (b : Slot) (payload : List Byte) (crc : Byte) (lineLow : Bool) (s : State) :
    Host.Outcome State Fault Refusal :=
  s.afterSome (s.part.responseReceived b .readTally payload crc lineLow)

/-- ADVANCE_TALLY (R8, R12): a complete response to an ADVANCE_TALLY is judged. -/
def execAdvanceTally (b : Slot) (payload : List Byte) (crc : Byte) (lineLow : Bool) (s : State) :
    Host.Outcome State Fault Refusal :=
  s.afterSome (s.part.responseReceived b (.advance 0) payload crc lineLow)

/-- LINE_FOUND_HIGH (R5): the line is found high, and the gap is counted from now. -/
def execLineFoundHigh (b : Slot) (s : State) : Host.Outcome State Fault Refusal :=
  if (s.part.bay b).gap = .heldLow then s.after (s.part.updBay b fun r => { r with gap := .counting })
  else s.unchanged

/-- The operation that a slot's state is trying (R27, R39). -/
def SlotRow.triedOperation (r : SlotRow) : Option LinkOp :=
  match r.state with
  | .identify => some .identify
  | .challenge => some (.challenge (r.nonce.getD 0))
  | .reverify =>
    (match r.stage with
     | .challenge => some (.challenge (r.candidate.getD 0))
     | .readTally => some .readTally
     | .none | .check => none)
  | .empty | .settling | .derive | .check | .resolve | .inService | .rejected | .linkLost => none

/-- The slot manager's timers do not run in a reset sequence (R45). -/
def Part.slotTimerRuns (p : Part) (i : Slot) (t : SlotTimer) : Bool := (p.slot i).timer == t && !p.busy

/-- RETRY_TIMER_EXPIRY (R27): the slot is joined again for the same operation. -/
def execRetryTimerExpiry (i : Slot) (s : State) : Host.Outcome State Fault Refusal :=
  match s.part.slotTimerRuns i .retry, (s.part.slot i).triedOperation with
  | true, some op => s.after ((s.part.updSlot i fun r => { r with timer := .stopped }).joinBringUp i op)
  | true, none => s.unchanged
  | false, _ => s.unchanged

/-- R43: the operation that probes a link-lost slot. -/
def SlotRow.probeOperation (r : SlotRow) : LinkOp :=
  match r.reverifyOpen, r.candidate with
  | true, some nonce => .challenge nonce
  | true, none => .readTally
  | false, _ => .readTally

/-- PROBE_TIMER_EXPIRY (R43): the slot is joined for a probe. -/
def execProbeTimerExpiry (i : Slot) (s : State) : Host.Outcome State Fault Refusal :=
  if s.part.slotTimerRuns i .probe && (s.part.slot i).state = .linkLost then
    s.after ((s.part.updSlot i fun r => { r with timer := .stopped }).joinBringUp i (s.part.slot i).probeOperation)
  else s.unchanged

end Sys2Proof.Machine
end

