-- ==== Sys2Proof/WellFormed.lean ====
section
/-! DEFINITION. Which terms of `Instr` name an event that the part's pins and bay lines can show. -/

namespace Sys2Proof

/-- The payload lengths that a response to a command can have past the length check of R7: that of ACCEPTED (table
"Commands at a glance") or 0, for REFUSED and TALLY_FULL. -/
def responseLengthOk (accepted : Nat) (payload : List Byte) : Bool :=
  payload.length == accepted || payload.length == 0

/-- The word address lies below the four registers (R137: ID stands at byte address 0xFF0). -/
def boardWordOk (word : BitVec 11) : Bool := 2 * word.toNat < 0xFF0

/-- A command is well formed when its response payload has a length that reception lets through, and when a board
write does not address a register. -/
def Instr.wellFormed : Instr → Bool
  | .identify _ payload _ _ => responseLengthOk 15 payload
  | .challenge _ payload _ _ => responseLengthOk 8 payload
  | .readTally _ payload _ _ => responseLengthOk 2 payload
  | .advanceTally _ payload _ _ => responseLengthOk 10 payload
  | .boardWrite word _ _ => boardWordOk word
  | _ => true

end Sys2Proof
end

