-- ==== Sys2Proof/Machine/PortWrites.lean ====
section
/-! DEFINITION. The meanings of the engine's writes: to the board and to the four registers (R79 to R81, R137 to R141,
R148, R149). -/

namespace Sys2Proof.Machine
open Sys2Proof

/-! ## Writes to the board -/

/-- R138: a write is dropped and counted, and PORT is raised. -/
def Part.dropCounted (p : Part) : Part :=
  Part.raise { p with port := { p.port with droppedWrites := satAdd max16 p.port.droppedWrites 1 } } .port

/-- R81: a write into a READY bank is dropped and counted, counted as an overrun, and TALLY is raised. -/
def Part.dropOverrun (p : Part) : Part :=
  let p := p.dropCounted
  Part.raise { p with port := { p.port with bankOverruns := satAdd max16 p.port.bankOverruns 1 } } .tally

/-- R137: the two bytes of a write land. -/
def Part.landWord (p : Part) (address : Nat) (first second : Byte) : Part :=
  (p.writeByte (address + 1) second).writeByte address first

/-- R141, R171: a cell arrives: the other byte lands, the cell becomes POSTED and joins the tail of the posted list; the
part wakes when requests are in the wake set. -/
def Part.cellArrives (p : Part) (c : CellNo) (kind : Byte) : Part :=
  let p := p.landWord (cellBase c) CellState.posted.code kind
  let p := { p with rq := { p.rq with posted := p.rq.posted ++ [c] } }
  if p.asleep && p.ps.wakeRequests then p.wake else p

/-- R141: a posted cell is withdrawn: the other byte lands, the cell becomes FREE and leaves the posted list. -/
def Part.cellWithdrawn (p : Part) (c : CellNo) (kind : Byte) : Part :=
  let p := p.landWord (cellBase c) CellState.free.code kind
  { p with rq := { p.rq with posted := p.rq.posted.erase c } }

/-- R140: a write that carries the state byte of a cell, judged by the cell's state. -/
def Part.writeCellState (p : Part) (c : CellNo) (code kind : Byte) : Part :=
  match p.cellState c with
  | .taken => p.dropCounted
  | .posted =>
    if code = CellState.free.code then p.cellWithdrawn c kind
    else if code = CellState.posted.code then p.landWord (cellBase c) code kind
    else p.dropCounted
  | .free | .done =>
    if code = CellState.free.code then p.landWord (cellBase c) code kind
    else if code = CellState.posted.code then p.cellArrives c kind
    else p.dropCounted

/-- R79, R80: a write of a bank's state byte lands with the flags byte beside it, as written. -/
def Part.landBankState (p : Part) (b : BankNo) (s : BankState) (flags : Byte) : Part :=
  p.landWord (bankBase b) s.code flags

/-- R80, R171: a bank arrives: the other byte lands, the bank becomes READY and joins the tail of the charge list; the
part wakes when bands are in the wake set. -/
def Part.bankArrives (p : Part) (b : BankNo) (flags : Byte) : Part :=
  let p := p.landBankState b .ready flags
  let p := { p with au := { p.au with chargeList := p.au.chargeList ++ [.bank b] } }
  if p.asleep && p.ps.wakeBands then p.wake else p

/-- R79: a write that carries the state byte of a bank that is not READY. -/
def Part.writeBankState (p : Part) (b : BankNo) (code flags : Byte) : Part :=
  if code = BankState.ready.code then p.bankArrives b flags
  else if code = BankState.opened.code then p.landBankState b .opened flags
  else p.dropCounted

/-- R79, R81: a write into a bank; `offset` is the even offset of its first byte. -/
def Part.writeBank (p : Part) (b : BankNo) (offset : Nat) (first second : Byte) : Part :=
  match p.bankState b with
  | .ready => p.dropOverrun
  | .opened | .accounted =>
    if offset = 0 then p.writeBankState b first second else p.landWord (bankBase b + offset) first second

/-- R138, R140: a write into a cell. -/
def Part.writeCell (p : Part) (c : CellNo) (offset : Nat) (first second : Byte) : Part :=
  if offset = 0 then p.writeCellState c first second
  else if p.cellState c = .taken then p.dropCounted
  else p.landWord (cellBase c + offset) first second

/-- R137 to R139: an engine write of two bytes at the even address `address` below the registers. -/
def Part.engineWrite (p : Part) (address : Nat) (first second : Byte) : Part :=
  if h : address < 0x600 then p.writeCell ⟨address / 64, by omega⟩ (address % 64) first second
  else if h : address < 0xA00 then p.writeBank ⟨(address - 0x600) / 256, by omega⟩ ((address - 0x600) % 256) first second
  else if address < 0xF00 then p.dropCounted
  else p

/-- An engine write to the board. While BUSY is shown it is dropped without being counted (R139). -/
def State.engineWrite (s : State) (address : Nat) (first second : Byte) : Host.Outcome State Fault Refusal :=
  if s.part.busy then s.unchanged else s.after (s.part.engineWrite address first second)

/-- CELL_ARRIVAL (R141): POSTED is written into a cell. -/
def execCellArrival (c : CellNo) (kind : Byte) (s : State) : Host.Outcome State Fault Refusal :=
  s.engineWrite (cellBase c) CellState.posted.code kind

/-- CELL_WITHDRAWAL (R141): FREE is written into a cell, to withdraw it. -/
def execCellWithdrawal (c : CellNo) (kind : Byte) (s : State) : Host.Outcome State Fault Refusal :=
  s.engineWrite (cellBase c) CellState.free.code kind

/-- CELL_GIVE_BACK (R140): FREE is written into a cell, to give it back. -/
def execCellGiveBack (c : CellNo) (kind : Byte) (s : State) : Host.Outcome State Fault Refusal :=
  s.engineWrite (cellBase c) CellState.free.code kind

/-- BANK_ARRIVAL (R80): READY is written into a bank. -/
def execBankArrival (b : BankNo) (flags : Byte) (s : State) : Host.Outcome State Fault Refusal :=
  s.engineWrite (bankBase b) BankState.ready.code flags

/-- BANK_REOPEN (R79): OPEN is written into a bank. -/
def execBankReopen (b : BankNo) (flags : Byte) (s : State) : Host.Outcome State Fault Refusal :=
  s.engineWrite (bankBase b) BankState.opened.code flags

/-- BOARD_WRITE (R137): any other write to the board. -/
def execBoardWrite (word : BitVec 11) (first second : Byte) (s : State) : Host.Outcome State Fault Refusal :=
  if boardWordOk word then s.engineWrite (2 * word.toNat) first second else s.unchanged

/-! ## Writes to the registers -/

/-- NOTICE_CLEAR (R148): each class whose bit is written 1 is cleared. While BUSY is shown the write is dropped (R139). -/
def execNoticeClear (value : Half) (s : State) : Host.Outcome State Fault Refusal :=
  if s.part.busy then s.unchanged
  else
    s.after { s.part with nu := { s.part.nu with pending := s.part.nu.pending &&& ~~~(value.setWidth 8) } }

/-- CONTROL_LOWER_HALF_WRITE (R149): the lower half is held. -/
def execControlLowerHalfWrite (value : Half) (s : State) : Host.Outcome State Fault Refusal :=
  if s.part.busy then s.unchanged
  else s.after { s.part with port := { s.part.port with heldLower := some value } }

/-- The byte-order values of the four bytes of CONTROL agree, and on this order (R149 step 1). -/
def byteOrderWritten (v : BitVec 32) : Option Bool :=
  if v.getLsbD 7 = v.getLsbD 15 ∧ v.getLsbD 15 = v.getLsbD 23 ∧ v.getLsbD 23 = v.getLsbD 31 then some (v.getLsbD 7)
  else none

/-- Some cell is POSTED or TAKEN, or some bank READY (R149 step 1). -/
def Part.workOutstanding (p : Part) : Bool :=
  (allCells.any fun c => p.cellState c == .posted || p.cellState c == .taken)
    || allBanks.any fun b => p.bankState b == .ready

/-- R149 step 1: the byte order, with the rewriting of the records when it changes. -/
def Part.writeByteOrder (p : Part) (v : BitVec 32) : Part :=
  match byteOrderWritten v with
  | some order =>
    if order = p.port.bigEndian || p.workOutstanding then p
    else Part.rewriteRecords { p with port := { p.port with bigEndian := order } } p.port.bigEndian
  | none => p

/-- R149 step 2: mask level and polarity. -/
def Part.writeMaskPolarity (p : Part) (v : BitVec 32) : Part :=
  { p with port := { p.port with maskLevel := v.extractLsb' 1 3, activeHigh := v.getLsbD 4 } }

/-- R149 step 3: RESTART. -/
def Part.writeRestart (p : Part) (v : BitVec 32) : Part := if v.getLsbD 0 then p.beginReset .restart true else p

/-- The whole value that a write of CONTROL's upper half gives: with the held lower half, or with CONTROL's current lower
half when none is held. -/
def Part.wholeControl (p : Part) (upper : Half) : BitVec 32 :=
  upper ++ (match p.port.heldLower with
    | some lower => lower
    | none => p.controlValue.setWidth 16)

/-- R149: a whole write of CONTROL. -/
def Part.writeControl (p : Part) (upper : Half) : Part :=
  let v := p.wholeControl upper
  let p := { p with port := { p.port with heldLower := none } }
  ((p.writeByteOrder v).writeMaskPolarity v).writeRestart v

/-- R139, R149: an engine write to CONTROL's upper half. -/
def State.controlUpperWrite (s : State) (upper : Half) : Host.Outcome State Fault Refusal :=
  if s.part.busy then s.unchanged else s.after (s.part.writeControl upper)

/-- CONTROL_BYTE_ORDER (R149): a whole write of CONTROL. -/
def execControlByteOrder (upper : Half) (s : State) : Host.Outcome State Fault Refusal := s.controlUpperWrite upper

/-- CONTROL_MASK_POLARITY (R149): a whole write of CONTROL. -/
def execControlMaskPolarity (upper : Half) (s : State) : Host.Outcome State Fault Refusal := s.controlUpperWrite upper

/-- RESTART (R149, R173): a whole write of CONTROL; the restart begins when RESTART is written 1. -/
def execRestart (upper : Half) (s : State) : Host.Outcome State Fault Refusal := s.controlUpperWrite upper

/-- REGISTER_WRITE_OTHER (R148): a write to ID, to STATUS or to NOTICE's upper half has no effect. -/
def execRegisterWriteOther (half : InertHalf) (_value : Half) (s : State) : Host.Outcome State Fault Refusal :=
  match half with
  | .idLower | .idUpper | .noticeUpper | .statusLower | .statusUpper => s.unchanged

end Sys2Proof.Machine
end

