-- ==== Sys2Proof/Machine/PowerEvents.lean ====
section
/-! DEFINITION. The meanings of the events of the power and supply block: the wind-down's end, the supply, the reset
sequences, the service timers (R159, R162, R170 to R175). -/

namespace Sys2Proof.Machine
open Sys2Proof

/-- R170, R171: the wind-down cell completes OK and the part enters SLEEP. -/
def Part.completeWindDown (p : Part) (c : CellNo) : Part :=
  ((Part.complete { p with ps := { p.ps with windDownCell := none } } c .ok []).windDownLeaves).enterSleep

/-- WIND_DOWN_COMPLETE (R170). -/
def execWindDownComplete (s : State) : Host.Outcome State Fault Refusal :=
  match s.part.windDownDone, s.part.ps.windDownCell with
  | true, some c => s.after (s.part.completeWindDown c)
  | true, none | false, _ => s.unchanged

/-- The comparator changes state (R172). -/
def Part.setComparator (p : Part) (low : Bool) : Part := { p with ps := { p.ps with comparatorLow := low } }

/-- SUPPLY_LOW (R172): the comparator goes from GOOD to LOW; outside the fold phase of a sequence the change is not
reported. -/
def execSupplyLow (s : State) : Host.Outcome State Fault Refusal :=
  if s.part.ps.comparatorLow then s.unchanged
  else
    let p := s.part.setComparator true
    s.after (if p.supplyReported then p.reportSupplyLow else p)

/-- The power-on sequence waits for the first GOOD (R173). -/
def Part.waitsForGood (p : Part) : Bool :=
  match p.ps.sequence with
  | some q => q.phase == .waitGood
  | none => false

/-- R172, R173: the first GOOD starts the power-on sequence. -/
def Part.startPowerOn (p : Part) : Part :=
  { p with ps := { p.ps with comparatorLow := false, supplyLow := false, sequence := some ⟨.powerOn, .awaitClear⟩ } }

/-- SUPPLY_GOOD (R172): the comparator goes from LOW to GOOD. The first such change at power-on is POWER_ON. -/
def execSupplyGood (s : State) : Host.Outcome State Fault Refusal :=
  if s.part.ps.comparatorLow then
    if s.part.waitsForGood then s.after s.part.startPowerOn
    else
      let p := s.part.setComparator false
      s.after (if p.supplyReported then p.reportSupplyGood else p)
  else s.unchanged

/-- POWER_ON (R172, R173): the first GOOD at power-on. -/
def execPowerOn (s : State) : Host.Outcome State Fault Refusal :=
  if s.part.waitsForGood && s.part.ps.comparatorLow then s.after s.part.startPowerOn else s.unchanged

/-- RESET_ASSERTED (R173): the reset input is asserted. -/
def execResetAsserted (s : State) : Host.Outcome State Fault Refusal :=
  if s.part.ps.resetAsserted then s.unchanged
  else s.after (Part.resetLine { s.part with ps := { s.part.ps with resetAsserted := true } })

/-- RESET_RELEASED (R173): the reset input is released. -/
def execResetReleased (s : State) : Host.Outcome State Fault Refusal :=
  if s.part.ps.resetAsserted then s.after { s.part with ps := { s.part.ps with resetAsserted := false } }
  else s.unchanged

/-- R174: the fold phase ends; the sequence goes on to its clearing point. -/
def Part.endFoldPhase (p : Part) (kind : SequenceKind) : Part := p.setSequence kind .awaitClear

/-- FOLD_PHASE_END (R174): the fold phase has drained. -/
def execFoldPhaseEnd (s : State) : Host.Outcome State Fault Refusal :=
  match s.part.ps.sequence with
  | some ⟨kind, .fold⟩ => if s.part.foldDrained then s.after (s.part.endFoldPhase kind) else s.unchanged
  | some ⟨_, .waitGood⟩ | some ⟨_, .awaitClear⟩ | some ⟨_, .load⟩ | none => s.unchanged

/-- FOLD_PHASE_TIME_LIMIT (R174): 120 ms have passed since the sequence began. -/
def execFoldPhaseTimeLimit (s : State) : Host.Outcome State Fault Refusal :=
  match s.part.ps.sequence with
  | some ⟨kind, .fold⟩ => s.after (s.part.endFoldPhase kind)
  | some ⟨_, .waitGood⟩ | some ⟨_, .awaitClear⟩ | some ⟨_, .load⟩ | none => s.unchanged

/-- CLEARING_POINT (R175). -/
def execClearingPoint (s : State) : Host.Outcome State Fault Refusal :=
  match s.part.mayClear, s.part.ps.sequence with
  | true, some q => s.after (s.part.clearingPoint q.kind)
  | true, none | false, _ => s.unchanged

/-- The load after the clearing point is under way (R175). -/
def Part.loading (p : Part) : Bool :=
  match p.ps.sequence with
  | some q => q.phase == .load
  | none => false

/-- LOAD_COMPLETE (R175): the load is made, its records are written, and BUSY clears. -/
def execLoadComplete (s : State) : Host.Outcome State Fault Refusal :=
  if s.part.loading then
    let loaded := s.part.loadStored
    .next { s with part := Part.finish loaded loaded.endSequence }
  else s.unchanged

/-- LOCKOUT_TIMER_EXPIRY (R159): the lockout timer reaches 60 s and stops. -/
def execLockoutTimerExpiry (s : State) : Host.Outcome State Fault Refusal :=
  if s.part.ps.lockoutRunning then s.after { s.part with ps := { s.part.ps with lockoutRunning := false } }
  else s.unchanged

/-- IDLE_TIMER_EXPIRY (R162): the idle timer reaches 600 s and service mode ends. -/
def execIdleTimerExpiry (s : State) : Host.Outcome State Fault Refusal :=
  if s.part.ps.idleRunning then s.after { s.part with ps := s.part.ps.endService } else s.unchanged

/-- POWER_LOSS (R172): the supply falls below the level at which the part can run. -/
def execPowerLoss (s : State) : Host.Outcome State Fault Refusal := .next { s with part := s.part.powerLost }

end Sys2Proof.Machine
end

