-- ==== Sys2Proof/Machine/Requests.lean ====
section
/-! DEFINITION. The taking of a request cell (R142, R143, R163) and the meanings of the request kinds that the accounting
unit, the history store, the notice unit and the bay monitor own (R58, R59, R77, R92, R94, R114 to R116, R152, R157). -/

namespace Sys2Proof.Machine
open Sys2Proof

/-! ## Taking a cell (R142) -/

/-- R142: taking is open: not in SLEEP, and not in a reset sequence. -/
def Part.takingOpen (p : Part) : Bool := !p.asleep && !p.busy

/-- The cell at the head of the posted list, when taking is open and its kind is the one given (`none`: no kind of the
summary table). -/
def Part.nextCell (p : Part) (k : Option Kind) : Option CellNo :=
  match p.rq.posted with
  | c :: _ => if p.takingOpen && kindOf (p.kindByte c) == k then some c else none
  | [] => none

/-- R142 step 1: the head of the posted list is taken. -/
def Part.takeCell (p : Part) (c : CellNo) : Part :=
  Part.setCellState { p with rq := { p.rq with posted := p.rq.posted.drop 1 } } c .taken

/-- R142 steps 4 and 5, R163: a taken request of a known kind is refused NEEDS_SERVICE or handed to its owner. -/
def Part.handOver (p : Part) (k : Kind) (c : CellNo) (owner : Part → Part) : Part :=
  if k.serviceOnly then
    if p.ps.serviceMode then owner { p with ps := { p.ps with idleRunning := true } }
    else p.complete c .needsService []
  else owner p

/-- R142: the take of a cell of kind `k`, with the handling that follows it at once. -/
def State.request (s : State) (k : Kind) (owner : CellNo → Part → Part) : Host.Outcome State Fault Refusal :=
  match s.part.nextCell (some k) with
  | some c => s.after ((s.part.takeCell c).handOver k c (owner c))
  | none => s.unchanged

/-- UNKNOWN_KIND (R142 step 3): a cell whose kind is not known is taken. -/
def execUnknownKind (s : State) : Host.Outcome State Fault Refusal :=
  match s.part.nextCell none with
  | some c => s.after ((s.part.takeCell c).complete c .unknownKind [])
  | none => s.unchanged

/-! ## Thresholds and remaining volume (R114, R115) -/

/-- R114, R115: the answer to the target of a SET_THRESHOLDS or a RECONCILE: a slot in the in-service group, or the
result that refuses it. -/
def Part.volumeTarget (p : Part) (c : CellNo) : Result ⊕ Slot :=
  match p.target c with
  | none => .inl .badArgument
  | some i =>
    match (p.slot i).state with
    | .empty | .settling | .rejected => .inl .noCartridge
    | .identify | .derive | .challenge | .check | .resolve => .inl .busy
    | .inService | .reverify | .linkLost => .inr i

/-- R114: a pair clamped against a rated volume. -/
def Thresholds.clamp (t : Thresholds) (rated : Nat) : Thresholds :=
  let stop := min t.stop rated
  ⟨min (max t.warn stop) rated, stop⟩

/-- R114: a SET_THRESHOLDS with the accounting unit. -/
def Part.doSetThresholds (c : CellNo) (p : Part) : Part :=
  match p.volumeTarget c with
  | .inl r => p.complete c r []
  | .inr i =>
    let given : Thresholds := ⟨p.argument c 0 4, p.argument c 4 4⟩
    let pair := given.clamp (ratedVolume (p.slot i).volumeClass)
    (p.placeSetting (.thresholds i pair)).complete c (okOrClamped (pair != given)) []

/-- SET_THRESHOLDS (R114). -/
def execSetThresholds (s : State) : Host.Outcome State Fault Refusal := s.request .setThresholds Part.doSetThresholds

/-- R115: a slot's volumes after a RECONCILE. -/
def Volumes.reconcile (v : Volumes) (tracked : Bool) (remaining : Nat) : Volumes :=
  { v with remaining := remaining, exhausted := remaining == 0,
           low := tracked && decide (remaining ≤ v.thresholds.warn),
           spent := tracked && decide (remaining ≤ v.thresholds.stop) }

/-- R115: a RECONCILE with the accounting unit. -/
def Part.doReconcile (c : CellNo) (p : Part) : Part :=
  match p.volumeTarget c with
  | .inl r => p.complete c r []
  | .inr i =>
    let given := p.argument c 0 4
    let rated := ratedVolume (p.slot i).volumeClass
    let p := p.updVolumes i fun v => v.reconcile ((p.slot i).hasClass .tracked) (min given rated)
    ((p.recordVolumes i).reselectFor i).complete c (okOrClamped (decide (rated < given))) []

/-- RECONCILE (R115). -/
def execReconcile (s : State) : Host.Outcome State Fault Refusal := s.request .reconcile Part.doReconcile

/-! ## Purges (R92) -/

/-- R92: the most a purge charges to one channel, 100 mL. -/
def maxPurge : Nat := 100000000

/-- R92: the volume that a PURGE gives a channel; it counts only when the channel is in the mask. -/
def Part.purgeVolume (p : Part) (c : CellNo) (mask : Half) (n : Channel) : Nat :=
  if mask.getLsbD n.val then p.argument c (4 + 4 * n.val) 4 else 0

/-- R92: a PURGE with the accounting unit. -/
def Part.doPurge (c : CellNo) (p : Part) : Part :=
  let mask : Half := BitVec.ofNat 16 (p.argument c 0 2)
  if 4096 ≤ mask.toNat then p.complete c .badArgument []
  else if mask = 0 then p.complete c .ok []
  else
    let clamped := allSlots.any fun n => decide (maxPurge < p.purgeVolume c mask n)
    let item := ChargeItem.purge c mask (Vector.ofFn fun n => min maxPurge (p.purgeVolume c mask n)) clamped
    Part.park { p with au := { p.au with chargeList := p.au.chargeList ++ [item] } } c .purge

/-- PURGE (R92). -/
def execPurge (s : State) : Host.Outcome State Fault Refusal := s.request .purge Part.doPurge

/-! ## Settings (R94, R116, R166) -/

/-- R166: a request joins the settings write queue and parks. -/
def Part.queueSettings (p : Part) (r : SettingsRequest) : Part :=
  Part.park { p with hs := { p.hs with settingsQueue := p.hs.settingsQueue ++ [r] } } r.cell .settings

/-- R94: the calibration that a LOAD_CALIBRATION gives, before clamping. -/
def Part.givenCalibration (p : Part) (c : CellNo) : Calibration where
  small := p.argument c 0 2
  medium := p.argument c 2 2
  large := p.argument c 4 2
  keys := Vector.ofFn fun n => p.argument c (6 + 2 * n.val) 2

/-- R94: a calibration clamped to its ranges. -/
def Calibration.clamp (k : Calibration) : Calibration where
  small := min 1023 k.small
  medium := min 1023 k.medium
  large := min 1023 k.large
  keys := k.keys.map (clampTo 512 2047)

/-- R94: a LOAD_CALIBRATION with the accounting unit. -/
def Part.doLoadCalibration (c : CellNo) (p : Part) : Part :=
  match p.target c with
  | none => p.complete c .badArgument []
  | some n =>
    let given := p.givenCalibration c
    p.queueSettings ⟨c, n, .calibration given.clamp, given.clamp != given⟩

/-- LOAD_CALIBRATION (R94). -/
def execLoadCalibration (s : State) : Host.Outcome State Fault Refusal := s.request .loadCalibration Part.doLoadCalibration

/-- A slot field of a SET_FEED: a slot, none for 255, or not a slot. -/
def feedSlot (b : Byte) : Option (Option Slot) := if b = 255 then some none else (slotOf b).map some

/-- R116: the feed that a SET_FEED gives, when it passes the check made at once. -/
def checkedFeed (ink primary secondary : Byte) : Option Feed :=
  match feedSlot primary, feedSlot secondary with
  | some none, some none => if ink = 255 then none else some ⟨ink, none, none⟩
  | some none, some (some _) => none
  | some (some a), some b => if ink = 255 ∨ b = some a then none else some ⟨ink, some a, b⟩
  | none, _ | some _, none => none

/-- R116: a SET_FEED with the accounting unit. -/
def Part.doSetFeed (c : CellNo) (p : Part) : Part :=
  match p.target c, checkedFeed (p.argumentByte c 0) (p.argumentByte c 1) (p.argumentByte c 2) with
  | some n, some f => p.queueSettings ⟨c, n, .feed f, false⟩
  | none, _ | some _, none => p.complete c .badArgument []

/-- SET_FEED (R116). -/
def execSetFeed (s : State) : Host.Outcome State Fault Refusal := s.request .setFeed Part.doSetFeed

/-! ## The refill margin (R77) -/

/-- R77: every slot in the in-service group is tested against the new margin. The slots past it are escalated in ascending
slot order: R77 gives no order, which shows in the save queue order of their entries (DESIGN CHOICE, log 57). -/
def Part.testMargins (p : Part) : Part :=
  p.forSlots fun q i => if (q.slot i).state.inServiceGroup then q.testMargin i else q

/-- R77: a SET_REFILL_MARGIN with the accounting unit. -/
def Part.doSetRefillMargin (c : CellNo) (p : Part) : Part :=
  let given := p.argument c 0 2
  let margin := clampTo 1 500 given
  let p := Part.complete { p with au := { p.au with margin := margin } } c (okOrClamped (margin != given)) []
  p.testMargins

/-- SET_REFILL_MARGIN (R77). -/
def execSetRefillMargin (s : State) : Host.Outcome State Fault Refusal := s.request .setRefillMargin Part.doSetRefillMargin

/-! ## The history (R58, R59) -/

/-- R58: the place that a READ_HISTORY selects: `none` when it is refused BAD_ARGUMENT, `some none` when nothing is
selected. -/
def Part.historyPlace (p : Part) (c : CellNo) : Option (Option (Fin 64)) :=
  if p.optionByte c = 0 then
    (if h : (p.argumentByte c 0).toNat < 64 then some (some ⟨(p.argumentByte c 0).toNat, h⟩) else none)
  else if p.optionByte c = 1 then some (p.findPlace (BitVec.ofNat 64 (p.argument c 0 8)))
  else if p.optionByte c = 2 then (p.target c).map p.linkedPlace
  else none

/-- 12.5: the flags of a history entry as READ_HISTORY returns them. -/
def Part.historyFlags (p : Part) (e : Entry) (dirty : Bool) : Nat :=
  boolBit e.exhausted 0 + boolBit e.tallyFull 1 + boolBit dirty 2 + boolBit (p.serialHeld e.serial) 3

/-- 12.5: a history entry as READ_HISTORY returns it. -/
def Part.historyFields (p : Part) (k : Fin 64) (e : Entry) : List Field :=
  [⟨0, 1, 1⟩, ⟨1, 1, k.val⟩, ⟨2, 1, p.historyFlags e (p.place k).dirty⟩, ⟨3, 1, e.verdict.code⟩, ⟨4, 8, e.serial.toNat⟩,
   ⟨12, 1, e.ink.toNat⟩, ⟨13, 1, e.volumeClass.toNat⟩, ⟨14, 2, e.tally⟩, ⟨16, 4, e.remaining⟩, ⟨20, 4, e.carried⟩,
   ⟨24, 4, e.postEmpty⟩, ⟨28, 1, e.inDoubt⟩, ⟨29, 1, e.lastSlot.val⟩, ⟨30, 2, 0⟩, ⟨32, 4, e.sighting⟩]

/-- R58, 12.5: the result data of a READ_HISTORY; with the not-found mark bytes 0 to 35 are 0. -/
def Part.historyData (p : Part) (place : Option (Fin 64)) : List Field :=
  match place with
  | some k =>
    (match (p.place k).entry with
     | some e => p.historyFields k e
     | none => [⟨0, 36, 0⟩])
  | none => [⟨0, 36, 0⟩]

/-- R58: a READ_HISTORY with the history store. -/
def Part.doReadHistory (c : CellNo) (p : Part) : Part :=
  match p.historyPlace c with
  | some place => p.complete c .ok (p.historyData place)
  | none => p.complete c .badArgument []

/-- READ_HISTORY (R58). -/
def execReadHistory (s : State) : Host.Outcome State Fault Refusal := s.request .readHistory Part.doReadHistory

/-- R59: an entry is removed from the RAM table and its place dirtied. -/
def Part.forgetPlace (p : Part) (k : Fin 64) : Part := (p.updPlace k fun r => { r with entry := none }).dirtyPlace k

/-- R59: a FORGET_HISTORY with the history store. -/
def Part.doForgetHistory (c : CellNo) (p : Part) : Part :=
  match p.findPlace (BitVec.ofNat 64 (p.argument c 0 8)) with
  | none => p.complete c .ok [⟨0, 1, 0⟩]
  | some k => if p.placeHeld k then p.complete c .busy [] else (p.forgetPlace k).park c (.forget k false)

/-- FORGET_HISTORY (R59). -/
def execForgetHistory (s : State) : Host.Outcome State Fault Refusal := s.request .forgetHistory Part.doForgetHistory

/-! ## Notice levels and brightness (R152, R157) -/

/-- R152: the level that a byte of a SET_NOTICE_LEVELS gives a class. -/
def levelOf (b : Byte) (now : Fin 8) : Fin 8 := if b = 255 then now else if h : b.toNat < 8 then ⟨b.toNat, h⟩ else 7

/-- R152: the byte is clamped. -/
def levelClamped (b : Byte) : Bool := decide (8 ≤ b.toNat) && b != 255

/-- R152: the eight levels as result data. -/
def levelFields (levels : Vector (Fin 8) 8) : List Field := (List.finRange 8).map fun n => ⟨n.val, 1, (levels[n]).val⟩

/-- R152: a SET_NOTICE_LEVELS with the notice unit. -/
def Part.doSetNoticeLevels (c : CellNo) (p : Part) : Part :=
  let levels : Vector (Fin 8) 8 := Vector.ofFn fun n => levelOf (p.argumentByte c n.val) p.nu.levels[n]
  let clamped := (List.finRange 8).any fun n => levelClamped (p.argumentByte c n.val)
  Part.complete { p with nu := { p.nu with levels := levels } } c (okOrClamped clamped) (levelFields levels)

/-- SET_NOTICE_LEVELS (R152). -/
def execSetNoticeLevels (s : State) : Host.Outcome State Fault Refusal := s.request .setNoticeLevels Part.doSetNoticeLevels

/-- R157: a SET_LED_BRIGHTNESS with the bay monitor. -/
def Part.doSetLedBrightness (c : CellNo) (p : Part) : Part :=
  let given := p.argument c 0 2
  let setting := min 255 given
  Part.complete { p with brightness := BitVec.ofNat 8 setting } c (okOrClamped (decide (255 < given))) [⟨0, 2, setting⟩]

/-- SET_LED_BRIGHTNESS (R157). -/
def execSetLedBrightness (s : State) : Host.Outcome State Fault Refusal :=
  s.request .setLedBrightness Part.doSetLedBrightness

end Sys2Proof.Machine
end

