-- ==== Sys2Proof/Machine/PowerRequests.lean ====
section
/-! DEFINITION. The meanings of the request kinds that the power and supply block owns: SET_POWER, ENTER_SERVICE,
LEAVE_SERVICE (R160, R162, R169). -/

namespace Sys2Proof.Machine
open Sys2Proof

/-! ## SET_POWER (R169) -/

/-- R169: RUN or DOZE is requested: a wind-down in progress is superseded and leaves its slots. -/
def Part.powerTo (p : Part) (c : CellNo) (state : PowerState) : Part :=
  let p := p.supersede.windDownLeaves
  let p := Part.complete { p with ps := { p.ps with power := state } } c .ok []
  p.testAll

/-- R169: the wake set and the wind-down cell are held, and the cell parks. -/
def Part.holdWindDown (p : Part) (c : CellNo) (wake : Byte) : Part :=
  Part.park { p with ps := { p.ps with wakeRequests := wake.getLsbD 0, wakeBands := wake.getLsbD 1,
                                       windDownCell := some c } } c .windDown

/-- R169: SLEEP is requested. -/
def Part.requestSleep (p : Part) (c : CellNo) (wake : Byte) : Part :=
  if 4 ≤ wake.toNat then p.complete c .badArgument []
  else if p.ps.supplyLow then p.complete c .notNow []
  else if p.ps.windDownCell.isSome then p.supersede.holdWindDown c wake
  else (p.holdWindDown c wake).beginWindDown

/-- R169: a SET_POWER with the power and supply block. -/
def Part.doSetPower (c : CellNo) (p : Part) : Part :=
  let requested := p.argumentByte c 0
  if requested = 0 then p.powerTo c .run
  else if requested = 1 then p.powerTo c .doze
  else if requested = 2 then p.requestSleep c (p.argumentByte c 1)
  else p.complete c .badArgument []

/-- SET_POWER (R169). -/
def execSetPower (s : State) : Host.Outcome State Fault Refusal := s.request .setPower Part.doSetPower

/-! ## Service mode (R160, R162) -/

/-- R160: the request parks, its cell becomes the check outstanding, and the gate queues a TOKEN_CHECK. -/
def Part.checkToken (p : Part) (c : CellNo) (token : Quad) : Part :=
  let p := Part.park { p with ps := { p.ps with checkOutstanding := some c } } c .enterService
  p.queueDigest .gate (.tokenCheck p.hs.counter token)

/-- R160: an ENTER_SERVICE with the power and supply block. -/
def Part.doEnterService (c : CellNo) (p : Part) : Part :=
  if p.ps.lockoutRunning then p.complete c .locked []
  else if p.ps.checkOutstanding.isSome then p.complete c .busy []
  else if p.ps.serviceMode then p.complete c .ok []
  else p.checkToken c (BitVec.ofNat 64 (p.argument c 0 8))

/-- ENTER_SERVICE (R160). -/
def execEnterService (s : State) : Host.Outcome State Fault Refusal := s.request .enterService Part.doEnterService

/-- R162: a LEAVE_SERVICE with the power and supply block. -/
def Part.doLeaveService (c : CellNo) (p : Part) : Part :=
  Part.complete { p with ps := p.ps.endService } c .ok []

/-- LEAVE_SERVICE (R162). -/
def execLeaveService (s : State) : Host.Outcome State Fault Refusal := s.request .leaveService Part.doLeaveService

end Sys2Proof.Machine
end

