-- ==== Sys2Proof/Machine/SlotRequests.lean ====
section
/-! DEFINITION. The meanings of the request kinds that the commit engine and the slot manager own: SET_COMMIT,
COMMIT_NOW, REVERIFY (R38 to R41, R125, R133). -/

namespace Sys2Proof.Machine
open Sys2Proof

/-! ## SET_COMMIT (R125) -/

/-- R125: a SET_COMMIT with the commit engine. -/
def Part.doSetCommit (c : CellNo) (p : Part) : Part :=
  let given := p.argument c 0 2
  let burst := p.argumentByte c 2
  if 1 < burst.toNat then p.complete c .badArgument []
  else
    let quantum := clampTo 1 64 given
    let p := { p with ce := { p.ce with quantum := quantum, burst := burst == 1 } }
    (p.complete c (okOrClamped (quantum != given)) []).testAll

/-- SET_COMMIT (R125). -/
def execSetCommit (s : State) : Host.Outcome State Fault Refusal := s.request .setCommit Part.doSetCommit

/-! ## COMMIT_NOW (R133) -/

/-- R133: the answer of the commit engine to a targeted slot. -/
inductive FlushAnswer where
  | refused (result : Result)
  | ended (cause : EndCause)
  | holds
deriving DecidableEq, Repr

/-- R133: the answer for one targeted slot, by its state. -/
def Part.flushAnswer (p : Part) (i : Slot) : FlushAnswer :=
  match (p.slot i).state with
  | .empty | .settling | .rejected | .linkLost => .refused .noCartridge
  | .identify | .derive | .challenge | .check | .resolve | .reverify => .refused .busy
  | .inService =>
    if !p.serviceable i then .ended .stopped
    else if (p.commit i).uncommitted < unitVolume && (p.commit i).unsettled.isNone then .ended .drained
    else .holds

/-- R133: a cell becomes a flush holder of a slot. -/
def Part.addHolder (p : Part) (c : CellNo) (i : Slot) : Part :=
  p.updCommit i fun r => { r with holders := r.holders ++ [c] }

/-- The end causes of a COMMIT_NOW before any slot has ended. -/
def noCauses : Vector EndCause 12 := Vector.replicate 12 .notTargeted

/-- R133: COMMIT_NOW for one slot. -/
def Part.commitOne (p : Part) (c : CellNo) (i : Slot) : Part :=
  match p.flushAnswer i with
  | .refused r => p.complete c r []
  | .ended cause => p.complete c .ok (endCauseFields (noCauses.set i cause))
  | .holds => ((p.park c (.commitNow (some i) noCauses)).addHolder c i).testCommit i

/-- R133: the cause noted at once for a slot of a COMMIT_NOW for every slot. -/
def FlushAnswer.causeAtOnce (a : FlushAnswer) : EndCause :=
  match a with
  | .refused _ => .skipped
  | .ended cause => cause
  | .holds => .notTargeted

/-- R133: COMMIT_NOW for every slot. -/
def Part.commitEvery (p : Part) (c : CellNo) : Part :=
  let causes : Vector EndCause 12 := Vector.ofFn fun i => (p.flushAnswer i).causeAtOnce
  let taken := allSlots.filter fun i => p.flushAnswer i == .holds
  if taken.isEmpty then p.complete c .ok (endCauseFields causes)
  else
    let p := taken.foldl (fun q i => q.addHolder c i) (p.park c (.commitNow none causes))
    taken.foldl Part.testCommit p

/-- R133: a COMMIT_NOW with the commit engine. -/
def Part.doCommitNow (c : CellNo) (p : Part) : Part :=
  if p.targetByte c = 255 then p.commitEvery c
  else
    match p.target c with
    | some i => p.commitOne c i
    | none => p.complete c .badArgument []

/-- COMMIT_NOW (R133). -/
def execCommitNow (s : State) : Host.Outcome State Fault Refusal := s.request .commitNow Part.doCommitNow

/-! ## REVERIFY (R38, R39, R41) -/

/-- R38: a REVERIFY parks with its slot. That the T_r of an earlier reverify is forgotten here is the model's (DESIGN CHOICE,
assumption 61). -/
def Part.parkReverify (p : Part) (c : CellNo) (i : Slot) : Part :=
  (p.park c (.reverify i)).updSlot i fun r => { r with parkedCell := some c, reverifyTally := none }

/-- R39 step 1: the reverify of an IN_SERVICE slot begins. -/
def Part.beginReverify (p : Part) (i : Slot) : Part :=
  let nonce := p.freshNonce
  let p := p.nonceDrawn.updSlot i fun r =>
    { r with state := .reverify, candidate := some nonce, stage := .challenge, attempts := 0 }
  (p.reportSlot i).joinBringUp i (.challenge nonce)

/-- R41: the row of a REJECTED slot whose bring-up is repeated. -/
def SlotRow.repeated (r : SlotRow) : SlotRow :=
  { r with state := .identify, verdict := none, identity := none, key := none, nonce := none, candidate := none,
           response := none, attempts := 0, historyLink := false }

/-- R41, R118: the bring-up of a REJECTED slot is repeated, after the removal handling when it has a history link. -/
def Part.repeatBringUp (p : Part) (i : Slot) : Part :=
  let p := if (p.slot i).historyLink then p.removalHandling i else p
  let p := ((p.updSlot i SlotRow.repeated).setVolumes i Volumes.blank).recordVolumes i
  (p.reportSlot i).joinBringUp i .identify

/-- R38: a REVERIFY with the slot manager. -/
def Part.doReverify (c : CellNo) (p : Part) : Part :=
  match p.target c with
  | none => p.complete c .badArgument []
  | some i =>
    match (p.slot i).state with
    | .empty | .settling => p.complete c .noCartridge []
    | .identify | .derive | .challenge | .check | .resolve | .reverify | .linkLost => p.complete c .busy []
    | .inService => (p.parkReverify c i).beginReverify i
    | .rejected => (p.parkReverify c i).repeatBringUp i

/-- REVERIFY (R38). -/
def execReverify (s : State) : Host.Outcome State Fault Refusal := s.request .reverify Part.doReverify

end Sys2Proof.Machine
end

