-- ==== Sys2Proof/Machine/StoreEvents.lean ====
section
/-! DEFINITION. The meanings of the ends of NV writes (R52, R53, R59, R161, R164 to R167). -/

namespace Sys2Proof.Machine
open Sys2Proof

/-- HISTORY_WRITE_ATTEMPT_END (R52): an attempt to write a place ends; the read-back equals the copy (`verified`) or
not. -/
def execHistoryWriteAttemptEnd (verified : Bool) (s : State) : Host.Outcome State Fault Refusal :=
  match s.part.hs.saver with
  | .place k copy counter second changed =>
    if verified then s.after (s.part.placeVerified k copy counter changed)
    else if second then s.after (s.part.placeFailed k)
    else s.after (s.part.beginAttempt k true)
  | .idle | .counter _ _ | .settings _ _ _ => s.unchanged

/-- COUNTER_WRITE_END (R161, R165): an attempt to write the service counter ends. -/
def execCounterWriteEnd (readBack : ReadBack) (s : State) : Host.Outcome State Fault Refusal :=
  match s.part.hs.saver, readBack with
  | .counter value _, .equal => s.after (s.part.counterVerified value)
  | .counter value second, .differs targetFails => s.after (s.part.counterDiffers value second targetFails)
  | .idle, _ | .place _ _ _ _ _, _ | .settings _ _ _, _ => s.unchanged

/-- SETTINGS_WRITE_END (R166): an attempt to write the settings page ends. -/
def execSettingsWriteEnd (readBack : ReadBack) (s : State) : Host.Outcome State Fault Refusal :=
  match s.part.hs.saver, readBack with
  | .settings request page _, .equal => s.after (s.part.settingsVerified request page)
  | .settings request page second, .differs targetFails =>
    s.after (s.part.settingsDiffers request page second targetFails)
  | .idle, _ | .place _ _ _ _ _, _ | .counter _ _, _ => s.unchanged

end Sys2Proof.Machine
end

