-- ==== Sys2Proof/Machine/Dispatch.lean ====
section
/-! DEFINITION. The meaning of each command: one arm per constructor of Instr. -/

namespace Sys2Proof.Machine
open Sys2Proof

/-- The effect of a command on everything but the queue of commands. -/
def exec (i : Instr) (s : State) : Host.Outcome State Fault Refusal :=
  match i with
  | .contactCloses bay => Sys2Proof.Machine.execContactCloses bay s
  | .contactOpens bay => Sys2Proof.Machine.execContactOpens bay s
  | .settleTimerExpiry bay => Sys2Proof.Machine.execSettleTimerExpiry bay s
  | .removalTimerExpiry bay => Sys2Proof.Machine.execRemovalTimerExpiry bay s
  | .linkOperationStart bay => Sys2Proof.Machine.execLinkOperationStart bay s
  | .commandFrameEnd bay => Sys2Proof.Machine.execCommandFrameEnd bay s
  | .linkGapTimeout bay lineLow => Sys2Proof.Machine.execLinkGapTimeout bay lineLow s
  | .responseTimeout bay lineLow => Sys2Proof.Machine.execResponseTimeout bay lineLow s
  | .responseByteTimeout bay lineLow => Sys2Proof.Machine.execResponseByteTimeout bay lineLow s
  | .identify bay payload crc lineLow => Sys2Proof.Machine.execIdentify bay payload crc lineLow s
  | .challenge bay payload crc lineLow => Sys2Proof.Machine.execChallenge bay payload crc lineLow s
  | .readTally bay payload crc lineLow => Sys2Proof.Machine.execReadTally bay payload crc lineLow s
  | .advanceTally bay payload crc lineLow => Sys2Proof.Machine.execAdvanceTally bay payload crc lineLow s
  | .retryTimerExpiry slot => Sys2Proof.Machine.execRetryTimerExpiry slot s
  | .probeTimerExpiry slot => Sys2Proof.Machine.execProbeTimerExpiry slot s
  | .derive => Sys2Proof.Machine.execDerive s
  | .challengeCheck => Sys2Proof.Machine.execChallengeCheck s
  | .receiptCheck => Sys2Proof.Machine.execReceiptCheck s
  | .tokenCheck => Sys2Proof.Machine.execTokenCheck s
  | .historyWriteAttemptEnd verified => Sys2Proof.Machine.execHistoryWriteAttemptEnd verified s
  | .counterWriteEnd readBack => Sys2Proof.Machine.execCounterWriteEnd readBack s
  | .settingsWriteEnd readBack => Sys2Proof.Machine.execSettingsWriteEnd readBack s
  | .bankAccounting => Sys2Proof.Machine.execBankAccounting s
  | .purgeAccounting => Sys2Proof.Machine.execPurgeAccounting s
  | .patternPeriodEnd bay => Sys2Proof.Machine.execPatternPeriodEnd bay s
  | .cellArrival cell kind => Sys2Proof.Machine.execCellArrival cell kind s
  | .cellWithdrawal cell kind => Sys2Proof.Machine.execCellWithdrawal cell kind s
  | .cellGiveBack cell kind => Sys2Proof.Machine.execCellGiveBack cell kind s
  | .bankArrival bank flags => Sys2Proof.Machine.execBankArrival bank flags s
  | .bankReopen bank flags => Sys2Proof.Machine.execBankReopen bank flags s
  | .boardWrite word first second => Sys2Proof.Machine.execBoardWrite word first second s
  | .noticeClear value => Sys2Proof.Machine.execNoticeClear value s
  | .controlLowerHalfWrite value => Sys2Proof.Machine.execControlLowerHalfWrite value s
  | .controlByteOrder upper => Sys2Proof.Machine.execControlByteOrder upper s
  | .controlMaskPolarity upper => Sys2Proof.Machine.execControlMaskPolarity upper s
  | .restart upper => Sys2Proof.Machine.execRestart upper s
  | .registerWriteOther half value => Sys2Proof.Machine.execRegisterWriteOther half value s
  | .unknownKind => Sys2Proof.Machine.execUnknownKind s
  | .setThresholds => Sys2Proof.Machine.execSetThresholds s
  | .setCommit => Sys2Proof.Machine.execSetCommit s
  | .commitNow => Sys2Proof.Machine.execCommitNow s
  | .reverify => Sys2Proof.Machine.execReverify s
  | .purge => Sys2Proof.Machine.execPurge s
  | .readHistory => Sys2Proof.Machine.execReadHistory s
  | .setNoticeLevels => Sys2Proof.Machine.execSetNoticeLevels s
  | .setLedBrightness => Sys2Proof.Machine.execSetLedBrightness s
  | .setPower => Sys2Proof.Machine.execSetPower s
  | .enterService => Sys2Proof.Machine.execEnterService s
  | .leaveService => Sys2Proof.Machine.execLeaveService s
  | .loadCalibration => Sys2Proof.Machine.execLoadCalibration s
  | .setFeed => Sys2Proof.Machine.execSetFeed s
  | .reconcile => Sys2Proof.Machine.execReconcile s
  | .forgetHistory => Sys2Proof.Machine.execForgetHistory s
  | .setRefillMargin => Sys2Proof.Machine.execSetRefillMargin s
  | .windDownComplete => Sys2Proof.Machine.execWindDownComplete s
  | .supplyLow => Sys2Proof.Machine.execSupplyLow s
  | .supplyGood => Sys2Proof.Machine.execSupplyGood s
  | .powerOn => Sys2Proof.Machine.execPowerOn s
  | .resetAsserted => Sys2Proof.Machine.execResetAsserted s
  | .resetReleased => Sys2Proof.Machine.execResetReleased s
  | .foldPhaseEnd => Sys2Proof.Machine.execFoldPhaseEnd s
  | .foldPhaseTimeLimit => Sys2Proof.Machine.execFoldPhaseTimeLimit s
  | .clearingPoint => Sys2Proof.Machine.execClearingPoint s
  | .loadComplete => Sys2Proof.Machine.execLoadComplete s
  | .lockoutTimerExpiry => Sys2Proof.Machine.execLockoutTimerExpiry s
  | .idleTimerExpiry => Sys2Proof.Machine.execIdleTimerExpiry s
  | .powerLoss => Sys2Proof.Machine.execPowerLoss s
  | .responseStartSeen bay => Sys2Proof.Machine.execResponseStartSeen bay s
  | .statusLengthReceived bay status length lineLow => Sys2Proof.Machine.execStatusLengthReceived bay status length lineLow s
  | .lineFoundHigh bay => Sys2Proof.Machine.execLineFoundHigh bay s

end Sys2Proof.Machine
end

