-- ==== Sys2Proof/Safety.lean ====
section
/-! DEFINITION. The terms in which claims are made: the views of the part that a frame speaks of, what a step leaves
unchanged, and the conditions that every step keeps. -/

namespace Sys2Proof.Machine
open Sys2Proof

/-! ## The board's records -/

/-- The records that the part publishes: the slot records, the channel records and part information (R137). -/
inductive RecordId where
  | slot (slot : Slot)
  | channel (channel : Channel)
  | partInfo
deriving DecidableEq, Repr

/-- The address of a record. -/
def RecordId.base : RecordId → Nat
  | .slot i => slotBase i
  | .channel c => channelBase c
  | .partInfo => partInfoBase

/-- The length of a record in bytes. -/
def RecordId.size : RecordId → Nat
  | .slot _ => 64
  | .channel _ => 32
  | .partInfo => 128

/-- R146: the leading and the trailing change count of every record are equal, byte for byte. -/
def Memory.CountsAgree (m : List Host.Cell) : Prop :=
  ∀ r : RecordId, Memory.read m r.base = Memory.read m (r.base + r.size - 2) ∧
    Memory.read m (r.base + 1) = Memory.read m (r.base + r.size - 1)

/-- A board that can stand: in canonical form, with the change counts of every record equal. -/
structure Memory.Sound (m : List Host.Cell) : Prop where
  canonical : Memory.wf m = true
  counts : Memory.CountsAgree m

/-! ## Views -/

/-- Everything there is to see of a part, cut into pieces. Some pieces overlap (`slot` and `identity`, `commit` and
`unsettled`), so that a frame can say more; together they show the whole part. -/
inductive View where
  /-- One byte of the board, as the model reads it. -/
  | byte (address : Nat)
  /-- The writes of slot records asked for in the step under way. -/
  | openWrites
  /-- The contact pin of a bay. -/
  | contact (bay : Slot)
  /-- Presence state, timer and held declaration of a bay. -/
  | presence (bay : Slot)
  /-- The inter-frame gap of a bay. -/
  | gap (bay : Slot)
  /-- The selected pattern of a bay. -/
  | pattern (bay : Slot)
  /-- The current pattern of a bay. -/
  | current (bay : Slot)
  | brightness
  /-- The earlier brightnesses that the present PWM period may still show. -/
  | dimming
  /-- The link state of a slot. -/
  | link (slot : Slot)
  /-- The link wait list. -/
  | waitList
  /-- The digest engine. -/
  | digests
  /-- The slot table row of a slot. -/
  | slot (slot : Slot)
  /-- Identity and history link of a slot. -/
  | identity (slot : Slot)
  /-- What the accounting unit keeps of a channel. -/
  | channel (channel : Channel)
  /-- What the accounting unit keeps of a slot. -/
  | volumes (slot : Slot)
  | margin
  | betweenPages
  /-- Last band sequence, whether a bank has been seen, sequence gaps. -/
  | sequenceCheck
  | chargeList
  /-- What the commit engine keeps of a slot. -/
  | commit (slot : Slot)
  /-- The unsettled ADVANCE_TALLY of a slot. -/
  | unsettled (slot : Slot)
  /-- Commit quantum and burst. -/
  | commitSettings
  /-- A place of the history table. -/
  | place (place : Fin 64)
  | saveQueue
  | saver
  | sightings
  | storeFault
  | foldAtWrite
  /-- The settings page in RAM and the NV copy that holds it. -/
  | page
  | settingsQueue
  /-- The service counter in RAM and the NV copy that holds it. -/
  | counter
  | counterWaiting
  /-- Non-volatile memory. -/
  | nv
  /-- Mask level and interrupt polarity. -/
  | maskPolarity
  | byteOrder
  | heldLower
  /-- Dropped writes and bank overruns. -/
  | portCounters
  | posted
  | parked
  | completion
  /-- The pending notice classes. -/
  | pending
  | levels
  /-- The interrupt output pin. -/
  | output
  | power
  | wakeSet
  | windDownCell
  | comparator
  /-- What the comparator has reported. -/
  | supplyLow
  /-- The reset sequence in progress. -/
  | sequence
  | resetInput
  /-- Service mode and its idle timer. -/
  | service
  /-- The check outstanding, the failed attempts and the lockout. -/
  | gate
  | nonces
  | powerOns
  | unreadTallies
deriving DecidableEq, Repr

/-- Two parts look the same in one view. -/
def View.same (p q : Part) : View → Prop
  | .byte a => p.readByte a = q.readByte a
  | .openWrites => p.openWrites = q.openWrites
  | .contact b => (p.bay b).contactClosed = (q.bay b).contactClosed
  | .presence b => (p.bay b).presence = (q.bay b).presence ∧ (p.bay b).timer = (q.bay b).timer ∧
      (p.bay b).settledHeld = (q.bay b).settledHeld
  | .gap b => (p.bay b).gap = (q.bay b).gap
  | .pattern b => (p.bay b).selected = (q.bay b).selected
  | .current b => (p.bay b).current = (q.bay b).current
  | .brightness => p.brightness = q.brightness
  | .dimming => p.earlierBrightness = q.earlierBrightness
  | .link i => p.link i = q.link i
  | .waitList => p.lp.bringUp = q.lp.bringUp ∧ p.lp.commit = q.lp.commit
  | .digests => p.dg = q.dg
  | .slot i => p.slot i = q.slot i
  | .identity i => (p.slot i).identity = (q.slot i).identity ∧ (p.slot i).historyLink = (q.slot i).historyLink
  | .channel c => p.channel c = q.channel c
  | .volumes i => p.volumes i = q.volumes i
  | .margin => p.au.margin = q.au.margin
  | .betweenPages => p.au.betweenPages = q.au.betweenPages
  | .sequenceCheck => p.au.lastSequence = q.au.lastSequence ∧ p.au.bankSeen = q.au.bankSeen ∧
      p.au.sequenceGaps = q.au.sequenceGaps
  | .chargeList => p.au.chargeList = q.au.chargeList
  | .commit i => p.commit i = q.commit i
  | .unsettled i => (p.commit i).unsettled = (q.commit i).unsettled
  | .commitSettings => p.ce.quantum = q.ce.quantum ∧ p.ce.burst = q.ce.burst
  | .place k => p.place k = q.place k
  | .saveQueue => p.hs.saveQueue = q.hs.saveQueue
  | .saver => p.hs.saver = q.hs.saver
  | .sightings => p.hs.sightings = q.hs.sightings
  | .storeFault => p.hs.storeFault = q.hs.storeFault
  | .foldAtWrite => p.hs.foldAtWrite = q.hs.foldAtWrite
  | .page => p.hs.page = q.hs.page ∧ p.hs.pageCopy = q.hs.pageCopy
  | .settingsQueue => p.hs.settingsQueue = q.hs.settingsQueue
  | .counter => p.hs.counter = q.hs.counter ∧ p.hs.counterCopy = q.hs.counterCopy
  | .counterWaiting => p.hs.counterWaiting = q.hs.counterWaiting
  | .nv => p.nv = q.nv
  | .maskPolarity => p.port.maskLevel = q.port.maskLevel ∧ p.port.activeHigh = q.port.activeHigh
  | .byteOrder => p.port.bigEndian = q.port.bigEndian
  | .heldLower => p.port.heldLower = q.port.heldLower
  | .portCounters => p.port.droppedWrites = q.port.droppedWrites ∧ p.port.bankOverruns = q.port.bankOverruns
  | .posted => p.rq.posted = q.rq.posted
  | .parked => p.rq.parked = q.rq.parked
  | .completion => p.rq.completion = q.rq.completion
  | .pending => p.nu.pending = q.nu.pending
  | .levels => p.nu.levels = q.nu.levels
  | .output => p.nu.outputHigh = q.nu.outputHigh
  | .power => p.ps.power = q.ps.power
  | .wakeSet => p.ps.wakeRequests = q.ps.wakeRequests ∧ p.ps.wakeBands = q.ps.wakeBands
  | .windDownCell => p.ps.windDownCell = q.ps.windDownCell
  | .comparator => p.ps.comparatorLow = q.ps.comparatorLow
  | .supplyLow => p.ps.supplyLow = q.ps.supplyLow
  | .sequence => p.ps.sequence = q.ps.sequence
  | .resetInput => p.ps.resetAsserted = q.ps.resetAsserted
  | .service => p.ps.serviceMode = q.ps.serviceMode ∧ p.ps.idleRunning = q.ps.idleRunning
  | .gate => p.ps.checkOutstanding = q.ps.checkOutstanding ∧ p.ps.failedAttempts = q.ps.failedAttempts ∧
      p.ps.lockoutRunning = q.ps.lockoutRunning
  | .nonces => p.free.nonces = q.free.nonces
  | .powerOns => p.free.powerOns = q.free.powerOns
  | .unreadTallies => p.free.unreadTallies = q.free.unreadTallies

/-- A set of views. -/
abbrev Views := View → Bool

/-- Whatever `p` became as `q`, it looks the same in every view outside `touched`. -/
def Part.ChangesOnly (p : Part) (touched : Views) (q : Part) : Prop := ∀ v, touched v = false → View.same p q v

/-- Two sets of views together. -/
def Views.and (a b : Views) : Views := fun v => a v || b v

/-- A single view. -/
def Views.only (v : View) : Views := fun w => w == v

/-- The bytes of a region of the board. -/
def Views.bytes (base size : Nat) : Views
  | .byte a => decide (base ≤ a) && decide (a < base + size)
  | _ => false

/-! ## What the shared operations can touch -/

/-- The completion of requests: the cells, the parked requests, the completion number, the pending notices. -/
def Views.completing : Views
  | .byte a => decide (a < 0x600)
  | .parked | .completion | .pending => true
  | _ => false

/-- The commit engine's examination of slots: completions, and the flush holders of slots. -/
def Views.flushing : Views
  | .commit _ => true
  | v => Views.completing v

/-- The link pool's work: flushes, link states, the wait list. -/
def Views.linking : Views
  | .link _ | .waitList => true
  | v => Views.flushing v

/-- Reports of slots: the link pool's work, and slot records. -/
def Views.reporting : Views
  | .openWrites => true
  | .byte a => decide (a < 0x600) || (decide (0xA00 ≤ a) && decide (a < 0xD00))
  | v => Views.linking v

/-- Writes to history entries: the table, the save queue, the changed-during-write mark. -/
def Views.history : Views
  | .place _ | .saveQueue | .saver => true
  | _ => false

/-- What the slot manager and the accounting unit do to the slots in `who` on the way of a verdict or a charge: neither
an identity nor an unsettled ADVANCE_TALLY changes. -/
def Views.slotWork (who : Slot → Bool) : Views
  | .slot i | .volumes i => who i
  | .channel _ | .digests | .unreadTallies => true
  | .byte a => Views.reporting (.byte a)
  | .identity _ | .unsettled _ => false
  | v => Views.reporting v || Views.history v

/-- What a bring-up, a reverify or a removal does to the slots in `who`. -/
def Views.bringUp (who : Slot → Bool) : Views
  | .identity i | .unsettled i => who i
  | .sightings | .nonces => true
  | v => Views.slotWork who v

/-- What a setting that takes effect touches: channels, volumes, slot records, the pending notices (R97). -/
def Views.setting : Views
  | .channel _ | .volumes _ | .pending | .openWrites => true
  | .byte a => decide (0xA00 ≤ a) && decide (a < 0xD00)
  | _ => false

/-- The accounting of the charge list. -/
def Views.charging : Views
  | .sequenceCheck | .betweenPages | .chargeList => true
  | .byte a => decide (a < 0xD00)
  | v => Views.slotWork (fun _ => true) v

/-- The saver's choice of its next write. -/
def Views.saving : Views
  | .settingsQueue | .counterWaiting | .openWrites => true
  | .byte a => Views.reporting (.byte a)
  | v => Views.flushing v || Views.history v

/-- What ends every step: the takes of the digest engine and the saver, the records, the patterns, the brightness that a
change leaves to the present PWM period, the output. -/
def Views.ending : Views
  | .byte a => decide (a < 0x600) || (decide (0xA00 ≤ a) && decide (a < 0xF00))
  | .digests | .pattern _ | .dimming | .output => true
  | v => Views.saving v

/-! ## What each command can touch -/

/-- One slot and no other. -/
abbrev justSlot (i : Slot) : Slot → Bool := fun j => j == i

/-- Every slot. -/
abbrev everySlot : Slot → Bool := fun _ => true

/-- The views of the bring-up of one slot. -/
abbrev Views.bringUpOf (i : Slot) : Views := .bringUp (justSlot i)

/-- The views of the bring-ups of every slot. -/
abbrev Views.bringUps : Views := .bringUp everySlot

/-- What waking touches: power state and wake set, gaps and current patterns, the link pool's work (R171). -/
def Views.waking : Views
  | .power | .wakeSet | .gap _ | .current _ => true
  | v => Views.linking v

/-- What SLEEP entry touches: the power state, the link pool's work, units in doubt (R21, R171). -/
def Views.sleeping : Views
  | .power => true
  | v => Views.bringUps v

/-- What SET_POWER touches: the power state, the wake set, the wind-down cell, the link pool's work (R169, R170). -/
def Views.powering : Views
  | .power | .wakeSet | .windDownCell => true
  | v => Views.linking v

/-- What the supply watch's reports touch (R172). -/
def Views.supplying : Views
  | .supplyLow | .foldAtWrite | .link _ | .waitList => true
  | v => Views.saving v

/-- What the ends of NV writes touch: NV, the saver's work, the store fault, the page and the counter, service mode, and,
through a setting that takes effect, channels and volumes (R52, R161, R166). -/
def Views.storing : Views
  | .nv | .storeFault | .page | .counter => true
  | .channel _ | .volumes _ | .service | .gate => true
  | v => Views.saving v

/-- What the start of a reset sequence touches. NV, the presence of bays, identities, volumes, settings and the port's
registers stay (R22, R36, R45, R136, R145, R162, R167, R174). -/
def Views.resetting : Views
  | .sequence | .service | .gate | .windDownCell | .power | .wakeSet | .gap _ | .current _ => true
  | .settingsQueue | .counterWaiting | .link _ | .waitList | .slot _ | .commit _ | .digests | .chargeList => true
  | .foldAtWrite => true
  | v => Views.history v || Views.completing v

/-- What the end of a link operation touches: the bring-up of the slot and the gap of its line. -/
def Views.judging (i : Slot) : Views := Views.and (.bringUpOf i) (.only (.gap i))

/-- What every taken request can touch besides its kind's own effect: the posted list, the idle timer, its completion. -/
def Views.taking : Views
  | .posted | .service => true
  | v => Views.completing v

/-- What a bay's own events touch: its contact, presence and gap, the bring-up of its slot, and a waking. -/
def Views.bayEvent (b : Slot) : Views
  | .contact c | .presence c => c == b
  | v => Views.bringUpOf b v || Views.waking v

/-- What an engine write to the board touches: cells and banks, the posted and the charge list, the port's counters, and
a waking. -/
def Views.boardWrite : Views
  | .byte a => decide (a < 0xA00)
  | .posted | .chargeList | .portCounters => true
  | v => Views.waking v

/-- What a whole write of CONTROL touches: the register, the records in their new order, and the start of a restart. -/
def Views.controlWrite : Views
  | .maskPolarity | .byteOrder | .heldLower => true
  | .byte a => decide (a < 0x600) || (decide (0xA00 ≤ a) && decide (a < 0xF00))
  | v => Views.resetting v

/-- What survives the clearing point of a sequence: the contact pins, NV, the supply, the reset input and the free values'
counters (R175). A restart keeps more. -/
def Views.clearing : Views
  | .contact _ | .nv | .comparator | .supplyLow | .resetInput | .powerOns | .nonces | .unreadTallies => false
  | _ => true

/-- What the end of a load touches: nothing of NV, of the pins, of the port's registers, of the free values' counters
(R175). -/
def Views.loading : Views
  | .contact _ | .nv | .comparator | .resetInput | .powerOns | .nonces | .unreadTallies | .levels => false
  | .maskPolarity | .byteOrder | .heldLower | .portCounters | .brightness | .posted | .commitSettings => false
  | .gap _ | .current _ | .power | .wakeSet | .windDownCell | .service | .margin | .volumes _ => false
  | _ => true

/-- What survives a loss of power: the contact pins and the reset input, and NV but for a write under way (R172). -/
def Views.losing : Views
  | .contact _ | .resetInput | .unreadTallies => false
  | _ => true

/-- What a command can touch before the end of its step. -/
def Views.ofEffect : Instr → Views
  | .contactCloses b | .contactOpens b | .settleTimerExpiry b | .removalTimerExpiry b => .bayEvent b
  | .linkOperationStart b | .commandFrameEnd b | .linkGapTimeout b _ | .responseTimeout b _ | .responseByteTimeout b _
  | .identify b _ _ _ | .challenge b _ _ _ | .readTally b _ _ _ | .advanceTally b _ _ _ | .responseStartSeen b
  | .statusLengthReceived b _ _ _ | .lineFoundHigh b | .retryTimerExpiry b | .probeTimerExpiry b => .judging b
  | .derive | .challengeCheck | .receiptCheck => .bringUps
  | .tokenCheck => Views.and .completing (Views.and (.only .digests) (Views.and (.only .gate) (.only .counterWaiting)))
  | .historyWriteAttemptEnd _ | .counterWriteEnd _ | .settingsWriteEnd _ => .storing
  | .bankAccounting | .purgeAccounting => .charging
  | .patternPeriodEnd b => Views.and (.only (.current b)) (.only .dimming)
  | .cellArrival _ _ | .cellWithdrawal _ _ | .cellGiveBack _ _ | .bankArrival _ _ | .bankReopen _ _
  | .boardWrite _ _ _ => .boardWrite
  | .noticeClear _ => .only .pending
  | .controlLowerHalfWrite _ => .only .heldLower
  | .controlByteOrder _ | .controlMaskPolarity _ | .restart _ => .controlWrite
  | .registerWriteOther _ _ => fun _ => false
  | .unknownKind | .readHistory | .leaveService => .taking
  | .setThresholds | .reconcile => Views.and .taking .setting
  | .setCommit => Views.and .taking (Views.and .linking (.only .commitSettings))
  | .commitNow => Views.and .taking .linking
  | .reverify => Views.and .taking .bringUps
  | .purge => Views.and .taking (.only .chargeList)
  | .setNoticeLevels => Views.and .taking (.only .levels)
  | .setLedBrightness => Views.and .taking (.only .brightness)
  | .setPower => Views.and .taking .powering
  | .enterService => Views.and .taking (Views.and (.only .gate) (.only .digests))
  | .loadCalibration | .setFeed => Views.and .taking (.only .settingsQueue)
  | .forgetHistory => Views.and .taking .history
  | .setRefillMargin => Views.and .taking (Views.and (.slotWork everySlot) (.only .margin))
  | .windDownComplete => Views.and .sleeping (.only .windDownCell)
  | .supplyLow | .supplyGood | .powerOn =>
    Views.and .supplying (Views.and (.only .comparator) (.only .sequence))
  | .resetAsserted => Views.and .resetting (.only .resetInput)
  | .resetReleased => .only .resetInput
  | .foldPhaseEnd | .foldPhaseTimeLimit => .only .sequence
  | .clearingPoint => .clearing
  | .loadComplete => .loading
  | .lockoutTimerExpiry => .only .gate
  | .idleTimerExpiry => .only .service
  | .powerLoss => .losing

/-- What a command can touch in its whole step. -/
def Views.ofCommand (c : Instr) : Views := Views.and (.ofEffect c) .ending

/-! ## What a command completes with -/

/-- The command answers a next state: nothing of the part outside `touched` changes, the queue of commands stays as it
is, and the part is as `result` says. -/
def Completes (c : Instr) (s : State) (touched : Views) (result : Part → Prop) : Prop :=
  ∃ t, exec c s = .next t ∧ t.pending = s.pending ∧ s.part.ChangesOnly touched t.part ∧ result t.part

/-- R144: the request in a cell has completed with a result and a completion number: the cell is DONE, shows both, and
the DONE notice is pending. -/
structure Part.Answered (p : Part) (cell : CellNo) (result : Result) (number : Half) : Prop where
  state : p.cellState cell = .done
  code : p.readByte (cellBase cell + 3) = BitVec.ofNat 8 result.code
  number : p.readField (cellBase cell + 4) 2 = number.toNat
  notice : p.noticePending .done = true

/-- R142: the request in a cell is the next to be taken: it stands at the head of the posted list, taking is open, and
its kind byte names the kind (`none`: no kind of the summary table). -/
structure Part.Offers (p : Part) (kind : Option Kind) (cell : CellNo) : Prop where
  head : p.rq.posted.head? = some cell
  kind : kindOf (p.kindByte cell) = kind
  running : p.busy = false
  awake : p.asleep = false

/-- A request in a cell is parked with some work (R143), and the cell is TAKEN. -/
structure Part.ParkedAs (p : Part) (cell : CellNo) (work : ParkedWork) : Prop where
  state : p.cellState cell = .taken
  parked : ⟨cell, work⟩ ∈ p.rq.parked

/-- No slot holds the cell as a flush holder, and no queued settings request names it (R133, R143, R166). -/
structure Part.Loose (p : Part) (cell : CellNo) : Prop where
  flushes : ∀ i, cell ∉ (p.commit i).holders
  settings : ∀ r ∈ p.hs.settingsQueue, r.cell ≠ cell

/-- What a request that is answered at once touches besides its kind's own effect: its cell, the posted list, the
parked requests, the completion number, the notices and the output (R142, R144, R151). -/
def Views.answering (cell : CellNo) : Views
  | .posted | .parked | .completion | .pending | .output => true
  | v => Views.bytes (cellBase cell) 64 v

/-- R14, R15, R21: the slot stands on the link wait list as its link state says: once in the class that it waits in, once
more where SLEEP placed a deferred join behind its operation, and on neither class while it does not wait. -/
abbrev Part.ListedAs (p : Part) (i : Slot) : Prop :=
  (p.lp.bringUp.count i, p.lp.commit.count i) =
    match p.link i with
    | .waitingBringUp _ none => (1, 0)
    | .waitingBringUp _ (some _) => (2, 0)
    | .waitingCommit => (0, 1)
    | .none | .held _ => (0, 0)

/-- The slot stands on neither class of the link wait list (R14). -/
structure Part.Unlisted (p : Part) (i : Slot) : Prop where
  bringUp : i ∉ p.lp.bringUp
  commit : i ∉ p.lp.commit

/-- The slot has joined the bring-up class for an operation, and waits for an engine or holds one for it (R14 to R16). -/
def Part.Joined (p : Part) (i : Slot) (op : LinkOp) : Prop :=
  p.link i = .waitingBringUp op none ∨ p.link i = .held ⟨false, op, .ready, 0, none⟩

/-- The slot holds a link engine for a single operation, with no deferred join, and its bay is PRESENT. -/
structure Part.HoldsSingle (p : Part) (i : Slot) (h : Hold) : Prop where
  link : p.link i = .held h
  single : h.commit = false
  alone : h.deferred = none
  present : (p.bay i).presence = .present

/-- One slot alone holds the entry, with a history link, so that a fold or an unfold of the entry is that slot's
(R48, R55, R57). -/
structure Part.SoleHolder (p : Part) (i : Slot) (e : Entry) : Prop where
  linked : (p.slot i).historyLink = true
  carries : (p.slot i).carries e.serial = true
  alone : ∀ j, j ≠ i → (p.slot j).carries e.serial = false

/-- R54, R55: the entry after a fold of the slot: its carried volume grows by the slot's uncommitted volume, and it takes
over the slot's remaining volume, post-empty draw, EXHAUSTED, TALLY_FULL and, if there are any, units in doubt. -/
def Part.foldInto (p : Part) (i : Slot) (e : Entry) : Entry :=
  { e with
    carried := satAdd max32 e.carried (p.commit i).uncommitted, remaining := (p.volumes i).remaining,
    postEmpty := (p.volumes i).postEmpty, exhausted := (p.volumes i).exhausted, tallyFull := (p.commit i).tallyFull,
    inDoubt := if (p.commit i).inDoubt = 0 then e.inDoubt else (p.commit i).inDoubt }

/-- R133: a COMMIT_NOW becomes a flush holder of the slot: IN_SERVICE with a verdict that commits, not TALLY_FULL, and a
unit to commit or an ADVANCE_TALLY unsettled. -/
structure Part.TakesFlush (p : Part) (i : Slot) : Prop where
  state : (p.slot i).state = .inService
  commits : (p.slot i).allowsCommits = true
  room : (p.commit i).tallyFull = false
  work : unitVolume ≤ (p.commit i).uncommitted ∨ (p.commit i).unsettled ≠ none

/-- R133: the cause with which the flush of a slot of a COMMIT_NOW for every slot ends at once. -/
inductive Part.FlushEndsAtOnce (p : Part) (i : Slot) : EndCause → Prop where
  | skipped : (p.slot i).state ≠ .inService → p.FlushEndsAtOnce i .skipped
  | stopped : (p.slot i).state = .inService → (p.slot i).allowsCommits = false ∨ (p.commit i).tallyFull = true →
      p.FlushEndsAtOnce i .stopped
  | drained : (p.slot i).state = .inService → (p.slot i).allowsCommits = true → (p.commit i).tallyFull = false →
      (p.commit i).uncommitted < unitVolume → (p.commit i).unsettled = none → p.FlushEndsAtOnce i .drained

/-- R176, R177: the fields stand on the board from `base` on, in the byte order in force. -/
def Part.Shows (p : Part) (base : Nat) (fields : List Field) : Prop :=
  ∀ f ∈ fields, p.readField (base + f.offset) f.width = f.value % 256 ^ f.width

/-- R73, R107, R108, R109, R111: between `p` and `q` a slot has taken a share: `fell` nL off its remaining volume and `post` nL
as post-empty draw, all of it to its uncommitted volume. EXHAUSTED, LOW and SPENT follow what fell, unless a draw past the margin
has made the slot REFILLED, which clears LOW and SPENT and is written into its history entry. -/
structure Part.TakesShare (p q : Part) (i : Slot) (fell post : Nat) : Prop where
  remaining : (q.volumes i).remaining = (p.volumes i).remaining - fell
  postEmpty : (q.volumes i).postEmpty = if fell + post = 0 then (p.volumes i).postEmpty
    else satAdd max32 (p.volumes i).postEmpty post
  uncommitted : (q.commit i).uncommitted = if fell + post = 0 then (p.commit i).uncommitted
    else satAdd max32 (p.commit i).uncommitted (fell + post)
  exhausted : (q.volumes i).exhausted
    = ((p.volumes i).exhausted || (decide (0 < fell) && decide ((p.volumes i).remaining ≤ fell)))
  refilled : 0 < post → (p.slot i).marginTested = true →
    marginVolume p.au.margin (p.slot i).volumeClass < (q.volumes i).postEmpty →
    (q.slot i).verdict = some .refilled ∧ (q.volumes i).low = false ∧ (q.volumes i).spent = false ∧
      q.noticePending .verdict = true ∧
      ∀ k e, p.linkedPlace i = some k → (p.place k).entry = some e → (q.place k).entry = some { e with verdict := .refilled }
  kept : post = 0 ∨ (p.slot i).marginTested = false ∨
      (q.volumes i).postEmpty ≤ marginVolume p.au.margin (p.slot i).volumeClass →
    (q.slot i).verdict = (p.slot i).verdict ∧
    (q.volumes i).low = ((p.volumes i).low || (decide (0 < fell) &&
      decide ((p.volumes i).remaining - fell ≤ (p.volumes i).thresholds.warn))) ∧
    (q.volumes i).spent = ((p.volumes i).spent || (decide (0 < fell) &&
      decide ((p.volumes i).remaining - fell ≤ (p.volumes i).thresholds.stop)))

/-- R83, R91, R92, R93: accounting the head of the charge list charges `x` nL to channel `c` and to no other, `m` of them
maintenance: a purge of that channel alone, or a bank whose mask names it alone and which does not end a page. -/
inductive Part.ChargesOne (p : Part) (c : Channel) : Instr → Nat → Nat → Prop where
  | purge (cell : CellNo) (volumes : Vector Nat 12) (clamped : Bool) (rest : List ChargeItem) :
      p.au.chargeList = .purge cell (1#16 <<< c.val) volumes clamped :: rest →
      p.ChargesOne c .purgeAccounting volumes[c] volumes[c]
  | bank (b : BankNo) (rest : List ChargeItem) : p.au.chargeList = .bank b :: rest → p.bandMask b = 1#16 <<< c.val →
      p.pageEnd b = false →
      p.ChargesOne c .bankAccounting (bandVolume (p.channel c).calibration (p.channelBlock b c) (p.channel c).residue)
        (bandMaintenance (p.channel c).calibration (p.channelBlock b c))

/-- An operation of the digest engine waits, in its queue or behind an entry of its owner (R35). -/
def Part.DigestWaits (p : Part) (owner : DigestOwner) (op : DigestOp) : Prop :=
  ⟨owner, op⟩ ∈ p.dg.queue ++ p.dg.behind

/-- R40, R43, R123: between `p` and `q` a tally read from the cartridge of a slot has settled its units in doubt, or, without
any, has been compared with the committed tally. A tally that agrees with neither escalates the slot to REGRESSED, unless
its verdict is REGRESSED or CLONE already (R71). -/
structure Part.TallySettled (p q : Part) (i : Slot) (tally : Nat) : Prop where
  units : (q.commit i).inDoubt = 0
  applied : (p.commit i).inDoubt ≠ 0 → tally = p.committedTally i + (p.commit i).inDoubt →
    (q.commit i).uncommitted = (p.commit i).uncommitted - (p.commit i).inDoubt * unitVolume ∧
    (q.slot i).verdict = (p.slot i).verdict ∧
    ∀ k e, p.linkedPlace i = some k → (p.place k).entry = some e →
      q.place k = ⟨some { e with tally := tally, inDoubt := 0 }, true⟩
  notApplied : tally = p.committedTally i →
    (q.commit i).uncommitted = (p.commit i).uncommitted ∧ (q.slot i).verdict = (p.slot i).verdict ∧
    ∀ k e, (p.commit i).inDoubt ≠ 0 → p.linkedPlace i = some k → (p.place k).entry = some e →
      q.place k = ⟨some { e with inDoubt := 0 }, true⟩
  disagrees : tally ≠ p.committedTally i → tally ≠ p.committedTally i + (p.commit i).inDoubt →
    (q.commit i).uncommitted = (p.commit i).uncommitted ∧
    (∀ now, (p.slot i).verdict = some now → now = .regressed ∨ now = .clone → (q.slot i).verdict = some now) ∧
    ∀ now, (p.slot i).verdict = some now → now ≠ .regressed → now ≠ .clone → now.class ≠ .rejected →
      (q.slot i).verdict = some .regressed ∧ (q.volumes i).low = false ∧ (q.volumes i).spent = false ∧
      q.noticePending .verdict = true ∧
      ∀ k e, p.linkedPlace i = some k → (p.place k).entry = some e →
        q.place k = ⟨some { e with inDoubt := if (p.commit i).inDoubt = 0 then e.inDoubt else 0,
                                   verdict := .regressed }, true⟩

/-- R31, R63, R70: between `p` and `q` a RESOLVE has taken the slot into service with the verdict and the starting values of
the entry `e`, which it has written into place `k`, and with `u` uncommitted; nothing else of the history table changes. -/
structure Part.EntersWith (p q : Part) (i : Slot) (k : Fin 64) (u : Nat) (e : Entry) : Prop where
  state : (q.slot i).state = .inService
  verdict : (q.slot i).verdict = some e.verdict
  linked : (q.slot i).historyLink = true
  remaining : (q.volumes i).remaining = e.remaining
  postEmpty : (q.volumes i).postEmpty = e.postEmpty
  exhausted : (q.volumes i).exhausted = e.exhausted
  tallyFull : (q.commit i).tallyFull = e.tallyFull
  uncommitted : (q.commit i).uncommitted = u
  units : (q.commit i).inDoubt = 0
  entry : q.place k = ⟨some e, true⟩
  others : ∀ j, j ≠ k → q.place j = p.place j
  sightings : q.hs.sightings = satAdd max32 p.hs.sightings 1
  notice : e.verdict.class ≠ .tracked → q.noticePending .verdict = true

/-- R46, R49: the place that a new entry takes: the free one with the lowest number; when none is free, that of an entry
which no slot holds, one whose verdict is not sticky before one whose is, then the one with the lowest sighting number, then
the lowest place. -/
inductive Part.TakesEntry (p : Part) (k : Fin 64) : Prop where
  | free : (p.place k).entry = none → (∀ j, j < k → (p.place j).entry ≠ none) → p.TakesEntry k
  | evicted (e : Entry) : (∀ j, (p.place j).entry ≠ none) → (p.place k).entry = some e → p.serialHeld e.serial = false →
      (∀ j d, j ≠ k → (p.place j).entry = some d → p.serialHeld d.serial = false →
        (e.verdict.sticky = false ∧ d.verdict.sticky = true) ∨
        e.verdict.sticky = d.verdict.sticky ∧ (e.sighting < d.sighting ∨ e.sighting = d.sighting ∧ k < j)) →
      p.TakesEntry k

/-- The fields of an entry lie within the widths that 12.5 gives them. -/
structure Entry.InRange (e : Entry) : Prop where
  tally : e.tally < 65536
  remaining : e.remaining < 2 ^ 32
  carried : e.carried < 2 ^ 32
  postEmpty : e.postEmpty < 2 ^ 32
  inDoubt : e.inDoubt < 256
  sighting : e.sighting < 2 ^ 32

/-- R58: a READ_HISTORY in a cell selects a place of the history table: by place number, by serial or by slot (`none`: no
entry is found). -/
inductive Part.SelectsPlace (p : Part) (c : CellNo) : Option (Fin 64) → Prop where
  | place (k : Fin 64) : p.optionByte c = 0 → (p.argumentByte c 0).toNat = k.val → p.SelectsPlace c (some k)
  | serial : p.optionByte c = 1 → p.SelectsPlace c (p.findPlace (BitVec.ofNat 64 (p.argument c 0 8)))
  | slot (i : Slot) : p.optionByte c = 2 → p.target c = some i → p.SelectsPlace c (p.linkedPlace i)

/-- A command that begins a reset-line reset or a restart, and whether a fold phase follows (R173, R174): the assertion of the
reset input, and a write of CONTROL's upper half that makes a whole value with RESTART 1 (R149). -/
inductive Part.BeginsReset (p : Part) : Instr → SequenceKind → Bool → Prop where
  | line : p.ps.resetAsserted = false → p.BeginsReset .resetAsserted .resetLine (!p.ps.comparatorLow)
  | restart (u : Half) (c : Instr) : c = .controlByteOrder u ∨ c = .controlMaskPolarity u ∨ c = .restart u →
      (u ++ (match p.port.heldLower with
        | some lower => lower
        | none => (p.readRegister .control).setWidth 16)).getLsbD 0 = true →
      p.BeginsReset c .restart true

/-- A command that ends an operation in flight without a complete response, the phase in which it can come, and the
outcome that it gives the operation of the hold `h` (R7, R8, R13). -/
inductive EndsOperation (b : Slot) (lineLow : Bool) (h : Hold) : Instr → LinkOutcome → Prop where
  | gap : h.phase = .ready → EndsOperation b lineLow h (.linkGapTimeout b lineLow) .noResponse
  | response : h.phase = .awaiting → EndsOperation b lineLow h (.responseTimeout b lineLow) .noResponse
  | header : h.phase = .receiving → EndsOperation b lineLow h (.responseByteTimeout b lineLow) .malformed
  | payload (status length : Byte) : h.phase = .payload status length →
      EndsOperation b lineLow h (.responseByteTimeout b lineLow) .malformed
  | length (status length : Byte) : h.phase = .receiving → h.op.headerOk status length = false →
      EndsOperation b lineLow h (.statusLengthReceived b status length lineLow) .malformed

/-- A command that hands over a complete response to the operation of the hold `h`, and the outcome that R8 gives it. -/
inductive EndsResponse (b : Slot) (lineLow : Bool) (h : Hold) : Instr → LinkOutcome → Prop where
  | identify (status length crc : Byte) (payload : List Byte) : h.phase = .payload status length →
      h.op = .identify → payload.length = length.toNat →
      EndsResponse b lineLow h (.identify b payload crc lineLow) (h.op.judge status length payload crc)
  | challenge (status length crc : Byte) (payload : List Byte) (nonce : Quad) : h.phase = .payload status length →
      h.op = .challenge nonce → payload.length = length.toNat →
      EndsResponse b lineLow h (.challenge b payload crc lineLow) (h.op.judge status length payload crc)
  | readTally (status length crc : Byte) (payload : List Byte) : h.phase = .payload status length →
      h.op = .readTally → payload.length = length.toNat →
      EndsResponse b lineLow h (.readTally b payload crc lineLow) (h.op.judge status length payload crc)
  | advanceTally (status length crc : Byte) (payload : List Byte) (units : Nat) : h.phase = .payload status length →
      h.op = .advance units → payload.length = length.toNat →
      EndsResponse b lineLow h (.advanceTally b payload crc lineLow) (h.op.judge status length payload crc)

/-! ## Conditions that every step keeps -/

/-- No sequence is in progress and the part is awake (STATUS shows BUSY 0 and a power state other than SLEEP). -/
structure Part.Normal (p : Part) : Prop where
  running : p.busy = false
  awake : p.asleep = false

/-- The blocks that act of themselves have nothing left to do at once: the digest engine has taken the head of its queue
(R35), the saver has taken what it may write (R52, R165, R166), no write of a slot's record is under way (R147), every bay shows the pattern its slot selects (R154), and
the interrupt output stands as R151 says. -/
structure Part.Quiet (p : Part) : Prop where
  digests : p.dg.computing = false → p.asleep = false → p.dg.queue = []
  saver : p.hs.saver = .idle → p.works = true → p.nextWrite = none
  writes : p.openWrites = []
  patterns : ∀ b, (p.bay b).selected = selectPattern (p.slot b) (p.volumes b).low (p.volumes b).spent
  output : p.nu.outputHigh = (p.interruptActive == p.port.activeHigh)

/-- The power and supply block's values agree: the idle timer runs exactly in service mode (R162, R163); there is no
service mode and no check outstanding in a sequence (R162, R167); fewer than three attempts have failed (R161); the part
is in RUN or DOZE in a sequence (R174); the wind-down has a cell exactly in WINDING_DOWN (R169, R170); outside a sequence
SUPPLY_LOW shows the comparator (R172). -/
structure Part.PowerLegal (p : Part) : Prop where
  service : p.ps.serviceMode = p.ps.idleRunning
  sequenceService : p.busy = true → p.ps.serviceMode = false ∧ p.ps.checkOutstanding = none
  attempts : p.ps.failedAttempts < 3
  awake : p.busy = true → p.ps.power = .run ∨ p.ps.power = .doze
  windDown : p.ps.windDownCell.isSome = (p.ps.power == .windingDown)
  supply : p.busy = false → p.ps.supplyLow = p.ps.comparatorLow

/-- R24, R98, R102, R113, R120, R147: the records of the board show what they stand for, with every field of 12.3 and 12.4: the
slot records from the clearing point on, the channel records and part information from the end of the load on, all of them
until the fold phase of the next sequence has ended. -/
structure Part.RecordsStand (p : Part) : Prop where
  slots : p.recordsKept = true ∨ p.loading = true → ∀ i, p.Shows (slotBase i) (p.slotFields i ++ slotZeroFields)
  channels : p.recordsKept = true → ∀ c, p.Shows (channelBase c) (p.channelFields c)
  partInfo : p.recordsKept = true → p.Shows partInfoBase p.partInfoFields

/-- What RAM calls the current settings page and the current service counter is what the NV copies named as current
hold (R164, R165). -/
structure Part.StoreAgrees (p : Part) : Prop where
  page : ∀ c, p.hs.pageCopy = some c → ∃ g, p.nv.pages[c] = some ⟨g, p.hs.page⟩
  counter : ∀ c, p.hs.counterCopy = some c → p.nv.counters[c] = some p.hs.counter

end Sys2Proof.Machine
end

