-- ==== Sys2Proof/Certificates/Slice0/Obligations.lean ====
section
/-! DEFINITION. The statements for the provers. -/

open Sys2Proof Sys2Proof.Machine

/-! ## The machine as a whole -/

/-- A step carries out the command at the front of the queue on the state with the queue's rest; on an empty queue the
block idles (the model's choice, assumption 2). -/
def Obligations.StepRunsFrontCommand : Prop :=
  (∀ (c : Instr) (rest : List Instr) (s : State),
    step { s with pending := c :: rest } = exec c { s with pending := rest }) ∧
  ∀ s : State, s.pending = [] → step s = .next s

/-- What the machine is right after power-on, before the supply's first GOOD: STATUS shows 0x00000011, every byte of the
board reads 0, every slot is EMPTY with nothing of any block's, every contact is open and every bay ABSENT, no class is
pending, the interrupt output is inactive (high), and no request is posted or parked. The contacts, the reset input and
the contents of NV are the model's choice (assumption 4), and so is that no slot has a kept tally T_r (assumption 61). -/
def Obligations.ResetState : Prop :=
  State.reset.pending = [] ∧ State.reset.part.readRegister .status = 0x00000011 ∧
  (∀ a, State.reset.part.readByte a = 0) ∧
  (∀ i, State.reset.part.slot i = SlotRow.blank ∧ State.reset.part.volumes i = Volumes.blank ∧
    State.reset.part.commit i = CommitRow.blank ∧ State.reset.part.link i = .none ∧
    State.reset.part.bay i = Bay.blank false) ∧
  (∀ c, State.reset.part.channel c = ChannelRow.blank c) ∧
  State.reset.part.rq = ⟨[], [], 0⟩ ∧ State.reset.part.nu.pending = 0 ∧ State.reset.part.nu.outputHigh = true ∧
  State.reset.part.port.bigEndian = false ∧ State.reset.part.port.maskLevel = 0

/-- The conditions that every step keeps hold at reset, as the model chooses that state (assumption 4). -/
def Obligations.InvariantsAtReset : Prop :=
  Memory.Sound State.reset.part.board ∧ State.reset.part.Quiet ∧ State.reset.part.heldCount ≤ 3 ∧
    (∀ i, State.reset.part.ListedAs i) ∧ State.reset.part.PowerLegal ∧ State.reset.part.StoreAgrees ∧
    State.reset.part.RecordsStand

/-- R137, R146: every step keeps the board in its canonical form and the two change counts of every record equal. R24, R98,
R102, R113, R120, R147: on such a board every step keeps the records showing, in the byte order in force, what they stand for:
outside a sequence and in a fold phase every slot record, channel record and part information with all the fields of 12.3 and
12.4, and while a load is under way the slot records. That the records show them at the end of every step, and which of them are
kept within a sequence, is the model's choice (assumptions 14, 32 and 42). -/
def Obligations.BoardSoundKept : Prop :=
  (∀ s t : State, Memory.Sound s.part.board → step s = .next t → Memory.Sound t.part.board) ∧
  ∀ s t : State, Memory.Sound s.part.board → s.part.RecordsStand → step s = .next t → t.part.RecordsStand

/-- R35, R52, R151, R154: after every step the blocks that act of themselves have nothing left to do at once: the idle
digest engine has taken its head, the idle saver has taken what it may write, every bay shows the pattern that its slot
selects, and the interrupt output stands as R151 says. That these takes stand at the end of the step is the model's choice
(assumption 42). -/
def Obligations.QuietKept : Prop :=
  ∀ s t : State, s.part.Quiet → step s = .next t → t.part.Quiet

/-- R14: after every step at most three slots hold link engines, and every slot stands on the link wait list at most once,
as its link state says: not while it holds an engine, and not while its link state is NONE. A slot that SLEEP has put back
with a deferred join stands there for that join as well, at the tail (R21, the model's reading, assumption 31). -/
def Obligations.AtMostThreeEnginesHeld : Prop :=
  (∀ s t : State, s.part.heldCount ≤ 3 → step s = .next t → t.part.heldCount ≤ 3) ∧
  ∀ s t : State, (∀ i, s.part.ListedAs i) → step s = .next t → ∀ i, t.part.ListedAs i

/-- R161 to R163, R169, R170, R172, R174: every step keeps the values of the power and supply block in agreement. -/
def Obligations.PowerLegalKept : Prop :=
  ∀ s t : State, s.part.PowerLegal → step s = .next t → t.part.PowerLegal

/-- R164, R165: every step keeps the settings page and the service counter in RAM equal to the NV copies that are named
as current. -/
def Obligations.StoreAgreesKept : Prop :=
  ∀ s t : State, s.part.StoreAgrees → step s = .next t → t.part.StoreAgrees

/-- The frame of every command: every command answers a next state in every state, leaves the queue of commands as it
is, and changes nothing of the part but what `Views.ofCommand` names for it. No row of the operation table stops the part: an
event that cannot occur changes nothing, which is the model's choice (assumption 1). -/
def Obligations.CommandFrame : Prop :=
  ∀ (c : Instr) (s : State), ∃ t, exec c s = .next t ∧ t.pending = s.pending ∧
    s.part.ChangesOnly (Views.ofCommand c) t.part

/-- Non-volatile memory changes only where a write of it ends, or where the power fails. -/
def Obligations.NvChangesOnlyAtWriteEnds : Prop :=
  ∀ (c : Instr) (s t : State), exec c s = .next t → t.part.nv ≠ s.part.nv →
    (∃ v, c = .historyWriteAttemptEnd v) ∨ (∃ r, c = .counterWriteEnd r) ∨ (∃ r, c = .settingsWriteEnd r) ∨
      c = .powerLoss

/-- R161, R173, R175: service mode begins only where the counter write of the check outstanding is verified. BUSY clears
only where the load of a sequence is complete, and becomes set only where the reset input is asserted, a restart is
written, or the power fails. A restart is written by a write of CONTROL's upper half that makes a whole value with RESTART 1,
with the held lower half or with CONTROL's own (R149); that each of the three rows of that write is the whole write is the
model's choice (assumption 16). -/
def Obligations.ModesChangeOnlyWhereRuled : Prop :=
  ∀ (c : Instr) (s t : State), exec c s = .next t →
    (s.part.ps.serviceMode = false → t.part.ps.serviceMode = true →
      c = .counterWriteEnd .equal ∧ s.part.ps.checkOutstanding.isSome = true ∧
        ∃ value second, s.part.hs.saver = .counter value second ∧ t.part.hs.counter = value) ∧
    (s.part.busy = true → t.part.busy = false → c = .loadComplete) ∧
    (s.part.busy = false → t.part.busy = true →
      c = .resetAsserted ∨ c = .powerLoss ∨
        ∃ u : Half, (c = .controlByteOrder u ∨ c = .controlMaskPolarity u ∨ c = .restart u) ∧
          (u ++ (match s.part.port.heldLower with
            | some lower => lower
            | none => (s.part.readRegister .control).setWidth 16)).getLsbD 0 = true)

/-- R139: reads of the undecoded region give 0, and writes there do nothing at all; while BUSY is shown every read but
one of STATUS gives 0 and every write is dropped without a trace; STATUS reads its current value at every moment. A
register is read in halves, the lower half at its address and the upper half two above (R137, R177). -/
def Obligations.UndecodedAndBusyAccesses : Prop :=
  (∀ (p : Part) (w : BitVec 11), 0xF00 ≤ 2 * w.toNat → 2 * w.toNat < 0xFF0 → p.readWord w = (0, 0)) ∧
  (∀ (s : State) (w : BitVec 11) (x y : Byte), s.part.Quiet → 0xF00 ≤ 2 * w.toNat → 2 * w.toNat < 0xFF0 →
    exec (.boardWrite w x y) s = .next s) ∧
  (∀ p : Part, p.readRegister .status = p.statusValue) ∧
  (∀ (p : Part) (r : Register) (base : Nat),
    (r, base) ∈ [(.id, 0xFF0), (.control, 0xFF4), (.notice, 0xFF8), (.status, 0xFFC)] →
    p.halfAt base = (p.readRegister r).extractLsb' 0 16 ∧
      p.halfAt (base + 2) = (p.readRegister r).extractLsb' 16 16) ∧
  ∀ s : State, s.part.busy = true →
    (∀ w : BitVec 11, 2 * w.toNat < 0xFFC → s.part.readWord w = (0, 0)) ∧
    (∀ r, r ≠ .status → s.part.readRegister r = 0) ∧
    (∀ c k, exec (.cellArrival c k) s = .next s ∧ exec (.cellWithdrawal c k) s = .next s ∧
      exec (.cellGiveBack c k) s = .next s) ∧
    (∀ b f, exec (.bankArrival b f) s = .next s ∧ exec (.bankReopen b f) s = .next s) ∧
    (∀ w x y, exec (.boardWrite w x y) s = .next s) ∧
    (∀ v, exec (.noticeClear v) s = .next s ∧ exec (.controlLowerHalfWrite v) s = .next s) ∧
    (∀ v, exec (.controlByteOrder v) s = .next s ∧ exec (.controlMaskPolarity v) s = .next s ∧
      exec (.restart v) s = .next s) ∧
    ∀ h v, exec (.registerWriteOther h v) s = .next s

/-! ## Bays -/

/-- R1, R18, R25: CONTACT_CLOSES and CONTACT_OPENS in each presence state, the part awake and no sequence in progress. A
contact that returns within the removal time changes nothing but the bay's contact and presence, unless the engine holds an
outcome for the bay. That outcome is handed over at this moment: an IDENTIFY's moves its slot on to DERIVE, a CHALLENGE's to
CHECK, a failure counts an attempt of a bring-up, an ADVANCE_TALLY that is accepted with the tally it should give leads to a
RECEIPT_CHECK while the hold waits, and one without an answer leaves its units in doubt and counts a link failure. -/
def Obligations.ContactsMoveTheBay : Prop :=
  ∀ (b : Slot) (s : State), s.part.Normal →
    ((s.part.bay b).contactClosed = false → (s.part.bay b).presence = .absent → (s.part.slot b).state = .empty →
      Completes (.contactCloses b) s (.ofCommand (.contactCloses b)) fun q =>
        (q.bay b).contactClosed = true ∧ (q.bay b).presence = .settling ∧ (q.bay b).timer = .settle ∧
          q.slot b = { s.part.slot b with state := .settling } ∧ q.noticePending .slot = true) ∧
    ((s.part.bay b).contactClosed = false → (s.part.bay b).presence = .leaving → s.part.link b = .none → s.part.Quiet →
      Completes (.contactCloses b) s (.and (.only (.contact b)) (.only (.presence b))) fun q =>
        (q.bay b).contactClosed = true ∧ (q.bay b).presence = .present ∧ (q.bay b).timer = .stopped) ∧
    (∀ h o, (s.part.bay b).contactClosed = false → (s.part.bay b).presence = .leaving → s.part.link b = .held h →
      h.phase = .outcomeHeld o → h.deferred = none →
      (h.commit = false → o.isFailure = true →
        (s.part.slot b).state = .identify ∨ (s.part.slot b).state = .challenge →
        Completes (.contactCloses b) s (.ofCommand (.contactCloses b)) fun q =>
          (q.bay b).presence = .present ∧ (q.slot b).attempts = (s.part.slot b).attempts + 1 ∧
          ((s.part.slot b).attempts < 2 → q.slot b =
            { s.part.slot b with attempts := (s.part.slot b).attempts + 1, timer := .retry }) ∧
          (2 ≤ (s.part.slot b).attempts →
            (q.slot b).state = .rejected ∧ (q.slot b).verdict = some .unreadable)) ∧
      (∀ id, h.commit = false → o = .identified id → (s.part.slot b).state = .identify →
        Completes (.contactCloses b) s (.ofCommand (.contactCloses b)) fun q =>
          (q.bay b).presence = .present ∧
          q.slot b = { s.part.slot b with identity := some id, attempts := 0, state := .derive } ∧
          q.DigestWaits (.slot b) (.derive (keyGeneration id.batch) id.serial id.batch)) ∧
      (∀ r key nonce id, h.commit = false → o = .challenged r → (s.part.slot b).state = .challenge →
        (s.part.slot b).key = some key → (s.part.slot b).nonce = some nonce → (s.part.slot b).identity = some id →
        Completes (.contactCloses b) s (.ofCommand (.contactCloses b)) fun q =>
          (q.bay b).presence = .present ∧ q.slot b = { s.part.slot b with response := some r, state := .check } ∧
          q.DigestWaits (.slot b) (.challengeCheck key nonce id.serial id.tally r)) ∧
      (∀ a tally receipt key nonce, h.commit = true → o = .advanced tally receipt →
        (s.part.commit b).unsettled = some a → tally = s.part.committedTally b + a.units →
        (s.part.slot b).key = some key → (s.part.slot b).nonce = some nonce → s.part.hs.foldAtWrite = false →
        Completes (.contactCloses b) s (.ofCommand (.contactCloses b)) fun q =>
          (q.bay b).presence = .present ∧ q.link b = .held { h with phase := .awaitingReceipt } ∧
          q.commit b = s.part.commit b ∧
          q.DigestWaits (.slot b) (.receiptCheck key nonce a.count tally receipt)) ∧
      (∀ a n, h.commit = true → h.op = .advance n → o = .noResponse ∨ o = .checkError ∨ o = .malformed →
        (s.part.commit b).unsettled = some a → (s.part.slot b).state = .inService → s.part.hs.foldAtWrite = false →
        Completes (.contactCloses b) s (.ofCommand (.contactCloses b)) fun q =>
          (q.bay b).presence = .present ∧ (q.commit b).unsettled = none ∧ (q.commit b).inDoubt = a.units ∧
          (q.commit b).uncommitted = (s.part.commit b).uncommitted ∧
          (q.slot b).linkFailures = (s.part.slot b).linkFailures + 1)) ∧
    ((s.part.bay b).contactClosed = true → (s.part.bay b).presence = .settling → (s.part.slot b).state = .settling →
      Completes (.contactOpens b) s (.ofCommand (.contactOpens b)) fun q =>
        (q.bay b).contactClosed = false ∧ (q.bay b).presence = .absent ∧ (q.bay b).timer = .stopped ∧
          q.slot b = { s.part.slot b with state := .empty } ∧ q.noticePending .slot = true) ∧
    ((s.part.bay b).contactClosed = true → (s.part.bay b).presence = .present → s.part.Quiet →
      Completes (.contactOpens b) s (.and (.only (.contact b)) (.only (.presence b))) fun q =>
        (q.bay b).contactClosed = false ∧ (q.bay b).presence = .leaving ∧ (q.bay b).timer = .removal)

/-- R1, R3, R5, R25: the settle timer's end: the bay becomes PRESENT with its gap counting, and its SETTLING slot becomes
IDENTIFY with no attempt counted and joins the bring-up class for an IDENTIFY. -/
def Obligations.SettleBeginsBringUp : Prop :=
  ∀ (b : Slot) (s : State), s.part.Normal → (s.part.bay b).presence = .settling → (s.part.bay b).timer = .settle →
    (s.part.slot b).state = .settling → s.part.link b = .none → s.part.Unlisted b →
    Completes (.settleTimerExpiry b) s (.ofCommand (.settleTimerExpiry b)) fun q =>
      (q.bay b).presence = .present ∧ (q.bay b).timer = .stopped ∧ (q.bay b).gap = .counting ∧
        q.slot b = { s.part.slot b with state := .identify, attempts := 0 } ∧ q.Joined b .identify

/-- R1, R19, R36, R44, R54, R118: the removal timer's end: the bay becomes ABSENT and every block's values of the slot
become those of EMPTY: its link state is NONE and it stands on no wait list, and none of its digest operations is left. A
slot whose history applies (in the in-service group, or rejected with a history link) leaves its volumes, its uncommitted
volume and its units in doubt in its entry, which is dirty; an ADVANCE_TALLY that was sent and is cut off becomes its units in
doubt (R130). R106: the channel that drew from the slot re-selects among the other slots of its feed, every other channel keeps
its source. A REVERIFY parked with the slot completes ABORTED_REMOVED (R44), and so does a COMMIT_NOW for the slot alone, with
the slot marked removed (R134). No rule names the LINK_LOST flag, the commit count or the kept tally T_r at EMPTY: that the flag is
clear is the model's inference (assumption 28), and that the count is 0 (assumption 64) and T_r absent (assumption 61) is its
choice. -/
def Obligations.RemovalEmptiesTheSlot : Prop :=
  ∀ (b : Slot) (s : State), s.part.Normal → (s.part.bay b).presence = .leaving → (s.part.bay b).timer = .removal →
    Completes (.removalTimerExpiry b) s (.ofCommand (.removalTimerExpiry b)) fun q =>
      (q.bay b).presence = .absent ∧ (q.bay b).timer = .stopped ∧ q.slot b = SlotRow.blank ∧
      q.volumes b = Volumes.blank ∧ (q.commit b).uncommitted = 0 ∧ (q.commit b).inDoubt = 0 ∧
      (q.commit b).unsettled = none ∧ (q.commit b).tallyFull = false ∧ (q.commit b).holders = [] ∧
      (q.commit b).linkLost = false ∧ (q.commit b).count = 0 ∧
      (∀ e ∈ q.dg.queue ++ q.dg.behind, e.owner ≠ .slot b) ∧
      (s.part.ListedAs b → q.link b = .none ∧ q.Unlisted b) ∧
      (∀ (k : Fin 64) (e : Entry), (s.part.slot b).keepsHistory = true → s.part.linkedPlace b = some k →
        (s.part.place k).entry = some e → s.part.hs.foldAtWrite = false →
        ((s.part.commit b).unsettled = none → q.place k = ⟨some (s.part.foldInto b e), true⟩) ∧
        ∀ a h, (s.part.commit b).unsettled = some a → s.part.link b = .held h →
          q.place k = ⟨some { s.part.foldInto b e with inDoubt := a.units }, true⟩) ∧
      (∀ c, (s.part.channel c).active = some b → s.part.channelOf b = some c →
        (q.channel c).active =
          (((s.part.channel c).feed.primary.toList ++ (s.part.channel c).feed.secondary.toList).find?
              fun i => i != b && s.part.qualifies i).or
            (((s.part.channel c).feed.primary.toList ++ (s.part.channel c).feed.secondary.toList).find?
              fun i => i != b && s.part.presentForChannel i)) ∧
      (∀ c, (s.part.channel c).active ≠ some b → (q.channel c).active = (s.part.channel c).active) ∧
      ∀ cell, Memory.wf s.part.board = true → (∀ r ∈ s.part.hs.settingsQueue, r.cell ≠ cell) →
        ((s.part.slot b).parkedCell = some cell → (∀ i, cell ∉ (s.part.commit i).holders) →
          ∃ m, q.Answered cell .abortedRemoved m) ∧
        ∀ causes, (s.part.slot b).parkedCell ≠ some cell → ⟨cell, .commitNow (some b) causes⟩ ∈ s.part.rq.parked →
          (∀ x ∈ s.part.rq.parked, x.cell = cell → x.work = .commitNow (some b) causes) →
          (∀ i, cell ∈ (s.part.commit i).holders ↔ i = b) →
          (∃ m, q.Answered cell .abortedRemoved m) ∧ q.argumentByte cell b.val = 4

/-- R2, R141, R171: what wakes the part from SLEEP: a presence transition always, by a contact or at the end of the settle or
the removal time, a cell arrival when requests are in the wake set, a bank arrival when bands are. The wake empties the wake
set; without it the part stays asleep with its wake set, and the arrival is recorded all the same. -/
def Obligations.WakingFromSleep : Prop :=
  ∀ s : State, s.part.asleep = true → s.part.busy = false →
    (∀ b, (s.part.bay b).contactClosed = false →
      (s.part.bay b).presence = .absent ∨ (s.part.bay b).presence = .leaving →
      Completes (.contactCloses b) s (.ofCommand (.contactCloses b)) fun q =>
        q.ps.power = .run ∧ q.ps.wakeRequests = false ∧ q.ps.wakeBands = false) ∧
    (∀ b, (s.part.bay b).contactClosed = true →
      (s.part.bay b).presence = .settling ∨ (s.part.bay b).presence = .present →
      Completes (.contactOpens b) s (.ofCommand (.contactOpens b)) fun q =>
        q.ps.power = .run ∧ q.ps.wakeRequests = false ∧ q.ps.wakeBands = false) ∧
    (∀ b c, c = .settleTimerExpiry b ∧ (s.part.bay b).presence = .settling ∧ (s.part.bay b).timer = .settle ∨
        c = .removalTimerExpiry b ∧ (s.part.bay b).presence = .leaving ∧ (s.part.bay b).timer = .removal →
      Completes c s (.ofCommand c) fun q =>
        q.ps.power = .run ∧ q.ps.wakeRequests = false ∧ q.ps.wakeBands = false) ∧
    (∀ c k, s.part.cellState c = .free ∨ s.part.cellState c = .done →
      Completes (.cellArrival c k) s (.ofCommand (.cellArrival c k)) fun q =>
        q.rq.posted = s.part.rq.posted ++ [c] ∧
        (s.part.ps.wakeRequests = true →
          q.ps.power = .run ∧ q.ps.wakeRequests = false ∧ q.ps.wakeBands = false) ∧
        (s.part.ps.wakeRequests = false → q.ps = s.part.ps)) ∧
    ∀ k f, s.part.bankState k = .opened ∨ s.part.bankState k = .accounted →
      Completes (.bankArrival k f) s (.ofCommand (.bankArrival k f)) fun q =>
        q.au.chargeList = s.part.au.chargeList ++ [.bank k] ∧
        (s.part.ps.wakeBands = true →
          q.ps.power = .run ∧ q.ps.wakeRequests = false ∧ q.ps.wakeBands = false) ∧
        (s.part.ps.wakeBands = false → q.ps = s.part.ps)

/-! ## The bay link -/

/-- R12, R13, R127: the start of an operation's command frame. Of an ADVANCE_TALLY the units become unsettled with the
commit count they carry, the commit count increments by one, and the hold's frames are counted; any other operation
changes nothing but the link state. The supply is not low and no sequence is in progress (R20, R22). That an ADVANCE_TALLY
which was asked for starts with a deferred join recorded since, or in a slot that no longer allows commits, is the model's
choice (assumption 53). -/
def Obligations.OperationStarts : Prop :=
  ∀ (b : Slot) (s : State) (h : Hold), s.part.link b = .held h → h.phase = .ready → s.part.lineOn b = true →
    (s.part.bay b).gap = .counting → s.part.ps.supplyLow = false → s.part.busy = false → s.part.Quiet →
    (∀ n, h.op = .advance n →
      Completes (.linkOperationStart b) s (.ofCommand (.linkOperationStart b)) fun q =>
        q.link b = .held { h with phase := .sending (h.op.frame (s.part.commit b).count), frames := h.frames + 1 } ∧
          (q.commit b).unsettled = some ⟨n, (s.part.commit b).count⟩ ∧
          (q.commit b).count = (s.part.commit b).count + 1) ∧
    ((∀ n, h.op ≠ .advance n) →
      Completes (.linkOperationStart b) s (.only (.link b)) fun q =>
        q.link b = .held { h with phase := .sending (h.op.frame (s.part.commit b).count) })

/-- R5, R7: the phases of an operation in flight: the end of the command frame, the start of the response, the status and
length bytes of a response that may go on; and the line found high. Nothing else changes. A response comes on a line that
is on: on one that is off no command that receives changes anything (R3). -/
def Obligations.ReceptionAdvances : Prop :=
  ∀ (b : Slot) (s : State), s.part.Quiet →
    (∀ h frame, s.part.link b = .held h → h.phase = .sending frame →
      Completes (.commandFrameEnd b) s (.only (.link b)) fun q => q.link b = .held { h with phase := .awaiting }) ∧
    (∀ h, s.part.link b = .held h → h.phase = .awaiting → s.part.lineOn b = true →
      Completes (.responseStartSeen b) s (.only (.link b)) fun q => q.link b = .held { h with phase := .receiving }) ∧
    (∀ h status length low, s.part.link b = .held h → h.phase = .receiving → s.part.lineOn b = true →
      h.op.headerOk status length = true →
      Completes (.statusLengthReceived b status length low) s (.only (.link b)) fun q =>
        q.link b = .held { h with phase := .payload status length }) ∧
    ((s.part.bay b).gap = .heldLow →
      Completes (.lineFoundHigh b) s (.only (.gap b)) fun q => (q.bay b).gap = .counting) ∧
    (s.part.lineOn b = false → ∀ status length crc payload low, exec (.responseStartSeen b) s = .next s ∧
      exec (.statusLengthReceived b status length low) s = .next s ∧ exec (.identify b payload crc low) s = .next s ∧
      exec (.challenge b payload crc low) s = .next s ∧ exec (.readTally b payload crc low) s = .next s ∧
      exec (.advanceTally b payload crc low) s = .next s)

/-- R5, R7, R8, R13, R27, R39, R40: an operation of a bring-up or of a reverify that fails is a failed attempt: one that ends in
NO_RESPONSE or MALFORMED without a complete response (LINK_GAP_TIMEOUT, RESPONSE_TIMEOUT, RESPONSE_BYTE_TIMEOUT,
STATUS_LENGTH_RECEIVED), and one whose complete response is a CHECK_ERROR, REFUSED or MALFORMED. Below three the retry timer
starts. At the third a bring-up's slot is REJECTED as UNREADABLE, and a reverify's slot is LINK_LOST with the reverify open, its
stage and candidate nonce kept and its probe timer running. A REVERIFY that is parked with the slot then completes
LINK_FAILED. The gap is counted from the end of the frame, unless the line is still driven low. -/
def Obligations.FailedOperationCountsAnAttempt : Prop :=
  ∀ (b : Slot) (low : Bool) (s : State) (h : Hold) (c : Instr) (o : LinkOutcome), s.part.Normal →
    s.part.HoldsSingle b h →
    (s.part.slot b).state = .identify ∨ (s.part.slot b).state = .challenge ∨ (s.part.slot b).state = .reverify →
    EndsOperation b low h c o ∨ EndsResponse b low h c o → o.isFailure = true →
    Completes c s (.ofCommand c) fun q =>
      (q.bay b).gap = (if low = true then .heldLow else .counting) ∧
      (q.slot b).attempts = (s.part.slot b).attempts + 1 ∧
      ((s.part.slot b).attempts < 2 → q.slot b =
        { s.part.slot b with attempts := (s.part.slot b).attempts + 1, timer := .retry }) ∧
      (2 ≤ (s.part.slot b).attempts →
        ((s.part.slot b).state ≠ .reverify → (q.slot b).state = .rejected ∧ (q.slot b).verdict = some .unreadable ∧
          (q.slot b).timer = .stopped ∧ (q.slot b).parkedCell = none ∧ q.noticePending .slot = true ∧
          q.noticePending .verdict = true) ∧
        ((s.part.slot b).state = .reverify →
          q.slot b = { s.part.slot b with attempts := (s.part.slot b).attempts + 1, state := .linkLost,
                                          reverifyOpen := true, timer := .probe, parkedCell := none } ∧
          (q.commit b).linkLost = true ∧ q.noticePending .slot = true) ∧
        ∀ cell, (s.part.slot b).parkedCell = some cell → Memory.wf s.part.board = true → s.part.Loose cell →
          ∃ m, q.Answered cell .linkFailed m)

/-- R18: while the bay is LEAVING the engine holds the outcome of an operation that ends, whatever the outcome is, and
nothing but the link state and the gap changes. The part is not in SLEEP, where the line is off and an operation has been cut
off (R3, R21). -/
def Obligations.OutcomeHeldWhileLeaving : Prop :=
  ∀ (b : Slot) (low : Bool) (s : State) (h : Hold) (c : Instr) (o : LinkOutcome), s.part.Quiet →
    s.part.link b = .held h → (s.part.bay b).presence = .leaving → s.part.asleep = false →
    EndsOperation b low h c o ∨ EndsResponse b low h c o →
    Completes c s (.and (.only (.link b)) (.only (.gap b))) fun q =>
      q.link b = .held { h with phase := .outcomeHeld o } ∧
      (q.bay b).gap = (if (o.isFailure && low) = true then .heldLow else .counting)

/-- R26, R29, R39, R43, R123, R126: a successful IDENTIFY, CHALLENGE or READ_TALLY of a single hold moves the slot on, in a
bring-up, a reverify or a link-lost probe: its values are kept, and the link or digest operation that follows is asked for. A
failed probe starts the probe timer again. A probe's READ_TALLY without a reverify open settles the tally and returns the slot
to service, and so does the READ_TALLY that opens a commit hold settle the units in doubt, after which the hold goes on with
an ADVANCE_TALLY if the slot is commit-due. The model's choices: the attempt count is 0 where a READ_TALLY probe resumes a
reverify (assumption 60), which it does at whatever stage stands (assumption 41), and a T_r that stands is kept but for the
tally just read (assumption 61). -/
def Obligations.ResponsesMoveTheSlotOn : Prop :=
  (∀ (b : Slot) (low : Bool) (s : State) (h : Hold) (c : Instr) (o : LinkOutcome), s.part.Normal →
    s.part.HoldsSingle b h → (s.part.slot b).state = .linkLost →
    EndsOperation b low h c o ∨ EndsResponse b low h c o → o.isFailure = true →
    Completes c s (.ofCommand c) fun q => q.slot b = { s.part.slot b with timer := .probe }) ∧
  (∀ (b : Slot) (low : Bool) (s : State) (h : Hold) (status length crc : Byte) (payload : List Byte), s.part.Normal →
    s.part.HoldsSingle b h → h.phase = .payload status length → payload.length = length.toNat →
    (∀ id, h.op = .identify → (s.part.slot b).state = .identify →
      h.op.judge status length payload crc = .identified id →
      Completes (.identify b payload crc low) s (.ofCommand (.identify b payload crc low)) fun q =>
        q.slot b = { s.part.slot b with identity := some id, attempts := 0, state := .derive } ∧
          q.DigestWaits (.slot b) (.derive (keyGeneration id.batch) id.serial id.batch)) ∧
    (∀ nonce key r id, h.op = .challenge nonce → (s.part.slot b).state = .challenge →
      (s.part.slot b).key = some key → (s.part.slot b).nonce = some nonce → (s.part.slot b).identity = some id →
      h.op.judge status length payload crc = .challenged r →
      Completes (.challenge b payload crc low) s (.ofCommand (.challenge b payload crc low)) fun q =>
        q.slot b = { s.part.slot b with response := some r, state := .check } ∧
          q.DigestWaits (.slot b) (.challengeCheck key nonce id.serial id.tally r)) ∧
    (∀ nonce r, h.op = .challenge nonce → (s.part.slot b).state = .reverify → s.part.Unlisted b →
      h.op.judge status length payload crc = .challenged r →
      Completes (.challenge b payload crc low) s (.ofCommand (.challenge b payload crc low)) fun q =>
        q.slot b = { s.part.slot b with nonce := (s.part.slot b).candidate, candidate := none, response := some r,
                                        stage := .readTally, attempts := 0 } ∧
          (q.commit b).count = 0 ∧ q.Joined b .readTally) ∧
    (∀ nonce r, h.op = .challenge nonce → (s.part.slot b).state = .linkLost → s.part.Unlisted b →
      h.op.judge status length payload crc = .challenged r →
      Completes (.challenge b payload crc low) s (.ofCommand (.challenge b payload crc low)) fun q =>
        q.slot b = { s.part.slot b with state := .reverify, reverifyOpen := false, timer := .stopped,
                                        nonce := (s.part.slot b).candidate, candidate := none, response := some r,
                                        stage := .readTally, attempts := 0 } ∧
          (q.commit b).count = 0 ∧ q.Joined b .readTally) ∧
    (∀ tally key nonce id r, h.op = .readTally →
      (s.part.slot b).key = some key → (s.part.slot b).nonce = some nonce → (s.part.slot b).identity = some id →
      (s.part.slot b).response = some r → h.op.judge status length payload crc = .tallyRead tally →
      ((s.part.slot b).state = .reverify →
        Completes (.readTally b payload crc low) s (.ofCommand (.readTally b payload crc low)) fun q =>
          q.slot b = { s.part.slot b with reverifyTally := some tally, stage := .check } ∧
            q.DigestWaits (.slot b) (.challengeCheck key nonce id.serial tally r)) ∧
      ((s.part.slot b).state = .linkLost → (s.part.slot b).reverifyOpen = true →
        Completes (.readTally b payload crc low) s (.ofCommand (.readTally b payload crc low)) fun q =>
          q.slot b = { s.part.slot b with state := .reverify, reverifyOpen := false, timer := .stopped, attempts := 0,
                                          reverifyTally := some tally, stage := .check } ∧
            q.DigestWaits (.slot b) (.challengeCheck key nonce id.serial tally r))) ∧
    (∀ tally, h.op = .readTally → (s.part.slot b).state = .linkLost → (s.part.slot b).reverifyOpen = false →
      s.part.hs.foldAtWrite = false → h.op.judge status length payload crc = .tallyRead tally →
      Completes (.readTally b payload crc low) s (.ofCommand (.readTally b payload crc low)) fun q =>
        s.part.TallySettled q b tally ∧ (q.slot b).state = .inService ∧ (q.slot b).timer = .stopped ∧
          (q.slot b).stage = .none ∧ (q.slot b).linkFailures = 0 ∧ (q.commit b).linkLost = false)) ∧
  ∀ (b : Slot) (low : Bool) (s : State) (h : Hold) (status length crc : Byte) (payload : List Byte) (tally : Nat),
    s.part.Normal → s.part.link b = .held h → h.commit = true → h.op = .readTally →
    (s.part.bay b).presence = .present → h.phase = .payload status length → payload.length = length.toNat →
    h.op.judge status length payload crc = .tallyRead tally → (s.part.commit b).inDoubt ≠ 0 →
    s.part.hs.foldAtWrite = false →
    Completes (.readTally b payload crc low) s (.ofCommand (.readTally b payload crc low)) fun q =>
      s.part.TallySettled q b tally ∧ (q.slot b).linkFailures = 0 ∧
      (h.frames = 0 → h.deferred = none → s.part.ps.supplyLow = false → q.commitDue b = true →
        q.link b = .held { h with op := .advance (q.advanceSize b), phase := .ready })

/-- R128, R131: the answer to an ADVANCE_TALLY: ACCEPTED with the tally it should give leads to a RECEIPT_CHECK while the
hold waits; ACCEPTED with another tally escalates a NEW, USED or RESUMED slot to REGRESSED; TALLY_FULL sets that flag in
the slot and in its history entry. The part is not in SLEEP, where no response is received (R3). -/
def Obligations.AdvanceAnswered : Prop :=
  ∀ (b : Slot) (low : Bool) (s : State) (h : Hold) (status length crc : Byte) (payload : List Byte) (a : Advance) (n : Nat),
    s.part.link b = .held h → h.commit = true → (s.part.bay b).presence = .present → s.part.asleep = false →
    h.op = .advance n → h.phase = .payload status length → payload.length = length.toNat → (s.part.commit b).unsettled = some a →
    s.part.hs.foldAtWrite = false →
    (∀ tally receipt key nonce, h.op.judge status length payload crc = .advanced tally receipt →
      tally = s.part.committedTally b + a.units → (s.part.slot b).key = some key → (s.part.slot b).nonce = some nonce →
      Completes (.advanceTally b payload crc low) s (.ofCommand (.advanceTally b payload crc low)) fun q =>
        q.link b = .held { h with phase := .awaitingReceipt } ∧ q.commit b = s.part.commit b ∧
          q.DigestWaits (.slot b) (.receiptCheck key nonce a.count tally receipt)) ∧
    (∀ tally receipt now, h.op.judge status length payload crc = .advanced tally receipt →
      tally ≠ s.part.committedTally b + a.units → (s.part.slot b).verdict = some now → now.class = .tracked →
      Completes (.advanceTally b payload crc low) s (.ofCommand (.advanceTally b payload crc low)) fun q =>
        (q.commit b).unsettled = none ∧ (q.slot b).verdict = some .regressed ∧
          (q.slot b).state = (s.part.slot b).state ∧ (q.commit b).uncommitted = (s.part.commit b).uncommitted ∧
          q.noticePending .verdict = true) ∧
    (h.op.judge status length payload crc = .tallyFull →
      Completes (.advanceTally b payload crc low) s (.ofCommand (.advanceTally b payload crc low)) fun q =>
        (q.commit b).unsettled = none ∧ (q.commit b).tallyFull = true ∧
          (q.commit b).uncommitted = (s.part.commit b).uncommitted ∧ q.noticePending .slot = true ∧
          ∀ k e, s.part.linkedPlace b = some k → (s.part.place k).entry = some e →
            (q.place k).entry = some { e with tallyFull := true })

/-- R42, R122, R129: an operation of a commit hold that fails, without a complete response or with one. A sent ADVANCE_TALLY
leaves its units in doubt, in the slot and in its history entry, unless it was REFUSED, which leaves the units in doubt as they
were; so does a failed READ_TALLY. The uncommitted volume stays, and so do the committed tally and every other field of the
entry. One link failure of an IN_SERVICE slot is counted; at the third the slot is LINK_LOST and its probe timer runs. A slot
in another state counts none. -/
def Obligations.UnansweredAdvanceIsInDoubt : Prop :=
  ∀ (b : Slot) (low : Bool) (s : State) (h : Hold) (c : Instr) (o : LinkOutcome),
    s.part.link b = .held h → h.commit = true → (s.part.bay b).presence = .present →
    EndsOperation b low h c o ∨ EndsResponse b low h c o → o.isFailure = true →
    c = .responseTimeout b low ∨ s.part.asleep = false → s.part.hs.foldAtWrite = false →
    Completes c s (.ofCommand c) fun q =>
      (∀ n a, h.op = .advance n → h.phase ≠ .ready → (s.part.commit b).unsettled = some a →
        (q.commit b).unsettled = none ∧
        (o ≠ .refused → (q.commit b).inDoubt = a.units ∧
          ∀ k e, s.part.linkedPlace b = some k → (s.part.place k).entry = some e →
            (q.place k).entry = some { e with inDoubt := a.units } ∧ (q.place k).dirty = true) ∧
        (o = .refused → (q.commit b).inDoubt = (s.part.commit b).inDoubt ∧ ∀ k, q.place k = s.part.place k)) ∧
      (h.op = .readTally → (s.part.commit b).unsettled = none →
        (q.commit b).inDoubt = (s.part.commit b).inDoubt ∧ ∀ k, q.place k = s.part.place k) ∧
      (q.commit b).uncommitted = (s.part.commit b).uncommitted ∧
      ((s.part.slot b).state = .inService →
        (q.slot b).linkFailures = (s.part.slot b).linkFailures + 1 ∧
        ((s.part.slot b).linkFailures < 2 → (q.slot b).state = .inService) ∧
        (2 ≤ (s.part.slot b).linkFailures → (q.slot b).state = .linkLost ∧ (q.slot b).timer = .probe ∧
          (q.commit b).linkLost = true)) ∧
      ((s.part.slot b).state ≠ .inService → q.slot b = s.part.slot b)

/-- R27, R43: the retry timer's end joins the slot again for the operation it was trying, the probe timer's end joins a
LINK_LOST slot for its probe; the timer stops. -/
def Obligations.SlotTimersJoin : Prop :=
  ∀ (i : Slot) (s : State), s.part.busy = false → s.part.link i = .none → s.part.Unlisted i →
    (∀ op, (s.part.slot i).timer = .retry → (s.part.slot i).triedOperation = some op →
      Completes (.retryTimerExpiry i) s (.ofCommand (.retryTimerExpiry i)) fun q =>
        q.slot i = { s.part.slot i with timer := .stopped } ∧ q.Joined i op) ∧
    ((s.part.slot i).timer = .probe → (s.part.slot i).state = .linkLost →
      Completes (.probeTimerExpiry i) s (.ofCommand (.probeTimerExpiry i)) fun q =>
        q.slot i = { s.part.slot i with timer := .stopped } ∧ q.Joined i (s.part.slot i).probeOperation)

/-- R6: a CRC register that takes in the CRC of the bytes before it ends at 0, and a frame body of the two bytes 0x01 0x00
has a CRC of 0x15. -/
def Obligations.CrcChecks : Prop :=
  (∀ bytes : List Byte, crc8 (bytes ++ [crc8 bytes]) = 0) ∧ crc8 [0x01, 0x00] = 0x15

/-! ## The digest engine -/

/-- R28, R29, R34, R37: a DERIVE completes: the slot keeps its cartridge key, draws a fresh nonce, becomes CHALLENGE with
no attempt counted and a commit count of 0, and joins the bring-up class for a CHALLENGE with that nonce. -/
def Obligations.DeriveLeadsToChallenge : Prop :=
  ∀ (i : Slot) (s : State) (generation : Fin 4) (serial : Quad) (batch : Half),
    s.part.digestHead = some ⟨.slot i, .derive generation serial batch⟩ → (s.part.slot i).state = .derive →
    s.part.busy = false → s.part.link i = .none → s.part.Unlisted i →
    Completes .derive s (.ofCommand .derive) fun q =>
      q.slot i = { s.part.slot i with key := some (cartridgeKey generation serial batch),
                                      nonce := some s.part.freshNonce, attempts := 0, state := .challenge } ∧
      (q.commit i).count = 0 ∧ q.free.nonces = s.part.free.nonces + 1 ∧ q.Joined i (.challenge s.part.freshNonce)

/-- R30, R31, R40, R49, R63 to R70, R76: a CHALLENGE_CHECK completes. In a bring-up a mismatch, an unknown volume class or a
wrong ink rejects the slot with all its volumes 0 and leaves the history as it is. Else a serial that another slot's identity
carries gives CLONE, to both slots; an entry with a sticky verdict gives that verdict; any other entry gives REGRESSED, USED,
DEPLETED or RESUMED as the tallies compare, or REFILLED past the margin; and a serial never seen gives NEW, USED, REFILLED or
DEPLETED with the volumes that the identify tally leaves and takes a place, by eviction if none is free. In a reverify a
mismatch makes the slot COUNTERFEIT, and a match settles its tally and returns it to service; a REVERIFY that is parked with
it completes OK with the verdict and the tally. That a CLONE takes the carried volume also of an entry that another slot holds,
as R65 says, R70's exception notwithstanding, is the model's choice (assumption 63). -/
def Obligations.ChallengeCheckDecides : Prop :=
  (∀ (i : Slot) (s : State) (key nonce serial response : Quad) (tally : Nat) (id : Identity) (n : Nat),
    s.part.digestHead = some ⟨.slot i, .challengeCheck key nonce serial tally response⟩ →
    (s.part.slot i).state = .check → (s.part.slot i).identity = some id → s.part.hs.foldAtWrite = false →
    n = satAdd max32 s.part.hs.sightings 1 →
    (∀ v, (challengeMatches key nonce serial tally response = false ∧ v = .counterfeit ∨
        challengeMatches key nonce serial tally response = true ∧ knownClass id.volumeClass = false ∧ v = .unknownType ∨
        challengeMatches key nonce serial tally response = true ∧ knownClass id.volumeClass = true ∧
          s.part.wrongInk i id.ink = true ∧ v = .wrongInk) →
      Completes .challengeCheck s (.ofCommand .challengeCheck) fun q =>
        (q.slot i).state = .rejected ∧ (q.slot i).verdict = some v ∧ (q.slot i).historyLink = false ∧
        q.volumes i = Volumes.blank ∧ q.noticePending .verdict = true ∧ ∀ k, q.place k = s.part.place k) ∧
    (challengeMatches key nonce serial tally response = true → knownClass id.volumeClass = true →
      s.part.wrongInk i id.ink = false →
      (s.part.heldElsewhere i id.serial = true →
        (∀ k e, s.part.findPlace id.serial = some k → (s.part.place k).entry = some e →
          Completes .challengeCheck s (.ofCommand .challengeCheck) fun q =>
            s.part.EntersWith q i k e.carried { e with verdict := .clone, carried := 0, remaining := 0, postEmpty := 0,
                                                       exhausted := false, lastSlot := i, sighting := n }) ∧
        (∀ k, s.part.findPlace id.serial = none → s.part.TakesEntry k →
          Completes .challengeCheck s (.ofCommand .challengeCheck) fun q =>
            s.part.EntersWith q i k 0 ⟨id.serial, id.ink, id.volumeClass, id.tally, 0, 0, 0, 0, .clone, false, false, i, n⟩) ∧
        ∀ j now, j ≠ i → (s.part.slot j).carries id.serial = true → (s.part.slot j).state.inServiceGroup = true →
          (s.part.slot j).verdict = some now → now.class = .tracked →
          Completes .challengeCheck s (.ofCommand .challengeCheck) fun q =>
            (q.slot j).verdict = some .clone ∧ (q.slot j).state = (s.part.slot j).state ∧
            q.volumes j = { s.part.volumes j with low := false, spent := false } ∧
            (q.commit j).uncommitted = (s.part.commit j).uncommitted) ∧
      (∀ k e, s.part.heldElsewhere i id.serial = false → s.part.findPlace id.serial = some k →
        (s.part.place k).entry = some e →
        (e.verdict.sticky = true →
          Completes .challengeCheck s (.ofCommand .challengeCheck) fun q =>
            s.part.EntersWith q i k
              (if e.inDoubt ≠ 0 ∧ id.tally = e.tally + e.inDoubt then e.carried - e.inDoubt * unitVolume else e.carried)
              { e with tally := max e.tally id.tally, inDoubt := 0, carried := 0, lastSlot := i, sighting := n }) ∧
        (e.verdict.sticky = false →
          (e.volumeClass ≠ id.volumeClass ∨ e.ink ≠ id.ink ∨
              e.inDoubt ≠ 0 ∧ id.tally ≠ e.tally ∧ id.tally ≠ e.tally + e.inDoubt ∨ e.inDoubt = 0 ∧ id.tally < e.tally →
            Completes .challengeCheck s (.ofCommand .challengeCheck) fun q =>
              s.part.EntersWith q i k e.carried
                { e with verdict := .regressed, inDoubt := 0, carried := 0, lastSlot := i, sighting := n }) ∧
          (∀ remaining, e.volumeClass = id.volumeClass → e.ink = id.ink → e.inDoubt = 0 → e.tally < id.tally →
            remaining = min e.remaining (ratedVolume id.volumeClass - id.tally * unitVolume) →
            Completes .challengeCheck s (.ofCommand .challengeCheck) fun q =>
              s.part.EntersWith q i k e.carried
                { e with verdict := if marginVolume s.part.au.margin id.volumeClass < e.postEmpty then .refilled else .used,
                         tally := id.tally, remaining := remaining, exhausted := decide (remaining = 0), carried := 0,
                         lastSlot := i, sighting := n }) ∧
          (e.volumeClass = id.volumeClass → e.ink = id.ink → id.tally = e.tally ∨
              e.inDoubt ≠ 0 ∧ id.tally = e.tally + e.inDoubt →
            Completes .challengeCheck s (.ofCommand .challengeCheck) fun q =>
              s.part.EntersWith q i k (if id.tally = e.tally then e.carried else e.carried - e.inDoubt * unitVolume)
                { e with verdict := if marginVolume s.part.au.margin id.volumeClass < e.postEmpty then .refilled
                           else if e.exhausted = true then .depleted else .resumed,
                         tally := id.tally, inDoubt := 0, carried := 0, lastSlot := i, sighting := n }))) ∧
      (s.part.heldElsewhere i id.serial = false → s.part.findPlace id.serial = none →
        Completes .challengeCheck s (.ofCommand .challengeCheck) fun q =>
          (q.slot i).state = .inService ∧ (q.slot i).historyLink = true ∧
          (q.commit i).uncommitted = 0 ∧ (q.commit i).inDoubt = 0 ∧ (q.commit i).tallyFull = false ∧
          (id.tally = 0 → (q.slot i).verdict = some .new ∧ (q.volumes i).remaining = ratedVolume id.volumeClass ∧
            (q.volumes i).postEmpty = 0 ∧ (q.volumes i).exhausted = false) ∧
          (0 < id.tally → id.tally * unitVolume < ratedVolume id.volumeClass →
            (q.slot i).verdict = some .used ∧
            (q.volumes i).remaining = ratedVolume id.volumeClass - id.tally * unitVolume ∧
            (q.volumes i).postEmpty = 0 ∧ (q.volumes i).exhausted = false) ∧
          (0 < id.tally → ratedVolume id.volumeClass ≤ id.tally * unitVolume →
            (q.volumes i).remaining = 0 ∧ (q.volumes i).postEmpty = id.tally * unitVolume - ratedVolume id.volumeClass ∧
            (q.volumes i).exhausted = true ∧
            (q.slot i).verdict = some
              (if marginVolume s.part.au.margin id.volumeClass < id.tally * unitVolume - ratedVolume id.volumeClass
                then .refilled else .depleted)) ∧
          ∀ k, s.part.TakesEntry k → ∃ v, (q.slot i).verdict = some v ∧
            s.part.EntersWith q i k 0 ⟨id.serial, id.ink, id.volumeClass, id.tally, (q.volumes i).remaining, 0, 0,
              (q.volumes i).postEmpty, v, (q.volumes i).exhausted, false, i, n⟩))) ∧
  ∀ (i : Slot) (s : State) (key nonce serial response : Quad) (tally t : Nat) (now : Verdict),
    s.part.digestHead = some ⟨.slot i, .challengeCheck key nonce serial tally response⟩ →
    (s.part.slot i).state = .reverify → (s.part.slot i).verdict = some now → now.class ≠ .rejected →
    (s.part.slot i).reverifyTally = some t → t < 65536 → s.part.hs.foldAtWrite = false →
    (challengeMatches key nonce serial tally response = false →
      Completes .challengeCheck s (.ofCommand .challengeCheck) fun q =>
        (q.slot i).state = .rejected ∧ (q.slot i).verdict = some .counterfeit ∧ (q.slot i).response = none ∧
        (q.volumes i).low = false ∧ (q.volumes i).spent = false ∧
        (q.commit i).uncommitted = (s.part.commit i).uncommitted ∧ q.noticePending .verdict = true ∧
        (∀ k, q.place k = s.part.place k) ∧
        ∀ c, (s.part.slot i).parkedCell = some c → Memory.wf s.part.board = true → s.part.Loose c →
          (∃ m, q.Answered c .ok m) ∧ (q.argumentByte c 0).toNat = verdictCode (some .counterfeit) ∧
          q.argument c 2 2 = t) ∧
    (challengeMatches key nonce serial tally response = true →
      Completes .challengeCheck s (.ofCommand .challengeCheck) fun q =>
        s.part.TallySettled q i t ∧ (q.slot i).state = .inService ∧ (q.slot i).stage = .none ∧
        (q.slot i).linkFailures = 0 ∧
        ∀ c, (s.part.slot i).parkedCell = some c → Memory.wf s.part.board = true → s.part.Loose c →
          (∃ m, q.Answered c .ok m) ∧ (q.argumentByte c 0).toNat = verdictCode (q.slot i).verdict ∧
          q.argument c 2 2 = t)

/-- R71, R72, R75, R128: the RECEIPT_CHECK of a slot's ADVANCE_TALLY completes. A match takes the units off U, settles the
operation and writes the new tally into the history entry. A mismatch settles it with the uncommitted volume, the units in doubt
and the history, and so the committed tally, as they were, and counts as a link success; it rejects a slot as COUNTERFEIT,
whether its verdict was tracked or untracked, and leaves a verdict that is rejected already as it is. -/
def Obligations.ReceiptDecides : Prop :=
  ∀ (i : Slot) (s : State) (key nonce receipt : Quad) (count : Half) (tally : Nat) (a : Advance),
    s.part.digestHead = some ⟨.slot i, .receiptCheck key nonce count tally receipt⟩ →
    (s.part.commit i).unsettled = some a → s.part.hs.foldAtWrite = false →
    (receiptMatches key nonce count tally receipt = true →
      Completes .receiptCheck s (.ofCommand .receiptCheck) fun q =>
        (q.commit i).uncommitted = (s.part.commit i).uncommitted - a.units * unitVolume ∧
        (q.commit i).unsettled = none ∧ (q.slot i).linkFailures = 0 ∧
        ∀ k e, s.part.linkedPlace i = some k → (s.part.place k).entry = some e →
          (q.place k).entry = some { e with tally := tally } ∧ (q.place k).dirty = true) ∧
    (receiptMatches key nonce count tally receipt = false →
      Completes .receiptCheck s (.ofCommand .receiptCheck) fun q =>
        (q.commit i).unsettled = none ∧ (q.commit i).uncommitted = (s.part.commit i).uncommitted ∧
        (q.commit i).inDoubt = (s.part.commit i).inDoubt ∧ (q.slot i).linkFailures = 0 ∧
        (∀ k, q.place k = s.part.place k) ∧
        (∀ now, (s.part.slot i).verdict = some now → now.class ≠ .rejected →
          (q.slot i).state = .rejected ∧ (q.slot i).verdict = some .counterfeit ∧
          (q.volumes i).low = false ∧ (q.volumes i).spent = false ∧ q.noticePending .verdict = true) ∧
        ∀ now, (s.part.slot i).verdict = some now → now.class = .rejected →
          (q.slot i).state = (s.part.slot i).state ∧ (q.slot i).verdict = some now ∧ q.volumes i = s.part.volumes i)

/-- R161: the TOKEN_CHECK of the check outstanding completes. A match asks the saver for a write of the service counter
plus one; a mismatch completes TOKEN_REJECTED and counts a failed attempt, and the third failed attempt starts the
lockout and counts from 0 again. -/
def Obligations.TokenCheckAnswers : Prop :=
  ∀ (s : State) (cell : CellNo) (counter : BitVec 32) (token : Quad), s.part.Quiet → Memory.wf s.part.board = true →
    s.part.digestHead = some ⟨.gate, .tokenCheck counter token⟩ → s.part.ps.checkOutstanding = some cell →
    (tokenMatches counter token = true →
      Completes .tokenCheck s (.ofCommand .tokenCheck) fun q =>
        q.ps = s.part.ps ∧ (q.hs.counterWaiting = true ∨ q.hs.saver = .counter (s.part.hs.counter + 1) false)) ∧
    (tokenMatches counter token = false →
      Completes .tokenCheck s (.and (.answering cell) (.and (.only .digests) (.only .gate))) fun q =>
        q.Answered cell .tokenRejected (s.part.rq.completion + 1) ∧ q.ps.checkOutstanding = none ∧
        (s.part.ps.failedAttempts < 2 → q.ps.failedAttempts = s.part.ps.failedAttempts + 1 ∧
          q.ps.lockoutRunning = s.part.ps.lockoutRunning) ∧
        (2 ≤ s.part.ps.failedAttempts → q.ps.failedAttempts = 0 ∧ q.ps.lockoutRunning = true))

/-! ## The saver -/

/-- R50, R52, R53, R55: the write attempt of a history place ends. Verified, NV holds the copy with the sighting counter,
and a place that did not change during the write and stands on no queue is clean; not verified, the first attempt is
followed by a second and the second by the store fault, NV staying as it was. While fold at write is enabled, each attempt
that begins on an entry which one slot holds folds that slot: its uncommitted volume and units in doubt go into the entry
with its volumes and flags. The saver passes over a place while a slot that holds its entry has an ADVANCE_TALLY
unsettled. -/
def Obligations.HistoryWriteEnds : Prop :=
  ∀ (s : State) (k : Fin 64) (copy : Option Entry) (counter : Nat) (second changed : Bool),
    s.part.hs.saver = .place k copy counter second changed →
    Completes (.historyWriteAttemptEnd true) s (.ofCommand (.historyWriteAttemptEnd true)) (fun q =>
      q.nv = { s.part.nv with places := s.part.nv.places.set k (nvPlaceOf copy counter) } ∧
      (s.part.hs.foldAtWrite = false →
        (changed = false → s.part.hs.saveQueue.contains k = false →
          q.place k = { s.part.place k with dirty := false }) ∧
        ∀ j, j ≠ k → q.place j = s.part.place j) ∧
      (∀ (j : Fin 64) (rest : List (Fin 64)) (i : Slot) (e : Entry), s.part.hs.foldAtWrite = true →
        s.part.works = true → s.part.hs.saveQueue = j :: rest → (s.part.place j).entry = some e →
        s.part.SoleHolder i e → (s.part.commit i).unsettled = none →
        q.hs.saver = .place j (some (s.part.foldInto i e)) s.part.hs.sightings false false ∧
          q.place j = ⟨some (s.part.foldInto i e), true⟩ ∧
          (q.commit i).uncommitted = 0 ∧ (q.commit i).inDoubt = 0) ∧
      ∀ (j m : Fin 64) (rest : List (Fin 64)) (i : Slot) (e : Entry), s.part.hs.foldAtWrite = true →
        s.part.works = true → s.part.hs.saveQueue = j :: m :: rest → (s.part.place j).entry = some e →
        (s.part.slot i).carries e.serial = true → (s.part.commit i).unsettled ≠ none →
        (∀ e' n, (s.part.place m).entry = some e' → (s.part.slot n).carries e'.serial = true →
          (s.part.commit n).unsettled = none) →
        q.hs.saver.writes m = true ∧ j ∈ q.hs.saveQueue) ∧
    (second = false → s.part.hs.foldAtWrite = false →
      Completes (.historyWriteAttemptEnd false) s (.ofCommand (.historyWriteAttemptEnd false)) fun q =>
        q.nv = s.part.nv ∧ q.hs.saver = .place k (s.part.place k).entry s.part.hs.sightings true false) ∧
    (∀ (i : Slot) (e : Entry), second = false → s.part.hs.foldAtWrite = true →
      (s.part.place k).entry = some e → s.part.SoleHolder i e → (s.part.commit i).unsettled = none →
      Completes (.historyWriteAttemptEnd false) s (.ofCommand (.historyWriteAttemptEnd false)) fun q =>
        q.nv = s.part.nv ∧ q.hs.saver = .place k (some (s.part.foldInto i e)) s.part.hs.sightings true false ∧
          q.place k = ⟨some (s.part.foldInto i e), true⟩ ∧ (q.commit i).uncommitted = 0 ∧ (q.commit i).inDoubt = 0) ∧
    (second = true →
      Completes (.historyWriteAttemptEnd false) s (.ofCommand (.historyWriteAttemptEnd false)) fun q =>
        q.nv = s.part.nv ∧ q.hs.storeFault = true ∧ q.noticePending .store = true ∧
        (s.part.hs.foldAtWrite = false → q.place k = s.part.place k) ∧
        (k ∈ q.hs.saveQueue ∨ q.hs.saver.writes k = true))

/-- R161, R165: the write attempt of the service counter ends. Verified while its check is outstanding, the counter takes
the value, service mode begins with its idle timer running, the failed attempts are 0 and the request completes OK; a
first failure is followed by a second attempt, a second one completes STORE_FAILED. -/
def Obligations.CounterWriteEnds : Prop :=
  ∀ (s : State) (value : BitVec 32) (second : Bool) (cell : CellNo), Memory.wf s.part.board = true →
    s.part.hs.saver = .counter value second → s.part.ps.checkOutstanding = some cell → s.part.hs.foldAtWrite = false →
    s.part.Loose cell →
    Completes (.counterWriteEnd .equal) s (.ofCommand (.counterWriteEnd .equal)) (fun q =>
      q.hs.counter = value ∧ q.nv = { s.part.nv with
        counters := s.part.nv.counters.set s.part.counterTarget (some value) } ∧
      q.ps = { s.part.ps with failedAttempts := 0, serviceMode := true, idleRunning := true, checkOutstanding := none } ∧
      q.Answered cell .ok (s.part.rq.completion + 1)) ∧
    ∀ fails,
      (second = false →
        Completes (.counterWriteEnd (.differs fails)) s (.ofCommand (.counterWriteEnd (.differs fails))) fun q =>
          q.hs.saver = .counter value true ∧ q.hs.counter = s.part.hs.counter ∧ q.ps = s.part.ps) ∧
      (second = true →
        Completes (.counterWriteEnd (.differs fails)) s (.ofCommand (.counterWriteEnd (.differs fails))) fun q =>
          q.hs.storeFault = true ∧ q.noticePending .store = true ∧ q.hs.counter = s.part.hs.counter ∧
          q.ps = { s.part.ps with checkOutstanding := none } ∧
          q.Answered cell .storeFailed (s.part.rq.completion + 1))

/-- R96, R97, R105, R117, R164, R166: the write attempt of the settings page ends. Verified, the page is the current one, in
NV under the next generation number, the request completes, and its calibration or feed is placed: between pages, with no
bank on the charge list, it takes effect at once, a changed feed re-selecting its channel's source; otherwise it is
pending. A first failure is followed by a second attempt, a second one sets the store fault, leaves the page as it was and
completes STORE_FAILED. -/
def Obligations.SettingsWriteEnds : Prop :=
  ∀ (s : State) (r : SettingsRequest) (page : Page) (second : Bool), Memory.wf s.part.board = true →
    s.part.busy = false → s.part.hs.saver = .settings r page second → s.part.hs.foldAtWrite = false →
    s.part.Loose r.cell →
    Completes (.settingsWriteEnd .equal) s (.ofCommand (.settingsWriteEnd .equal)) (fun q =>
      q.hs.page = page ∧ q.hs.pageCopy = some s.part.pageTarget ∧ q.nv = { s.part.nv with
        pages := s.part.nv.pages.set s.part.pageTarget (some ⟨s.part.nextGeneration, page⟩) } ∧
      q.Answered r.cell (if r.clamped = true then .clamped else .ok) (s.part.rq.completion + 1) ∧
      (∀ v, r.value = .calibration v →
        (s.part.au.betweenPages = true ∧ s.part.bankWaits = false →
          (q.channel r.channel).calibration = v ∧ (q.channel r.channel).pendingCalibration = none) ∧
        (s.part.au.betweenPages = false ∨ s.part.bankWaits = true →
          (q.channel r.channel).calibration = (s.part.channel r.channel).calibration ∧
            (q.channel r.channel).pendingCalibration = some v)) ∧
      ∀ f, r.value = .feed f →
        (s.part.au.betweenPages = true ∧ s.part.bankWaits = false →
          (q.channel r.channel).feed = f ∧ (q.channel r.channel).pendingFeed = none ∧
          ((s.part.channel r.channel).feed = f →
            (q.channel r.channel).active = (s.part.channel r.channel).active) ∧
          ((s.part.channel r.channel).feed ≠ f → (q.channel r.channel).active =
            (((((s.part.channel r.channel).active.filter f.names).toList ++ f.primary.toList ++
              f.secondary.toList).find? s.part.qualifies).or
                ((f.primary.toList ++ f.secondary.toList).find? s.part.presentForChannel)))) ∧
        (s.part.au.betweenPages = false ∨ s.part.bankWaits = true →
          (q.channel r.channel).feed = (s.part.channel r.channel).feed ∧
            (q.channel r.channel).pendingFeed = some f ∧
            (q.channel r.channel).active = (s.part.channel r.channel).active)) ∧
    ∀ fails,
      (second = false →
        Completes (.settingsWriteEnd (.differs fails)) s (.ofCommand (.settingsWriteEnd (.differs fails))) fun q =>
          q.hs.saver = .settings r page true ∧ q.hs.page = s.part.hs.page) ∧
      (second = true →
        Completes (.settingsWriteEnd (.differs fails)) s (.ofCommand (.settingsWriteEnd (.differs fails))) fun q =>
          q.hs.storeFault = true ∧ q.noticePending .store = true ∧ q.hs.page = s.part.hs.page ∧
          q.Answered r.cell .storeFailed (s.part.rq.completion + 1))

/-! ## Bands, purges and volumes -/

/-- R86: the temperature factor: clamped outside the key range, interpolated within it, and between 512 and 2047 whenever
every key factor is; the three bytes after a channel block's temperature are not read. -/
def Obligations.TemperatureFactor : Prop :=
  (∀ (k : Vector Nat 8) (t : Nat), t ≤ 10 → temperatureFactor k t = k[0]) ∧
  (∀ (k : Vector Nat 8) (t : Nat), 80 ≤ t → temperatureFactor k t = k[7]) ∧
  (∀ (k : Vector Nat 8) (i : Fin 7) (d : Fin 10), 0 < 10 * i.val + d.val →
    temperatureFactor k (10 + 10 * i.val + d.val)
      = (k[i.val]'(by omega) * (10 - d.val) + k[i.val + 1]'(by omega) * d.val + 5) / 10) ∧
  (∀ (k : Vector Nat 8) (t : Nat), (∀ i : Fin 8, 512 ≤ k[i] ∧ k[i] ≤ 2047) →
    512 ≤ temperatureFactor k t ∧ temperatureFactor k t ≤ 2047) ∧
  ∀ (p : Part) (b : BankNo) (c : Channel) (j : Fin 3) (v : Byte),
    (p.writeByte (bankBase b + 16 + 20 * c.val + 1 + j.val) v).channelBlock b c = p.channelBlock b c

/-- R87, R89: the raw sum S and the corrected volume E of a channel block, with their bounds for every block that a bank
can hold and every calibration in range; and the maintenance share M, computed without a residue, never greater than the
band's volume V, and 0 without spits. -/
def Obligations.VolumesAndShares : Prop :=
  ∀ (k : Calibration) (b : ChannelBlock),
    rawSum k b = b.small * k.small + b.medium * k.medium + (b.large + b.spit) * k.large ∧
    correctedVolume k b = rawSum k b * temperatureFactor k.keys b.temperature ∧
    (b.small ≤ 4294967295 → b.medium ≤ 4294967295 → b.large ≤ 4294967295 → b.spit ≤ 4294967295 →
      k.small ≤ 1023 → k.medium ≤ 1023 → k.large ≤ 1023 → (∀ i : Fin 8, 512 ≤ k.keys[i] ∧ k.keys[i] ≤ 2047) →
      rawSum k b ≤ 17575006171140 ∧ rawSum k b < 2 ^ 45 ∧ correctedVolume k b < 2 ^ 56) ∧
    bandMaintenance k b = b.spit * k.large * temperatureFactor k.keys b.temperature / 16384000 ∧
    (∀ residue, bandMaintenance k b ≤ bandVolume k b residue) ∧ (b.spit = 0 → bandMaintenance k b = 0)

/-- R83, R84, R88, R90, R97, R113, R117: the bank at the head of the charge list is accounted. Its sequence becomes the last
accounted one, a gap being counted; every channel in its mask gains the band's volume and maintenance share, by the
calibration in effect before, in its totals and keeps the new residue; every other channel keeps its totals and residue;
the bank is ACCOUNTED and leaves the list. A bank that ends a page puts every pending calibration, feed and threshold pair
into effect and leaves none pending: a changed feed keeps no source that it does not name, and LOW and SPENT of a tracked
slot are set against its new pair. Any other bank leaves settings and pending values as they are. -/
def Obligations.BankAccounted : Prop :=
  ∀ (s : State) (b : BankNo) (rest : List ChargeItem), s.part.works = true → s.part.au.chargeList = .bank b :: rest →
    Memory.wf s.part.board = true →
    Completes .bankAccounting s (.ofCommand .bankAccounting) fun q =>
      q.bankState b = .accounted ∧ q.au.chargeList = rest ∧ q.au.betweenPages = s.part.pageEnd b ∧
      (s.part.pageEnd b = true →
        (∀ c, (q.channel c).calibration
            = (s.part.channel c).pendingCalibration.getD (s.part.channel c).calibration ∧
          (q.channel c).feed = (s.part.channel c).pendingFeed.getD (s.part.channel c).feed ∧
          (q.channel c).pendingCalibration = none ∧ (q.channel c).pendingFeed = none ∧
          ∀ f a, (s.part.channel c).pendingFeed = some f → f ≠ (s.part.channel c).feed →
            (q.channel c).active = some a → f.names a = true) ∧
        ∀ i, (q.volumes i).pending = none ∧
          (q.volumes i).thresholds = (s.part.volumes i).pending.getD (s.part.volumes i).thresholds ∧
          ∀ t, (s.part.volumes i).pending = some t → (q.slot i).state.inServiceGroup = true →
            (q.slot i).hasClass .tracked = true →
            (q.volumes i).low = decide ((q.volumes i).remaining ≤ t.warn) ∧
              (q.volumes i).spent = decide ((q.volumes i).remaining ≤ t.stop)) ∧
      (s.part.pageEnd b = false →
        (∀ c, (q.channel c).calibration = (s.part.channel c).calibration ∧
          (q.channel c).feed = (s.part.channel c).feed ∧
          (q.channel c).pendingCalibration = (s.part.channel c).pendingCalibration ∧
          (q.channel c).pendingFeed = (s.part.channel c).pendingFeed) ∧
        ∀ i, (q.volumes i).thresholds = (s.part.volumes i).thresholds ∧
          (q.volumes i).pending = (s.part.volumes i).pending) ∧
      q.au.lastSequence = s.part.bandSequence b ∧ q.au.bankSeen = true ∧
      (s.part.au.bankSeen = false ∨ s.part.bandSequence b = s.part.au.lastSequence + 1 →
        q.au.sequenceGaps = s.part.au.sequenceGaps) ∧
      (s.part.au.bankSeen = true → s.part.bandSequence b ≠ s.part.au.lastSequence + 1 →
        q.au.sequenceGaps = satAdd max16 s.part.au.sequenceGaps 1 ∧ q.noticePending .tally = true) ∧
      ∀ c : Channel,
        ((s.part.bandMask b).getLsbD c.val = true →
          (q.channel c).residue = bandResidue (s.part.channel c).calibration (s.part.channelBlock b c)
            (s.part.channel c).residue ∧
          (q.channel c).total = (s.part.channel c).total + BitVec.ofNat 64
            (bandVolume (s.part.channel c).calibration (s.part.channelBlock b c) (s.part.channel c).residue) ∧
          (q.channel c).maintenance = (s.part.channel c).maintenance + BitVec.ofNat 64
            (bandMaintenance (s.part.channel c).calibration (s.part.channelBlock b c))) ∧
        ((s.part.bandMask b).getLsbD c.val = false →
          (q.channel c).residue = (s.part.channel c).residue ∧ (q.channel c).total = (s.part.channel c).total ∧
          (q.channel c).maintenance = (s.part.channel c).maintenance)

/-- R93: the purge at the head of the charge list is accounted: every channel in its mask gains its volume in both
totals, no residue changes, and the request completes. -/
def Obligations.PurgeAccounted : Prop :=
  ∀ (s : State) (cell : CellNo) (mask : Half) (volumes : Vector Nat 12) (clamped : Bool) (rest : List ChargeItem),
    s.part.works = true → s.part.au.chargeList = .purge cell mask volumes clamped :: rest →
    Memory.wf s.part.board = true → s.part.Loose cell → s.part.hs.foldAtWrite = false →
    Completes .purgeAccounting s (.ofCommand .purgeAccounting) fun q =>
      q.au.chargeList = rest ∧ (∃ n, q.Answered cell (if clamped = true then .clamped else .ok) n) ∧
      ∀ c : Channel, (q.channel c).residue = (s.part.channel c).residue ∧
        (mask.getLsbD c.val = true →
          (q.channel c).total = (s.part.channel c).total + BitVec.ofNat 64 volumes[c] ∧
          (q.channel c).maintenance = (s.part.channel c).maintenance + BitVec.ofNat 64 volumes[c]) ∧
        (mask.getLsbD c.val = false →
          (q.channel c).total = (s.part.channel c).total ∧
          (q.channel c).maintenance = (s.part.channel c).maintenance)

/-- R73, R91, R93, R105 to R109, R111: a volume charged to one channel, by a purge of it or by a bank that holds it alone. With
no active source it goes to the channel's unfed draw, and TALLY is raised. An untracked source takes the whole as post-empty
draw, and a tracked source whose feed has no other slot that qualifies takes it off its remaining volume as far as that goes and
the rest as post-empty draw; a draw past the margin escalates it to REFILLED, and the channel is re-selected. If the other slot
qualifies, the source gives down to its stop; standing there it hands over, and the other slot becomes active and takes the
rest. The maintenance goes to the slot that was active before. -/
def Obligations.ChargeFallsOnTheSource : Prop :=
  ∀ (s : State) (cmd : Instr) (c : Channel) (x m : Nat), s.part.works = true → s.part.ChargesOne c cmd x m →
    s.part.hs.foldAtWrite = false → 0 < x →
    ((s.part.channel c).active = none →
      Completes cmd s (.ofCommand cmd) fun q =>
        (q.channel c).unfed = satAdd max32 (s.part.channel c).unfed x ∧ (q.channel c).active = none ∧
        q.noticePending .tally = true ∧ ∀ j, q.volumes j = s.part.volumes j ∧ q.commit j = s.part.commit j) ∧
    ∀ a : Slot, (s.part.channel c).active = some a →
      (∀ fell, (s.part.slot a).hasClass .untracked = true ∧ fell = 0 ∨
          (s.part.slot a).hasClass .tracked = true ∧ fell = min x (s.part.volumes a).remaining ∧
            (∀ b, (s.part.channel c).feed.other a = some b → s.part.qualifies b = false) →
        Completes cmd s (.ofCommand cmd) fun q =>
          s.part.TakesShare q a fell (x - fell) ∧
          (q.volumes a).maintenance = satAdd max32 (s.part.volumes a).maintenance m ∧
          ((q.slot a).verdict = (s.part.slot a).verdict → (q.channel c).active = some a) ∧
          ((q.slot a).verdict ≠ (s.part.slot a).verdict → s.part.channelOf a = some c →
            (∀ b, (s.part.channel c).feed.other a = some b → s.part.qualifies b = false) →
            (q.channel c).active = ((s.part.channel c).feed.primary.toList ++
              (s.part.channel c).feed.secondary.toList).find? s.part.presentForChannel) ∧
          ∀ j, j ≠ a → q.volumes j = s.part.volumes j) ∧
      ∀ b share, (s.part.slot a).hasClass .tracked = true → (s.part.channel c).feed.other a = some b → b ≠ a →
        s.part.qualifies b = true →
        share = min x ((s.part.volumes a).remaining - (s.part.volumes a).thresholds.stop) →
        Completes cmd s (.ofCommand cmd) fun q =>
          s.part.TakesShare q a share 0 ∧
          (q.volumes a).maintenance = satAdd max32 (s.part.volumes a).maintenance m ∧
          ((s.part.volumes a).thresholds.stop < (s.part.volumes a).remaining - share →
            (q.channel c).active = some a ∧ q.volumes b = s.part.volumes b ∧
            (q.commit b).uncommitted = (s.part.commit b).uncommitted) ∧
          ((s.part.volumes a).remaining - share ≤ (s.part.volumes a).thresholds.stop →
            (∀ fell, fell = min (x - share) (s.part.volumes b).remaining →
              s.part.TakesShare q b fell (x - share - fell)) ∧
            (q.volumes b).maintenance = (s.part.volumes b).maintenance ∧
            ((q.slot b).verdict = (s.part.slot b).verdict → (q.channel c).active = some b)) ∧
          ∀ j, j ≠ a → j ≠ b → q.volumes j = s.part.volumes j

/-- R140, R141: a write of POSTED or FREE into a cell that is not TAKEN, with its other byte: arrival, withdrawal and
give-back. Nothing but the word and the posted list changes. That the cell's state, not the row's name, decides what a
write is, is the model's choice (assumption 17). -/
def Obligations.CellWrites : Prop :=
  ∀ (s : State) (c : CellNo) (k : Byte), s.part.Normal → s.part.Quiet → Memory.wf s.part.board = true →
    (s.part.cellState c = .free ∨ s.part.cellState c = .done →
      Completes (.cellArrival c k) s (.and (.bytes (cellBase c) 2) (.only .posted)) fun q =>
        q.cellState c = .posted ∧ q.kindByte c = k ∧ q.rq.posted = s.part.rq.posted ++ [c]) ∧
    (s.part.cellState c = .posted →
      Completes (.cellArrival c k) s (.bytes (cellBase c) 2) fun q =>
        q.cellState c = .posted ∧ q.kindByte c = k) ∧
    (s.part.cellState c = .posted →
      Completes (.cellWithdrawal c k) s (.and (.bytes (cellBase c) 2) (.only .posted)) fun q =>
        q.cellState c = .free ∧ q.kindByte c = k ∧ q.rq.posted = s.part.rq.posted.erase c) ∧
    (s.part.cellState c = .free ∨ s.part.cellState c = .done →
      Completes (.cellGiveBack c k) s (.bytes (cellBase c) 2) fun q =>
        q.cellState c = .free ∧ q.kindByte c = k)

/-- R79, R80, R137: a write of READY or OPEN into a bank that is not READY, and any other write that lands: into a cell
that is not TAKEN or a bank that is not READY, clear of its state byte. Nothing but the word and, at an arrival, the
charge list changes. The flags byte of the bank lands as written; that an engine read shows 0 for the bits of it that 12.2 does
not assign, as R176 says, is the model's reading of R137 and R176 together (assumption 59). -/
def Obligations.BankAndBoardWrites : Prop :=
  ∀ s : State, s.part.Normal → s.part.Quiet → Memory.wf s.part.board = true →
    (∀ b f, s.part.bankState b ≠ .ready →
      Completes (.bankArrival b f) s (.and (.bytes (bankBase b) 2) (.only .chargeList)) (fun q =>
        q.bankState b = .ready ∧ q.readByte (bankBase b + 1) = f ∧
          q.readWord (BitVec.ofNat 11 (768 + 128 * b.val)) = (0x5A, f &&& 1) ∧
          q.au.chargeList = s.part.au.chargeList ++ [.bank b]) ∧
      Completes (.bankReopen b f) s (.bytes (bankBase b) 2) fun q =>
        q.bankState b = .opened ∧ q.readByte (bankBase b + 1) = f ∧
          q.readWord (BitVec.ofNat 11 (768 + 128 * b.val)) = (0x00, f &&& 1)) ∧
    (∀ (c : CellNo) (n : Fin 32) (x y : Byte), n ≠ 0 → s.part.cellState c ≠ .taken →
      Completes (.boardWrite (BitVec.ofNat 11 (32 * c.val + n.val)) x y) s (.bytes (cellBase c + 2 * n.val) 2) fun q =>
        q.readByte (cellBase c + 2 * n.val) = x ∧ q.readByte (cellBase c + 2 * n.val + 1) = y) ∧
    ∀ (b : BankNo) (n : Fin 128) (x y : Byte), n ≠ 0 → s.part.bankState b ≠ .ready →
      Completes (.boardWrite (BitVec.ofNat 11 (768 + 128 * b.val + n.val)) x y) s (.bytes (bankBase b + 2 * n.val) 2)
        fun q => q.readByte (bankBase b + 2 * n.val) = x ∧ q.readByte (bankBase b + 2 * n.val + 1) = y

/-- R81, R138: a write into a TAKEN cell, a READY bank or a record is dropped: no byte of the board changes but those of
part information, the dropped writes are counted and PORT is raised; in a READY bank the overrun is counted too and TALLY
raised. A write whose state byte is a code that the engine may not write, into a cell that is not TAKEN or a bank that is
not READY, is dropped and counted in the same way, its other byte included (R79, R138, R140). -/
def Obligations.DroppedWrites : Prop :=
  ∀ s : State, s.part.Normal → s.part.Quiet →
    (∀ (c : CellNo) (i : Instr), s.part.cellState c = .taken →
      (∃ k, i = .cellArrival c k ∨ i = .cellWithdrawal c k ∨ i = .cellGiveBack c k) ∨
        (∃ (n : Fin 32) (x y : Byte), i = .boardWrite (BitVec.ofNat 11 (32 * c.val + n.val)) x y) →
      Completes i s (.and (.bytes partInfoBase 128) (.and (.only .portCounters) (.and (.only .pending) (.only .output))))
        fun q => q.port.droppedWrites = satAdd max16 s.part.port.droppedWrites 1 ∧
          q.port.bankOverruns = s.part.port.bankOverruns ∧ q.noticePending .port = true) ∧
    (∀ (w : BitVec 11) (x y : Byte), 0xA00 ≤ 2 * w.toNat → 2 * w.toNat < 0xF00 →
      Completes (.boardWrite w x y) s
        (.and (.bytes partInfoBase 128) (.and (.only .portCounters) (.and (.only .pending) (.only .output))))
        fun q => q.port.droppedWrites = satAdd max16 s.part.port.droppedWrites 1 ∧
          q.port.bankOverruns = s.part.port.bankOverruns ∧ q.noticePending .port = true) ∧
    (∀ (w : BitVec 11) (x y : Byte), x ≠ 0x00 → x ≠ 0x5A →
      (∃ c : CellNo, s.part.cellState c ≠ .taken ∧ w = BitVec.ofNat 11 (32 * c.val)) ∨
        (∃ b : BankNo, s.part.bankState b ≠ .ready ∧ w = BitVec.ofNat 11 (768 + 128 * b.val)) →
      Completes (.boardWrite w x y) s
        (.and (.bytes partInfoBase 128) (.and (.only .portCounters) (.and (.only .pending) (.only .output))))
        fun q => q.port.droppedWrites = satAdd max16 s.part.port.droppedWrites 1 ∧
          q.port.bankOverruns = s.part.port.bankOverruns ∧ q.noticePending .port = true) ∧
    ∀ (b : BankNo) (i : Instr), s.part.bankState b = .ready →
      (∃ f, i = .bankArrival b f ∨ i = .bankReopen b f) ∨
        (∃ (n : Fin 128) (x y : Byte), i = .boardWrite (BitVec.ofNat 11 (768 + 128 * b.val + n.val)) x y) →
      Completes i s (.and (.bytes partInfoBase 128) (.and (.only .portCounters) (.and (.only .pending) (.only .output))))
        fun q => q.port.droppedWrites = satAdd max16 s.part.port.droppedWrites 1 ∧
          q.port.bankOverruns = satAdd max16 s.part.port.bankOverruns 1 ∧ q.noticePending .port = true ∧
          q.noticePending .tally = true

/-- R148, R149, R173: writes to the registers. A write of NOTICE clears exactly the classes written 1; a write of
CONTROL's lower half is held and changes nothing else; a write to ID, STATUS or NOTICE's upper half changes nothing. A
whole write of CONTROL, under each of its three names, takes the held lower half, or CONTROL's own, and the written upper
half: mask level and polarity take the written values, the byte order only when its four bits agree and no work is
outstanding, the held half is emptied, and RESTART written 1 begins a restart with its fold phase. That each of the
three rows is the whole write is the model's choice (assumption 16). -/
def Obligations.RegisterWrites : Prop :=
  ∀ s : State, s.part.Normal →
    (∀ v, s.part.Quiet → Completes (.noticeClear v) s (.and (.only .pending) (.only .output)) fun q =>
      ∀ n : Fin 8, q.nu.pending.getLsbD n.val = (s.part.nu.pending.getLsbD n.val && !v.getLsbD n.val)) ∧
    (∀ v, s.part.Quiet →
      Completes (.controlLowerHalfWrite v) s (.only .heldLower) fun q => q.port.heldLower = some v) ∧
    (∀ h v, Completes (.registerWriteOther h v) s (fun _ => false) fun _ => True) ∧
    ∀ (u : Half) (v : BitVec 32) (c : Instr),
      c = .controlByteOrder u ∨ c = .controlMaskPolarity u ∨ c = .restart u →
      v = u ++ (match s.part.port.heldLower with
        | some lower => lower
        | none => (s.part.readRegister .control).setWidth 16) →
      Completes c s (.ofCommand c) fun q =>
        q.port.heldLower = none ∧ q.port.maskLevel = v.extractLsb' 1 3 ∧ q.port.activeHigh = v.getLsbD 4 ∧
        q.port.bigEndian = (if v.getLsbD 7 = v.getLsbD 15 ∧ v.getLsbD 15 = v.getLsbD 23 ∧ v.getLsbD 23 = v.getLsbD 31 ∧
          s.part.workOutstanding = false then v.getLsbD 7 else s.part.port.bigEndian) ∧
        q.ps.sequence = (if v.getLsbD 0 = true then some ⟨.restart, .fold⟩ else none)

/-! ## Requests -/

/-- R142, R163: a taken cell whose kind is not known completes UNKNOWN_KIND, and one of a service-only kind outside
service mode completes NEEDS_SERVICE; nothing changes but what every answer touches. -/
def Obligations.UnknownAndServiceOnlyKinds : Prop :=
  ∀ (s : State) (c : CellNo), s.part.Quiet → Memory.wf s.part.board = true →
    (s.part.Offers none c →
      Completes .unknownKind s (.answering c) fun q =>
        q.Answered c .unknownKind (s.part.rq.completion + 1) ∧ q.rq.posted = s.part.rq.posted.drop 1) ∧
    ∀ (k : Kind) (i : Instr), (k, i) ∈ [(.loadCalibration, Instr.loadCalibration), (.setFeed, .setFeed),
        (.reconcile, .reconcile), (.forgetHistory, .forgetHistory), (.setRefillMargin, .setRefillMargin)] →
      s.part.Offers (some k) c → s.part.ps.serviceMode = false →
      Completes i s (.answering c) fun q =>
        q.Answered c .needsService (s.part.rq.completion + 1) ∧ q.rq.posted = s.part.rq.posted.drop 1

/-- R152, R156, R157: SET_NOTICE_LEVELS takes each byte 0 to 7 as given, a larger one as 7 and 255 as no change, and returns the
eight levels; SET_LED_BRIGHTNESS takes a value above 255 as 255 and returns the setting. A value that was clamped makes
the result CLAMPED, otherwise it is OK. A PWM period that runs on across a change of the effective brightness goes on with
the brightness it began with, the next one has the new; how a period is named by the changes within it is the model's
choice (assumption 3). -/
def Obligations.LevelsAndBrightness : Prop :=
  ∀ (s : State) (c : CellNo), s.part.Quiet → Memory.wf s.part.board = true →
    (s.part.Offers (some .setNoticeLevels) c →
      Completes .setNoticeLevels s (.and (.answering c) (.only .levels)) fun q =>
        (∀ n : Fin 8,
          (s.part.argumentByte c n.val = 255 → q.nu.levels[n] = s.part.nu.levels[n]) ∧
          ((s.part.argumentByte c n.val).toNat < 8 → (q.nu.levels[n]).val = (s.part.argumentByte c n.val).toNat) ∧
          (8 ≤ (s.part.argumentByte c n.val).toNat → s.part.argumentByte c n.val ≠ 255 → q.nu.levels[n] = 7) ∧
          (q.argumentByte c n.val).toNat = (q.nu.levels[n]).val) ∧
        ((∀ n : Fin 8, (s.part.argumentByte c n.val).toNat < 8 ∨ s.part.argumentByte c n.val = 255) →
          q.Answered c .ok (s.part.rq.completion + 1)) ∧
        ((∃ n : Fin 8, 8 ≤ (s.part.argumentByte c n.val).toNat ∧ s.part.argumentByte c n.val ≠ 255) →
          q.Answered c .clamped (s.part.rq.completion + 1))) ∧
    (s.part.Offers (some .setLedBrightness) c →
      Completes .setLedBrightness s (.and (.answering c) (.and (.only .brightness) (.only .dimming))) fun q =>
        q.brightness = BitVec.ofNat 8 (min 255 (s.part.argument c 0 2)) ∧
        q.argument c 0 2 = min 255 (s.part.argument c 0 2) ∧ q.shownBrightness 0 = q.effectiveBrightness ∧
        (q.effectiveBrightness ≠ s.part.effectiveBrightness →
          ∀ n ≤ s.part.earlierBrightness.length, q.shownBrightness (n + 1) = s.part.shownBrightness n) ∧
        (q.effectiveBrightness = s.part.effectiveBrightness →
          ∀ n, q.shownBrightness n = s.part.shownBrightness n) ∧
        q.Answered c (if 255 < s.part.argument c 0 2 then .clamped else .ok) (s.part.rq.completion + 1))

/-- R96, R113 to R115: SET_THRESHOLDS and RECONCILE of a slot in the in-service group. Between pages, with no bank on the
charge list, a threshold pair takes effect at once, clamped against the rated volume; otherwise it is pending. A
RECONCILE sets the remaining volume, and EXHAUSTED, LOW and SPENT with it. Either kind is refused BAD_ARGUMENT for a target above
11, NO_CARTRIDGE for a slot that is empty, settling or rejected, and BUSY for one in a bring-up, and no volume changes. -/
def Obligations.ThresholdsAndReconcile : Prop :=
  ∀ (s : State) (c : CellNo), s.part.Quiet → Memory.wf s.part.board = true →
    (∀ (k : Kind) (cmd : Instr) (r : Result), (k, cmd) ∈ [(.setThresholds, Instr.setThresholds), (.reconcile, .reconcile)] →
      s.part.Offers (some k) c → (k = .reconcile → s.part.ps.serviceMode = true) →
      (11 < (s.part.targetByte c).toNat ∧ r = .badArgument ∨
        ∃ i, s.part.target c = some i ∧
          (((s.part.slot i).state = .empty ∨ (s.part.slot i).state = .settling ∨ (s.part.slot i).state = .rejected) ∧
              r = .noCartridge ∨ (s.part.slot i).state.bringUp = true ∧ r = .busy)) →
      Completes cmd s (.ofCommand cmd) fun q =>
        q.Answered c r (s.part.rq.completion + 1) ∧ ∀ j, q.volumes j = s.part.volumes j) ∧
    ∀ i : Slot, s.part.target c = some i → (s.part.slot i).state.inServiceGroup = true →
    (∀ stop warn, s.part.Offers (some .setThresholds) c →
      stop = min (s.part.argument c 4 4) (ratedVolume (s.part.slot i).volumeClass) →
      warn = min (max (s.part.argument c 0 4) stop) (ratedVolume (s.part.slot i).volumeClass) →
      Completes .setThresholds s (.ofCommand .setThresholds) fun q =>
        q.Answered c (if warn = s.part.argument c 0 4 ∧ stop = s.part.argument c 4 4 then .ok else .clamped)
          (s.part.rq.completion + 1) ∧
        (s.part.au.betweenPages = true → s.part.bankWaits = false →
          q.volumes i = { s.part.volumes i with
            thresholds := ⟨warn, stop⟩, pending := none,
            low := if (s.part.slot i).hasClass .tracked = true then decide ((s.part.volumes i).remaining ≤ warn)
              else (s.part.volumes i).low,
            spent := if (s.part.slot i).hasClass .tracked = true then decide ((s.part.volumes i).remaining ≤ stop)
              else (s.part.volumes i).spent }) ∧
        (s.part.au.betweenPages = false ∨ s.part.bankWaits = true →
          q.volumes i = { s.part.volumes i with pending := some ⟨warn, stop⟩ })) ∧
    (∀ given rated, s.part.Offers (some .reconcile) c → s.part.ps.serviceMode = true →
      given = s.part.argument c 0 4 → rated = ratedVolume (s.part.slot i).volumeClass →
      Completes .reconcile s (.ofCommand .reconcile) fun q =>
        q.Answered c (if rated < given then .clamped else .ok) (s.part.rq.completion + 1) ∧
        q.volumes i = { s.part.volumes i with
          remaining := min given rated, exhausted := decide (min given rated = 0),
          low := (s.part.slot i).hasClass .tracked && decide (min given rated ≤ (s.part.volumes i).thresholds.warn),
          spent := (s.part.slot i).hasClass .tracked && decide (min given rated ≤ (s.part.volumes i).thresholds.stop) })

/-- R125: SET_COMMIT takes the quantum into 1 to 64 units and the burst setting; a burst byte above 1 is refused
BAD_ARGUMENT and nothing is set. -/
def Obligations.CommitSettings : Prop :=
  ∀ (s : State) (c : CellNo), Memory.wf s.part.board = true → s.part.Offers (some .setCommit) c → s.part.Loose c →
    s.part.hs.foldAtWrite = false →
    ((s.part.argumentByte c 2).toNat ≤ 1 →
      Completes .setCommit s (.ofCommand .setCommit) fun q =>
        q.ce.quantum = max 1 (min 64 (s.part.argument c 0 2)) ∧ q.ce.burst = decide (s.part.argumentByte c 2 = 1) ∧
        q.Answered c (if 1 ≤ s.part.argument c 0 2 ∧ s.part.argument c 0 2 ≤ 64 then .ok else .clamped)
          (s.part.rq.completion + 1)) ∧
    (1 < (s.part.argumentByte c 2).toNat →
      Completes .setCommit s (.ofCommand .setCommit) fun q =>
        q.ce.quantum = s.part.ce.quantum ∧ q.ce.burst = s.part.ce.burst ∧
          q.Answered c .badArgument (s.part.rq.completion + 1))

/-- R133: COMMIT_NOW. For one slot: an IN_SERVICE slot that commits and has a unit to commit, or an ADVANCE_TALLY
unsettled, gets the cell as flush holder and the cell parks; one with less completes OK at once, drained; one that does
not commit or is TALLY_FULL completes OK at once, stopped; other states refuse it, and a target above 11 that is not 255 is
refused BAD_ARGUMENT. With target 255 every slot that one
target would park becomes one that the cell holds, and every other is marked drained, stopped or skipped; with no slot held
the request completes OK at once. -/
def Obligations.CommitNowOneSlot : Prop :=
  ∀ (s : State) (c : CellNo), Memory.wf s.part.board = true → s.part.Offers (some .commitNow) c → s.part.Loose c →
    s.part.hs.foldAtWrite = false →
    (∀ i : Slot, s.part.target c = some i →
      (s.part.TakesFlush i → s.part.Unlisted i →
        Completes .commitNow s (.ofCommand .commitNow) fun q =>
          c ∈ (q.commit i).holders ∧ q.ParkedAs c (.commitNow (some i) noCauses)) ∧
      ((s.part.slot i).state = .inService → (s.part.slot i).allowsCommits = true →
        (s.part.commit i).tallyFull = false → (s.part.commit i).uncommitted < unitVolume →
        (s.part.commit i).unsettled = none →
        Completes .commitNow s (.ofCommand .commitNow) fun q =>
          q.Answered c .ok (s.part.rq.completion + 1) ∧ q.argumentByte c i.val = 1) ∧
      ((s.part.slot i).state = .inService → (s.part.slot i).allowsCommits = false ∨ (s.part.commit i).tallyFull = true →
        Completes .commitNow s (.ofCommand .commitNow) fun q =>
          q.Answered c .ok (s.part.rq.completion + 1) ∧ q.argumentByte c i.val = 2) ∧
      ((s.part.slot i).state = .empty ∨ (s.part.slot i).state = .settling ∨ (s.part.slot i).state = .rejected ∨
          (s.part.slot i).state = .linkLost →
        Completes .commitNow s (.ofCommand .commitNow) fun q => q.Answered c .noCartridge (s.part.rq.completion + 1)) ∧
      ((s.part.slot i).state.bringUp = true ∨ (s.part.slot i).state = .reverify →
        Completes .commitNow s (.ofCommand .commitNow) fun q => q.Answered c .busy (s.part.rq.completion + 1))) ∧
    (11 < (s.part.targetByte c).toNat → s.part.targetByte c ≠ 255 →
      Completes .commitNow s (.ofCommand .commitNow) fun q => q.Answered c .badArgument (s.part.rq.completion + 1)) ∧
    (s.part.targetByte c = 255 →
      ((∀ i, ¬ s.part.TakesFlush i) →
        Completes .commitNow s (.ofCommand .commitNow) fun q =>
          q.Answered c .ok (s.part.rq.completion + 1) ∧
            ∀ i cause, s.part.FlushEndsAtOnce i cause → q.argumentByte c i.val = BitVec.ofNat 8 cause.code) ∧
      ((∃ i, s.part.TakesFlush i) →
        Completes .commitNow s (.ofCommand .commitNow) fun q =>
          (∀ i, c ∈ (q.commit i).holders ↔ s.part.TakesFlush i) ∧
          ∃ causes, q.ParkedAs c (.commitNow none causes) ∧
            ∀ i cause, s.part.FlushEndsAtOnce i cause → causes[i] = cause))

/-- R38, R39, R41: REVERIFY of an IN_SERVICE slot draws a candidate nonce, makes the slot REVERIFY and joins it for a
CHALLENGE; of a REJECTED slot it starts the bring-up afresh, after the removal handling when the slot has a history link; the
cell parks with the slot. An empty slot refuses it NO_CARTRIDGE, a slot under way BUSY; a target above 11 is refused
BAD_ARGUMENT. That the kept tally T_r of an earlier reverify becomes absent is the model's choice (assumption 61). -/
def Obligations.ReverifyBegins : Prop :=
  ∀ (s : State) (c : CellNo), Memory.wf s.part.board = true → s.part.Offers (some .reverify) c →
    s.part.Loose c → s.part.hs.foldAtWrite = false →
    (11 < (s.part.targetByte c).toNat →
      Completes .reverify s (.ofCommand .reverify) fun q => q.Answered c .badArgument (s.part.rq.completion + 1)) ∧
    ∀ i : Slot, s.part.target c = some i →
    ((s.part.slot i).state = .inService → s.part.link i = .none → s.part.Unlisted i →
      Completes .reverify s (.ofCommand .reverify) fun q =>
        q.ParkedAs c (.reverify i) ∧ q.Joined i (.challenge s.part.freshNonce) ∧
        q.slot i = { s.part.slot i with
          state := .reverify, candidate := some s.part.freshNonce, stage := .challenge, attempts := 0,
          parkedCell := some c, reverifyTally := none }) ∧
    ((s.part.slot i).state = .rejected → s.part.link i = .none → s.part.Unlisted i →
      Completes .reverify s (.ofCommand .reverify) fun q =>
        q.ParkedAs c (.reverify i) ∧ q.Joined i .identify ∧ q.volumes i = Volumes.blank ∧
        q.slot i = { s.part.slot i with
          state := .identify, verdict := none, identity := none, key := none, nonce := none, candidate := none,
          response := none, attempts := 0, parkedCell := some c, reverifyTally := none, historyLink := false } ∧
        ((s.part.slot i).historyLink = false → ∀ k, q.place k = s.part.place k) ∧
        ((s.part.slot i).historyLink = true → (q.commit i).uncommitted = 0 ∧ (q.commit i).inDoubt = 0 ∧
          ∀ k e, s.part.linkedPlace i = some k → (s.part.place k).entry = some e →
            q.place k = ⟨some (s.part.foldInto i e), true⟩)) ∧
    ((s.part.slot i).state = .empty ∨ (s.part.slot i).state = .settling →
      Completes .reverify s (.ofCommand .reverify) fun q => q.Answered c .noCartridge (s.part.rq.completion + 1)) ∧
    ((s.part.slot i).state.bringUp = true ∨ (s.part.slot i).state = .reverify ∨ (s.part.slot i).state = .linkLost →
      Completes .reverify s (.ofCommand .reverify) fun q => q.Answered c .busy (s.part.rq.completion + 1))

/-- R92: PURGE with a mask below 4096 that is not 0 joins the tail of the charge list, each volume in the mask taken as
at most 100 mL, and parks; an empty mask completes OK at once, a larger one BAD_ARGUMENT. -/
def Obligations.PurgeParks : Prop :=
  ∀ (s : State) (c : CellNo) (mask : Half), s.part.Quiet → Memory.wf s.part.board = true →
    s.part.Offers (some .purge) c → mask = BitVec.ofNat 16 (s.part.argument c 0 2) →
    (0 < mask.toNat → mask.toNat < 4096 →
      Completes .purge s (.and (.answering c) (.only .chargeList)) fun q =>
        q.ParkedAs c .purge ∧ ∃ volumes clamped, q.au.chargeList = s.part.au.chargeList ++
            [.purge c mask volumes clamped] ∧
          (∀ n : Channel, volumes[n] = if mask.getLsbD n.val = true then min 100000000 (s.part.argument c (4 + 4 * n.val) 4)
            else 0) ∧
          (clamped = true ↔ ∃ n : Channel, mask.getLsbD n.val = true ∧ 100000000 < s.part.argument c (4 + 4 * n.val) 4)) ∧
    (mask = 0 → Completes .purge s (.answering c) fun q => q.Answered c .ok (s.part.rq.completion + 1)) ∧
    (4096 ≤ mask.toNat → Completes .purge s (.answering c) fun q => q.Answered c .badArgument (s.part.rq.completion + 1))

/-- R94, R116, R163, R166: in service mode LOAD_CALIBRATION and SET_FEED with a good target park with a clamped calibration or
a feed for the settings page: it waits on the settings write queue or is being written, and the idle timer runs from 0. The
calibration carries whether an argument was clamped, which decides OK or CLAMPED at the end of its write. A feed names a primary
and a secondary slot, a primary alone, or no slot. A SET_FEED completes BAD_ARGUMENT at once with an ink code of 255, a slot
field that is neither a slot nor 255, a secondary without a primary, or one slot twice; and when its write would begin, which
is at once with the saver idle, if a slot would stand in two channels' feeds. A target above 11 is refused BAD_ARGUMENT for
both kinds. -/
def Obligations.SettingsRequestsPark : Prop :=
  ∀ (s : State) (c : CellNo), s.part.Quiet → Memory.wf s.part.board = true → s.part.ps.serviceMode = true →
    (s.part.target c = none →
      (s.part.Offers (some .loadCalibration) c →
        Completes .loadCalibration s (.ofCommand .loadCalibration) fun q =>
          q.Answered c .badArgument (s.part.rq.completion + 1)) ∧
      (s.part.Offers (some .setFeed) c →
        Completes .setFeed s (.ofCommand .setFeed) fun q => q.Answered c .badArgument (s.part.rq.completion + 1))) ∧
    ∀ n : Channel, s.part.target c = some n →
      (s.part.Offers (some .loadCalibration) c →
        Completes .loadCalibration s (.ofCommand .loadCalibration) fun q =>
          q.ParkedAs c .settings ∧ q.ps.idleRunning = true ∧ ∃ r : SettingsRequest,
            (r ∈ q.hs.settingsQueue ∨ ∃ page, q.hs.saver = .settings r page false) ∧ r.cell = c ∧ r.channel = n ∧
            (r.clamped = true ↔ 1023 < s.part.argument c 0 2 ∨ 1023 < s.part.argument c 2 2 ∨
              1023 < s.part.argument c 4 2 ∨ ∃ j : Fin 8, s.part.argument c (6 + 2 * j.val) 2 < 512 ∨
                2047 < s.part.argument c (6 + 2 * j.val) 2) ∧
            ∃ k : Calibration, r.value = .calibration k ∧ k.small = min 1023 (s.part.argument c 0 2) ∧
              k.medium = min 1023 (s.part.argument c 2 2) ∧ k.large = min 1023 (s.part.argument c 4 2) ∧
              ∀ j : Fin 8, k.keys[j] = max 512 (min 2047 (s.part.argument c (6 + 2 * j.val) 2))) ∧
      ∀ ink a b : Byte, s.part.Offers (some .setFeed) c → s.part.argumentByte c 0 = ink → s.part.argumentByte c 1 = a →
        s.part.argumentByte c 2 = b →
        (∀ f : Feed, ink ≠ 255 → f.ink = ink →
          a.toNat < 12 ∧ f.primary = slotOf a ∧
              (b = 255 ∧ f.secondary = none ∨ b.toNat < 12 ∧ b ≠ a ∧ f.secondary = slotOf b) ∨
            a = 255 ∧ b = 255 ∧ f.primary = none ∧ f.secondary = none →
          (s.part.hs.saver ≠ .idle ∨ (Page.withSetting s.part.hs.page n (.feed f)).feedsDisjoint = true →
            Completes .setFeed s (.ofCommand .setFeed) fun q =>
              q.ParkedAs c .settings ∧ q.ps.idleRunning = true ∧ ∃ r : SettingsRequest,
                (r ∈ q.hs.settingsQueue ∨ ∃ page, q.hs.saver = .settings r page false) ∧ r.cell = c ∧ r.channel = n ∧
                r.value = .feed f ∧ r.clamped = false) ∧
          (s.part.hs.saver = .idle → s.part.hs.foldAtWrite = false →
            (Page.withSetting s.part.hs.page n (.feed f)).feedsDisjoint = false →
            Completes .setFeed s (.ofCommand .setFeed) fun q =>
              q.Answered c .badArgument (s.part.rq.completion + 1) ∧ q.hs.page = s.part.hs.page)) ∧
        (ink = 255 ∨ 12 ≤ a.toNat ∧ a ≠ 255 ∨ 12 ≤ b.toNat ∧ b ≠ 255 ∨ a = 255 ∧ b ≠ 255 ∨ a.toNat < 12 ∧ b = a →
          Completes .setFeed s (.ofCommand .setFeed) fun q =>
            q.Answered c .badArgument (s.part.rq.completion + 1))

/-- R58, R59: READ_HISTORY by place number, by serial or by slot returns the entry found, field for field as 12.5 lays it
out, with its place, its dirty flag and its held mark, or the not-found mark; a place number above 63, a target above 11 and
any other selector are refused BAD_ARGUMENT. FORGET_HISTORY completes OK when there is no entry for the serial and BUSY when
a slot holds it, and otherwise empties the place, dirties it and parks. The write that answers it is the first that begins after
the removal: at once when the saver is idle with nothing to write, else when the saver takes the place from its queue. When that
write is verified the request completes OK, when it fails twice STORE_FAILED, with the found mark; after a first failure it
stays parked. That STORE_FAILED comes with the found mark is the model's choice (assumption 19), and so is that a second attempt
of a write which began before the removal does not answer the request (assumption 56). -/
def Obligations.HistoryRequests : Prop :=
  ∀ (s : State) (c : CellNo), Memory.wf s.part.board = true →
    (s.part.Quiet → s.part.Offers (some .readHistory) c →
      (∀ k e, s.part.SelectsPlace c (some k) → (s.part.place k).entry = some e → e.InRange →
        Completes .readHistory s (.answering c) fun q =>
          q.Answered c .ok (s.part.rq.completion + 1) ∧
          q.argumentByte c 0 = 1 ∧ (q.argumentByte c 1).toNat = k.val ∧
          (q.argumentByte c 2).getLsbD 0 = e.exhausted ∧ (q.argumentByte c 2).getLsbD 1 = e.tallyFull ∧
          (q.argumentByte c 2).getLsbD 2 = (s.part.place k).dirty ∧
          (q.argumentByte c 2).getLsbD 3 = s.part.serialHeld e.serial ∧ (q.argumentByte c 2).toNat < 16 ∧
          (q.argumentByte c 3).toNat = e.verdict.code ∧ q.argument c 4 8 = e.serial.toNat ∧
          q.argumentByte c 12 = e.ink ∧ q.argumentByte c 13 = e.volumeClass ∧ q.argument c 14 2 = e.tally ∧
          q.argument c 16 4 = e.remaining ∧ q.argument c 20 4 = e.carried ∧ q.argument c 24 4 = e.postEmpty ∧
          (q.argumentByte c 28).toNat = e.inDoubt ∧ (q.argumentByte c 29).toNat = e.lastSlot.val ∧
          q.argument c 30 2 = 0 ∧ q.argument c 32 4 = e.sighting) ∧
      (∀ place, s.part.SelectsPlace c place → (∀ k, place = some k → (s.part.place k).entry = none) →
        Completes .readHistory s (.answering c) fun q =>
          q.Answered c .ok (s.part.rq.completion + 1) ∧ q.argumentByte c 0 = 0 ∧ q.argument c 4 8 = 0) ∧
      (s.part.optionByte c = 0 ∧ 63 < (s.part.argumentByte c 0).toNat ∨
          s.part.optionByte c = 2 ∧ 11 < (s.part.targetByte c).toNat ∨ 2 < (s.part.optionByte c).toNat →
        Completes .readHistory s (.answering c) fun q => q.Answered c .badArgument (s.part.rq.completion + 1))) ∧
    (∀ serial : Quad, s.part.Offers (some .forgetHistory) c → s.part.ps.serviceMode = true → s.part.Loose c →
      s.part.hs.foldAtWrite = false → serial = BitVec.ofNat 64 (s.part.argument c 0 8) →
      (s.part.findPlace serial = none →
        Completes .forgetHistory s (.ofCommand .forgetHistory) fun q =>
          q.Answered c .ok (s.part.rq.completion + 1) ∧ q.argumentByte c 0 = 0) ∧
      (∀ k, s.part.findPlace serial = some k → s.part.serialHeld serial = true →
        Completes .forgetHistory s (.ofCommand .forgetHistory) fun q =>
          q.Answered c .busy (s.part.rq.completion + 1) ∧ q.place k = s.part.place k) ∧
      (∀ k, s.part.findPlace serial = some k → s.part.serialHeld serial = false →
        Completes .forgetHistory s (.ofCommand .forgetHistory) fun q =>
          q.place k = ⟨none, true⟩ ∧ ∃ covered, q.ParkedAs c (.forget k covered) ∧
            (s.part.hs.saver = .idle → s.part.nextWrite = none →
              covered = true ∧ q.hs.saver = .place k none s.part.hs.sightings false false) ∧
            (s.part.hs.saver ≠ .idle → covered = false ∧ (k ∈ q.hs.saveQueue ∨ q.hs.saver.writes k = true)))) ∧
    ∀ (j : Fin 64) (copy : Option Entry) (counter : Nat) (second changed : Bool),
      s.part.hs.saver = .place j copy counter second changed → s.part.Loose c → s.part.hs.foldAtWrite = false →
      (∀ k rest, (∀ x ∈ s.part.rq.parked, x.cell = c → x.work = .forget k false) → ⟨c, .forget k false⟩ ∈ s.part.rq.parked →
        s.part.works = true → s.part.nextStored = none → s.part.hs.saveQueue = k :: rest → k ≠ j →
        Completes (.historyWriteAttemptEnd true) s (.ofCommand (.historyWriteAttemptEnd true)) fun q =>
          q.hs.saver.writes k = true ∧ ⟨c, .forget k true⟩ ∈ q.rq.parked) ∧
      (⟨c, .forget j true⟩ ∈ s.part.rq.parked →
        Completes (.historyWriteAttemptEnd true) s (.ofCommand (.historyWriteAttemptEnd true)) (fun q =>
          (∃ m, q.Answered c .ok m) ∧ q.argumentByte c 0 = 1 ∧ (∀ x ∈ q.rq.parked, x.cell ≠ c) ∧
            q.nv = { s.part.nv with places := s.part.nv.places.set j (nvPlaceOf copy counter) }) ∧
        (second = true →
          Completes (.historyWriteAttemptEnd false) s (.ofCommand (.historyWriteAttemptEnd false)) fun q =>
            (∃ m, q.Answered c .storeFailed m) ∧ q.argumentByte c 0 = 1 ∧ (∀ x ∈ q.rq.parked, x.cell ≠ c) ∧
              (j ∈ q.hs.saveQueue ∨ q.hs.saver.writes j = true) ∧ q.noticePending .store = true) ∧
        (second = false →
          Completes (.historyWriteAttemptEnd false) s (.ofCommand (.historyWriteAttemptEnd false)) fun q =>
            ⟨c, .forget j true⟩ ∈ q.rq.parked ∧ q.hs.saver.writes j = true))

/-- R169: SET_POWER. RUN and DOZE take effect at once and end a wind-down. SLEEP begins a wind-down with its wake set, and
the cell parks; with the supply low it is refused NOT_NOW, with an unknown wake-set bit or power state BAD_ARGUMENT. -/
def Obligations.SetPower : Prop :=
  ∀ (s : State) (c : CellNo), Memory.wf s.part.board = true → s.part.Offers (some .setPower) c → s.part.Loose c →
    s.part.ps.windDownCell ≠ some c →
    (∀ power, s.part.argumentByte c 0 = 0 ∧ power = .run ∨ s.part.argumentByte c 0 = 1 ∧ power = .doze →
      Completes .setPower s (.ofCommand .setPower) fun q =>
        q.ps.power = power ∧ q.ps.windDownCell = none ∧ ∃ n, q.Answered c .ok n) ∧
    (s.part.argumentByte c 0 = 2 → (s.part.argumentByte c 1).toNat < 4 → s.part.ps.supplyLow = false →
      s.part.ps.windDownCell = none →
      Completes .setPower s (.ofCommand .setPower) fun q =>
        q.ps.power = .windingDown ∧ q.ps.windDownCell = some c ∧ q.ParkedAs c .windDown ∧
        q.ps.wakeRequests = (s.part.argumentByte c 1).getLsbD 0 ∧
        q.ps.wakeBands = (s.part.argumentByte c 1).getLsbD 1) ∧
    (∀ old, s.part.argumentByte c 0 = 2 → (s.part.argumentByte c 1).toNat < 4 → s.part.ps.supplyLow = false →
      s.part.ps.windDownCell = some old → s.part.Quiet →
      Completes .setPower s (.ofCommand .setPower) fun q =>
        q.ps.power = s.part.ps.power ∧ q.ps.windDownCell = some c ∧ q.ParkedAs c .windDown ∧
        q.Answered old .superseded (s.part.rq.completion + 1)) ∧
    (s.part.argumentByte c 0 = 2 → (s.part.argumentByte c 1).toNat < 4 → s.part.ps.supplyLow = true →
      Completes .setPower s (.ofCommand .setPower) fun q =>
        q.ps = s.part.ps ∧ q.Answered c .notNow (s.part.rq.completion + 1)) ∧
    (2 < (s.part.argumentByte c 0).toNat ∨ s.part.argumentByte c 0 = 2 ∧ 4 ≤ (s.part.argumentByte c 1).toNat →
      Completes .setPower s (.ofCommand .setPower) fun q =>
        q.ps = s.part.ps ∧ q.Answered c .badArgument (s.part.rq.completion + 1))

/-- R160, R162: ENTER_SERVICE during a lockout completes LOCKED, with a check outstanding BUSY, in service mode OK;
otherwise the cell parks as the check outstanding and a TOKEN_CHECK is queued. LEAVE_SERVICE ends service mode and its
idle timer. -/
def Obligations.ServiceRequests : Prop :=
  ∀ (s : State) (c : CellNo), s.part.Quiet → Memory.wf s.part.board = true →
    (s.part.Offers (some .enterService) c →
      (s.part.ps.lockoutRunning = true →
        Completes .enterService s (.answering c) fun q => q.Answered c .locked (s.part.rq.completion + 1)) ∧
      (s.part.ps.lockoutRunning = false → s.part.ps.checkOutstanding.isSome = true →
        Completes .enterService s (.answering c) fun q => q.Answered c .busy (s.part.rq.completion + 1)) ∧
      (s.part.ps.lockoutRunning = false → s.part.ps.checkOutstanding = none → s.part.ps.serviceMode = true →
        Completes .enterService s (.answering c) fun q => q.Answered c .ok (s.part.rq.completion + 1)) ∧
      (s.part.ps.lockoutRunning = false → s.part.ps.checkOutstanding = none → s.part.ps.serviceMode = false →
        Completes .enterService s (.and (.answering c) (.and (.only .gate) (.only .digests))) fun q =>
          q.ParkedAs c .enterService ∧ q.ps.checkOutstanding = some c ∧
          q.DigestWaits .gate (.tokenCheck s.part.hs.counter (BitVec.ofNat 64 (s.part.argument c 0 8))))) ∧
    (s.part.Offers (some .leaveService) c →
      Completes .leaveService s (.and (.answering c) (.only .service)) fun q =>
        q.ps.serviceMode = false ∧ q.ps.idleRunning = false ∧ q.Answered c .ok (s.part.rq.completion + 1))

/-- R73, R77: SET_REFILL_MARGIN in service mode takes the margin into 1 to 500 per mille, and every slot in the in-service
group whose post-empty draw is tested and exceeds the new margin volume becomes REFILLED. -/
def Obligations.RefillMargin : Prop :=
  ∀ (s : State) (c : CellNo) (margin : Nat), Memory.wf s.part.board = true → s.part.Offers (some .setRefillMargin) c →
    s.part.ps.serviceMode = true → s.part.Loose c → s.part.hs.foldAtWrite = false →
    margin = max 1 (min 500 (s.part.argument c 0 2)) →
    Completes .setRefillMargin s (.ofCommand .setRefillMargin) fun q =>
      q.au.margin = margin ∧
      q.Answered c (if margin = s.part.argument c 0 2 then .ok else .clamped) (s.part.rq.completion + 1) ∧
      ∀ i, (s.part.slot i).state.inServiceGroup = true →
        ((s.part.slot i).marginTested = true →
          marginVolume margin (s.part.slot i).volumeClass < (s.part.volumes i).postEmpty →
          (q.slot i).verdict = some .refilled ∧ (q.volumes i).low = false ∧ (q.volumes i).spent = false) ∧
        ((s.part.slot i).marginTested = false ∨
            (s.part.volumes i).postEmpty ≤ marginVolume margin (s.part.slot i).volumeClass →
          q.slot i = s.part.slot i)

/-! ## Power, supply and resets -/

/-- R21, R122, R170, R171: a wind-down that is complete ends in SLEEP and its request completes OK. Every hold is cut off but
one that awaits a receipt: the single holds go back to the head of the bring-up class with their operations, in ascending slot
order, and a commit hold ends, its sent ADVANCE_TALLY in doubt. A deferred join is placed at the tail of the bring-up class,
that of a single hold behind the operation put back, as the model reads R21 (assumption 31). An outcome held for a LEAVING bay
is cut off with its operation, which is the model's choice (assumption 47). -/
def Obligations.WindDownEndsInSleep : Prop :=
  ∀ (s : State) (c : CellNo), Memory.wf s.part.board = true → s.part.windDownDone = true →
    s.part.ps.windDownCell = some c → s.part.Loose c → s.part.hs.foldAtWrite = false →
    Completes .windDownComplete s (.ofCommand .windDownComplete) fun q =>
      q.ps.power = .sleep ∧ q.ps.windDownCell = none ∧ q.ps.wakeRequests = s.part.ps.wakeRequests ∧
      q.ps.wakeBands = s.part.ps.wakeBands ∧ q.Answered c .ok (s.part.rq.completion + 1) ∧
      (∀ i, (q.commit i).windDownHolder = false) ∧
      (∀ i,
        ((∀ h, s.part.link i ≠ .held h) → q.link i = s.part.link i ∧ (q.commit i).unsettled = (s.part.commit i).unsettled) ∧
        ∀ h, s.part.link i = .held h →
          (h.commit = false → q.link i = .waitingBringUp h.op h.deferred) ∧
          (h.commit = true → h.phase = .awaitingReceipt →
            q.link i = s.part.link i ∧ (q.commit i).unsettled = (s.part.commit i).unsettled) ∧
          (h.commit = true → h.phase ≠ .awaitingReceipt →
            q.link i = (match h.deferred with
              | some op => .waitingBringUp op none
              | none => .none) ∧
            (q.commit i).unsettled = none ∧ (q.commit i).uncommitted = (s.part.commit i).uncommitted ∧
            (q.commit i).inDoubt = (match (s.part.commit i).unsettled with
              | some a => a.units
              | none => (s.part.commit i).inDoubt))) ∧
      q.lp.commit = s.part.lp.commit ∧
      q.lp.bringUp = (allSlots.filter fun i => (s.part.link i).singleHold) ++ s.part.lp.bringUp ++
        allSlots.filter fun i =>
          match s.part.link i with
          | .held h => h.deferred.isSome && !(h.commit && decide (h.phase = .awaitingReceipt))
          | .none | .waitingBringUp _ _ | .waitingCommit => false

/-- R20, R55 to R57, R172: outside a sequence the comparator's changes are reported at once, and each raises SUPPLY. LOW
sets SUPPLY_LOW and enables fold at write; the entries that a slot with a history link holds go to the head of the save
queue, in the order of the lowest slot that holds each, and are dirty, and the saver, when it may, takes the first of them and folds the slot that holds it; a commit hold with no operation in
flight ends, the model's reading of R20 (assumption 22), and no other link state changes. GOOD clears SUPPLY_LOW and
disables fold at write, and undoes the fold of a slot that alone holds its entry: the carried volume returns to the slot,
and the units in doubt with it where the slot has none. -/
def Obligations.SupplyChanges : Prop :=
  ∀ s : State, s.part.busy = false →
    (∀ held : List (Fin 64), s.part.ps.comparatorLow = false →
      held = ((allSlots.filterMap s.part.heldPlace).eraseDups.filter fun k =>
        allSlots.any fun i => s.part.linkedPlace i == some k) →
      Completes .supplyLow s (.ofCommand .supplyLow) fun q =>
        q.ps = { s.part.ps with comparatorLow := true, supplyLow := true } ∧ q.hs.foldAtWrite = true ∧
          q.noticePending .supply = true ∧
        (∀ i, (∀ h, s.part.link i = .held h → h.commit = true → h.phase = .ready → (q.link i).isHeld = false) ∧
          ((∀ h, s.part.link i = .held h → h.commit = true → h.phase ≠ .ready) → q.link i = s.part.link i)) ∧
        (s.part.hs.saver ≠ .idle →
          q.hs.saveQueue = held ++ s.part.hs.saveQueue.filter (fun k => !held.contains k) ∧
          ∀ k ∈ held, (q.place k).dirty = true ∧ (q.place k).entry = (s.part.place k).entry) ∧
        ∀ (k : Fin 64) (rest : List (Fin 64)) (i : Slot) (e : Entry), s.part.hs.saver = .idle →
          s.part.asleep = false → held = k :: rest → (s.part.place k).entry = some e → s.part.SoleHolder i e →
          (s.part.commit i).unsettled = none →
          q.hs.saver = .place k (some (s.part.foldInto i e)) s.part.hs.sightings false false ∧
          q.place k = ⟨some (s.part.foldInto i e), true⟩ ∧
          (q.commit i).uncommitted = 0 ∧ (q.commit i).inDoubt = 0 ∧
          q.hs.saveQueue = rest ++ s.part.hs.saveQueue.filter (fun j => !held.contains j)) ∧
    (s.part.ps.comparatorLow = true →
      Completes .supplyGood s (.ofCommand .supplyGood) fun q =>
        q.ps = { s.part.ps with comparatorLow := false, supplyLow := false } ∧ q.hs.foldAtWrite = false ∧
          q.noticePending .supply = true ∧
        ∀ (i : Slot) (k : Fin 64) (e : Entry), s.part.linkedPlace i = some k → (s.part.place k).entry = some e →
          s.part.SoleHolder i e →
          q.place k = ⟨some { e with carried := 0 }, true⟩ ∧
          (q.commit i).uncommitted = satAdd max32 (s.part.commit i).uncommitted e.carried ∧
          (q.commit i).inDoubt = if (s.part.commit i).inDoubt = 0 then e.inDoubt else (s.part.commit i).inDoubt)

/-- R145, R167, R172 to R174: what begins the sequences. The first GOOD at power-on starts the power-on sequence on its way to
its clearing point, SUPPLY_LOW being clear from then on, which is the model's choice (assumption 33). Outside a sequence an
assertion of the reset input begins a reset-line reset, with a fold phase when the supply is good, and a write of RESTART 1
begins a restart with one; that each of the three rows of the write of CONTROL's upper half begins it is the model's choice
(assumption 16). Either ends service mode and abandons what waits; a part in SLEEP or winding down is in RUN with
its wake set empty; every parked request completes ABORTED_RESTART but one whose settings write is under way, and no posted
cell is taken. A release of the input changes nothing but the input. -/
def Obligations.SequencesBegin : Prop :=
  ∀ s : State,
    (s.part.ps.sequence = some ⟨.powerOn, .waitGood⟩ → s.part.ps.comparatorLow = true →
      Completes .powerOn s (.ofCommand .powerOn) fun q =>
        q.ps = { s.part.ps with comparatorLow := false, supplyLow := false,
                                sequence := some ⟨.powerOn, .awaitClear⟩ }) ∧
    (∀ c kind fold, s.part.busy = false → s.part.BeginsReset c kind fold →
      Completes c s (.ofCommand c) fun q =>
        q.ps.sequence = some ⟨kind, if fold = true then .fold else .awaitClear⟩ ∧
        q.ps.resetAsserted = (s.part.ps.resetAsserted || kind == .resetLine) ∧
        q.ps.serviceMode = false ∧ q.ps.checkOutstanding = none ∧
        q.ps.windDownCell = none ∧ q.lp.bringUp = [] ∧ q.lp.commit = [] ∧
        (∀ i, (q.slot i).timer = .stopped ∧ (q.slot i).parkedCell = none ∧
          (q.slot i).verdict = (s.part.slot i).verdict ∧ (q.slot i).identity = (s.part.slot i).identity) ∧
        q.nv = s.part.nv ∧
        (s.part.ps.power = .sleep ∨ s.part.ps.power = .windingDown →
          q.ps.power = .run ∧ q.ps.wakeRequests = false ∧ q.ps.wakeBands = false) ∧
        (s.part.ps.power = .run ∨ s.part.ps.power = .doze → q.ps.power = s.part.ps.power) ∧
        q.rq.posted = s.part.rq.posted ∧
        (Memory.wf s.part.board = true → ∀ k ∈ s.part.rq.parked, s.part.hs.saver.settingsCell ≠ some k.cell →
          q.cellState k.cell = .done ∧ q.readByte (cellBase k.cell + 3) = BitVec.ofNat 8 (Result.abortedRestart).code ∧
          ∀ x ∈ q.rq.parked, x.cell ≠ k.cell) ∧
        ∀ cell, s.part.hs.saver.settingsCell = some cell → q.cellState cell = s.part.cellState cell) ∧
    (s.part.Quiet → s.part.ps.resetAsserted = true →
      Completes .resetReleased s (.only .resetInput) fun q => q.ps.resetAsserted = false)

/-- R155, R159, R162, R174: the ends of the fold phase, of the lockout, of the idle timer and of a pattern period. Each
changes the one thing it ends; a pattern's boundary begins a PWM period too (R156), which no earlier change of the
brightness lies within. -/
def Obligations.TimersEnd : Prop :=
  ∀ s : State, s.part.Quiet →
    (∀ kind, s.part.ps.sequence = some ⟨kind, .fold⟩ →
      (s.part.foldDrained = true →
        Completes .foldPhaseEnd s (.only .sequence) fun q => q.ps.sequence = some ⟨kind, .awaitClear⟩) ∧
      Completes .foldPhaseTimeLimit s (.only .sequence) fun q => q.ps.sequence = some ⟨kind, .awaitClear⟩) ∧
    (s.part.ps.lockoutRunning = true →
      Completes .lockoutTimerExpiry s (.only .gate) fun q =>
        q.ps.lockoutRunning = false ∧ q.ps.failedAttempts = s.part.ps.failedAttempts) ∧
    (s.part.ps.idleRunning = true →
      Completes .idleTimerExpiry s (.only .service) fun q =>
        q.ps.serviceMode = false ∧ q.ps.idleRunning = false) ∧
    ∀ b, s.part.asleep = false →
      Completes (.patternPeriodEnd b) s (.and (.only (.current b)) (.only .dimming)) fun q =>
        (q.bay b).current = (s.part.bay b).selected ∧ q.earlierBrightness = []

/-- R4, R22, R23, R36, R120, R137, R145, R149, R150, R159, R168, R175: the clearing point, block by block. Board: every byte
reads 0 but in the slot record of a bay with its contact closed. Engine port: a restart keeps mask level, polarity and byte
order, else they take their defaults; the held lower half of CONTROL is empty and dropped writes and bank overruns are 0.
Request unit: nothing posted or parked, completion number 0. Bay monitor: a bay with its contact closed is SETTLING with its
settle timer running, any other is ABSENT with its timer stopped; no settled declaration is held, every pattern is OFF, the
brightness setting is 255. Link pool: every link state is NONE, both wait-list classes are empty. Digest engine: queue
empty, nothing held behind it, idle. Slot manager: every slot has its values after a reset, but is SETTLING, as its record
shows, where the contact is closed. Accounting unit and commit engine: every item has its value after a reset, charge list
empty, quantum 10, burst off. Notice unit: no class is pending but SLOT where a contact is closed; a restart keeps the
levels, else they are the defaults; the output is inactive. Power and supply: RUN, wake set empty, no wind-down cell,
service mode not in force, no check outstanding, no failed attempts, idle timer stopped, lockout timer stopped until BUSY
clears, and the load begins; comparator and reset input stay. History store: blank; NV stays. The model's choices: the slot
of a closed contact is SETTLING, with SLOT pending, from now on, the history store is blank until LOAD_COMPLETE, and
SUPPLY_LOW in STATUS stays (assumption 33); the gap of every line stands as counted (assumption 4); the PWM period under way
keeps the brightness that stood before, where it changes (assumption 3); no slot has a kept tally T_r (assumption 61). -/
def Obligations.ClearingPoint : Prop :=
  ∀ (s : State) (kind : SequenceKind), s.part.ps.sequence = some ⟨kind, .awaitClear⟩ → s.part.hs.saver = .idle →
    (kind = .resetLine → s.part.ps.resetAsserted = false) →
    Completes .clearingPoint s (.ofCommand .clearingPoint) fun q =>
      (∀ a, (∀ i, (s.part.bay i).contactClosed = true → a < slotBase i ∨ slotBase i + 64 ≤ a) → q.readByte a = 0) ∧
      q.rq = ⟨[], [], 0⟩ ∧
      q.lp = ⟨Vector.replicate 12 .none, [], []⟩ ∧
      q.dg = ⟨[], false, []⟩ ∧
      q.au = Accounting.blank ∧
      q.ce = ⟨Vector.replicate 12 CommitRow.blank, 10, false⟩ ∧
      q.hs = HistoryStore.blank ∧ q.nv = s.part.nv ∧
      q.ps = { power := .run, wakeRequests := false, wakeBands := false, windDownCell := none,
               comparatorLow := s.part.ps.comparatorLow, supplyLow := s.part.ps.supplyLow,
               sequence := some ⟨kind, .load⟩, resetAsserted := s.part.ps.resetAsserted, serviceMode := false,
               checkOutstanding := none, failedAttempts := 0, lockoutRunning := false, idleRunning := false } ∧
      q.brightness = 255 ∧
      q.earlierBrightness = (if s.part.effectiveBrightness = 255 then [] else [s.part.effectiveBrightness]) ∧
      (∀ i, ((s.part.bay i).contactClosed = true →
          q.bay i = { Bay.blank true with presence := .settling, timer := .settle } ∧
          q.slot i = { SlotRow.blank with state := .settling } ∧ q.noticePending .slot = true ∧
          q.Shows (slotBase i) (q.slotFields i ++ slotZeroFields)) ∧
        ((s.part.bay i).contactClosed = false → q.bay i = Bay.blank false ∧ q.slot i = SlotRow.blank)) ∧
      (∀ c, c ≠ .slot → q.noticePending c = false) ∧
      ((∀ i, (s.part.bay i).contactClosed = false) → q.nu.pending = 0) ∧
      q.nu.outputHigh = (!q.port.activeHigh) ∧
      (kind = .restart →
        q.port = ⟨s.part.port.maskLevel, s.part.port.activeHigh, s.part.port.bigEndian, none, 0, 0⟩ ∧
        q.nu.levels = s.part.nu.levels) ∧
      (kind ≠ .restart → q.port = ⟨0, false, false, none, 0, 0⟩ ∧ q.nu.levels = #v[3, 3, 4, 6, 5, 7, 6, 2])

/-- R60, R85, R101, R164, R165, R172, R175: the load ends and BUSY clears: history, page and counter are those of NV,
every channel has its calibration and feed from the page, the lockout runs, SUPPLY_LOW shows the comparator, and damage
found raises STORE. A SETTLING slot whose settled declaration was held becomes IDENTIFY. -/
def Obligations.LoadEndsTheSequence : Prop :=
  ∀ (s : State) (kind : SequenceKind), s.part.ps.sequence = some ⟨kind, .load⟩ →
    Completes .loadComplete s (.ofCommand .loadComplete) fun q =>
      q.ps = { s.part.ps with sequence := none, supplyLow := s.part.ps.comparatorLow, lockoutRunning := true } ∧
      q.nv = s.part.nv ∧ q.hs.page = s.part.nv.loadPage ∧ q.hs.counter = s.part.nv.loadCounter ∧
      q.hs.sightings = s.part.nv.loadSightings ∧ q.hs.storeFault = s.part.nv.loadFault ∧
      (s.part.nv.loadFault = true → q.noticePending .store = true) ∧
      (s.part.ps.comparatorLow = false → ∀ k, q.place k = s.part.nv.loadPlace k) ∧
      (∀ c, (q.channel c).calibration = Page.calibrationOf s.part.nv.loadPage c ∧
        (q.channel c).feed = Page.feedOf s.part.nv.loadPage c) ∧
      ∀ b, (s.part.slot b).state = .settling → (s.part.bay b).settledHeld = true →
        (q.slot b).state = .identify ∧ (q.bay b).settledHeld = false

/-- R60, R167, R172: a loss of power leaves the part waiting for the first GOOD of the next power-on, with the contacts,
the reset input and NV; a write under way leaves its target failing its check. That the reset input keeps its state
(assumption 34) and that the board and the slots read 0 and EMPTY before the next clearing point (assumption 4), with
no kept tally T_r (assumption 61), are the model's choices. -/
def Obligations.PowerLossKeepsNv : Prop :=
  ∀ s : State, Completes .powerLoss s (.ofCommand .powerLoss) fun q =>
    q.readRegister .status = 0x00000011 ∧ q.ps.sequence = some ⟨.powerOn, .waitGood⟩ ∧ (∀ a, q.readByte a = 0) ∧
    (∀ i, q.slot i = SlotRow.blank ∧ (q.bay i).contactClosed = (s.part.bay i).contactClosed) ∧
    q.ps.resetAsserted = s.part.ps.resetAsserted ∧
    (s.part.hs.saver = .idle → q.nv = s.part.nv) ∧
    (∀ k copy n second changed, s.part.hs.saver = .place k copy n second changed →
      q.nv = { s.part.nv with places := s.part.nv.places.set k .failing }) ∧
    (∀ value second, s.part.hs.saver = .counter value second →
      q.nv = { s.part.nv with counters := s.part.nv.counters.set s.part.counterTarget none }) ∧
    ∀ r page second, s.part.hs.saver = .settings r page second →
      q.nv = { s.part.nv with pages := s.part.nv.pages.set s.part.pageTarget none }
end

