-- ==== Sys2Proof/Laws/State.lean ====
section
/-! SUPPORT. The small lemmas of the state: what each row update and each board write leaves as it was. -/

-- Declarations are checked one after another, which keeps the number of waiting threads small.
set_option Elab.async false

namespace Sys2Proof.Machine
open Sys2Proof

/-! ### `Part.setBay` -/

@[simp] theorem Part.setBay_board (p : Part) (b : Slot) (r : Bay) : (p.setBay b r).board = p.board := rfl
@[simp] theorem Part.setBay_port (p : Part) (b : Slot) (r : Bay) : (p.setBay b r).port = p.port := rfl
@[simp] theorem Part.setBay_rq (p : Part) (b : Slot) (r : Bay) : (p.setBay b r).rq = p.rq := rfl
@[simp] theorem Part.setBay_brightness (p : Part) (b : Slot) (r : Bay) : (p.setBay b r).brightness = p.brightness := rfl
@[simp] theorem Part.setBay_earlierBrightness (p : Part) (b : Slot) (r : Bay) : (p.setBay b r).earlierBrightness = p.earlierBrightness := rfl
@[simp] theorem Part.setBay_lp (p : Part) (b : Slot) (r : Bay) : (p.setBay b r).lp = p.lp := rfl
@[simp] theorem Part.setBay_dg (p : Part) (b : Slot) (r : Bay) : (p.setBay b r).dg = p.dg := rfl
@[simp] theorem Part.setBay_sm (p : Part) (b : Slot) (r : Bay) : (p.setBay b r).sm = p.sm := rfl
@[simp] theorem Part.setBay_au (p : Part) (b : Slot) (r : Bay) : (p.setBay b r).au = p.au := rfl
@[simp] theorem Part.setBay_ce (p : Part) (b : Slot) (r : Bay) : (p.setBay b r).ce = p.ce := rfl
@[simp] theorem Part.setBay_hs (p : Part) (b : Slot) (r : Bay) : (p.setBay b r).hs = p.hs := rfl
@[simp] theorem Part.setBay_nv (p : Part) (b : Slot) (r : Bay) : (p.setBay b r).nv = p.nv := rfl
@[simp] theorem Part.setBay_nu (p : Part) (b : Slot) (r : Bay) : (p.setBay b r).nu = p.nu := rfl
@[simp] theorem Part.setBay_ps (p : Part) (b : Slot) (r : Bay) : (p.setBay b r).ps = p.ps := rfl
@[simp] theorem Part.setBay_free (p : Part) (b : Slot) (r : Bay) : (p.setBay b r).free = p.free := rfl
@[simp] theorem Part.setBay_openWrites (p : Part) (b : Slot) (r : Bay) : (p.setBay b r).openWrites = p.openWrites := rfl
@[simp] theorem Part.setBay_bay_self (p : Part) (b : Slot) (r : Bay) : (p.setBay b r).bay b = r := by
  simp [Part.setBay, Part.bay]
theorem Part.setBay_bay_ne (p : Part) (b : Slot) (r : Bay) (j : Slot) (h : j ≠ b) : (p.setBay b r).bay j = p.bay j := by
  have := Fin.val_ne_of_ne h
  simp [Part.setBay, Part.bay, this.symm]
@[simp] theorem Part.setBay_link (p : Part) (b : Slot) (r : Bay) (j : Slot) : (p.setBay b r).link j = p.link j := rfl
@[simp] theorem Part.setBay_slot (p : Part) (b : Slot) (r : Bay) (j : Slot) : (p.setBay b r).slot j = p.slot j := rfl
@[simp] theorem Part.setBay_channel (p : Part) (b : Slot) (r : Bay) (j : Channel) : (p.setBay b r).channel j = p.channel j := rfl
@[simp] theorem Part.setBay_volumes (p : Part) (b : Slot) (r : Bay) (j : Slot) : (p.setBay b r).volumes j = p.volumes j := rfl
@[simp] theorem Part.setBay_commit (p : Part) (b : Slot) (r : Bay) (j : Slot) : (p.setBay b r).commit j = p.commit j := rfl
@[simp] theorem Part.setBay_place (p : Part) (b : Slot) (r : Bay) (j : Fin 64) : (p.setBay b r).place j = p.place j := rfl

/-! ### `Part.setLink` -/

@[simp] theorem Part.setLink_board (p : Part) (i : Slot) (r : LinkState) : (p.setLink i r).board = p.board := rfl
@[simp] theorem Part.setLink_port (p : Part) (i : Slot) (r : LinkState) : (p.setLink i r).port = p.port := rfl
@[simp] theorem Part.setLink_rq (p : Part) (i : Slot) (r : LinkState) : (p.setLink i r).rq = p.rq := rfl
@[simp] theorem Part.setLink_bays (p : Part) (i : Slot) (r : LinkState) : (p.setLink i r).bays = p.bays := rfl
@[simp] theorem Part.setLink_brightness (p : Part) (i : Slot) (r : LinkState) : (p.setLink i r).brightness = p.brightness := rfl
@[simp] theorem Part.setLink_earlierBrightness (p : Part) (i : Slot) (r : LinkState) : (p.setLink i r).earlierBrightness = p.earlierBrightness := rfl
@[simp] theorem Part.setLink_dg (p : Part) (i : Slot) (r : LinkState) : (p.setLink i r).dg = p.dg := rfl
@[simp] theorem Part.setLink_sm (p : Part) (i : Slot) (r : LinkState) : (p.setLink i r).sm = p.sm := rfl
@[simp] theorem Part.setLink_au (p : Part) (i : Slot) (r : LinkState) : (p.setLink i r).au = p.au := rfl
@[simp] theorem Part.setLink_ce (p : Part) (i : Slot) (r : LinkState) : (p.setLink i r).ce = p.ce := rfl
@[simp] theorem Part.setLink_hs (p : Part) (i : Slot) (r : LinkState) : (p.setLink i r).hs = p.hs := rfl
@[simp] theorem Part.setLink_nv (p : Part) (i : Slot) (r : LinkState) : (p.setLink i r).nv = p.nv := rfl
@[simp] theorem Part.setLink_nu (p : Part) (i : Slot) (r : LinkState) : (p.setLink i r).nu = p.nu := rfl
@[simp] theorem Part.setLink_ps (p : Part) (i : Slot) (r : LinkState) : (p.setLink i r).ps = p.ps := rfl
@[simp] theorem Part.setLink_free (p : Part) (i : Slot) (r : LinkState) : (p.setLink i r).free = p.free := rfl
@[simp] theorem Part.setLink_openWrites (p : Part) (i : Slot) (r : LinkState) : (p.setLink i r).openWrites = p.openWrites := rfl
@[simp] theorem Part.setLink_lp_bringUp (p : Part) (i : Slot) (r : LinkState) : (p.setLink i r).lp.bringUp = p.lp.bringUp := rfl
@[simp] theorem Part.setLink_lp_commit (p : Part) (i : Slot) (r : LinkState) : (p.setLink i r).lp.commit = p.lp.commit := rfl
@[simp] theorem Part.setLink_bay (p : Part) (i : Slot) (r : LinkState) (j : Slot) : (p.setLink i r).bay j = p.bay j := rfl
@[simp] theorem Part.setLink_link_self (p : Part) (i : Slot) (r : LinkState) : (p.setLink i r).link i = r := by
  simp [Part.setLink, Part.link]
theorem Part.setLink_link_ne (p : Part) (i : Slot) (r : LinkState) (j : Slot) (h : j ≠ i) : (p.setLink i r).link j = p.link j := by
  have := Fin.val_ne_of_ne h
  simp [Part.setLink, Part.link, this.symm]
@[simp] theorem Part.setLink_slot (p : Part) (i : Slot) (r : LinkState) (j : Slot) : (p.setLink i r).slot j = p.slot j := rfl
@[simp] theorem Part.setLink_channel (p : Part) (i : Slot) (r : LinkState) (j : Channel) : (p.setLink i r).channel j = p.channel j := rfl
@[simp] theorem Part.setLink_volumes (p : Part) (i : Slot) (r : LinkState) (j : Slot) : (p.setLink i r).volumes j = p.volumes j := rfl
@[simp] theorem Part.setLink_commit (p : Part) (i : Slot) (r : LinkState) (j : Slot) : (p.setLink i r).commit j = p.commit j := rfl
@[simp] theorem Part.setLink_place (p : Part) (i : Slot) (r : LinkState) (j : Fin 64) : (p.setLink i r).place j = p.place j := rfl

/-! ### `Part.setSlot` -/

@[simp] theorem Part.setSlot_board (p : Part) (i : Slot) (r : SlotRow) : (p.setSlot i r).board = p.board := rfl
@[simp] theorem Part.setSlot_port (p : Part) (i : Slot) (r : SlotRow) : (p.setSlot i r).port = p.port := rfl
@[simp] theorem Part.setSlot_rq (p : Part) (i : Slot) (r : SlotRow) : (p.setSlot i r).rq = p.rq := rfl
@[simp] theorem Part.setSlot_bays (p : Part) (i : Slot) (r : SlotRow) : (p.setSlot i r).bays = p.bays := rfl
@[simp] theorem Part.setSlot_brightness (p : Part) (i : Slot) (r : SlotRow) : (p.setSlot i r).brightness = p.brightness := rfl
@[simp] theorem Part.setSlot_earlierBrightness (p : Part) (i : Slot) (r : SlotRow) : (p.setSlot i r).earlierBrightness = p.earlierBrightness := rfl
@[simp] theorem Part.setSlot_lp (p : Part) (i : Slot) (r : SlotRow) : (p.setSlot i r).lp = p.lp := rfl
@[simp] theorem Part.setSlot_dg (p : Part) (i : Slot) (r : SlotRow) : (p.setSlot i r).dg = p.dg := rfl
@[simp] theorem Part.setSlot_au (p : Part) (i : Slot) (r : SlotRow) : (p.setSlot i r).au = p.au := rfl
@[simp] theorem Part.setSlot_ce (p : Part) (i : Slot) (r : SlotRow) : (p.setSlot i r).ce = p.ce := rfl
@[simp] theorem Part.setSlot_hs (p : Part) (i : Slot) (r : SlotRow) : (p.setSlot i r).hs = p.hs := rfl
@[simp] theorem Part.setSlot_nv (p : Part) (i : Slot) (r : SlotRow) : (p.setSlot i r).nv = p.nv := rfl
@[simp] theorem Part.setSlot_nu (p : Part) (i : Slot) (r : SlotRow) : (p.setSlot i r).nu = p.nu := rfl
@[simp] theorem Part.setSlot_ps (p : Part) (i : Slot) (r : SlotRow) : (p.setSlot i r).ps = p.ps := rfl
@[simp] theorem Part.setSlot_free (p : Part) (i : Slot) (r : SlotRow) : (p.setSlot i r).free = p.free := rfl
@[simp] theorem Part.setSlot_openWrites (p : Part) (i : Slot) (r : SlotRow) : (p.setSlot i r).openWrites = p.openWrites := rfl
@[simp] theorem Part.setSlot_bay (p : Part) (i : Slot) (r : SlotRow) (j : Slot) : (p.setSlot i r).bay j = p.bay j := rfl
@[simp] theorem Part.setSlot_link (p : Part) (i : Slot) (r : SlotRow) (j : Slot) : (p.setSlot i r).link j = p.link j := rfl
@[simp] theorem Part.setSlot_slot_self (p : Part) (i : Slot) (r : SlotRow) : (p.setSlot i r).slot i = r := by
  simp [Part.setSlot, Part.slot]
theorem Part.setSlot_slot_ne (p : Part) (i : Slot) (r : SlotRow) (j : Slot) (h : j ≠ i) : (p.setSlot i r).slot j = p.slot j := by
  have := Fin.val_ne_of_ne h
  simp [Part.setSlot, Part.slot, this.symm]
@[simp] theorem Part.setSlot_channel (p : Part) (i : Slot) (r : SlotRow) (j : Channel) : (p.setSlot i r).channel j = p.channel j := rfl
@[simp] theorem Part.setSlot_volumes (p : Part) (i : Slot) (r : SlotRow) (j : Slot) : (p.setSlot i r).volumes j = p.volumes j := rfl
@[simp] theorem Part.setSlot_commit (p : Part) (i : Slot) (r : SlotRow) (j : Slot) : (p.setSlot i r).commit j = p.commit j := rfl
@[simp] theorem Part.setSlot_place (p : Part) (i : Slot) (r : SlotRow) (j : Fin 64) : (p.setSlot i r).place j = p.place j := rfl

/-! ### `Part.setChannel` -/

@[simp] theorem Part.setChannel_board (p : Part) (c : Channel) (r : ChannelRow) : (p.setChannel c r).board = p.board := rfl
@[simp] theorem Part.setChannel_port (p : Part) (c : Channel) (r : ChannelRow) : (p.setChannel c r).port = p.port := rfl
@[simp] theorem Part.setChannel_rq (p : Part) (c : Channel) (r : ChannelRow) : (p.setChannel c r).rq = p.rq := rfl
@[simp] theorem Part.setChannel_bays (p : Part) (c : Channel) (r : ChannelRow) : (p.setChannel c r).bays = p.bays := rfl
@[simp] theorem Part.setChannel_brightness (p : Part) (c : Channel) (r : ChannelRow) : (p.setChannel c r).brightness = p.brightness := rfl
@[simp] theorem Part.setChannel_earlierBrightness (p : Part) (c : Channel) (r : ChannelRow) : (p.setChannel c r).earlierBrightness = p.earlierBrightness := rfl
@[simp] theorem Part.setChannel_lp (p : Part) (c : Channel) (r : ChannelRow) : (p.setChannel c r).lp = p.lp := rfl
@[simp] theorem Part.setChannel_dg (p : Part) (c : Channel) (r : ChannelRow) : (p.setChannel c r).dg = p.dg := rfl
@[simp] theorem Part.setChannel_sm (p : Part) (c : Channel) (r : ChannelRow) : (p.setChannel c r).sm = p.sm := rfl
@[simp] theorem Part.setChannel_ce (p : Part) (c : Channel) (r : ChannelRow) : (p.setChannel c r).ce = p.ce := rfl
@[simp] theorem Part.setChannel_hs (p : Part) (c : Channel) (r : ChannelRow) : (p.setChannel c r).hs = p.hs := rfl
@[simp] theorem Part.setChannel_nv (p : Part) (c : Channel) (r : ChannelRow) : (p.setChannel c r).nv = p.nv := rfl
@[simp] theorem Part.setChannel_nu (p : Part) (c : Channel) (r : ChannelRow) : (p.setChannel c r).nu = p.nu := rfl
@[simp] theorem Part.setChannel_ps (p : Part) (c : Channel) (r : ChannelRow) : (p.setChannel c r).ps = p.ps := rfl
@[simp] theorem Part.setChannel_free (p : Part) (c : Channel) (r : ChannelRow) : (p.setChannel c r).free = p.free := rfl
@[simp] theorem Part.setChannel_openWrites (p : Part) (c : Channel) (r : ChannelRow) : (p.setChannel c r).openWrites = p.openWrites := rfl
@[simp] theorem Part.setChannel_au_slots (p : Part) (c : Channel) (r : ChannelRow) : (p.setChannel c r).au.slots = p.au.slots := rfl
@[simp] theorem Part.setChannel_au_margin (p : Part) (c : Channel) (r : ChannelRow) : (p.setChannel c r).au.margin = p.au.margin := rfl
@[simp] theorem Part.setChannel_au_betweenPages (p : Part) (c : Channel) (r : ChannelRow) : (p.setChannel c r).au.betweenPages = p.au.betweenPages := rfl
@[simp] theorem Part.setChannel_au_lastSequence (p : Part) (c : Channel) (r : ChannelRow) : (p.setChannel c r).au.lastSequence = p.au.lastSequence := rfl
@[simp] theorem Part.setChannel_au_bankSeen (p : Part) (c : Channel) (r : ChannelRow) : (p.setChannel c r).au.bankSeen = p.au.bankSeen := rfl
@[simp] theorem Part.setChannel_au_sequenceGaps (p : Part) (c : Channel) (r : ChannelRow) : (p.setChannel c r).au.sequenceGaps = p.au.sequenceGaps := rfl
@[simp] theorem Part.setChannel_au_chargeList (p : Part) (c : Channel) (r : ChannelRow) : (p.setChannel c r).au.chargeList = p.au.chargeList := rfl
@[simp] theorem Part.setChannel_bay (p : Part) (c : Channel) (r : ChannelRow) (j : Slot) : (p.setChannel c r).bay j = p.bay j := rfl
@[simp] theorem Part.setChannel_link (p : Part) (c : Channel) (r : ChannelRow) (j : Slot) : (p.setChannel c r).link j = p.link j := rfl
@[simp] theorem Part.setChannel_slot (p : Part) (c : Channel) (r : ChannelRow) (j : Slot) : (p.setChannel c r).slot j = p.slot j := rfl
@[simp] theorem Part.setChannel_channel_self (p : Part) (c : Channel) (r : ChannelRow) : (p.setChannel c r).channel c = r := by
  simp [Part.setChannel, Part.channel]
theorem Part.setChannel_channel_ne (p : Part) (c : Channel) (r : ChannelRow) (j : Channel) (h : j ≠ c) : (p.setChannel c r).channel j = p.channel j := by
  have := Fin.val_ne_of_ne h
  simp [Part.setChannel, Part.channel, this.symm]
@[simp] theorem Part.setChannel_volumes (p : Part) (c : Channel) (r : ChannelRow) (j : Slot) : (p.setChannel c r).volumes j = p.volumes j := rfl
@[simp] theorem Part.setChannel_commit (p : Part) (c : Channel) (r : ChannelRow) (j : Slot) : (p.setChannel c r).commit j = p.commit j := rfl
@[simp] theorem Part.setChannel_place (p : Part) (c : Channel) (r : ChannelRow) (j : Fin 64) : (p.setChannel c r).place j = p.place j := rfl

/-! ### `Part.setVolumes` -/

@[simp] theorem Part.setVolumes_board (p : Part) (i : Slot) (r : Volumes) : (p.setVolumes i r).board = p.board := rfl
@[simp] theorem Part.setVolumes_port (p : Part) (i : Slot) (r : Volumes) : (p.setVolumes i r).port = p.port := rfl
@[simp] theorem Part.setVolumes_rq (p : Part) (i : Slot) (r : Volumes) : (p.setVolumes i r).rq = p.rq := rfl
@[simp] theorem Part.setVolumes_bays (p : Part) (i : Slot) (r : Volumes) : (p.setVolumes i r).bays = p.bays := rfl
@[simp] theorem Part.setVolumes_brightness (p : Part) (i : Slot) (r : Volumes) : (p.setVolumes i r).brightness = p.brightness := rfl
@[simp] theorem Part.setVolumes_earlierBrightness (p : Part) (i : Slot) (r : Volumes) : (p.setVolumes i r).earlierBrightness = p.earlierBrightness := rfl
@[simp] theorem Part.setVolumes_lp (p : Part) (i : Slot) (r : Volumes) : (p.setVolumes i r).lp = p.lp := rfl
@[simp] theorem Part.setVolumes_dg (p : Part) (i : Slot) (r : Volumes) : (p.setVolumes i r).dg = p.dg := rfl
@[simp] theorem Part.setVolumes_sm (p : Part) (i : Slot) (r : Volumes) : (p.setVolumes i r).sm = p.sm := rfl
@[simp] theorem Part.setVolumes_ce (p : Part) (i : Slot) (r : Volumes) : (p.setVolumes i r).ce = p.ce := rfl
@[simp] theorem Part.setVolumes_hs (p : Part) (i : Slot) (r : Volumes) : (p.setVolumes i r).hs = p.hs := rfl
@[simp] theorem Part.setVolumes_nv (p : Part) (i : Slot) (r : Volumes) : (p.setVolumes i r).nv = p.nv := rfl
@[simp] theorem Part.setVolumes_nu (p : Part) (i : Slot) (r : Volumes) : (p.setVolumes i r).nu = p.nu := rfl
@[simp] theorem Part.setVolumes_ps (p : Part) (i : Slot) (r : Volumes) : (p.setVolumes i r).ps = p.ps := rfl
@[simp] theorem Part.setVolumes_free (p : Part) (i : Slot) (r : Volumes) : (p.setVolumes i r).free = p.free := rfl
@[simp] theorem Part.setVolumes_openWrites (p : Part) (i : Slot) (r : Volumes) : (p.setVolumes i r).openWrites = p.openWrites := rfl
@[simp] theorem Part.setVolumes_au_channels (p : Part) (i : Slot) (r : Volumes) : (p.setVolumes i r).au.channels = p.au.channels := rfl
@[simp] theorem Part.setVolumes_au_margin (p : Part) (i : Slot) (r : Volumes) : (p.setVolumes i r).au.margin = p.au.margin := rfl
@[simp] theorem Part.setVolumes_au_betweenPages (p : Part) (i : Slot) (r : Volumes) : (p.setVolumes i r).au.betweenPages = p.au.betweenPages := rfl
@[simp] theorem Part.setVolumes_au_lastSequence (p : Part) (i : Slot) (r : Volumes) : (p.setVolumes i r).au.lastSequence = p.au.lastSequence := rfl
@[simp] theorem Part.setVolumes_au_bankSeen (p : Part) (i : Slot) (r : Volumes) : (p.setVolumes i r).au.bankSeen = p.au.bankSeen := rfl
@[simp] theorem Part.setVolumes_au_sequenceGaps (p : Part) (i : Slot) (r : Volumes) : (p.setVolumes i r).au.sequenceGaps = p.au.sequenceGaps := rfl
@[simp] theorem Part.setVolumes_au_chargeList (p : Part) (i : Slot) (r : Volumes) : (p.setVolumes i r).au.chargeList = p.au.chargeList := rfl
@[simp] theorem Part.setVolumes_bay (p : Part) (i : Slot) (r : Volumes) (j : Slot) : (p.setVolumes i r).bay j = p.bay j := rfl
@[simp] theorem Part.setVolumes_link (p : Part) (i : Slot) (r : Volumes) (j : Slot) : (p.setVolumes i r).link j = p.link j := rfl
@[simp] theorem Part.setVolumes_slot (p : Part) (i : Slot) (r : Volumes) (j : Slot) : (p.setVolumes i r).slot j = p.slot j := rfl
@[simp] theorem Part.setVolumes_channel (p : Part) (i : Slot) (r : Volumes) (j : Channel) : (p.setVolumes i r).channel j = p.channel j := rfl
@[simp] theorem Part.setVolumes_volumes_self (p : Part) (i : Slot) (r : Volumes) : (p.setVolumes i r).volumes i = r := by
  simp [Part.setVolumes, Part.volumes]
theorem Part.setVolumes_volumes_ne (p : Part) (i : Slot) (r : Volumes) (j : Slot) (h : j ≠ i) : (p.setVolumes i r).volumes j = p.volumes j := by
  have := Fin.val_ne_of_ne h
  simp [Part.setVolumes, Part.volumes, this.symm]
@[simp] theorem Part.setVolumes_commit (p : Part) (i : Slot) (r : Volumes) (j : Slot) : (p.setVolumes i r).commit j = p.commit j := rfl
@[simp] theorem Part.setVolumes_place (p : Part) (i : Slot) (r : Volumes) (j : Fin 64) : (p.setVolumes i r).place j = p.place j := rfl

/-! ### `Part.setCommit` -/

@[simp] theorem Part.setCommit_board (p : Part) (i : Slot) (r : CommitRow) : (p.setCommit i r).board = p.board := rfl
@[simp] theorem Part.setCommit_port (p : Part) (i : Slot) (r : CommitRow) : (p.setCommit i r).port = p.port := rfl
@[simp] theorem Part.setCommit_rq (p : Part) (i : Slot) (r : CommitRow) : (p.setCommit i r).rq = p.rq := rfl
@[simp] theorem Part.setCommit_bays (p : Part) (i : Slot) (r : CommitRow) : (p.setCommit i r).bays = p.bays := rfl
@[simp] theorem Part.setCommit_brightness (p : Part) (i : Slot) (r : CommitRow) : (p.setCommit i r).brightness = p.brightness := rfl
@[simp] theorem Part.setCommit_earlierBrightness (p : Part) (i : Slot) (r : CommitRow) : (p.setCommit i r).earlierBrightness = p.earlierBrightness := rfl
@[simp] theorem Part.setCommit_lp (p : Part) (i : Slot) (r : CommitRow) : (p.setCommit i r).lp = p.lp := rfl
@[simp] theorem Part.setCommit_dg (p : Part) (i : Slot) (r : CommitRow) : (p.setCommit i r).dg = p.dg := rfl
@[simp] theorem Part.setCommit_sm (p : Part) (i : Slot) (r : CommitRow) : (p.setCommit i r).sm = p.sm := rfl
@[simp] theorem Part.setCommit_au (p : Part) (i : Slot) (r : CommitRow) : (p.setCommit i r).au = p.au := rfl
@[simp] theorem Part.setCommit_hs (p : Part) (i : Slot) (r : CommitRow) : (p.setCommit i r).hs = p.hs := rfl
@[simp] theorem Part.setCommit_nv (p : Part) (i : Slot) (r : CommitRow) : (p.setCommit i r).nv = p.nv := rfl
@[simp] theorem Part.setCommit_nu (p : Part) (i : Slot) (r : CommitRow) : (p.setCommit i r).nu = p.nu := rfl
@[simp] theorem Part.setCommit_ps (p : Part) (i : Slot) (r : CommitRow) : (p.setCommit i r).ps = p.ps := rfl
@[simp] theorem Part.setCommit_free (p : Part) (i : Slot) (r : CommitRow) : (p.setCommit i r).free = p.free := rfl
@[simp] theorem Part.setCommit_openWrites (p : Part) (i : Slot) (r : CommitRow) : (p.setCommit i r).openWrites = p.openWrites := rfl
@[simp] theorem Part.setCommit_ce_quantum (p : Part) (i : Slot) (r : CommitRow) : (p.setCommit i r).ce.quantum = p.ce.quantum := rfl
@[simp] theorem Part.setCommit_ce_burst (p : Part) (i : Slot) (r : CommitRow) : (p.setCommit i r).ce.burst = p.ce.burst := rfl
@[simp] theorem Part.setCommit_bay (p : Part) (i : Slot) (r : CommitRow) (j : Slot) : (p.setCommit i r).bay j = p.bay j := rfl
@[simp] theorem Part.setCommit_link (p : Part) (i : Slot) (r : CommitRow) (j : Slot) : (p.setCommit i r).link j = p.link j := rfl
@[simp] theorem Part.setCommit_slot (p : Part) (i : Slot) (r : CommitRow) (j : Slot) : (p.setCommit i r).slot j = p.slot j := rfl
@[simp] theorem Part.setCommit_channel (p : Part) (i : Slot) (r : CommitRow) (j : Channel) : (p.setCommit i r).channel j = p.channel j := rfl
@[simp] theorem Part.setCommit_volumes (p : Part) (i : Slot) (r : CommitRow) (j : Slot) : (p.setCommit i r).volumes j = p.volumes j := rfl
@[simp] theorem Part.setCommit_commit_self (p : Part) (i : Slot) (r : CommitRow) : (p.setCommit i r).commit i = r := by
  simp [Part.setCommit, Part.commit]
theorem Part.setCommit_commit_ne (p : Part) (i : Slot) (r : CommitRow) (j : Slot) (h : j ≠ i) : (p.setCommit i r).commit j = p.commit j := by
  have := Fin.val_ne_of_ne h
  simp [Part.setCommit, Part.commit, this.symm]
@[simp] theorem Part.setCommit_place (p : Part) (i : Slot) (r : CommitRow) (j : Fin 64) : (p.setCommit i r).place j = p.place j := rfl

/-! ### `Part.setPlace` -/

@[simp] theorem Part.setPlace_board (p : Part) (k : Fin 64) (r : PlaceRow) : (p.setPlace k r).board = p.board := rfl
@[simp] theorem Part.setPlace_port (p : Part) (k : Fin 64) (r : PlaceRow) : (p.setPlace k r).port = p.port := rfl
@[simp] theorem Part.setPlace_rq (p : Part) (k : Fin 64) (r : PlaceRow) : (p.setPlace k r).rq = p.rq := rfl
@[simp] theorem Part.setPlace_bays (p : Part) (k : Fin 64) (r : PlaceRow) : (p.setPlace k r).bays = p.bays := rfl
@[simp] theorem Part.setPlace_brightness (p : Part) (k : Fin 64) (r : PlaceRow) : (p.setPlace k r).brightness = p.brightness := rfl
@[simp] theorem Part.setPlace_earlierBrightness (p : Part) (k : Fin 64) (r : PlaceRow) : (p.setPlace k r).earlierBrightness = p.earlierBrightness := rfl
@[simp] theorem Part.setPlace_lp (p : Part) (k : Fin 64) (r : PlaceRow) : (p.setPlace k r).lp = p.lp := rfl
@[simp] theorem Part.setPlace_dg (p : Part) (k : Fin 64) (r : PlaceRow) : (p.setPlace k r).dg = p.dg := rfl
@[simp] theorem Part.setPlace_sm (p : Part) (k : Fin 64) (r : PlaceRow) : (p.setPlace k r).sm = p.sm := rfl
@[simp] theorem Part.setPlace_au (p : Part) (k : Fin 64) (r : PlaceRow) : (p.setPlace k r).au = p.au := rfl
@[simp] theorem Part.setPlace_ce (p : Part) (k : Fin 64) (r : PlaceRow) : (p.setPlace k r).ce = p.ce := rfl
@[simp] theorem Part.setPlace_nv (p : Part) (k : Fin 64) (r : PlaceRow) : (p.setPlace k r).nv = p.nv := rfl
@[simp] theorem Part.setPlace_nu (p : Part) (k : Fin 64) (r : PlaceRow) : (p.setPlace k r).nu = p.nu := rfl
@[simp] theorem Part.setPlace_ps (p : Part) (k : Fin 64) (r : PlaceRow) : (p.setPlace k r).ps = p.ps := rfl
@[simp] theorem Part.setPlace_free (p : Part) (k : Fin 64) (r : PlaceRow) : (p.setPlace k r).free = p.free := rfl
@[simp] theorem Part.setPlace_openWrites (p : Part) (k : Fin 64) (r : PlaceRow) : (p.setPlace k r).openWrites = p.openWrites := rfl
@[simp] theorem Part.setPlace_hs_saveQueue (p : Part) (k : Fin 64) (r : PlaceRow) : (p.setPlace k r).hs.saveQueue = p.hs.saveQueue := rfl
@[simp] theorem Part.setPlace_hs_saver (p : Part) (k : Fin 64) (r : PlaceRow) : (p.setPlace k r).hs.saver = p.hs.saver := rfl
@[simp] theorem Part.setPlace_hs_sightings (p : Part) (k : Fin 64) (r : PlaceRow) : (p.setPlace k r).hs.sightings = p.hs.sightings := rfl
@[simp] theorem Part.setPlace_hs_storeFault (p : Part) (k : Fin 64) (r : PlaceRow) : (p.setPlace k r).hs.storeFault = p.hs.storeFault := rfl
@[simp] theorem Part.setPlace_hs_foldAtWrite (p : Part) (k : Fin 64) (r : PlaceRow) : (p.setPlace k r).hs.foldAtWrite = p.hs.foldAtWrite := rfl
@[simp] theorem Part.setPlace_hs_page (p : Part) (k : Fin 64) (r : PlaceRow) : (p.setPlace k r).hs.page = p.hs.page := rfl
@[simp] theorem Part.setPlace_hs_pageCopy (p : Part) (k : Fin 64) (r : PlaceRow) : (p.setPlace k r).hs.pageCopy = p.hs.pageCopy := rfl
@[simp] theorem Part.setPlace_hs_settingsQueue (p : Part) (k : Fin 64) (r : PlaceRow) : (p.setPlace k r).hs.settingsQueue = p.hs.settingsQueue := rfl
@[simp] theorem Part.setPlace_hs_counter (p : Part) (k : Fin 64) (r : PlaceRow) : (p.setPlace k r).hs.counter = p.hs.counter := rfl
@[simp] theorem Part.setPlace_hs_counterCopy (p : Part) (k : Fin 64) (r : PlaceRow) : (p.setPlace k r).hs.counterCopy = p.hs.counterCopy := rfl
@[simp] theorem Part.setPlace_hs_counterWaiting (p : Part) (k : Fin 64) (r : PlaceRow) : (p.setPlace k r).hs.counterWaiting = p.hs.counterWaiting := rfl
@[simp] theorem Part.setPlace_bay (p : Part) (k : Fin 64) (r : PlaceRow) (j : Slot) : (p.setPlace k r).bay j = p.bay j := rfl
@[simp] theorem Part.setPlace_link (p : Part) (k : Fin 64) (r : PlaceRow) (j : Slot) : (p.setPlace k r).link j = p.link j := rfl
@[simp] theorem Part.setPlace_slot (p : Part) (k : Fin 64) (r : PlaceRow) (j : Slot) : (p.setPlace k r).slot j = p.slot j := rfl
@[simp] theorem Part.setPlace_channel (p : Part) (k : Fin 64) (r : PlaceRow) (j : Channel) : (p.setPlace k r).channel j = p.channel j := rfl
@[simp] theorem Part.setPlace_volumes (p : Part) (k : Fin 64) (r : PlaceRow) (j : Slot) : (p.setPlace k r).volumes j = p.volumes j := rfl
@[simp] theorem Part.setPlace_commit (p : Part) (k : Fin 64) (r : PlaceRow) (j : Slot) : (p.setPlace k r).commit j = p.commit j := rfl
@[simp] theorem Part.setPlace_place_self (p : Part) (k : Fin 64) (r : PlaceRow) : (p.setPlace k r).place k = r := by
  simp [Part.setPlace, Part.place]
theorem Part.setPlace_place_ne (p : Part) (k : Fin 64) (r : PlaceRow) (j : Fin 64) (h : j ≠ k) : (p.setPlace k r).place j = p.place j := by
  have := Fin.val_ne_of_ne h
  simp [Part.setPlace, Part.place, this.symm]

/-! ### `Part.raise` -/

@[simp] theorem Part.raise_board (p : Part) (c : NoticeClass) : (p.raise c).board = p.board := rfl
@[simp] theorem Part.raise_port (p : Part) (c : NoticeClass) : (p.raise c).port = p.port := rfl
@[simp] theorem Part.raise_rq (p : Part) (c : NoticeClass) : (p.raise c).rq = p.rq := rfl
@[simp] theorem Part.raise_bays (p : Part) (c : NoticeClass) : (p.raise c).bays = p.bays := rfl
@[simp] theorem Part.raise_brightness (p : Part) (c : NoticeClass) : (p.raise c).brightness = p.brightness := rfl
@[simp] theorem Part.raise_earlierBrightness (p : Part) (c : NoticeClass) : (p.raise c).earlierBrightness = p.earlierBrightness := rfl
@[simp] theorem Part.raise_lp (p : Part) (c : NoticeClass) : (p.raise c).lp = p.lp := rfl
@[simp] theorem Part.raise_dg (p : Part) (c : NoticeClass) : (p.raise c).dg = p.dg := rfl
@[simp] theorem Part.raise_sm (p : Part) (c : NoticeClass) : (p.raise c).sm = p.sm := rfl
@[simp] theorem Part.raise_au (p : Part) (c : NoticeClass) : (p.raise c).au = p.au := rfl
@[simp] theorem Part.raise_ce (p : Part) (c : NoticeClass) : (p.raise c).ce = p.ce := rfl
@[simp] theorem Part.raise_hs (p : Part) (c : NoticeClass) : (p.raise c).hs = p.hs := rfl
@[simp] theorem Part.raise_nv (p : Part) (c : NoticeClass) : (p.raise c).nv = p.nv := rfl
@[simp] theorem Part.raise_ps (p : Part) (c : NoticeClass) : (p.raise c).ps = p.ps := rfl
@[simp] theorem Part.raise_free (p : Part) (c : NoticeClass) : (p.raise c).free = p.free := rfl
@[simp] theorem Part.raise_openWrites (p : Part) (c : NoticeClass) : (p.raise c).openWrites = p.openWrites := rfl
@[simp] theorem Part.raise_nu_levels (p : Part) (c : NoticeClass) : (p.raise c).nu.levels = p.nu.levels := rfl
@[simp] theorem Part.raise_nu_outputHigh (p : Part) (c : NoticeClass) : (p.raise c).nu.outputHigh = p.nu.outputHigh := rfl
@[simp] theorem Part.raise_bay (p : Part) (c : NoticeClass) (j : Slot) : (p.raise c).bay j = p.bay j := rfl
@[simp] theorem Part.raise_link (p : Part) (c : NoticeClass) (j : Slot) : (p.raise c).link j = p.link j := rfl
@[simp] theorem Part.raise_slot (p : Part) (c : NoticeClass) (j : Slot) : (p.raise c).slot j = p.slot j := rfl
@[simp] theorem Part.raise_channel (p : Part) (c : NoticeClass) (j : Channel) : (p.raise c).channel j = p.channel j := rfl
@[simp] theorem Part.raise_volumes (p : Part) (c : NoticeClass) (j : Slot) : (p.raise c).volumes j = p.volumes j := rfl
@[simp] theorem Part.raise_commit (p : Part) (c : NoticeClass) (j : Slot) : (p.raise c).commit j = p.commit j := rfl
@[simp] theorem Part.raise_place (p : Part) (c : NoticeClass) (j : Fin 64) : (p.raise c).place j = p.place j := rfl

/-! ### `Part.writeByte` -/

@[simp] theorem Part.writeByte_port (p : Part) (a : Nat) (v : Byte) : (p.writeByte a v).port = p.port := rfl
@[simp] theorem Part.writeByte_rq (p : Part) (a : Nat) (v : Byte) : (p.writeByte a v).rq = p.rq := rfl
@[simp] theorem Part.writeByte_bays (p : Part) (a : Nat) (v : Byte) : (p.writeByte a v).bays = p.bays := rfl
@[simp] theorem Part.writeByte_brightness (p : Part) (a : Nat) (v : Byte) : (p.writeByte a v).brightness = p.brightness := rfl
@[simp] theorem Part.writeByte_earlierBrightness (p : Part) (a : Nat) (v : Byte) : (p.writeByte a v).earlierBrightness = p.earlierBrightness := rfl
@[simp] theorem Part.writeByte_lp (p : Part) (a : Nat) (v : Byte) : (p.writeByte a v).lp = p.lp := rfl
@[simp] theorem Part.writeByte_dg (p : Part) (a : Nat) (v : Byte) : (p.writeByte a v).dg = p.dg := rfl
@[simp] theorem Part.writeByte_sm (p : Part) (a : Nat) (v : Byte) : (p.writeByte a v).sm = p.sm := rfl
@[simp] theorem Part.writeByte_au (p : Part) (a : Nat) (v : Byte) : (p.writeByte a v).au = p.au := rfl
@[simp] theorem Part.writeByte_ce (p : Part) (a : Nat) (v : Byte) : (p.writeByte a v).ce = p.ce := rfl
@[simp] theorem Part.writeByte_hs (p : Part) (a : Nat) (v : Byte) : (p.writeByte a v).hs = p.hs := rfl
@[simp] theorem Part.writeByte_nv (p : Part) (a : Nat) (v : Byte) : (p.writeByte a v).nv = p.nv := rfl
@[simp] theorem Part.writeByte_nu (p : Part) (a : Nat) (v : Byte) : (p.writeByte a v).nu = p.nu := rfl
@[simp] theorem Part.writeByte_ps (p : Part) (a : Nat) (v : Byte) : (p.writeByte a v).ps = p.ps := rfl
@[simp] theorem Part.writeByte_free (p : Part) (a : Nat) (v : Byte) : (p.writeByte a v).free = p.free := rfl
@[simp] theorem Part.writeByte_openWrites (p : Part) (a : Nat) (v : Byte) : (p.writeByte a v).openWrites = p.openWrites := rfl
@[simp] theorem Part.writeByte_bay (p : Part) (a : Nat) (v : Byte) (j : Slot) : (p.writeByte a v).bay j = p.bay j := rfl
@[simp] theorem Part.writeByte_link (p : Part) (a : Nat) (v : Byte) (j : Slot) : (p.writeByte a v).link j = p.link j := rfl
@[simp] theorem Part.writeByte_slot (p : Part) (a : Nat) (v : Byte) (j : Slot) : (p.writeByte a v).slot j = p.slot j := rfl
@[simp] theorem Part.writeByte_channel (p : Part) (a : Nat) (v : Byte) (j : Channel) : (p.writeByte a v).channel j = p.channel j := rfl
@[simp] theorem Part.writeByte_volumes (p : Part) (a : Nat) (v : Byte) (j : Slot) : (p.writeByte a v).volumes j = p.volumes j := rfl
@[simp] theorem Part.writeByte_commit (p : Part) (a : Nat) (v : Byte) (j : Slot) : (p.writeByte a v).commit j = p.commit j := rfl
@[simp] theorem Part.writeByte_place (p : Part) (a : Nat) (v : Byte) (j : Fin 64) : (p.writeByte a v).place j = p.place j := rfl

/-! ### `Part.writeFields` -/

@[simp] theorem Part.writeFields_port (p : Part) (a : Nat) (l : List Field) : (p.writeFields a l).port = p.port := rfl
@[simp] theorem Part.writeFields_rq (p : Part) (a : Nat) (l : List Field) : (p.writeFields a l).rq = p.rq := rfl
@[simp] theorem Part.writeFields_bays (p : Part) (a : Nat) (l : List Field) : (p.writeFields a l).bays = p.bays := rfl
@[simp] theorem Part.writeFields_brightness (p : Part) (a : Nat) (l : List Field) : (p.writeFields a l).brightness = p.brightness := rfl
@[simp] theorem Part.writeFields_earlierBrightness (p : Part) (a : Nat) (l : List Field) : (p.writeFields a l).earlierBrightness = p.earlierBrightness := rfl
@[simp] theorem Part.writeFields_lp (p : Part) (a : Nat) (l : List Field) : (p.writeFields a l).lp = p.lp := rfl
@[simp] theorem Part.writeFields_dg (p : Part) (a : Nat) (l : List Field) : (p.writeFields a l).dg = p.dg := rfl
@[simp] theorem Part.writeFields_sm (p : Part) (a : Nat) (l : List Field) : (p.writeFields a l).sm = p.sm := rfl
@[simp] theorem Part.writeFields_au (p : Part) (a : Nat) (l : List Field) : (p.writeFields a l).au = p.au := rfl
@[simp] theorem Part.writeFields_ce (p : Part) (a : Nat) (l : List Field) : (p.writeFields a l).ce = p.ce := rfl
@[simp] theorem Part.writeFields_hs (p : Part) (a : Nat) (l : List Field) : (p.writeFields a l).hs = p.hs := rfl
@[simp] theorem Part.writeFields_nv (p : Part) (a : Nat) (l : List Field) : (p.writeFields a l).nv = p.nv := rfl
@[simp] theorem Part.writeFields_nu (p : Part) (a : Nat) (l : List Field) : (p.writeFields a l).nu = p.nu := rfl
@[simp] theorem Part.writeFields_ps (p : Part) (a : Nat) (l : List Field) : (p.writeFields a l).ps = p.ps := rfl
@[simp] theorem Part.writeFields_free (p : Part) (a : Nat) (l : List Field) : (p.writeFields a l).free = p.free := rfl
@[simp] theorem Part.writeFields_openWrites (p : Part) (a : Nat) (l : List Field) : (p.writeFields a l).openWrites = p.openWrites := rfl
@[simp] theorem Part.writeFields_bay (p : Part) (a : Nat) (l : List Field) (j : Slot) : (p.writeFields a l).bay j = p.bay j := rfl
@[simp] theorem Part.writeFields_link (p : Part) (a : Nat) (l : List Field) (j : Slot) : (p.writeFields a l).link j = p.link j := rfl
@[simp] theorem Part.writeFields_slot (p : Part) (a : Nat) (l : List Field) (j : Slot) : (p.writeFields a l).slot j = p.slot j := rfl
@[simp] theorem Part.writeFields_channel (p : Part) (a : Nat) (l : List Field) (j : Channel) : (p.writeFields a l).channel j = p.channel j := rfl
@[simp] theorem Part.writeFields_volumes (p : Part) (a : Nat) (l : List Field) (j : Slot) : (p.writeFields a l).volumes j = p.volumes j := rfl
@[simp] theorem Part.writeFields_commit (p : Part) (a : Nat) (l : List Field) (j : Slot) : (p.writeFields a l).commit j = p.commit j := rfl
@[simp] theorem Part.writeFields_place (p : Part) (a : Nat) (l : List Field) (j : Fin 64) : (p.writeFields a l).place j = p.place j := rfl

/-! ### `Part.writeRecord` -/

@[simp] theorem Part.writeRecord_port (p : Part) (o : Bool) (a n : Nat) (l : List Field) : (p.writeRecord o a n l).port = p.port := rfl
@[simp] theorem Part.writeRecord_rq (p : Part) (o : Bool) (a n : Nat) (l : List Field) : (p.writeRecord o a n l).rq = p.rq := rfl
@[simp] theorem Part.writeRecord_bays (p : Part) (o : Bool) (a n : Nat) (l : List Field) : (p.writeRecord o a n l).bays = p.bays := rfl
@[simp] theorem Part.writeRecord_brightness (p : Part) (o : Bool) (a n : Nat) (l : List Field) : (p.writeRecord o a n l).brightness = p.brightness := rfl
@[simp] theorem Part.writeRecord_earlierBrightness (p : Part) (o : Bool) (a n : Nat) (l : List Field) : (p.writeRecord o a n l).earlierBrightness = p.earlierBrightness := rfl
@[simp] theorem Part.writeRecord_lp (p : Part) (o : Bool) (a n : Nat) (l : List Field) : (p.writeRecord o a n l).lp = p.lp := rfl
@[simp] theorem Part.writeRecord_dg (p : Part) (o : Bool) (a n : Nat) (l : List Field) : (p.writeRecord o a n l).dg = p.dg := rfl
@[simp] theorem Part.writeRecord_sm (p : Part) (o : Bool) (a n : Nat) (l : List Field) : (p.writeRecord o a n l).sm = p.sm := rfl
@[simp] theorem Part.writeRecord_au (p : Part) (o : Bool) (a n : Nat) (l : List Field) : (p.writeRecord o a n l).au = p.au := rfl
@[simp] theorem Part.writeRecord_ce (p : Part) (o : Bool) (a n : Nat) (l : List Field) : (p.writeRecord o a n l).ce = p.ce := rfl
@[simp] theorem Part.writeRecord_hs (p : Part) (o : Bool) (a n : Nat) (l : List Field) : (p.writeRecord o a n l).hs = p.hs := rfl
@[simp] theorem Part.writeRecord_nv (p : Part) (o : Bool) (a n : Nat) (l : List Field) : (p.writeRecord o a n l).nv = p.nv := rfl
@[simp] theorem Part.writeRecord_nu (p : Part) (o : Bool) (a n : Nat) (l : List Field) : (p.writeRecord o a n l).nu = p.nu := rfl
@[simp] theorem Part.writeRecord_ps (p : Part) (o : Bool) (a n : Nat) (l : List Field) : (p.writeRecord o a n l).ps = p.ps := rfl
@[simp] theorem Part.writeRecord_free (p : Part) (o : Bool) (a n : Nat) (l : List Field) : (p.writeRecord o a n l).free = p.free := rfl
@[simp] theorem Part.writeRecord_openWrites (p : Part) (o : Bool) (a n : Nat) (l : List Field) : (p.writeRecord o a n l).openWrites = p.openWrites := rfl
@[simp] theorem Part.writeRecord_bay (p : Part) (o : Bool) (a n : Nat) (l : List Field) (j : Slot) : (p.writeRecord o a n l).bay j = p.bay j := rfl
@[simp] theorem Part.writeRecord_link (p : Part) (o : Bool) (a n : Nat) (l : List Field) (j : Slot) : (p.writeRecord o a n l).link j = p.link j := rfl
@[simp] theorem Part.writeRecord_slot (p : Part) (o : Bool) (a n : Nat) (l : List Field) (j : Slot) : (p.writeRecord o a n l).slot j = p.slot j := rfl
@[simp] theorem Part.writeRecord_channel (p : Part) (o : Bool) (a n : Nat) (l : List Field) (j : Channel) : (p.writeRecord o a n l).channel j = p.channel j := rfl
@[simp] theorem Part.writeRecord_volumes (p : Part) (o : Bool) (a n : Nat) (l : List Field) (j : Slot) : (p.writeRecord o a n l).volumes j = p.volumes j := rfl
@[simp] theorem Part.writeRecord_commit (p : Part) (o : Bool) (a n : Nat) (l : List Field) (j : Slot) : (p.writeRecord o a n l).commit j = p.commit j := rfl
@[simp] theorem Part.writeRecord_place (p : Part) (o : Bool) (a n : Nat) (l : List Field) (j : Fin 64) : (p.writeRecord o a n l).place j = p.place j := rfl

/-! ### `Part.park` -/

@[simp] theorem Part.park_board (p : Part) (c : CellNo) (w : ParkedWork) : (p.park c w).board = p.board := rfl
@[simp] theorem Part.park_port (p : Part) (c : CellNo) (w : ParkedWork) : (p.park c w).port = p.port := rfl
@[simp] theorem Part.park_bays (p : Part) (c : CellNo) (w : ParkedWork) : (p.park c w).bays = p.bays := rfl
@[simp] theorem Part.park_brightness (p : Part) (c : CellNo) (w : ParkedWork) : (p.park c w).brightness = p.brightness := rfl
@[simp] theorem Part.park_earlierBrightness (p : Part) (c : CellNo) (w : ParkedWork) : (p.park c w).earlierBrightness = p.earlierBrightness := rfl
@[simp] theorem Part.park_lp (p : Part) (c : CellNo) (w : ParkedWork) : (p.park c w).lp = p.lp := rfl
@[simp] theorem Part.park_dg (p : Part) (c : CellNo) (w : ParkedWork) : (p.park c w).dg = p.dg := rfl
@[simp] theorem Part.park_sm (p : Part) (c : CellNo) (w : ParkedWork) : (p.park c w).sm = p.sm := rfl
@[simp] theorem Part.park_au (p : Part) (c : CellNo) (w : ParkedWork) : (p.park c w).au = p.au := rfl
@[simp] theorem Part.park_ce (p : Part) (c : CellNo) (w : ParkedWork) : (p.park c w).ce = p.ce := rfl
@[simp] theorem Part.park_hs (p : Part) (c : CellNo) (w : ParkedWork) : (p.park c w).hs = p.hs := rfl
@[simp] theorem Part.park_nv (p : Part) (c : CellNo) (w : ParkedWork) : (p.park c w).nv = p.nv := rfl
@[simp] theorem Part.park_nu (p : Part) (c : CellNo) (w : ParkedWork) : (p.park c w).nu = p.nu := rfl
@[simp] theorem Part.park_ps (p : Part) (c : CellNo) (w : ParkedWork) : (p.park c w).ps = p.ps := rfl
@[simp] theorem Part.park_free (p : Part) (c : CellNo) (w : ParkedWork) : (p.park c w).free = p.free := rfl
@[simp] theorem Part.park_openWrites (p : Part) (c : CellNo) (w : ParkedWork) : (p.park c w).openWrites = p.openWrites := rfl
@[simp] theorem Part.park_rq_posted (p : Part) (c : CellNo) (w : ParkedWork) : (p.park c w).rq.posted = p.rq.posted := rfl
@[simp] theorem Part.park_rq_completion (p : Part) (c : CellNo) (w : ParkedWork) : (p.park c w).rq.completion = p.rq.completion := rfl
@[simp] theorem Part.park_bay (p : Part) (c : CellNo) (w : ParkedWork) (j : Slot) : (p.park c w).bay j = p.bay j := rfl
@[simp] theorem Part.park_link (p : Part) (c : CellNo) (w : ParkedWork) (j : Slot) : (p.park c w).link j = p.link j := rfl
@[simp] theorem Part.park_slot (p : Part) (c : CellNo) (w : ParkedWork) (j : Slot) : (p.park c w).slot j = p.slot j := rfl
@[simp] theorem Part.park_channel (p : Part) (c : CellNo) (w : ParkedWork) (j : Channel) : (p.park c w).channel j = p.channel j := rfl
@[simp] theorem Part.park_volumes (p : Part) (c : CellNo) (w : ParkedWork) (j : Slot) : (p.park c w).volumes j = p.volumes j := rfl
@[simp] theorem Part.park_commit (p : Part) (c : CellNo) (w : ParkedWork) (j : Slot) : (p.park c w).commit j = p.commit j := rfl
@[simp] theorem Part.park_place (p : Part) (c : CellNo) (w : ParkedWork) (j : Fin 64) : (p.park c w).place j = p.place j := rfl

/-! ### Updates as settings -/

theorem Part.updBay_eq (p : Part) (b : Slot) (f : Bay → Bay) : p.updBay b f = p.setBay b (f (p.bay b)) := rfl
theorem Part.updSlot_eq (p : Part) (i : Slot) (f : SlotRow → SlotRow) : p.updSlot i f = p.setSlot i (f (p.slot i)) := rfl
theorem Part.updChannel_eq (p : Part) (c : Channel) (f : ChannelRow → ChannelRow) :
    p.updChannel c f = p.setChannel c (f (p.channel c)) := rfl
theorem Part.updVolumes_eq (p : Part) (i : Slot) (f : Volumes → Volumes) :
    p.updVolumes i f = p.setVolumes i (f (p.volumes i)) := rfl
theorem Part.updCommit_eq (p : Part) (i : Slot) (f : CommitRow → CommitRow) :
    p.updCommit i f = p.setCommit i (f (p.commit i)) := rfl
theorem Part.updPlace_eq (p : Part) (k : Fin 64) (f : PlaceRow → PlaceRow) :
    p.updPlace k f = p.setPlace k (f (p.place k)) := rfl

end Sys2Proof.Machine
end

