-- ==== Sys2Proof/Laws/Memory.lean ====
section
/-! SUPPORT. The board as memory: what a read gives after a write, and the canonical form that every write keeps. -/

-- Declarations are checked one after another, which keeps the number of waiting threads small.
set_option Elab.async false

namespace Sys2Proof.Machine
open Sys2Proof

/-! ## One byte -/

theorem Memory.wfAbove_mono {m : List Host.Cell} {f g : Nat} (h : g ≤ f) (hm : Memory.wfAbove f m = true) :
    Memory.wfAbove g m = true := by
  cases m with
  | nil => rfl
  | cons x rest =>
    simp only [Memory.wfAbove, Bool.and_eq_true, decide_eq_true_eq] at hm ⊢
    exact ⟨⟨by omega, hm.1.2⟩, hm.2⟩

/-- An address below the floor of a canonical memory is not listed, and reads 0. -/
theorem Memory.read_below {m : List Host.Cell} {f a : Nat} (hm : Memory.wfAbove f m = true) (h : a < f) :
    Memory.read m a = 0 := by
  induction m generalizing f with
  | nil => rfl
  | cons x rest ih =>
    simp only [Memory.wfAbove, Bool.and_eq_true, decide_eq_true_eq] at hm
    rw [Memory.read, if_neg (by omega)]
    exact ih hm.2 (by omega)

theorem Memory.wfAbove_write {m : List Host.Cell} {f a : Nat} (v : Byte) (hf : f ≤ a)
    (hm : Memory.wfAbove f m = true) : Memory.wfAbove f (Memory.write m a v) = true := by
  induction m generalizing f with
  | nil => rw [Memory.write]; split <;> simp_all [Memory.wfAbove]
  | cons x rest ih =>
    obtain ⟨k, w⟩ := x
    simp only [Memory.wfAbove, Bool.and_eq_true, decide_eq_true_eq] at hm
    rw [Memory.write]
    split
    · simp only [Memory.wfAbove, Bool.and_eq_true, decide_eq_true_eq]
      exact ⟨hm.1, ih (by omega) hm.2⟩
    · split
      · split
        · exact Memory.wfAbove_mono (by omega) hm.2
        · simp_all [Memory.wfAbove]
      · split
        · simp_all [Memory.wfAbove]
        · simp only [Memory.wfAbove, Bool.and_eq_true, decide_eq_true_eq]
          exact ⟨⟨hf, by assumption⟩, ⟨by omega, hm.1.2⟩, hm.2⟩

theorem Memory.wf_write {m : List Host.Cell} (a : Nat) (v : Byte) (hm : Memory.wf m = true) :
    Memory.wf (Memory.write m a v) = true := Memory.wfAbove_write v (Nat.zero_le a) hm

/-- A write leaves every other byte as it was. -/
theorem Memory.read_write_ne (m : List Host.Cell) {a b : Nat} (v : Byte) (h : b ≠ a) :
    Memory.read (Memory.write m a v) b = Memory.read m b := by
  induction m with
  | nil => rw [Memory.write]; split <;> simp [Memory.read, Ne.symm h]
  | cons x rest ih =>
    obtain ⟨k, w⟩ := x
    rw [Memory.write]
    split
    · simp only [Memory.read, ih]
    · split
      · subst_vars
        split <;> simp [Memory.read, Ne.symm h]
      · split
        · rfl
        · simp [Memory.read, Ne.symm h]

theorem Memory.read_write_self_above {m : List Host.Cell} {f : Nat} (a : Nat) (v : Byte)
    (hm : Memory.wfAbove f m = true) : Memory.read (Memory.write m a v) a = v := by
  induction m generalizing f with
  | nil => rw [Memory.write]; split <;> simp_all [Memory.read]
  | cons x rest ih =>
    obtain ⟨k, w⟩ := x
    simp only [Memory.wfAbove, Bool.and_eq_true, decide_eq_true_eq] at hm
    rw [Memory.write]
    split
    · rw [Memory.read, if_neg (by omega)]; exact ih hm.2
    · split
      · split
        · subst_vars; exact Memory.read_below hm.2 (by omega)
        · subst_vars; simp [Memory.read]
      · split
        · subst_vars
          rw [Memory.read, if_neg (by omega)]; exact Memory.read_below hm.2 (by omega)
        · simp [Memory.read]

/-- A read after a write to the same place of a canonical memory gives the value written. -/
theorem Memory.read_write_self {m : List Host.Cell} (hm : Memory.wf m = true) (a : Nat) (v : Byte) :
    Memory.read (Memory.write m a v) a = v := Memory.read_write_self_above a v hm

/-! ## Consecutive bytes -/

theorem Memory.wf_writeBytes (l : List Byte) {m : List Host.Cell} (a : Nat) (hm : Memory.wf m = true) :
    Memory.wf (Memory.writeBytes m a l) = true := by
  induction l generalizing m a with
  | nil => exact hm
  | cons b rest ih => exact ih _ (Memory.wf_write a b hm)

/-- Bytes outside the written range are as before. -/
theorem Memory.read_writeBytes_outside (l : List Byte) (m : List Host.Cell) {a b : Nat}
    (h : b < a ∨ a + l.length ≤ b) : Memory.read (Memory.writeBytes m a l) b = Memory.read m b := by
  induction l generalizing m a with
  | nil => rfl
  | cons x rest ih =>
    simp only [List.length_cons] at h
    rw [Memory.writeBytes, ih _ (by omega), Memory.read_write_ne _ _ (by omega)]

/-- A byte inside the written range is the byte written there. -/
theorem Memory.read_writeBytes_inside (l : List Byte) {m : List Host.Cell} (hm : Memory.wf m = true) (a n : Nat)
    (h : n < l.length) : Memory.read (Memory.writeBytes m a l) (a + n) = l[n] := by
  induction l generalizing m a n with
  | nil => simp at h
  | cons x rest ih =>
    cases n with
    | zero =>
      rw [Memory.writeBytes, Memory.read_writeBytes_outside _ _ (by omega)]
      exact Memory.read_write_self hm a x
    | succ n =>
      have := ih (Memory.wf_write a x hm) (a + 1) n (by simpa using h)
      rw [Memory.writeBytes, show a + (n + 1) = a + 1 + n by omega, this]
      rfl

theorem Memory.readBytes_length (m : List Host.Cell) (a n : Nat) : (Memory.readBytes m a n).length = n := by
  induction n generalizing a with
  | zero => rfl
  | succ n ih => simp [Memory.readBytes, ih]

/-- Reads of a range whose bytes are the same in two memories agree. -/
theorem Memory.readBytes_congr (m m' : List Host.Cell) (a n : Nat)
    (h : ∀ b, a ≤ b → b < a + n → Memory.read m b = Memory.read m' b) :
    Memory.readBytes m a n = Memory.readBytes m' a n := by
  induction n generalizing a with
  | zero => rfl
  | succ n ih =>
    rw [Memory.readBytes, Memory.readBytes, h a (by omega) (by omega), ih (a + 1) fun b h1 h2 => h b (by omega) (by omega)]

/-- The bytes read back from a range are the bytes written to it. -/
theorem Memory.readBytes_writeBytes (l : List Byte) {m : List Host.Cell} (hm : Memory.wf m = true) (a : Nat) :
    Memory.readBytes (Memory.writeBytes m a l) a l.length = l := by
  induction l generalizing m a with
  | nil => rfl
  | cons x rest ih =>
    simp only [List.length_cons, Memory.readBytes, Memory.writeBytes]
    rw [Memory.read_writeBytes_outside _ _ (by omega), Memory.read_write_self hm, ih (Memory.wf_write a x hm)]

/-! ## Numbers as bytes -/

@[simp] theorem bytesOf_length (w n : Nat) : (bytesOf w n).length = w := by
  induction w generalizing n with
  | zero => rfl
  | succ w ih => simp [bytesOf, ih]

@[simp] theorem fieldBytes_length (o : Bool) (w n : Nat) : (fieldBytes o w n).length = w := by
  unfold fieldBytes; split <;> simp

theorem numberOf_bytesOf (w n : Nat) : numberOf (bytesOf w n) = n % 256 ^ w := by
  induction w generalizing n with
  | zero => simp [bytesOf, numberOf, Nat.mod_one]
  | succ w ih =>
    rw [bytesOf, numberOf, ih, Nat.pow_succ', Nat.mod_mul]
    simp

/-- A field read back in the order it was written in gives its value, less what does not fit its width. -/
theorem fieldNumber_fieldBytes (o : Bool) (w n : Nat) : fieldNumber o (fieldBytes o w n) = n % 256 ^ w := by
  unfold fieldNumber fieldBytes; split <;> simp [numberOf_bytesOf]

/-! ## Fields and records -/

/-- The byte `b` lies outside every field of the list, written from `base` on. -/
def Outside (base b : Nat) (l : List Field) : Prop :=
  ∀ f ∈ l, b < base + f.offset ∨ base + f.offset + f.width ≤ b

theorem Memory.wf_writeFields (o : Bool) (base : Nat) (l : List Field) {m : List Host.Cell} (hm : Memory.wf m = true) :
    Memory.wf (Memory.writeFields o base m l) = true := by
  induction l generalizing m with
  | nil => exact hm
  | cons f rest ih => exact ih (Memory.wf_writeBytes _ _ hm)

theorem Memory.read_writeFields_outside (o : Bool) (base b : Nat) (l : List Field) (m : List Host.Cell)
    (h : Outside base b l) : Memory.read (Memory.writeFields o base m l) b = Memory.read m b := by
  induction l generalizing m with
  | nil => rfl
  | cons f rest ih =>
    rw [Memory.writeFields, ih _ fun g hg => h g (List.mem_cons_of_mem _ hg), Memory.read_writeBytes_outside]
    rw [fieldBytes_length]
    exact h f List.mem_cons_self

/-- Every field of the list lies within the first `size` bytes. -/
def FitsIn (size : Nat) (l : List Field) : Prop := ∀ f ∈ l, f.offset + f.width ≤ size

theorem FitsIn.outside {size base b : Nat} {l : List Field} (h : FitsIn size l) (hb : b < base ∨ base + size ≤ b) :
    Outside base b l := fun f hf => by have := h f hf; omega

theorem FitsIn.nil (size : Nat) : FitsIn size [] := fun _ h => absurd h (List.not_mem_nil)

theorem FitsIn.cons {size : Nat} {f : Field} {l : List Field} (hf : f.offset + f.width ≤ size) (hl : FitsIn size l) :
    FitsIn size (f :: l) := fun g hg => by
  rcases List.mem_cons.1 hg with rfl | h
  · exact hf
  · exact hl g h

theorem FitsIn.append {size : Nat} {l r : List Field} (hl : FitsIn size l) (hr : FitsIn size r) : FitsIn size (l ++ r) :=
  fun g hg => (List.mem_append.1 hg).elim (hl g) (hr g)

theorem Memory.wf_writeRecord (old new : Bool) (base size : Nat) (l : List Field) {m : List Host.Cell}
    (hm : Memory.wf m = true) : Memory.wf (Memory.writeRecord old new base size l m) = true :=
  Memory.wf_writeFields _ _ _ hm

/-- A record write leaves every byte outside the record as it was. -/
theorem Memory.read_writeRecord_outside (old new : Bool) (base size b : Nat) (l : List Field) (m : List Host.Cell)
    (hs : 2 ≤ size) (hl : FitsIn size l) (h : b < base ∨ base + size ≤ b) :
    Memory.read (Memory.writeRecord old new base size l m) b = Memory.read m b := by
  apply Memory.read_writeFields_outside
  refine FitsIn.outside (size := size) ?_ h
  exact FitsIn.append (FitsIn.cons (by simpa using hs) hl) (FitsIn.cons (by simp only; omega) (FitsIn.nil _))

/-- Every field of the list lies between the change counts of a record of `size` + 2 bytes. -/
def FitsRecord (size : Nat) (l : List Field) : Prop := ∀ f ∈ l, 2 ≤ f.offset ∧ f.offset + f.width ≤ size

theorem FitsRecord.append {size : Nat} {l r : List Field} (hl : FitsRecord size l) (hr : FitsRecord size r) :
    FitsRecord size (l ++ r) := fun g hg => (List.mem_append.1 hg).elim (hl g) (hr g)

theorem FitsRecord.fitsIn {size n : Nat} {l : List Field} (h : FitsRecord size l) (k : size ≤ n) : FitsIn n l :=
  fun f hf => (h f hf).2.trans k

/-- A field written last reads back byte for byte. -/
theorem Memory.read_field_inside (o : Bool) (base : Nat) (f : Field) {m : List Host.Cell} (hm : Memory.wf m = true)
    (n : Nat) (h : n < (fieldBytes o f.width f.value).length) :
    Memory.read (Memory.writeFields o base m [f]) (base + f.offset + n) = (fieldBytes o f.width f.value)[n] :=
  Memory.read_writeBytes_inside _ hm _ _ h

/-- R146: after a record write the two change counts of the record are equal. -/
theorem Memory.counts_writeRecord (old new : Bool) (base size : Nat) (l : List Field) {m : List Host.Cell}
    (hm : Memory.wf m = true) (hl : FitsRecord (size - 2) l) (hs : 4 ≤ size) :
    Memory.read (Memory.writeRecord old new base size l m) base
        = Memory.read (Memory.writeRecord old new base size l m) (base + size - 2) ∧
      Memory.read (Memory.writeRecord old new base size l m) (base + 1)
        = Memory.read (Memory.writeRecord old new base size l m) (base + size - 1) := by
  unfold Memory.writeRecord
  extract_lets count
  have split : ∀ (a b : List Field) (m : List Host.Cell), Memory.writeFields new base m (a ++ b)
      = Memory.writeFields new base (Memory.writeFields new base m a) b := by
    intro a
    induction a with
    | nil => intro b m; rfl
    | cons x rest ih => intro b m; exact ih b _
  rw [show (⟨0, 2, count⟩ :: l ++ [⟨size - 2, 2, count⟩] : List Field) = [⟨0, 2, count⟩] ++ (l ++ [⟨size - 2, 2, count⟩]) from rfl,
    split, split]
  generalize hm1 : Memory.writeFields new base m [⟨0, 2, count⟩] = m1
  have w1 : Memory.wf m1 = true := by rw [← hm1]; exact Memory.wf_writeFields _ _ _ hm
  generalize hm2 : Memory.writeFields new base m1 l = m2
  have w2 : Memory.wf m2 = true := by rw [← hm2]; exact Memory.wf_writeFields _ _ _ w1
  have lead : ∀ n (h : n < 2), Memory.read (Memory.writeFields new base m2 [⟨size - 2, 2, count⟩]) (base + n)
      = (fieldBytes new 2 count)[n]'(by simpa using h) := fun n h => by
    rw [Memory.read_writeFields_outside _ _ _ _ _ (by intro f hf; simp only [List.mem_singleton] at hf; subst hf; simp only; omega),
      ← hm2, Memory.read_writeFields_outside _ _ _ _ _ (by intro f hf; have := hl f hf; omega), ← hm1]
    exact Memory.read_field_inside new base ⟨0, 2, count⟩ hm n (by simpa using h)
  have trail : ∀ n (h : n < 2), Memory.read (Memory.writeFields new base m2 [⟨size - 2, 2, count⟩]) (base + (size - 2) + n)
      = (fieldBytes new 2 count)[n]'(by simpa using h) := fun n h =>
    Memory.read_field_inside new base ⟨size - 2, 2, count⟩ w2 n (by simpa using h)
  refine ⟨?_, ?_⟩
  · rw [show base + size - 2 = base + (size - 2) + 0 by omega, trail 0 (by decide)]
    exact lead 0 (by decide)
  · rw [show base + size - 1 = base + (size - 2) + 1 by omega, trail 1 (by decide)]
    exact lead 1 (by decide)

/-! ## The condition that every board keeps -/

/-- The board is canonical at reset. -/
theorem board_reset_wf : Memory.wf Part.reset.board = true := rfl

theorem Memory.Sound.empty : Memory.Sound [] := ⟨rfl, fun _ => ⟨rfl, rfl⟩⟩

/-- Records stand above the cells and banks. -/
theorem RecordId.base_above (r : RecordId) : 0xA00 ≤ r.base := by
  cases r with
  | slot i => simp only [RecordId.base, slotBase]; omega
  | channel c => simp only [RecordId.base, channelBase]; omega
  | partInfo => decide

theorem RecordId.size_ge (r : RecordId) : 4 ≤ r.size := by cases r <;> simp [RecordId.size]

/-- Records end below the undecoded region. -/
theorem RecordId.end_below (r : RecordId) : r.base + r.size ≤ 0xF00 := by
  cases r with
  | slot i => have := i.isLt; simp only [RecordId.base, RecordId.size, slotBase]; omega
  | channel c => have := c.isLt; simp only [RecordId.base, RecordId.size, channelBase]; omega
  | partInfo => decide

/-- Two records do not overlap. -/
theorem RecordId.apart {r s : RecordId} (h : r ≠ s) : r.base + r.size ≤ s.base ∨ s.base + s.size ≤ r.base := by
  cases r with
  | slot i =>
    cases s with
    | slot j =>
      have hij : i.val ≠ j.val := fun e => h (by rw [Fin.ext e])
      simp only [RecordId.base, RecordId.size, slotBase]; omega
    | channel c => have := i.isLt; simp only [RecordId.base, RecordId.size, slotBase, channelBase]; omega
    | partInfo => have := i.isLt; simp only [RecordId.base, RecordId.size, slotBase, partInfoBase]; omega
  | channel c =>
    cases s with
    | slot j => have := j.isLt; simp only [RecordId.base, RecordId.size, slotBase, channelBase]; omega
    | channel d =>
      have hcd : c.val ≠ d.val := fun e => h (by rw [Fin.ext e])
      simp only [RecordId.base, RecordId.size, channelBase]; omega
    | partInfo => have := c.isLt; simp only [RecordId.base, RecordId.size, channelBase, partInfoBase]; omega
  | partInfo =>
    cases s with
    | slot j => have := j.isLt; simp only [RecordId.base, RecordId.size, slotBase, partInfoBase]; omega
    | channel d => have := d.isLt; simp only [RecordId.base, RecordId.size, channelBase, partInfoBase]; omega
    | partInfo => exact absurd rfl h

/-- A memory in which every byte of the records reads as in a sound one has equal change counts. -/
theorem Memory.CountsAgree.congr {m m' : List Host.Cell} (h : Memory.CountsAgree m)
    (e : ∀ a, 0xA00 ≤ a → Memory.read m' a = Memory.read m a) : Memory.CountsAgree m' := fun r => by
  have b := r.base_above
  have s := r.size_ge
  rw [e _ b, e _ (by omega), e _ (by omega), e _ (by omega)]
  exact h r

/-- A record write keeps a board sound. -/
theorem Memory.Sound.writeRecord {m : List Host.Cell} (h : Memory.Sound m) (old new : Bool) (r : RecordId) (l : List Field)
    (fit : FitsRecord (r.size - 2) l) : Memory.Sound (Memory.writeRecord old new r.base r.size l m) := by
  refine ⟨Memory.wf_writeRecord _ _ _ _ _ h.canonical, fun s => ?_⟩
  by_cases e : s = r
  · subst e
    exact Memory.counts_writeRecord old new s.base s.size l h.canonical fit s.size_ge
  · have a := RecordId.apart e
    have hs := s.size_ge
    have hr := r.size_ge
    have out : ∀ b, s.base ≤ b → b < s.base + s.size →
        Memory.read (Memory.writeRecord old new r.base r.size l m) b = Memory.read m b := fun b h1 h2 =>
      Memory.read_writeRecord_outside _ _ _ _ _ _ _ (by omega) (fit.fitsIn (by omega)) (by omega)
    rw [out _ (by omega) (by omega), out _ (by omega) (by omega), out _ (by omega) (by omega), out _ (by omega) (by omega)]
    exact h.counts s

/-- Fields that join a write of a record leave the change counts of every record as they were. -/
theorem Memory.read_joined_counts (o : Bool) (r s : RecordId) (l : List Field) (m : List Host.Cell)
    (fit : FitsRecord (r.size - 2) l) (b : Nat)
    (h : s.base ≤ b ∧ b < s.base + 2 ∨ s.base + s.size - 2 ≤ b ∧ b < s.base + s.size) :
    Memory.read (Memory.writeFields o r.base m l) b = Memory.read m b := by
  refine Memory.read_writeFields_outside _ _ _ _ _ fun f hf => ?_
  have hf := fit f hf
  have hs := s.size_ge
  have hr := r.size_ge
  by_cases e : s = r
  · subst e; omega
  · have a := RecordId.apart e
    omega

/-- Fields that join a write of a record keep a board sound (R147). -/
theorem Memory.Sound.joinRecord {m : List Host.Cell} (h : Memory.Sound m) (o : Bool) (r : RecordId) (l : List Field)
    (fit : FitsRecord (r.size - 2) l) : Memory.Sound (Memory.writeFields o r.base m l) := by
  refine ⟨Memory.wf_writeFields _ _ _ h.canonical, fun s => ?_⟩
  have hs := s.size_ge
  have out := Memory.read_joined_counts o r s l m fit
  rw [out _ (by omega), out _ (by omega), out _ (by omega), out _ (by omega)]
  exact h.counts s

end Sys2Proof.Machine
end

