-- ==== Sys2Proof/Laws/Acts.lean ====
section
/-! SUPPORT. What an operation can touch: the relation that the laws of all shared operations share, and its lemmas for
the plain updates of the state. -/

-- Declarations are checked one after another, which keeps the number of waiting threads small.
set_option Elab.async false

namespace Sys2Proof.Machine
open Sys2Proof

/-- `q` comes from `p` by work that touches nothing outside `touched`, keeps the board sound and holds no more than
three link engines if `p` did not. -/
structure Part.Keeps (touched : Views) (p q : Part) : Prop where
  same : p.ChangesOnly touched q
  board : Memory.Sound p.board → Memory.Sound q.board
  held : p.heldCount ≤ 3 → q.heldCount ≤ 3

/-- Such work that moreover makes no pending notice not pending (R150). -/
structure Part.Acts (touched : Views) (p q : Part) : Prop extends Part.Keeps touched p q where
  raised : ∀ n, p.nu.pending.getLsbD n = true → q.nu.pending.getLsbD n = true

/-! ## Views -/

theorem View.same_refl (p : Part) (v : View) : View.same p p v := by
  cases v <;> first | rfl | exact ⟨rfl, rfl⟩ | exact ⟨rfl, rfl, rfl⟩

theorem View.same_trans {p q r : Part} {v : View} (h : View.same p q v) (k : View.same q r v) : View.same p r v := by
  cases v <;> simp_all [View.same]

theorem View.same_symm {p q : Part} {v : View} (h : View.same p q v) : View.same q p v := by
  cases v <;> simp_all [View.same]

/-- One set of views lies within another. -/
def Views.le (t u : Views) : Prop := ∀ v, t v = true → u v = true

theorem Views.le_refl (t : Views) : Views.le t t := fun _ h => h
theorem Views.le_trans {t u w : Views} (h : Views.le t u) (k : Views.le u w) : Views.le t w := fun v x => k v (h v x)
theorem Views.le_and_left (t u : Views) : Views.le t (t.and u) := fun v h => by simp [Views.and, h]
theorem Views.le_and_right (t u : Views) : Views.le u (t.and u) := fun v h => by simp [Views.and, h]
theorem Views.and_le {t u w : Views} (h : Views.le t w) (k : Views.le u w) : Views.le (t.and u) w := fun v x => by
  simp only [Views.and, Bool.or_eq_true] at x
  exact x.elim (h v) (k v)

theorem Part.ChangesOnly.mono {p q : Part} {t u : Views} (h : p.ChangesOnly t q) (k : Views.le t u) :
    p.ChangesOnly u q := fun v hv => h v (by cases e : t v <;> simp_all [k v])

theorem Part.ChangesOnly.trans {p q r : Part} {t : Views} (h : p.ChangesOnly t q) (k : q.ChangesOnly t r) :
    p.ChangesOnly t r := fun v hv => View.same_trans (h v hv) (k v hv)

/-! ## The relation -/

theorem Part.Acts.refl (t : Views) (p : Part) : Part.Acts t p p := ⟨⟨fun v _ => View.same_refl p v, id, id⟩, fun _ => id⟩

theorem Part.Acts.mono {t u : Views} {p q : Part} (h : Part.Acts t p q) (k : Views.le t u) : Part.Acts u p q :=
  ⟨⟨h.same.mono k, h.board, h.held⟩, h.raised⟩

theorem Part.Acts.trans {t : Views} {p q r : Part} (h : Part.Acts t p q) (k : Part.Acts t q r) : Part.Acts t p r :=
  ⟨⟨h.same.trans k.same, k.board ∘ h.board, k.held ∘ h.held⟩, fun n => k.raised n ∘ h.raised n⟩

theorem Part.Keeps.mono {t u : Views} {p q : Part} (h : Part.Keeps t p q) (k : Views.le t u) : Part.Keeps u p q :=
  ⟨h.same.mono k, h.board, h.held⟩

theorem Part.Keeps.trans {t : Views} {p q r : Part} (h : Part.Keeps t p q) (k : Part.Keeps t q r) : Part.Keeps t p r :=
  ⟨h.same.trans k.same, k.board ∘ h.board, k.held ∘ h.held⟩

/-- A fold of an operation that acts within `t` acts within `t`. -/
theorem Part.Acts.foldl {α : Type} {t : Views} {f : Part → α → Part} (h : ∀ p x, Part.Acts t p (f p x)) (l : List α)
    (p : Part) : Part.Acts t p (l.foldl f p) := by
  induction l generalizing p with
  | nil => exact .refl t p
  | cons x rest ih => exact (h p x).trans (ih (f p x))

theorem Part.Acts.forSlots {t : Views} {f : Part → Slot → Part} (h : ∀ p i, Part.Acts t p (f p i)) (p : Part) :
    Part.Acts t p (p.forSlots f) := .foldl h allSlots p

/-! ## Inclusions between the sets of views -/

theorem Views.completing_le_flushing : Views.le .completing .flushing := fun v h => by cases v <;> simp_all [Views.flushing, Views.completing]
theorem Views.flushing_le_linking : Views.le .flushing .linking := fun v h => by cases v <;> simp_all [Views.linking, Views.flushing, Views.completing]
theorem Views.linking_le_reporting : Views.le .linking .reporting := fun v h => by
  cases v <;> simp_all [Views.reporting, Views.linking, Views.flushing, Views.completing]
theorem Views.reporting_le_slotWork (who : Slot → Bool) : Views.le .reporting (.slotWork who) := fun v h => by
  cases v <;> simp_all [Views.slotWork, Views.reporting, Views.linking, Views.flushing, Views.completing]
theorem Views.history_le_slotWork (who : Slot → Bool) : Views.le .history (.slotWork who) := fun v h => by
  cases v <;> simp_all [Views.slotWork, Views.history]
theorem Views.slotWork_mono {who whom : Slot → Bool} (h : ∀ i, who i = true → whom i = true) :
    Views.le (.slotWork who) (.slotWork whom) := fun v k => by
  cases v <;> simp_all [Views.slotWork]
theorem Views.slotWork_le_bringUp (who : Slot → Bool) : Views.le (.slotWork who) (.bringUp who) := fun v h => by
  cases v <;> simp_all [Views.bringUp, Views.slotWork]
theorem Views.bringUp_mono {who whom : Slot → Bool} (h : ∀ i, who i = true → whom i = true) :
    Views.le (.bringUp who) (.bringUp whom) := fun v k => by
  cases v <;> simp_all [Views.bringUp, Views.slotWork]
theorem Views.slotWork_le_charging (who : Slot → Bool) : Views.le (.slotWork who) .charging := fun v h => by
  cases v <;> simp_all [Views.charging, Views.slotWork, Views.reporting]
  omega
theorem Views.flushing_le_saving : Views.le .flushing .saving := fun v h => by
  cases v <;> simp_all [Views.saving, Views.reporting, Views.flushing, Views.completing]
theorem Views.history_le_saving : Views.le .history .saving := fun v h => by
  cases v <;> simp_all [Views.saving, Views.history]
theorem Views.saving_le_ending : Views.le .saving .ending := fun v h => by
  cases v <;> simp_all [Views.ending, Views.saving, Views.reporting]
  omega
theorem Views.linking_le_slotWork (who : Slot → Bool) : Views.le .linking (.slotWork who) :=
  Views.le_trans linking_le_reporting (reporting_le_slotWork who)
theorem Views.completing_le_linking : Views.le .completing .linking := Views.le_trans completing_le_flushing flushing_le_linking
theorem Views.completing_le_reporting : Views.le .completing .reporting := Views.le_trans completing_le_linking linking_le_reporting
theorem Views.flushing_le_reporting : Views.le .flushing .reporting := Views.le_trans flushing_le_linking linking_le_reporting
theorem Views.flushing_le_slotWork (who : Slot → Bool) : Views.le .flushing (.slotWork who) :=
  Views.le_trans flushing_le_reporting (reporting_le_slotWork who)
theorem Views.completing_le_slotWork (who : Slot → Bool) : Views.le .completing (.slotWork who) :=
  Views.le_trans completing_le_reporting (reporting_le_slotWork who)
theorem Views.reporting_le_bringUp (who : Slot → Bool) : Views.le .reporting (.bringUp who) :=
  Views.le_trans (reporting_le_slotWork who) (slotWork_le_bringUp who)
theorem Views.history_le_bringUp (who : Slot → Bool) : Views.le .history (.bringUp who) :=
  Views.le_trans (history_le_slotWork who) (slotWork_le_bringUp who)

/-! ## Held engines -/

theorem Part.heldCount_congr {p q : Part} (h : q.lp.states = p.lp.states) : q.heldCount = p.heldCount := by
  simp [Part.heldCount, Part.link, h]

/-- Where every slot that holds an engine in `q` holds one in `p`, `q` holds no more engines. -/
theorem Part.heldCount_le {p q : Part} (h : ∀ i, (q.link i).isHeld = true → (p.link i).isHeld = true) :
    q.heldCount ≤ p.heldCount := by
  simp only [Part.heldCount, ← List.countP_eq_length_filter]
  exact List.countP_mono_left fun i _ => h i

/-- One more slot that holds an engine adds at most one. -/
theorem Part.heldCount_le_succ {p q : Part} (i : Slot)
    (h : ∀ j, j ≠ i → (q.link j).isHeld = true → (p.link j).isHeld = true) : q.heldCount ≤ p.heldCount + 1 := by
  simp only [Part.heldCount, ← List.countP_eq_length_filter]
  have h1 : allSlots.countP (fun j => j == i) ≤ 1 := by clear h; revert i; decide
  calc allSlots.countP (fun j => (q.link j).isHeld)
      ≤ allSlots.countP (fun j => (p.link j).isHeld || (j == i)) := by
        refine List.countP_mono_left fun j _ hj => ?_
        by_cases e : j = i
        · simp [e]
        · simp [h j e hj]
    _ ≤ allSlots.countP (fun j => (p.link j).isHeld) + allSlots.countP (fun j => j == i) := by
        generalize allSlots = l
        induction l with
        | nil => simp
        | cons x rest ih => simp only [List.countP_cons]; split <;> split <;> split <;> simp_all <;> omega
    _ ≤ _ := by omega

/-! ## Plain updates -/

/-- An update that leaves the board and the link states as they are. -/
theorem Part.Acts.raw {t : Views} {p q : Part} (same : p.ChangesOnly t q) (board : q.board = p.board := by rfl)
    (links : q.lp.states = p.lp.states := by rfl)
    (raised : ∀ n, p.nu.pending.getLsbD n = true → q.nu.pending.getLsbD n = true := by exact fun _ h => h) :
    Part.Acts t p q :=
  ⟨⟨same, fun h => by rw [board]; exact h, fun h => by rw [Part.heldCount_congr links]; exact h⟩, raised⟩

/-- An update of the board alone, within `t`. -/
theorem Part.Acts.ofBoard {t : Views} {p : Part} {m : List Host.Cell}
    (read : ∀ a, t (.byte a) = false → Memory.read m a = Memory.read p.board a)
    (wf : Memory.Sound p.board → Memory.Sound m) : Part.Acts t p { p with board := m } :=
  ⟨⟨fun v hv => by
    cases v <;> first | rfl | exact ⟨rfl, rfl⟩ | exact ⟨rfl, rfl, rfl⟩ | exact (read _ hv).symm,
   wf, fun h => (Part.heldCount_congr (p := p) rfl).trans_le h⟩, fun _ => id⟩

theorem setBay_acts (p : Part) (b : Slot) (r : Bay) {t : Views}
    (h1 : t (.contact b) = false → r.contactClosed = (p.bay b).contactClosed)
    (h2 : t (.presence b) = false → r.presence = (p.bay b).presence ∧ r.timer = (p.bay b).timer ∧ r.settledHeld = (p.bay b).settledHeld)
    (h3 : t (.gap b) = false → r.gap = (p.bay b).gap) (h4 : t (.pattern b) = false → r.selected = (p.bay b).selected)
    (h5 : t (.current b) = false → r.current = (p.bay b).current) : Part.Acts t p (p.setBay b r) := by
  refine .raw fun v hv => ?_
  cases v with
  | contact c => by_cases e : c = b <;> simp_all [View.same, Part.setBay_bay_ne]
  | presence c => by_cases e : c = b <;> simp_all [View.same, Part.setBay_bay_ne]
  | gap c => by_cases e : c = b <;> simp_all [View.same, Part.setBay_bay_ne]
  | pattern c => by_cases e : c = b <;> simp_all [View.same, Part.setBay_bay_ne]
  | current c => by_cases e : c = b <;> simp_all [View.same, Part.setBay_bay_ne]
  | _ => first | rfl | exact ⟨rfl, rfl⟩ | exact ⟨rfl, rfl, rfl⟩

theorem setSlot_acts (p : Part) (i : Slot) (r : SlotRow) {t : Views} (h1 : t (.slot i) = true)
    (h2 : t (.identity i) = false → r.identity = (p.slot i).identity ∧ r.historyLink = (p.slot i).historyLink) :
    Part.Acts t p (p.setSlot i r) := by
  refine .raw fun v hv => ?_
  cases v with
  | slot j => by_cases e : j = i <;> simp_all [View.same, Part.setSlot_slot_ne]
  | identity j => by_cases e : j = i <;> simp_all [View.same, Part.setSlot_slot_ne]
  | _ => first | rfl | exact ⟨rfl, rfl⟩ | exact ⟨rfl, rfl, rfl⟩

theorem setChannel_acts (p : Part) (c : Channel) (r : ChannelRow) {t : Views} (h : t (.channel c) = true) :
    Part.Acts t p (p.setChannel c r) := by
  refine .raw fun v hv => ?_
  cases v with
  | channel j => by_cases e : j = c <;> simp_all [View.same, Part.setChannel_channel_ne]
  | _ => first | rfl | exact ⟨rfl, rfl⟩ | exact ⟨rfl, rfl, rfl⟩

theorem setVolumes_acts (p : Part) (i : Slot) (r : Volumes) {t : Views} (h : t (.volumes i) = true) :
    Part.Acts t p (p.setVolumes i r) := by
  refine .raw fun v hv => ?_
  cases v with
  | volumes j => by_cases e : j = i <;> simp_all [View.same, Part.setVolumes_volumes_ne]
  | _ => first | rfl | exact ⟨rfl, rfl⟩ | exact ⟨rfl, rfl, rfl⟩

theorem setCommit_acts (p : Part) (i : Slot) (r : CommitRow) {t : Views} (h1 : t (.commit i) = true)
    (h2 : t (.unsettled i) = false → r.unsettled = (p.commit i).unsettled) : Part.Acts t p (p.setCommit i r) := by
  refine .raw fun v hv => ?_
  cases v with
  | commit j => by_cases e : j = i <;> simp_all [View.same, Part.setCommit_commit_ne]
  | unsettled j => by_cases e : j = i <;> simp_all [View.same, Part.setCommit_commit_ne]
  | _ => first | rfl | exact ⟨rfl, rfl⟩ | exact ⟨rfl, rfl, rfl⟩

theorem setPlace_acts (p : Part) (k : Fin 64) (r : PlaceRow) {t : Views} (h : t (.place k) = true) :
    Part.Acts t p (p.setPlace k r) := by
  refine .raw fun v hv => ?_
  cases v with
  | place j => by_cases e : j = k <;> simp_all [View.same, Part.setPlace_place_ne]
  | _ => first | rfl | exact ⟨rfl, rfl⟩ | exact ⟨rfl, rfl, rfl⟩

/-- The link pool takes a new value: nothing but link states and the wait list changes. -/
theorem lp_acts (p : Part) (l : LinkPool) {t : Views} (h1 : ∀ i, t (.link i) = true ∨ l.states[i] = p.link i)
    (h2 : t .waitList = true ∨ (l.bringUp = p.lp.bringUp ∧ l.commit = p.lp.commit))
    (h3 : p.heldCount ≤ 3 → ({ p with lp := l } : Part).heldCount ≤ 3) : Part.Acts t p { p with lp := l } := by
  refine ⟨⟨fun v hv => ?_, id, h3⟩, fun _ => id⟩
  cases v with
  | link i =>
    rcases h1 i with h | h
    · exact absurd hv (by simp [h])
    · exact h.symm
  | waitList =>
    rcases h2 with h | h
    · exact absurd hv (by simp [h])
    · exact ⟨h.1.symm, h.2.symm⟩
  | _ => first | rfl | exact ⟨rfl, rfl⟩ | exact ⟨rfl, rfl, rfl⟩

/-- A link state is set to one that holds no engine, or where an engine was held. -/
theorem setLink_acts (p : Part) (i : Slot) (r : LinkState) {t : Views} (h1 : t (.link i) = true)
    (h2 : r.isHeld = true → (p.link i).isHeld = true) : Part.Acts t p (p.setLink i r) := by
  refine lp_acts p _ (fun j => ?_) (.inr ⟨rfl, rfl⟩) fun h => ?_
  · by_cases e : j = i
    · exact .inl (e ▸ h1)
    · exact .inr (Part.setLink_link_ne p i r j e)
  · refine (Part.heldCount_le fun j hj => ?_).trans h
    by_cases e : j = i
    · subst e; exact h2 (by simpa [Part.link] using hj)
    · rwa [show ({ p with lp := { p.lp with states := p.lp.states.set i r } } : Part).link j = p.link j from
        Part.setLink_link_ne p i r j e] at hj

theorem raise_acts (p : Part) (c : NoticeClass) {t : Views} (h : t .pending = true := by rfl) :
    Part.Acts t p (p.raise c) := by
  refine .raw (raised := fun n hn => by simp [Part.raise, hn]) fun v hv => ?_
  cases v <;> first | rfl | exact ⟨rfl, rfl⟩ | exact ⟨rfl, rfl, rfl⟩ | exact absurd hv (by simp [h])

theorem writeByte_acts (p : Part) (a : Nat) (b : Byte) {t : Views} (h : t (.byte a) = true) (low : a < 0xA00) :
    Part.Acts t p (p.writeByte a b) :=
  .ofBoard (fun _ hx => Memory.read_write_ne _ _ (by rintro rfl; simp_all)) fun s =>
    ⟨Memory.wf_write _ _ s.canonical, s.counts.congr fun _ hx => Memory.read_write_ne _ _ (by omega)⟩

theorem writeFields_acts (p : Part) (base size : Nat) (l : List Field) (fit : FitsIn size l) (low : base + size ≤ 0xA00)
    {t : Views} (h : ∀ a, base ≤ a → a < base + size → t (.byte a) = true) : Part.Acts t p (p.writeFields base l) :=
  .ofBoard (fun a hx => Memory.read_writeFields_outside _ _ _ _ _ (fit.outside (by
      by_contra hc
      exact absurd (h a (by omega) (by omega)) (by simp [hx])))) fun s =>
    ⟨Memory.wf_writeFields _ _ _ s.canonical,
      s.counts.congr fun a hx => Memory.read_writeFields_outside _ _ _ _ _ (fit.outside (by omega))⟩

theorem writeRecord_acts (p : Part) (old : Bool) (r : RecordId) (l : List Field) (fit : FitsRecord (r.size - 2) l)
    {t : Views} (h : ∀ a, r.base ≤ a → a < r.base + r.size → t (.byte a) = true) :
    Part.Acts t p (p.writeRecord old r.base r.size l) := by
  have hr := r.size_ge
  exact .ofBoard (fun a hx => Memory.read_writeRecord_outside _ _ _ _ _ _ _ (by omega) (fit.fitsIn (by omega)) (by
      by_contra hc
      exact absurd (h a (by omega) (by omega)) (by simp [hx]))) fun s => s.writeRecord old p.port.bigEndian r l fit

/-- Fields that join a write of a record (R147). -/
theorem joinRecord_acts (p : Part) (r : RecordId) (l : List Field) (fit : FitsRecord (r.size - 2) l)
    {t : Views} (h : ∀ a, r.base ≤ a → a < r.base + r.size → t (.byte a) = true) :
    Part.Acts t p (p.writeFields r.base l) :=
  .ofBoard (fun a hx => Memory.read_writeFields_outside _ _ _ _ _ ((fit.fitsIn (Nat.sub_le _ _)).outside (by
      by_contra hc
      exact absurd (h a (by omega) (by omega)) (by simp [hx])))) fun s => s.joinRecord p.port.bigEndian r l fit

/-- A change of the writes under way alone. -/
theorem openWrites_acts (p : Part) (l : List OpenWrite) {t : Views} (h : t .openWrites = true := by rfl) :
    Part.Acts t p { p with openWrites := l } := by
  refine .raw fun v hv => ?_
  cases v <;> first | rfl | exact ⟨rfl, rfl⟩ | exact ⟨rfl, rfl, rfl⟩ | exact absurd hv (by simp [h])

end Sys2Proof.Machine
end

