-- ==== Sys2Proof/Laws/Blocks.lean ====
section
/-! SUPPORT. What the operations on records, requests, the history table, flushes, the link pool, feeds and the digest
queue can touch: one lemma for each. -/

-- Declarations are checked one after another, which keeps the number of waiting threads small.
set_option Elab.async false

namespace Sys2Proof.Machine
open Sys2Proof

/-! ## Records -/

theorem slotIdentityFields_fit (p : Part) (i : Slot) : FitsRecord 62 (p.slotIdentityFields i) := by
  unfold Part.slotIdentityFields
  extract_lets r
  split <;> simp [FitsRecord]

theorem slotVolumeFields_fit (p : Part) (i : Slot) : FitsRecord 62 (p.slotVolumeFields i) := by
  simp [FitsRecord, Part.slotVolumeFields]

theorem slotCommitFields_fit (p : Part) (i : Slot) : FitsRecord 62 (p.slotCommitFields i) := by
  simp [FitsRecord, Part.slotCommitFields]

theorem slotZeroFields_fit : FitsRecord 62 slotZeroFields := by simp [FitsRecord, slotZeroFields]

theorem slotFields_fit (p : Part) (i : Slot) : FitsRecord 62 (p.slotFields i) :=
  ((slotIdentityFields_fit _ _).append (slotVolumeFields_fit _ _)).append (slotCommitFields_fit _ _)

theorem channelFields_fit (p : Part) (c : Channel) : FitsRecord 30 (p.channelFields c) := by
  simp [FitsRecord, Part.channelFields]

theorem partInfoFields_fit (p : Part) : FitsRecord 126 p.partInfoFields := by simp [FitsRecord, Part.partInfoFields]

/-- The bytes of the record of one slot, and the writes under way. -/
def Views.slotRecord (i : Slot) : Views
  | .openWrites => true
  | v => Views.bytes (slotBase i) 64 v

theorem Views.slotRecord_le_reporting (i : Slot) : Views.le (.slotRecord i) .reporting := fun v h => by
  cases v <;> simp_all [Views.slotRecord, Views.bytes, Views.reporting]
  have := i.isLt
  simp only [slotBase] at h
  omega

/-- What a block's asking for a write of a slot's record can do (R147): a write with new change counts, which the block
has under way from then on, or fields that join the write it has under way, which leaves the counts as they are. -/
theorem writeSlotRecord_cases (p : Part) (block : Recorder) (i : Slot) (l : List Field) :
    (p.openWrites.contains ⟨i, block⟩ = true ∧
      p.writeSlotRecord block i l = p.writeFields (slotBase i) (l ++ slotZeroFields)) ∨
    (p.openWrites.contains ⟨i, block⟩ = false ∧
      p.writeSlotRecord block i l = { p.writeRecord p.port.bigEndian (slotBase i) 64 (l ++ slotZeroFields) with
                                        openWrites := ⟨i, block⟩ :: p.openWrites }) := by
  unfold Part.writeSlotRecord
  cases p.openWrites.contains ⟨i, block⟩
  · exact .inr ⟨rfl, rfl⟩
  · exact .inl ⟨rfl, rfl⟩

theorem writeSlotRecord_acts (p : Part) (block : Recorder) (i : Slot) (l : List Field) (fit : FitsRecord 62 l) :
    Part.Acts (.slotRecord i) p (p.writeSlotRecord block i l) := by
  have bytes : ∀ a, (RecordId.slot i).base ≤ a → a < (RecordId.slot i).base + (RecordId.slot i).size →
      Views.slotRecord i (.byte a) = true := fun a h1 h2 => by
    simp only [RecordId.base, RecordId.size] at h1 h2
    simp [Views.slotRecord, Views.bytes, h1, h2]
  have fits := fit.append slotZeroFields_fit
  rcases writeSlotRecord_cases p block i l with ⟨-, e⟩ | ⟨-, e⟩
  · rw [e]; exact joinRecord_acts p (.slot i) _ fits bytes
  · rw [e]; exact (writeRecord_acts p _ (.slot i) _ fits bytes).trans (openWrites_acts _ _)

theorem recordIdentity_acts (p : Part) (i : Slot) : Part.Acts (.slotRecord i) p (p.recordIdentity i) :=
  writeSlotRecord_acts _ _ _ _ (slotIdentityFields_fit _ _)
theorem recordVolumes_acts (p : Part) (i : Slot) : Part.Acts (.slotRecord i) p (p.recordVolumes i) :=
  writeSlotRecord_acts _ _ _ _ (slotVolumeFields_fit _ _)
theorem recordCommit_acts (p : Part) (i : Slot) : Part.Acts (.slotRecord i) p (p.recordCommit i) :=
  writeSlotRecord_acts _ _ _ _ (slotCommitFields_fit _ _)
theorem recordShare_acts (p : Part) (i : Slot) : Part.Acts (.slotRecord i) p (p.recordShare i) :=
  writeSlotRecord_acts _ _ _ _ ((slotVolumeFields_fit _ _).append (slotCommitFields_fit _ _))
theorem recordEscalation_acts (p : Part) (i : Slot) : Part.Acts (.slotRecord i) p (p.recordEscalation i) :=
  writeSlotRecord_acts _ _ _ _ ((slotIdentityFields_fit _ _).append (slotVolumeFields_fit _ _))
theorem recordSlot_acts (p : Part) (i : Slot) : Part.Acts (.slotRecord i) p (p.recordSlot i) :=
  writeSlotRecord_acts _ _ _ _ (slotFields_fit _ _)

theorem recordChannel_acts (p : Part) (c : Channel) : Part.Acts (.bytes 0xD00 0x200) p (p.recordChannel c) :=
  writeRecord_acts p _ (.channel c) _ (channelFields_fit p c) fun a h1 h2 => by
    have := c.isLt
    simp only [RecordId.base, RecordId.size, channelBase] at h1 h2
    simp only [Views.bytes, Bool.and_eq_true, decide_eq_true_eq]
    omega

theorem recordPartInfo_acts (p : Part) : Part.Acts (.bytes 0xD00 0x200) p p.recordPartInfo :=
  writeRecord_acts p _ .partInfo _ (partInfoFields_fit p) fun a h1 h2 => by
    simp only [RecordId.base, RecordId.size, partInfoBase] at h1 h2
    simp only [Views.bytes, Bool.and_eq_true, decide_eq_true_eq]
    omega

theorem syncRecords_acts (before p : Part) : Part.Acts (.bytes 0xD00 0x200) p (Part.syncRecords before p) := by
  unfold Part.syncRecords
  split
  · have channels : Part.Acts (.bytes 0xD00 0x200) p (p.forSlots (Part.syncChannel before)) :=
      .forSlots (fun q c => by
        unfold Part.syncChannel
        split
        · exact .refl _ _
        · exact recordChannel_acts _ _) p
    refine channels.trans ?_
    unfold Part.syncPartInfo
    split
    · exact .refl _ _
    · exact recordPartInfo_acts _
  · exact .refl _ _

/-! ## Requests -/

/-- What a request's completion touches: its cell, the parked requests, the completion number, the pending notices. -/
def Views.cellDone (c : CellNo) : Views
  | .parked | .completion | .pending => true
  | v => Views.bytes (cellBase c) 64 v

theorem Views.cellDone_le_completing (c : CellNo) : Views.le (.cellDone c) .completing := fun v h => by
  cases v <;> simp_all [Views.cellDone, Views.bytes, Views.completing]
  have := c.isLt
  simp only [cellBase] at h
  omega

theorem complete_acts_cell (p : Part) (c : CellNo) (r : Result) (data : List Field) (fit : FitsIn 56 data) :
    Part.Acts (.cellDone c) p (p.complete c r data) := by
  have inside : ∀ a, cellBase c ≤ a → a < cellBase c + 64 → Views.cellDone c (.byte a) = true := fun a h1 h2 => by
    simp [Views.cellDone, Views.bytes, h1, h2]
  have low1 : cellBase c + 8 + 56 ≤ 0xA00 := by have := c.isLt; simp only [cellBase]; omega
  have low2 : cellBase c + 8 ≤ 0xA00 := by omega
  unfold Part.complete
  extract_lets n p1 p2 p3
  have h1 : Part.Acts (.cellDone c) p p1 :=
    writeFields_acts p _ 56 data fit low1 fun a h1 h2 => inside a (by omega) (by omega)
  have h2 : Part.Acts (.cellDone c) p1 p2 :=
    writeFields_acts p1 (cellBase c) 8 _ (by simp [FitsIn]) low2 fun a h1 h2 => inside a (by omega) (by omega)
  have h3 : Part.Acts (.cellDone c) p2 p3 := writeByte_acts p2 (cellBase c) _ (inside _ (by omega) (by omega)) (by omega)
  refine ((h1.trans (h2.trans h3)).trans (.raw (p := p3) fun v hv => ?_)).trans (raise_acts _ _)
  cases v <;> first | rfl | exact ⟨rfl, rfl⟩ | exact ⟨rfl, rfl, rfl⟩ | exact absurd (show true = false from hv) (by decide)

theorem complete_acts (p : Part) (c : CellNo) (r : Result) (data : List Field) (fit : FitsIn 56 data) :
    Part.Acts .completing p (p.complete c r data) := (complete_acts_cell p c r data fit).mono (Views.cellDone_le_completing c)

theorem park_acts (p : Part) (c : CellNo) (w : ParkedWork) : Part.Acts (.only .parked) p (p.park c w) := by
  refine .raw fun v hv => ?_
  cases v <;> first | rfl | exact ⟨rfl, rfl⟩ | exact ⟨rfl, rfl, rfl⟩ | exact absurd hv (by decide)

theorem setCellState_acts (p : Part) (c : CellNo) (s : CellState) :
    Part.Acts (.only (.byte (cellBase c))) p (p.setCellState c s) :=
  writeByte_acts _ _ _ (by simp [Views.only]) (by have := c.isLt; simp only [cellBase]; omega)

theorem setBankState_acts (p : Part) (b : BankNo) (s : BankState) :
    Part.Acts (.only (.byte (bankBase b))) p (p.setBankState b s) :=
  writeByte_acts _ _ _ (by simp [Views.only]) (by have := b.isLt; simp only [bankBase]; omega)

theorem rewriteRecords_acts (p : Part) (old : Bool) : Part.Acts (.bytes 0xA00 0x500) p (p.rewriteRecords old) := by
  unfold Part.rewriteRecords
  extract_lets p1 p2
  have region : ∀ (q : Part) (r : RecordId) (l : List Field), FitsRecord (r.size - 2) l →
      Part.Acts (.bytes 0xA00 0x500) q (q.writeRecord old r.base r.size l) := fun q r l fit =>
    writeRecord_acts q old r l fit fun a h1 h2 => by
      have := r.base_above
      have := r.end_below
      simp only [Views.bytes, Bool.and_eq_true, decide_eq_true_eq]
      omega
  have h1 : Part.Acts (.bytes 0xA00 0x500) p p1 :=
    .forSlots (fun q i => region q (.slot i) _ ((slotFields_fit q i).append slotZeroFields_fit)) p
  have h2 : Part.Acts (.bytes 0xA00 0x500) p1 p2 := .forSlots (fun q c => region q (.channel c) _ (channelFields_fit q c)) p1
  exact (h1.trans h2).trans (region p2 .partInfo _ (partInfoFields_fit p2))

/-! ## The history table -/

theorem enqueuePlace_acts (p : Part) (k : Fin 64) : Part.Acts .history p (p.enqueuePlace k) := by
  unfold Part.enqueuePlace
  split
  · exact .refl _ _
  · refine .raw fun v hv => ?_
    cases v <;> first | rfl | exact ⟨rfl, rfl⟩ | exact ⟨rfl, rfl, rfl⟩ | exact absurd hv (by decide)

theorem dirtyPlace_acts (p : Part) (k : Fin 64) : Part.Acts .history p (p.dirtyPlace k) := by
  unfold Part.dirtyPlace
  extract_lets q
  have h : Part.Acts .history p q := setPlace_acts p k _ rfl
  refine h.trans ?_
  split
  · refine .raw fun v hv => ?_
    cases v <;> first | rfl | exact ⟨rfl, rfl⟩ | exact ⟨rfl, rfl, rfl⟩ | exact absurd hv (by decide)
  · exact enqueuePlace_acts _ _

theorem changeEntry_acts (p : Part) (k : Fin 64) (f : Entry → Entry) : Part.Acts .history p (p.changeEntry k f) :=
  (setPlace_acts p k _ rfl).trans (dirtyPlace_acts _ _)

theorem changeLinkedEntry_acts (p : Part) (i : Slot) (f : Entry → Entry) :
    Part.Acts .history p (p.changeLinkedEntry i f) := by
  unfold Part.changeLinkedEntry
  split
  · exact changeEntry_acts _ _ _
  · exact .refl _ _

theorem insertEntry_acts (p : Part) (e : Entry) : Part.Acts .history p (p.insertEntry e) := by
  unfold Part.insertEntry
  split
  · exact (setPlace_acts p _ _ rfl).trans (dirtyPlace_acts _ _)
  · exact .refl _ _

theorem reorderSaveQueue_acts (p : Part) : Part.Acts .history p p.reorderSaveQueue := by
  unfold Part.reorderSaveQueue
  extract_lets group q
  have h : Part.Acts .history p q := .foldl (fun q k => dirtyPlace_acts q k) _ p
  refine h.trans (.raw fun v hv => ?_)
  cases v <;> first | rfl | exact ⟨rfl, rfl⟩ | exact ⟨rfl, rfl, rfl⟩ | exact absurd hv (by decide)

/-! ## Flushes -/

theorem endCauseFields_fit (causes : Vector EndCause 12) : FitsIn 56 (endCauseFields causes) := fun f hf => by
  obtain ⟨i, -, rfl⟩ := List.mem_map.1 hf
  have := i.isLt
  simp only
  omega

theorem completeFlushed_acts (holders : List CellNo) (p : Part) (k : Parked) :
    Part.Acts .completing p (Part.completeFlushed holders p k) := by
  unfold Part.completeFlushed
  split
  · split
    · exact complete_acts _ _ _ _ (endCauseFields_fit _)
    · exact .refl _ _
  all_goals exact .refl _ _

theorem endFlush_acts (p : Part) (i : Slot) (cause : EndCause) : Part.Acts .flushing p (p.endFlush i cause) := by
  unfold Part.endFlush
  extract_lets r q parked
  split
  · have h1 : Part.Acts .flushing p q := setCommit_acts p i _ rfl fun _ => rfl
    refine (h1.trans (.raw (q := { q with rq := { q.rq with parked := parked } }) fun v hv => ?_)).trans
      (.foldl (fun q k => (completeFlushed_acts _ q k).mono Views.completing_le_flushing) _ _)
    cases v <;> first | rfl | exact ⟨rfl, rfl⟩ | exact ⟨rfl, rfl, rfl⟩ | exact absurd (show true = false from hv) (by decide)
  · exact .refl _ _

theorem examineFlush_acts (p : Part) (i : Slot) : Part.Acts .flushing p (p.examineFlush i) := by
  unfold Part.examineFlush
  split
  · exact endFlush_acts _ _ _
  · split
    · exact endFlush_acts _ _ _
    · exact .refl _ _

/-! ## The link pool -/

/-- A slot takes a link state that holds no engine, and the wait list changes. -/
theorem unheld_acts (p : Part) (i : Slot) (r : LinkState) (l : LinkPool) (hl : l.states = p.lp.states.set i r)
    (hr : r.isHeld = false) : Part.Acts .linking p { p with lp := l } := by
  refine lp_acts p l (fun _ => .inl rfl) (.inl rfl) fun h => (Part.heldCount_le fun j hj => ?_).trans h
  simp only [Part.link, hl, Fin.getElem_fin, Vector.getElem_set] at hj ⊢
  split at hj
  · rw [hr] at hj; cases hj
  · exact hj

theorem placeBringUp_acts (p q : Part) (i : Slot) (op : LinkOp) (h : p.placeBringUp i op = some q) :
    Part.Acts .linking p q := by
  unfold Part.placeBringUp at h
  split at h
  · cases h; exact unheld_acts p i _ _ rfl rfl
  · cases h
  · cases h; exact unheld_acts p i _ _ rfl rfl
  · rename_i h' hl
    split at h
    · cases h; exact setLink_acts p i _ rfl fun _ => by rw [hl]; rfl
    · cases h

theorem placeCommit_acts (p : Part) (i : Slot) : Part.Acts .linking p (p.placeCommit i) := by
  unfold Part.placeCommit
  split
  · exact unheld_acts p i _ _ rfl rfl
  all_goals exact .refl _ _

/-- R17: a deferred join placed, or none. -/
theorem placeDeferred_acts (p : Part) (i : Slot) (d : Option LinkOp) : Part.Acts .linking p (p.placeDeferred i d) := by
  unfold Part.placeDeferred
  split
  · exact unheld_acts p i _ _ rfl rfl
  · exact setLink_acts p i _ rfl fun h => by cases h

/-- After a hold has ended the slot waits for its deferred join, or its link state is NONE; no other link state changes. -/
theorem placeDeferred_link (p : Part) (i : Slot) (d : Option LinkOp) : (p.placeDeferred i d).link i
    = match d with
      | some op => .waitingBringUp op none
      | none => .none := by
  cases d <;> simp [Part.placeDeferred, Part.link, Part.setLink]

/-- A slot that leaves the bring-up class for a link state that holds no engine. -/
theorem leaveBringUp_acts (p : Part) (i : Slot) (r : LinkState) (hr : r.isHeld = false) :
    Part.Acts .linking p (p.leaveBringUp i r) := unheld_acts p i r _ rfl hr

@[simp] theorem Part.leaveBringUp_link (p : Part) (i : Slot) (r : LinkState) : (p.leaveBringUp i r).link i = r := by
  simp [Part.leaveBringUp, Part.link]

/-- A slot that has left the bring-up class stands there no more. -/
theorem not_mem_leaveBringUp (p : Part) (i : Slot) (r : LinkState) : i ∉ (p.leaveBringUp i r).lp.bringUp := by
  simp [Part.leaveBringUp]

theorem testPlace_acts (p : Part) (i : Slot) : Part.Acts .linking p (p.testPlace i) := by
  unfold Part.testPlace
  split
  · exact placeCommit_acts _ _
  · exact .refl _ _

theorem releaseReport_acts (p : Part) (i : Slot) : Part.Acts .linking p (p.releaseReport i) :=
  ((examineFlush_acts p i).mono Views.flushing_le_linking).trans (testPlace_acts _ _)

/-- The taking of a slot from the list adds at most one engine held. -/
theorem openPool_acts (p : Part) (i : Slot) (r : LinkState) (l : LinkPool) (hl : l.states = p.lp.states.set i r)
    (room : p.heldCount < 3) : Part.Acts .linking p { p with lp := l } := by
  refine lp_acts p l (fun _ => .inl rfl) (.inl rfl) fun _ => (Part.heldCount_le_succ (p := p) i fun j e hj => ?_).trans room
  rwa [show ({ p with lp := l } : Part).link j = (p.setLink i r).link j from by simp only [Part.link, hl, Part.setLink],
    Part.setLink_link_ne p i r j e] at hj

theorem openLink_acts (p : Part) (i : Slot) (r : LinkState) (room : p.heldCount < 3) :
    Part.Acts .linking p (p.setLink i r) := openPool_acts p i r _ rfl room

theorem openCommitHold_acts (p : Part) (i : Slot) (room : p.heldCount < 3) :
    Part.Acts .linking p (p.openCommitHold i) := by
  unfold Part.openCommitHold
  split
  · split
    · exact openLink_acts p i _ room
    · exact (openLink_acts p i _ room).trans (releaseReport_acts _ _)
  · split
    · exact openLink_acts p i _ room
    · exact (openLink_acts p i _ room).trans (releaseReport_acts _ _)

theorem openSingleHold_acts (p : Part) (i : Slot) (room : p.heldCount < 3) :
    Part.Acts .linking p (p.openSingleHold i) := by
  unfold Part.openSingleHold
  split
  · exact openPool_acts p i _ _ rfl room
  all_goals exact .refl _ _

theorem takeHeadOfList_acts (p : Part) (room : p.heldCount < 3) : Part.Acts .linking p p.takeHeadOfList := by
  have base : ∀ l : LinkPool, l.states = p.lp.states → Part.Acts .linking p { p with lp := l } := fun l hl =>
    lp_acts p l (fun _ => .inl rfl) (.inl rfl) fun h => (Part.heldCount_congr (p := p) hl).trans_le h
  have count : ∀ l : LinkPool, l.states = p.lp.states → ({ p with lp := l } : Part).heldCount < 3 := fun l hl =>
    (Part.heldCount_congr (p := p) hl).trans_lt room
  unfold Part.takeHeadOfList
  split
  · rename_i i rest _
    exact (base { p.lp with bringUp := rest } rfl).trans (openSingleHold_acts _ i (count { p.lp with bringUp := rest } rfl))
  · split
    · rename_i i rest _
      exact (base { p.lp with commit := rest } rfl).trans (openCommitHold_acts _ i (count { p.lp with commit := rest } rfl))
    · exact .refl _ _

theorem takeUpTo_acts (n : Nat) (p : Part) : Part.Acts .linking p (Part.takeUpTo n p) := by
  induction n generalizing p with
  | zero => exact .refl _ _
  | succ n ih =>
    unfold Part.takeUpTo
    split
    · rename_i h
      simp only [Part.engineFree, Bool.and_eq_true, decide_eq_true_eq] at h
      exact (takeHeadOfList_acts p (by omega)).trans (ih _)
    · exact .refl _ _

theorem takeFromList_acts (p : Part) : Part.Acts .linking p p.takeFromList := takeUpTo_acts _ _

theorem testCommit_acts (p : Part) (i : Slot) : Part.Acts .linking p (p.testCommit i) :=
  (testPlace_acts p i).trans (takeFromList_acts _)

theorem testAll_acts (p : Part) : Part.Acts .linking p p.testAll := .forSlots (fun q i => testCommit_acts q i) p

theorem endHold_acts (p : Part) (i : Slot) : Part.Acts .linking p (p.endHold i) := by
  unfold Part.endHold
  split
  · rename_i h hl
    exact (placeDeferred_acts p i _).trans ((releaseReport_acts _ i).trans (takeFromList_acts _))
  all_goals exact .refl _ _

theorem continueHold_acts (p : Part) (i : Slot) (success : Bool) : Part.Acts .linking p (p.continueHold i success) := by
  unfold Part.continueHold
  split
  · rename_i h hl
    split
    · exact setLink_acts p i _ rfl fun _ => by rw [hl]; rfl
    · exact endHold_acts _ _
  all_goals exact .refl _ _

/-! ## Uncommitted volume and in-doubt units -/

/-- Changes of in-doubt units: the entry's field, the commit row, the slot's record. -/
def Views.doubting : Views
  | .commit _ | .openWrites => true
  | .byte a => Views.reporting (.byte a)
  | v => Views.history v

theorem Views.doubting_le_slotWork (who : Slot → Bool) : Views.le .doubting (.slotWork who) := fun v h => by
  cases v <;> simp_all [Views.slotWork, Views.doubting, Views.reporting, Views.linking, Views.flushing, Views.completing, Views.history]

theorem recordCommit_acts_doubting (p : Part) (i : Slot) : Part.Acts .doubting p (p.recordCommit i) :=
  (recordCommit_acts p i).mono fun v h => by
    cases v <;> simp_all [Views.slotRecord, Views.bytes, Views.doubting, Views.reporting]
    have := i.isLt
    simp only [slotBase] at h
    omega

theorem changeLinkedEntry_acts_doubting (p : Part) (i : Slot) (f : Entry → Entry) :
    Part.Acts .doubting p (p.changeLinkedEntry i f) := (changeLinkedEntry_acts p i f).mono fun v h => by
  cases v <;> simp_all [Views.doubting, Views.history]

theorem setInDoubt_acts (p : Part) (i : Slot) (n : Nat) : Part.Acts .doubting p (p.setInDoubt i n) := by
  unfold Part.setInDoubt
  extract_lets p1 p2
  have h1 : Part.Acts .doubting p p1 := setCommit_acts p i _ rfl fun _ => rfl
  exact (h1.trans (changeLinkedEntry_acts_doubting p1 i _)).trans (recordCommit_acts_doubting p2 i)

theorem clearUnsettled_acts (p : Part) (i : Slot) :
    Part.Acts (Views.and (.only (.commit i)) (.only (.unsettled i))) p (p.clearUnsettled i) :=
  setCommit_acts p i _ (by simp [Views.and, Views.only]) (by simp [Views.and, Views.only])

theorem doubtUnsettled_acts (p : Part) (i : Slot) :
    Part.Acts (Views.and .doubting (.only (.unsettled i))) p (p.doubtUnsettled i) := by
  unfold Part.doubtUnsettled
  split
  · exact (setCommit_acts p i _ rfl (by simp [Views.and, Views.only])).trans
      ((setInDoubt_acts _ i _).mono (Views.le_and_left _ _))
  · exact .refl _ _

/-! ## Feeds and settings -/

theorem Views.setting_le_charging : Views.le .setting .charging := fun v h => by
  cases v <;> simp_all [Views.charging, Views.slotWork, Views.setting, Views.reporting, Views.linking, Views.flushing, Views.completing]

theorem Views.slotRecord_le_setting (i : Slot) : Views.le (.slotRecord i) .setting := fun v h => by
  cases v <;> simp_all [Views.slotRecord, Views.bytes, Views.setting]
  have := i.isLt
  simp only [slotBase] at h
  omega

/-- What a re-selection touches. -/
def Views.channels : Views
  | .channel _ => true
  | _ => false

theorem Views.channels_le_setting : Views.le .channels .setting := fun v h => by
  cases v <;> simp_all [Views.channels, Views.setting]
theorem Views.channels_le_slotWork (who : Slot → Bool) : Views.le .channels (.slotWork who) := fun v h => by
  cases v <;> simp_all [Views.channels, Views.slotWork]

theorem reselect_acts (p : Part) (c : Channel) : Part.Acts .channels p (p.reselect c) := setChannel_acts p c _ rfl

theorem reselectFor_acts (p : Part) (i : Slot) : Part.Acts .channels p (p.reselectFor i) := by
  unfold Part.reselectFor
  split
  · exact reselect_acts _ _
  · exact .refl _ _

theorem reselectIfActive_acts (p : Part) (i : Slot) : Part.Acts .channels p (p.reselectIfActive i) := by
  unfold Part.reselectIfActive
  split
  · split
    · exact reselect_acts _ _
    · exact .refl _ _
  · exact .refl _ _

theorem dropSource_acts (p : Part) (i : Slot) : Part.Acts .channels p (p.dropSource i) := by
  unfold Part.dropSource
  split
  · split
    · exact (setChannel_acts p _ _ rfl).trans (reselect_acts _ _)
    · exact .refl _ _
  · exact .refl _ _

theorem thresholdsEffect_acts (p : Part) (i : Slot) (t : Thresholds) :
    Part.Acts .setting p (p.thresholdsEffect i t) := by
  have reselects : ∀ q : Part, Part.Acts .setting q ((q.recordVolumes i).reselectFor i) := fun q =>
    ((recordVolumes_acts q i).mono (Views.slotRecord_le_setting i)).trans
      ((reselectFor_acts _ i).mono Views.channels_le_setting)
  unfold Part.thresholdsEffect
  extract_lets v v' low spent p1 p2
  split
  · have h1 : Part.Acts .setting p p1 := setVolumes_acts p i _ rfl
    have h2 : Part.Acts .setting p1 p2 := by
      unfold p2
      split
      · exact raise_acts _ _
      · exact .refl _ _
    exact (h1.trans h2).trans (reselects _)
  · exact (setVolumes_acts p i v' rfl).trans (reselects _)

theorem feedChanged_acts (p : Part) (c : Channel) : Part.Acts .channels p (p.feedChanged c) := by
  unfold Part.feedChanged
  extract_lets r q
  have h : Part.Acts .channels p q := by
    unfold q
    split
    · exact .refl _ _
    · exact setChannel_acts p c _ rfl
  exact h.trans (reselect_acts _ c)

theorem installFeed_acts (p : Part) (c : Channel) (f : Feed) : Part.Acts .channels p (p.installFeed c f) :=
  setChannel_acts p c _ rfl

theorem settingEffect_acts (p : Part) (item : SettingItem) : Part.Acts .setting p (p.settingEffect item) := by
  unfold Part.settingEffect
  split
  · exact setChannel_acts p _ _ rfl
  · split
    · exact (installFeed_acts p _ _).mono Views.channels_le_setting
    · exact ((installFeed_acts p _ _).trans (feedChanged_acts _ _)).mono Views.channels_le_setting
  · exact thresholdsEffect_acts _ _ _

theorem settingPend_acts (p : Part) (item : SettingItem) : Part.Acts .setting p (p.settingPend item) := by
  unfold Part.settingPend
  split
  · exact setChannel_acts p _ _ rfl
  · exact setChannel_acts p _ _ rfl
  · exact setVolumes_acts p _ _ rfl

theorem placeSetting_acts (p : Part) (item : SettingItem) : Part.Acts .setting p (p.placeSetting item) := by
  unfold Part.placeSetting
  split
  · exact settingEffect_acts _ _
  · exact settingPend_acts _ _

theorem pageBoundary_acts (p : Part) : Part.Acts .setting p p.pageBoundary := by
  unfold Part.pageBoundary
  extract_lets p1 q1 q2
  have h1 : Part.Acts .setting p p1 := .forSlots (fun q c => by
    unfold Part.installPendingCalibration
    split
    · exact settingEffect_acts _ _
    · exact .refl _ _) p
  have h2 : Part.Acts .setting p1 q1 := .forSlots (fun q c => by
    unfold Part.installPendingFeed
    split
    · exact (installFeed_acts _ _ _).mono Views.channels_le_setting
    · exact .refl _ _) p1
  have h3 : Part.Acts .setting q1 q2 := .forSlots (fun q c => by
    split
    · exact .refl _ _
    · exact (feedChanged_acts _ _).mono Views.channels_le_setting) q1
  refine (h1.trans (h2.trans h3)).trans (.forSlots (fun q i => ?_) q2)
  unfold Part.installPendingThresholds
  split
  · exact thresholdsEffect_acts _ _ _
  · exact .refl _ _

theorem enterVolumes_acts (p : Part) (i : Slot) (r e : Nat) (x : Bool) :
    Part.Acts (Views.and (.only (.volumes i)) (.slotRecord i)) p (p.enterVolumes i r e x) :=
  (setVolumes_acts p i _ (by simp [Views.and, Views.only])).trans
    ((recordVolumes_acts _ i).mono (Views.le_and_right _ _))

/-! ## The digest queue -/

theorem digests_acts (p : Part) (d : DigestEngine) : Part.Acts (.only .digests) p { p with dg := d } := by
  refine .raw fun v hv => ?_
  cases v <;> first | rfl | exact ⟨rfl, rfl⟩ | exact ⟨rfl, rfl, rfl⟩ | exact absurd hv (by decide)

theorem queueDigest_acts (p : Part) (o : DigestOwner) (op : DigestOp) :
    Part.Acts (.only .digests) p (p.queueDigest o op) := by
  unfold Part.queueDigest; split <;> exact digests_acts _ _

theorem cancelDigest_acts (p : Part) (f : DigestEntry → Bool) : Part.Acts (.only .digests) p (p.cancelDigest f) :=
  digests_acts _ _

theorem popDigest_acts (p : Part) : Part.Acts (.only .digests) p p.popDigest := by
  unfold Part.popDigest
  split
  · exact digests_acts _ _
  · exact .refl _ _

theorem takeDigest_acts (p : Part) : Part.Acts (.only .digests) p p.takeDigest := by
  unfold Part.takeDigest
  split
  · exact digests_acts _ _
  · exact .refl _ _

theorem nonceDrawn_acts (p : Part) : Part.Acts (.only .nonces) p p.nonceDrawn := by
  refine .raw fun v hv => ?_
  cases v <;> first | rfl | exact ⟨rfl, rfl⟩ | exact ⟨rfl, rfl, rfl⟩ | exact absurd hv (by decide)

theorem Views.only_le {v : View} {t : Views} (h : t v = true) : Views.le (.only v) t := fun w hw => by
  rw [Views.only, beq_iff_eq] at hw; exact hw ▸ h

end Sys2Proof.Machine
end

