-- ==== Sys2Proof/Laws/Slots.lean ====
section
/-! SUPPORT. What the operations of the slot manager and of RESOLVE can touch: one lemma for each. -/

-- Declarations are checked one after another, which keeps the number of waiting threads small.
set_option Elab.async false

namespace Sys2Proof.Machine
open Sys2Proof

theorem Views.slotRecord_le_slotWork (i : Slot) (who : Slot → Bool) : Views.le (.slotRecord i) (.slotWork who) :=
  Views.le_trans (slotRecord_le_reporting i) (reporting_le_slotWork who)

theorem updCommit_acts (p : Part) (i : Slot) (f : CommitRow → CommitRow) {t : Views} (h1 : t (.commit i) = true)
    (h2 : ∀ r : CommitRow, (f r).unsettled = r.unsettled := by intro r; rfl) : Part.Acts t p (p.updCommit i f) :=
  setCommit_acts p i _ h1 fun _ => h2 _

/-! ## Reports -/

theorem recordCommit_acts_reporting (p : Part) (i : Slot) : Part.Acts .reporting p (p.recordCommit i) :=
  (recordCommit_acts p i).mono (Views.slotRecord_le_reporting i)

theorem reportToCommit_acts (p : Part) (i : Slot) : Part.Acts .reporting p (p.reportToCommit i) := by
  unfold Part.reportToCommit
  extract_lets lost q
  have h : Part.Acts .reporting p q := by
    unfold q
    split
    · exact (updCommit_acts p i _ rfl).trans (recordCommit_acts_reporting _ i)
    · split
      · exact (updCommit_acts p i _ rfl).trans (recordCommit_acts_reporting _ i)
      · exact .refl _ _
  exact (h.trans ((examineFlush_acts q i).mono Views.flushing_le_reporting)).trans
    ((testCommit_acts _ i).mono Views.linking_le_reporting)

theorem reportSlot_acts (p : Part) (i : Slot) : Part.Acts .reporting p (p.reportSlot i) :=
  (((recordIdentity_acts p i).mono (Views.slotRecord_le_reporting i)).trans (raise_acts _ _)).trans
    (reportToCommit_acts _ i)

/-- What a change of a slot's row with its report touches. -/
def Views.rowReport (i : Slot) : Views := Views.and .reporting (.only (.slot i))

theorem Views.rowReport_le_slotWork (i : Slot) : Views.le (.rowReport i) (.slotWork (justSlot i)) :=
  Views.and_le (reporting_le_slotWork _) (Views.only_le (by simp [Views.slotWork]))

theorem updSlot_acts (p : Part) (i : Slot) (f : SlotRow → SlotRow) {t : Views} (h1 : t (.slot i) = true)
    (h2 : t (.identity i) = false → (f (p.slot i)).identity = (p.slot i).identity ∧
      (f (p.slot i)).historyLink = (p.slot i).historyLink) : Part.Acts t p (p.updSlot i f) := setSlot_acts p i _ h1 h2

theorem changeState_acts (p : Part) (i : Slot) (s : SlotState) : Part.Acts (.rowReport i) p (p.changeState i s) :=
  (updSlot_acts p i _ (by simp [Views.rowReport, Views.and, Views.only]) fun _ => ⟨rfl, rfl⟩).trans
    ((reportSlot_acts _ i).mono (Views.le_and_left _ _))

theorem reverifyFields_fit (v : Option Verdict) (n : Nat) : FitsIn 56 (reverifyFields v n) := by
  simp [FitsIn, reverifyFields]

theorem finishReverify_acts (p : Part) (i : Slot) (r : Result) (data : List Field) (fit : FitsIn 56 data) :
    Part.Acts (.rowReport i) p (p.finishReverify i r data) := by
  unfold Part.finishReverify
  split
  · exact (updSlot_acts p i _ (by simp [Views.rowReport, Views.and, Views.only]) fun _ => ⟨rfl, rfl⟩).trans
      ((complete_acts _ _ _ _ fit).mono (Views.le_trans Views.completing_le_reporting (Views.le_and_left _ _)))
  · exact .refl _ _

/-! ## Escalation -/

theorem abandonSlotWork_acts (p : Part) (i : Slot) : Part.Acts (.slotWork (justSlot i)) p (p.abandonSlotWork i) := by
  unfold Part.abandonSlotWork
  extract_lets p1 p2
  have h1 : Part.Acts (.slotWork (justSlot i)) p p1 := updSlot_acts p i _ (by simp [Views.slotWork]) fun _ => ⟨rfl, rfl⟩
  have h2 : Part.Acts (.slotWork (justSlot i)) p1 p2 := (cancelDigest_acts p1 _).mono (Views.only_le rfl)
  refine (h1.trans h2).trans ?_
  split
  · exact (leaveBringUp_acts p2 i _ rfl).mono (Views.linking_le_slotWork _)
  · rename_i h hl
    exact setLink_acts p2 i _ rfl fun _ => by rw [hl]; rfl
  all_goals exact .refl _ _

theorem unreadTally_acts (p : Part) (n : Nat) :
    Part.Acts (.only .unreadTallies) p { p with free := { p.free with unreadTallies := n } } := by
  refine .raw fun v hv => ?_
  cases v <;> first | rfl | exact ⟨rfl, rfl⟩ | exact ⟨rfl, rfl, rfl⟩ | exact absurd hv (by decide)

theorem finishCounterfeit_acts (p : Part) (i : Slot) : Part.Acts (.slotWork (justSlot i)) p (p.finishCounterfeit i) := by
  unfold Part.finishCounterfeit
  split
  · exact (finishReverify_acts _ _ _ _ (reverifyFields_fit _ _)).mono (Views.rowReport_le_slotWork i)
  · extract_lets t _ q
    have h : Part.Acts (.slotWork (justSlot i)) p q := (unreadTally_acts p _).mono (Views.only_le rfl)
    exact h.trans ((finishReverify_acts q _ _ _ (reverifyFields_fit _ _)).mono (Views.rowReport_le_slotWork i))
  · exact .refl _ _

theorem carryOutEscalation_acts (p : Part) (i : Slot) (next : Verdict) :
    Part.Acts (.slotWork (justSlot i)) p (p.carryOutEscalation i next) := by
  unfold Part.carryOutEscalation
  extract_lets p1 p2 p3 p4 p5
  have h1 : Part.Acts (.slotWork (justSlot i)) p p1 := updSlot_acts p i _ (by simp [Views.slotWork]) fun _ => ⟨rfl, rfl⟩
  have h2 : Part.Acts (.slotWork (justSlot i)) p1 p2 := setVolumes_acts p1 i _ (by simp [Views.slotWork])
  have h3 : Part.Acts (.slotWork (justSlot i)) p2 p3 :=
    (((recordEscalation_acts p2 i).mono (Views.slotRecord_le_slotWork i _)).trans (raise_acts _ _)).trans (raise_acts _ _)
  have h4 : Part.Acts (.slotWork (justSlot i)) p3 p4 := by
    unfold p4
    split
    · exact abandonSlotWork_acts _ _
    · exact (changeLinkedEntry_acts _ _ _).mono (Views.history_le_slotWork _)
  have h5 : Part.Acts (.slotWork (justSlot i)) p4 p5 :=
    ((reselectIfActive_acts p4 i).mono (Views.channels_le_slotWork _)).trans
      ((reportToCommit_acts _ i).mono (Views.reporting_le_slotWork _))
  refine (h1.trans (h2.trans (h3.trans (h4.trans h5)))).trans ?_
  split
  · exact finishCounterfeit_acts _ _
  · exact .refl _ _

theorem escalate_acts (p : Part) (i : Slot) (next : Verdict) :
    Part.Acts (.slotWork (justSlot i)) p (p.escalate i next) := by
  unfold Part.escalate
  split
  · split
    · exact carryOutEscalation_acts _ _ _
    · exact .refl _ _
  · exact .refl _ _

theorem testMargin_acts (p : Part) (i : Slot) : Part.Acts (.slotWork (justSlot i)) p (p.testMargin i) := by
  unfold Part.testMargin
  split
  · exact escalate_acts _ _ _
  · exact .refl _ _

/-! ## Attempts, link failures and joins -/

theorem joinWindDown_acts (p : Part) (i : Slot) : Part.Acts .reporting p (p.joinWindDown i) := by
  unfold Part.joinWindDown
  split
  · exact setCommit_acts p i _ rfl fun _ => rfl
  · exact .refl _ _

theorem rowUpdate_acts (p : Part) (i : Slot) (f : SlotRow → SlotRow)
    (h : (f (p.slot i)).identity = (p.slot i).identity ∧ (f (p.slot i)).historyLink = (p.slot i).historyLink) :
    Part.Acts (.rowReport i) p (p.updSlot i f) :=
  updSlot_acts p i f (by simp [Views.rowReport, Views.and, Views.only]) fun _ => h

theorem reportSlot_acts_row (p : Part) (i : Slot) : Part.Acts (.rowReport i) p (p.reportSlot i) :=
  (reportSlot_acts p i).mono (Views.le_and_left _ _)

theorem returnToService_acts (p : Part) (i : Slot) : Part.Acts (.rowReport i) p (p.returnToService i) :=
  (rowUpdate_acts p i _ ⟨rfl, rfl⟩).trans
    (((joinWindDown_acts _ i).mono (Views.le_and_left _ _)).trans (reportSlot_acts_row _ i))

theorem becomeLinkLost_acts (p : Part) (i : Slot) : Part.Acts (.rowReport i) p (p.becomeLinkLost i) :=
  (rowUpdate_acts p i _ ⟨rfl, rfl⟩).trans (reportSlot_acts_row _ i)

theorem rejectUnreadable_acts (p : Part) (i : Slot) : Part.Acts (.rowReport i) p (p.rejectUnreadable i) := by
  unfold Part.rejectUnreadable
  extract_lets p1 p2
  have h1 : Part.Acts (.rowReport i) p p1 := rowUpdate_acts p i _ ⟨rfl, rfl⟩
  have h2 : Part.Acts (.rowReport i) p1 p2 := Part.Acts.mono
    ((((recordIdentity_acts p1 i).mono (Views.slotRecord_le_reporting i)).trans (raise_acts _ _)).trans
      ((raise_acts _ _).trans (reportToCommit_acts _ i))) (Views.le_and_left _ _)
  exact (h1.trans h2).trans (finishReverify_acts _ _ _ _ (FitsIn.nil _))

theorem suspendReverify_acts (p : Part) (i : Slot) : Part.Acts (.rowReport i) p (p.suspendReverify i) :=
  ((rowUpdate_acts p i _ ⟨rfl, rfl⟩).trans (becomeLinkLost_acts _ i)).trans (finishReverify_acts _ _ _ _ (FitsIn.nil _))

theorem attemptFailed_acts (p : Part) (i : Slot) : Part.Acts (.rowReport i) p (p.attemptFailed i) := by
  unfold Part.attemptFailed
  extract_lets n q
  have h : Part.Acts (.rowReport i) p q := rowUpdate_acts p i _ ⟨rfl, rfl⟩
  refine h.trans ?_
  split
  · exact rowUpdate_acts _ _ _ ⟨rfl, rfl⟩
  · split
    · exact suspendReverify_acts _ _
    · exact rejectUnreadable_acts _ _

theorem linking_acts_row {p q : Part} (i : Slot) (h : Part.Acts .linking p q) : Part.Acts (.rowReport i) p q :=
  h.mono (Views.le_trans Views.linking_le_reporting (Views.le_and_left _ _))

theorem joinBringUp_acts (p : Part) (i : Slot) (op : LinkOp) : Part.Acts (.rowReport i) p (p.joinBringUp i op) := by
  unfold Part.joinBringUp
  split
  · rename_i q hq
    exact linking_acts_row i ((placeBringUp_acts p q i op hq).trans (takeFromList_acts q))
  · split
    · exact rowUpdate_acts _ _ _ ⟨rfl, rfl⟩
    · exact attemptFailed_acts _ _

theorem linkFailed_acts (p : Part) (i : Slot) : Part.Acts (.rowReport i) p (p.linkFailed i) := by
  unfold Part.linkFailed
  split
  · extract_lets n q
    have h : Part.Acts (.rowReport i) p q := rowUpdate_acts p i _ ⟨rfl, rfl⟩
    split
    · exact h.trans (becomeLinkLost_acts _ _)
    · exact h
  · exact .refl _ _

theorem linkSucceeded_acts (p : Part) (i : Slot) : Part.Acts (.rowReport i) p (p.linkSucceeded i) :=
  rowUpdate_acts p i _ ⟨rfl, rfl⟩

/-! ## In-doubt resolution and tally comparison -/

theorem unitsApplied_acts (p : Part) (i : Slot) (tally : Nat) :
    Part.Acts (.slotWork (justSlot i)) p (p.unitsApplied i tally) := by
  unfold Part.unitsApplied
  extract_lets n p1 p2
  have h1 : Part.Acts (.slotWork (justSlot i)) p p1 := setCommit_acts p i _ rfl fun _ => rfl
  have h2 : Part.Acts (.slotWork (justSlot i)) p1 p2 :=
    (changeLinkedEntry_acts p1 i _).mono (Views.history_le_slotWork _)
  exact (h1.trans h2).trans (((recordCommit_acts p2 i).mono (Views.slotRecord_le_slotWork i _)).trans
    (((examineFlush_acts _ i).mono (Views.flushing_le_slotWork _)).trans
      ((testCommit_acts _ i).mono (Views.linking_le_slotWork _))))

theorem setInDoubt_acts_slot (p : Part) (i : Slot) (n : Nat) (who : Slot → Bool) :
    Part.Acts (.slotWork who) p (p.setInDoubt i n) := (setInDoubt_acts p i n).mono (Views.doubting_le_slotWork _)

theorem resolveInDoubt_acts (p : Part) (i : Slot) (tally : Nat) :
    Part.Acts (.slotWork (justSlot i)) p (p.resolveInDoubt i tally) := by
  unfold Part.resolveInDoubt
  split
  · exact unitsApplied_acts _ _ _
  · split
    · exact (setInDoubt_acts_slot p i 0 _).trans ((testCommit_acts _ i).mono (Views.linking_le_slotWork _))
    · exact (setInDoubt_acts_slot p i 0 _).trans (escalate_acts _ _ _)

theorem compareTally_acts (p : Part) (i : Slot) (tally : Nat) :
    Part.Acts (.slotWork (justSlot i)) p (p.compareTally i tally) := by
  unfold Part.compareTally
  split
  · exact resolveInDoubt_acts _ _ _
  · split
    · exact .refl _ _
    · exact escalate_acts _ _ _

/-! ## Outcomes -/

theorem Part.Acts.ofRow {p q : Part} {i : Slot} (h : Part.Acts (.rowReport i) p q) : Part.Acts (.bringUpOf i) p q :=
  h.mono (Views.le_trans (Views.rowReport_le_slotWork i) (Views.slotWork_le_bringUp _))

theorem Part.Acts.ofWork {p q : Part} {i : Slot} (h : Part.Acts (.slotWork (justSlot i)) p q) :
    Part.Acts (.bringUpOf i) p q := h.mono (Views.slotWork_le_bringUp _)

theorem bringUpRow_acts (p : Part) (i : Slot) (f : SlotRow → SlotRow) : Part.Acts (.bringUpOf i) p (p.updSlot i f) :=
  updSlot_acts p i f (by simp [Views.bringUp, Views.slotWork]) (by simp [Views.bringUp])

theorem queueDigest_acts_slot (p : Part) (o : DigestOwner) (op : DigestOp) (i : Slot) :
    Part.Acts (.bringUpOf i) p (p.queueDigest o op) := (queueDigest_acts p o op).mono (Views.only_le rfl)

theorem identified_acts (p : Part) (i : Slot) (id : Identity) : Part.Acts (.bringUpOf i) p (p.identified i id) :=
  ((bringUpRow_acts p i _).trans (reportSlot_acts_row _ i).ofRow).trans (queueDigest_acts_slot _ _ _ i)

theorem queueChallengeCheck_acts (p : Part) (i : Slot) (tally : Nat) :
    Part.Acts (.bringUpOf i) p (p.queueChallengeCheck i tally) := queueDigest_acts_slot _ _ _ i

theorem challenged_acts (p : Part) (i : Slot) (response : Quad) :
    Part.Acts (.bringUpOf i) p (p.challenged i response) := by
  unfold Part.challenged
  extract_lets q
  have h : Part.Acts (.bringUpOf i) p q := (bringUpRow_acts p i _).trans (reportSlot_acts_row _ i).ofRow
  exact h.trans (queueChallengeCheck_acts _ _ _)

theorem reverifyChallenged_acts (p : Part) (i : Slot) (response : Quad) :
    Part.Acts (.bringUpOf i) p (p.reverifyChallenged i response) := by
  unfold Part.reverifyChallenged
  extract_lets p1 p2
  have h1 : Part.Acts (.bringUpOf i) p p1 := bringUpRow_acts p i _
  have h2 : Part.Acts (.bringUpOf i) p1 p2 := setCommit_acts p1 i _ rfl fun _ => rfl
  exact (h1.trans h2).trans (joinBringUp_acts p2 i _).ofRow

theorem reverifyRead_acts (p : Part) (i : Slot) (tally : Nat) :
    Part.Acts (.bringUpOf i) p (p.reverifyRead i tally) :=
  (bringUpRow_acts p i _).trans (queueChallengeCheck_acts _ _ _)

theorem resumeReverify_acts (p : Part) (i : Slot) : Part.Acts (.bringUpOf i) p (p.resumeReverify i) :=
  (bringUpRow_acts p i _).trans (reportSlot_acts_row _ i).ofRow

theorem probeOutcome_acts (p : Part) (i : Slot) (o : LinkOutcome) :
    Part.Acts (.bringUpOf i) p (p.probeOutcome i o) := by
  unfold Part.probeOutcome
  split
  · exact (resumeReverify_acts p i).trans (reverifyChallenged_acts _ _ _)
  · split
    · exact (resumeReverify_acts p i).trans (reverifyRead_acts _ _ _)
    · exact (compareTally_acts p i _).ofWork.trans (returnToService_acts _ i).ofRow
  all_goals exact bringUpRow_acts p i _

theorem outcomeFailed_acts (p : Part) (i : Slot) (o : LinkOutcome) :
    Part.Acts (.bringUpOf i) p (p.outcomeFailed i o) := by
  unfold Part.outcomeFailed
  split
  · exact (attemptFailed_acts p i).ofRow
  · exact .refl _ _

theorem slotOutcome_acts (p : Part) (i : Slot) (o : LinkOutcome) : Part.Acts (.bringUpOf i) p (p.slotOutcome i o) := by
  unfold Part.slotOutcome
  split
  · exact .refl _ _
  · split
    · exact identified_acts _ _ _
    · exact challenged_acts _ _ _
    · exact reverifyChallenged_acts _ _ _
    · exact reverifyRead_acts _ _ _
    · exact probeOutcome_acts _ _ _
    · exact outcomeFailed_acts _ _ _
    · exact outcomeFailed_acts _ _ _
    · exact outcomeFailed_acts _ _ _
    · exact .refl _ _

/-! ## Removal -/

theorem doubtUnsettled_acts_slot (p : Part) (i : Slot) : Part.Acts (.bringUpOf i) p (p.doubtUnsettled i) :=
  (doubtUnsettled_acts p i).mono (Views.and_le
    (Views.le_trans (Views.doubting_le_slotWork _) (Views.slotWork_le_bringUp _)) (Views.only_le (by simp [Views.bringUp])))

theorem cutLink_acts (p : Part) (i : Slot) : Part.Acts (.bringUpOf i) p (p.cutLink i) := by
  unfold Part.cutLink
  split
  · exact .refl _ _
  · exact (linking_acts_row i (leaveBringUp_acts p i _ rfl)).ofRow
  · exact (linking_acts_row i (unheld_acts p i .none _ rfl rfl)).ofRow
  · have h : Part.Acts .linking p (p.setLink i .none) := setLink_acts p i _ rfl fun h => by cases h
    exact ((linking_acts_row i h).ofRow.trans (doubtUnsettled_acts_slot _ i)).trans
      (linking_acts_row i (takeFromList_acts _)).ofRow

theorem removalHandling_acts (p : Part) (i : Slot) : Part.Acts (.slotWork (justSlot i)) p (p.removalHandling i) := by
  unfold Part.removalHandling
  extract_lets c v q
  have h : Part.Acts (.slotWork (justSlot i)) p q := (changeLinkedEntry_acts p i _).mono (Views.history_le_slotWork _)
  exact (h.trans (updCommit_acts q i _ rfl)).trans
    ((recordCommit_acts _ i).mono (Views.slotRecord_le_slotWork i _))

theorem emptySlot_acts (p : Part) (i : Slot) : Part.Acts (.bringUpOf i) p (p.emptySlot i) := by
  unfold Part.emptySlot
  extract_lets p1 _ p2
  have h1 : Part.Acts (.bringUpOf i) p p1 :=
    (setSlot_acts p i _ (by simp [Views.bringUp, Views.slotWork]) (by simp [Views.bringUp])).trans
      (setVolumes_acts _ i _ (by simp [Views.bringUp, Views.slotWork]))
  have h2 : Part.Acts (.bringUpOf i) p1 p2 := setCommit_acts p1 i _ rfl (by simp [Views.bringUp])
  have h3 : Part.Acts (.bringUpOf i) p2 (((p2.recordSlot i).raise .slot).reportToCommit i) := Part.Acts.mono
    ((((recordSlot_acts p2 i).mono (Views.slotRecord_le_reporting i)).trans (raise_acts _ _)).trans
      (reportToCommit_acts _ i)) (Views.reporting_le_bringUp _)
  exact (h1.trans h2).trans h3

theorem removal_acts (p : Part) (i : Slot) : Part.Acts (.bringUpOf i) p (p.removal i) := by
  unfold Part.removal
  extract_lets p1 p2 p3 cell p4
  have h1 : Part.Acts (.bringUpOf i) p p1 := ((endFlush_acts p i _).mono
    (Views.le_trans Views.flushing_le_reporting (Views.reporting_le_bringUp _))).trans (cutLink_acts _ i)
  have h2 : Part.Acts (.bringUpOf i) p1 p2 := (bringUpRow_acts p1 i _).trans
    ((cancelDigest_acts _ _).mono (Views.only_le rfl))
  have h3 : Part.Acts (.bringUpOf i) p2 p3 := by
    unfold p3
    split
    · exact (removalHandling_acts _ _).ofWork
    · exact .refl _ _
  have h4 : Part.Acts (.bringUpOf i) p3 p4 := (emptySlot_acts p3 i).trans
    ((dropSource_acts _ i).mono (Views.le_trans (Views.channels_le_slotWork _) (Views.slotWork_le_bringUp _)))
  refine (h1.trans (h2.trans (h3.trans h4))).trans ?_
  cases cell
  · exact .refl _ _
  · exact (complete_acts _ _ _ _ (FitsIn.nil _)).mono
      (Views.le_trans Views.completing_le_reporting (Views.reporting_le_bringUp _))

/-! ## RESOLVE -/

theorem decideVerdict_acts (p : Part) (i : Slot) (id : Identity) (m : Bool) :
    Part.Acts .history p (p.decideVerdict i id m).1 := by
  unfold Part.decideVerdict
  split
  · exact .refl _ _
  · split
    · exact .refl _ _
    · split
      · exact .refl _ _
      · extract_lets d e
        split
        · exact changeEntry_acts _ _ _
        · exact insertEntry_acts _ _

theorem countSighting_acts (p : Part) : Part.Acts (.only .sightings) p p.countSighting := by
  refine .raw fun v hv => ?_
  cases v <;> first | rfl | exact ⟨rfl, rfl⟩ | exact ⟨rfl, rfl, rfl⟩ | exact absurd hv (by decide)

theorem escalateHolders_acts (p : Part) (i : Slot) (serial : Quad) :
    Part.Acts (.slotWork everySlot) p (p.escalateHolders i serial) := by
  unfold Part.escalateHolders
  refine .forSlots (fun q j => ?_) p
  split
  · exact (escalate_acts _ _ _).mono (Views.slotWork_mono fun _ _ => rfl)
  · exact .refl _ _

theorem completeBringUp_acts (p : Part) (i : Slot) (r : Resolution) :
    Part.Acts (.bringUpOf i) p (p.completeBringUp i r) := by
  unfold Part.completeBringUp
  extract_lets rejected p1 p2 p3 p4 p5 p6 p7
  have work : ∀ {a b : Part}, Part.Acts .reporting a b → Part.Acts (.bringUpOf i) a b := fun h =>
    h.mono (Views.reporting_le_bringUp _)
  have volumes : ∀ (a : Part) (v : Volumes), Part.Acts (.bringUpOf i) a (a.setVolumes i v) := fun a v =>
    setVolumes_acts a i v (by simp [Views.bringUp, Views.slotWork])
  have record : ∀ a : Part, Part.Acts (.bringUpOf i) a (a.recordVolumes i) := fun a =>
    work ((recordVolumes_acts a i).mono (Views.slotRecord_le_reporting i))
  have h1 : Part.Acts (.bringUpOf i) p p1 := bringUpRow_acts p i _
  have h2 : Part.Acts (.bringUpOf i) p1 p2 :=
    (work ((recordIdentity_acts p1 i).mono (Views.slotRecord_le_reporting i))).trans (raise_acts _ _)
  have h3 : Part.Acts (.bringUpOf i) p2 p3 := by
    unfold p3
    split
    · exact .refl _ _
    · exact raise_acts _ _
  have h4 : Part.Acts (.bringUpOf i) p3 p4 := by
    unfold p4
    split
    · exact (volumes _ _).trans (record _)
    · exact (volumes p3 _).trans (record _)
  have h5 : Part.Acts (.bringUpOf i) p4 p5 := setCommit_acts p4 i _ rfl fun _ => rfl
  have h6 : Part.Acts (.bringUpOf i) p5 p6 := work (recordCommit_acts_reporting p5 i)
  have h7 : Part.Acts (.bringUpOf i) p6 p7 := by
    unfold p7
    split
    · exact .refl _ _
    · exact ((reselectFor_acts p6 i).mono (Views.le_trans (Views.channels_le_slotWork _) (Views.slotWork_le_bringUp _))).trans
        (work (joinWindDown_acts _ i))
  exact ((h1.trans (h2.trans (h3.trans h4))).trans (h5.trans (h6.trans h7))).trans
    ((work (reportToCommit_acts p7 i)).trans (finishReverify_acts _ _ _ _ (reverifyFields_fit _ _)).ofRow)

theorem Part.Acts.ofOne {p q : Part} {i : Slot} (h : Part.Acts (.bringUpOf i) p q) : Part.Acts .bringUps p q :=
  h.mono (Views.bringUp_mono fun _ _ => rfl)

theorem resolve_acts (p : Part) (i : Slot) (m : Bool) : Part.Acts .bringUps p (p.resolve i m) := by
  unfold Part.resolve
  extract_lets q
  have h : Part.Acts .bringUps p q := ((bringUpRow_acts p i _).trans (reportSlot_acts_row _ i).ofRow).ofOne
  refine h.trans ?_
  split
  · rename_i id _
    have hd := decideVerdict_acts q.countSighting i id m
    generalize q.countSighting.decideVerdict i id m = d at hd ⊢
    obtain ⟨d, r⟩ := d
    have hc : Part.Acts .bringUps q (d.completeBringUp i r) :=
      (((countSighting_acts q).mono (Views.only_le rfl)).trans (hd.mono (Views.history_le_bringUp _))).trans
        (completeBringUp_acts d i r).ofOne
    dsimp only
    split
    · exact hc.trans ((escalateHolders_acts _ _ _).mono (Views.slotWork_le_bringUp _))
    · exact hc
  · exact .refl _ _

theorem reverifyChecked_acts (p : Part) (i : Slot) (m : Bool) :
    Part.Acts (.bringUpOf i) p (p.reverifyChecked i m) := by
  unfold Part.reverifyChecked
  split
  · extract_lets tally q
    have h : Part.Acts (.bringUpOf i) p q := (compareTally_acts p i _).ofWork.trans (returnToService_acts _ i).ofRow
    exact h.trans (finishReverify_acts _ _ _ _ (reverifyFields_fit _ _)).ofRow
  · exact (escalate_acts _ _ _).ofWork

end Sys2Proof.Machine
end

