-- ==== Sys2Proof/Laws/Store.lean ====
section
/-! SUPPORT. What the operations of the saver and of the charging procedure can touch: one lemma for each. -/

-- Declarations are checked one after another, which keeps the number of waiting threads small.
set_option Elab.async false

namespace Sys2Proof.Machine
open Sys2Proof

/-! ## Folds and the saver's choice -/

theorem Views.slotRecord_le_saving (i : Slot) : Views.le (.slotRecord i) .saving := fun v h => by
  have := Views.slotRecord_le_reporting i v h
  cases v <;> simp_all [Views.slotRecord, Views.bytes, Views.saving, Views.reporting]

theorem recordCommit_acts_saving (p : Part) (i : Slot) : Part.Acts .saving p (p.recordCommit i) :=
  (recordCommit_acts p i).mono (Views.slotRecord_le_saving i)

theorem examineFlush_acts_saving (p : Part) (i : Slot) : Part.Acts .saving p (p.examineFlush i) :=
  (examineFlush_acts p i).mono Views.flushing_le_saving

theorem foldSlot_acts (k : Fin 64) (p : Part) (i : Slot) : Part.Acts .saving p (p.foldSlot k i) := by
  unfold Part.foldSlot
  extract_lets c v q
  have h : Part.Acts .saving p q := setPlace_acts p k _ rfl
  refine h.trans (Part.Acts.trans ?_ (examineFlush_acts_saving _ i))
  exact (updCommit_acts q i _ rfl).trans (recordCommit_acts_saving _ i)

theorem foldEntry_acts (p : Part) (k : Fin 64) (serial : Quad) : Part.Acts .saving p (p.foldEntry k serial) := by
  refine .forSlots (fun q i => ?_) p
  split
  · exact foldSlot_acts _ _ _
  · exact .refl _ _

theorem unfoldSlot_acts (p : Part) (i : Slot) : Part.Acts .saving p (p.unfoldSlot i) := by
  unfold Part.unfoldSlot
  split
  · extract_lets units q
    have h : Part.Acts .saving p q := updCommit_acts p i _ rfl
    exact (h.trans ((changeEntry_acts q _ _).mono Views.history_le_saving)).trans
      ((recordCommit_acts_saving _ i).trans (examineFlush_acts_saving _ i))
  · exact .refl _ _

theorem unfoldAll_acts (p : Part) : Part.Acts .saving p p.unfoldAll := .forSlots (fun q i => unfoldSlot_acts q i) p

theorem beginAttempt_acts (p : Part) (k : Fin 64) (second : Bool) : Part.Acts .saving p (p.beginAttempt k second) := by
  unfold Part.beginAttempt
  extract_lets q
  have h : Part.Acts .saving p q := by
    unfold q
    split
    · split
      · exact foldEntry_acts _ _ _
      · exact .refl _ _
    · exact .refl _ _
  refine h.trans (.raw fun v hv => ?_)
  cases v <;> first | rfl | exact ⟨rfl, rfl⟩ | exact ⟨rfl, rfl, rfl⟩ | exact absurd (show true = false from hv) (by decide)

theorem takePlace_acts (p : Part) (k : Fin 64) : Part.Acts .saving p (p.takePlace k) := by
  unfold Part.takePlace
  extract_lets _ _ q
  have h : Part.Acts .saving p q := by
    refine .raw fun v hv => ?_
    cases v <;> first | rfl | exact ⟨rfl, rfl⟩ | exact ⟨rfl, rfl, rfl⟩ | exact absurd (show true = false from hv) (by decide)
  exact h.trans (beginAttempt_acts _ _ _)

theorem completing_acts_saving {p q : Part} (h : Part.Acts .completing p q) : Part.Acts .saving p q :=
  h.mono (Views.le_trans Views.completing_le_flushing Views.flushing_le_saving)

/-- An update of the history store that changes nothing but the saver, the save queue, the settings queue, the waiting
counter write and places. -/
theorem saverTakeUpTo_acts (n : Nat) (p : Part) : Part.Acts .saving p (Part.saverTakeUpTo n p) := by
  induction n generalizing p with
  | zero => exact .refl _ _
  | succ n ih =>
    unfold Part.saverTakeUpTo
    split
    · split
      · exact .refl _ _
      · exact takePlace_acts _ _
      · refine .raw fun v hv => ?_
        cases v <;> first | rfl | exact ⟨rfl, rfl⟩ | exact ⟨rfl, rfl, rfl⟩ | exact absurd (show true = false from hv) (by decide)
      · rename_i r _
        extract_lets _ q
        have h : Part.Acts .saving p q := by
          refine .raw fun v hv => ?_
          cases v <;> first | rfl | exact ⟨rfl, rfl⟩ | exact ⟨rfl, rfl, rfl⟩ | exact absurd (show true = false from hv) (by decide)
        refine h.trans ?_
        split
        · refine .raw fun v hv => ?_
          cases v <;> first | rfl | exact ⟨rfl, rfl⟩ | exact ⟨rfl, rfl, rfl⟩ | exact absurd (show true = false from hv) (by decide)
        · exact (completing_acts_saving (complete_acts _ _ _ _ (FitsIn.nil _))).trans (ih _)
    · exact .refl _ _

theorem saverTake_acts (p : Part) : Part.Acts .saving p p.saverTake := saverTakeUpTo_acts _ p

/-! ## The ends of NV writes -/

theorem reportStoreFault_acts (p : Part) : Part.Acts (Views.and (.only .storeFault) (.only .pending)) p p.reportStoreFault := by
  unfold Part.reportStoreFault
  refine Part.Acts.trans (.raw fun v hv => ?_) (raise_acts _ _)
  cases v <;> first | rfl | exact ⟨rfl, rfl⟩ | exact ⟨rfl, rfl, rfl⟩ | exact absurd hv (by decide)

theorem finishForget_acts (p : Part) (k : Fin 64) (r : Result) : Part.Acts .completing p (p.finishForget k r) := by
  refine .foldl (fun q x => ?_) _ p
  split
  · split
    · exact complete_acts _ _ _ _ (by simp [FitsIn])
    · exact .refl _ _
  all_goals exact .refl _ _

theorem Views.saving_le_storing : Views.le .saving .storing := fun v h => by cases v <;> simp_all [Views.storing, Views.saving]

theorem Views.storeFault_le_storing : Views.le (Views.and (.only .storeFault) (.only .pending)) .storing :=
  Views.and_le (Views.only_le rfl) (Views.only_le rfl)

theorem placeVerified_acts (p : Part) (k : Fin 64) (copy : Option Entry) (n : Nat) (changed : Bool) :
    Part.Acts .storing p (p.placeVerified k copy n changed) := by
  unfold Part.placeVerified
  extract_lets _ _ p1 p2
  have h1 : Part.Acts .storing p p1 := by
    refine .raw fun v hv => ?_
    cases v <;> first | rfl | exact ⟨rfl, rfl⟩ | exact ⟨rfl, rfl, rfl⟩ | exact absurd (show true = false from hv) (by decide)
  have h2 : Part.Acts .storing p1 p2 := by
    unfold p2
    split
    · exact .refl _ _
    · split
      · exact (enqueuePlace_acts _ _).mono (Views.le_trans Views.history_le_saving Views.saving_le_storing)
      · exact setPlace_acts _ _ _ rfl
  exact (h1.trans h2).trans ((completing_acts_saving (finishForget_acts _ _ _)).mono Views.saving_le_storing)

theorem placeFailed_acts (p : Part) (k : Fin 64) : Part.Acts .storing p (p.placeFailed k) := by
  unfold Part.placeFailed
  extract_lets _ q
  have h : Part.Acts .storing p q := by
    refine Part.Acts.trans (.raw fun v hv => ?_)
      ((enqueuePlace_acts _ _).mono (Views.le_trans Views.history_le_saving Views.saving_le_storing))
    cases v <;> first | rfl | exact ⟨rfl, rfl⟩ | exact ⟨rfl, rfl, rfl⟩ | exact absurd (show true = false from hv) (by decide)
  exact (h.trans ((reportStoreFault_acts q).mono Views.storeFault_le_storing)).trans
    ((completing_acts_saving (finishForget_acts _ _ _)).mono Views.saving_le_storing)

theorem setPageCopy_acts (p : Part) (c : Fin 2) (v : Option PageCopy) : Part.Acts .storing p (p.setPageCopy c v) := by
  refine .raw fun v hv => ?_
  cases v <;> first | rfl | exact ⟨rfl, rfl⟩ | exact ⟨rfl, rfl, rfl⟩ | exact absurd (show true = false from hv) (by decide)

theorem setCounterCopy_acts (p : Part) (c : Fin 2) (v : Option (BitVec 32)) :
    Part.Acts .storing p (p.setCounterCopy c v) := by
  refine .raw fun v hv => ?_
  cases v <;> first | rfl | exact ⟨rfl, rfl⟩ | exact ⟨rfl, rfl, rfl⟩ | exact absurd (show true = false from hv) (by decide)

theorem finishSettings_acts (p : Part) (r : SettingsRequest) (res : Result) : Part.Acts .storing p (p.finishSettings r res) :=
  (completing_acts_saving (complete_acts _ _ _ _ (FitsIn.nil _))).mono Views.saving_le_storing

theorem setting_acts_storing {p q : Part} (h : Part.Acts .setting p q) : Part.Acts .storing p q := h.mono fun v h => by
  cases v <;> simp_all [Views.setting, Views.storing, Views.saving, Views.reporting, Views.flushing, Views.completing]

theorem settingsVerified_acts (p : Part) (r : SettingsRequest) (page : Page) :
    Part.Acts .storing p (p.settingsVerified r page) := by
  unfold Part.settingsVerified
  extract_lets target p1 _ p2
  have h1 : Part.Acts .storing p p1 := setPageCopy_acts _ _ _
  have h2 : Part.Acts .storing p1 p2 := by
    refine .raw fun v hv => ?_
    cases v <;> first | rfl | exact ⟨rfl, rfl⟩ | exact ⟨rfl, rfl, rfl⟩ | exact absurd (show true = false from hv) (by decide)
  exact (h1.trans h2).trans ((setting_acts_storing (placeSetting_acts p2 _)).trans (finishSettings_acts _ _ _))

/-- The saver takes a new value. -/
theorem saver_acts (p : Part) (s : Saver) : Part.Acts .storing p { p with hs := { p.hs with saver := s } } := by
  refine .raw fun v hv => ?_
  cases v <;> first | rfl | exact ⟨rfl, rfl⟩ | exact ⟨rfl, rfl, rfl⟩ | exact absurd (show true = false from hv) (by decide)

theorem settingsDiffers_acts (p : Part) (r : SettingsRequest) (page : Page) (second fails : Bool) :
    Part.Acts .storing p (p.settingsDiffers r page second fails) := by
  unfold Part.settingsDiffers
  extract_lets q
  have h : Part.Acts .storing p q := by
    unfold q
    split
    · exact setPageCopy_acts _ _ _
    · exact .refl _ _
  split
  · exact ((h.trans (saver_acts q _)).trans ((reportStoreFault_acts _).mono Views.storeFault_le_storing)).trans
      (finishSettings_acts _ _ _)
  · exact h.trans (saver_acts q _)

theorem complete_acts_storing (p : Part) (c : CellNo) (r : Result) : Part.Acts .storing p (p.complete c r []) :=
  (completing_acts_saving (complete_acts _ _ _ _ (FitsIn.nil _))).mono Views.saving_le_storing

theorem counterVerified_acts (p : Part) (value : BitVec 32) : Part.Acts .storing p (p.counterVerified value) := by
  unfold Part.counterVerified
  extract_lets target p1 _ p2 _ p3
  have h1 : Part.Acts .storing p p1 := setCounterCopy_acts _ _ _
  have h2 : Part.Acts .storing p1 p2 := by
    refine .raw fun v hv => ?_
    cases v <;> first | rfl | exact ⟨rfl, rfl⟩ | exact ⟨rfl, rfl, rfl⟩ | exact absurd (show true = false from hv) (by decide)
  refine (h1.trans h2).trans ?_
  split
  · have h3 : Part.Acts .storing p2 p3 := by
      refine .raw fun v hv => ?_
      cases v <;> first | rfl | exact ⟨rfl, rfl⟩ | exact ⟨rfl, rfl, rfl⟩ | exact absurd (show true = false from hv) (by decide)
    exact h3.trans (complete_acts_storing _ _ _)
  · exact .refl _ _

theorem counterDiffers_acts (p : Part) (value : BitVec 32) (second fails : Bool) :
    Part.Acts .storing p (p.counterDiffers value second fails) := by
  unfold Part.counterDiffers
  extract_lets q _ q2
  have h : Part.Acts .storing p q := by
    unfold q
    split
    · exact setCounterCopy_acts _ _ _
    · exact .refl _ _
  split
  · have h2 : Part.Acts .storing q q2 := (saver_acts q _).trans ((reportStoreFault_acts _).mono Views.storeFault_le_storing)
    refine (h.trans h2).trans ?_
    split
    · refine Part.Acts.trans (.raw fun v hv => ?_) (complete_acts_storing _ _ _)
      cases v <;> first | rfl | exact ⟨rfl, rfl⟩ | exact ⟨rfl, rfl, rfl⟩ | exact absurd (show true = false from hv) (by decide)
    · exact .refl _ _
  · exact h.trans (saver_acts q _)

/-! ## Charging -/

theorem slot_le_work (i : Slot) : Views.le (.slotWork (justSlot i)) (.slotWork everySlot) := Views.slotWork_mono fun _ _ => rfl

theorem addUncommitted_acts (p : Part) (i : Slot) (n : Nat) : Part.Acts (.slotWork everySlot) p (p.addUncommitted i n) := by
  unfold Part.addUncommitted
  extract_lets p1 p2
  have h1 : Part.Acts (.slotWork everySlot) p p1 := updCommit_acts p i _ rfl
  have h2 : Part.Acts (.slotWork everySlot) p1 p2 := by
    unfold p2
    split
    · split
      · exact (dirtyPlace_acts _ _).mono (Views.history_le_slotWork _)
      · exact .refl _ _
    · exact .refl _ _
  exact (h1.trans h2).trans (((examineFlush_acts _ i).mono (Views.flushing_le_slotWork _)).trans
    ((testCommit_acts _ i).mono (Views.linking_le_slotWork _)))

theorem crossLow_acts (p : Part) (i : Slot) : Part.Acts (.slotWork everySlot) p (p.crossLow i) := by
  unfold Part.crossLow
  extract_lets v
  split
  · exact (setVolumes_acts p i _ rfl).trans (raise_acts _ _)
  · exact .refl _ _

theorem crossSpent_acts (p : Part) (i : Slot) : Part.Acts (.slotWork everySlot) p (p.crossSpent i) := by
  unfold Part.crossSpent
  extract_lets v
  split
  · exact (setVolumes_acts p i _ rfl).trans (raise_acts _ _)
  · exact .refl _ _

theorem placeShare_acts (p : Part) (i : Slot) (fell post : Nat) :
    Part.Acts (.slotWork everySlot) p (p.placeShare i fell post) := by
  unfold Part.placeShare
  split
  · exact (recordVolumes_acts p i).mono (Views.slotRecord_le_slotWork i _)
  · extract_lets p1 p2 p3 p4
    have h1 : Part.Acts (.slotWork everySlot) p p1 := setVolumes_acts p i _ rfl
    have h2 : Part.Acts (.slotWork everySlot) p1 p2 := addUncommitted_acts _ _ _
    have h3 : Part.Acts (.slotWork everySlot) p2 p3 := by
      unfold p3
      split
      · exact (crossLow_acts _ _).trans (crossSpent_acts _ _)
      · exact .refl _ _
    have h4 : Part.Acts (.slotWork everySlot) p3 p4 := by
      unfold p4
      split
      · exact (testMargin_acts _ _).mono (slot_le_work i)
      · exact .refl _ _
    have h := h1.trans (h2.trans (h3.trans h4))
    exact h.trans ((recordShare_acts p4 i).mono (Views.slotRecord_le_slotWork i _))

theorem placeWhole_acts (p : Part) (i : Slot) (x : Nat) : Part.Acts (.slotWork everySlot) p (p.placeWhole i x) :=
  placeShare_acts _ _ _ _

theorem chargeTandem_acts (p : Part) (c : Channel) (a b : Slot) (x : Nat) :
    Part.Acts (.slotWork everySlot) p (p.chargeTandem c a b x) := by
  unfold Part.chargeTandem
  extract_lets stop share p1 p2
  have h1 : Part.Acts (.slotWork everySlot) p p1 := placeShare_acts _ _ _ _
  have h2 : Part.Acts (.slotWork everySlot) p1 p2 := setChannel_acts p1 c _ rfl
  split
  · split
    · exact h1.trans h2
    · exact (h1.trans h2).trans (placeWhole_acts _ _ _)
  · exact h1

theorem chargeSource_acts (p : Part) (c : Channel) (a : Slot) (x : Nat) :
    Part.Acts (.slotWork everySlot) p (p.chargeSource c a x) := by
  unfold Part.chargeSource
  split
  · split
    · split
      · exact chargeTandem_acts _ _ _ _ _
      · exact placeWhole_acts _ _ _
    · exact placeWhole_acts _ _ _
  · exact placeShare_acts _ _ _ _

theorem charge_acts (p : Part) (c : Channel) (x m : Nat) : Part.Acts (.slotWork everySlot) p (p.charge c x m) := by
  unfold Part.charge
  split
  · exact .refl _ _
  · split
    · exact (setChannel_acts p c _ rfl).trans (raise_acts _ _)
    · exact Part.Acts.trans (setVolumes_acts p _ _ rfl) (chargeSource_acts _ _ _ _)

theorem checkSequence_acts (p : Part) (b : BankNo) : Part.Acts .charging p (p.checkSequence b) := by
  unfold Part.checkSequence
  extract_lets seq gap gaps _ q
  have h : Part.Acts .charging p q := by
    refine .raw fun v hv => ?_
    cases v <;> first | rfl | exact ⟨rfl, rfl⟩ | exact ⟨rfl, rfl, rfl⟩ | exact absurd (show true = false from hv) (by decide)
  split
  · exact h.trans (raise_acts _ _)
  · exact h

theorem accountChannel_acts (p : Part) (b : BankNo) (c : Channel) :
    Part.Acts (.slotWork everySlot) p (p.accountChannel b c) := by
  unfold Part.accountChannel
  extract_lets r block volume maintenance _ q
  have h : Part.Acts (.slotWork everySlot) p q := setChannel_acts p c _ rfl
  exact h.trans (charge_acts _ _ _ _)

theorem chargeList_acts (p : Part) (l : List ChargeItem) :
    Part.Acts (.only .chargeList) p { p with au := { p.au with chargeList := l } } := by
  refine .raw fun v hv => ?_
  cases v <;> first | rfl | exact ⟨rfl, rfl⟩ | exact ⟨rfl, rfl, rfl⟩ | exact absurd hv (by decide)

theorem accountBank_acts (p : Part) (b : BankNo) : Part.Acts .charging p (p.accountBank b) := by
  unfold Part.accountBank
  extract_lets p1 p2 last _ p3 p4 p5
  have h1 : Part.Acts .charging p p1 := checkSequence_acts _ _
  have h2 : Part.Acts .charging p1 p2 := .forSlots (fun q c => by
    split
    · exact (accountChannel_acts _ _ _).mono (Views.slotWork_le_charging _)
    · exact .refl _ _) p1
  have h3 : Part.Acts .charging p2 p3 := by
    refine .raw fun v hv => ?_
    cases v <;> first | rfl | exact ⟨rfl, rfl⟩ | exact ⟨rfl, rfl, rfl⟩ | exact absurd (show true = false from hv) (by decide)
  have h4 : Part.Acts .charging p3 p4 := by
    unfold p4
    split
    · exact (pageBoundary_acts _).mono Views.setting_le_charging
    · exact .refl _ _
  have h5 : Part.Acts .charging p4 p5 := (setBankState_acts p4 b _).mono (Views.only_le (by
    have := b.isLt
    exact decide_eq_true (show bankBase b < 0xD00 by simp only [bankBase]; omega)))
  exact (h1.trans (h2.trans (h3.trans (h4.trans h5)))).trans ((chargeList_acts p5 _).mono (Views.only_le rfl))

theorem accountPurge_acts (p : Part) (cell : CellNo) (mask : Half) (volumes : Vector Nat 12) (clamped : Bool) :
    Part.Acts .charging p (p.accountPurge cell mask volumes clamped) := by
  unfold Part.accountPurge
  extract_lets p1 _ p2
  have h1 : Part.Acts .charging p p1 := .forSlots (fun q c => by
    split
    · exact ((setChannel_acts q c _ rfl).trans (charge_acts _ _ _ _)).mono (Views.slotWork_le_charging _)
    · exact .refl _ _) p
  have h2 : Part.Acts .charging p1 p2 := (chargeList_acts p1 _).mono (Views.only_le rfl)
  exact (h1.trans h2).trans ((complete_acts _ _ _ _ (FitsIn.nil _)).mono
    (Views.le_trans (Views.completing_le_slotWork everySlot) (Views.slotWork_le_charging _)))

end Sys2Proof.Machine
end

