-- ==== Sys2Proof/Laws/Holds.lean ====
section
/-! SUPPORT. What the operations of link holds, of the power states and of the reset sequences can touch: one lemma for
each. -/

-- Declarations are checked one after another, which keeps the number of waiting threads small.
set_option Elab.async false

namespace Sys2Proof.Machine
open Sys2Proof

/-! ## Holds -/

theorem Part.Acts.ofLinking {p q : Part} {i : Slot} (h : Part.Acts .linking p q) : Part.Acts (.bringUpOf i) p q :=
  (linking_acts_row i h).ofRow

/-- The hold of a slot changes while the slot holds its engine. -/
theorem setHold_acts (p : Part) (i : Slot) (h h' : Hold) (hl : p.link i = .held h) :
    Part.Acts .linking p (p.setLink i (.held h')) := setLink_acts p i _ rfl fun _ => by rw [hl]; rfl

theorem startOperation_acts (p : Part) (i : Slot) (h : Hold) (hl : p.link i = .held h) :
    Part.Acts (.bringUpOf i) p (p.startOperation i h) := by
  unfold Part.startOperation
  extract_lets frame
  have hs : ∀ (c : CommitRow), Part.Acts (.bringUpOf i) p (p.setCommit i c) := fun c =>
    setCommit_acts p i c rfl (by simp [Views.bringUp])
  split
  · exact (hs _).trans (setHold_acts _ i h _ (by simpa [Part.updCommit_eq] using hl)).ofLinking
  all_goals exact (setHold_acts p i h _ hl).ofLinking

theorem examineFlush_acts_slot (p : Part) (i : Slot) : Part.Acts (.bringUpOf i) p (p.examineFlush i) :=
  ((examineFlush_acts p i).mono Views.flushing_le_linking).ofLinking

theorem continueHold_acts_slot (p : Part) (i : Slot) (b : Bool) : Part.Acts (.bringUpOf i) p (p.continueHold i b) :=
  (continueHold_acts p i b).ofLinking

theorem openingRead_acts (p : Part) (i : Slot) (tally : Nat) : Part.Acts (.bringUpOf i) p (p.openingRead i tally) := by
  unfold Part.openingRead
  extract_lets resolved q
  have h : Part.Acts (.bringUpOf i) p q := by
    unfold q
    split
    · exact .refl _ _
    · exact (resolveInDoubt_acts _ _ _).ofWork
  exact h.trans ((linkSucceeded_acts q i).ofRow.trans (continueHold_acts_slot _ _ _))

theorem clearUnsettled_acts_slot (p : Part) (i : Slot) : Part.Acts (.bringUpOf i) p (p.clearUnsettled i) :=
  (clearUnsettled_acts p i).mono (Views.and_le (Views.only_le rfl) (Views.only_le (by simp [Views.bringUp])))

theorem advanceAccepted_acts (p : Part) (i : Slot) (h : Hold) (tally : Nat) (receipt : Quad) (hl : p.link i = .held h) :
    Part.Acts (.bringUpOf i) p (p.advanceAccepted i h tally receipt) := by
  unfold Part.advanceAccepted
  split
  · split
    · exact (setHold_acts p i h _ hl).ofLinking.trans (queueDigest_acts_slot _ _ _ i)
    · exact ((clearUnsettled_acts_slot p i).trans (linkSucceeded_acts _ i).ofRow).trans
        (((escalate_acts _ i _).ofWork.trans (examineFlush_acts_slot _ i)).trans (continueHold_acts_slot _ i _))
  · exact (endHold_acts p i).ofLinking

theorem reportingOf {p q : Part} {i : Slot} (h : Part.Acts .reporting p q) : Part.Acts (.bringUpOf i) p q :=
  h.mono (Views.reporting_le_bringUp _)

theorem advanceFull_acts (p : Part) (i : Slot) : Part.Acts (.bringUpOf i) p (p.advanceFull i) := by
  unfold Part.advanceFull
  extract_lets p1 p2 p3
  have h1 : Part.Acts (.bringUpOf i) p p1 := setCommit_acts p i _ rfl (by simp [Views.bringUp])
  have h2 : Part.Acts (.bringUpOf i) p1 p2 := (changeLinkedEntry_acts p1 i _).mono (Views.history_le_bringUp _)
  have h3 : Part.Acts (.bringUpOf i) p2 p3 := ((reportingOf (recordCommit_acts_reporting p2 i)).trans (raise_acts _ _)).trans
    (linkSucceeded_acts _ i).ofRow
  exact (h1.trans (h2.trans h3)).trans ((examineFlush_acts_slot p3 i).trans (continueHold_acts_slot _ i _))

theorem commitFailed_acts (p : Part) (i : Slot) (o : LinkOutcome) : Part.Acts (.bringUpOf i) p (p.commitFailed i o) := by
  unfold Part.commitFailed
  extract_lets q
  have h : Part.Acts (.bringUpOf i) p q := by
    unfold q
    split
    · exact clearUnsettled_acts_slot _ _
    · exact doubtUnsettled_acts_slot _ _
  exact (h.trans ((endFlush_acts q i _).mono Views.flushing_le_linking).ofLinking).trans
    ((linkFailed_acts _ i).ofRow.trans (endHold_acts _ i).ofLinking)

theorem commitOutcome_acts (p : Part) (i : Slot) (h : Hold) (o : LinkOutcome) (hl : p.link i = .held h) :
    Part.Acts (.bringUpOf i) p (p.commitOutcome i h o) := by
  unfold Part.commitOutcome
  split
  · exact openingRead_acts _ _ _
  · exact advanceAccepted_acts _ _ _ _ _ hl
  · exact advanceFull_acts _ _
  · exact commitFailed_acts _ _ _
  · exact commitFailed_acts _ _ _
  · exact commitFailed_acts _ _ _
  · exact commitFailed_acts _ _ _
  · exact (endHold_acts p i).ofLinking
  · exact (endHold_acts p i).ofLinking

theorem advanceConfirmed_acts (p : Part) (i : Slot) (a : Advance) (tally : Nat) :
    Part.Acts (.bringUpOf i) p (p.advanceConfirmed i a tally) := by
  unfold Part.advanceConfirmed
  extract_lets p1 p2 p3
  have h1 : Part.Acts (.bringUpOf i) p p1 := setCommit_acts p i _ rfl (by simp [Views.bringUp])
  have h2 : Part.Acts (.bringUpOf i) p1 p2 := (changeLinkedEntry_acts p1 i _).mono (Views.history_le_bringUp _)
  have h3 : Part.Acts (.bringUpOf i) p2 p3 := (reportingOf (recordCommit_acts_reporting p2 i)).trans
    (linkSucceeded_acts _ i).ofRow
  exact (h1.trans (h2.trans h3)).trans ((examineFlush_acts_slot p3 i).trans
    ((testCommit_acts _ i).ofLinking.trans (continueHold_acts_slot _ i _)))

theorem receiptChecked_acts (p : Part) (i : Slot) (tally : Nat) (m : Bool) :
    Part.Acts (.bringUpOf i) p (p.receiptChecked i tally m) := by
  unfold Part.receiptChecked
  split
  · split
    · exact advanceConfirmed_acts _ _ _ _
    · exact ((clearUnsettled_acts_slot p i).trans (linkSucceeded_acts _ i).ofRow).trans
        ((escalate_acts _ i _).ofWork.trans (continueHold_acts_slot _ i _))
  · exact .refl _ _

theorem deliverOutcome_acts (p : Part) (i : Slot) (o : LinkOutcome) :
    Part.Acts (.bringUpOf i) p (p.deliverOutcome i o) := by
  unfold Part.deliverOutcome
  split
  · rename_i h hl
    split
    · exact commitOutcome_acts p i h o hl
    · exact (endHold_acts p i).ofLinking.trans (slotOutcome_acts _ i o)
  all_goals exact .refl _ _

theorem operationEnds_acts (p : Part) (i : Slot) (h : Hold) (o : LinkOutcome) (hl : p.link i = .held h) :
    Part.Acts (.bringUpOf i) p (p.operationEnds i h o) := by
  unfold Part.operationEnds
  split
  · exact (setHold_acts p i h _ hl).ofLinking
  · exact deliverOutcome_acts _ _ _

theorem judged_acts (p : Part) (i : Slot) (h : Hold) (o : LinkOutcome) (low : Bool) (hl : p.link i = .held h) :
    Part.Acts (.judging i) p (p.judged i h o low) := by
  unfold Part.judged
  refine Part.Acts.trans ?_ ((operationEnds_acts _ i h o ?_).mono (Views.le_and_left _ _))
  · exact setBay_acts p i _ (fun _ => rfl) (fun _ => ⟨rfl, rfl, rfl⟩) (by simp [Views.judging, Views.and, Views.only])
      (fun _ => rfl) (fun _ => rfl)
  · exact hl

theorem deliverHeld_acts (p : Part) (i : Slot) : Part.Acts (.bringUpOf i) p (p.deliverHeld i) := by
  unfold Part.deliverHeld
  split
  · split
    · exact deliverOutcome_acts _ _ _
    all_goals exact .refl _ _
  all_goals exact .refl _ _

theorem responseReceived_acts (p q : Part) (i : Slot) (command : LinkOp) (payload : List Byte) (crc : Byte) (low : Bool)
    (h : p.responseReceived i command payload crc low = some q) : Part.Acts (.judging i) p q := by
  unfold Part.responseReceived at h
  split at h
  · rename_i hd hl
    split at h
    · split at h
      · cases h; exact judged_acts _ _ _ _ _ hl
      · cases h
    all_goals cases h
  all_goals cases h

/-! ## Waking and SLEEP -/

theorem bays_acts (p : Part) (f : Slot → Bay) {t : Views}
    (h1 : ∀ b, t (.contact b) = false → (f b).contactClosed = (p.bay b).contactClosed)
    (h2 : ∀ b, t (.presence b) = false → (f b).presence = (p.bay b).presence ∧ (f b).timer = (p.bay b).timer ∧
      (f b).settledHeld = (p.bay b).settledHeld)
    (h3 : ∀ b, t (.gap b) = false → (f b).gap = (p.bay b).gap)
    (h4 : ∀ b, t (.pattern b) = false → (f b).selected = (p.bay b).selected)
    (h5 : ∀ b, t (.current b) = false → (f b).current = (p.bay b).current) :
    Part.Acts t p { p with bays := Vector.ofFn f } := by
  refine .raw fun v hv => ?_
  have hb : ∀ b, ({ p with bays := Vector.ofFn f } : Part).bay b = f b := fun b => by simp [Part.bay]
  cases v with
  | contact b => simp only [View.same, hb, h1 b hv]
  | presence b => simp only [View.same, hb, h2 b hv, and_self]
  | gap b => simp only [View.same, hb, h3 b hv]
  | pattern b => simp only [View.same, hb, h4 b hv]
  | current b => simp only [View.same, hb, h5 b hv]
  | _ => first | rfl | exact ⟨rfl, rfl⟩ | exact ⟨rfl, rfl, rfl⟩

theorem linesOn_acts (p : Part) : Part.Acts .waking p p.linesOn :=
  bays_acts p _ (fun _ _ => rfl) (fun _ _ => ⟨rfl, rfl, rfl⟩) (fun _ h => by cases h) (fun _ _ => rfl) (fun _ h => by cases h)

theorem Views.linking_le_waking : Views.le .linking .waking := fun v h => by
  cases v <;> simp_all [Views.waking, Views.linking, Views.flushing, Views.completing]

theorem wake_acts (p : Part) : Part.Acts .waking p p.wake := by
  unfold Part.wake
  extract_lets _ q
  have h : Part.Acts .waking p q := by
    refine .raw fun v hv => ?_
    cases v <;> first | rfl | exact ⟨rfl, rfl⟩ | exact ⟨rfl, rfl, rfl⟩ | exact absurd (show true = false from hv) (by decide)
  exact (h.trans (linesOn_acts q)).trans (((takeFromList_acts _).trans (testAll_acts _)).mono Views.linking_le_waking)

theorem presenceChanged_acts (p : Part) : Part.Acts .waking p p.presenceChanged := by
  unfold Part.presenceChanged
  split
  · exact wake_acts _
  · exact .refl _ _

theorem cutForSleep_acts (p : Part) (i : Slot) : Part.Acts .bringUps p (p.cutForSleep i) := by
  unfold Part.cutForSleep
  split
  · rename_i h hl
    split
    · exact (Part.Acts.ofLinking (i := i) (unheld_acts p i _ _ rfl rfl)).ofOne
    · split
      · exact .refl _ _
      · exact ((Part.Acts.ofLinking (i := i) (placeDeferred_acts p i _)).trans ((doubtUnsettled_acts_slot _ i).trans
          (releaseReport_acts _ i).ofLinking)).ofOne
  all_goals exact .refl _ _

/-- The wait list changes and no link state does. -/
theorem waitList_acts (p : Part) (l : LinkPool) (h : l.states = p.lp.states) {t : Views} (ht : t .waitList = true) :
    Part.Acts t p { p with lp := l } :=
  lp_acts p l (fun i => .inr (by rw [h]; rfl)) (.inl ht) fun hc => (Part.heldCount_congr (p := p) h).trans_le hc

theorem Views.bringUps_le_sleeping : Views.le .bringUps .sleeping := fun v h => by cases v <;> simp_all [Views.sleeping]

theorem enterSleep_acts (p : Part) : Part.Acts .sleeping p p.enterSleep := by
  unfold Part.enterSleep
  extract_lets _ p1 back p2
  have h1 : Part.Acts .sleeping p p1 := by
    refine .raw fun v hv => ?_
    cases v <;> first | rfl | exact ⟨rfl, rfl⟩ | exact ⟨rfl, rfl, rfl⟩ | exact absurd (show true = false from hv) (by decide)
  have h2 : Part.Acts .sleeping p1 p2 := (Part.Acts.forSlots (fun q i => cutForSleep_acts q i) p1).mono
    Views.bringUps_le_sleeping
  clear_value p2
  exact (h1.trans h2).trans (waitList_acts p2 { p2.lp with bringUp := back ++ p2.lp.bringUp } rfl rfl)

/-! ## The wind-down -/

theorem windDownLeaves_acts (p : Part) : Part.Acts .flushing p p.windDownLeaves :=
  .forSlots (fun q i => updCommit_acts q i _ rfl) p

theorem Views.linking_le_powering : Views.le .linking .powering := fun v h => by
  cases v <;> simp_all [Views.powering, Views.linking, Views.flushing, Views.completing]

theorem windDownCell_acts (p : Part) (c : Option CellNo) {t : Views} (h : t .windDownCell = true := by rfl) :
    Part.Acts t p { p with ps := { p.ps with windDownCell := c } } := by
  refine .raw fun v hv => ?_
  cases v <;> first | rfl | exact ⟨rfl, rfl⟩ | exact ⟨rfl, rfl, rfl⟩ | exact absurd hv (by simp [h])

theorem power_acts (p : Part) (s : PowerState) {t : Views} (h : t .power = true := by rfl) :
    Part.Acts t p { p with ps := { p.ps with power := s } } := by
  refine .raw fun v hv => ?_
  cases v <;> first | rfl | exact ⟨rfl, rfl⟩ | exact ⟨rfl, rfl, rfl⟩ | exact absurd hv (by simp [h])

theorem complete_acts_powering (p : Part) (c : CellNo) (r : Result) : Part.Acts .powering p (p.complete c r []) :=
  (complete_acts _ _ _ _ (FitsIn.nil _)).mono (Views.le_trans Views.completing_le_linking Views.linking_le_powering)

theorem supersede_acts (p : Part) : Part.Acts .powering p p.supersede := by
  unfold Part.supersede
  split
  · exact (windDownCell_acts p none).trans (complete_acts_powering _ _ _)
  · exact .refl _ _

theorem beginWindDown_acts (p : Part) : Part.Acts .powering p p.beginWindDown := by
  unfold Part.beginWindDown
  extract_lets _ q
  have h : Part.Acts .powering p q := (power_acts p _).trans
    ((windDownLeaves_acts _).mono (Views.le_trans Views.flushing_le_linking Views.linking_le_powering))
  refine h.trans (Part.Acts.mono (.trans (.forSlots (fun r i => ?_) q) (testAll_acts _)) Views.linking_le_powering)
  split
  · exact setCommit_acts r i _ rfl fun _ => rfl
  · exact .refl _ _

/-! ## The supply watch -/

theorem Views.saving_le_supplying : Views.le .saving .supplying := fun v h => by
  cases v <;> simp_all [Views.supplying, Views.saving]

theorem Views.linking_le_supplying : Views.le .linking .supplying := fun v h => by
  cases v <;> simp_all [Views.supplying, Views.saving, Views.linking, Views.flushing, Views.completing, Views.reporting]

theorem foldAtWrite_acts (p : Part) (b : Bool) {t : Views} (h : t .foldAtWrite = true := by rfl) :
    Part.Acts t p { p with hs := { p.hs with foldAtWrite := b } } := by
  refine .raw fun v hv => ?_
  cases v <;> first | rfl | exact ⟨rfl, rfl⟩ | exact ⟨rfl, rfl, rfl⟩ | exact absurd hv (by simp [h])

theorem endIdleCommit_acts (p : Part) (i : Slot) : Part.Acts .linking p (p.endIdleCommit i) := by
  unfold Part.endIdleCommit
  split
  · split
    · exact endHold_acts p i
    · exact .refl _ _
  all_goals exact .refl _ _

theorem reportSupplyLow_acts (p : Part) : Part.Acts .supplying p p.reportSupplyLow := by
  unfold Part.reportSupplyLow
  extract_lets _ q r _
  have h : Part.Acts .supplying p q := by
    refine Part.Acts.trans (.raw fun v hv => ?_) (raise_acts _ _)
    cases v <;> first | rfl | exact ⟨rfl, rfl⟩ | exact ⟨rfl, rfl, rfl⟩ | exact absurd (show true = false from hv) (by decide)
  have hr : Part.Acts .supplying q r := (Part.Acts.forSlots (fun s i => endIdleCommit_acts s i) q).mono
    Views.linking_le_supplying
  exact (h.trans hr).trans ((foldAtWrite_acts r true).trans
    ((reorderSaveQueue_acts _).mono (Views.le_trans Views.history_le_saving Views.saving_le_supplying)))

theorem reportSupplyGood_acts (p : Part) : Part.Acts .supplying p p.reportSupplyGood := by
  unfold Part.reportSupplyGood
  extract_lets _ p1 p2 _ p3
  have h1 : Part.Acts .supplying p p1 := by
    refine Part.Acts.trans (.raw fun v hv => ?_) (raise_acts _ _)
    cases v <;> first | rfl | exact ⟨rfl, rfl⟩ | exact ⟨rfl, rfl, rfl⟩ | exact absurd (show true = false from hv) (by decide)
  have h2 : Part.Acts .supplying p1 p2 := (unfoldAll_acts p1).mono Views.saving_le_supplying
  have h3 : Part.Acts .supplying p2 p3 := foldAtWrite_acts p2 _
  exact (h1.trans (h2.trans h3)).trans (((takeFromList_acts p3).trans (testAll_acts _)).mono Views.linking_le_supplying)

/-! ## The reset sequences -/

theorem Views.history_le_resetting : Views.le .history .resetting := fun v h => by
  cases v <;> simp_all [Views.resetting, Views.history]

theorem Views.completing_le_resetting : Views.le .completing .resetting := fun v h => by
  cases v <;> simp_all [Views.resetting, Views.completing]

theorem abortParked_acts (p : Part) : Part.Acts .completing p p.abortParked := by
  refine .foldl (fun q k => ?_) _ p
  split
  · exact .refl _ _
  · exact complete_acts _ _ _ _ (FitsIn.nil _)

theorem linesOn_acts_reset (p : Part) : Part.Acts .resetting p p.linesOn :=
  bays_acts p _ (fun _ _ => rfl) (fun _ _ => ⟨rfl, rfl, rfl⟩) (fun _ h => by cases h) (fun _ _ => rfl) (fun _ h => by cases h)

theorem powerAtReset_acts (p : Part) : Part.Acts .resetting p p.powerAtReset := by
  unfold Part.powerAtReset
  split
  · refine Part.Acts.trans (.raw fun v hv => ?_) (linesOn_acts_reset _)
    cases v <;> first | rfl | exact ⟨rfl, rfl⟩ | exact ⟨rfl, rfl, rfl⟩ | exact absurd (show true = false from hv) (by decide)
  · refine .raw fun v hv => ?_
    cases v <;> first | rfl | exact ⟨rfl, rfl⟩ | exact ⟨rfl, rfl, rfl⟩ | exact absurd (show true = false from hv) (by decide)
  all_goals exact .refl _ _

theorem Part.atReset_held (p q : Part) (keep : Bool) (h : q.lp = p.lp.atReset keep) : q.heldCount ≤ p.heldCount := by
  refine Part.heldCount_le fun i hi => ?_
  have e : q.link i = (p.link i).atReset keep := by simp [Part.link, h, LinkPool.atReset]
  rw [e] at hi
  unfold LinkState.atReset at hi
  split at hi
  · rename_i hd hl
    rw [hl]; rfl
  all_goals cases hi

theorem abandonWork_acts (p : Part) (keep : Bool) : Part.Acts .resetting p (p.abandonWork keep) := by
  unfold Part.abandonWork
  extract_lets _ _ _ _ q
  have h : Part.Acts .resetting p q := by
    refine ⟨⟨fun v hv => ?_, id, fun h => (Part.atReset_held p q keep rfl).trans h⟩, fun _ h => h⟩
    cases v with
    | identity i => simp [View.same, q, Part.slot, SlotRow.atReset]
    | unsettled i => simp [View.same, q, Part.commit, CommitRow.atReset]
    | _ => first | rfl | exact ⟨rfl, rfl⟩ | exact ⟨rfl, rfl, rfl⟩ | exact absurd (show true = false from hv) (by decide)
  exact (h.trans ((cancelDigest_acts q _).mono (Views.only_le rfl))).trans
    ((abortParked_acts _).mono Views.completing_le_resetting)

theorem beginReset_acts (p : Part) (kind : SequenceKind) (fold : Bool) :
    Part.Acts .resetting p (p.beginReset kind fold) := by
  unfold Part.beginReset
  extract_lets p1 _ p2 p3 _ p4
  have h1 : Part.Acts .resetting p p1 := powerAtReset_acts p
  have h2 : Part.Acts .resetting p1 p2 := by
    refine .raw fun v hv => ?_
    cases v <;> first | rfl | exact ⟨rfl, rfl⟩ | exact ⟨rfl, rfl, rfl⟩ | exact absurd (show true = false from hv) (by decide)
  have h3 : Part.Acts .resetting p2 p3 := abandonWork_acts p2 fold
  refine ((h1.trans (h2.trans h3)).trans (foldAtWrite_acts p3 fold : Part.Acts .resetting p3 p4)).trans ?_
  split
  · exact (reorderSaveQueue_acts _).mono Views.history_le_resetting
  · exact .refl _ _

theorem setSequence_acts (p : Part) (k : SequenceKind) (f : SequencePhase) {t : Views}
    (h : t .sequence = true := by rfl) : Part.Acts t p (p.setSequence k f) := by
  refine .raw fun v hv => ?_
  cases v <;> first | rfl | exact ⟨rfl, rfl⟩ | exact ⟨rfl, rfl, rfl⟩ | exact absurd hv (by simp [h])

theorem resetLine_acts (p : Part) : Part.Acts .resetting p p.resetLine := by
  unfold Part.resetLine
  split
  · exact beginReset_acts _ _ _
  · exact setSequence_acts _ _ _
  · exact setSequence_acts _ _ _
  · exact setSequence_acts _ _ _
  all_goals exact .refl _ _

theorem settled_acts (p : Part) (i : Slot) : Part.Acts (.rowReport i) p (p.settled i) := by
  unfold Part.settled
  split
  · exact ((rowUpdate_acts p i _ ⟨rfl, rfl⟩).trans (changeState_acts _ i _)).trans (joinBringUp_acts _ i _)
  · exact .refl _ _

/-! ## What ends every step -/

theorem choosePatterns_acts (p : Part) : Part.Acts .ending p p.choosePatterns :=
  bays_acts p _ (fun _ _ => rfl) (fun _ _ => ⟨rfl, rfl, rfl⟩) (fun _ _ => rfl) (fun _ h => by cases h) (fun _ _ => rfl)

theorem keepBrightness_acts (b p : Part) : Part.Acts (.only .dimming) p (Part.keepBrightness b p) := by
  unfold Part.keepBrightness
  split
  · exact .refl _ _
  · refine .raw fun v hv => ?_
    cases v <;> first | rfl | exact ⟨rfl, rfl⟩ | exact ⟨rfl, rfl, rfl⟩ | exact absurd hv (by decide)

theorem reviewOutput_acts (p : Part) : Part.Acts .ending p p.reviewOutput := by
  refine .raw fun v hv => ?_
  cases v <;> first | rfl | exact ⟨rfl, rfl⟩ | exact ⟨rfl, rfl, rfl⟩ | exact absurd (show true = false from hv) (by decide)

theorem finish_acts (before p : Part) : Part.Acts .ending p (Part.finish before p) := by
  refine Part.Acts.trans (.trans (.trans (.trans ?_ ((syncRecords_acts before _).mono fun v h => ?_))
    (choosePatterns_acts _)) ((keepBrightness_acts before _).mono (Views.only_le rfl))) (reviewOutput_acts _)
  · exact ((takeDigest_acts p).mono (Views.only_le rfl)).trans 
      (((saverTake_acts _).mono Views.saving_le_ending).trans (openWrites_acts _ _))
  · cases v <;> simp_all [Views.bytes, Views.ending]
    omega

end Sys2Proof.Machine
end

