-- ==== Sys2Proof/Laws/Commands.lean ====
section
/-! SUPPORT. What the operations that make up the commands can touch: one lemma for each. -/

-- Declarations are checked one after another, which keeps the number of waiting threads small.
set_option Elab.async false

namespace Sys2Proof.Machine
open Sys2Proof

theorem bringUp_le_bay (b : Slot) : Views.le (.bringUpOf b) (.bayEvent b) := fun v h => by
  cases v <;> simp_all [Views.bayEvent, Views.bringUp, Views.slotWork, Views.reporting, Views.linking, Views.flushing, Views.completing, Views.history]
theorem waking_le_bay (b : Slot) : Views.le .waking (.bayEvent b) := fun v h => by
  cases v <;> simp_all [Views.bayEvent, Views.waking, Views.linking, Views.flushing, Views.completing]

theorem updBay_acts_event (p : Part) (b : Slot) (f : Bay → Bay) (h4 : (f (p.bay b)).selected = (p.bay b).selected) (h5 : (f (p.bay b)).current = (p.bay b).current) :
    Part.Acts (.bayEvent b) p (p.updBay b f) :=
  setBay_acts p b _ (by simp [Views.bayEvent]) (by simp [Views.bayEvent]) (by simp [Views.bayEvent, Views.waking]) (fun _ => h4) (fun _ => h5)

theorem presenceBecomes_acts (p : Part) (b : Slot) (s : Presence) (t : BayTimer) : Part.Acts (.bayEvent b) p (p.presenceBecomes b s t) :=
  (updBay_acts_event p b _ rfl rfl).trans ((presenceChanged_acts _).mono (waking_le_bay b))

theorem row_le_bay (b : Slot) : Views.le (.rowReport b) (.bayEvent b) :=
  Views.le_trans (Views.le_trans (Views.rowReport_le_slotWork b) (Views.slotWork_le_bringUp _)) (bringUp_le_bay b)

theorem contactClosed_acts (p : Part) (b : Slot) : Part.Acts (.bayEvent b) p (p.contactClosed b) := by
  unfold Part.contactClosed
  split
  · refine (presenceBecomes_acts p b .settling .settle).trans ?_
    unfold Part.contactMade
    split
    · exact .refl _ _
    · split
      · exact (changeState_acts _ _ _).mono (row_le_bay b)
      · exact .refl _ _
  · exact (presenceBecomes_acts p b _ _).trans ((deliverHeld_acts _ _).mono (bringUp_le_bay b))
  all_goals exact .refl _ _

theorem contactOpened_acts (p : Part) (b : Slot) : Part.Acts (.bayEvent b) p (p.contactOpened b) := by
  unfold Part.contactOpened
  split
  · refine (presenceBecomes_acts p b .absent .stopped).trans ?_
    unfold Part.settleAbandoned
    split
    · exact .refl _ _
    · split
      · exact (changeState_acts _ _ _).mono (row_le_bay b)
      · exact .refl _ _
  · exact (presenceBecomes_acts p b _ _)
  all_goals exact .refl _ _

theorem declareSettled_acts (p : Part) (b : Slot) : Part.Acts (.bayEvent b) p (p.declareSettled b) := by
  unfold Part.declareSettled
  split
  · exact (settled_acts _ _).mono (row_le_bay b)
  · exact updBay_acts_event p b _ rfl rfl
  all_goals exact .refl _ _

theorem derived_acts (p : Part) (i : Slot) (k : Quad) : Part.Acts (.bringUpOf i) p (p.derived i k) := by
  unfold Part.derived
  extract_lets nonce p1 p2
  have h1 : Part.Acts (.bringUpOf i) p p1 := ((nonceDrawn_acts p).mono (Views.only_le rfl)).trans (bringUpRow_acts _ i _)
  have h2 : Part.Acts (.bringUpOf i) p1 p2 := setCommit_acts p1 i _ rfl fun _ => rfl
  exact (h1.trans h2).trans ((reportSlot_acts_row _ _).ofRow.trans (joinBringUp_acts _ _ _).ofRow)

theorem popDigest_acts_bringUps (p : Part) : Part.Acts .bringUps p p.popDigest := (popDigest_acts p).mono (Views.only_le rfl)

theorem link_eq_of_hold {p : Part} {b : Slot} {h : Hold} (e : p.hold b = some h) : p.link b = .held h := by
  unfold Part.hold at e
  split at e
  · rename_i h' hl; cases e; exact hl
  all_goals cases e

theorem linking_le_judging (b : Slot) : Views.le .linking (.judging b) :=
  Views.le_trans (Views.le_trans Views.linking_le_reporting (Views.reporting_le_bringUp _)) (Views.le_and_left _ _)

theorem dropCounted_acts (p : Part) : Part.Acts .boardWrite p p.dropCounted := by
  unfold Part.dropCounted
  refine Part.Acts.trans (.raw fun v hv => ?_) (raise_acts _ _)
  cases v <;> first | rfl | exact ⟨rfl, rfl⟩ | exact ⟨rfl, rfl, rfl⟩ | exact absurd (show true = false from hv) (by decide)

theorem dropOverrun_acts (p : Part) : Part.Acts .boardWrite p p.dropOverrun := by
  unfold Part.dropOverrun
  refine (dropCounted_acts p).trans (Part.Acts.trans (.raw fun v hv => ?_) (raise_acts _ _))
  cases v <;> first | rfl | exact ⟨rfl, rfl⟩ | exact ⟨rfl, rfl, rfl⟩ | exact absurd (show true = false from hv) (by decide)

theorem landWord_acts (p : Part) (a : Nat) (x y : Byte) (h : a + 1 < 0xA00) : Part.Acts .boardWrite p (p.landWord a x y) :=
  (writeByte_acts _ _ _ (by simp [Views.boardWrite]; omega) h).trans
    (writeByte_acts _ _ _ (by simp [Views.boardWrite]; omega) (by omega))

theorem waking_le_board : Views.le .waking .boardWrite := fun v h => by
  cases v <;> simp_all [Views.boardWrite, Views.waking, Views.linking, Views.flushing, Views.completing]
  omega

theorem posted_acts (p : Part) (l : List CellNo) {t : Views} (h : t .posted = true := by rfl) :
    Part.Acts t p { p with rq := { p.rq with posted := l } } := by
  refine .raw fun v hv => ?_
  cases v <;> first | rfl | exact ⟨rfl, rfl⟩ | exact ⟨rfl, rfl, rfl⟩ | exact absurd hv (by simp [h])

theorem landCell_acts (p : Part) (c : CellNo) (x y : Byte) : Part.Acts .boardWrite p (p.landWord (cellBase c) x y) :=
  landWord_acts _ _ _ _ (by have := c.isLt; simp only [cellBase]; omega)
theorem landBank_acts (p : Part) (c : BankNo) (x y : Byte) : Part.Acts .boardWrite p (p.landWord (bankBase c) x y) :=
  landWord_acts _ _ _ _ (by have := c.isLt; simp only [bankBase]; omega)
theorem landBankState_acts (p : Part) (b : BankNo) (s : BankState) (flags : Byte) :
    Part.Acts .boardWrite p (p.landBankState b s flags) := landBank_acts p b _ _

theorem cellArrives_acts (p : Part) (c : CellNo) (k : Byte) : Part.Acts .boardWrite p (p.cellArrives c k) := by
  unfold Part.cellArrives
  extract_lets p1 _ p2
  have h1 : Part.Acts .boardWrite p p1 := landCell_acts _ _ _ _
  have h2 : Part.Acts .boardWrite p1 p2 := posted_acts p1 _
  refine (h1.trans h2).trans ?_
  split
  · exact (wake_acts _).mono waking_le_board
  · exact .refl _ _

theorem writeCellState_acts (p : Part) (c : CellNo) (x k : Byte) : Part.Acts .boardWrite p (p.writeCellState c x k) := by
  unfold Part.writeCellState
  split
  · exact dropCounted_acts _
  · split
    · exact (landCell_acts p c _ _).trans (posted_acts _ _)
    · split
      · exact landCell_acts _ _ _ _
      · exact dropCounted_acts _
  all_goals
    split
    · exact landCell_acts _ _ _ _
    · split
      · exact cellArrives_acts _ _ _
      · exact dropCounted_acts _

theorem bankArrives_acts (p : Part) (c : BankNo) (k : Byte) : Part.Acts .boardWrite p (p.bankArrives c k) := by
  unfold Part.bankArrives
  extract_lets p1 _ p2
  have h1 : Part.Acts .boardWrite p p1 := landBankState_acts _ _ _ _
  have h2 : Part.Acts .boardWrite p1 p2 := (chargeList_acts p1 _).mono (Views.only_le rfl)
  refine (h1.trans h2).trans ?_
  split
  · exact (wake_acts _).mono waking_le_board
  · exact .refl _ _

theorem engineWrite_acts (p : Part) (a : Nat) (x y : Byte) (ha : a % 2 = 0) : Part.Acts .boardWrite p (p.engineWrite a x y) := by
  unfold Part.engineWrite
  split
  · unfold Part.writeCell
    split
    · exact writeCellState_acts _ _ _ _
    · split
      · exact dropCounted_acts _
      · exact landWord_acts _ _ _ _ (by simp only [cellBase]; omega)
  · split
    · unfold Part.writeBank
      have hb : ∀ (q : Part) (x : Byte) y, Part.Acts .boardWrite q (if (a - 0x600) % 256 = 0 then q.writeBankState ⟨(a - 0x600)/256, by omega⟩ x y else q.landWord (bankBase ⟨(a - 0x600)/256, by omega⟩ + (a - 0x600) % 256) x y) := by
        intro q x y
        split
        · unfold Part.writeBankState
          split
          · exact bankArrives_acts _ _ _
          · split
            · exact landBankState_acts _ _ _ _
            · exact dropCounted_acts _
        · exact landWord_acts _ _ _ _ (by simp only [bankBase]; omega)
      split
      · exact dropOverrun_acts _
      all_goals exact hb _ _ _
    · split
      · exact dropCounted_acts _
      · exact .refl _ _

theorem resetting_le_control : Views.le .resetting .controlWrite := fun v h => by
  cases v <;> simp_all [Views.controlWrite, Views.resetting, Views.history, Views.completing]

theorem writeControl_acts (p : Part) (u : Half) : Part.Acts .controlWrite p (p.writeControl u) := by
  unfold Part.writeControl
  extract_lets v _ p1
  have h1 : Part.Acts .controlWrite p p1 := by
    refine .raw fun v hv => ?_
    cases v <;> first | rfl | exact ⟨rfl, rfl⟩ | exact ⟨rfl, rfl, rfl⟩ | exact absurd (show true = false from hv) (by decide)
  have h2 : Part.Acts .controlWrite p1 (p1.writeByteOrder v) := by
    unfold Part.writeByteOrder
    split
    · split
      · exact .refl _ _
      · refine Part.Acts.trans (.raw fun v hv => ?_) ((rewriteRecords_acts _ _).mono fun v h => ?_)
        · cases v <;> first | rfl | exact ⟨rfl, rfl⟩ | exact ⟨rfl, rfl, rfl⟩ | exact absurd (show true = false from hv) (by decide)
        · cases v <;> simp_all [Views.bytes, Views.controlWrite]
    · exact .refl _ _
  have h3 : Part.Acts .controlWrite (p1.writeByteOrder v) ((p1.writeByteOrder v).writeMaskPolarity v) := by
    refine .raw fun v hv => ?_
    cases v <;> first | rfl | exact ⟨rfl, rfl⟩ | exact ⟨rfl, rfl, rfl⟩ | exact absurd (show true = false from hv) (by decide)
  refine (h1.trans (h2.trans h3)).trans ?_
  unfold Part.writeRestart
  split
  · exact (beginReset_acts _ _ _).mono resetting_le_control
  · exact .refl _ _

theorem completing_le_taking : Views.le .completing .taking := fun v h => by
  cases v <;> simp_all [Views.taking, Views.completing]

theorem takeCell_acts (p : Part) (c : CellNo) : Part.Acts .taking p (p.takeCell c) := by
  unfold Part.takeCell
  refine Part.Acts.trans (posted_acts _ _) ((setCellState_acts _ c _).mono (Views.only_le ?_))
  have := c.isLt
  exact decide_eq_true (show cellBase c < 0x600 by simp only [cellBase]; omega)

theorem complete_acts_within (p : Part) (c : CellNo) (r : Result) (d : List Field) (h : FitsIn 56 d) {T : Views} (hT : Views.le .completing T) : Part.Acts T p (p.complete c r d) :=
  (complete_acts _ _ _ _ h).mono hT

theorem completing_le_request {T : Views} : Views.le .completing (Views.and .taking T) := Views.le_trans completing_le_taking (Views.le_and_left _ _)
theorem park_acts_request (p : Part) (c : CellNo) (w : ParkedWork) {T : Views} : Part.Acts (Views.and .taking T) p (p.park c w) := (park_acts _ _ _).mono (Views.only_le rfl)


theorem setting_le {T : Views} {p q : Part} (h : Part.Acts .setting p q) : Part.Acts (Views.and T .setting) p q := h.mono (Views.le_and_right _ _)

theorem doSetThresholds_acts (c : CellNo) (p : Part) : Part.Acts (Views.and .taking .setting) p (p.doSetThresholds c) := by
  unfold Part.doSetThresholds
  split
  · exact complete_acts_within _ _ _ _ (FitsIn.nil _) completing_le_request
  · exact (setting_le (placeSetting_acts _ _)).trans (complete_acts_within _ _ _ _ (FitsIn.nil _) completing_le_request)

theorem doReconcile_acts (c : CellNo) (p : Part) : Part.Acts (Views.and .taking .setting) p (p.doReconcile c) := by
  unfold Part.doReconcile
  split
  · exact complete_acts_within _ _ _ _ (FitsIn.nil _) completing_le_request
  · rename_i i _
    extract_lets given rated q
    have h : Part.Acts (Views.and .taking .setting) p q := setVolumes_acts p i _ rfl
    exact (h.trans (setting_le (((recordVolumes_acts q i).mono (Views.slotRecord_le_setting i)).trans
      ((reselectFor_acts _ i).mono Views.channels_le_setting)))).trans (complete_acts_within _ _ _ _ (FitsIn.nil _) completing_le_request)

theorem doPurge_acts (c : CellNo) (p : Part) : Part.Acts (Views.and .taking (.only .chargeList)) p (p.doPurge c) := by
  unfold Part.doPurge
  extract_lets mask clamped item
  split
  · exact complete_acts_within _ _ _ _ (FitsIn.nil _) completing_le_request
  · split
    · exact complete_acts_within _ _ _ _ (FitsIn.nil _) completing_le_request
    · exact ((chargeList_acts p _).mono (Views.le_and_right _ _)).trans (park_acts_request _ _ _)

theorem queueSettings_acts (p : Part) (r : SettingsRequest) : Part.Acts (Views.and .taking (.only .settingsQueue)) p (p.queueSettings r) := by
  unfold Part.queueSettings
  refine Part.Acts.trans (.raw fun v hv => ?_) (park_acts_request _ _ _)
  cases v <;> first | rfl | exact ⟨rfl, rfl⟩ | exact ⟨rfl, rfl, rfl⟩ | exact absurd (show true = false from hv) (by decide)

theorem doLoadCalibration_acts (c : CellNo) (p : Part) : Part.Acts (Views.and .taking (.only .settingsQueue)) p (p.doLoadCalibration c) := by
  unfold Part.doLoadCalibration
  split
  · exact complete_acts_within _ _ _ _ (FitsIn.nil _) completing_le_request
  · exact queueSettings_acts _ _

theorem doSetFeed_acts (c : CellNo) (p : Part) : Part.Acts (Views.and .taking (.only .settingsQueue)) p (p.doSetFeed c) := by
  unfold Part.doSetFeed
  split
  · exact queueSettings_acts _ _
  all_goals exact complete_acts_within _ _ _ _ (FitsIn.nil _) completing_le_request

theorem doSetRefillMargin_acts (c : CellNo) (p : Part) : Part.Acts (Views.and .taking (Views.and (.slotWork everySlot) (.only .margin))) p (p.doSetRefillMargin c) := by
  unfold Part.doSetRefillMargin
  extract_lets given margin _ q
  have h : Part.Acts (Views.and .taking (Views.and (.slotWork everySlot) (.only .margin))) p q := by
    refine Part.Acts.trans (.raw fun v hv => ?_) (complete_acts_within _ _ _ _ (FitsIn.nil _) completing_le_request)
    cases v <;> first | rfl | exact ⟨rfl, rfl⟩ | exact ⟨rfl, rfl, rfl⟩ | exact absurd (show true = false from hv) (by decide)
  refine h.trans (.forSlots (fun r i => ?_) q)
  split
  · exact (testMargin_acts _ _).mono (Views.le_trans (slot_le_work i) (Views.le_trans (Views.le_and_left _ _) (Views.le_and_right _ _)))
  · exact .refl _ _

theorem historyData_fit (p : Part) (k : Option (Fin 64)) : FitsIn 56 (p.historyData k) := by
  unfold Part.historyData
  split
  · split
    · simp [FitsIn, Part.historyFields]
    · simp [FitsIn]
  · simp [FitsIn]

theorem doReadHistory_acts (c : CellNo) (p : Part) : Part.Acts .taking p (p.doReadHistory c) := by
  unfold Part.doReadHistory
  split
  · exact complete_acts_within _ _ _ _ (historyData_fit _ _) completing_le_taking
  · exact complete_acts_within _ _ _ _ (FitsIn.nil _) completing_le_taking

theorem doForgetHistory_acts (c : CellNo) (p : Part) : Part.Acts (Views.and .taking .history) p (p.doForgetHistory c) := by
  unfold Part.doForgetHistory
  split
  · exact complete_acts_within _ _ _ _ (by simp [FitsIn]) completing_le_request
  · split
    · exact complete_acts_within _ _ _ _ (FitsIn.nil _) completing_le_request
    · refine Part.Acts.trans (Part.Acts.mono ?_ (Views.le_and_right _ _)) (park_acts_request _ _ _)
      exact Part.Acts.trans (setPlace_acts p _ _ rfl) (dirtyPlace_acts _ _)

theorem levelFields_fit (l : Vector (Fin 8) 8) : FitsIn 56 (levelFields l) := fun f hf => by
  obtain ⟨i, -, rfl⟩ := List.mem_map.1 hf
  have := i.isLt
  simp only
  omega

theorem doSetNoticeLevels_acts (c : CellNo) (p : Part) : Part.Acts (Views.and .taking (.only .levels)) p (p.doSetNoticeLevels c) := by
  unfold Part.doSetNoticeLevels
  extract_lets levels clamped
  refine Part.Acts.trans (.raw fun v hv => ?_) (complete_acts_within _ _ _ _ (levelFields_fit _) completing_le_request)
  cases v <;> first | rfl | exact ⟨rfl, rfl⟩ | exact ⟨rfl, rfl, rfl⟩ | exact absurd (show true = false from hv) (by decide)

theorem doSetLedBrightness_acts (c : CellNo) (p : Part) : Part.Acts (Views.and .taking (.only .brightness)) p (p.doSetLedBrightness c) := by
  unfold Part.doSetLedBrightness
  extract_lets given setting
  refine Part.Acts.trans (.raw fun v hv => ?_) (complete_acts_within _ _ _ _ (by simp [FitsIn]) completing_le_request)
  cases v <;> first | rfl | exact ⟨rfl, rfl⟩ | exact ⟨rfl, rfl, rfl⟩ | exact absurd (show true = false from hv) (by decide)

theorem doSetCommit_acts (c : CellNo) (p : Part) : Part.Acts (Views.and .taking (Views.and .linking (.only .commitSettings))) p (p.doSetCommit c) := by
  unfold Part.doSetCommit
  extract_lets given burst quantum _ q
  split
  · exact complete_acts_within _ _ _ _ (FitsIn.nil _) completing_le_request
  · have h : Part.Acts (Views.and .taking (Views.and .linking (.only .commitSettings))) p q := by
      refine .raw fun v hv => ?_
      cases v <;> first | rfl | exact ⟨rfl, rfl⟩ | exact ⟨rfl, rfl, rfl⟩ | exact absurd (show true = false from hv) (by decide)
    exact (h.trans (complete_acts_within _ _ _ _ (FitsIn.nil _) completing_le_request)).trans ((testAll_acts _).mono (Views.le_trans (Views.le_and_left _ _) (Views.le_and_right _ _)))

theorem addHolder_acts (p : Part) (c : CellNo) (i : Slot) : Part.Acts (Views.and .taking .linking) p (p.addHolder c i) := updCommit_acts p i _ rfl
theorem testCommit_acts_now (p : Part) (i : Slot) : Part.Acts (Views.and .taking .linking) p (p.testCommit i) := (testCommit_acts p i).mono (Views.le_and_right _ _)

theorem doCommitNow_acts (c : CellNo) (p : Part) : Part.Acts (Views.and .taking .linking) p (p.doCommitNow c) := by
  unfold Part.doCommitNow
  split
  · unfold Part.commitEvery
    extract_lets causes taken q
    split
    · exact complete_acts_within _ _ _ _ (endCauseFields_fit _) completing_le_request
    · have h : Part.Acts (Views.and .taking .linking) p q := (park_acts_request _ _ _).trans (.foldl (fun q i => addHolder_acts q c i) _ _)
      exact h.trans (.foldl (fun q i => testCommit_acts_now q i) _ _)
  · split
    · unfold Part.commitOne
      split
      · exact complete_acts_within _ _ _ _ (FitsIn.nil _) completing_le_request
      · exact complete_acts_within _ _ _ _ (endCauseFields_fit _) completing_le_request
      · exact ((park_acts_request _ _ _).trans (addHolder_acts _ _ _)).trans (testCommit_acts_now _ _)
    · exact complete_acts_within _ _ _ _ (FitsIn.nil _) completing_le_request

theorem bringUpOf_le_reverify (i : Slot) : Views.le (.bringUpOf i) (Views.and .taking .bringUps) :=
  Views.le_trans (Views.bringUp_mono fun _ _ => rfl) (Views.le_and_right _ _)

theorem doReverify_acts (c : CellNo) (p : Part) : Part.Acts (Views.and .taking .bringUps) p (p.doReverify c) := by
  have hp : ∀ (p : Part) i, Part.Acts (Views.and .taking .bringUps) p (p.parkReverify c i) := fun p i =>
    (park_acts_request _ _ _).trans ((bringUpRow_acts _ i _).mono (bringUpOf_le_reverify i))
  unfold Part.doReverify
  split
  · exact complete_acts_within _ _ _ _ (FitsIn.nil _) completing_le_request
  · rename_i i _
    split
    iterate 9 exact complete_acts_within _ _ _ _ (FitsIn.nil _) completing_le_request
    · refine (hp p i).trans (Part.Acts.mono ?_ (bringUpOf_le_reverify i))
      unfold Part.beginReverify
      extract_lets nonce q
      have h1 : Part.Acts (.bringUpOf i) (p.parkReverify c i) q := ((nonceDrawn_acts _).mono (Views.only_le rfl)).trans (bringUpRow_acts _ i _)
      exact h1.trans ((reportSlot_acts_row _ _).ofRow.trans (joinBringUp_acts _ _ _).ofRow)
    · refine (hp p i).trans (Part.Acts.mono ?_ (bringUpOf_le_reverify i))
      unfold Part.repeatBringUp
      extract_lets q1 q2
      have h1 : Part.Acts (.bringUpOf i) (p.parkReverify c i) q1 := by
        unfold q1
        split
        · exact (removalHandling_acts _ _).ofWork
        · exact .refl _ _
      have h2 : Part.Acts (.bringUpOf i) q1 q2 := ((bringUpRow_acts _ i _).trans (setVolumes_acts _ i _ (by simp [Views.bringUp, Views.slotWork]))).trans
        (reportingOf ((recordVolumes_acts _ i).mono (Views.slotRecord_le_reporting i)))
      exact (h1.trans h2).trans ((reportSlot_acts_row _ _).ofRow.trans (joinBringUp_acts _ _ _).ofRow)

theorem powering_acts_request {T : Views} {p q : Part} (h : Part.Acts .powering p q) : Part.Acts (Views.and T .powering) p q := h.mono (Views.le_and_right _ _)

theorem holdWindDown_acts (p : Part) (c : CellNo) (w : Byte) : Part.Acts (Views.and .taking .powering) p (p.holdWindDown c w) := by
  unfold Part.holdWindDown
  refine Part.Acts.trans (.raw fun v hv => ?_) (park_acts_request _ _ _)
  cases v <;> first | rfl | exact ⟨rfl, rfl⟩ | exact ⟨rfl, rfl, rfl⟩ | exact absurd (show true = false from hv) (by decide)

theorem powerTo_acts (p : Part) (c : CellNo) (st : PowerState) : Part.Acts (Views.and .taking .powering) p (p.powerTo c st) := by
  unfold Part.powerTo
  extract_lets p1 _ p2
  have h1 : Part.Acts (Views.and .taking .powering) p p1 := powering_acts_request ((supersede_acts p).trans ((windDownLeaves_acts _).mono (Views.le_trans Views.flushing_le_linking Views.linking_le_powering)))
  have h2 : Part.Acts (Views.and .taking .powering) p1 p2 := (power_acts p1 _).trans (complete_acts_within _ _ _ _ (FitsIn.nil _) completing_le_request)
  exact (h1.trans h2).trans (powering_acts_request ((testAll_acts _).mono Views.linking_le_powering))

theorem doSetPower_acts (c : CellNo) (p : Part) : Part.Acts (Views.and .taking .powering) p (p.doSetPower c) := by
  unfold Part.doSetPower
  extract_lets r
  split
  · exact powerTo_acts _ _ _
  · split
    · exact powerTo_acts _ _ _
    · split
      · unfold Part.requestSleep
        split
        · exact complete_acts_within _ _ _ _ (FitsIn.nil _) completing_le_request
        · split
          · exact complete_acts_within _ _ _ _ (FitsIn.nil _) completing_le_request
          · split
            · exact (powering_acts_request (supersede_acts p)).trans (holdWindDown_acts _ _ _)
            · exact (holdWindDown_acts _ _ _).trans (powering_acts_request (beginWindDown_acts _))
      · exact complete_acts_within _ _ _ _ (FitsIn.nil _) completing_le_request

theorem doEnterService_acts (c : CellNo) (p : Part) : Part.Acts (Views.and .taking (Views.and (.only .gate) (.only .digests))) p (p.doEnterService c) := by
  unfold Part.doEnterService
  split
  · exact complete_acts_within _ _ _ _ (FitsIn.nil _) completing_le_request
  · split
    · exact complete_acts_within _ _ _ _ (FitsIn.nil _) completing_le_request
    · split
      · exact complete_acts_within _ _ _ _ (FitsIn.nil _) completing_le_request
      · unfold Part.checkToken
        extract_lets _ q
        have h : Part.Acts (Views.and .taking (Views.and (.only .gate) (.only .digests))) p q := by
          refine Part.Acts.trans (.raw fun v hv => ?_) (park_acts_request _ _ _)
          cases v <;> first | rfl | exact ⟨rfl, rfl⟩ | exact ⟨rfl, rfl, rfl⟩ | exact absurd (show true = false from hv) (by decide)
        exact h.trans ((queueDigest_acts _ _ _).mono (Views.le_trans (Views.le_and_right _ _) (Views.le_and_right _ _)))

theorem doLeaveService_acts (c : CellNo) (p : Part) : Part.Acts .taking p (p.doLeaveService c) := by
  unfold Part.doLeaveService
  refine Part.Acts.trans (.raw fun v hv => ?_) (complete_acts_within _ _ _ _ (FitsIn.nil _) completing_le_taking)
  cases v <;> first | rfl | exact ⟨rfl, rfl⟩ | exact ⟨rfl, rfl, rfl⟩ | exact absurd (show true = false from hv) (by decide)

theorem tokenChecked_acts (p : Part) (m : Bool) : Part.Acts (Views.and .completing (Views.and (.only .digests) (Views.and (.only .gate) (.only .counterWaiting)))) p (p.tokenChecked m) := by
  unfold Part.tokenChecked
  split
  · split
    · refine .raw fun v hv => ?_
      cases v <;> first | rfl | exact ⟨rfl, rfl⟩ | exact ⟨rfl, rfl, rfl⟩ | exact absurd (show true = false from hv) (by decide)
    · unfold Part.tokenRejected
      extract_lets failed _ ps1 ps2
      refine Part.Acts.trans (.raw fun v hv => ?_) (complete_acts_within _ _ _ _ (FitsIn.nil _) (Views.le_and_left _ _))
      have e : ps2.power = p.ps.power ∧ ps2.wakeRequests = p.ps.wakeRequests ∧ ps2.wakeBands = p.ps.wakeBands ∧ ps2.windDownCell = p.ps.windDownCell ∧ ps2.comparatorLow = p.ps.comparatorLow ∧ ps2.supplyLow = p.ps.supplyLow ∧ ps2.sequence = p.ps.sequence ∧ ps2.resetAsserted = p.ps.resetAsserted ∧ ps2.serviceMode = p.ps.serviceMode ∧ ps2.idleRunning = p.ps.idleRunning := by
        unfold ps2 ps1
        split <;> exact ⟨rfl, rfl, rfl, rfl, rfl, rfl, rfl, rfl, rfl, rfl⟩
      cases v <;> first | rfl | exact ⟨rfl, rfl⟩ | exact ⟨rfl, rfl, rfl⟩ | exact absurd (show true = false from hv) (by decide) | simp [View.same, e]
  · exact .refl _ _

theorem completeWindDown_acts (p : Part) (c : CellNo) : Part.Acts (Views.and .sleeping (.only .windDownCell)) p (p.completeWindDown c) := by
  unfold Part.completeWindDown
  have hs : ∀ {a b : Part}, Part.Acts .flushing a b → Part.Acts (Views.and .sleeping (.only .windDownCell)) a b := fun h =>
    h.mono (Views.le_trans (Views.le_trans Views.flushing_le_reporting (Views.reporting_le_bringUp everySlot)) (Views.le_trans Views.bringUps_le_sleeping (Views.le_and_left _ _)))
  exact (((windDownCell_acts p none).trans (hs ((complete_acts _ _ _ _ (FitsIn.nil _)).mono Views.completing_le_flushing))).trans (hs (windDownLeaves_acts _))).trans
    ((enterSleep_acts _).mono (Views.le_and_left _ _))

theorem sampleContact_acts (p : Part) (b : Slot) : Part.Acts .clearing p (p.sampleContact b) := by
  unfold Part.sampleContact
  split
  · refine Part.Acts.trans ?_ ((changeState_acts _ b _).mono fun v h => ?_)
    · exact setBay_acts p b _ (fun _ => rfl) (fun h => by cases h) (fun h => by cases h) (fun h => by cases h) (fun h => by cases h)
    cases v <;> simp_all [Views.rowReport, Views.and, Views.only, Views.reporting, Views.linking, Views.flushing, Views.completing, Views.clearing]
  · exact .refl _ _

theorem clearingPoint_keeps (p : Part) (k : SequenceKind) : Part.Keeps .clearing p (p.clearingPoint k) := by
  unfold Part.clearingPoint
  refine Part.Keeps.trans ?_ (Part.Acts.forSlots (fun q b => sampleContact_acts q b) _).toKeeps
  refine ⟨fun v hv => ?_, fun _ => Memory.Sound.empty, fun _ => ?_⟩
  · cases v <;> first | exact absurd (show true = false from hv) (by decide) | rfl | exact ⟨rfl, rfl⟩ | simp [View.same, Part.cleared, Part.bay, Bay.blank]
  · have : (p.cleared k).heldCount = Part.reset.heldCount := Part.heldCount_congr rfl
    rw [this]; decide

theorem releaseSettled_acts (p : Part) (b : Slot) : Part.Acts .loading p (p.releaseSettled b) := by
  unfold Part.releaseSettled
  split
  · refine Part.Acts.trans ?_ ((settled_acts _ b).mono fun v h => ?_)
    · exact setBay_acts p b _ (fun _ => rfl) (fun h => by cases h) (fun _ => rfl) (fun _ => rfl) (fun _ => rfl)
    cases v <;> simp_all [Views.rowReport, Views.and, Views.only, Views.reporting, Views.linking, Views.flushing, Views.completing, Views.loading]
  · exact .refl _ _

theorem loadStored_acts (p : Part) : Part.Acts .loading p p.loadStored := by
  unfold Part.loadStored
  extract_lets store q
  have h : Part.Acts .loading p q := by
    refine .raw fun v hv => ?_
    cases v <;> first | exact absurd (show true = false from hv) (by decide) | rfl | exact ⟨rfl, rfl⟩
  have hb : Views.le (.bytes 0xD00 0x200) .loading := fun v h => by cases v <;> simp_all [Views.bytes, Views.loading]
  exact h.trans ((Part.Acts.trans (.forSlots (fun r c => recordChannel_acts r c) q) (recordPartInfo_acts _)).mono hb)

theorem endSequence_acts (p : Part) : Part.Acts .loading p p.endSequence := by
  unfold Part.endSequence
  extract_lets _ p1 p2 p3
  have h1 : Part.Acts .loading p p1 := by
    refine .raw fun v hv => ?_
    cases v <;> first | exact absurd (show true = false from hv) (by decide) | rfl | exact ⟨rfl, rfl⟩
  have h2 : Part.Acts .loading p1 p2 := by
    unfold p2
    split
    · refine (reportSupplyLow_acts _).mono fun v h => ?_
      cases v <;> simp_all [Views.supplying, Views.saving, Views.loading, Views.history, Views.flushing, Views.completing]
    · exact .refl _ _
  have h3 : Part.Acts .loading p2 p3 := by
    unfold p3
    split
    · exact raise_acts _ _
    · exact .refl _ _
  exact (h1.trans (h2.trans h3)).trans (.forSlots (fun q b => releaseSettled_acts q b) p3)

theorem powerLost_keeps (p : Part) : Part.Keeps .losing p p.powerLost := by
  refine ⟨fun v hv => ?_, fun _ => Memory.Sound.empty, fun _ => ?_⟩
  · cases v <;> first | exact absurd (show true = false from hv) (by decide) | rfl | exact ⟨rfl, rfl⟩ | simp [View.same, Part.powerLost, Part.bay, Bay.blank]
  · have : p.powerLost.heldCount = Part.reset.heldCount := Part.heldCount_congr rfl
    rw [this]; decide

end Sys2Proof.Machine
end

