-- ==== Sys2Proof/Laws/Ends.lean ====
section
/-! SUPPORT. What ends every step: the part it leaves at rest, and the steps after which there is nothing to do. -/

-- Declarations are checked one after another, which keeps the number of waiting threads small.
set_option Elab.async false

namespace Sys2Proof.Machine
open Sys2Proof

/-- What the saver takes next depends on the store, the slot table and the commit engine alone. -/
theorem nextWrite_congr {p q : Part} (hhs : q.hs = p.hs) (hsm : q.sm = p.sm) (hce : q.ce = p.ce) : q.nextWrite = p.nextWrite := by
  unfold Part.nextWrite Part.writablePlace Part.nextStored Part.placeUnsettled Part.serialUnsettled Part.place Part.slot Part.commit
  rw [hhs, hsm, hce]


/-- Whether the part works depends on the power and supply block alone. -/
theorem works_congr {p q : Part} (h : q.ps = p.ps) : q.works = p.works := by
  unfold Part.works Part.asleep Part.busy Part.inFoldPhase; rw [h]

/-- After its takes an idle saver that works has nothing left to take. -/
theorem saverTakeUpTo_rests (n : Nat) (p : Part) (hn : p.hs.settingsQueue.length < n) :
    (Part.saverTakeUpTo n p).hs.saver = .idle → (Part.saverTakeUpTo n p).works = true → (Part.saverTakeUpTo n p).nextWrite = none := by
  induction n generalizing p with
  | zero => omega
  | succ n ih =>
    unfold Part.saverTakeUpTo
    split
    · rename_i hi
      split
      · rename_i h; intro _ _; exact h
      · intro h
        exfalso
        revert h
        unfold Part.takePlace Part.beginAttempt
        intro h; cases h
      · intro h; cases h
      · rename_i r hr
        extract_lets _ q
        split
        · intro h; cases h
        · refine ih _ ?_
          have : 0 < p.hs.settingsQueue.length := by
            have hs : p.nextStored = some (.settings r) := by
              unfold Part.nextWrite at hr
              dsimp only at hr
              split at hr
              · cases hw : p.writablePlace <;> simp_all
              · cases hw : p.nextStored <;> simp_all
            unfold Part.nextStored at hs
            split at hs
            · cases hs
            · cases hq : p.hs.settingsQueue <;> simp_all
          show (p.hs.settingsQueue.drop 1).length < n
          rw [List.length_drop]
          omega
    · rename_i h
      intro h1 h2
      simp_all

/-- The record writes of a step's end change the board alone. -/
theorem syncRecords_parts (b p : Part) : (Part.syncRecords b p).hs = p.hs ∧ (Part.syncRecords b p).sm = p.sm ∧ (Part.syncRecords b p).ce = p.ce ∧ (Part.syncRecords b p).ps = p.ps ∧ (Part.syncRecords b p).dg = p.dg ∧ (Part.syncRecords b p).au = p.au ∧ (Part.syncRecords b p).nu = p.nu ∧ (Part.syncRecords b p).port = p.port ∧ (Part.syncRecords b p).bays = p.bays := by
  have h : ∀ l : List Slot, ∀ q : Part, (l.foldl (Part.syncChannel b) q).hs = q.hs ∧ (l.foldl (Part.syncChannel b) q).sm = q.sm ∧ (l.foldl (Part.syncChannel b) q).ce = q.ce ∧ (l.foldl (Part.syncChannel b) q).ps = q.ps ∧ (l.foldl (Part.syncChannel b) q).dg = q.dg ∧ (l.foldl (Part.syncChannel b) q).au = q.au ∧ (l.foldl (Part.syncChannel b) q).nu = q.nu ∧ (l.foldl (Part.syncChannel b) q).port = q.port ∧ (l.foldl (Part.syncChannel b) q).bays = q.bays := by
    intro l
    induction l with
    | nil => intro q; simp
    | cons x r ih =>
      intro q
      have := ih (Part.syncChannel b q x)
      have hx : ∃ m, Part.syncChannel b q x = { q with board := m } := by
        unfold Part.syncChannel; split; exacts [⟨_, rfl⟩, ⟨_, rfl⟩]
      obtain ⟨m, hm⟩ := hx
      rw [hm] at this
      simp only [List.foldl, hm]
      exact this
  unfold Part.syncRecords Part.syncPartInfo
  split
  · split
    · exact h _ p
    · exact h _ p
  · simp

/-- After its take an idle digest engine that is awake has an empty queue. -/
theorem takeDigest_rests (p : Part) (h : p.takeDigest.dg.computing = false) (ha : p.takeDigest.asleep = false) : p.takeDigest.dg.queue = [] := by
  unfold Part.takeDigest at *
  split
  · rename_i hc; rw [if_pos hc] at h; cases h
  · rename_i hc; rw [if_neg hc] at h ha; simp_all

/-- Keeping a changed brightness writes one field. -/
theorem keepBrightness_eq (b p : Part) : ∃ l, Part.keepBrightness b p = { p with earlierBrightness := l } := by
  unfold Part.keepBrightness
  split
  · exact ⟨p.earlierBrightness, rfl⟩
  · exact ⟨_, rfl⟩

/-- A step that leaves the power state and the brightness as they were keeps no brightness. -/
theorem keepBrightness_same {b p : Part} (power : p.ps.power = b.ps.power) (brightness : p.brightness = b.brightness) :
    Part.keepBrightness b p = p := by
  rw [Part.keepBrightness, if_pos]
  simp only [Part.effectiveBrightness, power, brightness]

/-- Every step's end leaves the blocks that act of themselves with nothing to do at once. -/
theorem finish_quiet (b p : Part) : (Part.finish b p).Quiet := by
  have hwr := ((syncRecords_acts b p.takeDigest.saverTake.closeWrites).same .openWrites rfl).symm
  obtain ⟨h1, h2, h3, h4, h5, h6, h7, h8, h9⟩ := syncRecords_parts b p.takeDigest.saverTake.closeWrites
  unfold Part.finish
  generalize Part.syncRecords b p.takeDigest.saverTake.closeWrites = q at *
  obtain ⟨l, hl⟩ := keepBrightness_eq b q.choosePatterns
  rw [hl]
  have hsv := saverTake_acts p.takeDigest
  have hd : q.dg = p.takeDigest.dg := h5.trans (hsv.same .digests rfl).symm
  have hp : q.ps.power = p.takeDigest.ps.power := by rw [h4]; exact (hsv.same .power rfl).symm
  refine ⟨fun hc ha => ?_, fun hi hw => ?_, hwr, fun c => ?_, rfl⟩
  · have hc' : p.takeDigest.dg.computing = false := by rw [← hd]; exact hc
    have ha' : p.takeDigest.asleep = false := by unfold Part.asleep; rw [← hp]; exact ha
    show q.dg.queue = []
    rw [hd]
    exact takeDigest_rests p hc' ha'
  · have := saverTakeUpTo_rests _ p.takeDigest (Nat.lt_succ_self _)
    have e : ({ q.choosePatterns with earlierBrightness := l }.reviewOutput).nextWrite
        = p.takeDigest.saverTake.closeWrites.nextWrite := nextWrite_congr h1 h2 h3
    rw [e]
    refine this ?_ ?_
    · rw [← hi]; exact congrArg _ h1.symm
    · rw [← hw]; exact (works_congr (p := p.takeDigest.saverTake.closeWrites) (q := { q.choosePatterns with earlierBrightness := l }.reviewOutput) h4).symm
  · simp [Part.reviewOutput, Part.choosePatterns, Part.bay, Part.slot, Part.volumes]

/-- At the end of a step that leaves every block which acts of itself as it was, only the output is reviewed. -/
theorem finish_calm {b q : Part} (h : b.Quiet) (dg : q.dg = b.dg) (hs : q.hs = b.hs) (sm : q.sm = b.sm) (ce : q.ce = b.ce)
    (power : q.ps.power = b.ps.power) (brightness : q.brightness = b.brightness) (sequence : q.ps.sequence = b.ps.sequence)
    (channels : q.au.channels = b.au.channels) (slots : q.au.slots = b.au.slots) (margin : q.au.margin = b.au.margin)
    (last : q.au.lastSequence = b.au.lastSequence) (gaps : q.au.sequenceGaps = b.au.sequenceGaps) (dropped : q.port.droppedWrites = b.port.droppedWrites)
    (overruns : q.port.bankOverruns = b.port.bankOverruns) (bays : ∀ c, (q.bay c).selected = (b.bay c).selected)
    (writes : q.openWrites = b.openWrites) : Part.finish b q = q.reviewOutput := by
  have hd : q.takeDigest = q := by
    unfold Part.takeDigest
    rw [if_neg]
    intro k
    simp only [Bool.and_eq_true, Bool.not_eq_true'] at k
    have := h.digests (by rw [← dg]; exact k.1.1) (by rw [← k.2]; unfold Part.asleep; rw [power])
    rw [dg, this] at k
    exact absurd k.1.2 (by decide)
  have hw : q.works = b.works := by unfold Part.works Part.asleep Part.busy Part.inFoldPhase; rw [power, sequence]
  have hn : q.nextWrite = b.nextWrite := nextWrite_congr hs sm ce
  have hsv : q.saverTake = q := by
    unfold Part.saverTake Part.saverTakeUpTo
    split
    · rename_i k
      simp only [Bool.and_eq_true, decide_eq_true_eq] at k
      rw [hn, h.saver (by rw [← hs]; exact k.1) (by rw [← hw]; exact k.2)]
    · rfl
  have hr : Part.syncRecords b q = q := by
    have fields : ∀ c, b.channelFields c = q.channelFields c := fun c => by
      have e : ∀ r : Part, r.channelFields c
          = { b with au := { b.au with channels := r.au.channels, slots := r.au.slots }, sm := r.sm }.channelFields c :=
        fun _ => rfl
      rw [e q, channels, slots, sm]
    have info : b.partInfo = q.partInfo := by simp only [Part.partInfo, margin, last, gaps, hs, dropped, overruns]
    have sync : ∀ c, Part.syncChannel b q c = q := fun c => by rw [Part.syncChannel, if_pos (fields c)]
    have fold : ∀ l : List Slot, l.foldl (Part.syncChannel b) q = q := fun l => by
      induction l with
      | nil => rfl
      | cons x rest ih => rw [List.foldl_cons, sync, ih]
    unfold Part.syncRecords
    split
    · rw [Part.forSlots, fold, Part.syncPartInfo, if_pos info]
    · rfl
  have hp : q.choosePatterns = q := by
    have e : (Vector.ofFn fun c => { q.bay c with selected := selectPattern (q.slot c) (q.volumes c).low (q.volumes c).spent })
        = q.bays := by
      apply Vector.ext
      intro c hc
      simp only [Vector.getElem_ofFn]
      have := bays ⟨c, hc⟩
      rw [h.patterns ⟨c, hc⟩] at this
      have e2 : selectPattern (q.slot ⟨c, hc⟩) (q.volumes ⟨c, hc⟩).low (q.volumes ⟨c, hc⟩).spent = (q.bay ⟨c, hc⟩).selected := by
        rw [this]
        simp only [Part.slot, Part.volumes, sm, slots]
      rw [e2]
      rfl
    unfold Part.choosePatterns
    rw [e]
  have hc : q.closeWrites = q := by
    unfold Part.closeWrites
    rw [← h.writes, ← writes]
  unfold Part.finish
  rw [hd, hsv, hc, hr, hp, keepBrightness_same power brightness]

/-! ## The power and supply block -/

/-- The views of the power and supply block. -/
def powerViews : List View :=
  [.power, .wakeSet, .windDownCell, .comparator, .supplyLow, .sequence, .resetInput, .service, .gate]

/-- Work that touches no view of the power and supply block leaves it as it was. -/
theorem Part.Acts.ps_eq {t : Views} {p q : Part} (h : Part.Acts t p q)
    (k : powerViews.all (fun v => !t v) = true := by rfl) : q.ps = p.ps := by
  have f : ∀ v ∈ powerViews, View.same p q v := fun v hv => h.same v (by
    have := List.all_eq_true.1 k v hv
    simpa using this)
  simp only [powerViews, List.forall_mem_cons] at f
  obtain ⟨h1, h2, h3, h4, h5, h6, h7, h8, h9, -⟩ := f
  simp only [View.same] at *
  cases hp : p.ps; cases hq : q.ps
  simp_all

/-- The end of a step leaves the power and supply block as it was. -/
theorem finish_ps (before p : Part) : (Part.finish before p).ps = p.ps := (finish_acts before p).ps_eq

/-! ## The end of a step while fold at write is disabled -/

/-- What the end of a step touches while fold at write is disabled (R55). -/
def Views.plainEnding : Views
  | .byte a => decide (a < 0x600) || (decide (0xD00 ≤ a) && decide (a < 0xF00))
  | .saveQueue | .saver | .settingsQueue | .counterWaiting | .openWrites | .digests | .pattern _ | .dimming | .output => true
  | v => Views.completing v

theorem completing_le_plain : Views.le .completing .plainEnding := fun v h => by
  cases v <;> simp_all [Views.plainEnding, Views.completing]

theorem takePlace_acts_plain (p : Part) (k : Fin 64) (hf : p.hs.foldAtWrite = false) :
    Part.Acts .plainEnding p (p.takePlace k) ∧ (p.takePlace k).hs.foldAtWrite = false := by
  have e : p.takePlace k = { p with
      hs := { p.hs with saveQueue := p.hs.saveQueue.erase k,
                        saver := .place k (p.place k).entry p.hs.sightings false false },
      rq := { p.rq with parked := p.rq.parked.map (Parked.cover k) } } := by
    unfold Part.takePlace Part.beginAttempt
    simp only [hf, Bool.false_and]
    split <;> rfl
  rw [e]
  refine ⟨.raw fun v hv => ?_, hf⟩
  cases v <;> first | rfl | exact ⟨rfl, rfl⟩ | exact ⟨rfl, rfl, rfl⟩ | exact absurd (show true = false from hv) (by decide)

theorem saverTakeUpTo_acts_plain (n : Nat) (p : Part) (hf : p.hs.foldAtWrite = false) :
    Part.Acts .plainEnding p (Part.saverTakeUpTo n p) := by
  induction n generalizing p with
  | zero => exact .refl _ _
  | succ n ih =>
    unfold Part.saverTakeUpTo
    split
    · split
      · exact .refl _ _
      · exact (takePlace_acts_plain p _ hf).1
      · refine .raw fun v hv => ?_
        cases v <;> first | rfl | exact ⟨rfl, rfl⟩ | exact ⟨rfl, rfl, rfl⟩ | exact absurd (show true = false from hv) (by decide)
      · rename_i r _
        have h1 : Part.Acts .plainEnding p { p with hs := { p.hs with settingsQueue := p.hs.settingsQueue.drop 1 } } := by
          refine .raw fun v hv => ?_
          cases v <;> first | rfl | exact ⟨rfl, rfl⟩ | exact ⟨rfl, rfl, rfl⟩ | exact absurd (show true = false from hv) (by decide)
        extract_lets _ q
        refine Part.Acts.trans (q := q) h1 ?_
        have hq : q.hs.foldAtWrite = false := hf
        clear_value q
        split
        · refine .raw fun v hv => ?_
          cases v <;> first | rfl | exact ⟨rfl, rfl⟩ | exact ⟨rfl, rfl, rfl⟩ | exact absurd (show true = false from hv) (by decide)
        · exact ((complete_acts _ _ _ _ (FitsIn.nil _)).mono completing_le_plain).trans (ih _ hq)
    · exact .refl _ _

/-- The end of a step while fold at write is disabled leaves every history entry, every slot's commit state and every
slot record as it was. -/
theorem finish_acts_plain (before p : Part) (hf : p.hs.foldAtWrite = false) :
    Part.Acts .plainEnding p (Part.finish before p) := by
  have h1 : Part.Acts .plainEnding p p.takeDigest := (takeDigest_acts p).mono (Views.only_le rfl)
  have hf' : p.takeDigest.hs.foldAtWrite = false := by
    rw [← hf]; exact (h1.same .foldAtWrite rfl).symm
  have h2 : Part.Acts .plainEnding p.takeDigest p.takeDigest.saverTake := saverTakeUpTo_acts_plain _ _ hf'
  have h3 : Part.Acts .plainEnding p.takeDigest.saverTake (Part.syncRecords before p.takeDigest.saverTake.closeWrites) :=
    (openWrites_acts _ []).trans
      ((syncRecords_acts before _).mono fun v h => by cases v <;> simp_all [Views.bytes, Views.plainEnding])
  unfold Part.finish
  refine (h1.trans (h2.trans h3)).trans ?_
  generalize Part.syncRecords before p.takeDigest.saverTake.closeWrites = q
  refine Part.Acts.trans (q := Part.keepBrightness before q.choosePatterns) (Part.Acts.trans (q := q.choosePatterns) ?_ ?_)
    (.raw fun v hv => ?_)
  · exact bays_acts q _ (fun _ _ => rfl) (fun _ _ => ⟨rfl, rfl, rfl⟩) (fun _ _ => rfl) (fun _ h => by cases h)
      (fun _ _ => rfl)
  · exact (keepBrightness_acts before _).mono (Views.only_le rfl)
  · cases v <;> first | rfl | exact ⟨rfl, rfl⟩ | exact ⟨rfl, rfl, rfl⟩ | exact absurd (show true = false from hv) (by decide)

/-! ## The clearing point (R4, R175) -/

/-- R22: while a sequence is under way no idle engine takes from the list. -/
theorem takeFromList_busy {p : Part} (h : p.busy = true) : p.takeFromList = p := by
  unfold Part.takeFromList
  cases p.lp.waitList.length with
  | zero => rfl
  | succ n => simp [Part.takeUpTo, Part.engineFree, h]

/-- R22, R136: within a sequence the report of a slot without anything to commit leaves the part as it was. -/
theorem reportToCommit_busy {p : Part} {i : Slot} (busy : p.busy = true) (commit : p.commit i = CommitRow.blank)
    (found : (p.slot i).state ≠ .linkLost) : p.reportToCommit i = p := by
  have flush : p.examineFlush i = p := by
    unfold Part.examineFlush Part.endFlush
    simp [commit, CommitRow.flushing, CommitRow.blank]
  have tested : p.testCommit i = p := by simp [Part.testCommit, Part.testPlace, busy, takeFromList_busy busy]
  have none : (p.commit i).linkLost = false := by rw [commit]; rfl
  simp [Part.reportToCommit, found, none, flush, tested]

/-- R147: the slot manager's first asking for a slot's record in a step is a write of it. -/
theorem recordIdentity_first {p : Part} {i : Slot} (first : ⟨i, .slotManager⟩ ∉ p.openWrites) :
    p.recordIdentity i =
      { p.writeRecord p.port.bigEndian (slotBase i) 64 (p.slotIdentityFields i ++ slotZeroFields) with
        openWrites := ⟨i, .slotManager⟩ :: p.openWrites } := by
  rw [Part.recordIdentity, Part.writeSlotRecord, if_neg (by simpa using first)]

/-- R4, R24: all that the sampling of a closed contact does to a cleared part: the bay and the slot are SETTLING, the slot's
record is written and SLOT is pending. -/
theorem sampleContact_closed {p : Part} {i : Slot} (closed : (p.bay i).contactClosed = true) (busy : p.busy = true)
    (commit : p.commit i = CommitRow.blank) (first : ⟨i, .slotManager⟩ ∉ p.openWrites) :
    p.sampleContact i =
      let q := (p.setBay i { p.bay i with presence := .settling, timer := .settle }).setSlot i { p.slot i with state := .settling }
      { q.writeRecord p.port.bigEndian (slotBase i) 64 (q.slotIdentityFields i ++ slotZeroFields) with
        openWrites := ⟨i, .slotManager⟩ :: p.openWrites, nu := { p.nu with pending := p.nu.pending ||| 2#8 } } := by
  rw [Part.sampleContact, if_pos closed, Part.changeState, Part.reportSlot, recordIdentity_first, reportToCommit_busy]
  · rfl
  · exact busy
  · exact commit
  · simp [Part.updSlot, Part.setSlot, Part.raise, Part.writeRecord, Part.slot]
  · exact first

/-- An open contact is sampled without effect (R4). -/
theorem sampleContact_open {p : Part} {i : Slot} (isOpen : (p.bay i).contactClosed = false) : p.sampleContact i = p := by
  simp [Part.sampleContact, isOpen]

/-- R36, R61, R175: the end of a step that leaves a load under way and nothing with the digest engine takes no work and
writes no channel record. -/
theorem finish_loading {before p : Part} {kind : SequenceKind} (sequence : p.ps.sequence = some ⟨kind, .load⟩)
    (digests : p.dg = ⟨[], false, []⟩) :
    Part.finish before p = (Part.keepBrightness before p.closeWrites.choosePatterns).reviewOutput := by
  have works : p.works = false := by simp [Part.works, Part.busy, Part.inFoldPhase, sequence]
  have kept : p.closeWrites.recordsKept = false := by
    show (!p.busy || p.inFoldPhase) = false
    simp [Part.busy, Part.inFoldPhase, sequence]
  have take : p.takeDigest = p := by simp [Part.takeDigest, digests]
  have save : p.saverTake = p := by simp [Part.saverTake, Part.saverTakeUpTo, works]
  rw [Part.finish, take, save, Part.syncRecords, kept]
  rfl

/-- R173, R175: the clearing point comes for a sequence that waits for it with the saver idle and, in a reset-line reset, the
input released. -/
theorem execClearingPoint_comes {s : State} {kind : SequenceKind} (waits : s.part.ps.sequence = some ⟨kind, .awaitClear⟩)
    (idle : s.part.hs.saver = .idle) (released : kind = .resetLine → s.part.ps.resetAsserted = false) :
    execClearingPoint s = s.after (s.part.clearingPoint kind) := by
  have may : s.part.mayClear = true := by
    unfold Part.mayClear
    rw [waits]
    cases kind
    · simp [idle]
    · simp [idle, released rfl]
    · simp [idle]
  rw [execClearingPoint, may, waits]

end Sys2Proof.Machine
end

