-- ==== Sys2Proof/Laws/Records.lean ====
section
/-! SUPPORT. What the records on the board show after a write: a field that is written reads as written, and a field that
lies apart from everything written reads as before (R146, R147, R176, R177). -/

set_option Elab.async false

namespace Sys2Proof.Machine
open Sys2Proof

/-! ## Fields read back -/

/-- Two fields do not overlap, or are one field with one value. -/
def Field.Apart (f g : Field) : Prop := f.offset + f.width ≤ g.offset ∨ g.offset + g.width ≤ f.offset ∨ f = g

/-- A field that lies apart from every field written reads as before. -/
theorem Memory.readField_writeFields_outside (o order : Bool) (base a w : Nat) (l : List Field) (m : List Host.Cell)
    (h : ∀ f ∈ l, a + w ≤ base + f.offset ∨ base + f.offset + f.width ≤ a) :
    Memory.readField order (Memory.writeFields o base m l) a w = Memory.readField order m a w := by
  unfold Memory.readField
  rw [Memory.readBytes_congr _ m]
  intro b h1 h2
  exact Memory.read_writeFields_outside _ _ _ _ _ fun f hf => by have := h f hf; omega

/-- Every field written reads as its value, less what does not fit its width. -/
theorem Memory.readField_writeFields (o : Bool) (base : Nat) {l : List Field} {m : List Host.Cell} (hm : Memory.wf m = true)
    (apart : l.Pairwise Field.Apart) {f : Field} (hf : f ∈ l) :
    Memory.readField o (Memory.writeFields o base m l) (base + f.offset) f.width = f.value % 256 ^ f.width := by
  induction l generalizing m with
  | nil => exact absurd hf List.not_mem_nil
  | cons g rest ih =>
    obtain ⟨hg, hr⟩ := List.pairwise_cons.1 apart
    by_cases again : f ∈ rest
    · exact ih (Memory.wf_writeBytes _ _ hm) hr again
    · obtain rfl : f = g := (List.mem_cons.1 hf).resolve_right again
      rw [Memory.writeFields, Memory.readField_writeFields_outside]
      · have back := Memory.readBytes_writeBytes (fieldBytes o f.width f.value) hm (base + f.offset)
        rw [fieldBytes_length] at back
        rw [Memory.readField, back, fieldNumber_fieldBytes]
      · intro g hmem
        rcases hg g hmem with h | h | h
        · omega
        · omega
        · exact absurd (h ▸ hmem) again

/-! ## Engine reads of the board -/

/-- R176: of a bank's flags byte an engine read shows PAGE_END alone. -/
theorem shownByte_bankFlags (p : Part) (b : BankNo) :
    p.shownByte (bankBase b + 1) = p.readByte (bankBase b + 1) &&& bankFlagBits := by
  have := b.isLt
  rw [Part.shownByte, shownBits, if_pos]
  simp only [bankBase]
  omega

/-- R137: every other byte of the board reads as it stands. -/
theorem shownByte_of_ne (p : Part) (a : Nat) (h : ∀ b, a ≠ bankBase b + 1) : p.shownByte a = p.readByte a := by
  rw [Part.shownByte, shownBits, if_neg]
  · exact BitVec.and_allOnes
  · intro ⟨h1, h2, h3⟩
    refine h ⟨(a - 0x600) / 256, by omega⟩ ?_
    simp only [bankBase]
    omega

/-- R137, R139, R176: a word of the board is read byte by byte while BUSY is not shown. -/
theorem readWord_board (p : Part) (w : BitVec 11) (free : p.busy = false) (h : 2 * w.toNat < 0xF00) :
    p.readWord w = (p.shownByte (2 * w.toNat), p.shownByte (2 * w.toNat + 1)) := by
  have h1 : ¬ 0xFF0 ≤ 2 * w.toNat := by omega
  have h2 : ¬ 0xF00 ≤ 2 * w.toNat := by omega
  simp [Part.readWord, h1, h2, free]

/-! ## Whole records -/

/-- Every field of a record (12.3, 12.4). -/
def Part.recordFields (p : Part) : RecordId → List Field
  | .slot i => p.slotFields i ++ slotZeroFields
  | .channel c => p.channelFields c
  | .partInfo => p.partInfoFields

theorem recordFields_fit (p : Part) (r : RecordId) : FitsRecord (r.size - 2) (p.recordFields r) := by
  cases r with
  | slot i => exact (slotFields_fit p i).append slotZeroFields_fit
  | channel c => exact channelFields_fit p c
  | partInfo => exact partInfoFields_fit p

theorem recordFields_apart (p : Part) (r : RecordId) : (p.recordFields r).Pairwise Field.Apart := by
  cases r with
  | slot i =>
    simp only [Part.recordFields, Part.slotFields, Part.slotIdentityFields, Part.slotVolumeFields, Part.slotCommitFields,
      slotZeroFields]
    split <;> simp [Field.Apart]
  | channel c => simp [Part.recordFields, Part.channelFields, Field.Apart]
  | partInfo => simp [Part.recordFields, Part.partInfoFields, Field.Apart]

/-- The record shows what it stands for (R24, R102, R120, R147). -/
def Part.ShowsRecord (p : Part) (r : RecordId) : Prop := p.Shows r.base (p.recordFields r)

/-- R146, R147: a write of a record with every field makes that record show what it stands for. -/
theorem writeRecord_shows (p : Part) (old : Bool) (r : RecordId) (hm : Memory.wf p.board = true) :
    (p.writeRecord old r.base r.size (p.recordFields r)).ShowsRecord r := by
  intro f hf
  have fields : (p.writeRecord old r.base r.size (p.recordFields r)).recordFields r = p.recordFields r := by cases r <;> rfl
  rw [fields] at hf
  have fit := recordFields_fit p r
  have size := r.size_ge
  refine Memory.readField_writeFields _ _ hm ?_ (List.mem_append_left _ (List.mem_cons_of_mem _ hf))
  refine List.pairwise_append.2 ⟨List.pairwise_cons.2 ⟨fun g hg => .inl ?_, recordFields_apart p r⟩, List.pairwise_singleton _ _, ?_⟩
  · simpa using (fit g hg).1
  · intro g hg k hk
    simp only [List.mem_singleton] at hk
    subst hk
    rcases List.mem_cons.1 hg with rfl | hg
    · exact .inl (by simp only; omega)
    · exact .inl (by have := (fit g hg).2; simpa using this)

/-- A write of one record leaves what another shows. -/
theorem writeRecord_shows_other (p : Part) (old : Bool) {r s : RecordId} (h : s ≠ r) (hs : p.ShowsRecord s) :
    (p.writeRecord old r.base r.size (p.recordFields r)).ShowsRecord s := by
  intro f hf
  have fields : (p.writeRecord old r.base r.size (p.recordFields r)).recordFields s = p.recordFields s := by cases s <;> rfl
  rw [fields] at hf
  rw [← hs f hf]
  have fs := recordFields_fit p s f hf
  have sr := s.size_ge
  have apart := RecordId.apart h
  unfold Part.readField Memory.readField
  congr 1
  refine Memory.readBytes_congr _ _ _ _ fun b h1 h2 => ?_
  exact Memory.read_writeRecord_outside _ _ _ _ _ _ _ (by have := r.size_ge; omega)
    ((recordFields_fit p r).fitsIn (by omega)) (by omega)

/-- Writes of records with every field, one after another: each record written shows what it stands for, and the others
show what they did. -/
theorem writeRecords_show (old : Bool) (rs : List RecordId) {p : Part} (hm : Memory.wf p.board = true) (r : RecordId)
    (h : r ∈ rs ∨ p.ShowsRecord r) :
    (rs.foldl (fun q r => q.writeRecord old r.base r.size (q.recordFields r)) p).ShowsRecord r := by
  induction rs generalizing p with
  | nil => exact h.resolve_left List.not_mem_nil
  | cons s rest ih =>
    refine ih (Memory.wf_writeRecord _ _ _ _ _ hm) ?_
    by_cases e : r = s
    · subst e
      exact .inr (writeRecord_shows p old r hm)
    · exact h.imp (fun m => (List.mem_cons.1 m).resolve_left e) (writeRecord_shows_other p old e)

/-- R149: after a rewrite of the records every one of them shows what it stands for, in the order in force. -/
theorem rewriteRecords_stand (p : Part) (old : Bool) (hm : Memory.wf p.board = true) : (p.rewriteRecords old).RecordsStand := by
  have one : p.rewriteRecords old = (allSlots.map .slot ++ allSlots.map .channel ++ [.partInfo] : List RecordId).foldl
      (fun q r => q.writeRecord old r.base r.size (q.recordFields r)) p := by
    rw [List.foldl_append, List.foldl_append, List.foldl_map, List.foldl_map]
    rfl
  have all : ∀ r, (p.rewriteRecords old).ShowsRecord r := fun r => by
    rw [one]
    refine writeRecords_show old _ hm r (.inl ?_)
    cases r with
    | slot i => revert i; decide
    | channel c => revert c; decide
    | partInfo => decide
  exact ⟨fun _ i => all (.slot i), fun _ c => all (.channel c), fun _ => all .partInfo⟩

end Sys2Proof.Machine
end

