-- ==== Sys2Proof/Tests/Slice0.lean ====
section
/-! SUPPORT. Tests: what `wellFormed` refuses, numbers that the manual works out, single steps on small states, and for
every statement with hypotheses a state and operands that meet them. -/

namespace Sys2Proof.Tests
open Sys2Proof Sys2Proof.Machine

set_option maxRecDepth 20000
set_option Elab.async false

/-! ## What is not well formed -/

theorem test_identify_payload_refused : (Instr.identify 0 [1, 2, 3] 0 false).wellFormed = false := by decide
theorem test_challenge_payload_refused : (Instr.challenge 0 [1, 2, 3] 0 false).wellFormed = false := by decide
theorem test_readTally_payload_refused : (Instr.readTally 0 [1] 0 false).wellFormed = false := by decide
theorem test_advanceTally_payload_refused : (Instr.advanceTally 0 [1, 2] 0 false).wellFormed = false := by decide
theorem test_register_address_refused : (Instr.boardWrite 0x7F8 0 0).wellFormed = false := by decide
theorem test_last_undecoded_word_accepted : (Instr.boardWrite 0x7F7 0 0).wellFormed = true := by decide
theorem test_decode_spells_nothing : decodeTableWord 16 0x1234 = none := rfl

/-! ## Small states -/

/-- A part that runs, awake and with the supply good, with every slot EMPTY. -/
def running : Part :=
  { Part.reset with ps := { Part.reset.ps with sequence := none, comparatorLow := false, supplyLow := false } }

/-- A part asleep with both kinds in its wake set. -/
def sleeping : Part :=
  { running with ps := { running.ps with power := .sleep, wakeRequests := true, wakeBands := true } }

/-- A part in service mode. -/
def inService : Part := { running with ps := { running.ps with serviceMode := true, idleRunning := true } }

/-- A part in a reset sequence. -/
def resetting (kind : SequenceKind) (phase : SequencePhase) : Part :=
  { running with ps := { running.ps with sequence := some ⟨kind, phase⟩ } }

/-- A state with no command waiting. -/
def alone (p : Part) : State := ⟨[], p⟩

/-- The part after a command. -/
def after (p : Part) (c : Instr) : Part :=
  match exec c (alone p) with
  | .next t => t.part
  | .fault _ | .refused _ => p

/-- The part with bytes on its board, in rising order of address. -/
def withBoard (p : Part) (cells : List Host.Cell) : Part := { p with board := cells }

/-- The part with `cell` POSTED with a kind, a target, and argument bytes, alone on the posted list. -/
def offering (p : Part) (cell : CellNo) (kind : Kind) (target : Byte) (arguments : List Byte) : Part :=
  let p := ((p.writeByte (cellBase cell) 0x5A).writeByte (cellBase cell + 1) kind.code).writeByte (cellBase cell + 6) target
  { p with board := Memory.writeBytes p.board (cellBase cell + 8) arguments, rq := { p.rq with posted := [cell] } }

/-- A 440 mL cartridge (4.5). -/
def yellow : Identity := ⟨0x00A17C3309501E04, 0x21, 3, 0x4137, 1500⟩

/-- The row of a slot in service with a verdict. -/
def inServiceRow (v : Verdict) : SlotRow :=
  { SlotRow.blank with state := .inService, verdict := some v, identity := some yellow, key := some 7, nonce := some 9,
                       historyLink := true }

/-- The entry at place 12 as the removal of 4.5 left it. -/
def yellowEntry : Entry :=
  ⟨0x00A17C3309501E04, 0x21, 3, 1500, 289837000, 163000, 1, 0, .new, false, false, 4, 2318⟩

/-- The part with an entry at place 12. -/
def remembering (p : Part) : Part := p.setPlace 12 ⟨some yellowEntry, false⟩

/-! ## Numbers that the manual works out -/

/-- 5.5: the calibration of channel 3. -/
def worked : Calibration := ⟨40, 96, 192, #v[1024, 1024, 1024, 1060, 1060, 1060, 1060, 1120]⟩

/-- 5.5: channel 3's block of band 0x2E41. -/
def firstBlock : ChannelBlock := ⟨37, 1200000, 800000, 250000, 5000⟩

/-- 5.5: channel 3's block of band 0x2E42. -/
def secondBlock : ChannelBlock := ⟨92, 0, 0, 10500, 0⟩

theorem test_factor : temperatureFactor worked.keys 37 = 1049 ∧ temperatureFactor worked.keys 92 = 1120 := by decide
theorem test_raw_sum : rawSum worked firstBlock = 173760000 ∧ rawSum worked secondBlock = 2016000 := by decide
theorem test_first_band : bandVolume worked firstBlock 9000000 = 11125 ∧ bandResidue worked firstBlock 9000000 = 11240000 ∧
    bandMaintenance worked firstBlock = 61 := by decide +kernel
theorem test_second_band : bandVolume worked secondBlock 11240000 = 138 ∧ bandResidue worked secondBlock 11240000 = 8168000 ∧
    bandMaintenance worked secondBlock = 0 := by decide +kernel

/-- 1.2: the CRC of a frame body of 0x01 0x00, and of one with its CRC. -/
theorem test_crc : crc8 [0x01, 0x00] = 0x15 ∧ crc8 [0x01, 0x00, 0x15] = 0 := by decide

/-- 4.5: the cartridge returns with tally 1,501, 1,500, 1,499 or 1,503. -/
theorem test_return_1501 : decideKnown { yellow with tally := 1501 } yellowEntry
    = ⟨⟨.resumed, 289837000, 0, false, false, 63000, true⟩, { yellowEntry with tally := 1501, carried := 63000, inDoubt := 0 }⟩ := by
  decide +kernel
theorem test_return_1500 : decideKnown { yellow with tally := 1500 } yellowEntry
    = ⟨⟨.resumed, 289837000, 0, false, false, 163000, true⟩, { yellowEntry with inDoubt := 0 }⟩ := by decide +kernel
theorem test_return_1499 : (decideKnown { yellow with tally := 1499 } yellowEntry).resolution.verdict = .regressed ∧
    (decideKnown { yellow with tally := 1503 } yellowEntry).resolution.verdict = .regressed ∧
    (decideKnown { yellow with tally := 1503 } yellowEntry).resolution.uncommitted = 163000 := by decide +kernel
theorem test_return_without_doubt : (decideKnown { yellow with tally := 1503 } { yellowEntry with inDoubt := 0 }).resolution.verdict
      = .used ∧
    (decideKnown { yellow with tally := 1503 } { yellowEntry with inDoubt := 0 }).resolution.remaining = 289700000 := by
  decide +kernel
theorem test_margin_volume : marginVolume 50 3 = 22000000 ∧ marginVolume 50 1 = 6500000 := by decide

/-- 6.3: channel 2 is fed by slots 2 and 10. -/
def tandem : Part :=
  let p := running.setChannel 2 { ChannelRow.blank 2 with feed := ⟨0x35, some 2, some 10⟩, active := some 2 }
  let p := p.setChannel 10 { ChannelRow.blank 10 with feed := ⟨0, none, none⟩ }
  let p := (p.setSlot 2 (inServiceRow .used)).setSlot 10 (inServiceRow .new)
  let p := p.setVolumes 2 ⟨3000000, 0, 0, ⟨13000000, 2600000⟩, none, true, false, false⟩
  let p := p.setVolumes 10 ⟨220000000, 0, 0, ⟨22000000, 4400000⟩, none, false, false, false⟩
  p.setCommit 2 { CommitRow.blank with uncommitted := 75000 }

theorem test_handover : ((tandem.charge 2 520000 3000).volumes 2) = ⟨2600000, 0, 3000, ⟨13000000, 2600000⟩, none, true, true, false⟩ ∧
    ((tandem.charge 2 520000 3000).volumes 10) = ⟨219880000, 0, 0, ⟨22000000, 4400000⟩, none, false, false, false⟩ := by
  decide +kernel
theorem test_handover_commits : ((tandem.charge 2 520000 3000).commit 2).uncommitted = 475000 ∧
    ((tandem.charge 2 520000 3000).commit 10).uncommitted = 120000 ∧
    ((tandem.charge 2 520000 3000).channel 2).active = some 10 ∧ (tandem.charge 2 520000 3000).feedState 2 = .secondary ∧
    (tandem.charge 2 520000 3000).noticePending .level = true := by decide +kernel

/-- 7.8: slot 9 at the start of its second hold, T_h being 4,355. -/
def doubting : Part :=
  let p := running.setPlace 5 ⟨some { yellowEntry with tally := 4355, inDoubt := 255, carried := 0 }, false⟩
  let p := (p.setSlot 9 (inServiceRow .used)).setLink 9 (.held ⟨true, .readTally, .receiving, 0, none⟩)
  let p := { p with ce := { p.ce with burst := true } }
  p.setCommit 9 { CommitRow.blank with uncommitted := 35980000, inDoubt := 255, count := 19 }

theorem test_read_applied : (doubting.openingRead 9 4610).committedTally 9 = 4610 ∧
    ((doubting.openingRead 9 4610).commit 9).uncommitted = 10480000 ∧
    (doubting.openingRead 9 4610).link 9 = .held ⟨true, .advance 104, .ready, 0, none⟩ := by decide +kernel
theorem test_read_not_applied : (doubting.openingRead 9 4355).committedTally 9 = 4355 ∧
    (doubting.openingRead 9 4355).link 9 = .held ⟨true, .advance 255, .ready, 0, none⟩ := by decide +kernel
theorem test_read_disagrees : ((doubting.openingRead 9 4400).slot 9).verdict = some .regressed ∧
    (doubting.openingRead 9 4400).committedTally 9 = 4355 ∧ (doubting.openingRead 9 4400).link 9 = .none := by
  decide +kernel

/-! ## Single steps -/

/-- 8.6: POSTED with READ_HISTORY in cell 4. -/
theorem test_arrival : (after running (.cellArrival 4 0x06)).rq.posted = [4] ∧
    (after running (.cellArrival 4 0x06)).readWord 0x80 = (0x5A, 0x06) := by decide +kernel
/-- 8.6: DONE written into a cell is dropped, counted, and raises PORT. -/
theorem test_done_code_dropped : (after running (.boardWrite 0x80 0x3C 0x06)).port.droppedWrites = 1 ∧
    (after running (.boardWrite 0x80 0x3C 0x06)).noticePending .port = true := by decide +kernel
/-- 10.1: the third failed attempt starts the lockout and the attempts return to 0. -/
theorem test_third_failure : ({ running with ps := { running.ps with failedAttempts := 2 } }.tokenRejected 3).ps.failedAttempts = 0 ∧
    ({ running with ps := { running.ps with failedAttempts := 2 } }.tokenRejected 3).ps.lockoutRunning = true := by decide +kernel
/-- 3.7: the saver takes the head of the queue. -/
theorem test_saver_takes : ({ running with hs := { running.hs with saveQueue := [7, 19, 3] } }.saverTake).hs.saveQueue = [19, 3] ∧
    ({ running with hs := { running.hs with saveQueue := [7, 19, 3] } }.saverTake).hs.saver = .place 7 none 0 false false := by
  decide +kernel
/-- 9.3: with the mask level 3, LEVEL at level 4 drives the output low, and DONE at level 3 does not. -/
theorem test_output : { running with port := { running.port with maskLevel := 3 }, nu := { running.nu with pending := 4 } }.interruptActive
      = true ∧
    { running with port := { running.port with maskLevel := 3 }, nu := { running.nu with pending := 1 } }.interruptActive = false := by
  decide +kernel
/-- 9.3: at brightness 200 a bay shows 50 in DOZE. -/
theorem test_doze_brightness :
    { running with brightness := 200, ps := { running.ps with power := .doze } }.effectiveBrightness = 50 := by decide
/-- R149: the byte order changes when its four bits agree. -/
theorem test_byte_order : (after { running with port := { running.port with heldLower := some 0x8080 } } (.controlByteOrder 0x8080)).port.bigEndian
    = true := by decide +kernel
theorem test_byte_order_disagrees : (after { running with port := { running.port with heldLower := some 0x0080 } } (.controlByteOrder 0x8080)).port.bigEndian
    = false := by decide +kernel
/-- 12.6: ID and STATUS of a part that runs; 12.3: a slot record shows the slot state, its counts equal. -/
theorem test_id : running.readRegister .id = 0x3A120003 ∧ running.readRegister .status = 0 := by decide
/-- 12.6: ID is 0x3A120003, its lower half at 0xFF0 and its upper half at 0xFF2; STATUS at power-on is 0x00000011. -/
theorem test_register_halves : running.halfAt 0xFF0 = 0x0003 ∧ running.halfAt 0xFF2 = 0x3A12 ∧
    Part.reset.readWord 0x7FE = (0x11, 0) ∧ Part.reset.readWord 0x7F8 = (0, 0) := by decide
/-- R20: with the supply low no operation starts. -/
theorem test_no_start_at_low_supply :
    ({ running with ps := { running.ps with supplyLow := true } }.setBay 5 { Bay.blank true with presence := .present }).mayStart 5
      ⟨false, .identify, .ready, 0, none⟩ = false := by decide
/-- R156: a brightness of 100 shows from the next PWM period on, and the one under way keeps 255. -/
theorem test_brightness_waits : ((after (offering running 0 .setLedBrightness 0 [100, 0]) .setLedBrightness).shownBrightness 1,
    (after (offering running 0 .setLedBrightness 0 [100, 0]) .setLedBrightness).shownBrightness 0) = (255, 100) := by decide +kernel
theorem test_settling_record : (after running (.contactCloses 11)).readWord (BitVec.ofNat 11 (0xCC0 / 2)) = (1, 0) ∧
    (after running (.contactCloses 11)).readByte 0xCC2 = 1 ∧ (after running (.contactCloses 11)).readByte 0xCFE = 1 := by
  decide +kernel
/-- R172: power-on begins at the first GOOD. -/
theorem test_power_on : (after Part.reset .powerOn).ps.sequence = some ⟨.powerOn, .awaitClear⟩ := by decide +kernel
/-- R4: a contact found closed at the clearing point. -/
theorem test_clearing : ((after ((resetting .powerOn .awaitClear).setBay 5 (Bay.blank true)) .clearingPoint).slot 5).state = .settling := by
  decide +kernel

/-- R79, R176: the flags byte of a bank stands on the board as written, and an engine read shows PAGE_END of it alone. -/
theorem test_bank_flags : (after running (.bankArrival 3 0xFF)).readWord (BitVec.ofNat 11 (0x900 / 2)) = (0x5A, 1) ∧
    (after running (.bankArrival 3 0xFF)).readByte 0x901 = 0xFF ∧ (after running (.bankReopen 3 0xFE)).readByte 0x901 = 0xFE ∧
    (after running (.bankReopen 3 0xFE)).readWord (BitVec.ofNat 11 (0x900 / 2)) = (0, 0) := by decide +kernel

/-! ## A state and operands for every hypothesis -/

/-- The conditions of `Part.Quiet`, computed. -/
def quietNow (p : Part) : Bool :=
  (p.dg.computing || p.asleep || p.dg.queue.isEmpty) && (p.hs.saver != .idle || !p.works || p.nextWrite.isNone)
    && (allSlots.all fun b => (p.bay b).selected == selectPattern (p.slot b) (p.volumes b).low (p.volumes b).spent)
    && p.openWrites.isEmpty && p.nu.outputHigh == (p.interruptActive == p.port.activeHigh)

theorem mem_allSlots (i : Slot) : i ∈ allSlots := by revert i; decide

theorem quiet_of {p : Part} (h : quietNow p = true) : p.Quiet := by
  simp only [quietNow, Bool.and_eq_true, Bool.or_eq_true, List.all_eq_true, beq_iff_eq, bne_iff_ne, Bool.not_eq_true',
    List.isEmpty_iff, Option.isNone_iff_eq_none] at h
  obtain ⟨⟨⟨⟨h1, h2⟩, h3⟩, hw⟩, h4⟩ := h
  exact ⟨fun a b => by simp_all, fun a b => by simp_all, hw, fun b => h3 b (mem_allSlots b), h4⟩

/-- No sequence is in progress and the part is awake, computed. -/
theorem normal_of {p : Part} (h : (p.busy, p.asleep) = (false, false)) : p.Normal := ⟨congrArg Prod.fst h, congrArg Prod.snd h⟩

/-- The part with bay 5 seated. -/
def seated (p : Part) : Part := p.setBay 5 { Bay.blank true with presence := .present }

/-- The part with bay 5 leaving. -/
def leaving (p : Part) : Part := p.setBay 5 { Bay.blank false with presence := .leaving, timer := .removal }

/-- The part with slot 5 holding an engine for an operation that has come as far as a phase. -/
def holding (p : Part) (commit : Bool) (op : LinkOp) (phase : LinkPhase) : Part :=
  p.setLink 5 (.held ⟨commit, op, phase, 0, none⟩)

/-- The part with slot 5 in a state. -/
def inState (p : Part) (s : SlotState) : Part := p.setSlot 5 { SlotRow.blank with state := s }

theorem witness_StepRunsFrontCommand : State.reset.pending = [] := rfl
theorem witness_BoardSoundKept : Memory.Sound State.reset.part.board ∧
    ∃ t, step { State.reset with pending := [.contactCloses 0] } = .next t := ⟨Memory.Sound.empty, _, rfl⟩
theorem witness_QuietKept : running.Quiet ∧ ∃ t, step ⟨[.contactCloses 0], running⟩ = .next t := ⟨quiet_of (by decide +kernel), _, rfl⟩
theorem witness_AtMostThreeEnginesHeld : (holding running false .identify .ready).heldCount ≤ 3 ∧
    (∀ i, (holding running false .identify .awaiting).ListedAs i) ∧
    ∃ t, step ⟨[.responseTimeout 5 false], holding running false .identify .awaiting⟩ = .next t := ⟨by decide +kernel, by decide, _, rfl⟩
theorem witness_PowerLegalKept : Part.reset.PowerLegal ∧ ∃ t, step ⟨[.powerOn], Part.reset⟩ = .next t :=
  ⟨⟨by decide, by decide, by decide, by decide, by decide, by decide⟩, _, rfl⟩
theorem witness_StoreAgreesKept : Part.reset.StoreAgrees ∧ ∃ t, step ⟨[.powerLoss], Part.reset⟩ = .next t :=
  ⟨⟨fun _ h => (by cases h), fun _ h => (by cases h)⟩, _, rfl⟩

/-- The part in big-endian order, slot 5 in service with the cartridge of 4.5 and LOW. -/
def ordered : Part :=
  let p := { running with port := { running.port with bigEndian := true } }
  (p.setSlot 5 (inServiceRow .new)).setVolumes 5 { Volumes.blank with remaining := 289837000, low := true }

/-- R177, 12.3: the serial of slot 5, most significant byte first, and the flags byte. -/
theorem test_record_order : (ordered.recordSlot 5).readByte (slotBase 5 + 9) = 0xA1 ∧
    (ordered.recordSlot 5).readField (slotBase 5 + 8) 8 = 0x00A17C3309501E04 ∧
    (ordered.recordSlot 5).readByte (slotBase 5 + 4) = 1 := by decide +kernel

theorem witness_BoardSoundKept_records :
    ((ordered.rewriteRecords true).RecordsStand ∧ (ordered.rewriteRecords true).recordsKept = true ∧
      Memory.Sound (ordered.rewriteRecords true).board) ∧
    (∃ t, step ⟨[.contactCloses 0], ordered.rewriteRecords true⟩ = .next t) ∧
    (resetting .restart .fold).recordsKept = true ∧ (resetting .powerOn .load).recordsKept = false ∧
    (resetting .powerOn .load).loading = true :=
  ⟨⟨rewriteRecords_stand _ _ rfl, rfl, (rewriteRecords_acts _ _).board Memory.Sound.empty⟩, ⟨_, rfl⟩, by decide⟩

/-- The part with the saver at work. -/
def saving (p : Part) (s : Saver) : Part := { p with hs := { p.hs with saver := s } }

theorem witness_NvChangesOnlyAtWriteEnds :
    (after (saving running (.place 0 none 0 false false)) (.historyWriteAttemptEnd true)).nv ≠ running.nv := by decide +kernel

/-- The part with the check of cell 0 outstanding and the counter write of 1 under way. -/
def entering (second : Bool) : Part :=
  let p := saving running (.counter 1 second)
  { p with ps := { p.ps with checkOutstanding := some 0 } }

theorem witness_ModesChangeOnlyWhereRuled :
    ((entering false).ps.serviceMode = false ∧ (after (entering false) (.counterWriteEnd .equal)).ps.serviceMode = true) ∧
    ((resetting .powerOn .load).busy = true ∧ (after (resetting .powerOn .load) .loadComplete).busy = false) ∧
    (running.busy = false ∧ (after running .resetAsserted).busy = true) ∧
    (after { running with port := { running.port with heldLower := some 1 } } (.restart 0)).busy = true := by
  refine ⟨by decide +kernel, ⟨by decide, ?_⟩, by decide +kernel, by decide +kernel⟩
  show (Part.finish _ _).ps.sequence.isSome = false
  rw [finish_ps]
  decide +kernel

theorem witness_UndecodedAndBusyAccesses : 0xF00 ≤ 2 * (0x780 : BitVec 11).toNat ∧
    (running.Quiet ∧ 0xF00 ≤ 2 * (0x7F7 : BitVec 11).toNat ∧ 2 * (0x7F7 : BitVec 11).toNat < 0xFF0) ∧ Part.reset.busy = true ∧
    Register.id ≠ .status ∧ 2 * (0x7FD : BitVec 11).toNat < 0xFFC ∧
    (Register.status, 0xFFC) ∈ [(Register.id, 0xFF0), (.control, 0xFF4), (.notice, 0xFF8), (.status, 0xFFC)] :=
  ⟨by decide, ⟨quiet_of (by decide +kernel), by decide, by decide⟩, by decide, by decide, by decide, by decide⟩

theorem witness_ContactsMoveTheBay : running.Normal ∧
    ((running.bay 11).contactClosed = false ∧ (running.bay 11).presence = .absent ∧ (running.slot 11).state = .empty) ∧
    ((leaving running).Normal ∧ ((leaving running).bay 5).contactClosed = false ∧ ((leaving running).bay 5).presence = .leaving ∧
      (leaving running).link 5 = .none ∧ (leaving running).Quiet) ∧
    ((((inState running .settling).setBay 5 { Bay.blank true with presence := .settling, timer := .settle }).Normal) ∧
      (((inState running .settling).setBay 5 { Bay.blank true with presence := .settling, timer := .settle }).bay 5).presence = .settling ∧
      ((inState running .settling).slot 5).state = .settling) ∧
    ((seated running).Normal ∧ ((seated running).bay 5).contactClosed = true ∧ ((seated running).bay 5).presence = .present ∧
      (seated running).Quiet) :=
  ⟨normal_of (by decide), by decide, ⟨normal_of (by decide), by decide, by decide, by decide, quiet_of (by decide +kernel)⟩,
    ⟨normal_of (by decide), by decide, by decide⟩, normal_of (by decide), by decide, by decide, quiet_of (by decide +kernel)⟩

/-- A bay whose settle timer has just run out. -/
def settling : Part := (inState running .settling).setBay 5 { Bay.blank true with presence := .settling, timer := .settle }

theorem witness_SettleBeginsBringUp : settling.Normal ∧ (settling.bay 5).presence = .settling ∧ (settling.bay 5).timer = .settle ∧
    (settling.slot 5).state = .settling ∧ settling.link 5 = .none ∧ settling.Unlisted 5 :=
  ⟨normal_of (by decide), by decide, by decide, by decide, by decide, by decide, by decide⟩

/-- Slot 5 holds the cartridge of 4.5 in service, its entry at place 12. -/
def serving (v : Verdict) (p : Part) : Part := (remembering p).setSlot 5 (inServiceRow v)

theorem witness_RemovalEmptiesTheSlot : (leaving (serving .new running)).Normal ∧
    ((leaving (serving .new running)).bay 5).presence = .leaving ∧ ((leaving (serving .new running)).bay 5).timer = .removal ∧
    ((leaving (serving .new running)).slot 5).keepsHistory = true ∧ (leaving (serving .new running)).linkedPlace 5 = some 12 ∧
    ((leaving (serving .new running)).place 12).entry = some yellowEntry ∧
    ((leaving (serving .new running)).commit 5).unsettled = none ∧ (leaving (serving .new running)).hs.foldAtWrite = false ∧
    (leaving (serving .new running)).ListedAs 5 :=
  ⟨normal_of (by decide), by decide, by decide, by decide, by decide +kernel, by decide, by decide, by decide, by decide⟩

theorem witness_WakingFromSleep : sleeping.asleep = true ∧ sleeping.busy = false ∧
    ((sleeping.bay 0).contactClosed = false ∧ (sleeping.bay 0).presence = .absent) ∧
    (((seated sleeping).bay 5).contactClosed = true ∧ ((seated sleeping).bay 5).presence = .present) ∧
    (sleeping.cellState 23 = .free ∧ sleeping.bankState 3 = .opened) ∧
    (sleeping.ps.wakeRequests = true ∧ sleeping.ps.wakeBands = true) ∧
    (({ sleeping with ps := { sleeping.ps with wakeRequests := false, wakeBands := false } }).asleep = true) ∧
    (((leaving sleeping).bay 5).contactClosed = false ∧ ((leaving sleeping).bay 5).presence = .leaving ∧
      ((leaving sleeping).bay 5).timer = .removal) ∧
    ((sleeping.setBay 5 { Bay.blank true with presence := .settling, timer := .settle }).bay 5).timer = .settle := by decide

theorem witness_OperationStarts :
    ((seated (holding running true (.advance 255) .ready)).link 5 = .held ⟨true, .advance 255, .ready, 0, none⟩ ∧
      (seated (holding running true (.advance 255) .ready)).lineOn 5 = true ∧
      ((seated (holding running true (.advance 255) .ready)).bay 5).gap = .counting ∧
      (seated (holding running true (.advance 255) .ready)).ps.supplyLow = false ∧
      (seated (holding running true (.advance 255) .ready)).busy = false ∧
      (seated (holding running true (.advance 255) .ready)).Quiet) ∧
    (∀ n, LinkOp.identify ≠ .advance n) ∧ (seated (holding running false .identify .ready)).lineOn 5 = true ∧
      (seated (holding running false .identify .ready)).Quiet :=
  ⟨⟨by decide, by decide, by decide, by decide, by decide, quiet_of (by decide +kernel)⟩, fun _ h => by (cases h), by decide,
    quiet_of (by decide +kernel)⟩

theorem witness_ReceptionAdvances : (seated (holding running false .identify (.sending [1]))).Quiet ∧
    (seated (holding running false .identify .awaiting)).Quiet ∧ (seated (holding running false .identify .receiving)).Quiet ∧
    (seated (holding running false .identify .receiving)).lineOn 5 = true ∧ running.lineOn 5 = false ∧
    LinkOp.identify.headerOk 0 15 = true ∧ (running.setBay 5 { Bay.blank true with gap := .heldLow }).Quiet ∧
    ((running.setBay 5 { Bay.blank true with gap := .heldLow }).bay 5).gap = .heldLow :=
  ⟨quiet_of (by decide +kernel), quiet_of (by decide +kernel), quiet_of (by decide +kernel), by decide, by decide, by decide,
    quiet_of (by decide +kernel), by decide⟩

/-- Slot 5 brings a cartridge up, and holds an engine for an IDENTIFY. -/
def identifying (attempts : Nat) (phase : LinkPhase) : Part :=
  (seated (holding running false .identify phase)).setSlot 5 { SlotRow.blank with state := .identify, attempts := attempts }

theorem witness_FailedOperationCountsAnAttempt : (identifying 1 .ready).Normal ∧
    (identifying 1 .ready).HoldsSingle 5 ⟨false, .identify, .ready, 0, none⟩ ∧ ((identifying 1 .ready).slot 5).state = .identify ∧
    EndsOperation 5 true ⟨false, .identify, .ready, 0, none⟩ (.linkGapTimeout 5 true) .noResponse ∧
    EndsOperation 5 true ⟨false, .identify, .awaiting, 0, none⟩ (.responseTimeout 5 true) .noResponse ∧
    EndsOperation 5 false ⟨false, .identify, .receiving, 0, none⟩ (.responseByteTimeout 5 false) .malformed ∧
    EndsOperation 5 false ⟨false, .identify, .payload 0 15, 0, none⟩ (.responseByteTimeout 5 false) .malformed ∧
    EndsOperation 5 false ⟨false, .identify, .receiving, 0, none⟩ (.statusLengthReceived 5 3 0 false) .malformed ∧
    ((identifying 1 .ready).slot 5).attempts < 2 ∧ 2 ≤ ((identifying 2 .ready).slot 5).attempts :=
  ⟨normal_of (by decide), ⟨by decide, by decide, by decide, by decide⟩, by decide, .gap rfl, .response rfl, .header rfl, .payload _ _ rfl,
    .length _ _ rfl (by decide), by decide, by decide⟩

/-- The CRC of an ACCEPTED response with a payload. -/
def crcOf (payload : List Byte) : Byte := crc8 (0 :: BitVec.ofNat 8 payload.length :: payload)

/-- Slot 5 in REVERIFY, its REVERIFY parked in cell 3, holding an engine that receives the answer to its READ_TALLY. -/
def retrying (attempts : Nat) (phase : LinkPhase) : Part :=
  (seated (holding running false .readTally phase)).setSlot 5
    { inServiceRow .new with state := .reverify, stage := .readTally, candidate := some 6, attempts := attempts, parkedCell := some 3 }

/-- No slot has a flush holder and no settings request waits. -/
theorem loose_of {p : Part} {c : CellNo} (h : ((allSlots.all fun i => (p.commit i).holders.isEmpty) && p.hs.settingsQueue.isEmpty) = true) :
    p.Loose c := by
  simp only [Bool.and_eq_true, List.all_eq_true, List.isEmpty_iff] at h
  exact ⟨fun i => by rw [h.1 i (mem_allSlots i)]; simp, fun r hr => by rw [h.2] at hr; simp at hr⟩

theorem witness_FailedOperationCountsAnAttempt_responses :
    ((retrying 1 (.payload 0 2)).Normal ∧ (retrying 1 (.payload 0 2)).HoldsSingle 5 ⟨false, .readTally, .payload 0 2, 0, none⟩ ∧
      ((retrying 1 (.payload 0 2)).slot 5).state = .reverify ∧ ((retrying 1 (.payload 0 2)).slot 5).attempts < 2 ∧
      2 ≤ ((retrying 2 (.payload 0 2)).slot 5).attempts) ∧
    (EndsResponse 5 true ⟨false, .readTally, .payload 0 2, 0, none⟩ (.readTally 5 [0, 0] 0 true)
        (LinkOp.readTally.judge 0 2 [0, 0] 0) ∧ LinkOp.readTally.judge 0 2 [0, 0] 0 = .checkError) ∧
    LinkOp.readTally.judge 0 2 (bytesOf 2 16384) (crcOf (bytesOf 2 16384)) = .malformed ∧
    ((retrying 2 (.payload 1 0)).HoldsSingle 5 ⟨false, .readTally, .payload 1 0, 0, none⟩ ∧
      EndsResponse 5 false ⟨false, .readTally, .payload 1 0, 0, none⟩ (.readTally 5 [] (crc8 [1, 0]) false)
        (LinkOp.readTally.judge 1 0 [] (crc8 [1, 0])) ∧ LinkOp.readTally.judge 1 0 [] (crc8 [1, 0]) = .refused) ∧
    (LinkOutcome.isFailure .checkError = true ∧ LinkOutcome.isFailure .malformed = true ∧ LinkOutcome.isFailure .refused = true) ∧
    (((retrying 2 (.payload 1 0)).slot 5).parkedCell = some 3 ∧ Memory.wf (retrying 2 (.payload 1 0)).board = true ∧
      (retrying 2 (.payload 1 0)).Loose 3) :=
  ⟨⟨normal_of (by decide), ⟨by decide, by decide, by decide, by decide⟩, by decide, by decide, by decide⟩,
    ⟨.readTally _ _ _ _ rfl rfl (by decide), by decide +kernel⟩, by decide +kernel,
    ⟨⟨by decide, by decide, by decide, by decide⟩, .readTally _ _ _ _ rfl rfl (by decide), by decide +kernel⟩, by decide,
    by decide, by decide, loose_of (by decide)⟩

/-- Slot 5 holds an engine for an IDENTIFY, and its bay is leaving. -/
def interrupted (phase : LinkPhase) : Part := leaving (holding running false .identify phase)

/-- The payload with which the cartridge of 4.5 answers an IDENTIFY. -/
def yellowPayload : List Byte :=
  bytesOf 8 0x00A17C3309501E04 ++ [0x21, 3] ++ bytesOf 2 0x4137 ++ bytesOf 2 1500 ++ [1]

theorem witness_OutcomeHeldWhileLeaving : (interrupted .awaiting).Quiet ∧ (interrupted (.payload 0 15)).Quiet ∧
    (interrupted .awaiting).link 5 = .held ⟨false, .identify, .awaiting, 0, none⟩ ∧
    ((interrupted .awaiting).bay 5).presence = .leaving ∧ (interrupted .awaiting).asleep = false ∧
    EndsOperation 5 true ⟨false, .identify, .awaiting, 0, none⟩ (.responseTimeout 5 true) .noResponse ∧
    EndsResponse 5 false ⟨false, .identify, .payload 0 15, 0, none⟩ (.identify 5 yellowPayload 0 false)
      (LinkOp.identify.judge 0 15 yellowPayload 0) :=
  ⟨quiet_of (by decide +kernel), quiet_of (by decide +kernel), by decide, by decide, by decide, .response rfl, .identify _ _ _ _ rfl rfl (by decide)⟩

/-- Slot 5 in a state with the key and the nonce of a bring-up, holding an engine that receives a payload. -/
def receiving (state : SlotState) (op : LinkOp) (length : Byte) : Part :=
  (seated (holding running false op (.payload 0 length))).setSlot 5
    { inServiceRow .new with state := state, verdict := none, response := some 11 }

theorem witness_ResponsesMoveTheSlotOn :
    ((receiving .identify .identify 15).Normal ∧
      (receiving .identify .identify 15).HoldsSingle 5 ⟨false, .identify, .payload 0 15, 0, none⟩ ∧ yellowPayload.length = 15 ∧
      LinkOp.identify.judge 0 15 yellowPayload (crcOf yellowPayload) = .identified yellow) ∧
    ((receiving .challenge (.challenge 9) 8).HoldsSingle 5 ⟨false, .challenge 9, .payload 0 8, 0, none⟩ ∧
      ((receiving .challenge (.challenge 9) 8).slot 5).nonce = some 9 ∧
      (LinkOp.challenge 9).judge 0 8 (bytesOf 8 11) (crcOf (bytesOf 8 11)) = .challenged 11) ∧
    ((receiving .reverify .readTally 2).HoldsSingle 5 ⟨false, .readTally, .payload 0 2, 0, none⟩ ∧
      ((receiving .reverify .readTally 2).slot 5).response = some 11 ∧
      LinkOp.readTally.judge 0 2 (bytesOf 2 16383) (crcOf (bytesOf 2 16383)) = .tallyRead 16383) :=
  ⟨⟨normal_of (by decide), ⟨by decide, by decide, by decide, by decide⟩, by decide, by decide +kernel⟩,
    ⟨⟨by decide, by decide, by decide, by decide⟩, by decide, by decide +kernel⟩,
    ⟨by decide, by decide, by decide, by decide⟩, by decide, by decide +kernel⟩

/-- Slot 5 in service in a commit hold, with an ADVANCE_TALLY of one unit sent under commit count 19. -/
def advancing (phase : LinkPhase) (failures : Nat) : Part :=
  let p := (seated (holding (remembering running) true (.advance 1) phase)).setSlot 5
    { inServiceRow .new with linkFailures := failures }
  p.setCommit 5 { CommitRow.blank with uncommitted := 163000, unsettled := some ⟨1, 19⟩, count := 20 }

/-- Bay 5 leaving, with the outcome of an operation of slot 5 held by its engine. -/
def outcomeHeld (row : SlotRow) (op : LinkOp) (o : LinkOutcome) : Part :=
  leaving ((holding running false op (.outcomeHeld o)).setSlot 5 row)

theorem witness_ContactsMoveTheBay_held :
    let failed (n : Nat) := outcomeHeld { SlotRow.blank with state := .challenge, attempts := n } (.challenge 9) .noResponse
    let seen := outcomeHeld { SlotRow.blank with state := .identify } .identify (.identified yellow)
    let unanswered := leaving (advancing (.outcomeHeld .noResponse) 0)
    ((failed 1).Normal ∧ (failed 1).link 5 = .held ⟨false, .challenge 9, .outcomeHeld .noResponse, 0, none⟩ ∧
      LinkOutcome.isFailure .noResponse = true ∧ ((failed 1).slot 5).state = .challenge ∧ ((failed 1).slot 5).attempts < 2 ∧
      2 ≤ ((failed 2).slot 5).attempts) ∧
    (seen.Normal ∧ seen.link 5 = .held ⟨false, .identify, .outcomeHeld (.identified yellow), 0, none⟩ ∧ (seen.slot 5).state = .identify) ∧
    (unanswered.Normal ∧ (unanswered.bay 5).contactClosed = false ∧ (unanswered.bay 5).presence = .leaving ∧
      unanswered.link 5 = .held ⟨true, .advance 1, .outcomeHeld .noResponse, 0, none⟩ ∧
      (unanswered.commit 5).unsettled = some ⟨1, 19⟩ ∧ (unanswered.slot 5).state = .inService ∧ unanswered.hs.foldAtWrite = false) ∧
    (let answered := outcomeHeld { inServiceRow .new with state := .challenge } (.challenge 9) (.challenged 11)
     answered.Normal ∧ answered.link 5 = .held ⟨false, .challenge 9, .outcomeHeld (.challenged 11), 0, none⟩ ∧
      (answered.slot 5).key = some 7 ∧ (answered.slot 5).nonce = some 9 ∧ (answered.slot 5).identity = some yellow) ∧
    (let accepted := leaving (advancing (.outcomeHeld (.advanced 1501 3)) 0)
     accepted.link 5 = .held ⟨true, .advance 1, .outcomeHeld (.advanced 1501 3), 0, none⟩ ∧ accepted.committedTally 5 = 1500 ∧
      (accepted.commit 5).unsettled = some ⟨1, 19⟩ ∧ (accepted.slot 5).key = some 7 ∧ (accepted.slot 5).nonce = some 9) :=
  ⟨⟨normal_of (by decide), by decide, by decide, by decide, by decide, by decide⟩, ⟨normal_of (by decide), by decide, by decide⟩,
    ⟨normal_of (by decide), by decide, by decide, by decide, by decide, by decide, by decide⟩,
    ⟨normal_of (by decide), by decide, by decide, by decide, by decide⟩, by decide +kernel, by decide +kernel, by decide, by decide, by decide⟩

/-- Slot 5, its entry at place 12 with a committed tally of 1,500, receives the answer to a READ_TALLY with two units in
doubt. -/
def rereading (commit : Bool) (state : SlotState) (uncommitted : Nat) : Part :=
  ((seated (holding (remembering running) commit .readTally (.payload 0 2))).setSlot 5 { inServiceRow .new with state := state }).setCommit 5
    { CommitRow.blank with uncommitted := uncommitted, inDoubt := 2 }

theorem witness_ResponsesMoveTheSlotOn_reverify :
    ((receiving .reverify (.challenge 9) 8).Normal ∧ (receiving .reverify (.challenge 9) 8).Unlisted 5 ∧
      ((receiving .reverify (.challenge 9) 8).slot 5).state = .reverify ∧
      (receiving .linkLost (.challenge 9) 8).Unlisted 5 ∧ ((receiving .linkLost (.challenge 9) 8).slot 5).state = .linkLost) ∧
    ((receiving .linkLost .readTally 2).HoldsSingle 5 ⟨false, .readTally, .payload 0 2, 0, none⟩ ∧
      EndsOperation 5 true ⟨false, .readTally, .payload 0 2, 0, none⟩ (.responseByteTimeout 5 true) .malformed ∧
      LinkOutcome.isFailure .malformed = true) ∧
    ((((receiving .linkLost .readTally 2).updSlot 5 fun r => { r with reverifyOpen := true }).slot 5).reverifyOpen = true) :=
  ⟨⟨normal_of (by decide), ⟨by decide, by decide⟩, by decide, ⟨by decide, by decide⟩, by decide⟩,
    ⟨⟨by decide, by decide, by decide, by decide⟩, .payload _ _ rfl, by decide⟩, by decide⟩

theorem witness_ResponsesMoveTheSlotOn_tally :
    ((rereading false .linkLost 0).HoldsSingle 5 ⟨false, .readTally, .payload 0 2, 0, none⟩ ∧
      ((rereading false .linkLost 0).slot 5).state = .linkLost ∧ ((rereading false .linkLost 0).slot 5).reverifyOpen = false ∧
      (rereading false .linkLost 0).hs.foldAtWrite = false) ∧
    ((rereading true .inService 0).Normal ∧ (rereading true .inService 0).link 5 = .held ⟨true, .readTally, .payload 0 2, 0, none⟩ ∧
      ((rereading true .inService 0).bay 5).presence = .present ∧ ((rereading true .inService 0).commit 5).inDoubt ≠ 0) ∧
    ((rereading true .inService 0).committedTally 5 = 1500 ∧ (rereading true .inService 0).linkedPlace 5 = some 12 ∧
      ((rereading true .inService 0).place 12).entry = some yellowEntry ∧ ((rereading true .inService 0).slot 5).verdict = some .new) ∧
    (LinkOp.readTally.judge 0 2 (bytesOf 2 1502) (crcOf (bytesOf 2 1502)) = .tallyRead 1502 ∧
      LinkOp.readTally.judge 0 2 (bytesOf 2 1500) (crcOf (bytesOf 2 1500)) = .tallyRead 1500 ∧
      LinkOp.readTally.judge 0 2 (bytesOf 2 1501) (crcOf (bytesOf 2 1501)) = .tallyRead 1501) ∧
    (after (rereading true .inService 36000000) (.readTally 5 (bytesOf 2 1502) (crcOf (bytesOf 2 1502)) false)).commitDue 5 = true :=
  ⟨⟨⟨by decide, by decide, by decide, by decide⟩, by decide, by decide, by decide⟩,
    ⟨normal_of (by decide), by decide, by decide, by decide⟩, by decide +kernel, by decide +kernel, by decide +kernel⟩

theorem witness_AdvanceAnswered :
    ((advancing (.payload 0 10) 0).link 5 = .held ⟨true, .advance 1, .payload 0 10, 0, none⟩ ∧
      ((advancing (.payload 0 10) 0).bay 5).presence = .present ∧ (advancing (.payload 0 10) 0).asleep = false ∧ (advancing (.payload 0 10) 0).hs.foldAtWrite = false ∧
      ((advancing (.payload 0 10) 0).commit 5).unsettled = some ⟨1, 19⟩ ∧ (advancing (.payload 0 10) 0).committedTally 5 = 1500 ∧
      ((advancing (.payload 0 10) 0).slot 5).key = some 7 ∧ ((advancing (.payload 0 10) 0).slot 5).verdict = some .new) ∧
    (LinkOp.advance 1).judge 0 10 (bytesOf 2 1501 ++ bytesOf 8 3) (crcOf (bytesOf 2 1501 ++ bytesOf 8 3)) = .advanced 1501 3 ∧
    (LinkOp.advance 1).judge 0 10 (bytesOf 2 1502 ++ bytesOf 8 3) (crcOf (bytesOf 2 1502 ++ bytesOf 8 3)) = .advanced 1502 3 ∧
    (LinkOp.advance 1).judge 2 0 [] (crc8 [2, 0]) = .tallyFull ∧
    (advancing (.payload 2 0) 0).linkedPlace 5 = some 12 := by decide +kernel

/-- A bay whose removal timer has run out, with an ADVANCE_TALLY sent, as the source of channel 5, with a REVERIFY of cell 3 and
a COMMIT_NOW of cell 4 for the slot parked. -/
def takenOut : Part :=
  let p := (leaving (advancing .awaiting 0)).updSlot 5 fun r => { r with parkedCell := some 3 }
  let p := (p.updCommit 5 fun r => { r with holders := [4] }).setChannel 5 { ChannelRow.blank 5 with active := some 5 }
  { p with rq := ⟨[], [⟨3, .reverify 5⟩, ⟨4, .commitNow (some 5) noCauses⟩], 7⟩ }

theorem witness_RemovalEmptiesTheSlot_rest : takenOut.Normal ∧ (takenOut.bay 5).presence = .leaving ∧ (takenOut.bay 5).timer = .removal ∧
    ((takenOut.slot 5).keepsHistory = true ∧ takenOut.linkedPlace 5 = some 12 ∧ (takenOut.place 12).entry = some yellowEntry ∧
      takenOut.hs.foldAtWrite = false ∧ (takenOut.commit 5).unsettled = some ⟨1, 19⟩ ∧
      takenOut.link 5 = .held ⟨true, .advance 1, .awaiting, 0, none⟩) ∧
    ((takenOut.channel 5).active = some 5 ∧ takenOut.channelOf 5 = some 5 ∧ (takenOut.channel 4).active ≠ some 5) ∧
    (Memory.wf takenOut.board = true ∧ takenOut.hs.settingsQueue = [] ∧ (takenOut.slot 5).parkedCell = some 3) ∧
    ((∀ i, (3 : CellNo) ∉ (takenOut.commit i).holders) ∧ ⟨4, .commitNow (some 5) noCauses⟩ ∈ takenOut.rq.parked ∧
      (∀ x ∈ takenOut.rq.parked, x.cell = 4 → x.work = .commitNow (some 5) noCauses) ∧
      ∀ i, (4 : CellNo) ∈ (takenOut.commit i).holders ↔ i = 5) :=
  ⟨normal_of (by decide), by decide, by decide, by decide +kernel, by decide +kernel, by decide, by decide⟩

theorem witness_UnansweredAdvanceIsInDoubt :
    (advancing .awaiting 1).link 5 = .held ⟨true, .advance 1, .awaiting, 0, none⟩ ∧ ((advancing .awaiting 1).bay 5).presence = .present ∧
    ((advancing .awaiting 1).commit 5).unsettled = some ⟨1, 19⟩ ∧ ((advancing .awaiting 1).slot 5).state = .inService ∧
    (advancing .awaiting 1).hs.foldAtWrite = false ∧ (advancing .awaiting 1).linkedPlace 5 = some 12 ∧
    ((advancing .awaiting 1).place 12).entry = some yellowEntry ∧ ((advancing .awaiting 1).slot 5).linkFailures < 2 ∧
    2 ≤ ((advancing .awaiting 2).slot 5).linkFailures := by decide +kernel

theorem witness_UnansweredAdvanceIsInDoubt_outcomes :
    ((advancing (.payload 1 0) 2).link 5 = .held ⟨true, .advance 1, .payload 1 0, 0, none⟩ ∧ (advancing (.payload 1 0) 2).asleep = false ∧
      EndsResponse 5 false ⟨true, .advance 1, .payload 1 0, 0, none⟩ (.advanceTally 5 [] (crc8 [1, 0]) false)
        ((LinkOp.advance 1).judge 1 0 [] (crc8 [1, 0])) ∧ (LinkOp.advance 1).judge 1 0 [] (crc8 [1, 0]) = .refused) ∧
    (EndsResponse 5 true ⟨true, .advance 1, .payload 1 0, 0, none⟩ (.advanceTally 5 [] 0 true) ((LinkOp.advance 1).judge 1 0 [] 0) ∧
      (LinkOp.advance 1).judge 1 0 [] 0 = .checkError) ∧
    ((rereading true .inService 0).link 5 = .held ⟨true, .readTally, .payload 0 2, 0, none⟩ ∧
      ((rereading true .inService 0).commit 5).unsettled = none ∧ ((rereading true .inService 0).bay 5).presence = .present ∧
      EndsOperation 5 false ⟨true, .readTally, .payload 0 2, 0, none⟩ (.responseByteTimeout 5 false) .malformed) ∧
    ((rereading true .reverify 0).slot 5).state ≠ .inService ∧
    EndsOperation 5 false ⟨true, .advance 1, .awaiting, 0, none⟩ (.responseTimeout 5 false) .noResponse :=
  ⟨⟨by decide, by decide, .advanceTally _ _ _ _ _ rfl rfl (by decide), by decide +kernel⟩,
    ⟨.advanceTally _ _ _ _ _ rfl rfl (by decide), by decide +kernel⟩, ⟨by decide, by decide, by decide, .payload _ _ rfl⟩, by decide, .response rfl⟩

theorem witness_SlotTimersJoin :
    ((running.setSlot 11 { SlotRow.blank with state := .identify, timer := .retry }).busy = false ∧
      (running.setSlot 11 { SlotRow.blank with state := .identify, timer := .retry }).link 11 = .none ∧
      (running.setSlot 11 { SlotRow.blank with state := .identify, timer := .retry }).Unlisted 11 ∧
      ((running.setSlot 11 { SlotRow.blank with state := .identify, timer := .retry }).slot 11).triedOperation = some .identify) ∧
    ((running.setSlot 11 { inServiceRow .new with state := .linkLost, timer := .probe }).slot 11).timer = .probe ∧
    ((running.setSlot 11 { inServiceRow .new with state := .linkLost, timer := .probe }).slot 11).state = .linkLost :=
  ⟨⟨by decide, by decide, ⟨by decide, by decide⟩, by decide⟩, by decide, by decide⟩

/-- The part with an operation being computed by the digest engine. -/
def computing (p : Part) (owner : DigestOwner) (op : DigestOp) : Part := { p with dg := ⟨[⟨owner, op⟩], true, []⟩ }

theorem witness_DeriveLeadsToChallenge :
    (computing (inState running .derive) (.slot 5) (.derive 1 7 9)).digestHead = some ⟨.slot 5, .derive 1 7 9⟩ ∧
    ((inState running .derive).slot 5).state = .derive ∧ (inState running .derive).busy = false ∧
    (inState running .derive).link 5 = .none ∧ (inState running .derive).Unlisted 5 :=
  ⟨by decide, by decide, by decide, by decide, by decide, by decide⟩

/-- A response that a CHALLENGE_CHECK with key 7 accepts for nonce 9 and the tally of `yellow`. -/
def rightResponse : Quad := Config.digest (7 : Quad) ((9 : Quad) ++ yellow.serial ++ BitVec.ofNat 16 1500)

/-- Slot 5 in CHECK with the cartridge of 4.5. -/
def checking (response : Quad) : Part :=
  computing (running.setSlot 5 { inServiceRow .new with state := .check, verdict := none, historyLink := false, response := some response })
    (.slot 5) (.challengeCheck 7 9 yellow.serial 1500 response)

theorem witness_ChallengeCheckDecides :
    (∀ r, (checking r).digestHead = some ⟨.slot 5, .challengeCheck 7 9 yellow.serial 1500 r⟩ ∧ ((checking r).slot 5).state = .check ∧
      ((checking r).slot 5).identity = some yellow ∧ (checking r).hs.foldAtWrite = false ∧ knownClass yellow.volumeClass = true ∧
      (checking r).wrongInk 5 yellow.ink = false ∧ (checking r).heldElsewhere 5 yellow.serial = false ∧
      (checking r).findPlace yellow.serial = none) ∧
    challengeMatches 7 9 yellow.serial 1500 (rightResponse + 1) = false ∧
    challengeMatches 7 9 yellow.serial 1500 rightResponse = true ∧
    (0 < yellow.tally ∧ yellow.tally * unitVolume < ratedVolume yellow.volumeClass) ∧
    ratedVolume 3 ≤ 4400 * unitVolume := by
  refine ⟨fun r => ⟨rfl, rfl, rfl, rfl, by decide, rfl, rfl, rfl⟩, ?_, by simp [challengeMatches, rightResponse], by decide, by decide⟩
  simp only [challengeMatches, rightResponse, beq_eq_false_iff_ne, ne_eq]
  intro h
  have : (1 : Quad) = 0 := by
    have := congrArg (fun x => x - Config.digest (7 : Quad) ((9 : Quad) ++ yellow.serial ++ BitVec.ofNat 16 1500)) h
    simpa using this.symm
  exact absurd this (by decide)

/-- The response that a CHALLENGE_CHECK with key 7 accepts for nonce 9 and an identity. -/
def rightFor (id : Identity) : Quad := Config.digest (7 : Quad) ((9 : Quad) ++ id.serial ++ BitVec.ofNat 16 id.tally)

/-- Slot 5 in CHECK with an identity, its response right. -/
def resolving (p : Part) (id : Identity) : Part :=
  computing (p.setSlot 5 { SlotRow.blank with state := .check, identity := some id }) (.slot 5)
    (.challengeCheck 7 9 id.serial id.tally (rightFor id))

/-- The part whose place 12 holds the entry of `yellow` with another verdict and other units in doubt. -/
def recalling (v : Verdict) (units : Nat) : Part :=
  running.setPlace 12 ⟨some { yellowEntry with verdict := v, inDoubt := units }, false⟩

/-- The entry at each place of a full table; that of place 63 has the lowest sighting number. -/
def crowdEntry (k : Fin 64) : Entry :=
  { yellowEntry with serial := BitVec.ofNat 64 (100 + k.val), sighting := if k = 63 then 1 else 2 }

/-- The part with a full history table, none of its entries held. -/
def crowded : Part := { running with hs := { running.hs with places := Vector.ofFn fun k => ⟨some (crowdEntry k), false⟩ } }

theorem crowded_place (k : Fin 64) : crowded.place k = ⟨some (crowdEntry k), false⟩ := by revert k; decide +kernel

theorem crowded_takes : crowded.TakesEntry 63 :=
  .evicted (crowdEntry 63) (fun j => by rw [crowded_place]; simp) (by rw [crowded_place]) (by decide +kernel) fun j d hj hd _ => by
    rw [crowded_place] at hd
    cases hd
    exact .inr ⟨rfl, .inl (by simp [crowdEntry, hj])⟩

theorem witness_ChallengeCheckDecides_cases :
    (∀ id : Identity, challengeMatches 7 9 id.serial id.tally (rightFor id) = true) ∧
    knownClass { yellow with volumeClass := 9 }.volumeClass = false ∧
    (resolving (running.setChannel 5 { ChannelRow.blank 5 with feed := ⟨0x35, some 5, none⟩ }) yellow).wrongInk 5 yellow.ink = true ∧
    ((resolving ((remembering running).setSlot 4 (inServiceRow .new)) yellow).heldElsewhere 5 yellow.serial = true ∧
      (resolving ((remembering running).setSlot 4 (inServiceRow .new)) yellow).findPlace yellow.serial = some 12 ∧
      ((resolving ((remembering running).setSlot 4 (inServiceRow .new)) yellow).slot 4).carries yellow.serial = true ∧
      ((inServiceRow .new).state.inServiceGroup = true ∧ Verdict.new.class = .tracked)) ∧
    ((resolving (running.setSlot 4 (inServiceRow .new)) yellow).findPlace yellow.serial = none ∧
      (resolving (running.setSlot 4 (inServiceRow .new)) yellow).TakesEntry 0) ∧
    ((resolving (recalling .clone 0) yellow).heldElsewhere 5 yellow.serial = false ∧
      (resolving (recalling .clone 0) yellow).findPlace yellow.serial = some 12 ∧
      ((resolving (recalling .clone 0) yellow).place 12).entry = some { yellowEntry with verdict := .clone, inDoubt := 0 } ∧
      Verdict.clone.sticky = true) ∧
    (((resolving (recalling .new 1) { yellow with tally := 1499 }).place 12).entry = some yellowEntry ∧
      yellowEntry.inDoubt ≠ 0 ∧ 1499 ≠ yellowEntry.tally ∧ 1499 ≠ yellowEntry.tally + yellowEntry.inDoubt) ∧
    (((resolving (recalling .new 0) { yellow with tally := 1503 }).place 12).entry = some { yellowEntry with inDoubt := 0 } ∧
      yellowEntry.volumeClass = yellow.volumeClass ∧ yellowEntry.ink = yellow.ink ∧ yellowEntry.tally < 1503) ∧
    ((resolving (recalling .new 1) { yellow with tally := 1501 }).findPlace yellow.serial = some 12 ∧
      1501 = yellowEntry.tally + yellowEntry.inDoubt) ∧
    ((resolving crowded yellow).findPlace yellow.serial = none ∧ crowded.TakesEntry 63) :=
  ⟨fun id => by simp [challengeMatches, rightFor], by decide, rfl, ⟨rfl, rfl, rfl, by decide⟩,
    ⟨rfl, .free rfl fun j h => absurd h (by omega)⟩, ⟨rfl, rfl, rfl, by decide⟩, ⟨rfl, by decide⟩, ⟨rfl, by decide⟩, ⟨rfl, by decide⟩,
    ⟨by decide +kernel, crowded_takes⟩⟩

/-- Slot 5 in REVERIFY with the cartridge of 4.5, at its check, with a REVERIFY of cell 3 parked. -/
def rechecking (response : Quad) : Part :=
  computing ((remembering running).setSlot 5
    { inServiceRow .new with state := .reverify, stage := .check, reverifyTally := some 1500, response := some response, parkedCell := some 3 })
    (.slot 5) (.challengeCheck 7 9 yellow.serial 1500 response)

theorem witness_ChallengeCheckDecides_reverify : (∀ r, (rechecking r).digestHead = some ⟨.slot 5, .challengeCheck 7 9 yellow.serial 1500 r⟩ ∧
      ((rechecking r).slot 5).state = .reverify ∧ ((rechecking r).slot 5).verdict = some .new ∧
      ((rechecking r).slot 5).reverifyTally = some 1500 ∧ (rechecking r).hs.foldAtWrite = false ∧
      ((rechecking r).slot 5).parkedCell = some 3 ∧ Memory.wf (rechecking r).board = true) ∧
    Verdict.new.class ≠ .rejected ∧ (rechecking 0).Loose 3 :=
  ⟨fun _ => ⟨rfl, rfl, rfl, rfl, rfl, rfl, rfl⟩, by decide,
    ⟨fun i => (by decide : ∀ i : Slot, (3 : CellNo) ∉ (running.commit i).holders) i, fun _ h => (by cases h)⟩⟩

/-- Two digests that a response, a receipt or a token is compared with differ in the value after them. -/
theorem next_value_differs (x : Quad) : (x == x + 1) = false := by
  simp only [beq_eq_false_iff_ne, ne_eq]
  intro h
  have : (0 : Quad) = 1 := by
    have := congrArg (fun y => y - x) h
    simp at this
  exact absurd this (by decide)

/-- R147: a block's changes of one slot in one step are one record write. A reverify that finds a tally that disagrees ends
REGRESSED and IN_SERVICE (R40): the slot manager writes once. A removal that cuts off a sent ADVANCE_TALLY (R44) is one write
of the commit engine and one of the slot manager. -/
theorem test_one_write_per_block :
    let p := (serving .new running).setSlot 5 { inServiceRow .new with state := .reverify, reverifyTally := some 1400 }
    let q := Part.finish p (p.reverifyChecked 5 true)
    let r := Part.finish p ((advancing .awaiting 0).removal 5)
    ((q.slot 5).state = .inService ∧ (q.slot 5).verdict = some .regressed ∧ q.readField (slotBase 5) 2 = 1 ∧
      q.readField (slotBase 5 + 62) 2 = 1 ∧ q.openWrites = []) ∧
    ((r.slot 5).state = .empty ∧ r.readField (slotBase 5) 2 = 2 ∧ r.openWrites = []) := by decide +kernel

/-- The receipt that a RECEIPT_CHECK with key 7 accepts for nonce 9, commit count 19 and tally 1,501. -/
def rightReceipt : Quad := Config.digest (7 : Quad) ((9 : Quad) ++ (19 : Half) ++ BitVec.ofNat 16 1501)

theorem witness_ReceiptDecides :
    (∀ r, (computing (advancing .awaitingReceipt 0) (.slot 5) (.receiptCheck 7 9 19 1501 r)).digestHead
      = some ⟨.slot 5, .receiptCheck 7 9 19 1501 r⟩) ∧
    ((advancing .awaitingReceipt 0).commit 5).unsettled = some ⟨1, 19⟩ ∧ (advancing .awaitingReceipt 0).hs.foldAtWrite = false ∧
    receiptMatches 7 9 19 1501 rightReceipt = true ∧ (advancing .awaitingReceipt 0).linkedPlace 5 = some 12 ∧
    receiptMatches 7 9 19 1501 (rightReceipt + 1) = false ∧ ((advancing .awaitingReceipt 0).slot 5).hasClass .tracked = true :=
  ⟨fun _ => rfl, by decide, by decide, by simp [receiptMatches, rightReceipt], by decide +kernel, next_value_differs _, by decide⟩

/-- Slot 5 of `advancing` with another verdict. -/
def advancingAs (v : Verdict) : Part := (advancing .awaitingReceipt 2).setSlot 5 { inServiceRow v with linkFailures := 2 }

theorem witness_ReceiptDecides_verdicts :
    (∀ v r, (computing (advancingAs v) (.slot 5) (.receiptCheck 7 9 19 1501 r)).digestHead = some ⟨.slot 5, .receiptCheck 7 9 19 1501 r⟩ ∧
      ((advancingAs v).slot 5).verdict = some v ∧ ((advancingAs v).commit 5).unsettled = some ⟨1, 19⟩ ∧
      (advancingAs v).hs.foldAtWrite = false) ∧
    Verdict.new.class = .tracked ∧ Verdict.refilled.class = .untracked ∧ Verdict.unreadable.class = .rejected :=
  ⟨fun _ _ => ⟨rfl, rfl, rfl, rfl⟩, by decide⟩

/-- The token that the service gate accepts for the counter 417. -/
def rightToken : Quad := Config.digest Config.serviceMaster (Config.partSerial ++ (417 : BitVec 32))

/-- The part computing the TOKEN_CHECK of cell 3, after a number of failed attempts. -/
def gated (token : Quad) (failed : Nat) : Part :=
  let p := computing running .gate (.tokenCheck 417 token)
  { p with ps := { p.ps with checkOutstanding := some 3, failedAttempts := failed } }

theorem witness_TokenCheckAnswers :
    (∀ token failed, (gated token failed).Quiet ∧ Memory.wf (gated token failed).board = true ∧
      (gated token failed).digestHead = some ⟨.gate, .tokenCheck 417 token⟩ ∧
      (gated token failed).ps.checkOutstanding = some 3) ∧
    tokenMatches 417 rightToken = true ∧ tokenMatches 417 (rightToken + 1) = false ∧
    (gated 0 1).ps.failedAttempts < 2 ∧ 2 ≤ (gated 0 2).ps.failedAttempts := by
  refine ⟨fun token failed => ⟨?_, rfl, rfl, rfl⟩, by simp [tokenMatches, rightToken], next_value_differs _, by decide, by decide⟩
  exact ⟨fun h => (by cases h), fun _ _ => rfl, rfl, (quiet_of (p := running) (by decide +kernel)).patterns,
    (quiet_of (p := running) (by decide +kernel)).output⟩

/-- Slot 5 in service alone holds the entry at place 12, with a volume to fold and two units in doubt, fold at write being
enabled; the saver does some work and the queue holds some places. -/
def folding (s : Saver) (queue : List (Fin 64)) : Part :=
  let p := (serving .new running).setCommit 5 { CommitRow.blank with uncommitted := 163000, inDoubt := 2 }
  { p with hs := { p.hs with foldAtWrite := true, saver := s, saveQueue := queue } }

theorem folding_alone (s : Saver) (queue : List (Fin 64)) : (folding s queue).SoleHolder 5 yellowEntry :=
  ⟨rfl, (by decide : ((serving .new running).slot 5).carries yellowEntry.serial = true),
    (by decide : ∀ j : Slot, j ≠ 5 → ((serving .new running).slot j).carries yellowEntry.serial = false)⟩

/-- The part of `folding` with an ADVANCE_TALLY of slot 5 unsettled. -/
def foldWaits : Part :=
  (folding (.place 63 none 0 false false) [12, 7]).setCommit 5 { CommitRow.blank with unsettled := some ⟨1, 19⟩ }

theorem witness_HistoryWriteEnds :
    ((saving running (.place 63 none 0 false false)).hs.foldAtWrite = false ∧
      (saving running (.place 63 none 0 false false)).hs.saveQueue.contains 63 = false) ∧
    (saving running (.place 63 none 0 true false)).hs.saver = .place 63 none 0 true false ∧
    ((folding (.place 63 none 0 false true) [12]).hs.foldAtWrite = true ∧ (folding (.place 63 none 0 false true) [12]).works = true ∧
      ((folding (.place 63 none 0 false true) [12]).place 12).entry = some yellowEntry ∧
      (folding (.place 63 none 0 false true) [12]).SoleHolder 5 yellowEntry ∧
      ((folding (.place 63 none 0 false true) [12]).commit 5).unsettled = none) ∧
    ((folding (.place 12 none 0 false false) []).hs.saver = .place 12 none 0 false false ∧
      (folding (.place 12 none 0 false false) []).SoleHolder 5 yellowEntry) ∧
    (foldWaits.hs.foldAtWrite = true ∧ foldWaits.works = true ∧ foldWaits.hs.saveQueue = [12, 7] ∧
      (foldWaits.slot 5).carries yellowEntry.serial = true ∧ (foldWaits.commit 5).unsettled ≠ none ∧ (foldWaits.place 7).entry = none) :=
  ⟨by decide, by decide, ⟨by decide, by decide, by decide, folding_alone _ _, by decide⟩, ⟨rfl, folding_alone _ _⟩, by decide⟩

theorem witness_CounterWriteEnds : Memory.wf (entering false).board = true ∧ (entering false).hs.saver = .counter 1 false ∧
    (entering true).hs.saver = .counter 1 true ∧ (entering false).ps.checkOutstanding = some 0 ∧
    (entering false).hs.foldAtWrite = false ∧ (entering false).Loose 0 ∧ (entering true).Loose 0 :=
  ⟨by decide, by decide, by decide, by decide, by decide, loose_of (by decide), loose_of (by decide)⟩

/-- The part writing the blank page for a request in cell 2. -/
def writingPage (second : Bool) : Part :=
  saving running (.settings ⟨2, 11, .calibration .default, false⟩ Page.blank second)

theorem witness_SettingsWriteEnds : Memory.wf (writingPage false).board = true ∧ (writingPage false).busy = false ∧
    (writingPage false).hs.saver = .settings ⟨2, 11, .calibration .default, false⟩ Page.blank false ∧
    (writingPage true).hs.saver = .settings ⟨2, 11, .calibration .default, false⟩ Page.blank true ∧
    (writingPage false).hs.foldAtWrite = false ∧ (writingPage false).Loose 2 ∧ (writingPage true).Loose 2 :=
  ⟨by decide, by decide, rfl, rfl, by decide, loose_of (by decide), loose_of (by decide)⟩

/-- The part writing the page for a feed of channel 11, with a bank on the charge list or none. -/
def writingFeed (f : Feed) (list : List ChargeItem) : Part :=
  let p := saving running (.settings ⟨2, 11, .feed f, false⟩ Page.blank false)
  { p with au := { p.au with chargeList := list } }

theorem witness_SettingsWriteEnds_placing :
    ((writingPage false).au.betweenPages = true ∧ (writingPage false).bankWaits = false) ∧
    ((writingFeed (.default 11) []).Loose 2 ∧ ((writingFeed (.default 11) []).channel 11).feed = .default 11 ∧
      ((writingFeed ⟨1, some 11, some 0⟩ []).channel 11).feed ≠ ⟨1, some 11, some 0⟩ ∧
      (writingFeed ⟨1, some 11, some 0⟩ []).Loose 2) ∧
    ((writingFeed ⟨1, some 11, some 0⟩ [.bank 3]).bankWaits = true ∧ (writingFeed ⟨1, some 11, some 0⟩ [.bank 3]).Loose 2) :=
  ⟨by decide, ⟨loose_of (by decide), by decide, by decide, loose_of (by decide)⟩, by decide, loose_of (by decide)⟩

theorem witness_TemperatureFactor : (10 ≤ 10 ∧ 80 ≤ 80 ∧ 0 < 10 * (0 : Fin 7).val + (1 : Fin 10).val ∧
      0 < 10 * (6 : Fin 7).val + (9 : Fin 10).val) ∧
    (∀ i : Fin 8, 512 ≤ (Vector.replicate 8 512)[i] ∧ (Vector.replicate 8 512)[i] ≤ 2047) ∧
    ∀ i : Fin 8, 512 ≤ (Vector.replicate 8 2047)[i] ∧ (Vector.replicate 8 2047)[i] ≤ 2047 := by decide

/-- The largest block that a bank can hold, and the largest calibration. -/
def largestBlock : ChannelBlock := ⟨255, 4294967295, 4294967295, 4294967295, 4294967295⟩
def largestCalibration : Calibration := ⟨1023, 1023, 1023, Vector.replicate 8 2047⟩

theorem witness_VolumesAndShares : (largestBlock.small ≤ 4294967295 ∧ largestBlock.medium ≤ 4294967295 ∧
      largestBlock.large ≤ 4294967295 ∧ largestBlock.spit ≤ 4294967295) ∧
    (largestCalibration.small ≤ 1023 ∧ largestCalibration.medium ≤ 1023 ∧ largestCalibration.large ≤ 1023) ∧
    (∀ i : Fin 8, 512 ≤ largestCalibration.keys[i] ∧ largestCalibration.keys[i] ≤ 2047) ∧
    rawSum largestCalibration largestBlock = 17575006171140 ∧ secondBlock.spit = 0 := by decide +kernel

/-- The part with bank 3 at the head of the charge list: sequence 0x2E42, channel 11 alone. -/
def charging (seen : Bool) (last : Half) : Part :=
  let p := withBoard running [(0x900, 0x5A), (0x902, 0x42), (0x903, 0x2E), (0x905, 0x08)]
  { p with au := { p.au with chargeList := [.bank 3], bankSeen := seen, lastSequence := last } }

theorem witness_BankAccounted : (charging true 0x2E41).works = true ∧ (charging true 0x2E41).au.chargeList = [.bank 3] ∧
    Memory.wf (charging true 0x2E41).board = true ∧
    (charging true 0x2E41).bandSequence 3 = (charging true 0x2E41).au.lastSequence + 1 ∧
    (charging false 0).au.bankSeen = false ∧
    ((charging true 0x2E40).au.bankSeen = true ∧ (charging true 0x2E40).bandSequence 3 ≠ (charging true 0x2E40).au.lastSequence + 1) ∧
    ((charging true 0).bandMask 3).getLsbD (11 : Channel).val = true ∧ ((charging true 0).bandMask 3).getLsbD (0 : Channel).val = false := by
  decide +kernel

/-- The part of `charging` whose bank ends a page, with a calibration and a feed of channel 11 pending and a pair of slot
11, which is in service. -/
def ending : Part :=
  let p := (charging true 0x2E41).writeByte 0x901 1
  let p := (p.setSlot 11 (inServiceRow .new)).setVolumes 11 { Volumes.blank with remaining := 5, pending := some ⟨5, 4⟩ }
  p.setChannel 11 { ChannelRow.blank 11 with pendingCalibration := some worked, pendingFeed := some ⟨1, some 0, some 11⟩ }

theorem witness_BankAccounted_settings : (charging true 0x2E41).pageEnd 3 = false ∧
    (ending.works = true ∧ ending.au.chargeList = [.bank 3] ∧ Memory.wf ending.board = true ∧ ending.pageEnd 3 = true) ∧
    ((ending.channel 11).pendingCalibration = some worked ∧ (ending.channel 11).pendingFeed = some ⟨1, some 0, some 11⟩ ∧
      (⟨1, some 0, some 11⟩ : Feed) ≠ (ending.channel 11).feed ∧ ((after ending .bankAccounting).channel 11).active = some 11) ∧
    ((ending.volumes 11).pending = some ⟨5, 4⟩ ∧ ((after ending .bankAccounting).slot 11).state.inServiceGroup = true ∧
      ((after ending .bankAccounting).slot 11).hasClass .tracked = true) := by decide +kernel

/-- The part with a purge of channel 11 alone on the charge list, slot 11 in service feeding it. -/
def purging (remaining volume : Nat) : Part :=
  let p := (running.setSlot 11 (inServiceRow .new)).setVolumes 11 ⟨remaining, 0, 0, ⟨22, 5⟩, none, false, false, false⟩
  let p := p.setChannel 11 { ChannelRow.blank 11 with active := some 11 }
  { p with au := { p.au with chargeList := [.purge 23 0x800 (Vector.replicate 12 volume) false] } }

theorem witness_PurgeAccounted : (purging 100 100).works = true ∧
    (purging 100 100).au.chargeList = [.purge 23 0x800 (Vector.replicate 12 100) false] ∧
    Memory.wf (purging 100 100).board = true ∧ (purging 100 100).Loose 23 ∧ (purging 100 100).hs.foldAtWrite = false ∧
    (0x800 : Half).getLsbD (11 : Channel).val = true ∧ (0x800 : Half).getLsbD (10 : Channel).val = false :=
  ⟨by decide, by decide, by decide, loose_of (by decide), by decide, by decide, by decide⟩

theorem witness_ChargeFallsOnTheSource :
    ((purging 100 100).works = true ∧ (purging 100 100).hs.foldAtWrite = false ∧
      (purging 100 100).ChargesOne 11 .purgeAccounting (Vector.replicate 12 100)[(11 : Channel)] (Vector.replicate 12 100)[(11 : Channel)] ∧
      ((purging 100 100).channel 11).active = some 11 ∧ ((purging 100 100).slot 11).hasClass .tracked = true ∧
      (∀ b, ((purging 100 100).channel 11).feed.other 11 = some b → (purging 100 100).qualifies b = false)) ∧
    (((purging 100 100).setChannel 11 (ChannelRow.blank 11)).channel 11).active = none ∧
    (((purging 100 100).setSlot 11 (inServiceRow .depleted)).slot 11).hasClass .untracked = true ∧
    ((((purging 100 22000100).charge 11 22000100 0).slot 11).verdict = some .new ∧
      (((purging 100 22000101).charge 11 22000101 0).slot 11).verdict = some .refilled ∧ (purging 100 22000101).channelOf 11 = some 11) :=
  ⟨⟨by decide, by decide, .purge 23 (Vector.replicate 12 100) false [] (by decide), by decide, by decide, fun b h => by cases h⟩, by decide, by decide, by decide +kernel⟩

/-- The part of 6.3 with a purge of channel 2 alone on the charge list. -/
def tandemPurge (volume : Nat) : Part :=
  { tandem with au := { tandem.au with chargeList := [.purge 23 4 (Vector.replicate 12 volume) false] } }

/-- The part of `charging`, its bank holding 255 large drops times 65,536 for channel 11. -/
def charged : Part := (charging true 0x2E41).writeByte 0x9FA 255

theorem witness_ChargeFallsOnTheSource_handover :
    ((tandemPurge 520000).ChargesOne 2 .purgeAccounting (Vector.replicate 12 520000)[(2 : Channel)] (Vector.replicate 12 520000)[(2 : Channel)] ∧
      ((tandemPurge 520000).slot 2).hasClass .tracked = true ∧ ((tandemPurge 520000).channel 2).feed.other 2 = some 10 ∧
      (tandemPurge 520000).qualifies 10 = true) ∧
    (((tandemPurge 520000).volumes 2).thresholds.stop = 2600000 ∧ ((tandemPurge 520000).volumes 2).remaining = 3000000) ∧
    (3000000 - min 400000 (3000000 - 2600000) ≤ 2600000 ∧ 2600000 < 3000000 - min 399999 (3000000 - 2600000)) ∧
    (charged.works = true ∧ charged.ChargesOne 11 .bankAccounting
        (bandVolume (charged.channel 11).calibration (charged.channelBlock 3 11) (charged.channel 11).residue)
        (bandMaintenance (charged.channel 11).calibration (charged.channelBlock 3 11)) ∧
      0 < bandVolume (charged.channel 11).calibration (charged.channelBlock 3 11) (charged.channel 11).residue) :=
  ⟨⟨.purge 23 (Vector.replicate 12 520000) false [] (by decide), by decide, by decide, by decide⟩, by decide, by decide,
    by decide, .bank 3 [] (by decide) (by decide +kernel) (by decide +kernel), by decide +kernel⟩

/-- The part with one byte on its board. -/
def showing (address : Nat) (value : Byte) : Part := withBoard running [(address, value)]

theorem witness_CellWrites : (running.Normal ∧ running.Quiet ∧ Memory.wf running.board = true ∧ running.cellState 23 = .free) ∧
    ((showing 0x5C0 0x3C).Normal ∧ (showing 0x5C0 0x3C).Quiet ∧ Memory.wf (showing 0x5C0 0x3C).board = true ∧
      (showing 0x5C0 0x3C).cellState 23 = .done) ∧
    ((showing 0x5C0 0x5A).Normal ∧ (showing 0x5C0 0x5A).Quiet ∧ (showing 0x5C0 0x5A).cellState 23 = .posted) :=
  ⟨⟨normal_of (by decide), quiet_of (by decide +kernel), by decide, by decide⟩,
    ⟨normal_of (by decide), quiet_of (by decide +kernel), by decide, by decide⟩,
    normal_of (by decide), quiet_of (by decide +kernel), by decide⟩

theorem witness_BankAndBoardWrites : running.Normal ∧ running.Quiet ∧ Memory.wf running.board = true ∧
    running.bankState 3 ≠ .ready ∧ (31 : Fin 32) ≠ 0 ∧ running.cellState 23 ≠ .taken ∧ (127 : Fin 128) ≠ 0 :=
  ⟨normal_of (by decide), quiet_of (by decide +kernel), by decide, by decide, by decide, by decide, by decide⟩

theorem witness_DroppedWrites : ((showing 0x5C0 0xA5).Normal ∧ (showing 0x5C0 0xA5).Quiet ∧ (showing 0x5C0 0xA5).cellState 23 = .taken) ∧
    (0xA00 ≤ 2 * (0x500 : BitVec 11).toNat ∧ 2 * (0x77F : BitVec 11).toNat < 0xF00) ∧
    ((showing 0x900 0x5A).Normal ∧ (showing 0x900 0x5A).Quiet ∧ (showing 0x900 0x5A).bankState 3 = .ready) ∧
    (running.Normal ∧ running.Quiet ∧ (0x3C : Byte) ≠ 0 ∧ (0x3C : Byte) ≠ 0x5A ∧ running.cellState 23 ≠ .taken ∧
      running.bankState 3 ≠ .ready) :=
  ⟨⟨normal_of (by decide), quiet_of (by decide +kernel), by decide⟩, by decide,
    ⟨normal_of (by decide), quiet_of (by decide +kernel), by decide⟩, normal_of (by decide), quiet_of (by decide +kernel), by decide⟩

theorem witness_RegisterWrites : running.Normal ∧ running.Quiet ∧
    (0x8080 : Half) ++ (running.readRegister .control).setWidth 16 = (0x80800000 : BitVec 32) :=
  ⟨normal_of (by decide), quiet_of (by decide +kernel), by decide⟩

/-- The cell at the head of the posted list, computed. -/
theorem offers_of {p : Part} {k : Option Kind} {c : CellNo}
    (h : (p.rq.posted.head?, kindOf (p.kindByte c), p.busy, p.asleep) = (some c, k, false, false)) : p.Offers k c := by
  simp only [Prod.mk.injEq] at h
  exact ⟨h.1, h.2.1, h.2.2.1, h.2.2.2⟩

theorem witness_UnknownAndServiceOnlyKinds :
    ({ showing 0x5C0 0x5A with rq := ⟨[23], [], 65535⟩ }.Offers none 23 ∧ { showing 0x5C0 0x5A with rq := ⟨[23], [], 65535⟩ }.Quiet) ∧
    ((offering running 23 .setFeed 0 []).Quiet ∧ Memory.wf (offering running 23 .setFeed 0 []).board = true ∧
      (offering running 23 .setFeed 0 []).Offers (some .setFeed) 23 ∧ (offering running 23 .loadCalibration 0 []).Offers (some .loadCalibration) 23 ∧
      (offering running 23 .reconcile 0 []).Offers (some .reconcile) 23 ∧
      (offering running 23 .forgetHistory 0 []).Offers (some .forgetHistory) 23 ∧
      (offering running 23 .setRefillMargin 0 []).Offers (some .setRefillMargin) 23 ∧
      (offering running 23 .setFeed 0 []).ps.serviceMode = false) :=
  ⟨⟨offers_of (by decide), quiet_of (by decide +kernel)⟩, quiet_of (by decide +kernel), by decide, offers_of (by decide),
    offers_of (by decide), offers_of (by decide), offers_of (by decide), offers_of (by decide), by decide⟩

/-- SET_NOTICE_LEVELS with the bytes 255, 7, 8, 254 and 0. -/
def levelling : Part := offering running 0 .setNoticeLevels 0 [255, 7, 8, 254, 0, 0, 0, 0]

theorem witness_LevelsAndBrightness : levelling.Quiet ∧ Memory.wf levelling.board = true ∧ levelling.Offers (some .setNoticeLevels) 0 ∧
    (levelling.argumentByte 0 0 = 255 ∧ (levelling.argumentByte 0 1).toNat < 8 ∧ 8 ≤ (levelling.argumentByte 0 2).toNat) ∧
    (∀ n : Fin 8, ((offering running 0 .setNoticeLevels 0 [255, 7]).argumentByte 0 n.val).toNat < 8 ∨
      (offering running 0 .setNoticeLevels 0 [255, 7]).argumentByte 0 n.val = 255) ∧
    (offering running 0 .setLedBrightness 0 [0, 1]).Offers (some .setLedBrightness) 0 ∧
    255 < (offering running 0 .setLedBrightness 0 [0, 1]).argument 0 0 2 ∧
    (after (offering running 0 .setLedBrightness 0 [0, 1]) .setLedBrightness).effectiveBrightness = running.effectiveBrightness ∧
    (after (offering running 0 .setLedBrightness 0 [100, 0]) .setLedBrightness).effectiveBrightness ≠ running.effectiveBrightness :=
  ⟨quiet_of (by decide +kernel), by decide, offers_of (by decide), by decide, by decide +kernel, offers_of (by decide), by decide,
    by decide +kernel, by decide +kernel⟩

/-- A part whose slot 11 is in service, its bay showing the pattern that goes with it. -/
def inUse (p : Part) : Part :=
  (p.setSlot 11 (inServiceRow .new)).setBay 11 { Bay.blank true with presence := .present, selected := .solid, current := .solid }

theorem witness_ThresholdsAndReconcile :
    ((offering (inUse running) 0 .setThresholds 11 []).Quiet ∧ Memory.wf (offering (inUse running) 0 .setThresholds 11 []).board = true ∧
      (offering (inUse running) 0 .setThresholds 11 []).target 0 = some 11 ∧
      ((offering (inUse running) 0 .setThresholds 11 []).slot 11).state.inServiceGroup = true ∧
      (offering (inUse running) 0 .setThresholds 11 []).Offers (some .setThresholds) 0) ∧
    (running.au.betweenPages = true ∧ running.bankWaits = false) ∧ (charging true 0).bankWaits = true ∧
    ((offering (inUse inService) 0 .reconcile 11 []).Quiet ∧ (offering (inUse inService) 0 .reconcile 11 []).Offers (some .reconcile) 0 ∧
      (offering (inUse inService) 0 .reconcile 11 []).ps.serviceMode = true) :=
  ⟨⟨quiet_of (by decide +kernel), by decide, by decide, by decide, offers_of (by decide)⟩, by decide, by decide,
    quiet_of (by decide +kernel), offers_of (by decide), by decide⟩

theorem witness_ThresholdsAndReconcile_refused :
    ((offering running 0 .setThresholds 12 []).Quiet ∧ (offering running 0 .setThresholds 12 []).Offers (some .setThresholds) 0 ∧
      Memory.wf (offering running 0 .setThresholds 12 []).board = true ∧ 11 < ((offering running 0 .setThresholds 12 []).targetByte 0).toNat) ∧
    ((offering inService 0 .reconcile 11 []).Quiet ∧ (offering inService 0 .reconcile 11 []).Offers (some .reconcile) 0 ∧
      (offering inService 0 .reconcile 11 []).ps.serviceMode = true ∧ (offering inService 0 .reconcile 11 []).target 0 = some 11 ∧
      ((offering inService 0 .reconcile 11 []).slot 11).state = .empty) ∧
    ((offering (inState running .derive) 0 .setThresholds 5 []).target 0 = some 5 ∧
      (offering (inState running .derive) 0 .setThresholds 5 []).Offers (some .setThresholds) 0 ∧
      ((offering (inState running .derive) 0 .setThresholds 5 []).slot 5).state.bringUp = true) :=
  ⟨⟨quiet_of (by decide +kernel), offers_of (by decide), by decide, by decide⟩,
    ⟨quiet_of (by decide +kernel), offers_of (by decide), by decide, by decide, by decide⟩, by decide, offers_of (by decide), by decide⟩

theorem witness_CommitSettings : Memory.wf (offering running 0 .setCommit 0 [64, 0, 1]).board = true ∧
    (offering running 0 .setCommit 0 [64, 0, 1]).Offers (some .setCommit) 0 ∧ (offering running 0 .setCommit 0 [64, 0, 1]).Loose 0 ∧
    (offering running 0 .setCommit 0 [64, 0, 1]).hs.foldAtWrite = false ∧
    ((offering running 0 .setCommit 0 [64, 0, 1]).argumentByte 0 2).toNat ≤ 1 ∧
    1 < ((offering running 0 .setCommit 0 [64, 0, 2]).argumentByte 0 2).toNat :=
  ⟨by decide, offers_of (by decide), loose_of (by decide), by decide, by decide, by decide⟩

/-- A part whose slot 11 is in service with an uncommitted volume. -/
def owing (uncommitted : Nat) : Part := (inUse running).setCommit 11 { CommitRow.blank with uncommitted := uncommitted }

theorem owing_takes : (owing 100000).TakesFlush 11 := ⟨by decide, by decide, by decide, .inl (by decide)⟩

theorem witness_CommitNowOneSlot :
    (Memory.wf (offering (owing 100000) 0 .commitNow 11 []).board = true ∧ (offering (owing 100000) 0 .commitNow 11 []).Offers (some .commitNow) 0 ∧
      (offering (owing 100000) 0 .commitNow 11 []).target 0 = some 11 ∧ (offering (owing 100000) 0 .commitNow 11 []).Loose 0 ∧
      (offering (owing 100000) 0 .commitNow 11 []).hs.foldAtWrite = false ∧ (offering (owing 100000) 0 .commitNow 11 []).Unlisted 11) ∧
    ((owing 100000).TakesFlush 11 ∧ (advancing .awaiting 0).TakesFlush 5) ∧
    ((owing 99999).commit 11).uncommitted < unitVolume ∧ ((owing 99999).commit 11).unsettled = none ∧
    (((inUse running).setSlot 11 (inServiceRow .regressed)).slot 11).allowsCommits = false ∧
    ((offering running 0 .commitNow 11 []).slot 11).state = .empty ∧ (offering running 0 .commitNow 11 []).Loose 0 ∧
    ((offering (running.setSlot 11 { inServiceRow .new with state := .reverify }) 0 .commitNow 11 []).slot 11).state = .reverify :=
  ⟨⟨by decide, offers_of (by decide), by decide, loose_of (by decide), by decide, ⟨by decide, by decide⟩⟩,
    ⟨owing_takes, by decide, by decide, by decide, .inr (by decide)⟩, by decide, by decide, by decide,
    by decide, loose_of (by decide), by decide⟩

theorem witness_CommitNowOneSlot_every :
    (Memory.wf (offering running 0 .commitNow 255 []).board = true ∧ (offering running 0 .commitNow 255 []).Offers (some .commitNow) 0 ∧
      (offering running 0 .commitNow 255 []).Loose 0 ∧ (offering running 0 .commitNow 255 []).targetByte 0 = 255 ∧
      ∀ i, ¬ (offering running 0 .commitNow 255 []).TakesFlush i) ∧
    ((offering (owing 100000) 0 .commitNow 255 []).Offers (some .commitNow) 0 ∧ (offering (owing 100000) 0 .commitNow 255 []).Loose 0 ∧
      (owing 100000).TakesFlush 11 ∧ (owing 100000).FlushEndsAtOnce 5 .skipped) ∧
    ((owing 99999).FlushEndsAtOnce 11 .drained ∧
      ((inUse running).setSlot 11 (inServiceRow .regressed)).FlushEndsAtOnce 11 .stopped) :=
  ⟨⟨by decide, offers_of (by decide), loose_of (by decide), by decide,
      fun i h => absurd h.state ((by decide : ∀ i : Slot, ¬ (running.slot i).state = .inService) i)⟩,
    ⟨offers_of (by decide), loose_of (by decide), owing_takes, .skipped (by decide)⟩,
    .drained (by decide) (by decide) (by decide) (by decide) (by decide), .stopped (by decide) (.inl (by decide))⟩

theorem witness_CommitNowOneSlot_target :
    ∀ target : Byte, target = 12 ∨ target = 254 → (offering running 0 .commitNow target []).Offers (some .commitNow) 0 ∧
      11 < ((offering running 0 .commitNow target []).targetByte 0).toNat ∧ (offering running 0 .commitNow target []).targetByte 0 ≠ 255 := by
  rintro _ (rfl | rfl) <;> exact ⟨offers_of (by decide), by decide, by decide⟩

/-- REVERIFY of slot 11 in a state. -/
def reverifying (r : SlotRow) : Part := offering (running.setSlot 11 r) 0 .reverify 11 []

theorem witness_ReverifyBegins :
    (Memory.wf (reverifying (inServiceRow .new)).board = true ∧ (reverifying (inServiceRow .new)).Offers (some .reverify) 0 ∧
      (reverifying (inServiceRow .new)).target 0 = some 11 ∧ (reverifying (inServiceRow .new)).Loose 0 ∧
      (reverifying (inServiceRow .new)).hs.foldAtWrite = false ∧ ((reverifying (inServiceRow .new)).slot 11).state = .inService ∧
      (reverifying (inServiceRow .new)).link 11 = .none ∧ (reverifying (inServiceRow .new)).Unlisted 11) ∧
    (((reverifying { inServiceRow .unreadable with state := .rejected, historyLink := false }).slot 11).state = .rejected ∧
      ((reverifying { inServiceRow .unreadable with state := .rejected, historyLink := false }).slot 11).historyLink = false) ∧
    ((reverifying SlotRow.blank).slot 11).state = .empty ∧
    ((reverifying { SlotRow.blank with state := .linkLost }).slot 11).state = .linkLost :=
  ⟨⟨by decide, offers_of (by decide), by decide, loose_of (by decide), by decide, by decide, by decide, ⟨by decide, by decide⟩⟩, by decide,
    by decide, by decide⟩

theorem witness_ReverifyBegins_rest :
    (let p := offering ((remembering running).setSlot 11 { inServiceRow .counterfeit with state := .rejected }) 0 .reverify 11 []
     p.Offers (some .reverify) 0 ∧ p.target 0 = some 11 ∧ p.Loose 0 ∧ p.link 11 = .none ∧ p.Unlisted 11 ∧
      (p.slot 11).state = .rejected ∧ (p.slot 11).historyLink = true ∧ p.linkedPlace 11 = some 12 ∧
      (p.place 12).entry = some yellowEntry) ∧
    ((offering running 0 .reverify 255 []).Offers (some .reverify) 0 ∧ (offering running 0 .reverify 255 []).Loose 0 ∧
      11 < ((offering running 0 .reverify 255 []).targetByte 0).toNat ∧ 11 < ((offering running 0 .reverify 12 []).targetByte 0).toNat) :=
  ⟨⟨offers_of (by decide), by decide, loose_of (by decide), by decide, ⟨by decide, by decide⟩, by decide +kernel⟩,
    offers_of (by decide), loose_of (by decide), by decide⟩

theorem witness_PurgeParks : (offering running 0 .purge 0 [0xFF, 0x0F]).Quiet ∧ Memory.wf (offering running 0 .purge 0 [0xFF, 0x0F]).board = true ∧
    (offering running 0 .purge 0 [0xFF, 0x0F]).Offers (some .purge) 0 ∧
    BitVec.ofNat 16 ((offering running 0 .purge 0 [0xFF, 0x0F]).argument 0 0 2) = 0x0FFF ∧
    (BitVec.ofNat 16 ((offering running 0 .purge 0 []).argument 0 0 2) = (0 : Half) ∧ (offering running 0 .purge 0 []).Offers (some .purge) 0) ∧
    4096 ≤ (BitVec.ofNat 16 ((offering running 0 .purge 0 [0, 0x10]).argument 0 0 2)).toNat :=
  ⟨quiet_of (by decide +kernel), by decide, offers_of (by decide), by decide, ⟨by decide, offers_of (by decide)⟩, by decide⟩

/-- SET_FEED with an ink, a primary and a secondary. -/
def feeding (p : Part) (target ink primary secondary : Byte) : Part := offering p 0 .setFeed target [ink, primary, secondary]

/-- Service mode with a page on which channel 0 has no feed. -/
def unfedPage : Part :=
  { inService with hs := { inService.hs with page := Page.withSetting inService.hs.page 0 (.feed ⟨0, none, none⟩) } }

/-- LOAD_CALIBRATION with a small-drop volume and eight factors of 512. -/
def calibrating (target low high : Byte) : Part :=
  offering inService 0 .loadCalibration target ([low, high, 0, 0, 0, 0] ++ (List.replicate 8 [0, 2]).flatten)

theorem witness_SettingsRequestsPark :
    ((calibrating 11 0xFF 3).Quiet ∧ Memory.wf (calibrating 11 0xFF 3).board = true ∧ (calibrating 11 0xFF 3).ps.serviceMode = true ∧
      (calibrating 11 0xFF 3).target 0 = some 11 ∧ (calibrating 11 0xFF 3).Offers (some .loadCalibration) 0) ∧
    ((calibrating 11 0xFF 3).argument 0 0 2 = 1023 ∧ (calibrating 11 0 4).argument 0 0 2 = 1024 ∧ (calibrating 11 0 4).argument 0 6 2 = 512 ∧
      (calibrating 11 0 4).argument 0 20 2 = 512) ∧
    ((calibrating 12 0 0).Quiet ∧ (calibrating 12 0 0).target 0 = none ∧ (calibrating 12 0 0).Offers (some .loadCalibration) 0 ∧
      (feeding inService 12 1 11 255).Quiet ∧ (feeding inService 12 1 11 255).target 0 = none ∧
      (feeding inService 12 1 11 255).Offers (some .setFeed) 0) :=
  ⟨⟨quiet_of (by decide +kernel), by decide +kernel, by decide, by decide +kernel, offers_of (by decide +kernel)⟩, by decide +kernel,
    quiet_of (by decide +kernel), by decide +kernel, offers_of (by decide +kernel), quiet_of (by decide +kernel), by decide,
    offers_of (by decide)⟩

theorem witness_SettingsRequestsPark_feeds :
    ((feeding unfedPage 11 1 11 0).Quiet ∧ (feeding unfedPage 11 1 11 0).Offers (some .setFeed) 0 ∧ (feeding unfedPage 11 1 11 0).target 0 = some 11 ∧
      (feeding unfedPage 11 1 11 0).argumentByte 0 2 = 0 ∧
      (Page.withSetting unfedPage.hs.page 11 (.feed ⟨1, slotOf 11, slotOf 0⟩)).feedsDisjoint = true) ∧
    ((feeding inService 11 1 11 0).hs.saver = .idle ∧ (feeding inService 11 1 11 0).hs.foldAtWrite = false ∧
      (Page.withSetting inService.hs.page 11 (.feed ⟨1, slotOf 11, slotOf 0⟩)).feedsDisjoint = false) ∧
    ((feeding inService 11 254 255 255).Quiet ∧ (feeding inService 11 254 255 255).Offers (some .setFeed) 0 ∧
      (feeding inService 11 254 255 255).argumentByte 0 1 = 255 ∧
      (Page.withSetting inService.hs.page 11 (.feed ⟨254, none, none⟩)).feedsDisjoint = true) ∧
    (Page.withSetting inService.hs.page 11 (.feed ⟨1, slotOf 11, none⟩)).feedsDisjoint = true ∧
    ((feeding (saving inService (.place 0 none 0 false false)) 11 1 11 0).Quiet ∧
      (feeding (saving inService (.place 0 none 0 false false)) 11 1 11 0).Offers (some .setFeed) 0) :=
  ⟨⟨quiet_of (by decide +kernel), offers_of (by decide), by decide, by decide, by decide +kernel⟩, by decide +kernel,
    ⟨quiet_of (by decide +kernel), offers_of (by decide), by decide, by decide +kernel⟩, by decide +kernel,
    quiet_of (by decide +kernel), offers_of (by decide)⟩

theorem witness_SettingsRequestsPark_refused :
    ((feeding inService 11 255 11 255).Quiet ∧ (feeding inService 11 255 11 255).Offers (some .setFeed) 0 ∧
      (feeding inService 11 255 11 255).argumentByte 0 0 = 255) ∧
    ((feeding inService 11 1 12 255).Offers (some .setFeed) 0 ∧ (feeding inService 11 1 254 255).argumentByte 0 1 = 254 ∧
      12 ≤ ((feeding inService 11 1 12 255).argumentByte 0 1).toNat) ∧
    (12 ≤ ((feeding inService 11 1 11 12).argumentByte 0 2).toNat ∧ (feeding inService 11 1 11 12).argumentByte 0 2 ≠ 255) ∧
    ((feeding inService 11 1 255 0).argumentByte 0 1 = 255 ∧ (feeding inService 11 1 255 0).argumentByte 0 2 ≠ 255) ∧
    ((feeding inService 11 1 11 11).argumentByte 0 1 = (feeding inService 11 1 11 11).argumentByte 0 2) :=
  ⟨⟨quiet_of (by decide +kernel), offers_of (by decide), by decide⟩, ⟨offers_of (by decide), by decide, by decide⟩, by decide, by decide,
    by decide⟩

/-- READ_HISTORY by place. -/
def reading (place : Byte) : Part := offering (remembering running) 0 .readHistory 0 [place]

/-- FORGET_HISTORY of the serial of `yellow`. -/
def forgetting (p : Part) : Part := offering p 0 .forgetHistory 0 (bytesOf 8 0x00A17C3309501E04)

theorem witness_HistoryRequests :
    (Memory.wf (reading 12).board = true ∧ (reading 12).Quiet ∧ (reading 12).Offers (some .readHistory) 0 ∧ (reading 12).optionByte 0 = 0 ∧
      (reading 12).SelectsPlace 0 (some 12) ∧ ((reading 12).place 12).entry = some yellowEntry ∧ yellowEntry.InRange) ∧
    ((reading 63).Quiet ∧ (reading 63).Offers (some .readHistory) 0 ∧ (reading 63).SelectsPlace 0 (some 63) ∧
      ((reading 63).place 63).entry = none) ∧
    ((forgetting inService).Offers (some .forgetHistory) 0 ∧ (forgetting inService).ps.serviceMode = true ∧ (forgetting inService).Loose 0 ∧
      (forgetting inService).hs.foldAtWrite = false ∧
      yellow.serial = BitVec.ofNat 64 ((forgetting inService).argument 0 0 8) ∧ (forgetting inService).findPlace yellow.serial = none) ∧
    ((forgetting (serving .new inService)).Offers (some .forgetHistory) 0 ∧ (forgetting (serving .new inService)).Loose 0 ∧
      (forgetting (serving .new inService)).findPlace yellow.serial = some 12 ∧
      (forgetting (serving .new inService)).serialHeld yellow.serial = true) ∧
    ((forgetting (remembering inService)).findPlace yellow.serial = some 12 ∧
      (forgetting (remembering inService)).serialHeld yellow.serial = false) :=
  ⟨⟨by decide, quiet_of (by decide +kernel), offers_of (by decide), by decide, .place _ (by decide) (by decide), by decide,
      by decide, by decide, by decide, by decide, by decide, by decide⟩,
    ⟨quiet_of (by decide +kernel), offers_of (by decide), .place _ (by decide) (by decide), by decide⟩,
    ⟨offers_of (by decide), by decide, loose_of (by decide), by decide, by decide +kernel, by decide +kernel⟩,
    ⟨offers_of (by decide), loose_of (by decide), by decide +kernel, by decide +kernel⟩, by decide +kernel, by decide +kernel⟩

/-- The part with a FORGET_HISTORY of place 12 parked in cell 0, place 12 emptied and dirty. -/
def forgot (covered : Bool) (s : Saver) (queue : List (Fin 64)) : Part :=
  { running.setPlace 12 ⟨none, true⟩ with
    rq := ⟨[], [⟨0, .forget 12 covered⟩], 65535⟩, hs := { (running.setPlace 12 ⟨none, true⟩).hs with saver := s, saveQueue := queue } }

theorem witness_HistoryRequests_forgotten :
    ((forgetting (remembering inService)).hs.saver = .idle ∧ (forgetting (remembering inService)).nextWrite = none) ∧
    ((forgetting (saving (remembering inService) (.place 12 none 0 false false))).hs.saver ≠ .idle ∧
      (forgetting (saving (remembering inService) (.place 12 none 0 false false))).Offers (some .forgetHistory) 0 ∧
      (forgetting (saving (remembering inService) (.place 12 none 0 false false))).Loose 0) ∧
    (let waits := forgot false (.place 63 none 0 false false) [12]
     waits.hs.saver = .place 63 none 0 false false ∧ waits.Loose 0 ∧ waits.hs.foldAtWrite = false ∧ waits.works = true ∧
      waits.nextStored = none ∧ waits.hs.saveQueue = [12] ∧ (12 : Fin 64) ≠ 63 ∧
      (∀ x ∈ waits.rq.parked, x.cell = 0 → x.work = .forget 12 false) ∧ ⟨0, .forget 12 false⟩ ∈ waits.rq.parked) ∧
    (∀ second, let covered := forgot true (.place 12 none 0 second false) []
     covered.hs.saver = .place 12 none 0 second false ∧ covered.Loose 0 ∧ covered.hs.foldAtWrite = false ∧
      Memory.wf covered.board = true ∧ ⟨0, .forget 12 true⟩ ∈ covered.rq.parked) :=
  ⟨by decide +kernel, ⟨by decide, offers_of (by decide), loose_of (by decide)⟩,
    ⟨rfl, loose_of (by decide), by decide, by decide, by decide, by decide, by decide, by decide, by decide⟩,
    fun _ => ⟨rfl, loose_of (by rfl), rfl, rfl, .head _⟩⟩

/-- READ_HISTORY with an option byte. -/
def selecting (option target : Byte) (arguments : List Byte) : Part :=
  (offering (serving .new running) 0 .readHistory target arguments).writeByte (cellBase 0 + 7) option

theorem witness_HistoryRequests_selectors :
    ((selecting 1 0 (bytesOf 8 0x00A17C3309501E04)).SelectsPlace 0 (some 12) ∧ (selecting 1 0 [1]).SelectsPlace 0 none ∧
      (selecting 2 5 []).SelectsPlace 0 (some 12) ∧ (selecting 2 11 []).SelectsPlace 0 none ∧
      (selecting 2 5 []).Offers (some .readHistory) 0) ∧
    ((selecting 0 0 [64]).optionByte 0 = 0 ∧ 63 < ((selecting 0 0 [64]).argumentByte 0 0).toNat ∧ (selecting 2 12 []).optionByte 0 = 2 ∧
      11 < ((selecting 2 12 []).targetByte 0).toNat ∧ 2 < ((selecting 3 0 []).optionByte 0).toNat) := by
  refine ⟨⟨?_, ?_, ?_, ?_, offers_of (by decide)⟩, by decide⟩
  · rw [← (by decide +kernel : (selecting 1 0 (bytesOf 8 0x00A17C3309501E04)).findPlace (BitVec.ofNat 64
      ((selecting 1 0 (bytesOf 8 0x00A17C3309501E04)).argument 0 0 8)) = some 12)]
    exact .serial (by decide)
  · rw [← (by decide +kernel : (selecting 1 0 [1]).findPlace (BitVec.ofNat 64 ((selecting 1 0 [1]).argument 0 0 8)) = none)]
    exact .serial (by decide)
  · rw [← (by decide +kernel : (selecting 2 5 []).linkedPlace 5 = some 12)]
    exact .slot 5 (by decide) (by decide)
  · rw [← (by decide +kernel : (selecting 2 11 []).linkedPlace 11 = none)]
    exact .slot 11 (by decide) (by decide)

/-- A part winding down for cell 7. -/
def windingDown (p : Part) : Part := { p with ps := { p.ps with power := .windingDown, windDownCell := some 7 } }

/-- The part with its comparator and its report LOW, and so with fold at write enabled. -/
def low : Part :=
  { running with ps := { running.ps with comparatorLow := true, supplyLow := true }, hs := { running.hs with foldAtWrite := true } }

/-- SET_POWER with a state and a wake set. -/
def powering (p : Part) (power wake : Byte) : Part := offering p 0 .setPower 0 [power, wake]

theorem witness_SetPower :
    (Memory.wf (powering running 0 0).board = true ∧ (powering running 0 0).Offers (some .setPower) 0 ∧ (powering running 0 0).Loose 0 ∧
      (powering running 0 0).ps.windDownCell ≠ some 0 ∧
      (powering running 0 0).argumentByte 0 0 = 0) ∧
    ((powering running 1 0).Offers (some .setPower) 0 ∧ (powering running 1 0).argumentByte 0 0 = 1) ∧
    ((powering running 2 3).Offers (some .setPower) 0 ∧ (powering running 2 3).argumentByte 0 0 = 2 ∧
      ((powering running 2 3).argumentByte 0 1).toNat < 4 ∧ (powering running 2 3).ps.supplyLow = false ∧
      (powering running 2 3).ps.windDownCell = none) ∧
    ((powering (windingDown running) 2 3).Offers (some .setPower) 0 ∧ (powering (windingDown running) 2 3).Loose 0 ∧
      (powering (windingDown running) 2 3).Quiet ∧ (powering (windingDown running) 2 3).ps.windDownCell = some 7) ∧
    ((powering low 2 3).Offers (some .setPower) 0 ∧ (powering low 2 3).Loose 0 ∧ (powering low 2 3).ps.supplyLow = true ∧
      (powering low 2 3).hs.foldAtWrite = true ∧ ((powering low 2 3).argumentByte 0 1).toNat < 4) ∧
    2 < ((powering running 3 0).argumentByte 0 0).toNat ∧ 4 ≤ ((powering running 2 4).argumentByte 0 1).toNat :=
  ⟨⟨by decide, offers_of (by decide), loose_of (by decide), by decide, by decide⟩, ⟨offers_of (by decide), by decide⟩,
    ⟨offers_of (by decide), by decide, by decide, by decide, by decide⟩,
    ⟨offers_of (by decide), loose_of (by decide), quiet_of (by decide +kernel), by decide⟩,
    ⟨offers_of (by decide), loose_of (by decide), by decide⟩, by decide, by decide⟩

/-- The part with the lockout timer running. -/
def lockedOut : Part := { running with ps := { running.ps with lockoutRunning := true } }

theorem witness_ServiceRequests :
    ((offering lockedOut 0 .enterService 0 []).Quiet ∧ Memory.wf (offering lockedOut 0 .enterService 0 []).board = true ∧
      (offering lockedOut 0 .enterService 0 []).Offers (some .enterService) 0 ∧ lockedOut.ps.lockoutRunning = true) ∧
    ((offering (entering false) 0 .enterService 0 []).Quiet ∧ (offering (entering false) 0 .enterService 0 []).Offers (some .enterService) 0 ∧
      (entering false).ps.lockoutRunning = false ∧ (entering false).ps.checkOutstanding.isSome = true) ∧
    ((offering inService 0 .enterService 0 []).Quiet ∧ (offering inService 0 .enterService 0 []).Offers (some .enterService) 0 ∧
      inService.ps.checkOutstanding = none ∧ inService.ps.serviceMode = true) ∧
    ((offering running 0 .enterService 0 []).Quiet ∧ (offering running 0 .enterService 0 []).Offers (some .enterService) 0 ∧
      running.ps.serviceMode = false) ∧
    (offering inService 0 .leaveService 0 []).Offers (some .leaveService) 0 :=
  ⟨⟨quiet_of (by decide +kernel), by decide, offers_of (by decide), by decide⟩,
    ⟨quiet_of (by decide +kernel), offers_of (by decide), by decide, by decide⟩,
    ⟨quiet_of (by decide +kernel), offers_of (by decide), by decide, by decide⟩,
    ⟨quiet_of (by decide +kernel), offers_of (by decide), by decide⟩, offers_of (by decide)⟩

/-- SET_REFILL_MARGIN of 1 per mille with slot 11 in service past that margin, and slot 10 within it. -/
def margining : Part :=
  let p := (running.setSlot 11 (inServiceRow .depleted)).setSlot 10 (inServiceRow .depleted)
  let p := (p.setVolumes 11 { Volumes.blank with postEmpty := 440001 }).setVolumes 10 { Volumes.blank with postEmpty := 440000 }
  offering { p with ps := inService.ps } 0 .setRefillMargin 0 [1, 0]

theorem witness_RefillMargin : Memory.wf margining.board = true ∧ margining.Offers (some .setRefillMargin) 0 ∧ margining.ps.serviceMode = true ∧
    margining.Loose 0 ∧ margining.hs.foldAtWrite = false ∧ 1 = max 1 (min 500 (margining.argument 0 0 2)) ∧
    ((margining.slot 11).state.inServiceGroup = true ∧ (margining.slot 11).marginTested = true ∧
      marginVolume 1 (margining.slot 11).volumeClass < (margining.volumes 11).postEmpty) ∧
    ((margining.slot 10).state.inServiceGroup = true ∧
      (margining.volumes 10).postEmpty ≤ marginVolume 1 (margining.slot 10).volumeClass) :=
  ⟨by decide, offers_of (by decide), by decide, loose_of (by decide), by decide, by decide, by decide, by decide⟩

/-- Slot 11 has a single hold with a deferred join, slot 5 a commit hold with an ADVANCE_TALLY sent, slot 0 a commit hold that
awaits a receipt. -/
def heldBusy (p : Part) : Part :=
  let p := (p.setLink 11 (.held ⟨false, .identify, .awaiting, 0, some .readTally⟩)).setLink 0 (.held ⟨true, .advance 1, .awaitingReceipt, 1, none⟩)
  (holding p true (.advance 1) .awaiting).setCommit 5 { CommitRow.blank with unsettled := some ⟨1, 19⟩ }

theorem witness_WindDownEndsInSleep : Memory.wf (windingDown (heldBusy running)).board = true ∧
    (windingDown (heldBusy running)).windDownDone = true ∧ (windingDown (heldBusy running)).ps.windDownCell = some 7 ∧
    (windingDown (heldBusy running)).Loose 7 ∧ (windingDown (heldBusy running)).hs.foldAtWrite = false ∧
    (windingDown (heldBusy running)).link 11 = .held ⟨false, .identify, .awaiting, 0, some .readTally⟩ ∧
    (windingDown (heldBusy running)).link 5 = .held ⟨true, .advance 1, .awaiting, 0, none⟩ ∧
    (windingDown (heldBusy running)).link 0 = .held ⟨true, .advance 1, .awaitingReceipt, 1, none⟩ ∧
    ∀ h, (windingDown (heldBusy running)).link 1 ≠ .held h :=
  ⟨by decide, by decide, by decide, loose_of (by decide), by decide, by decide, by decide, by decide, fun h e => (by cases e)⟩

/-- R21, R14: slot 11, cut off by sleep with a deferred join, stands at the head of the bring-up class and at its tail; taken
at the wake it holds its engine with that join, and stands on the list no more (assumption 31). -/
theorem test_sleep_keeps_deferred_join :
    let p := (windingDown (heldBusy running)).setLink 3 (.waitingBringUp .identify none)
    let q := after { p with lp := { p.lp with bringUp := [3] } } .windDownComplete
    let r := after q (.contactCloses 8)
    (q.lp.bringUp = [11, 3, 11] ∧ q.link 11 = .waitingBringUp .identify (some .readTally)) ∧
    (r.lp.bringUp = [] ∧ r.link 11 = .held ⟨false, .identify, .ready, 0, some .readTally⟩ ∧ r.heldCount = 3) := by decide +kernel

/-- The part of `folding` before the supply goes low. -/
def foldable (s : Saver) : Part := { folding s [7] with hs := { (folding s [7]).hs with foldAtWrite := false } }

/-- The part of `folding` with the supply low. -/
def foldedLow : Part := { folding .idle [] with ps := low.ps }

theorem witness_SupplyChanges : (running.busy = false ∧ running.ps.comparatorLow = false) ∧ (low.busy = false ∧ low.ps.comparatorLow = true) ∧
    ((holding running true .readTally .ready).link 5 = .held ⟨true, .readTally, .ready, 0, none⟩ ∧
      ∀ h, (holding running true .readTally .awaiting).link 5 = .held h → h.commit = true → h.phase ≠ .ready) ∧
    ((foldable (.place 63 none 0 false false)).hs.saver ≠ .idle ∧
      (12 : Fin 64) ∈ (foldable (.place 63 none 0 false false)).heldPlaces) ∧
    ((foldable .idle).hs.saver = .idle ∧ (foldable .idle).asleep = false ∧
      (foldable .idle).heldPlaces = [12] ∧ ((foldable .idle).place 12).entry = some yellowEntry ∧
      (foldable .idle).SoleHolder 5 yellowEntry ∧ ((foldable .idle).commit 5).unsettled = none) ∧
    (foldedLow.busy = false ∧ foldedLow.ps.comparatorLow = true ∧ foldedLow.linkedPlace 5 = some 12 ∧
      (foldedLow.place 12).entry = some yellowEntry ∧ foldedLow.SoleHolder 5 yellowEntry) :=
  ⟨by decide, by decide, ⟨by decide, fun h e _ => by cases e; decide⟩, by decide +kernel,
    ⟨by decide, by decide, by decide +kernel, by decide, ⟨rfl, by decide, (folding_alone .idle [7]).alone⟩, by decide⟩,
    by decide, by decide, by decide +kernel, by decide, rfl, by decide, (folding_alone .idle []).alone⟩

/-- R56: place 12 is held by slot 0, without a link, and by slot 9, place 7 by slot 5: place 12 comes first. -/
theorem test_save_order_by_lowest_holder :
    let other : Identity := { yellow with serial := 5 }
    let p := (remembering running).setPlace 7 ⟨some { yellowEntry with serial := 5 }, false⟩
    let p := (p.setSlot 9 (inServiceRow .new)).setSlot 5 { inServiceRow .new with identity := some other }
    let p := p.setSlot 0 { inServiceRow .unreadable with state := .rejected, historyLink := false }
    p.heldPlaces = [12, 7] := by decide +kernel

theorem witness_SequencesBegin : (Part.reset.ps.sequence = some ⟨.powerOn, .waitGood⟩ ∧ Part.reset.ps.comparatorLow = true) ∧
    (running.busy = false ∧ running.ps.resetAsserted = false) ∧
    ({ running with ps := { running.ps with resetAsserted := true } }.Quiet) := ⟨by decide, by decide, quiet_of (by decide +kernel)⟩

theorem witness_SequencesBegin_resets : (running.BeginsReset .resetAsserted .resetLine true ∧ low.BeginsReset .resetAsserted .resetLine false) ∧
    { running with port := { running.port with heldLower := some 1 } }.BeginsReset (.controlByteOrder 0) .restart true ∧
    (sleeping.busy = false ∧ sleeping.ps.power = .sleep ∧ (windingDown running).ps.power = .windingDown ∧ running.ps.power = .run) ∧
    ((writingPage false).busy = false ∧ (writingPage false).hs.saver.settingsCell = some 2 ∧
      Memory.wf { writingPage false with rq := ⟨[], [⟨2, .settings⟩, ⟨3, .purge⟩], 0⟩ }.board = true) :=
  ⟨⟨.line (by decide), .line (by decide)⟩, .restart 0 _ (.inl rfl) (by decide), by decide, by decide⟩

theorem witness_TimersEnd : ((resetting .restart .fold).Quiet ∧ (resetting .restart .fold).ps.sequence = some ⟨.restart, .fold⟩ ∧
      (resetting .restart .fold).foldDrained = true) ∧
    (lockedOut.Quiet ∧ lockedOut.ps.lockoutRunning = true) ∧ (inService.Quiet ∧ inService.ps.idleRunning = true) ∧
    running.Quiet ∧ running.asleep = false :=
  ⟨⟨quiet_of (by decide +kernel), by decide, by decide +kernel⟩, ⟨quiet_of (by decide +kernel), by decide⟩,
    ⟨quiet_of (by decide +kernel), by decide⟩, quiet_of (by decide +kernel), by decide⟩

theorem witness_ClearingPoint : ((resetting .resetLine .awaitClear).ps.sequence = some ⟨.resetLine, .awaitClear⟩ ∧
      (resetting .resetLine .awaitClear).hs.saver = .idle ∧ (resetting .resetLine .awaitClear).ps.resetAsserted = false) ∧
    ((resetting .restart .awaitClear).ps.sequence = some ⟨.restart, .awaitClear⟩ ∧ (resetting .restart .awaitClear).hs.saver = .idle ∧
      ∀ i, ((resetting .restart .awaitClear).bay i).contactClosed = false) ∧
    ((seated (resetting .powerOn .awaitClear)).ps.sequence = some ⟨.powerOn, .awaitClear⟩ ∧
      (seated (resetting .powerOn .awaitClear)).hs.saver = .idle ∧ ((seated (resetting .powerOn .awaitClear)).bay 5).contactClosed = true ∧
      ((seated (resetting .powerOn .awaitClear)).bay 6).contactClosed = false ∧
      ∀ i, ((seated (resetting .powerOn .awaitClear)).bay i).contactClosed = true → slotBase 5 + 64 < slotBase i ∨ slotBase i + 64 ≤ slotBase 5 + 64) := by
  decide

/-- A part loading from NV with slot 5 settled. -/
def loading : Part :=
  ((resetting .powerOn .load).setSlot 5 { SlotRow.blank with state := .settling }).setBay 5
    { Bay.blank true with presence := .present, settledHeld := true }

theorem witness_LoadEndsTheSequence : loading.ps.sequence = some ⟨.powerOn, .load⟩ ∧ loading.nv.loadFault = true ∧
    loading.ps.comparatorLow = false ∧ (loading.slot 5).state = .settling ∧ (loading.bay 5).settledHeld = true := by decide +kernel

theorem witness_PowerLossKeepsNv : running.hs.saver = .idle ∧
    (saving running (.place 0 none 0 false false)).hs.saver = .place 0 none 0 false false ∧
    (entering false).hs.saver = .counter 1 false ∧
    (writingPage false).hs.saver = .settings ⟨2, 11, .calibration .default, false⟩ Page.blank false := ⟨rfl, rfl, rfl, rfl⟩

end Sys2Proof.Tests
end

-- ==== Bays: LinkList ====
section
/-! PROOFS. The link wait list (R14, R15): every operation of the model keeps every slot standing on the list as its link
state says. -/

set_option Elab.async false

namespace Sys2Proof.Machine
open Sys2Proof

/-! ## Standing on the wait list -/

/-- How often a slot with this link state stands in the bring-up class and in the commit class (R14, R15, R21). -/
def LinkState.standings : LinkState → Nat × Nat
  | .waitingBringUp _ Option.none => (1, 0)
  | .waitingBringUp _ (some _) => (2, 0)
  | .waitingCommit => (0, 1)
  | .none | .held _ => (0, 0)

/-- Every slot stands on the wait list as its link state says. -/
def LinkPool.Listed (l : LinkPool) : Prop :=
  ∀ i : Slot, (l.bringUp.count i, l.commit.count i) = LinkState.standings l.states[i]

theorem listedAs_iff (p : Part) (i : Slot) :
    p.ListedAs i ↔ (p.lp.bringUp.count i, p.lp.commit.count i) = (p.link i).standings := by
  unfold Part.ListedAs
  rcases p.link i with _ | ⟨op, _ | b⟩ | _ | h <;> rfl

theorem listed_iff (p : Part) : p.lp.Listed ↔ ∀ i, p.ListedAs i := forall_congr' fun i => (listedAs_iff p i).symm

theorem ListedAs.unlisted {p : Part} {i : Slot} (h : p.ListedAs i) (hs : (p.link i).standings = (0, 0)) : p.Unlisted i := by
  rw [listedAs_iff, hs, Prod.mk.injEq, List.count_eq_zero, List.count_eq_zero] at h
  exact ⟨h.1, h.2⟩

/-- One slot takes a new link state and stands on the list accordingly; every other slot stands as before. -/
theorem LinkPool.Listed.update {l m : LinkPool} {i : Slot} {r : LinkState} (h : l.Listed)
    (states : m.states = l.states.set i r) (self : (m.bringUp.count i, m.commit.count i) = r.standings)
    (others : ∀ j, j ≠ i → m.bringUp.count j = l.bringUp.count j ∧ m.commit.count j = l.commit.count j) : m.Listed := by
  intro j
  by_cases e : j = i
  · subst e; simpa [states] using self
  · have ne : i.val ≠ j.val := fun k => e (Fin.ext k.symm)
    rw [(others j e).1, (others j e).2, h j]
    simp [states, ne]

/-- `q` comes from `p` by work that keeps every slot standing on the wait list as its link state says. -/
structure Part.Lists (p q : Part) : Prop where
  listed : p.lp.Listed → q.lp.Listed

theorem Part.Lists.refl (p : Part) : Part.Lists p p := ⟨id⟩
theorem Part.Lists.trans {p q r : Part} (h : Part.Lists p q) (k : Part.Lists q r) : Part.Lists p r :=
  ⟨k.listed ∘ h.listed⟩
theorem Part.Lists.of_lp {p q : Part} (h : q.lp = p.lp) : Part.Lists p q := ⟨fun k => by rw [h]; exact k⟩

/-- Work that touches neither a link state nor the wait list leaves the link pool as it was. -/
theorem Part.Acts.lp_eq {t : Views} {p q : Part} (h : Part.Acts t p q)
    (k : (∀ i, t (.link i) = false) ∧ t .waitList = false := by exact ⟨fun _ => rfl, rfl⟩) : q.lp = p.lp := by
  obtain ⟨hb, hc⟩ := h.same .waitList k.2
  have hs : q.lp.states = p.lp.states := Vector.ext fun n hn => (h.same (.link ⟨n, hn⟩) (k.1 _)).symm
  cases hp : p.lp; cases hq : q.lp
  simp_all

theorem Part.Acts.lists {t : Views} {p q : Part} (h : Part.Acts t p q)
    (k : (∀ i, t (.link i) = false) ∧ t .waitList = false := by exact ⟨fun _ => rfl, rfl⟩) : Part.Lists p q :=
  .of_lp (h.lp_eq k)

theorem Part.Lists.foldl {α : Type} {f : Part → α → Part} (h : ∀ p x, Part.Lists p (f p x)) (l : List α) (p : Part) :
    Part.Lists p (l.foldl f p) := by
  induction l generalizing p with
  | nil => exact .refl p
  | cons x rest ih => exact (h p x).trans (ih (f p x))

theorem Part.Lists.forSlots {f : Part → Slot → Part} (h : ∀ p i, Part.Lists p (f p i)) (p : Part) :
    Part.Lists p (p.forSlots f) := .foldl h allSlots p

theorem raise_lists (p : Part) (c : NoticeClass) : Part.Lists p (p.raise c) := .of_lp rfl
theorem updBay_lists (p : Part) (i : Slot) (f : Bay → Bay) : Part.Lists p (p.updBay i f) := .of_lp rfl
theorem updSlot_lists (p : Part) (i : Slot) (f : SlotRow → SlotRow) : Part.Lists p (p.updSlot i f) := .of_lp rfl
theorem updCommit_lists (p : Part) (i : Slot) (f : CommitRow → CommitRow) : Part.Lists p (p.updCommit i f) := .of_lp rfl
theorem complete_lists (p : Part) (c : CellNo) (r : Result) (d : List Field) : Part.Lists p (p.complete c r d) := .of_lp rfl

theorem withStore_lists (p : Part) (h : HistoryStore) : Part.Lists p { p with hs := h } := .of_lp rfl
theorem withPort_lists (p : Part) (r : Port) : Part.Lists p { p with port := r } := .of_lp rfl
theorem withPower_lists (p : Part) (s : PowerSupply) : Part.Lists p { p with ps := s } := .of_lp rfl

/-! ## Joins, takes and the ends of holds -/

/-- A slot whose standing is the same with its new link state keeps the list. -/
theorem setLink_lists (p : Part) (i : Slot) (r : LinkState) (h : r.standings = (p.link i).standings) :
    Part.Lists p (p.setLink i r) :=
  ⟨fun k => k.update rfl ((k i).trans h.symm) fun _ _ => ⟨rfl, rfl⟩⟩

theorem placeBringUp_lists {p q : Part} {i : Slot} {op : LinkOp} (h : p.placeBringUp i op = some q) : Part.Lists p q := by
  refine ⟨fun k => ?_⟩
  have ki := k i
  unfold Part.placeBringUp at h
  split at h
  case h_1 hl =>
    cases h
    rw [show p.lp.states[i] = LinkState.none from hl] at ki
    refine k.update rfl ?_ fun j e => ⟨by simp [e.symm], rfl⟩
    simpa [LinkState.standings] using ki
  case h_2 => cases h
  case h_3 hl =>
    cases h
    rw [show p.lp.states[i] = LinkState.waitingCommit from hl] at ki
    refine k.update rfl ?_ fun j e => ⟨by simp [e.symm], List.count_erase_of_ne e⟩
    simp only [LinkState.standings, Prod.mk.injEq] at ki
    simp [LinkState.standings, ki]
  case h_4 hl =>
    split at h <;> cases h
    exact (setLink_lists p i _ (by rw [hl]; rfl)).listed k

theorem placeCommit_lists (p : Part) (i : Slot) : Part.Lists p (p.placeCommit i) := by
  refine ⟨fun k => ?_⟩
  have ki := k i
  unfold Part.placeCommit
  split
  case h_1 hl =>
    rw [show p.lp.states[i] = LinkState.none from hl] at ki
    refine k.update rfl ?_ fun j e => ⟨rfl, by simp [e.symm]⟩
    simpa [LinkState.standings] using ki
  all_goals exact k

theorem testPlace_lists (p : Part) (i : Slot) : Part.Lists p (p.testPlace i) := by
  unfold Part.testPlace
  split
  · exact placeCommit_lists p i
  · exact .refl p

theorem releaseReport_lists (p : Part) (i : Slot) : Part.Lists p (p.releaseReport i) :=
  (examineFlush_acts p i).lists.trans (testPlace_lists _ i)

/-- A slot that stands once on the commit class and is taken from it. -/
theorem takeCommit_listed {l : LinkPool} {i : Slot} {rest : List Slot} (k : l.Listed) (hc : l.commit = i :: rest)
    (r : LinkState) (hr : r.standings = (0, 0)) :
    LinkPool.Listed ⟨l.states.set i r, l.bringUp, rest⟩ := by
  have ki := k i
  refine k.update rfl ?_ fun j e => ⟨rfl, by simp [hc, e.symm]⟩
  rw [hc, List.count_cons_self] at ki
  rw [hr]
  rcases hs : l.states[i] with _ | ⟨op, _ | b⟩ | _ | h <;> rw [hs] at ki <;>
    simp only [LinkState.standings, Prod.mk.injEq] at ki ⊢ <;> omega

/-- A hold that has been opened for a slot from the commit class, or has ended at once with no operation. -/
theorem openCommitHold_cases (p : Part) (i : Slot) :
    (∃ op, p.openCommitHold i = p.setLink i (.held ⟨true, op, .ready, 0, none⟩)) ∨
      p.openCommitHold i = (p.setLink i .none).releaseReport i := by
  unfold Part.openCommitHold
  split
  · split
    · exact .inl ⟨_, rfl⟩
    · exact .inr rfl
  · split
    · exact .inl ⟨_, rfl⟩
    · exact .inr rfl

theorem takeHeadOfList_lists (p : Part) : Part.Lists p p.takeHeadOfList := by
  refine ⟨fun k => ?_⟩
  unfold Part.takeHeadOfList
  split
  case h_1 i rest hb =>
    have ki := k i
    rw [hb, List.count_cons_self] at ki
    unfold Part.openSingleHold
    split
    case h_1 op behind hl =>
      rw [show p.lp.states[i] = LinkState.waitingBringUp op behind from hl] at ki
      have commit : p.lp.commit.count i = 0 := by
        rcases behind with _ | b <;> simp only [LinkState.standings, Prod.mk.injEq] at ki <;> exact ki.2
      refine k.update rfl ?_ fun j e => ⟨?_, rfl⟩
      · exact Prod.ext (List.count_eq_zero.2 (not_mem_leaveBringUp _ i _)) commit
      · rw [hb, List.count_cons_of_ne e.symm]
        exact List.count_filter (by simpa using e)
    case h_2 hl => rw [show p.lp.states[i] = LinkState.none from hl] at ki; simp [LinkState.standings] at ki
    case h_3 hl => rw [show p.lp.states[i] = LinkState.waitingCommit from hl] at ki; simp [LinkState.standings] at ki
    case h_4 h hl => rw [show p.lp.states[i] = LinkState.held h from hl] at ki; simp [LinkState.standings] at ki
  case h_2 hb =>
    split
    case h_1 i rest hc =>
      rcases openCommitHold_cases { p with lp := { p.lp with commit := rest } } i with ⟨op, e⟩ | e <;> rw [e]
      · exact takeCommit_listed k hc _ rfl
      · exact (releaseReport_lists _ i).listed (takeCommit_listed k hc _ rfl)
    case h_2 => exact k

theorem takeUpTo_lists (n : Nat) (p : Part) : Part.Lists p (Part.takeUpTo n p) := by
  induction n generalizing p with
  | zero => exact .refl p
  | succ n ih =>
    unfold Part.takeUpTo
    split
    · exact (takeHeadOfList_lists p).trans (ih _)
    · exact .refl p

theorem takeFromList_lists (p : Part) : Part.Lists p p.takeFromList := takeUpTo_lists _ p

theorem testCommit_lists (p : Part) (i : Slot) : Part.Lists p (p.testCommit i) :=
  (testPlace_lists p i).trans (takeFromList_lists _)

theorem testAll_lists (p : Part) : Part.Lists p p.testAll := .forSlots testCommit_lists p

/-- A slot with a hold leaves it for its deferred join, or for NONE. -/
theorem placeDeferred_lists {p : Part} {i : Slot} {h : Hold} (hl : p.link i = .held h) (d : Option LinkOp) :
    Part.Lists p (p.placeDeferred i d) := by
  refine ⟨fun k => ?_⟩
  unfold Part.placeDeferred
  cases d with
  | none => exact (setLink_lists p i .none (by rw [hl]; rfl)).listed k
  | some op =>
    have ki := k i
    rw [show p.lp.states[i] = LinkState.held h from hl] at ki
    refine k.update rfl ?_ fun j e => ⟨by simp [e.symm], rfl⟩
    simpa [LinkState.standings] using ki

theorem endHold_lists (p : Part) (i : Slot) : Part.Lists p (p.endHold i) := by
  unfold Part.endHold
  split
  case h_1 h hl => exact (placeDeferred_lists hl _).trans ((releaseReport_lists _ i).trans (takeFromList_lists _))
  all_goals exact .refl p

theorem continueHold_lists (p : Part) (i : Slot) (success : Bool) : Part.Lists p (p.continueHold i success) := by
  unfold Part.continueHold
  split
  case h_1 h hl =>
    split
    · exact setLink_lists p i _ (by rw [hl]; rfl)
    · exact endHold_lists p i
  all_goals exact .refl p

/-- A slot that waits in the bring-up class leaves it, with every join it has there. -/
theorem leaveBringUp_lists {p : Part} {i : Slot} {op : LinkOp} {behind : Option LinkOp}
    (hl : p.link i = .waitingBringUp op behind) : Part.Lists p (p.leaveBringUp i .none) := by
  refine ⟨fun k => ?_⟩
  have ki := k i
  rw [show p.lp.states[i] = LinkState.waitingBringUp op behind from hl] at ki
  have commit : p.lp.commit.count i = 0 := by
    rcases behind with _ | b <;> simp only [LinkState.standings, Prod.mk.injEq] at ki <;> exact ki.2
  exact k.update rfl (Prod.ext (List.count_eq_zero.2 (not_mem_leaveBringUp p i _)) commit) fun j e =>
    ⟨List.count_filter (by simpa using e), rfl⟩

end Sys2Proof.Machine
end

-- ==== Bays: LinkListOperations ====
section
set_option Elab.async false
namespace Sys2Proof.Machine
open Sys2Proof

/-! ## The slot manager's operations -/

theorem reportToCommit_lists (p : Part) (i : Slot) : Part.Lists p (p.reportToCommit i) := by
  unfold Part.reportToCommit
  extract_lets lost q
  have h : Part.Lists p q := by
    unfold q
    split
    · exact (updCommit_lists p i _).trans (recordCommit_acts _ i).lists
    · split
      · exact (updCommit_lists p i _).trans (recordCommit_acts _ i).lists
      · exact .refl p
  exact h.trans ((examineFlush_acts q i).lists.trans (testCommit_lists _ i))

theorem reportSlot_lists (p : Part) (i : Slot) : Part.Lists p (p.reportSlot i) :=
  (recordIdentity_acts p i).lists.trans ((raise_lists _ _).trans (reportToCommit_lists _ i))

/-- A change of a slot's row and the report of it. -/
theorem updSlot_report_lists (p : Part) (i : Slot) (f : SlotRow → SlotRow) : Part.Lists p ((p.updSlot i f).reportSlot i) :=
  (updSlot_lists p i f).trans (reportSlot_lists _ i)

theorem changeState_lists (p : Part) (i : Slot) (s : SlotState) : Part.Lists p (p.changeState i s) :=
  updSlot_report_lists p i _

theorem joinWindDown_lists (p : Part) (i : Slot) : Part.Lists p (p.joinWindDown i) := by
  unfold Part.joinWindDown
  split
  · exact updCommit_lists p i _
  · exact .refl p

theorem finishReverify_lists (p : Part) (i : Slot) (r : Result) (data : List Field) :
    Part.Lists p (p.finishReverify i r data) := by
  unfold Part.finishReverify
  split
  · exact .of_lp rfl
  · exact .refl p

theorem abandonSlotWork_lists (p : Part) (i : Slot) : Part.Lists p (p.abandonSlotWork i) := by
  unfold Part.abandonSlotWork
  extract_lets q r
  refine Part.Lists.trans (q := r) (.of_lp rfl) ?_
  split
  case h_1 op behind hl => exact leaveBringUp_lists hl
  case h_2 h hl => exact setLink_lists r i _ (by rw [hl]; rfl)
  all_goals exact .refl r

theorem finishCounterfeit_lists (p : Part) (i : Slot) : Part.Lists p (p.finishCounterfeit i) := by
  unfold Part.finishCounterfeit
  split
  · exact finishReverify_lists p i _ _
  · extract_lets t _ q
    exact Part.Lists.trans (q := q) (.of_lp rfl) (finishReverify_lists q i _ _)
  · exact .refl p

theorem carryOutEscalation_lists (p : Part) (i : Slot) (next : Verdict) : Part.Lists p (p.carryOutEscalation i next) := by
  unfold Part.carryOutEscalation
  extract_lets p1 p2 p3 p4 p5
  have h3 : Part.Lists p p3 := Part.Lists.trans (q := p2) (.of_lp rfl)
    ((recordEscalation_acts p2 i).lists.trans ((raise_lists _ _).trans (raise_lists _ _)))
  have h4 : Part.Lists p3 p4 := by
    unfold p4
    split
    · exact abandonSlotWork_lists p3 i
    · exact (changeLinkedEntry_acts p3 i _).lists
  have h5 : Part.Lists p4 p5 := (reselectIfActive_acts p4 i).lists.trans (reportToCommit_lists _ i)
  refine h3.trans (h4.trans (h5.trans ?_))
  split
  · exact finishCounterfeit_lists p5 i
  · exact .refl p5

theorem escalate_lists (p : Part) (i : Slot) (next : Verdict) : Part.Lists p (p.escalate i next) := by
  unfold Part.escalate
  split
  · split
    · exact carryOutEscalation_lists p i next
    · exact .refl p
  · exact .refl p

theorem testMargin_lists (p : Part) (i : Slot) : Part.Lists p (p.testMargin i) := by
  unfold Part.testMargin
  split
  · exact escalate_lists p i _
  · exact .refl p

theorem returnToService_lists (p : Part) (i : Slot) : Part.Lists p (p.returnToService i) := by
  unfold Part.returnToService
  extract_lets q
  exact (updSlot_lists p i _).trans ((joinWindDown_lists q i).trans (reportSlot_lists _ i))

theorem becomeLinkLost_lists (p : Part) (i : Slot) : Part.Lists p (p.becomeLinkLost i) :=
  updSlot_report_lists p i _

theorem rejectUnreadable_lists (p : Part) (i : Slot) : Part.Lists p (p.rejectUnreadable i) := by
  unfold Part.rejectUnreadable
  extract_lets q r
  have h : Part.Lists q r := (recordIdentity_acts q i).lists.trans
    ((raise_lists _ _).trans ((raise_lists _ _).trans (reportToCommit_lists _ i)))
  exact (updSlot_lists p i _).trans (h.trans (finishReverify_lists r i _ _))

theorem suspendReverify_lists (p : Part) (i : Slot) : Part.Lists p (p.suspendReverify i) :=
  (updSlot_lists p i _).trans ((becomeLinkLost_lists _ i).trans (finishReverify_lists _ i _ _))

theorem attemptFailed_lists (p : Part) (i : Slot) : Part.Lists p (p.attemptFailed i) := by
  unfold Part.attemptFailed
  extract_lets n q
  split
  · exact .of_lp rfl
  · split
    · exact (updSlot_lists p i _).trans (suspendReverify_lists q i)
    · exact (updSlot_lists p i _).trans (rejectUnreadable_lists q i)

theorem joinBringUp_lists (p : Part) (i : Slot) (op : LinkOp) : Part.Lists p (p.joinBringUp i op) := by
  unfold Part.joinBringUp
  split
  case h_1 q hq => exact (placeBringUp_lists hq).trans (takeFromList_lists q)
  case h_2 =>
    split
    · exact .of_lp rfl
    · exact attemptFailed_lists p i

theorem linkFailed_lists (p : Part) (i : Slot) : Part.Lists p (p.linkFailed i) := by
  unfold Part.linkFailed
  split
  · extract_lets n q
    split
    · exact (updSlot_lists p i _).trans (becomeLinkLost_lists q i)
    · exact .of_lp rfl
  · exact .refl p

theorem unitsApplied_lists (p : Part) (i : Slot) (tally : Nat) : Part.Lists p (p.unitsApplied i tally) := by
  unfold Part.unitsApplied
  extract_lets n p1 p2
  exact Part.Lists.trans (q := p1) (.of_lp rfl) ((changeLinkedEntry_acts p1 i _).lists.trans
    ((recordCommit_acts p2 i).lists.trans ((examineFlush_acts _ i).lists.trans (testCommit_lists _ i))))

theorem resolveInDoubt_lists (p : Part) (i : Slot) (tally : Nat) : Part.Lists p (p.resolveInDoubt i tally) := by
  unfold Part.resolveInDoubt
  split
  · exact unitsApplied_lists p i tally
  · split
    · exact (setInDoubt_acts p i 0).lists.trans (testCommit_lists _ i)
    · exact (setInDoubt_acts p i 0).lists.trans (escalate_lists _ i _)

theorem compareTally_lists (p : Part) (i : Slot) (tally : Nat) : Part.Lists p (p.compareTally i tally) := by
  unfold Part.compareTally
  split
  · exact resolveInDoubt_lists p i tally
  · split
    · exact .refl p
    · exact escalate_lists p i _

theorem identified_lists (p : Part) (i : Slot) (id : Identity) : Part.Lists p (p.identified i id) :=
  (updSlot_report_lists p i _).trans (queueDigest_acts _ _ _).lists

/-- The queue of a CHALLENGE_CHECK leaves the link pool as it is. -/
theorem queueChallengeCheck_lists (p : Part) (i : Slot) (tally : Nat) : Part.Lists p (p.queueChallengeCheck i tally) :=
  (queueDigest_acts p _ _).lists

theorem challenged_lists (p : Part) (i : Slot) (r : Quad) : Part.Lists p (p.challenged i r) :=
  (updSlot_report_lists p i _).trans (queueChallengeCheck_lists _ i _)

theorem reverifyChallenged_lists (p : Part) (i : Slot) (r : Quad) : Part.Lists p (p.reverifyChallenged i r) :=
  (updSlot_lists p i _).trans ((updCommit_lists _ i _).trans (joinBringUp_lists _ i _))

theorem reverifyRead_lists (p : Part) (i : Slot) (tally : Nat) : Part.Lists p (p.reverifyRead i tally) :=
  (updSlot_lists p i _).trans (queueChallengeCheck_lists _ i _)

theorem resumeReverify_lists (p : Part) (i : Slot) : Part.Lists p (p.resumeReverify i) := updSlot_report_lists p i _

theorem probeOutcome_lists (p : Part) (i : Slot) (o : LinkOutcome) : Part.Lists p (p.probeOutcome i o) := by
  unfold Part.probeOutcome
  split
  · exact (resumeReverify_lists p i).trans (reverifyChallenged_lists _ i _)
  · split
    · exact (resumeReverify_lists p i).trans (reverifyRead_lists _ i _)
    · exact (compareTally_lists p i _).trans (returnToService_lists _ i)
  all_goals exact .of_lp rfl

theorem outcomeFailed_lists (p : Part) (i : Slot) (o : LinkOutcome) : Part.Lists p (p.outcomeFailed i o) := by
  unfold Part.outcomeFailed
  split
  · exact attemptFailed_lists p i
  · exact .refl p

theorem slotOutcome_lists (p : Part) (i : Slot) (o : LinkOutcome) : Part.Lists p (p.slotOutcome i o) := by
  unfold Part.slotOutcome
  split
  · exact .refl p
  · split
    · exact identified_lists p i _
    · exact challenged_lists p i _
    · exact reverifyChallenged_lists p i _
    · exact reverifyRead_lists p i _
    · exact probeOutcome_lists p i _
    all_goals first | exact outcomeFailed_lists p i _ | exact .refl p

/-- R19: a cut-off link state is NONE and its slot leaves the list. -/
theorem cutLink_lists (p : Part) (i : Slot) : Part.Lists p (p.cutLink i) := by
  unfold Part.cutLink
  split
  case h_1 => exact .refl p
  case h_2 op behind hl => exact leaveBringUp_lists hl
  case h_3 hl =>
    refine ⟨fun k => ?_⟩
    have ki := k i
    rw [show p.lp.states[i] = LinkState.waitingCommit from hl] at ki
    refine k.update rfl ?_ fun j e => ⟨rfl, List.count_erase_of_ne e⟩
    simp only [LinkState.standings, Prod.mk.injEq] at ki
    simp [LinkState.standings, ki]
  case h_4 h hl =>
    exact (setLink_lists p i .none (by rw [hl]; rfl)).trans
      ((doubtUnsettled_acts _ i).lists.trans (takeFromList_lists _))

theorem removalHandling_lists (p : Part) (i : Slot) : Part.Lists p (p.removalHandling i) := by
  unfold Part.removalHandling
  extract_lets c v q
  exact (changeLinkedEntry_acts p i _).lists.trans ((updCommit_lists q i _).trans (recordCommit_acts _ i).lists)

theorem emptySlot_lists (p : Part) (i : Slot) : Part.Lists p (p.emptySlot i) := by
  unfold Part.emptySlot
  extract_lets q _ r
  exact Part.Lists.trans (q := r) (.of_lp rfl) ((recordSlot_acts r i).lists.trans
    ((raise_lists _ _).trans (reportToCommit_lists _ i)))

theorem removal_lists (p : Part) (i : Slot) : Part.Lists p (p.removal i) := by
  unfold Part.removal
  extract_lets p1 p2 p3 cell p4
  have h1 : Part.Lists p p1 := (endFlush_acts p i _).lists.trans (cutLink_lists _ i)
  have h3 : Part.Lists p2 p3 := by
    unfold p3
    split
    · exact removalHandling_lists p2 i
    · exact .refl p2
  have h4 : Part.Lists p3 p4 := (emptySlot_lists p3 i).trans (dropSource_acts _ i).lists
  have h2 : Part.Lists p1 p2 := (updSlot_lists p1 i _).trans (cancelDigest_acts _ _).lists
  refine (h1.trans (h2.trans (h3.trans h4))).trans ?_
  cases cell
  · exact .refl p4
  · exact complete_lists p4 _ _ _

theorem completeBringUp_lists (p : Part) (i : Slot) (r : Resolution) : Part.Lists p (p.completeBringUp i r) := by
  unfold Part.completeBringUp
  extract_lets rejected p1 p2 p3 p4 p5 p6 p7
  have h2 : Part.Lists p p2 := (updSlot_lists p i _).trans
    ((recordIdentity_acts p1 i).lists.trans (raise_lists _ _))
  have h3 : Part.Lists p2 p3 := by
    unfold p3
    split <;> exact .of_lp rfl
  have h4 : Part.Lists p3 p4 := by
    unfold p4
    split
    · exact Part.Lists.trans (q := p3.setVolumes i _) (.of_lp rfl) (recordVolumes_acts _ i).lists
    · exact (enterVolumes_acts p3 i _ _ _).lists
  have h6 : Part.Lists p4 p6 := Part.Lists.trans (q := p5) (.of_lp rfl) (recordCommit_acts p5 i).lists
  have h7 : Part.Lists p6 p7 := by
    unfold p7
    split
    · exact .refl p6
    · exact (reselectFor_acts p6 i).lists.trans (joinWindDown_lists _ i)
  exact h2.trans (h3.trans (h4.trans (h6.trans (h7.trans ((reportToCommit_lists p7 i).trans (finishReverify_lists _ i _ _))))))

theorem escalateHolders_lists (p : Part) (i : Slot) (serial : Quad) : Part.Lists p (p.escalateHolders i serial) := by
  refine .forSlots (fun q j => ?_) p
  split
  · exact escalate_lists q j _
  · exact .refl q

theorem resolve_lists (p : Part) (i : Slot) (m : Bool) : Part.Lists p (p.resolve i m) := by
  unfold Part.resolve
  extract_lets q
  refine Part.Lists.trans (q := q) (updSlot_report_lists p i _) ?_
  split
  · rename_i id _
    have hd := decideVerdict_acts q.countSighting i id m
    generalize q.countSighting.decideVerdict i id m = d at hd ⊢
    obtain ⟨d, r⟩ := d
    have hc : Part.Lists q (d.completeBringUp i r) :=
      (countSighting_acts q).lists.trans (hd.lists.trans (completeBringUp_lists d i r))
    dsimp only
    split
    · exact hc.trans (escalateHolders_lists _ i _)
    · exact hc
  · exact .refl q

theorem reverifyChecked_lists (p : Part) (i : Slot) (m : Bool) : Part.Lists p (p.reverifyChecked i m) := by
  unfold Part.reverifyChecked
  split
  · extract_lets tally q
    exact (compareTally_lists p i _).trans ((returnToService_lists _ i).trans (finishReverify_lists q i _ _))
  · exact escalate_lists p i _

/-! ## Holds -/

theorem startOperation_lists (p : Part) (i : Slot) (h : Hold) (hl : p.link i = .held h) :
    Part.Lists p (p.startOperation i h) := by
  unfold Part.startOperation
  extract_lets frame
  split
  · exact (updCommit_lists p i _).trans (setLink_lists _ i _ (by rw [Part.updCommit, Part.setCommit_link, hl]; rfl))
  all_goals exact setLink_lists p i _ (by rw [hl]; rfl)

theorem openingRead_lists (p : Part) (i : Slot) (tally : Nat) : Part.Lists p (p.openingRead i tally) := by
  unfold Part.openingRead
  extract_lets resolved q
  have h : Part.Lists p q := by
    unfold q
    split
    · exact .refl p
    · exact resolveInDoubt_lists p i tally
  exact h.trans (Part.Lists.trans (q := q.linkSucceeded i) (.of_lp rfl) (continueHold_lists _ i _))

theorem advanceAccepted_lists (p : Part) (i : Slot) (h : Hold) (tally : Nat) (receipt : Quad) (hl : p.link i = .held h) :
    Part.Lists p (p.advanceAccepted i h tally receipt) := by
  unfold Part.advanceAccepted
  split
  · split
    · exact (setLink_lists p i _ (by rw [hl]; rfl)).trans (queueDigest_acts _ _ _).lists
    · exact Part.Lists.trans (q := (p.clearUnsettled i).linkSucceeded i) (.of_lp rfl)
        ((escalate_lists _ i _).trans ((examineFlush_acts _ i).lists.trans (continueHold_lists _ i _)))
  · exact endHold_lists p i

theorem advanceFull_lists (p : Part) (i : Slot) : Part.Lists p (p.advanceFull i) := by
  unfold Part.advanceFull
  extract_lets p1 p2 p3
  exact Part.Lists.trans (q := p1) (.of_lp rfl) ((changeLinkedEntry_acts p1 i _).lists.trans
    (((recordCommit_acts p2 i).lists.trans ((raise_lists _ _).trans (updSlot_lists _ i _))).trans
      ((examineFlush_acts p3 i).lists.trans (continueHold_lists _ i _))))

theorem commitFailed_lists (p : Part) (i : Slot) (o : LinkOutcome) : Part.Lists p (p.commitFailed i o) := by
  unfold Part.commitFailed
  extract_lets q
  have h : Part.Lists p q := by
    unfold q
    split
    · exact .of_lp rfl
    · exact (doubtUnsettled_acts p i).lists
  exact h.trans ((endFlush_acts q i _).lists.trans ((linkFailed_lists _ i).trans (endHold_lists _ i)))

theorem commitOutcome_lists (p : Part) (i : Slot) (h : Hold) (o : LinkOutcome) (hl : p.link i = .held h) :
    Part.Lists p (p.commitOutcome i h o) := by
  unfold Part.commitOutcome
  split
  · exact openingRead_lists p i _
  · exact advanceAccepted_lists p i h _ _ hl
  · exact advanceFull_lists p i
  iterate 4 exact commitFailed_lists p i _
  all_goals exact endHold_lists p i

theorem advanceConfirmed_lists (p : Part) (i : Slot) (a : Advance) (tally : Nat) :
    Part.Lists p (p.advanceConfirmed i a tally) := by
  unfold Part.advanceConfirmed
  extract_lets p1 p2 p3
  exact Part.Lists.trans (q := p1) (.of_lp rfl) ((changeLinkedEntry_acts p1 i _).lists.trans
    (((recordCommit_acts p2 i).lists.trans (updSlot_lists _ i _)).trans
      ((examineFlush_acts p3 i).lists.trans ((testCommit_lists _ i).trans (continueHold_lists _ i _)))))

theorem receiptChecked_lists (p : Part) (i : Slot) (tally : Nat) (m : Bool) :
    Part.Lists p (p.receiptChecked i tally m) := by
  unfold Part.receiptChecked
  split
  · split
    · exact advanceConfirmed_lists p i _ tally
    · exact Part.Lists.trans (q := (p.clearUnsettled i).linkSucceeded i) (.of_lp rfl)
        ((escalate_lists _ i _).trans (continueHold_lists _ i _))
  · exact .refl p

theorem deliverOutcome_lists (p : Part) (i : Slot) (o : LinkOutcome) : Part.Lists p (p.deliverOutcome i o) := by
  unfold Part.deliverOutcome
  split
  case h_1 h hl =>
    split
    · exact commitOutcome_lists p i h o hl
    · exact (endHold_lists p i).trans (slotOutcome_lists _ i o)
  all_goals exact .refl p

theorem operationEnds_lists (p : Part) (i : Slot) (h : Hold) (o : LinkOutcome) (hl : p.link i = .held h) :
    Part.Lists p (p.operationEnds i h o) := by
  unfold Part.operationEnds
  split
  · exact setLink_lists p i _ (by rw [hl]; rfl)
  · exact deliverOutcome_lists p i o

theorem judged_lists (p : Part) (i : Slot) (h : Hold) (o : LinkOutcome) (low : Bool) (hl : p.link i = .held h) :
    Part.Lists p (p.judged i h o low) := (updBay_lists p i _).trans (operationEnds_lists _ i h o hl)

theorem deliverHeld_lists (p : Part) (i : Slot) : Part.Lists p (p.deliverHeld i) := by
  unfold Part.deliverHeld
  split
  · split
    · exact deliverOutcome_lists p i _
    all_goals exact .refl p
  all_goals exact .refl p

theorem responseReceived_lists {p q : Part} {i : Slot} {command : LinkOp} {payload : List Byte} {crc : Byte} {low : Bool}
    (hq : p.responseReceived i command payload crc low = some q) : Part.Lists p q := by
  unfold Part.responseReceived at hq
  split at hq
  case h_1 h hl =>
    split at hq
    · split at hq <;> cases hq
      exact judged_lists p i h _ low hl
    all_goals cases hq
  all_goals cases hq

/-! ## Waking, SLEEP entry, the supply and resets -/

theorem wake_lists (p : Part) : Part.Lists p p.wake := by
  unfold Part.wake
  extract_lets _ q
  exact Part.Lists.trans (q := q.linesOn) (.of_lp rfl) ((takeFromList_lists _).trans (testAll_lists _))

theorem presenceChanged_lists (p : Part) : Part.Lists p p.presenceChanged := by
  unfold Part.presenceChanged
  split
  · exact wake_lists p
  · exact .refl p

theorem endIdleCommit_lists (p : Part) (i : Slot) : Part.Lists p (p.endIdleCommit i) := by
  unfold Part.endIdleCommit
  split
  · split
    · exact endHold_lists p i
    · exact .refl p
  all_goals exact .refl p

theorem windDownLeaves_lists (p : Part) : Part.Lists p p.windDownLeaves := .forSlots (fun q i => updCommit_lists q i _) p

theorem supersede_lists (p : Part) : Part.Lists p p.supersede := by
  unfold Part.supersede
  split <;> exact .of_lp rfl

theorem beginWindDown_lists (p : Part) : Part.Lists p p.beginWindDown := by
  unfold Part.beginWindDown
  extract_lets _ q
  have h : Part.Lists p q := Part.Lists.trans (q := { p with ps := { p.ps with power := .windingDown } }) (.of_lp rfl)
    (windDownLeaves_lists _)
  refine h.trans (Part.Lists.trans (.forSlots (fun r i => ?_) q) (testAll_lists _))
  split <;> exact .of_lp rfl

theorem reportSupplyLow_lists (p : Part) : Part.Lists p p.reportSupplyLow := by
  unfold Part.reportSupplyLow
  extract_lets _ p1 p2
  have h1 : Part.Lists p p1 := (withPower_lists p _).trans (raise_lists _ _)
  have h2 : Part.Lists p1 p2 := .forSlots endIdleCommit_lists p1
  exact h1.trans (h2.trans ((withStore_lists p2 _).trans (reorderSaveQueue_acts _).lists))

theorem reportSupplyGood_lists (p : Part) : Part.Lists p p.reportSupplyGood := by
  unfold Part.reportSupplyGood
  extract_lets _ p1 p2 _ p3
  have h1 : Part.Lists p p1 := (withPower_lists p _).trans (raise_lists _ _)
  have h2 : Part.Lists p1 p2 := (unfoldAll_acts p1).lists
  have h3 : Part.Lists p2 p3 := withStore_lists p2 _
  exact h1.trans (h2.trans (h3.trans ((takeFromList_lists p3).trans (testAll_lists _))))

theorem settled_lists (p : Part) (i : Slot) : Part.Lists p (p.settled i) := by
  unfold Part.settled
  split
  · exact (updSlot_lists p i _).trans ((changeState_lists _ i _).trans (joinBringUp_lists _ i _))
  · exact .refl p

theorem releaseSettled_lists (p : Part) (b : Slot) : Part.Lists p (p.releaseSettled b) := by
  unfold Part.releaseSettled
  split
  · exact (updBay_lists p b _).trans (settled_lists _ b)
  · exact .refl p

theorem sampleContact_lists (p : Part) (b : Slot) : Part.Lists p (p.sampleContact b) := by
  unfold Part.sampleContact
  split
  · exact (updBay_lists p b _).trans (changeState_lists _ b _)
  · exact .refl p

/-- A link pool with no hold, no waiting slot and an empty list. -/
theorem listed_idle {l : LinkPool} (states : ∀ i : Slot, l.states[i].standings = (0, 0)) (bringUp : l.bringUp = [])
    (commit : l.commit = []) : l.Listed := fun i => by rw [states, bringUp, commit]; rfl

theorem atReset_listed (l : LinkPool) (keep : Bool) : (l.atReset keep).Listed := by
  refine listed_idle (fun i => ?_) rfl rfl
  simp only [LinkPool.atReset, Fin.getElem_fin, Vector.getElem_map]
  unfold LinkState.atReset
  split
  · split <;> rfl
  all_goals rfl

end Sys2Proof.Machine
end

-- ==== Bays: SleepEntry ====
section
set_option Elab.async false
namespace Sys2Proof.Machine
open Sys2Proof

/-! ## SLEEP entry (R21, R171) -/

theorem mem_allSlots (i : Slot) : i ∈ allSlots := by revert i; decide
theorem allSlots_nodup : allSlots.Nodup := by decide

/-- A selection of slots holds each of its slots once. -/
theorem count_filter_allSlots (f : Slot → Bool) (i : Slot) : (allSlots.filter f).count i = if f i then 1 else 0 := by
  split
  · exact List.count_eq_one_of_mem (allSlots_nodup.filter f) (List.mem_filter.2 ⟨mem_allSlots i, by assumption⟩)
  · exact List.count_eq_zero.2 fun h => by simp_all

/-- R21: what SLEEP entry leaves of a link state. -/
def LinkState.atSleep : LinkState → LinkState
  | .held h =>
    if h.commit = false then .waitingBringUp h.op h.deferred
    else if h.phase = .awaitingReceipt then .held h
    else
      match h.deferred with
      | some op => .waitingBringUp op Option.none
      | Option.none => .none
  | .none => .none
  | .waitingBringUp op behind => .waitingBringUp op behind
  | .waitingCommit => .waitingCommit

/-- R21, assumption 31: SLEEP entry places the slot's deferred join at the tail of the bring-up class. -/
def LinkState.joinsTail : LinkState → Bool
  | .held h => h.deferred.isSome && !(h.commit && decide (h.phase = .awaitingReceipt))
  | .none | .waitingBringUp _ _ | .waitingCommit => false

/-- The standing that SLEEP entry gives a slot: at the head, where it was, and at the tail. -/
theorem atSleep_standings (l : LinkState) : l.atSleep.standings =
    ((if l.singleHold then 1 else 0) + l.standings.1 + (if l.joinsTail then 1 else 0), l.standings.2) := by
  rcases l with _ | ⟨op, _ | b⟩ | _ | ⟨c, op, ph, n, d⟩ <;> try rfl
  cases c
  · cases d <;> rfl
  · by_cases e : ph = .awaitingReceipt <;> cases d <;>
      simp [LinkState.atSleep, LinkState.standings, LinkState.singleHold, LinkState.joinsTail, e]

/-- R124: in SLEEP no slot is commit-due. -/
theorem commitDue_asleep {p : Part} (h : p.asleep = true) (i : Slot) : p.commitDue i = false := by
  have hp : p.ps.power = .sleep := by simpa [Part.asleep] using h
  simp [Part.commitDue, h, hp]

theorem releaseReport_lp_asleep {p : Part} (h : p.asleep = true) (i : Slot) : (p.releaseReport i).lp = p.lp := by
  have hx := examineFlush_acts p i
  have ha : (p.examineFlush i).asleep = true := by rw [Part.asleep, hx.ps_eq]; exact h
  rw [Part.releaseReport, Part.testPlace, commitDue_asleep ha]
  exact hx.lp_eq

theorem cutForSleep_ps (p : Part) (i : Slot) : (p.cutForSleep i).ps = p.ps := (cutForSleep_acts p i).ps_eq

/-- R21: what SLEEP entry does to the link pool for one slot. -/
theorem cutForSleep_lp {p : Part} (h : p.asleep = true) (i : Slot) :
    (p.cutForSleep i).lp = ⟨p.lp.states.set i (p.link i).atSleep,
      p.lp.bringUp ++ (if (p.link i).joinsTail then [i] else []), p.lp.commit⟩ := by
  have same : ∀ l : LinkState, p.link i = l → p.lp = ⟨p.lp.states.set i l, p.lp.bringUp ++ [], p.lp.commit⟩ := by
    rintro l rfl
    simp [Part.link]
  unfold Part.cutForSleep
  split
  case h_1 g hl =>
    rw [hl]
    split
    case isTrue hc =>
      have hc : g.commit = false := by simpa using hc
      have tail : (g.deferred.toList.map fun _ => i) = if (LinkState.held g).joinsTail then [i] else [] := by
        cases hd : g.deferred <;> simp [LinkState.joinsTail, hc, hd]
      simp [Part.putBack, LinkState.atSleep, hc, tail]
    case isFalse hc =>
      have hc : g.commit = true := by simpa using hc
      split
      case isTrue hp =>
        simp only [LinkState.atSleep, LinkState.joinsTail, hc, hp]
        simpa using same _ hl
      case isFalse hp =>
        have hd := doubtUnsettled_acts (p.placeDeferred i g.deferred) i
        have asleep : ((p.placeDeferred i g.deferred).doubtUnsettled i).asleep = true := by
          rw [Part.asleep, hd.ps_eq, (placeDeferred_acts p i g.deferred).ps_eq]; exact h
        rw [releaseReport_lp_asleep asleep, hd.lp_eq]
        cases e : g.deferred <;>
          simp [Part.placeDeferred, Part.setLink, LinkState.atSleep, LinkState.joinsTail, hc, hp, e]
  all_goals
    rename_i hl
    rw [hl]
    simpa [LinkState.atSleep, LinkState.joinsTail] using same _ hl

/-- R21: what SLEEP entry does to the link pool for some slots. -/
theorem foldl_cutForSleep_lp (l : List Slot) (nodup : l.Nodup) {p : Part} (h : p.asleep = true) :
    (∀ i, (l.foldl Part.cutForSleep p).link i = if i ∈ l then (p.link i).atSleep else p.link i) ∧
    (l.foldl Part.cutForSleep p).lp.bringUp = p.lp.bringUp ++ l.filter (fun i => (p.link i).joinsTail) ∧
    (l.foldl Part.cutForSleep p).lp.commit = p.lp.commit := by
  induction l generalizing p with
  | nil => simp
  | cons x rest ih =>
    obtain ⟨hx, hr⟩ := List.nodup_cons.1 nodup
    have e := cutForSleep_lp h x
    have link : ∀ i, (p.cutForSleep x).link i = if i = x then (p.link x).atSleep else p.link i := fun i => by
      rw [Part.link, e]
      by_cases k : i = x
      · subst k; simp
      · have : x.val ≠ i.val := fun q => k (Fin.ext q.symm)
        simp [k, this, Part.link]
    obtain ⟨h1, h2, h3⟩ := ih hr (p := p.cutForSleep x) (by rw [Part.asleep, cutForSleep_ps]; exact h)
    refine ⟨fun i => ?_, ?_, ?_⟩
    · rw [List.foldl_cons, h1, link]
      by_cases k : i = x
      · subst k; simp [hx]
      · simp [k]
    · rw [List.foldl_cons, h2, e]
      have : rest.filter (fun i => ((p.cutForSleep x).link i).joinsTail) = rest.filter (fun i => (p.link i).joinsTail) :=
        List.filter_congr fun i hi => by rw [link, if_neg fun k : i = x => hx (k ▸ hi)]
      rw [this, List.filter_cons]
      by_cases k : (p.link x).joinsTail <;> simp [k]
    · rw [List.foldl_cons, h3, e]

/-- R21, R171: the link pool after SLEEP entry. -/
theorem enterSleep_lp (p : Part) :
    (∀ i, p.enterSleep.link i = (p.link i).atSleep) ∧
    p.enterSleep.lp.bringUp = (allSlots.filter fun i => (p.link i).singleHold) ++ p.lp.bringUp ++
      allSlots.filter (fun i => (p.link i).joinsTail) ∧
    p.enterSleep.lp.commit = p.lp.commit := by
  unfold Part.enterSleep
  extract_lets _ q back r
  have h := foldl_cutForSleep_lp allSlots allSlots_nodup (p := q) rfl
  rw [← show r = allSlots.foldl Part.cutForSleep q from rfl] at h
  clear_value r
  obtain ⟨h1, h2, h3⟩ := h
  refine ⟨fun i => (h1 i).trans (if_pos (mem_allSlots i)), ?_, h3⟩
  show back ++ r.lp.bringUp = _
  rw [h2, ← List.append_assoc]
  rfl

theorem enterSleep_lists (p : Part) : Part.Lists p p.enterSleep := by
  obtain ⟨h1, h2, h3⟩ := enterSleep_lp p
  refine ⟨fun k i => ?_⟩
  have ki := k i
  rw [show p.lp.states[i] = p.link i from rfl, Prod.ext_iff] at ki
  rw [h2, h3, show p.enterSleep.lp.states[i] = _ from h1 i, atSleep_standings]
  simp only [List.count_append, count_filter_allSlots, ← ki.1, ← ki.2]

end Sys2Proof.Machine
end

-- ==== Bays: LinkListEvents ====
section
set_option Elab.async false
namespace Sys2Proof.Machine
open Sys2Proof

/-! ## The rest of the operations that touch the link pool -/

theorem contactClosed_lists (p : Part) (b : Slot) : Part.Lists p (p.contactClosed b) := by
  have change : ∀ s t, Part.Lists p (p.presenceBecomes b s t) := fun s t =>
    (updBay_lists p b _).trans (presenceChanged_lists _)
  unfold Part.contactClosed
  split
  · refine (change .settling .settle).trans ?_
    unfold Part.contactMade
    split
    · exact .refl _
    · split
      · exact changeState_lists _ b _
      · exact .refl _
  · exact (change _ _).trans (deliverHeld_lists _ b)
  all_goals exact .refl p

theorem contactOpened_lists (p : Part) (b : Slot) : Part.Lists p (p.contactOpened b) := by
  have change : ∀ s t, Part.Lists p (p.presenceBecomes b s t) := fun s t =>
    (updBay_lists p b _).trans (presenceChanged_lists _)
  unfold Part.contactOpened
  split
  · refine (change .absent .stopped).trans ?_
    unfold Part.settleAbandoned
    split
    · exact .refl _
    · split
      · exact changeState_lists _ b _
      · exact .refl _
  · exact change _ _
  all_goals exact .refl p

theorem declareSettled_lists (p : Part) (b : Slot) : Part.Lists p (p.declareSettled b) := by
  unfold Part.declareSettled
  split
  · exact settled_lists p b
  · exact updBay_lists p b _
  all_goals exact .refl p

theorem declareRemoval_lists (p : Part) (b : Slot) : Part.Lists p (p.declareRemoval b) := by
  unfold Part.declareRemoval
  split
  · exact .refl p
  · exact removal_lists p b

theorem derived_lists (p : Part) (i : Slot) (k : Quad) : Part.Lists p (p.derived i k) := by
  unfold Part.derived
  extract_lets nonce p1 p2
  have h1 : Part.Lists p p1 := (nonceDrawn_acts p).lists.trans (updSlot_lists _ i _)
  have h2 : Part.Lists p1 p2 := updCommit_lists p1 i _
  exact h1.trans (h2.trans ((reportSlot_lists p2 i).trans (joinBringUp_lists _ i _)))

theorem challengeChecked_lists (p : Part) (i : Slot) (m : Bool) : Part.Lists p (p.challengeChecked i m) := by
  unfold Part.challengeChecked
  split
  · exact resolve_lists p i m
  · exact reverifyChecked_lists p i m
  all_goals exact .refl p

theorem challengeChecked_acts (p : Part) (i : Slot) (m : Bool) : Part.Acts .bringUps p (p.challengeChecked i m) := by
  unfold Part.challengeChecked
  split
  · exact resolve_acts p i m
  · exact (reverifyChecked_acts p i m).ofOne
  all_goals exact .refl _ p

/-! ### The charging procedure -/

theorem addUncommitted_lists (p : Part) (i : Slot) (n : Nat) : Part.Lists p (p.addUncommitted i n) := by
  unfold Part.addUncommitted
  extract_lets p1 p2
  have h2 : Part.Lists p1 p2 := by
    unfold p2
    split
    · split
      · exact (dirtyPlace_acts p1 _).lists
      · exact .refl p1
    · exact .refl p1
  exact (updCommit_lists p i _).trans (h2.trans ((examineFlush_acts p2 i).lists.trans (testCommit_lists _ i)))

theorem crossLow_lists (p : Part) (i : Slot) : Part.Lists p (p.crossLow i) := by
  unfold Part.crossLow
  extract_lets v
  split
  · exact (setVolumes_acts p i _ (t := .only (.volumes i)) (by simp [Views.only])).lists.trans (raise_lists _ _)
  · exact .refl p

theorem crossSpent_lists (p : Part) (i : Slot) : Part.Lists p (p.crossSpent i) := by
  unfold Part.crossSpent
  extract_lets v
  split
  · exact (setVolumes_acts p i _ (t := .only (.volumes i)) (by simp [Views.only])).lists.trans (raise_lists _ _)
  · exact .refl p

theorem updVolumes_lists (p : Part) (i : Slot) (f : Volumes → Volumes) : Part.Lists p (p.updVolumes i f) := .of_lp rfl
theorem updChannel_lists (p : Part) (c : Channel) (f : ChannelRow → ChannelRow) : Part.Lists p (p.updChannel c f) := .of_lp rfl
theorem withAccounting_lists (p : Part) (a : Accounting) : Part.Lists p { p with au := a } := .of_lp rfl

theorem placeShare_lists (p : Part) (i : Slot) (fell post : Nat) : Part.Lists p (p.placeShare i fell post) := by
  unfold Part.placeShare
  split
  · exact (recordVolumes_acts p i).lists
  · extract_lets p1 p2 p3 p4
    have h2 : Part.Lists p1 p2 := addUncommitted_lists p1 i _
    have h3 : Part.Lists p2 p3 := by
      unfold p3
      split
      · exact (crossLow_lists p2 i).trans (crossSpent_lists _ i)
      · exact .refl p2
    have h4 : Part.Lists p3 p4 := by
      unfold p4
      split
      · exact testMargin_lists p3 i
      · exact .refl p3
    exact (updVolumes_lists p i _).trans (h2.trans (h3.trans (h4.trans (recordShare_acts p4 i).lists)))

theorem placeWhole_lists (p : Part) (i : Slot) (x : Nat) : Part.Lists p (p.placeWhole i x) := placeShare_lists p i _ _

theorem chargeTandem_lists (p : Part) (c : Channel) (a b : Slot) (x : Nat) : Part.Lists p (p.chargeTandem c a b x) := by
  unfold Part.chargeTandem
  extract_lets stop share p1 p2
  have h1 : Part.Lists p p1 := placeShare_lists p a _ _
  split
  · split
    · exact h1.trans (updChannel_lists p1 c _)
    · exact h1.trans ((updChannel_lists p1 c _).trans (placeWhole_lists p2 b _))
  · exact h1

theorem chargeSource_lists (p : Part) (c : Channel) (a : Slot) (x : Nat) : Part.Lists p (p.chargeSource c a x) := by
  unfold Part.chargeSource
  split
  · split
    · split
      · exact chargeTandem_lists p c a _ x
      · exact placeWhole_lists p a x
    · exact placeWhole_lists p a x
  · exact placeShare_lists p a _ _

theorem charge_lists (p : Part) (c : Channel) (x m : Nat) : Part.Lists p (p.charge c x m) := by
  unfold Part.charge
  split
  · exact .refl p
  · split
    · exact (updChannel_lists p c _).trans (raise_lists _ _)
    · exact (updVolumes_lists p _ _).trans (chargeSource_lists _ c _ x)

theorem setChannel_lists (p : Part) (c : Channel) (r : ChannelRow) : Part.Lists p (p.setChannel c r) := .of_lp rfl

theorem checkSequence_lists (p : Part) (b : BankNo) : Part.Lists p (p.checkSequence b) := by
  unfold Part.checkSequence
  extract_lets seq gap gaps _ q
  split
  · exact (withAccounting_lists p _).trans (raise_lists q _)
  · exact withAccounting_lists p _

theorem accountChannel_lists (p : Part) (b : BankNo) (c : Channel) : Part.Lists p (p.accountChannel b c) := by
  unfold Part.accountChannel
  extract_lets r block volume maintenance _ q
  exact (setChannel_lists p c _).trans (charge_lists q c _ _)

theorem accountBank_lists (p : Part) (b : BankNo) : Part.Lists p (p.accountBank b) := by
  unfold Part.accountBank
  extract_lets p1 p2 last _ p3 p4 p5
  have h2 : Part.Lists p1 p2 := .forSlots (fun q c => by
    split
    · exact accountChannel_lists q b c
    · exact .refl q) p1
  have h3 : Part.Lists p2 p3 := withAccounting_lists p2 _
  have h4 : Part.Lists p3 p4 := by
    unfold p4
    split
    · exact (pageBoundary_acts p3).lists
    · exact .refl p3
  have h5 : Part.Lists p4 p5 := (setBankState_acts p4 b _).lists
  exact (checkSequence_lists p b).trans (h2.trans (h3.trans (h4.trans (h5.trans (withAccounting_lists p5 _)))))

theorem accountPurge_lists (p : Part) (cell : CellNo) (mask : Half) (volumes : Vector Nat 12) (clamped : Bool) :
    Part.Lists p (p.accountPurge cell mask volumes clamped) := by
  unfold Part.accountPurge
  extract_lets p1 _ p2
  have h1 : Part.Lists p p1 := .forSlots (fun q c => by
    split
    · exact (updChannel_lists q c _).trans (charge_lists _ c _ _)
    · exact .refl q) p
  have h2 : Part.Lists p1 p2 := withAccounting_lists p1 _
  exact h1.trans (h2.trans (complete_lists p2 _ _ _))

theorem testMargins_lists (p : Part) : Part.Lists p p.testMargins := by
  refine .forSlots (fun q i => ?_) p
  split
  · exact testMargin_lists q i
  · exact .refl q

/-! ### Engine writes -/

theorem landWord_lists (p : Part) (a : Nat) (x y : Byte) : Part.Lists p (p.landWord a x y) := .of_lp rfl
theorem dropCounted_lists (p : Part) : Part.Lists p p.dropCounted := .of_lp rfl

theorem cellArrives_lists (p : Part) (c : CellNo) (k : Byte) : Part.Lists p (p.cellArrives c k) := by
  unfold Part.cellArrives
  extract_lets p1 _ p2
  have h : Part.Lists p p2 := .of_lp rfl
  split
  · exact h.trans (wake_lists p2)
  · exact h

theorem bankArrives_lists (p : Part) (b : BankNo) (flags : Byte) : Part.Lists p (p.bankArrives b flags) := by
  unfold Part.bankArrives
  extract_lets p1 _ p2
  have h : Part.Lists p p2 := .of_lp rfl
  split
  · exact h.trans (wake_lists p2)
  · exact h

theorem writeCellState_lists (p : Part) (c : CellNo) (x k : Byte) : Part.Lists p (p.writeCellState c x k) := by
  unfold Part.writeCellState
  split
  · exact dropCounted_lists p
  · split
    · exact .of_lp rfl
    · split
      · exact landWord_lists p _ _ _
      · exact dropCounted_lists p
  all_goals
    split
    · exact landWord_lists p _ _ _
    · split
      · exact cellArrives_lists p c k
      · exact dropCounted_lists p

theorem writeBankState_lists (p : Part) (b : BankNo) (x k : Byte) : Part.Lists p (p.writeBankState b x k) := by
  unfold Part.writeBankState
  split
  · exact bankArrives_lists p b k
  · split
    · exact landWord_lists p _ _ _
    · exact dropCounted_lists p

theorem engineWrite_lists (p : Part) (a : Nat) (x y : Byte) : Part.Lists p (p.engineWrite a x y) := by
  unfold Part.engineWrite
  split
  · unfold Part.writeCell
    split
    · exact writeCellState_lists p _ x y
    · split
      · exact dropCounted_lists p
      · exact landWord_lists p _ x y
  · split
    · unfold Part.writeBank
      split
      · exact .of_lp rfl
      all_goals
        split
        · exact writeBankState_lists p _ x y
        · exact landWord_lists p _ x y
    · split
      · exact dropCounted_lists p
      · exact .refl p

/-! ### Resets -/

theorem abortParked_lists (p : Part) : Part.Lists p p.abortParked := (abortParked_acts p).lists

/-- R22: at the start of a reset the list is emptied. -/
theorem abandonWork_lists (p : Part) (keep : Bool) : Part.Lists p (p.abandonWork keep) := by
  unfold Part.abandonWork
  extract_lets _ _ _ _ q
  have h : Part.Lists p q := ⟨fun _ => atReset_listed p.lp keep⟩
  exact h.trans ((cancelDigest_acts q _).lists.trans (abortParked_lists _))

theorem beginReset_lists (p : Part) (kind : SequenceKind) (fold : Bool) : Part.Lists p (p.beginReset kind fold) := by
  unfold Part.beginReset
  extract_lets p1 _ p2 p3 _ p4
  have h1 : Part.Lists p p1 := by
    unfold p1 Part.powerAtReset
    split <;> exact .of_lp rfl
  have h3 : Part.Lists p2 p3 := abandonWork_lists p2 fold
  have h4 : Part.Lists p p4 := h1.trans ((withPower_lists p1 _).trans (h3.trans (withStore_lists p3 _)))
  split
  · exact h4.trans (reorderSaveQueue_acts p4).lists
  · exact h4

theorem resetLine_lists (p : Part) : Part.Lists p p.resetLine := by
  unfold Part.resetLine
  split
  · exact beginReset_lists p _ _
  all_goals first | exact .refl p | exact withPower_lists p _

theorem writeControl_lists (p : Part) (u : Half) : Part.Lists p (p.writeControl u) := by
  unfold Part.writeControl
  extract_lets v _ p1
  have h1 : Part.Lists p p1 := withPort_lists p _
  have h2 : Part.Lists p1 (p1.writeByteOrder v) := by
    unfold Part.writeByteOrder
    split
    · split
      · exact .refl p1
      · exact (withPort_lists p1 _).trans (rewriteRecords_acts _ _).lists
    · exact .refl p1
  have h3 : Part.Lists (p1.writeByteOrder v) ((p1.writeByteOrder v).writeMaskPolarity v) :=
    withPort_lists _ _
  refine h1.trans (h2.trans (h3.trans ?_))
  unfold Part.writeRestart
  split
  · exact beginReset_lists _ _ _
  · exact .refl _

theorem reset_listed : Part.reset.lp.Listed := by
  refine listed_idle (fun i => ?_) rfl rfl
  revert i; decide

/-- R175: at the clearing point every link state is NONE and the list is empty. -/
theorem cleared_lists (p : Part) (kind : SequenceKind) : Part.Lists p (p.cleared kind) := ⟨fun _ => reset_listed⟩

theorem clearingPoint_lists (p : Part) (kind : SequenceKind) : Part.Lists p (p.clearingPoint kind) := by
  unfold Part.clearingPoint
  exact (cleared_lists p kind).trans (.forSlots sampleContact_lists _)

theorem powerLost_lists (p : Part) : Part.Lists p p.powerLost := ⟨fun _ => reset_listed⟩

theorem loadStored_lists (p : Part) : Part.Lists p p.loadStored := by
  unfold Part.loadStored
  extract_lets store q
  have h : Part.Lists p q := .of_lp rfl
  exact h.trans ((Part.Acts.forSlots (fun r c => recordChannel_acts r c) q).lists.trans (recordPartInfo_acts _).lists)

theorem endSequence_lists (p : Part) : Part.Lists p p.endSequence := by
  unfold Part.endSequence
  extract_lets _ p1 p2 p3
  have h2 : Part.Lists p1 p2 := by
    unfold p2
    split
    · exact reportSupplyLow_lists p1
    · exact .refl p1
  have h3 : Part.Lists p2 p3 := by
    unfold p3
    split
    · exact raise_lists p2 _
    · exact .refl p2
  exact (withPower_lists p _).trans (h2.trans (h3.trans (.forSlots releaseSettled_lists p3)))

/-! ### Requests -/

theorem park_lists (p : Part) (c : CellNo) (w : ParkedWork) : Part.Lists p (p.park c w) := .of_lp rfl

theorem doSetCommit_lists (c : CellNo) (p : Part) : Part.Lists p (p.doSetCommit c) := by
  unfold Part.doSetCommit
  extract_lets given burst quantum _ q
  split
  · exact complete_lists p _ _ _
  · exact Part.Lists.trans (q := q) (.of_lp rfl) ((complete_lists q _ _ _).trans (testAll_lists _))

theorem doCommitNow_lists (c : CellNo) (p : Part) : Part.Lists p (p.doCommitNow c) := by
  unfold Part.doCommitNow
  split
  · unfold Part.commitEvery
    extract_lets causes taken q
    split
    · exact complete_lists p _ _ _
    · have h : Part.Lists p q := (park_lists p _ _).trans (.foldl (fun r i => updCommit_lists r i _) _ _)
      exact h.trans (.foldl testCommit_lists _ q)
  · split
    · unfold Part.commitOne
      split
      · exact complete_lists p _ _ _
      · exact complete_lists p _ _ _
      · exact (park_lists p _ _).trans ((updCommit_lists _ _ _).trans (testCommit_lists _ _))
    · exact complete_lists p _ _ _

theorem parkReverify_lists (p : Part) (c : CellNo) (i : Slot) : Part.Lists p (p.parkReverify c i) :=
  (park_lists p _ _).trans (updSlot_lists _ i _)

theorem beginReverify_lists (p : Part) (i : Slot) : Part.Lists p (p.beginReverify i) := by
  unfold Part.beginReverify
  extract_lets nonce q
  exact ((nonceDrawn_acts p).lists.trans (updSlot_lists _ i _)).trans ((reportSlot_lists q i).trans (joinBringUp_lists _ i _))

theorem repeatBringUp_lists (p : Part) (i : Slot) : Part.Lists p (p.repeatBringUp i) := by
  unfold Part.repeatBringUp
  extract_lets q1 q2
  have h1 : Part.Lists p q1 := by
    unfold q1
    split
    · exact removalHandling_lists p i
    · exact .refl p
  have h2 : Part.Lists q1 q2 := (updSlot_lists q1 i _).trans
    ((setVolumes_acts _ i _ (t := .only (.volumes i)) (by simp [Views.only])).lists.trans (recordVolumes_acts _ i).lists)
  exact h1.trans (h2.trans ((reportSlot_lists q2 i).trans (joinBringUp_lists _ i _)))

theorem doReverify_lists (c : CellNo) (p : Part) : Part.Lists p (p.doReverify c) := by
  unfold Part.doReverify
  split
  · exact complete_lists p _ _ _
  · split
    iterate 9 exact complete_lists p _ _ _
    · exact (parkReverify_lists p c _).trans (beginReverify_lists _ _)
    · exact (parkReverify_lists p c _).trans (repeatBringUp_lists _ _)

theorem doSetPower_lists (c : CellNo) (p : Part) : Part.Lists p (p.doSetPower c) := by
  have power : ∀ st, Part.Lists p (p.powerTo c st) := fun st => by
    unfold Part.powerTo
    extract_lets q _ r
    have h : Part.Lists p q := (supersede_lists p).trans (windDownLeaves_lists _)
    exact h.trans ((withPower_lists q _).trans ((complete_lists _ _ _ _).trans (testAll_lists r)))
  have hold : ∀ (q : Part) w, Part.Lists q (q.holdWindDown c w) := fun q w => (withPower_lists q _).trans (park_lists _ _ _)
  have sleep : ∀ w, Part.Lists p (p.requestSleep c w) := fun w => by
    unfold Part.requestSleep
    split
    · exact complete_lists p _ _ _
    · split
      · exact complete_lists p _ _ _
      · split
        · exact (supersede_lists p).trans (hold _ w)
        · exact (hold p w).trans (beginWindDown_lists _)
  unfold Part.doSetPower
  extract_lets requested
  split
  · exact power _
  · split
    · exact power _
    · split
      · exact sleep _
      · exact complete_lists p _ _ _

theorem doSetRefillMargin_lists (c : CellNo) (p : Part) : Part.Lists p (p.doSetRefillMargin c) := by
  unfold Part.doSetRefillMargin
  extract_lets given margin _ q
  exact (withAccounting_lists p _).trans ((complete_lists _ _ _ _).trans (testMargins_lists q))

theorem completeWindDown_lists (p : Part) (c : CellNo) : Part.Lists p (p.completeWindDown c) :=
  (withPower_lists p _).trans ((complete_lists _ _ _ _).trans ((windDownLeaves_lists _).trans (enterSleep_lists _)))

end Sys2Proof.Machine
end

-- ==== Bays: EveryCommand ====
section
set_option Elab.async false
namespace Sys2Proof.Machine
open Sys2Proof

/-! ## What every command does -/

/-- `q` comes from `p` by work within `touched` that keeps the wait list. -/
structure Part.Does (touched : Views) (p q : Part) : Prop extends Part.Keeps touched p q, Part.Lists p q

theorem Part.Acts.does {t : Views} {p q : Part} (h : Part.Acts t p q) (l : Part.Lists p q) : Part.Does t p q :=
  ⟨h.toKeeps, l⟩

/-- Work that touches neither a link state nor the wait list. -/
theorem Part.Acts.doesQuietly {t : Views} {p q : Part} (h : Part.Acts t p q)
    (k : (∀ i, t (.link i) = false) ∧ t .waitList = false := by exact ⟨fun _ => rfl, rfl⟩) : Part.Does t p q :=
  ⟨h.toKeeps, h.lists k⟩

theorem Part.Does.mono {t u : Views} {p q : Part} (h : Part.Does t p q) (k : Views.le t u) : Part.Does u p q :=
  ⟨h.toKeeps.mono k, h.toLists⟩

/-- The command answers a next state, leaves the queue of commands as it is, and works on the part within its views. -/
def Answers (c : Instr) (s : State) (o : Host.Outcome State Fault Refusal) : Prop :=
  ∃ t, o = .next t ∧ t.pending = s.pending ∧ s.part.Does (Views.ofCommand c) t.part

theorem finish_lists (before p : Part) : Part.Lists p (Part.finish before p) := (finish_acts before p).lists

theorem answers_unchanged (c : Instr) (s : State) : Answers c s s.unchanged :=
  ⟨s, rfl, rfl, (Part.Acts.refl _ _).toKeeps, .refl _⟩

theorem answers_after {c : Instr} {s : State} {p : Part} (h : Part.Does (Views.ofEffect c) s.part p) :
    Answers c s (s.after p) :=
  ⟨_, rfl, rfl, (h.toKeeps.mono (Views.le_and_left _ _)).trans ((finish_acts _ _).toKeeps.mono (Views.le_and_right _ _)),
    h.toLists.trans (finish_lists _ _)⟩

theorem answers_ite {c : Instr} {s : State} {b : Prop} [Decidable b] {x y : Host.Outcome State Fault Refusal}
    (hx : Answers c s x) (hy : Answers c s y) : Answers c s (if b then x else y) := by
  split
  · exact hx
  · exact hy

theorem answers_afterSome {c : Instr} {s : State} {o : Option Part}
    (h : ∀ p, o = some p → Part.Does (Views.ofEffect c) s.part p) : Answers c s (s.afterSome o) := by
  unfold State.afterSome
  split
  · exact answers_after (h _ rfl)
  · exact answers_unchanged c s

/-! ### Bays -/

/-- A change of a bay's contact, presence or gap. -/
theorem updBay_does (p : Part) (b : Slot) (f : Bay → Bay) (h : (f (p.bay b)).selected = (p.bay b).selected)
    (k : (f (p.bay b)).current = (p.bay b).current) : Part.Does (.bayEvent b) p (p.updBay b f) :=
  (updBay_acts_event p b f h k).does (updBay_lists p b f)

theorem execContactCloses_answers (b : Slot) (s : State) : Answers (.contactCloses b) s (execContactCloses b s) := by
  refine answers_ite (answers_unchanged _ s) (answers_after ?_)
  split
  · exact ((updBay_acts_event s.part b _ rfl rfl).trans (contactClosed_acts _ b)).does
      ((updBay_lists _ b _).trans (contactClosed_lists _ b))
  · exact updBay_does s.part b _ rfl rfl

theorem execContactOpens_answers (b : Slot) (s : State) : Answers (.contactOpens b) s (execContactOpens b s) := by
  refine answers_ite (answers_after ?_) (answers_unchanged _ s)
  split
  · exact ((updBay_acts_event s.part b _ rfl rfl).trans (contactOpened_acts _ b)).does
      ((updBay_lists _ b _).trans (contactOpened_lists _ b))
  · exact updBay_does s.part b _ rfl rfl

theorem presenceBecomes_does (p : Part) (b : Slot) (s : Presence) (t : BayTimer) :
    Part.Does (.bayEvent b) p (p.presenceBecomes b s t) :=
  (presenceBecomes_acts p b s t).does ((updBay_lists p b _).trans (presenceChanged_lists _))

theorem Part.Does.trans {t : Views} {p q r : Part} (h : Part.Does t p q) (k : Part.Does t q r) : Part.Does t p r :=
  ⟨h.toKeeps.trans k.toKeeps, h.toLists.trans k.toLists⟩

theorem execSettleTimerExpiry_answers (b : Slot) (s : State) :
    Answers (.settleTimerExpiry b) s (execSettleTimerExpiry b s) :=
  answers_ite (answers_after ((updBay_does s.part b _ rfl rfl).trans ((presenceBecomes_does _ b _ _).trans
    ((declareSettled_acts _ b).does (declareSettled_lists _ b))))) (answers_unchanged _ s)

theorem declareRemoval_acts (p : Part) (b : Slot) : Part.Acts (.bringUpOf b) p (p.declareRemoval b) := by
  unfold Part.declareRemoval
  split
  · exact .refl _ p
  · exact removal_acts p b

theorem execRemovalTimerExpiry_answers (b : Slot) (s : State) :
    Answers (.removalTimerExpiry b) s (execRemovalTimerExpiry b s) :=
  answers_ite (answers_after ((updBay_does s.part b _ rfl rfl).trans ((presenceBecomes_does _ b _ _).trans
    (((declareRemoval_acts _ b).mono (bringUp_le_bay b)).does (declareRemoval_lists _ b))))) (answers_unchanged _ s)

theorem endPatternPeriod_acts (p : Part) (b : Slot) :
    Part.Acts (Views.and (.only (.current b)) (.only .dimming)) p (p.endPatternPeriod b) := by
  have h : Part.Acts (Views.and (.only (.current b)) (.only .dimming)) p (p.updBay b fun r => { r with current := r.selected }) :=
    setBay_acts p b _ (fun _ => rfl) (fun _ => ⟨rfl, rfl, rfl⟩) (fun _ => rfl) (fun _ => rfl)
      (fun h => by simp [Views.and, Views.only] at h)
  refine h.trans (.raw fun v hv => ?_)
  cases v <;> first | rfl | exact ⟨rfl, rfl⟩ | exact ⟨rfl, rfl, rfl⟩ | simp [Views.and, Views.only] at hv

theorem execPatternPeriodEnd_answers (b : Slot) (s : State) :
    Answers (.patternPeriodEnd b) s (execPatternPeriodEnd b s) :=
  answers_ite (answers_unchanged _ s) (answers_after (endPatternPeriod_acts s.part b).doesQuietly)

/-! ### The bay link -/

/-- A hold of a slot changes its phase. -/
theorem setHold_does (p : Part) (i : Slot) (h h' : Hold) (hl : p.link i = .held h) :
    Part.Does (.judging i) p (p.setLink i (.held h')) :=
  ((setHold_acts p i h h' hl).mono (linking_le_judging i)).does (setLink_lists p i _ (by rw [hl]; rfl))

theorem judged_does (p : Part) (i : Slot) (h : Hold) (o : LinkOutcome) (low : Bool) (hl : p.link i = .held h) :
    Part.Does (.judging i) p (p.judged i h o low) := (judged_acts p i h o low hl).does (judged_lists p i h o low hl)

theorem execLinkOperationStart_answers (b : Slot) (s : State) :
    Answers (.linkOperationStart b) s (execLinkOperationStart b s) := by
  unfold execLinkOperationStart
  split
  case h_1 h hh =>
    have hl := link_eq_of_hold hh
    exact answers_ite (answers_after (((startOperation_acts s.part b h hl).mono (Views.le_and_left _ _)).does
      (startOperation_lists s.part b h hl))) (answers_unchanged _ s)
  case h_2 => exact answers_unchanged _ s

theorem execCommandFrameEnd_answers (b : Slot) (s : State) : Answers (.commandFrameEnd b) s (execCommandFrameEnd b s) := by
  unfold execCommandFrameEnd
  split
  case h_1 h hh =>
    split
    · exact answers_after (setHold_does s.part b h _ (link_eq_of_hold hh))
    all_goals exact answers_unchanged _ s
  case h_2 => exact answers_unchanged _ s

theorem execLinkGapTimeout_answers (b : Slot) (low : Bool) (s : State) :
    Answers (.linkGapTimeout b low) s (execLinkGapTimeout b low s) := by
  unfold execLinkGapTimeout
  split
  case h_1 h hh => exact answers_ite (answers_after (judged_does s.part b h _ low (link_eq_of_hold hh))) (answers_unchanged _ s)
  case h_2 => exact answers_unchanged _ s

theorem execResponseTimeout_answers (b : Slot) (low : Bool) (s : State) :
    Answers (.responseTimeout b low) s (execResponseTimeout b low s) := by
  unfold execResponseTimeout
  split
  case h_1 h hh => exact answers_ite (answers_after (judged_does s.part b h _ low (link_eq_of_hold hh))) (answers_unchanged _ s)
  case h_2 => exact answers_unchanged _ s

theorem execResponseByteTimeout_answers (b : Slot) (low : Bool) (s : State) :
    Answers (.responseByteTimeout b low) s (execResponseByteTimeout b low s) := by
  unfold execResponseByteTimeout
  split
  case h_1 h hh =>
    split
    iterate 2 exact answers_after (judged_does s.part b h _ low (link_eq_of_hold hh))
    all_goals exact answers_unchanged _ s
  case h_2 => exact answers_unchanged _ s

theorem execResponseStartSeen_answers (b : Slot) (s : State) :
    Answers (.responseStartSeen b) s (execResponseStartSeen b s) := by
  unfold execResponseStartSeen
  split
  case h_1 h hh => exact answers_ite (answers_after (setHold_does s.part b h _ (link_eq_of_hold hh))) (answers_unchanged _ s)
  case h_2 => exact answers_unchanged _ s

theorem execStatusLengthReceived_answers (b : Slot) (status length : Byte) (low : Bool) (s : State) :
    Answers (.statusLengthReceived b status length low) s (execStatusLengthReceived b status length low s) := by
  unfold execStatusLengthReceived
  split
  case h_1 h hh =>
    have hl := link_eq_of_hold hh
    exact answers_ite (answers_ite (answers_after (setHold_does s.part b h _ hl))
      (answers_after (judged_does s.part b h _ low hl))) (answers_unchanged _ s)
  case h_2 => exact answers_unchanged _ s

/-- The complete response to a command that works within the views of a judgement. -/
theorem response_answers {c : Instr} {b : Slot} (hc : Views.ofEffect c = .judging b) (s : State) (command : LinkOp)
    (payload : List Byte) (crc : Byte) (low : Bool) :
    Answers c s (s.afterSome (s.part.responseReceived b command payload crc low)) :=
  answers_afterSome fun p hp => hc ▸ (responseReceived_acts s.part p b command payload crc low hp).does (responseReceived_lists hp)

theorem execLineFoundHigh_answers (b : Slot) (s : State) : Answers (.lineFoundHigh b) s (execLineFoundHigh b s) := by
  refine answers_ite (answers_after ?_) (answers_unchanged _ s)
  have h : Part.Acts (.only (.gap b)) s.part (s.part.updBay b fun r => { r with gap := .counting }) :=
    setBay_acts s.part b _ (fun _ => rfl) (fun _ => ⟨rfl, rfl, rfl⟩) (fun h => by simp [Views.only] at h) (fun _ => rfl) fun _ => rfl
  exact (h.mono (Views.le_and_right _ _)).does (updBay_lists _ b _)

theorem row_le_judging (i : Slot) : Views.le (.rowReport i) (.judging i) :=
  Views.le_trans (Views.le_trans (Views.rowReport_le_slotWork i) (Views.slotWork_le_bringUp _)) (Views.le_and_left _ _)

/-- A timer of a slot stops and its slot joins. -/
theorem timerJoin_does (p : Part) (i : Slot) (f : SlotRow → SlotRow) (op : LinkOp)
    (hf : (f (p.slot i)).identity = (p.slot i).identity ∧ (f (p.slot i)).historyLink = (p.slot i).historyLink) :
    Part.Does (.judging i) p ((p.updSlot i f).joinBringUp i op) :=
  (((rowUpdate_acts p i f hf).trans (joinBringUp_acts _ i op)).mono (row_le_judging i)).does
    ((updSlot_lists p i f).trans (joinBringUp_lists _ i op))

theorem execRetryTimerExpiry_answers (i : Slot) (s : State) : Answers (.retryTimerExpiry i) s (execRetryTimerExpiry i s) := by
  unfold execRetryTimerExpiry
  split
  · exact answers_after (timerJoin_does s.part i _ _ ⟨rfl, rfl⟩)
  all_goals exact answers_unchanged _ s

theorem execProbeTimerExpiry_answers (i : Slot) (s : State) : Answers (.probeTimerExpiry i) s (execProbeTimerExpiry i s) :=
  answers_ite (answers_after (timerJoin_does s.part i _ _ ⟨rfl, rfl⟩)) (answers_unchanged _ s)

/-! ### The digest engine -/

theorem execDerive_answers (s : State) : Answers .derive s (execDerive s) := by
  unfold execDerive
  split
  · refine answers_after ?_
    have h : Part.Does .bringUps s.part s.part.popDigest := (popDigest_acts_bringUps s.part).does (popDigest_acts s.part).lists
    split
    · exact h.trans ((derived_acts _ _ _).ofOne.does (derived_lists _ _ _))
    · exact h
  all_goals exact answers_unchanged _ s

theorem execChallengeCheck_answers (s : State) : Answers .challengeCheck s (execChallengeCheck s) := by
  unfold execChallengeCheck
  split
  · exact answers_after (((popDigest_acts_bringUps s.part).trans (challengeChecked_acts _ _ _)).does
      ((popDigest_acts s.part).lists.trans (challengeChecked_lists _ _ _)))
  all_goals exact answers_unchanged _ s

theorem execReceiptCheck_answers (s : State) : Answers .receiptCheck s (execReceiptCheck s) := by
  unfold execReceiptCheck
  split
  · exact answers_after (((popDigest_acts_bringUps s.part).trans (receiptChecked_acts _ _ _ _).ofOne).does
      ((popDigest_acts s.part).lists.trans (receiptChecked_lists _ _ _ _)))
  all_goals exact answers_unchanged _ s

theorem execTokenCheck_answers (s : State) : Answers .tokenCheck s (execTokenCheck s) := by
  unfold execTokenCheck
  split
  · exact answers_after (((popDigest_acts s.part).mono (Views.le_trans (Views.le_and_left _ _) (Views.le_and_right _ _))).trans
      (tokenChecked_acts _ _)).doesQuietly
  all_goals exact answers_unchanged _ s

/-! ### The saver and the charge list -/

theorem execHistoryWriteAttemptEnd_answers (v : Bool) (s : State) :
    Answers (.historyWriteAttemptEnd v) s (execHistoryWriteAttemptEnd v s) := by
  unfold execHistoryWriteAttemptEnd
  split
  · exact answers_ite (answers_after (placeVerified_acts _ _ _ _ _).doesQuietly)
      (answers_ite (answers_after (placeFailed_acts _ _).doesQuietly)
        (answers_after ((beginAttempt_acts _ _ _).mono Views.saving_le_storing).doesQuietly))
  all_goals exact answers_unchanged _ s

theorem execCounterWriteEnd_answers (r : ReadBack) (s : State) : Answers (.counterWriteEnd r) s (execCounterWriteEnd r s) := by
  unfold execCounterWriteEnd
  split
  · exact answers_after (counterVerified_acts _ _).doesQuietly
  · exact answers_after (counterDiffers_acts _ _ _ _).doesQuietly
  all_goals exact answers_unchanged _ s

theorem execSettingsWriteEnd_answers (r : ReadBack) (s : State) :
    Answers (.settingsWriteEnd r) s (execSettingsWriteEnd r s) := by
  unfold execSettingsWriteEnd
  split
  · exact answers_after (settingsVerified_acts _ _ _).doesQuietly
  · exact answers_after (settingsDiffers_acts _ _ _ _ _).doesQuietly
  all_goals exact answers_unchanged _ s

theorem execBankAccounting_answers (s : State) : Answers .bankAccounting s (execBankAccounting s) := by
  unfold execBankAccounting
  split
  · exact answers_after ((accountBank_acts _ _).does (accountBank_lists _ _))
  all_goals exact answers_unchanged _ s

theorem execPurgeAccounting_answers (s : State) : Answers .purgeAccounting s (execPurgeAccounting s) := by
  unfold execPurgeAccounting
  split
  · exact answers_after ((accountPurge_acts _ _ _ _ _).does (accountPurge_lists _ _ _ _ _))
  all_goals exact answers_unchanged _ s

/-! ### Engine writes -/

theorem engineWrite_answers {c : Instr} (hc : Views.ofEffect c = .boardWrite) (s : State) (a : Nat) (x y : Byte)
    (even : a % 2 = 0) : Answers c s (s.engineWrite a x y) :=
  answers_ite (answers_unchanged _ s)
    (answers_after (hc ▸ (engineWrite_acts s.part a x y even).does (engineWrite_lists s.part a x y)))

theorem cellBase_even (c : CellNo) : cellBase c % 2 = 0 := by simp only [cellBase]; omega
theorem bankBase_even (b : BankNo) : bankBase b % 2 = 0 := by simp only [bankBase]; omega

theorem controlUpperWrite_answers {c : Instr} (hc : Views.ofEffect c = .controlWrite) (s : State) (u : Half) :
    Answers c s (s.controlUpperWrite u) :=
  answers_ite (answers_unchanged _ s)
    (answers_after (hc ▸ (writeControl_acts s.part u).does (writeControl_lists s.part u)))

theorem execNoticeClear_answers (v : Half) (s : State) : Answers (.noticeClear v) s (execNoticeClear v s) := by
  refine answers_ite (answers_unchanged _ s) (answers_after ⟨⟨fun w hw => ?_, id, id⟩, .of_lp rfl⟩)
  cases w <;> first | rfl | exact ⟨rfl, rfl⟩ | exact ⟨rfl, rfl, rfl⟩ | exact absurd (show true = false from hw) (by decide)

theorem execControlLowerHalfWrite_answers (v : Half) (s : State) :
    Answers (.controlLowerHalfWrite v) s (execControlLowerHalfWrite v s) := by
  refine answers_ite (answers_unchanged _ s) (answers_after (Part.Acts.doesQuietly (.raw fun w hw => ?_)))
  cases w <;> first | rfl | exact ⟨rfl, rfl⟩ | exact ⟨rfl, rfl, rfl⟩ | exact absurd (show true = false from hw) (by decide)

theorem execRegisterWriteOther_answers (h : InertHalf) (v : Half) (s : State) :
    Answers (.registerWriteOther h v) s (execRegisterWriteOther h v s) := by
  unfold execRegisterWriteOther
  split <;> exact answers_unchanged _ s

/-! ### Requests -/

/-- A new value of the power and supply block, within the views in which it differs. -/
theorem withPower_acts (p : Part) (r : PowerSupply) {t : Views}
    (h : ∀ v ∈ powerViews, t v = false → View.same p { p with ps := r } v) : Part.Acts t p { p with ps := r } := by
  refine .raw fun v hv => ?_
  cases v <;> first | rfl | exact ⟨rfl, rfl⟩ | exact ⟨rfl, rfl, rfl⟩ | exact h _ (by decide) hv

/-- R142, R163: the take of a cell with an owner that works within the command's views. -/
theorem request_answers {c : Instr} (s : State) (k : Kind) {owner : CellNo → Part → Part}
    (le : Views.le .taking (Views.ofEffect c)) (acts : ∀ n p, Part.Acts (Views.ofEffect c) p (owner n p))
    (lists : ∀ n p, Part.Lists p (owner n p)) : Answers c s (s.request k owner) := by
  unfold State.request
  split
  case h_1 n _ =>
    refine answers_after ?_
    have h : Part.Does (Views.ofEffect c) s.part (s.part.takeCell n) :=
      ((takeCell_acts s.part n).doesQuietly).mono le
    refine h.trans ?_
    generalize s.part.takeCell n = p
    unfold Part.handOver
    split
    · split
      · refine Part.Does.trans ⟨((withPower_acts p _ (t := .taking) fun v hv ht => ?_).mono le).toKeeps, withPower_lists p _⟩
          ((acts n _).does (lists n _))
        simp only [powerViews, List.mem_cons, List.not_mem_nil, or_false] at hv
        rcases hv with rfl | rfl | rfl | rfl | rfl | rfl | rfl | rfl | rfl <;>
          first | rfl | exact ⟨rfl, rfl⟩ | exact ⟨rfl, rfl, rfl⟩ | exact absurd ht (by decide)
      · exact ((complete_acts p n _ _ (FitsIn.nil _)).mono completing_le_taking).doesQuietly.mono le
    · exact (acts n p).does (lists n p)
  case h_2 => exact answers_unchanged c s

theorem execUnknownKind_answers (s : State) : Answers .unknownKind s (execUnknownKind s) := by
  unfold execUnknownKind
  split
  · exact answers_after ((takeCell_acts s.part _).trans
      ((complete_acts _ _ _ _ (FitsIn.nil _)).mono completing_le_taking)).doesQuietly
  · exact answers_unchanged _ s

/-- A request whose owner leaves the link pool as it is. -/
theorem quietRequest_answers {c : Instr} (s : State) (k : Kind) {owner : CellNo → Part → Part}
    (le : Views.le .taking (Views.ofEffect c)) (acts : ∀ n p, Part.Acts (Views.ofEffect c) p (owner n p))
    (quiet : (∀ i, Views.ofEffect c (.link i) = false) ∧ Views.ofEffect c .waitList = false := by exact ⟨fun _ => rfl, rfl⟩) :
    Answers c s (s.request k owner) := request_answers s k le acts fun n p => (acts n p).lists quiet

/-! ### Power, supply and resets -/

theorem execWindDownComplete_answers (s : State) : Answers .windDownComplete s (execWindDownComplete s) := by
  unfold execWindDownComplete
  split
  · exact answers_after ((completeWindDown_acts _ _).does (completeWindDown_lists _ _))
  all_goals exact answers_unchanged _ s

/-- What the supply watch touches. -/
abbrev Views.supplyWatch : Views := Views.and .supplying (Views.and (.only .comparator) (.only .sequence))

theorem setComparator_does (p : Part) (low : Bool) : Part.Does .supplyWatch p (p.setComparator low) := by
  refine ⟨(withPower_acts p _ fun v hv ht => ?_).toKeeps, withPower_lists p _⟩
  simp only [powerViews, List.mem_cons, List.not_mem_nil, or_false] at hv
  rcases hv with rfl | rfl | rfl | rfl | rfl | rfl | rfl | rfl | rfl <;>
    first | rfl | exact ⟨rfl, rfl⟩ | exact ⟨rfl, rfl, rfl⟩ | exact absurd ht (by decide)

theorem startPowerOn_does (p : Part) : Part.Does .supplyWatch p p.startPowerOn := by
  refine ⟨(withPower_acts p _ fun v hv ht => ?_).toKeeps, withPower_lists p _⟩
  simp only [powerViews, List.mem_cons, List.not_mem_nil, or_false] at hv
  rcases hv with rfl | rfl | rfl | rfl | rfl | rfl | rfl | rfl | rfl <;>
    first | rfl | exact ⟨rfl, rfl⟩ | exact ⟨rfl, rfl, rfl⟩ | exact absurd ht (by decide)

theorem execSupplyLow_answers (s : State) : Answers .supplyLow s (execSupplyLow s) := by
  refine answers_ite (answers_unchanged _ s) (answers_after ?_)
  split
  · exact (setComparator_does s.part true).trans
      (((reportSupplyLow_acts _).mono (Views.le_and_left _ _)).does (reportSupplyLow_lists _))
  · exact setComparator_does s.part true

theorem execSupplyGood_answers (s : State) : Answers .supplyGood s (execSupplyGood s) := by
  refine answers_ite (answers_ite (answers_after (startPowerOn_does s.part)) (answers_after ?_)) (answers_unchanged _ s)
  split
  · exact (setComparator_does s.part false).trans
      (((reportSupplyGood_acts _).mono (Views.le_and_left _ _)).does (reportSupplyGood_lists _))
  · exact setComparator_does s.part false

theorem execPowerOn_answers (s : State) : Answers .powerOn s (execPowerOn s) :=
  answers_ite (answers_after (startPowerOn_does s.part)) (answers_unchanged _ s)

/-- A change of the reset input alone. -/
theorem resetInput_acts (p : Part) (b : Bool) {t : Views} (h : t .resetInput = true) :
    Part.Acts t p { p with ps := { p.ps with resetAsserted := b } } := by
  refine .raw fun v hv => ?_
  cases v <;> first | rfl | exact ⟨rfl, rfl⟩ | exact ⟨rfl, rfl, rfl⟩ | exact absurd hv (by simp [h])

theorem execResetAsserted_answers (s : State) : Answers .resetAsserted s (execResetAsserted s) :=
  answers_ite (answers_unchanged _ s)
    (answers_after (((resetInput_acts s.part true rfl).trans ((resetLine_acts _).mono (Views.le_and_left _ _))).does
      ((withPower_lists s.part _).trans (resetLine_lists _))))

theorem execResetReleased_answers (s : State) : Answers .resetReleased s (execResetReleased s) :=
  answers_ite (answers_after (resetInput_acts s.part false rfl).doesQuietly) (answers_unchanged _ s)

theorem execFoldPhaseEnd_answers (s : State) : Answers .foldPhaseEnd s (execFoldPhaseEnd s) := by
  unfold execFoldPhaseEnd
  split
  · exact answers_ite (answers_after (setSequence_acts _ _ _).doesQuietly) (answers_unchanged _ s)
  all_goals exact answers_unchanged _ s

theorem execFoldPhaseTimeLimit_answers (s : State) : Answers .foldPhaseTimeLimit s (execFoldPhaseTimeLimit s) := by
  unfold execFoldPhaseTimeLimit
  split
  · exact answers_after (setSequence_acts _ _ _).doesQuietly
  all_goals exact answers_unchanged _ s

theorem execClearingPoint_answers (s : State) : Answers .clearingPoint s (execClearingPoint s) := by
  unfold execClearingPoint
  split
  · exact answers_after ⟨clearingPoint_keeps _ _, clearingPoint_lists _ _⟩
  all_goals exact answers_unchanged _ s

theorem execLoadComplete_answers (s : State) : Answers .loadComplete s (execLoadComplete s) := by
  refine answers_ite ⟨_, rfl, rfl, Part.Does.trans ?_ ((finish_acts _ _).doesQuietly.mono (Views.le_and_right _ _))⟩
    (answers_unchanged _ s)
  exact ((loadStored_acts s.part).trans (endSequence_acts _)).mono (Views.le_and_left _ _) |>.does
    ((loadStored_lists s.part).trans (endSequence_lists _))

theorem execLockoutTimerExpiry_answers (s : State) : Answers .lockoutTimerExpiry s (execLockoutTimerExpiry s) := by
  refine answers_ite (answers_after (withPower_acts s.part _ fun v hv ht => ?_).doesQuietly) (answers_unchanged _ s)
  simp only [powerViews, List.mem_cons, List.not_mem_nil, or_false] at hv
  rcases hv with rfl | rfl | rfl | rfl | rfl | rfl | rfl | rfl | rfl <;>
    first | rfl | exact ⟨rfl, rfl⟩ | exact ⟨rfl, rfl, rfl⟩ | exact absurd ht (by decide)

theorem execIdleTimerExpiry_answers (s : State) : Answers .idleTimerExpiry s (execIdleTimerExpiry s) := by
  refine answers_ite (answers_after (withPower_acts s.part _ fun v hv ht => ?_).doesQuietly) (answers_unchanged _ s)
  simp only [powerViews, List.mem_cons, List.not_mem_nil, or_false] at hv
  rcases hv with rfl | rfl | rfl | rfl | rfl | rfl | rfl | rfl | rfl <;>
    first | rfl | exact ⟨rfl, rfl⟩ | exact ⟨rfl, rfl, rfl⟩ | exact absurd ht (by decide)

theorem execPowerLoss_answers (s : State) : Answers .powerLoss s (execPowerLoss s) :=
  ⟨_, rfl, rfl, (powerLost_keeps s.part).mono (Views.le_and_left _ _), powerLost_lists s.part⟩

/-! ### Every command -/

/-- Every command answers a next state, leaves the queue of commands as it is, changes nothing of the part outside its views,
keeps the board sound, holds no more than three engines if it held no more before, and keeps the wait list (R14). -/
theorem exec_answers (c : Instr) (s : State) : Answers c s (exec c s) := by
  cases c with
  | contactCloses b => exact execContactCloses_answers b s
  | contactOpens b => exact execContactOpens_answers b s
  | settleTimerExpiry b => exact execSettleTimerExpiry_answers b s
  | removalTimerExpiry b => exact execRemovalTimerExpiry_answers b s
  | linkOperationStart b => exact execLinkOperationStart_answers b s
  | commandFrameEnd b => exact execCommandFrameEnd_answers b s
  | linkGapTimeout b low => exact execLinkGapTimeout_answers b low s
  | responseTimeout b low => exact execResponseTimeout_answers b low s
  | responseByteTimeout b low => exact execResponseByteTimeout_answers b low s
  | identify b payload crc low => exact response_answers rfl s _ payload crc low
  | challenge b payload crc low => exact response_answers rfl s _ payload crc low
  | readTally b payload crc low => exact response_answers rfl s _ payload crc low
  | advanceTally b payload crc low => exact response_answers rfl s _ payload crc low
  | retryTimerExpiry i => exact execRetryTimerExpiry_answers i s
  | probeTimerExpiry i => exact execProbeTimerExpiry_answers i s
  | derive => exact execDerive_answers s
  | challengeCheck => exact execChallengeCheck_answers s
  | receiptCheck => exact execReceiptCheck_answers s
  | tokenCheck => exact execTokenCheck_answers s
  | historyWriteAttemptEnd v => exact execHistoryWriteAttemptEnd_answers v s
  | counterWriteEnd r => exact execCounterWriteEnd_answers r s
  | settingsWriteEnd r => exact execSettingsWriteEnd_answers r s
  | bankAccounting => exact execBankAccounting_answers s
  | purgeAccounting => exact execPurgeAccounting_answers s
  | patternPeriodEnd b => exact execPatternPeriodEnd_answers b s
  | cellArrival n k => exact engineWrite_answers rfl s _ _ _ (cellBase_even n)
  | cellWithdrawal n k => exact engineWrite_answers rfl s _ _ _ (cellBase_even n)
  | cellGiveBack n k => exact engineWrite_answers rfl s _ _ _ (cellBase_even n)
  | bankArrival b f => exact engineWrite_answers rfl s _ _ _ (bankBase_even b)
  | bankReopen b f => exact engineWrite_answers rfl s _ _ _ (bankBase_even b)
  | boardWrite w x y =>
    exact answers_ite (engineWrite_answers rfl s _ _ _ (Nat.mul_mod_right 2 _)) (answers_unchanged _ s)
  | noticeClear v => exact execNoticeClear_answers v s
  | controlLowerHalfWrite v => exact execControlLowerHalfWrite_answers v s
  | controlByteOrder u => exact controlUpperWrite_answers rfl s u
  | controlMaskPolarity u => exact controlUpperWrite_answers rfl s u
  | restart u => exact controlUpperWrite_answers rfl s u
  | registerWriteOther h v => exact execRegisterWriteOther_answers h v s
  | unknownKind => exact execUnknownKind_answers s
  | setThresholds => exact quietRequest_answers s _ (Views.le_and_left _ _) doSetThresholds_acts
  | setCommit => exact request_answers s _ (Views.le_and_left _ _) doSetCommit_acts doSetCommit_lists
  | commitNow => exact request_answers s _ (Views.le_and_left _ _) doCommitNow_acts doCommitNow_lists
  | reverify => exact request_answers s _ (Views.le_and_left _ _) doReverify_acts doReverify_lists
  | purge => exact quietRequest_answers s _ (Views.le_and_left _ _) doPurge_acts
  | readHistory => exact quietRequest_answers s _ (Views.le_refl _) doReadHistory_acts
  | setNoticeLevels => exact quietRequest_answers s _ (Views.le_and_left _ _) doSetNoticeLevels_acts
  | setLedBrightness => exact quietRequest_answers s _ (Views.le_and_left _ _) doSetLedBrightness_acts
  | setPower => exact request_answers s _ (Views.le_and_left _ _) doSetPower_acts doSetPower_lists
  | enterService => exact quietRequest_answers s _ (Views.le_and_left _ _) doEnterService_acts
  | leaveService => exact quietRequest_answers s _ (Views.le_refl _) doLeaveService_acts
  | loadCalibration => exact quietRequest_answers s _ (Views.le_and_left _ _) doLoadCalibration_acts
  | setFeed => exact quietRequest_answers s _ (Views.le_and_left _ _) doSetFeed_acts
  | reconcile => exact quietRequest_answers s _ (Views.le_and_left _ _) doReconcile_acts
  | forgetHistory => exact quietRequest_answers s _ (Views.le_and_left _ _) doForgetHistory_acts
  | setRefillMargin => exact request_answers s _ (Views.le_and_left _ _) doSetRefillMargin_acts doSetRefillMargin_lists
  | windDownComplete => exact execWindDownComplete_answers s
  | supplyLow => exact execSupplyLow_answers s
  | supplyGood => exact execSupplyGood_answers s
  | powerOn => exact execPowerOn_answers s
  | resetAsserted => exact execResetAsserted_answers s
  | resetReleased => exact execResetReleased_answers s
  | foldPhaseEnd => exact execFoldPhaseEnd_answers s
  | foldPhaseTimeLimit => exact execFoldPhaseTimeLimit_answers s
  | clearingPoint => exact execClearingPoint_answers s
  | loadComplete => exact execLoadComplete_answers s
  | lockoutTimerExpiry => exact execLockoutTimerExpiry_answers s
  | idleTimerExpiry => exact execIdleTimerExpiry_answers s
  | powerLoss => exact execPowerLoss_answers s
  | responseStartSeen b => exact execResponseStartSeen_answers b s
  | statusLengthReceived b status length low => exact execStatusLengthReceived_answers b status length low s
  | lineFoundHigh b => exact execLineFoundHigh_answers b s

/-- What every step keeps of the part: an idle step everything, any other what its command keeps. -/
theorem step_does {s t : State} (h : step s = .next t) : Part.Does (fun _ => true) s.part t.part := by
  unfold step at h
  split at h
  · cases h; exact ⟨(Part.Acts.refl _ _).toKeeps, .refl _⟩
  · rename_i c rest _
    obtain ⟨u, e, -, hu⟩ := exec_answers c { s with pending := rest }
    rw [h] at e
    cases e
    exact hu.mono fun _ _ => rfl

/-- Settles O6: every command keeps the number of held engines and the wait list. -/
theorem atMostThreeEnginesHeld : Obligations.AtMostThreeEnginesHeld :=
  ⟨fun _ _ hs h => (step_does h).held hs, fun _ _ hs h => (listed_iff _).1 ((step_does h).listed ((listed_iff _).2 hs))⟩

end Sys2Proof.Machine
end

-- ==== Bays: Basics ====
section
set_option Elab.async false
namespace Sys2Proof.Machine
open Sys2Proof

/-! ## The CRC of the bay link (R6) -/

/-- A CRC register that takes in its own value ends at 0. -/
theorem crcByte_self (r : Byte) : crcByte r r = 0 := by
  unfold crcByte
  rw [BitVec.xor_self]
  decide

/-- R6: the frame body of a command without a payload, shift by shift. -/
theorem crc8_one_zero : crc8 [0x01, 0x00] = 0x15 := by
  have one : crcByte 0x00 0x01 = 0x07 := by simp [crcByte, crcShift]
  have zero : crcByte 0x07 0x00 = 0x15 := by simp [crcByte, crcShift]
  rw [crc8, List.foldl_cons, List.foldl_cons, List.foldl_nil, one, zero]

/-- Settles O25: the register's value after the bytes is taken in by itself. -/
theorem crcChecks : Obligations.CrcChecks :=
  ⟨fun bytes => by rw [crc8, List.foldl_append]; exact crcByte_self _, crc8_one_zero⟩

/-! ## The part at power-on -/

theorem readByte_reset (a : Nat) : State.reset.part.readByte a = 0 := rfl

/-- Settles O2: every field is read off the reset state. -/
theorem resetState : Obligations.ResetState := by
  refine ⟨rfl, by decide, readByte_reset, fun i => ?_, fun c => ?_, rfl, rfl, rfl, rfl, rfl⟩
  · refine ⟨?_, ?_, ?_, ?_, ?_⟩ <;>
      simp [State.reset, Part.reset, Part.slot, Part.volumes, Part.commit, Part.link, Part.bay, Accounting.blank]
  · simp [State.reset, Part.reset, Part.channel, Accounting.blank]

/-- At power-on nothing waits for a block that acts of itself, and the output is inactive. -/
theorem reset_is_quiet : State.reset.part.Quiet where
  digests _ _ := rfl
  saver _ h := absurd h (by decide)
  writes := rfl
  patterns b := by revert b; decide
  output := by decide

/-- The power-on sequence waits for the first GOOD, with no service mode, no wind-down and no attempt. -/
theorem reset_is_powerLegal : State.reset.part.PowerLegal where
  service := rfl
  sequenceService _ := ⟨rfl, rfl⟩
  attempts := by decide
  awake _ := .inl rfl
  windDown := rfl
  supply h := absurd h (by decide)

/-- No NV copy is named current before the load. -/
theorem reset_storeAgrees : State.reset.part.StoreAgrees where
  page _ h := nomatch h
  counter _ h := nomatch h

/-- No record is kept before the clearing point. -/
theorem reset_recordsStand : State.reset.part.RecordsStand where
  slots h := by
    rcases h with h | h <;> exact absurd h (by decide)
  channels h := absurd h (by decide)
  partInfo h := absurd h (by decide)

/-- Settles O3: the conditions hold of the state after power-on one by one. -/
theorem invariantsAtReset : Obligations.InvariantsAtReset :=
  ⟨.empty, reset_is_quiet, by decide, (listed_iff _).1 reset_listed, reset_is_powerLegal, reset_storeAgrees,
    reset_recordsStand⟩

end Sys2Proof.Machine
end

-- ==== Bays: LinkOperations ====
section
set_option Elab.async false
namespace Sys2Proof.Machine
open Sys2Proof

/-! ## What a command completes with -/

/-- A command that leaves the part `p` completes with what the end of the step makes of `p`, within its views. -/
theorem completes_after {c : Instr} {s : State} {p : Part} {R : Part → Prop} (h : exec c s = s.after p)
    (r : R (Part.finish s.part p)) : Completes c s (.ofCommand c) R := by
  obtain ⟨t, e, pending, does⟩ := exec_answers c s
  rw [h] at e
  cases e
  exact ⟨_, h, pending, does.same, r⟩

/-- Nothing acts of itself at the end of a step that changes only bays, but for their patterns, and the link pool. -/
theorem finish_still {b q : Part} (quiet : b.Quiet) (e : q = { b with lp := q.lp, bays := q.bays })
    (patterns : ∀ c, (q.bay c).selected = (b.bay c).selected) : Part.finish b q = q := by
  have calm : Part.finish b q = q.reviewOutput := by
    rw [e]
    exact finish_calm quiet rfl rfl rfl rfl rfl rfl rfl rfl rfl rfl rfl rfl rfl rfl patterns rfl
  have output : (q.interruptActive == q.port.activeHigh) = q.nu.outputHigh := by rw [e]; exact quiet.output.symm
  rw [calm, Part.reviewOutput, output]

/-- A command that leaves a part at rest, `q`, completes with it. -/
theorem completes_still {c : Instr} {s : State} {q : Part} {t : Views} {R : Part → Prop} (quiet : s.part.Quiet)
    (h : exec c s = s.after q) (e : q = { s.part with lp := q.lp, bays := q.bays })
    (patterns : ∀ d, (q.bay d).selected = (s.part.bay d).selected) (same : s.part.ChangesOnly t q) (r : R q) :
    Completes c s t R := by
  refine ⟨_, h, rfl, ?_, ?_⟩ <;> rw [finish_still quiet e patterns] <;> assumption

/-- The hold of a slot alone is changed. -/
theorem setHold_changesOnly {p : Part} {i : Slot} {h : Hold} (link : p.link i = .held h) (h' : Hold) :
    p.ChangesOnly (.only (.link i)) (p.setLink i (.held h')) :=
  (setLink_acts p i _ (t := .only (.link i)) (by simp [Views.only]) fun _ => by rw [link]; rfl).same

/-- A bay's gap alone is changed. -/
theorem setGap_changesOnly (p : Part) (i : Slot) (g : LineGap) :
    p.ChangesOnly (.only (.gap i)) (p.updBay i fun b => { b with gap := g }) := by
  exact (setBay_acts p i { p.bay i with gap := g } (t := .only (.gap i)) (fun _ => rfl) (fun _ => ⟨rfl, rfl, rfl⟩) (fun h => by simp [Views.only] at h) (fun _ => rfl)
    fun _ => rfl).same

theorem completes_setHold {c : Instr} {s : State} {b : Slot} {h h' : Hold} (quiet : s.part.Quiet)
    (link : s.part.link b = .held h) (e : exec c s = s.after (s.part.setLink b (.held h'))) :
    Completes c s (.only (.link b)) fun q => q.link b = .held h' :=
  completes_still quiet e rfl (fun _ => rfl) (setHold_changesOnly link _) (Part.setLink_link_self _ _ _)

theorem hold_of_link {p : Part} {b : Slot} {h : Hold} (e : p.link b = .held h) : p.hold b = some h := by
  rw [Part.hold, e]

/-! ## The phases of an operation in flight (R7) -/

theorem exec_commandFrameEnd {s : State} {b : Slot} {h : Hold} {frame : List Byte} (link : s.part.link b = .held h)
    (phase : h.phase = .sending frame) :
    exec (.commandFrameEnd b) s = s.after (s.part.setLink b (.held { h with phase := .awaiting })) := by
  show execCommandFrameEnd b s = _
  simp [execCommandFrameEnd, hold_of_link link, phase]

theorem exec_responseStartSeen {s : State} {b : Slot} {h : Hold} (link : s.part.link b = .held h)
    (phase : h.phase = .awaiting) (on : s.part.lineOn b = true) :
    exec (.responseStartSeen b) s = s.after (s.part.setLink b (.held { h with phase := .receiving })) := by
  show execResponseStartSeen b s = _
  simp [execResponseStartSeen, hold_of_link link, phase, on]

theorem exec_statusLengthReceived {s : State} {b : Slot} {h : Hold} {status length : Byte} {low : Bool}
    (link : s.part.link b = .held h) (phase : h.phase = .receiving) (on : s.part.lineOn b = true) :
    exec (.statusLengthReceived b status length low) s =
      s.after (if h.op.headerOk status length then s.part.setLink b (.held { h with phase := .payload status length })
        else s.part.judged b h .malformed low) := by
  show execStatusLengthReceived b status length low s = _
  rw [execStatusLengthReceived, hold_of_link link]
  simp only [phase, on, decide_true, Bool.and_self, if_true]
  split <;> rfl

theorem responseReceived_lineOff {p : Part} {b : Slot} (off : p.lineOn b = false) (op : LinkOp) (payload : List Byte)
    (crc : Byte) (low : Bool) : p.responseReceived b op payload crc low = none := by
  unfold Part.responseReceived
  split
  · split
    · simp [off]
    all_goals rfl
  all_goals rfl

/-- Settles O18: each event sets the one link state or the one gap. -/
theorem receptionAdvances : Obligations.ReceptionAdvances := by
  intro b s quiet
  refine ⟨fun h frame link phase => completes_setHold quiet link (exec_commandFrameEnd link phase),
    fun h link phase on => completes_setHold quiet link (exec_responseStartSeen link phase on), ?_, ?_, ?_⟩
  · intro h status length low link phase on header
    refine completes_setHold quiet link ((exec_statusLengthReceived link phase on).trans ?_)
    rw [if_pos header]
  · intro gap
    refine completes_still quiet (q := s.part.updBay b fun r => { r with gap := .counting }) ?_ rfl ?_
      (setGap_changesOnly _ _ _) (by simp [Part.updBay])
    · show execLineFoundHigh b s = _
      rw [execLineFoundHigh, if_pos gap]
    · intro d
      exact ((setGap_changesOnly s.part b .counting) (.pattern d) rfl).symm
  · intro off status length crc payload low
    have none : ∀ op, s.afterSome (s.part.responseReceived b op payload crc low) = .next s := fun op => by
      rw [responseReceived_lineOff off]; rfl
    refine ⟨?_, ?_, none _, none _, none _, none _⟩
    · show execResponseStartSeen b s = _
      unfold execResponseStartSeen
      split
      · simp [off, State.unchanged]
      · rfl
    · show execStatusLengthReceived b status length low s = _
      unfold execStatusLengthReceived
      split
      · simp [off, State.unchanged]
      · rfl

/-! ## The end of an operation (R7, R8, R13) -/

/-- A complete response to a hold's own operation is judged, on a line that is on. -/
theorem responseReceived_judged {p : Part} {b : Slot} {h : Hold} {status length crc : Byte} {payload : List Byte} {op : LinkOp}
    {low : Bool} (link : p.link b = .held h) (phase : h.phase = .payload status length) (on : p.lineOn b = true)
    (command : h.op.sameCommand op = true) (full : payload.length = length.toNat) :
    p.responseReceived b op payload crc low = some (p.judged b h (h.op.judge status length payload crc) low) := by
  simp [Part.responseReceived, link, phase, on, command, full]

/-- A command that ends the operation of a hold without a complete response leaves it judged. -/
theorem exec_endsOperation {s : State} {b : Slot} {low : Bool} {h : Hold} {c : Instr} {o : LinkOutcome}
    (link : s.part.link b = .held h) (on : c = .responseTimeout b low ∨ s.part.lineOn b = true)
    (ends : EndsOperation b low h c o) : exec c s = s.after (s.part.judged b h o low) := by
  cases ends with
  | gap phase =>
    show execLinkGapTimeout b low s = _
    rw [execLinkGapTimeout, hold_of_link link]
    exact if_pos phase
  | response phase =>
    show execResponseTimeout b low s = _
    rw [execResponseTimeout, hold_of_link link]
    exact if_pos phase
  | header phase =>
    show execResponseByteTimeout b low s = _
    simp only [execResponseByteTimeout, hold_of_link link, phase]
  | payload status length phase =>
    show execResponseByteTimeout b low s = _
    simp only [execResponseByteTimeout, hold_of_link link, phase]
  | length status length phase header =>
    rw [exec_statusLengthReceived link phase (on.resolve_left (by simp)), header]
    rfl

/-- A command that hands over a complete response to the operation of a hold leaves it judged. -/
theorem exec_endsResponse {s : State} {b : Slot} {low : Bool} {h : Hold} {c : Instr} {o : LinkOutcome}
    (link : s.part.link b = .held h) (on : s.part.lineOn b = true)
    (ends : EndsResponse b low h c o) : exec c s = s.after (s.part.judged b h o low) := by
  have received : ∀ {op : LinkOp} {status length crc : Byte} {payload : List Byte}, h.phase = .payload status length →
      h.op.sameCommand op = true → payload.length = length.toNat →
      s.afterSome (s.part.responseReceived b op payload crc low) =
        s.after (s.part.judged b h (h.op.judge status length payload crc) low) := fun phase command full => by
    rw [responseReceived_judged link phase on command full]; rfl
  cases ends with
  | identify status length crc payload phase op full => exact received phase (by rw [op]; rfl) full
  | challenge status length crc payload nonce phase op full => exact received phase (by rw [op]; rfl) full
  | readTally status length crc payload phase op full => exact received phase (by rw [op]; rfl) full
  | advanceTally status length crc payload units phase op full => exact received phase (by rw [op]; rfl) full

/-- A command that ends the operation of a hold, with or without a complete response, leaves it judged. -/
theorem exec_ends {s : State} {b : Slot} {low : Bool} {h : Hold} {c : Instr} {o : LinkOutcome}
    (link : s.part.link b = .held h) (on : c = .responseTimeout b low ∨ s.part.lineOn b = true)
    (ends : EndsOperation b low h c o ∨ EndsResponse b low h c o) : exec c s = s.after (s.part.judged b h o low) := by
  rcases ends with e | e
  · exact exec_endsOperation link on e
  · exact exec_endsResponse link (on.resolve_left (by cases e <;> simp)) e

theorem lineOn_of_present {p : Part} {b : Slot} (awake : p.asleep = false) (present : (p.bay b).presence = .present) :
    p.lineOn b = true := by simp [Part.lineOn, awake, present]

theorem lineOn_of_leaving {p : Part} {b : Slot} (awake : p.asleep = false) (leaving : (p.bay b).presence = .leaving) :
    p.lineOn b = true := by simp [Part.lineOn, awake, leaving]

theorem updBay_bay_self (p : Part) (b : Slot) (f : Bay → Bay) : (p.updBay b f).bay b = f (p.bay b) :=
  Part.setBay_bay_self p b _

/-- R18: while the bay is LEAVING an outcome is held. -/
theorem judged_leaving {p : Part} {b : Slot} {h : Hold} {o : LinkOutcome} {low : Bool}
    (leaving : (p.bay b).presence = .leaving) :
    p.judged b h o low = (p.updBay b fun r => { r with gap := if o.isFailure && low then .heldLow else .counting }).setLink b
      (.held { h with phase := .outcomeHeld o }) := by
  rw [Part.judged, Part.operationEnds, updBay_bay_self, if_pos leaving]

/-- Settles O20: of an operation that ends while the bay is LEAVING only the gap and the held outcome change. -/
theorem outcomeHeldWhileLeaving : Obligations.OutcomeHeldWhileLeaving := by
  intro b low s h c o quiet link leaving awake ends
  have run := exec_ends link (.inr (lineOn_of_leaving awake leaving)) ends
  rw [judged_leaving leaving] at run
  have gap := setGap_changesOnly s.part b (if o.isFailure && low then .heldLow else .counting)
  refine completes_still quiet run rfl (fun d => (gap (.pattern d) rfl).symm) ?_ ⟨Part.setLink_link_self _ _ _, ?_⟩
  · exact (gap.mono (Views.le_and_right _ _)).trans ((setHold_changesOnly (h := h) (by exact link) _).mono (Views.le_and_left _ _))
  · rw [Part.setLink_bay, updBay_bay_self]

end Sys2Proof.Machine
end

-- ==== Bays: FlushesAndFolds ====
section
set_option Elab.async false
namespace Sys2Proof.Machine
open Sys2Proof

/-! ## What the ends of flushes and the folds at the end of a step leave of commit rows and cells (R55, R134, R144) -/

/-- A commit row after ends of its flush and folds of its slot: no other item changes, holders are only given up, and
uncommitted volume and units in doubt only go to 0. -/
structure CommitRow.Ebbs (r r' : CommitRow) : Prop where
  count : r'.count = r.count
  tallyFull : r'.tallyFull = r.tallyFull
  linkLost : r'.linkLost = r.linkLost
  unsettled : r'.unsettled = r.unsettled
  uncommitted : r'.uncommitted = r.uncommitted ∨ r'.uncommitted = 0
  inDoubt : r'.inDoubt = r.inDoubt ∨ r'.inDoubt = 0
  holders : r'.holders = r.holders ∨ r'.holders = []

theorem CommitRow.Ebbs.refl (r : CommitRow) : r.Ebbs r := ⟨rfl, rfl, rfl, rfl, .inl rfl, .inl rfl, .inl rfl⟩

theorem CommitRow.Ebbs.trans {r r' r'' : CommitRow} (h : r.Ebbs r') (k : r'.Ebbs r'') : r.Ebbs r'' where
  count := k.count.trans h.count
  tallyFull := k.tallyFull.trans h.tallyFull
  linkLost := k.linkLost.trans h.linkLost
  unsettled := k.unsettled.trans h.unsettled
  uncommitted := k.uncommitted.elim (fun e => e ▸ h.uncommitted) .inr
  inDoubt := k.inDoubt.elim (fun e => e ▸ h.inDoubt) .inr
  holders := k.holders.elim (fun e => e ▸ h.holders) .inr

/-- The bytes of a cell read the same. -/
def Part.SameCell (p : Part) (cell : CellNo) (q : Part) : Prop :=
  ∀ a, cellBase cell ≤ a → a < cellBase cell + 64 → q.readByte a = p.readByte a

/-- `q` comes from `p` by work that spares the cells: flush holders are only given up, the board stays in canonical form, no
settings request is queued, and a cell that stands for no flush and no setting is not touched. -/
structure Part.Spares (p q : Part) : Prop where
  holders : ∀ i, (q.commit i).holders = (p.commit i).holders ∨ (q.commit i).holders = []
  wf : Memory.wf p.board = true → Memory.wf q.board = true
  settings : ∀ r ∈ q.hs.settingsQueue, r ∈ p.hs.settingsQueue
  cells : ∀ cell, p.Loose cell → p.SameCell cell q

/-- Such work by which the commit rows only ebb. -/
structure Part.Ebbs (p q : Part) : Prop extends Part.Spares p q where
  rows : ∀ i, (p.commit i).Ebbs (q.commit i)

/-- Such work that leaves the uncommitted volumes and the units in doubt. -/
structure Part.Flushes (p q : Part) : Prop extends Part.Ebbs p q where
  uncommitted : ∀ i, (q.commit i).uncommitted = (p.commit i).uncommitted
  inDoubt : ∀ i, (q.commit i).inDoubt = (p.commit i).inDoubt

theorem Part.Spares.loose {p q : Part} (h : Part.Spares p q) {cell : CellNo} (l : p.Loose cell) : q.Loose cell where
  flushes i hc := by
    rcases h.holders i with e | e <;> rw [e] at hc
    · exact l.flushes i hc
    · cases hc
  settings r hr := l.settings r (h.settings r hr)

theorem Part.Spares.trans {p q r : Part} (h : Part.Spares p q) (k : Part.Spares q r) : Part.Spares p r where
  holders i := (k.holders i).elim (fun e => e ▸ h.holders i) .inr
  wf := k.wf ∘ h.wf
  settings x hx := h.settings x (k.settings x hx)
  cells cell l a lo hi := (k.cells cell (h.loose l) a lo hi).trans (h.cells cell l a lo hi)

theorem Part.Ebbs.trans {p q r : Part} (h : Part.Ebbs p q) (k : Part.Ebbs q r) : Part.Ebbs p r :=
  ⟨h.toSpares.trans k.toSpares, fun i => (h.rows i).trans (k.rows i)⟩

theorem Part.Flushes.trans {p q r : Part} (h : Part.Flushes p q) (k : Part.Flushes q r) : Part.Flushes p r where
  toEbbs := h.toEbbs.trans k.toEbbs
  uncommitted i := (k.uncommitted i).trans (h.uncommitted i)
  inDoubt i := (k.inDoubt i).trans (h.inDoubt i)

/-- Commit rows that ebb give up holders only. -/
theorem Part.Ebbs.of_rows {p q : Part} (rows : ∀ i, (p.commit i).Ebbs (q.commit i))
    (wf : Memory.wf p.board = true → Memory.wf q.board = true)
    (settings : ∀ r ∈ q.hs.settingsQueue, r ∈ p.hs.settingsQueue) (cells : ∀ cell, p.Loose cell → p.SameCell cell q) :
    Part.Ebbs p q := ⟨⟨fun i => (rows i).holders, wf, settings, cells⟩, rows⟩

/-- Work that leaves the commit engine, the settings queue and the board. -/
theorem Part.Flushes.of_same {p q : Part} (ce : q.ce = p.ce) (settings : q.hs.settingsQueue = p.hs.settingsQueue)
    (board : q.board = p.board) : Part.Flushes p q := by
  have row : ∀ i, q.commit i = p.commit i := fun i => by rw [Part.commit, ce]; rfl
  refine ⟨.of_rows (fun i => row i ▸ .refl _) (fun h => board ▸ h) (fun r hr => settings ▸ hr) fun _ _ a _ _ => ?_,
    fun i => by rw [row], fun i => by rw [row]⟩
  rw [Part.readByte, board]; rfl

theorem Part.Flushes.refl (p : Part) : Part.Flushes p p := .of_same rfl rfl rfl
theorem Part.Ebbs.refl (p : Part) : Part.Ebbs p p := (Part.Flushes.refl p).toEbbs

theorem Part.Flushes.foldl {α : Type} {f : Part → α → Part} (h : ∀ p x, Part.Flushes p (f p x)) (l : List α) (p : Part) :
    Part.Flushes p (l.foldl f p) := by
  induction l generalizing p with
  | nil => exact .refl p
  | cons x rest ih => exact (h p x).trans (ih (f p x))

theorem Part.Ebbs.foldl {α : Type} {f : Part → α → Part} (h : ∀ p x, Part.Ebbs p (f p x)) (l : List α) (p : Part) :
    Part.Ebbs p (l.foldl f p) := by
  induction l generalizing p with
  | nil => exact .refl p
  | cons x rest ih => exact (h p x).trans (ih (f p x))

theorem Part.Ebbs.forSlots {f : Part → Slot → Part} (h : ∀ p i, Part.Ebbs p (f p i)) (p : Part) :
    Part.Ebbs p (p.forSlots f) := .foldl h allSlots p

/-! ### Records -/

theorem cell_end (cell : CellNo) : cellBase cell + 64 ≤ 0x600 := by
  have := cell.isLt
  rw [cellBase]; omega

/-- Work of known views above the cells flushes nothing. -/
theorem Part.Acts.flushes {t : Views} {p q : Part} (h : Part.Acts t p q) (wf : Memory.wf p.board = true → Memory.wf q.board = true)
    (k : (∀ i, t (.commit i) = false) ∧ t .settingsQueue = false ∧ ∀ a, a < 0x600 → t (.byte a) = false) : Part.Flushes p q := by
  have row : ∀ i, q.commit i = p.commit i := fun i => (h.same (.commit i) (k.1 i)).symm
  refine ⟨.of_rows (fun i => row i ▸ .refl _) wf (fun r hr => ?_) fun cell _ a _ hi => ?_, fun i => by rw [row],
    fun i => by rw [row]⟩
  · rwa [show p.hs.settingsQueue = q.hs.settingsQueue from h.same .settingsQueue k.2.1]
  · exact (h.same (.byte a) (k.2.2 a (by have := cell_end cell; omega))).symm

theorem writeSlotRecord_wf (p : Part) (block : Recorder) (i : Slot) (l : List Field) (h : Memory.wf p.board = true) :
    Memory.wf (p.writeSlotRecord block i l).board = true := by
  rcases writeSlotRecord_cases p block i l with ⟨-, e⟩ | ⟨-, e⟩ <;> rw [e]
  · exact Memory.wf_writeFields _ _ _ h
  · exact Memory.wf_writeRecord _ _ _ _ _ h

theorem writeSlotRecord_flushes (p : Part) (block : Recorder) (i : Slot) (l : List Field) (fit : FitsRecord 62 l) :
    Part.Flushes p (p.writeSlotRecord block i l) :=
  (writeSlotRecord_acts p block i l fit).flushes (writeSlotRecord_wf p block i l) ⟨fun _ => rfl, rfl, fun a h => by
    have : ¬ slotBase i ≤ a := by rw [slotBase]; omega
    simp [Views.slotRecord, Views.bytes, this]⟩

theorem recordCommit_flushes (p : Part) (i : Slot) : Part.Flushes p (p.recordCommit i) :=
  writeSlotRecord_flushes p _ i _ (slotCommitFields_fit p i)

theorem recordIdentity_flushes (p : Part) (i : Slot) : Part.Flushes p (p.recordIdentity i) :=
  writeSlotRecord_flushes p _ i _ (slotIdentityFields_fit p i)

theorem recordSlot_flushes (p : Part) (i : Slot) : Part.Flushes p (p.recordSlot i) :=
  writeSlotRecord_flushes p _ i _ (slotFields_fit p i)

/-! ### Completions and flushes -/

theorem complete_wf (p : Part) (c : CellNo) (r : Result) (d : List Field) (h : Memory.wf p.board = true) :
    Memory.wf (p.complete c r d).board = true :=
  Memory.wf_write _ _ (Memory.wf_writeFields _ _ _ (Memory.wf_writeFields _ _ _ h))

theorem cells_apart {c d : CellNo} (h : c ≠ d) : cellBase c + 64 ≤ cellBase d ∨ cellBase d + 64 ≤ cellBase c := by
  have : c.val ≠ d.val := fun e => h (Fin.ext e)
  simp only [cellBase]; omega

/-- The completion of a request leaves every other cell. -/
theorem complete_sameCell (p : Part) {c d : CellNo} (r : Result) {data : List Field} (fit : FitsIn 56 data) (h : d ≠ c) :
    p.SameCell d (p.complete c r data) := fun a lo hi =>
  ((complete_acts_cell p c r data fit).same (.byte a) (by
    have := cells_apart h
    simp only [Views.cellDone, Views.bytes, Bool.and_eq_false_iff, decide_eq_false_iff_not]; omega)).symm

theorem completeFlushed_wf (holders : List CellNo) (p : Part) (k : Parked) (h : Memory.wf p.board = true) :
    Memory.wf (Part.completeFlushed holders p k).board = true := by
  unfold Part.completeFlushed
  split
  · split
    · exact complete_wf _ _ _ _ h
    · exact h
  all_goals exact h

/-- R134: an end of flushes completes no cell but the holders. -/
theorem completeFlushed_sameCell {holders : List CellNo} {cell : CellNo} (h : cell ∉ holders) (p : Part) (k : Parked) :
    p.SameCell cell (Part.completeFlushed holders p k) := by
  unfold Part.completeFlushed
  split
  · split
    · rename_i held
      simp only [Bool.and_eq_true, List.contains_iff_mem] at held
      exact complete_sameCell p _ (endCauseFields_fit _) fun e => h (e ▸ held.1)
    · exact fun _ _ _ => rfl
  all_goals exact fun _ _ _ => rfl

theorem foldl_completeFlushed_wf (holders : List CellNo) (l : List Parked) (p : Part) (h : Memory.wf p.board = true) :
    Memory.wf (l.foldl (Part.completeFlushed holders) p).board = true := by
  induction l generalizing p with
  | nil => exact h
  | cons k rest ih => exact ih _ (completeFlushed_wf holders p k h)

theorem foldl_completeFlushed_sameCell {holders : List CellNo} {cell : CellNo} (h : cell ∉ holders) (l : List Parked)
    (p : Part) : p.SameCell cell (l.foldl (Part.completeFlushed holders) p) := by
  induction l generalizing p with
  | nil => exact fun _ _ _ => rfl
  | cons k rest ih => exact fun a lo hi => (ih _ a lo hi).trans (completeFlushed_sameCell h p k a lo hi)

theorem foldl_completeFlushed_acts (holders : List CellNo) (l : List Parked) (p : Part) :
    Part.Acts .completing p (l.foldl (Part.completeFlushed holders) p) :=
  .foldl (fun q k => completeFlushed_acts holders q k) l p

/-- The row of a slot whose flush has ended (R134, R170). -/
def CommitRow.unflushed (r : CommitRow) : CommitRow :=
  { r with holders := [], windDownHolder := false, windDownEnded := r.windDownEnded || r.windDownHolder }

theorem CommitRow.ebbs_unflushed (r : CommitRow) : r.Ebbs r.unflushed := ⟨rfl, rfl, rfl, rfl, .inl rfl, .inl rfl, .inr rfl⟩

/-- R134: of the commit rows the end of a flush changes that of its slot. -/
theorem endFlush_commit (p : Part) (i : Slot) (cause : EndCause) (j : Slot) : (p.endFlush i cause).commit j =
    if j = i ∧ (p.commit i).flushing = true then (p.commit i).unflushed else p.commit j := by
  unfold Part.endFlush
  extract_lets r q parked
  split
  case isFalse h => rw [if_neg (fun k => h k.2)]
  case isTrue h =>
    rw [← show _ = _ from (foldl_completeFlushed_acts _ _ _).same (.commit j) rfl]
    by_cases e : j = i
    · subst e; rw [if_pos ⟨rfl, h⟩]; exact Part.setCommit_commit_self p j _
    · rw [if_neg (fun k => e k.1)]; exact Part.setCommit_commit_ne p i _ j e

theorem endFlush_wf (p : Part) (i : Slot) (cause : EndCause) (h : Memory.wf p.board = true) :
    Memory.wf (p.endFlush i cause).board = true := by
  unfold Part.endFlush
  extract_lets r q parked
  split
  · exact foldl_completeFlushed_wf _ _ _ h
  · exact h

theorem endFlush_sameCell {p : Part} {i : Slot} {cell : CellNo} (h : cell ∉ (p.commit i).holders) (cause : EndCause) :
    p.SameCell cell (p.endFlush i cause) := by
  unfold Part.endFlush
  extract_lets r q parked
  split
  · exact foldl_completeFlushed_sameCell h _ _
  · exact fun _ _ _ => rfl

theorem endFlush_ebbs (p : Part) (i : Slot) (cause : EndCause) : Part.Ebbs p (p.endFlush i cause) := by
  refine .of_rows (fun j => ?_) (endFlush_wf p i cause) (fun r hr => ?_) fun cell l => endFlush_sameCell (l.flushes i) cause
  · rw [endFlush_commit]
    split
    case isTrue h => exact h.1 ▸ CommitRow.ebbs_unflushed _
    case isFalse => exact .refl _
  · rwa [show p.hs.settingsQueue = _ from (endFlush_acts p i cause).same .settingsQueue rfl]

theorem endFlush_flushes (p : Part) (i : Slot) (cause : EndCause) : Part.Flushes p (p.endFlush i cause) := by
  refine ⟨endFlush_ebbs p i cause, fun j => ?_, fun j => ?_⟩ <;> rw [endFlush_commit] <;> split
  case refine_1.isTrue h => rw [h.1]; rfl
  case refine_2.isTrue h => rw [h.1]; rfl
  all_goals rfl

theorem examineFlush_flushes (p : Part) (i : Slot) : Part.Flushes p (p.examineFlush i) := by
  unfold Part.examineFlush
  split
  · exact endFlush_flushes p i _
  · split
    · exact endFlush_flushes p i _
    · exact .refl p

/-! ### The link pool -/

theorem withLinks_flushes (p : Part) (l : LinkPool) : Part.Flushes p { p with lp := l } := .of_same rfl rfl rfl

theorem withStore_flushes (p : Part) (h : HistoryStore) (same : h.settingsQueue = p.hs.settingsQueue := by rfl) :
    Part.Flushes p { p with hs := h } := .of_same rfl same rfl

theorem withRequests_flushes (p : Part) (r : RequestUnit) : Part.Flushes p { p with rq := r } := .of_same rfl rfl rfl

theorem setLink_flushes (p : Part) (i : Slot) (l : LinkState) : Part.Flushes p (p.setLink i l) := .of_same rfl rfl rfl

theorem placeCommit_flushes (p : Part) (i : Slot) : Part.Flushes p (p.placeCommit i) := by
  unfold Part.placeCommit
  split
  · exact withLinks_flushes p _
  all_goals exact .refl p

theorem testPlace_flushes (p : Part) (i : Slot) : Part.Flushes p (p.testPlace i) := by
  unfold Part.testPlace
  split
  · exact placeCommit_flushes p i
  · exact .refl p

theorem releaseReport_flushes (p : Part) (i : Slot) : Part.Flushes p (p.releaseReport i) :=
  (examineFlush_flushes p i).trans (testPlace_flushes _ i)

theorem openCommitHold_flushes (p : Part) (i : Slot) : Part.Flushes p (p.openCommitHold i) := by
  rcases openCommitHold_cases p i with ⟨op, e⟩ | e <;> rw [e]
  · exact setLink_flushes p i _
  · exact (setLink_flushes p i _).trans (releaseReport_flushes _ i)

theorem openSingleHold_flushes (p : Part) (i : Slot) : Part.Flushes p (p.openSingleHold i) := by
  unfold Part.openSingleHold
  split
  · exact withLinks_flushes p _
  all_goals exact .refl p

theorem takeHeadOfList_flushes (p : Part) : Part.Flushes p p.takeHeadOfList := by
  unfold Part.takeHeadOfList
  split
  · exact (withLinks_flushes p _).trans (openSingleHold_flushes _ _)
  · split
    · exact (withLinks_flushes p _).trans (openCommitHold_flushes _ _)
    · exact .refl p

theorem takeUpTo_flushes (n : Nat) (p : Part) : Part.Flushes p (Part.takeUpTo n p) := by
  induction n generalizing p with
  | zero => exact .refl p
  | succ n ih =>
    unfold Part.takeUpTo
    split
    · exact (takeHeadOfList_flushes p).trans (ih _)
    · exact .refl p

theorem takeFromList_flushes (p : Part) : Part.Flushes p p.takeFromList := takeUpTo_flushes _ p

theorem testCommit_flushes (p : Part) (i : Slot) : Part.Flushes p (p.testCommit i) :=
  (testPlace_flushes p i).trans (takeFromList_flushes _)

theorem testAll_flushes (p : Part) : Part.Flushes p p.testAll := .foldl testCommit_flushes allSlots p

theorem placeDeferred_flushes (p : Part) (i : Slot) (d : Option LinkOp) : Part.Flushes p (p.placeDeferred i d) := by
  cases d with
  | none => exact setLink_flushes p i _
  | some op => exact withLinks_flushes p _

theorem endHold_flushes (p : Part) (i : Slot) : Part.Flushes p (p.endHold i) := by
  unfold Part.endHold
  split
  · exact ((placeDeferred_flushes p i _).trans (releaseReport_flushes _ i)).trans (takeFromList_flushes _)
  all_goals exact .refl p

/-! ### The saver's take and the end of a step -/

theorem updPlace_flushes (p : Part) (k : Fin 64) (f : PlaceRow → PlaceRow) : Part.Flushes p (p.updPlace k f) :=
  .of_same rfl rfl rfl

/-- The row of a slot that has been folded (R55). -/
def CommitRow.folded (r : CommitRow) : CommitRow := { r with uncommitted := 0, inDoubt := 0 }

theorem updCommit_ebbs {p : Part} {i : Slot} {f : CommitRow → CommitRow} (h : (p.commit i).Ebbs (f (p.commit i))) :
    Part.Ebbs p (p.updCommit i f) := by
  refine .of_rows (fun j => ?_) id (fun _ => id) fun _ _ _ _ _ => rfl
  by_cases e : j = i
  · subst e; rw [Part.updCommit_eq, Part.setCommit_commit_self]; exact h
  · rw [Part.updCommit_eq, Part.setCommit_commit_ne _ _ _ _ e]; exact .refl _

theorem foldSlot_ebbs (k : Fin 64) (p : Part) (i : Slot) : Part.Ebbs p (p.foldSlot k i) :=
  (updPlace_flushes p k _).toEbbs.trans
    ((updCommit_ebbs (f := CommitRow.folded) ⟨rfl, rfl, rfl, rfl, .inr rfl, .inr rfl, .inl rfl⟩).trans
      ((recordCommit_flushes _ i).trans (examineFlush_flushes _ i)).toEbbs)

theorem foldEntry_ebbs (p : Part) (k : Fin 64) (serial : Quad) : Part.Ebbs p (p.foldEntry k serial) :=
  .forSlots (fun q i => by
    split
    · exact foldSlot_ebbs k q i
    · exact .refl q) p

theorem beginAttempt_ebbs (p : Part) (k : Fin 64) (second : Bool) : Part.Ebbs p (p.beginAttempt k second) := by
  unfold Part.beginAttempt
  extract_lets q
  have h : Part.Ebbs p q := by
    unfold q
    split
    · split
      · exact foldEntry_ebbs p k _
      · exact .refl p
    · exact .refl p
  exact h.trans (withStore_flushes q _).toEbbs

theorem takePlace_ebbs (p : Part) (k : Fin 64) : Part.Ebbs p (p.takePlace k) := by
  unfold Part.takePlace
  exact ((withStore_flushes p _).trans (withRequests_flushes _ _)).toEbbs.trans (beginAttempt_ebbs _ k _)

/-- R165: the settings request that the saver takes next is queued. -/
theorem mem_settingsQueue_of_nextWrite {p : Part} {r : SettingsRequest} (h : p.nextWrite = some (.settings r)) :
    r ∈ p.hs.settingsQueue := by
  have stored : p.nextStored = some (.settings r) := by
    unfold Part.nextWrite at h
    cases place : p.writablePlace <;> cases next : p.nextStored <;> cases fold : p.hs.foldAtWrite <;> simp_all
  unfold Part.nextStored at stored
  split at stored
  · cases stored
  · obtain ⟨x, head, e⟩ := Option.map_eq_some_iff.1 stored
    cases e
    exact List.mem_of_mem_head? head

/-- R166: a settings request that fails its check is answered and leaves the queue. -/
theorem refuseSetting_ebbs {p : Part} {r : SettingsRequest} (h : r ∈ p.hs.settingsQueue) :
    Part.Ebbs p (Part.complete { p with hs := { p.hs with settingsQueue := p.hs.settingsQueue.drop 1 } } r.cell .badArgument []) := by
  refine .of_rows (fun _ => .refl _) (complete_wf _ _ _ _) (fun _ => List.mem_of_mem_drop) fun _ l => ?_
  exact complete_sameCell { p with hs := { p.hs with settingsQueue := p.hs.settingsQueue.drop 1 } } _ (FitsIn.nil _)
    fun e => l.settings r h e.symm

theorem saverTakeUpTo_ebbs (n : Nat) (p : Part) : Part.Ebbs p (Part.saverTakeUpTo n p) := by
  induction n generalizing p with
  | zero => exact .refl p
  | succ n ih =>
    unfold Part.saverTakeUpTo
    split
    · split
      · exact .refl p
      · exact takePlace_ebbs p _
      · exact (withStore_flushes p _).toEbbs
      · rename_i r next
        have queued := mem_settingsQueue_of_nextWrite next
        extract_lets _ q
        have dropped : Part.Ebbs p q :=
          .of_rows (fun _ => .refl _) id (fun _ => List.mem_of_mem_drop) fun _ _ _ _ _ => rfl
        split
        · exact dropped.trans (withStore_flushes q _).toEbbs
        · exact (refuseSetting_ebbs queued).trans (ih _)
    · exact .refl p

theorem takeDigest_flushes (p : Part) : Part.Flushes p p.takeDigest := by
  unfold Part.takeDigest
  split
  · exact .of_same rfl rfl rfl
  · exact .refl p

theorem syncRecords_wf (before p : Part) (h : Memory.wf p.board = true) : Memory.wf (Part.syncRecords before p).board = true := by
  have channels : ∀ (l : List Slot) (q : Part), Memory.wf q.board = true →
      Memory.wf (l.foldl (Part.syncChannel before) q).board = true := fun l => by
    induction l with
    | nil => exact fun _ => id
    | cons c rest ih =>
      refine fun q hq => ih _ ?_
      unfold Part.syncChannel
      split
      · exact hq
      · exact Memory.wf_writeRecord _ _ _ _ _ hq
  unfold Part.syncRecords
  split
  · unfold Part.syncPartInfo
    split
    · exact channels _ _ h
    · exact Memory.wf_writeRecord _ _ _ _ _ (channels _ _ h)
  · exact h

theorem syncRecords_flushes (before p : Part) : Part.Flushes p (Part.syncRecords before p) :=
  (syncRecords_acts before p).flushes (syncRecords_wf before p) ⟨fun _ => rfl, rfl, fun a h => by
    have : ¬ 0xD00 ≤ a := by omega
    simp [Views.bytes, this]⟩

theorem closeWrites_flushes (p : Part) : Part.Flushes p p.closeWrites := .of_same rfl rfl rfl

/-- The end of a step ebbs the commit rows and touches no cell that stands for no flush and no setting. -/
theorem finish_ebbs (before p : Part) : Part.Ebbs p (Part.finish before p) := by
  have saved : Part.Ebbs p p.takeDigest.saverTake := (takeDigest_flushes p).toEbbs.trans (saverTakeUpTo_ebbs _ _)
  have synced : Part.Flushes p.takeDigest.saverTake (Part.syncRecords before p.takeDigest.saverTake.closeWrites) :=
    (closeWrites_flushes _).trans (syncRecords_flushes before _)
  refine saved.trans (synced.trans ?_).toEbbs
  unfold Part.finish
  generalize Part.syncRecords before p.takeDigest.saverTake.closeWrites = q
  obtain ⟨l, e⟩ := keepBrightness_eq before q.choosePatterns
  rw [e]
  exact .of_same rfl rfl rfl

end Sys2Proof.Machine
end

-- ==== Bays: OperationStart ====
section
set_option Elab.async false
namespace Sys2Proof.Machine
open Sys2Proof

/-! ## The start of an operation (R13, R127) -/

theorem exec_linkOperationStart {s : State} {b : Slot} {h : Hold} (link : s.part.link b = .held h) (phase : h.phase = .ready)
    (on : s.part.lineOn b = true) (gap : (s.part.bay b).gap = .counting) (supply : s.part.ps.supplyLow = false)
    (running : s.part.busy = false) : exec (.linkOperationStart b) s = s.after (s.part.startOperation b h) := by
  show execLinkOperationStart b s = _
  simp [execLinkOperationStart, hold_of_link link, Part.mayStart, phase, on, gap, supply, running]

theorem startOperation_advance {p : Part} {i : Slot} {h : Hold} {n : Nat} (op : h.op = .advance n) :
    p.startOperation i h = (p.updCommit i fun r => r.send n).setLink i
      (.held { h with phase := .sending (h.op.frame (p.commit i).count), frames := h.frames + 1 }) := by
  simp only [Part.startOperation, op]

theorem startOperation_single {p : Part} {i : Slot} {h : Hold} (op : ∀ n, h.op ≠ .advance n) :
    p.startOperation i h = p.setLink i (.held { h with phase := .sending (h.op.frame (p.commit i).count) }) := by
  unfold Part.startOperation
  split
  · rename_i n e; exact absurd e (op n)
  all_goals rfl

theorem finish_link (before p : Part) (i : Slot) : (Part.finish before p).link i = p.link i :=
  ((finish_acts before p).same (.link i) rfl).symm

theorem updCommit_commit_self (p : Part) (i : Slot) (f : CommitRow → CommitRow) :
    (p.updCommit i f).commit i = f (p.commit i) := Part.setCommit_commit_self p i _

/-- Settles O17: the start sets the hold, and of an ADVANCE_TALLY the commit row, which the end of the step keeps. -/
theorem operationStarts : Obligations.OperationStarts := by
  intro b s h link phase on gap supply running quiet
  have run := exec_linkOperationStart link phase on gap supply running
  refine ⟨fun n op => completes_after run ?_, fun op => ?_⟩
  · rw [startOperation_advance op]
    have row := (finish_ebbs s.part ((s.part.updCommit b fun r => r.send n).setLink b
      (.held { h with phase := .sending (h.op.frame (s.part.commit b).count), frames := h.frames + 1 }))).rows b
    rw [Part.setLink_commit, updCommit_commit_self] at row
    exact ⟨(finish_link _ _ _).trans (Part.setLink_link_self _ _ _), row.unsettled, row.count⟩
  · rw [startOperation_single op] at run
    exact completes_setHold quiet link run

end Sys2Proof.Machine
end

-- ==== Bays: Reports ====
section
set_option Elab.async false
namespace Sys2Proof.Machine
open Sys2Proof

/-! ## What the link pool's work for other slots leaves of a slot (R14 to R17) -/

/-- Between `p` and `q` the slot keeps its link state and joins no class of the wait list. -/
structure Part.Aside (i : Slot) (p q : Part) : Prop where
  link : q.link i = p.link i
  bringUp : i ∈ q.lp.bringUp → i ∈ p.lp.bringUp
  commit : i ∈ q.lp.commit → i ∈ p.lp.commit

theorem Part.Aside.of_lp {i : Slot} {p q : Part} (h : q.lp = p.lp) : Part.Aside i p q :=
  ⟨by rw [Part.link, h]; rfl, fun k => h ▸ k, fun k => h ▸ k⟩

theorem Part.Aside.refl (i : Slot) (p : Part) : Part.Aside i p p := .of_lp rfl

theorem Part.Aside.trans {i : Slot} {p q r : Part} (h : Part.Aside i p q) (k : Part.Aside i q r) : Part.Aside i p r :=
  ⟨k.link.trans h.link, h.bringUp ∘ k.bringUp, h.commit ∘ k.commit⟩

theorem Part.Aside.unlisted {i : Slot} {p q : Part} (h : Part.Aside i p q) (u : p.Unlisted i) : q.Unlisted i :=
  ⟨u.bringUp ∘ h.bringUp, u.commit ∘ h.commit⟩

/-- Work that touches neither a link state nor the wait list. -/
theorem Part.Acts.aside {t : Views} {p q : Part} {i : Slot} (h : Part.Acts t p q)
    (k : (∀ i, t (.link i) = false) ∧ t .waitList = false := by exact ⟨fun _ => rfl, rfl⟩) : Part.Aside i p q :=
  .of_lp (h.lp_eq k)

theorem updSlot_aside (i : Slot) (p : Part) (j : Slot) (f : SlotRow → SlotRow) : Part.Aside i p (p.updSlot j f) := .of_lp rfl
theorem updCommit_aside (i : Slot) (p : Part) (j : Slot) (f : CommitRow → CommitRow) : Part.Aside i p (p.updCommit j f) := .of_lp rfl
theorem raise_aside (i : Slot) (p : Part) (c : NoticeClass) : Part.Aside i p (p.raise c) := .of_lp rfl

theorem setLink_aside {i j : Slot} (ne : i ≠ j) (p : Part) (l : LinkState) : Part.Aside i p (p.setLink j l) :=
  ⟨Part.setLink_link_ne p j l i ne, id, id⟩

theorem placeCommit_aside {i j : Slot} (ne : i ≠ j) (p : Part) : Part.Aside i p (p.placeCommit j) := by
  unfold Part.placeCommit
  split
  · exact ⟨Part.setLink_link_ne p j .waitingCommit i ne, id, fun h => by simpa [ne] using h⟩
  all_goals exact .refl i p

theorem testPlace_aside {i j : Slot} (ne : i ≠ j) (p : Part) : Part.Aside i p (p.testPlace j) := by
  unfold Part.testPlace
  split
  · exact placeCommit_aside ne p
  · exact .refl i p

theorem releaseReport_aside {i j : Slot} (ne : i ≠ j) (p : Part) : Part.Aside i p (p.releaseReport j) :=
  (examineFlush_acts p j).aside.trans (testPlace_aside ne _)

theorem openCommitHold_aside {i j : Slot} (ne : i ≠ j) (p : Part) : Part.Aside i p (p.openCommitHold j) := by
  rcases openCommitHold_cases p j with ⟨op, e⟩ | e <;> rw [e]
  · exact setLink_aside ne p _
  · exact (setLink_aside ne p _).trans (releaseReport_aside ne _)

theorem openSingleHold_aside {i j : Slot} (ne : i ≠ j) (p : Part) : Part.Aside i p (p.openSingleHold j) := by
  unfold Part.openSingleHold
  split
  · exact ⟨Part.setLink_link_ne p j _ i ne, fun h => (List.mem_filter.1 h).1, id⟩
  all_goals exact .refl i p

theorem takeHeadOfList_aside {i : Slot} {p : Part} (bringUp : p.lp.bringUp.head? ≠ some i) (commit : i ∉ p.lp.commit) :
    Part.Aside i p p.takeHeadOfList := by
  unfold Part.takeHeadOfList
  split
  · rename_i j rest e
    have ne : i ≠ j := fun k => bringUp (by rw [e, k]; rfl)
    exact Part.Aside.trans (q := { p with lp := { p.lp with bringUp := rest } })
      ⟨rfl, fun h => e ▸ List.mem_cons_of_mem j h, id⟩ (openSingleHold_aside ne _)
  · split
    · rename_i j rest e
      have ne : i ≠ j := fun k => commit (by rw [e, k]; exact List.mem_cons_self)
      exact Part.Aside.trans (q := { p with lp := { p.lp with commit := rest } })
        ⟨rfl, id, fun h => e ▸ List.mem_cons_of_mem j h⟩ (openCommitHold_aside ne _)
    · exact .refl i p

theorem Part.Unlisted.not_head {p : Part} {i : Slot} (u : p.Unlisted i) : p.lp.bringUp.head? ≠ some i :=
  fun h => u.bringUp (List.mem_of_mem_head? h)

/-- Idle engines take nothing from a slot that does not stand on the list. -/
theorem takeUpTo_aside {i : Slot} (n : Nat) {p : Part} (u : p.Unlisted i) : Part.Aside i p (Part.takeUpTo n p) := by
  induction n generalizing p with
  | zero => exact .refl i p
  | succ n ih =>
    unfold Part.takeUpTo
    split
    · have step := takeHeadOfList_aside u.not_head u.commit
      exact step.trans (ih (step.unlisted u))
    · exact .refl i p

theorem takeFromList_aside {i : Slot} {p : Part} (u : p.Unlisted i) : Part.Aside i p p.takeFromList := takeUpTo_aside _ u

/-! ## A join of the bring-up class (R14, R15) -/

/-- The slot waits in the bring-up class alone for the operation, or holds an engine for it and stands on no class. -/
def Part.Awaits (p : Part) (i : Slot) (op : LinkOp) : Prop :=
  p.link i = .waitingBringUp op none ∧ i ∉ p.lp.commit ∨ p.link i = .held ⟨false, op, .ready, 0, none⟩ ∧ p.Unlisted i

theorem Part.Awaits.joined {p : Part} {i : Slot} {op : LinkOp} (h : p.Awaits i op) : p.Joined i op :=
  h.imp And.left And.left

theorem Part.Awaits.aside {p q : Part} {i : Slot} {op : LinkOp} (h : p.Awaits i op) (k : Part.Aside i p q) : q.Awaits i op :=
  h.imp (fun ⟨link, commit⟩ => ⟨k.link.trans link, commit ∘ k.commit⟩) fun ⟨link, u⟩ => ⟨k.link.trans link, k.unlisted u⟩

theorem openSingleHold_waiting {p : Part} {i : Slot} {op : LinkOp} {behind : Option LinkOp}
    (link : p.link i = .waitingBringUp op behind) :
    p.openSingleHold i = p.leaveBringUp i (.held ⟨false, op, .ready, 0, behind⟩) := by
  unfold Part.openSingleHold
  rw [link]

theorem takeHeadOfList_awaits {p : Part} {i : Slot} {op : LinkOp} (h : p.Awaits i op) : p.takeHeadOfList.Awaits i op := by
  have commit : i ∉ p.lp.commit := h.elim And.right fun h => h.2.commit
  by_cases head : p.lp.bringUp.head? = some i
  case neg => exact h.aside (takeHeadOfList_aside head commit)
  case pos =>
    have link : p.link i = .waitingBringUp op none := h.elim And.left fun h => absurd head h.2.not_head
    obtain ⟨rest, e⟩ : ∃ rest, p.lp.bringUp = i :: rest := List.head?_eq_some_iff.1 head
    have opened : p.takeHeadOfList =
        ({ p with lp := { p.lp with bringUp := rest } } : Part).leaveBringUp i (.held ⟨false, op, .ready, 0, none⟩) := by
      unfold Part.takeHeadOfList
      rw [e]
      exact openSingleHold_waiting link
    rw [opened]
    exact .inr ⟨Part.leaveBringUp_link _ _ _, not_mem_leaveBringUp _ _ _, commit⟩

theorem takeUpTo_awaits {i : Slot} {op : LinkOp} (n : Nat) {p : Part} (h : p.Awaits i op) :
    (Part.takeUpTo n p).Awaits i op := by
  induction n generalizing p with
  | zero => exact h
  | succ n ih =>
    unfold Part.takeUpTo
    split
    · exact ih (takeHeadOfList_awaits h)
    · exact h

theorem takeFromList_awaits {p : Part} {i : Slot} {op : LinkOp} (h : p.Awaits i op) : p.takeFromList.Awaits i op :=
  takeUpTo_awaits _ h

/-- R14, R15: a slot that stands on no class of the list and joins waits or holds an engine. -/
theorem joinBringUp_awaits {p : Part} {i : Slot} (op : LinkOp) (link : p.link i = .none) (u : p.Unlisted i) :
    (p.joinBringUp i op).Awaits i op := by
  unfold Part.joinBringUp Part.placeBringUp
  rw [link]
  exact takeFromList_awaits (.inl ⟨Part.setLink_link_self p i _, u.commit⟩)

/-- The join itself changes no row of the slot table. -/
theorem joinBringUp_slot {p : Part} {i : Slot} (op : LinkOp) (link : p.link i = .none) (j : Slot) :
    (p.joinBringUp i op).slot j = p.slot j := by
  unfold Part.joinBringUp Part.placeBringUp
  rw [link]
  exact ((takeFromList_acts _).same (.slot j) rfl).symm

/-! ## Reports of a slot that does not commit (R24, R124) -/

theorem serviceable_state {p : Part} {i : Slot} (h : (p.slot i).state ≠ .inService) : p.serviceable i = false := by
  simp [Part.serviceable, h]

theorem testPlace_unserviceable {p : Part} {i : Slot} (h : p.serviceable i = false) : p.testPlace i = p := by
  simp [Part.testPlace, Part.commitDue, h]

/-- R24: the commit engine sets or clears LINK_LOST of a slot whose state is reported. -/
def Part.markLinkLost (p : Part) (i : Slot) : Part :=
  if (p.slot i).state == .linkLost && !(p.commit i).linkLost then
    (p.updCommit i fun r => { r with linkLost := true }).recordCommit i
  else if (p.slot i).state == .inService && (p.commit i).linkLost then
    (p.updCommit i fun r => { r with linkLost := false }).recordCommit i
  else p

theorem reportToCommit_eq (p : Part) (i : Slot) : p.reportToCommit i = ((p.markLinkLost i).examineFlush i).testCommit i := rfl

/-- LINK_LOST of a slot as the commit engine keeps it once the slot's state is reported. -/
def SlotRow.linkLostAfter (r : SlotRow) (lost : Bool) : Bool :=
  if r.state = .linkLost then true else if r.state = .inService then false else lost

/-- LINK_LOST and the record are written where the flag changes. -/
theorem markLinkLost_cases (p : Part) (i : Slot) :
    (p.markLinkLost i = p ∧ (p.slot i).linkLostAfter (p.commit i).linkLost = (p.commit i).linkLost) ∨
      p.markLinkLost i = (p.updCommit i fun r => { r with linkLost := (p.slot i).linkLostAfter r.linkLost }).recordCommit i := by
  unfold Part.markLinkLost
  split
  case isTrue h =>
    obtain ⟨lost, -⟩ : (p.slot i).state = .linkLost ∧ _ := by simpa using h
    exact .inr (by simp [SlotRow.linkLostAfter, lost])
  case isFalse h =>
    split
    case isTrue k =>
      obtain ⟨found, -⟩ : (p.slot i).state = .inService ∧ _ := by simpa using k
      exact .inr (by simp [SlotRow.linkLostAfter, found])
    case isFalse k =>
      refine .inl ⟨rfl, ?_⟩
      simp only [Bool.and_eq_true, beq_iff_eq, Bool.not_eq_true', not_and, Bool.not_eq_false, Bool.not_eq_true] at h k
      unfold SlotRow.linkLostAfter
      split
      · rename_i lost; exact (h lost).symm
      · split
        · rename_i found; exact (k found).symm
        · rfl

/-- What the marking of LINK_LOST touches: the commit rows and the slot's record. -/
theorem markLinkLost_acts (p : Part) (i : Slot) :
    Part.Acts (fun v => match v with | .commit _ => true | v => Views.slotRecord i v) p (p.markLinkLost i) := by
  rcases markLinkLost_cases p i with ⟨e, -⟩ | e <;> rw [e]
  · exact .refl _ _
  · exact (updCommit_acts p i _ rfl).trans ((recordCommit_acts _ i).mono fun v h => by cases v <;> first | rfl | exact h)

theorem markLinkLost_slot (p : Part) (i j : Slot) : (p.markLinkLost i).slot j = p.slot j :=
  ((markLinkLost_acts p i).same (.slot j) rfl).symm

/-- R24, R124: the report of a slot that is not in service takes nothing from a slot that stands on no class. -/
theorem reportToCommit_aside {p : Part} {i : Slot} (state : (p.slot i).state ≠ .inService) (u : p.Unlisted i) :
    Part.Aside i p (p.reportToCommit i) := by
  have flushed := examineFlush_acts (p.markLinkLost i) i
  have examined : Part.Aside i p ((p.markLinkLost i).examineFlush i) := (markLinkLost_acts p i).aside.trans flushed.aside
  have unserviceable : ((p.markLinkLost i).examineFlush i).serviceable i = false :=
    serviceable_state (by rw [← show Part.slot _ i = _ from flushed.same (.slot i) rfl, markLinkLost_slot]; exact state)
  rw [reportToCommit_eq, Part.testCommit, testPlace_unserviceable unserviceable]
  exact examined.trans (takeFromList_aside (examined.unlisted u))

theorem changeState_aside {p : Part} {i : Slot} {s : SlotState} (state : s ≠ .inService) (u : p.Unlisted i) :
    Part.Aside i p (p.changeState i s) := by
  unfold Part.changeState Part.reportSlot
  have recorded : Part.Aside i p (((p.updSlot i fun r => { r with state := s }).recordIdentity i).raise .slot) :=
    ((updSlot_aside i p i _).trans (recordIdentity_acts _ i).aside).trans (raise_aside i _ _)
  refine recorded.trans (reportToCommit_aside ?_ (recorded.unlisted u))
  rw [show Part.slot (Part.raise _ _) i = _ from ((recordIdentity_acts _ i).same (.slot i) rfl).symm, Part.updSlot_eq,
    Part.setSlot_slot_self]
  exact state

/-! ## Changes of a slot's row -/

theorem updSlot_slot_self (p : Part) (i : Slot) (f : SlotRow → SlotRow) : (p.updSlot i f).slot i = f (p.slot i) :=
  Part.setSlot_slot_self p i _

/-- R24: a report changes no row of the slot table. -/
theorem reportSlot_slot (p : Part) (i j : Slot) : (p.reportSlot i).slot j = p.slot j :=
  ((reportSlot_acts p i).same (.slot j) rfl).symm

theorem changeState_slot (p : Part) (i : Slot) (s : SlotState) : (p.changeState i s).slot i = { p.slot i with state := s } := by
  rw [Part.changeState, reportSlot_slot, updSlot_slot_self]

/-- R24: a report makes SLOT pending. -/
theorem reportSlot_notice (p : Part) (i : Slot) : (p.reportSlot i).noticePending .slot = true := by
  refine (reportToCommit_acts _ i).raised _ ?_
  simp [Part.raise, NoticeClass.bit]

/-! ## The end of a step -/

theorem finish_slot (before p : Part) (i : Slot) : (Part.finish before p).slot i = p.slot i :=
  ((finish_acts before p).same (.slot i) rfl).symm

theorem finish_notice {before p : Part} {c : NoticeClass} (h : p.noticePending c = true) :
    (Part.finish before p).noticePending c = true := (finish_acts before p).raised _ h

end Sys2Proof.Machine
end

-- ==== Bays: Presence ====
section
set_option Elab.async false
namespace Sys2Proof.Machine
open Sys2Proof

/-! ## Bay events while the part is awake and no sequence is in progress (R1, R2) -/

theorem declares_running {p : Part} (h : p.busy = false) : p.declares = .all := by
  unfold Part.declares
  cases e : p.ps.sequence with
  | none => rfl
  | some q => simp [Part.busy, e] at h

theorem senses_running {p : Part} (h : p.busy = false) : p.senses = true := by
  unfold Part.senses
  cases e : p.ps.sequence with
  | none => rfl
  | some q => simp [Part.busy, e] at h

theorem presenceBecomes_awake {p : Part} (h : p.asleep = false) (b : Slot) (s : Presence) (t : BayTimer) :
    p.presenceBecomes b s t = p.updBay b fun r => { r with presence := s, timer := t } := by
  unfold Part.presenceBecomes Part.presenceChanged
  rw [if_neg]
  show ¬ p.asleep = true
  simp [h]

theorem exec_settleTimerExpiry {s : State} {b : Slot} (presence : (s.part.bay b).presence = .settling)
    (timer : (s.part.bay b).timer = .settle) : exec (.settleTimerExpiry b) s =
      s.after (((s.part.updBay b fun r => { r with gap := .counting }).presenceBecomes b .present .stopped).declareSettled b) := by
  show execSettleTimerExpiry b s = _
  simp [execSettleTimerExpiry, presence, timer]

/-- Work that touches no bay leaves the bay's contact, presence, timer and gap. -/
theorem Part.Acts.bay {t : Views} {p q : Part} {b : Slot} (h : Part.Acts t p q)
    (k : t (.contact b) = false ∧ t (.presence b) = false ∧ t (.gap b) = false := by exact ⟨rfl, rfl, rfl⟩) :
    (q.bay b).contactClosed = (p.bay b).contactClosed ∧ (q.bay b).presence = (p.bay b).presence ∧
      (q.bay b).timer = (p.bay b).timer ∧ (q.bay b).gap = (p.bay b).gap := by
  obtain ⟨presence, timer, -⟩ := h.same (.presence b) k.2.1
  exact ⟨(h.same (.contact b) k.1).symm, presence.symm, timer.symm, (h.same (.gap b) k.2.2).symm⟩

/-- The bay at the end of a step is as the step has left it, but for its patterns. -/
theorem finish_bay (before p : Part) (b : Slot) :
    ((Part.finish before p).bay b).contactClosed = (p.bay b).contactClosed ∧
    ((Part.finish before p).bay b).presence = (p.bay b).presence ∧
    ((Part.finish before p).bay b).timer = (p.bay b).timer ∧ ((Part.finish before p).bay b).gap = (p.bay b).gap :=
  (finish_acts before p).bay

theorem Part.Unlisted.of_lp {p q : Part} {i : Slot} (u : p.Unlisted i) (h : q.lp = p.lp) : q.Unlisted i :=
  (Part.Aside.of_lp h).unlisted u

/-- R25: a SETTLING slot that stands on no list becomes IDENTIFY and joins for it. -/
theorem settled_joins {p : Part} {i : Slot} (state : (p.slot i).state = .settling) (link : p.link i = .none)
    (u : p.Unlisted i) : (p.settled i).slot i = { p.slot i with state := .identify, attempts := 0 } ∧
      (p.settled i).Joined i .identify := by
  have changed := changeState_aside (p := p.updSlot i fun r => { r with attempts := 0 }) (s := .identify) (by decide)
    (u.of_lp rfl)
  have none := changed.link.trans link
  unfold Part.settled
  rw [if_pos state]
  refine ⟨?_, (joinBringUp_awaits .identify none (changed.unlisted (u.of_lp rfl))).joined⟩
  rw [joinBringUp_slot _ none, changeState_slot, updSlot_slot_self]

/-- Settles O14: the settled declaration of the bay that has become PRESENT. -/
theorem settleBeginsBringUp : Obligations.SettleBeginsBringUp := by
  intro b s normal presence timer state link u
  refine completes_after (exec_settleTimerExpiry presence timer) ?_
  rw [presenceBecomes_awake (by exact normal.awake), Part.declareSettled, declares_running (by exact normal.running)]
  generalize e : (s.part.updBay b fun r => { r with gap := .counting }).updBay b
    (fun r => { r with presence := .present, timer := .stopped }) = p
  have bay : p.bay b = { s.part.bay b with gap := .counting, presence := .present, timer := .stopped } := by
    rw [← e, updBay_bay_self, updBay_bay_self]
  have row : p.slot b = s.part.slot b := by rw [← e]; rfl
  obtain ⟨slot, joined⟩ := settled_joins (p := p) (i := b) (by rw [row]; exact state) (by rw [← e]; exact link)
    (u.of_lp (by rw [← e]; rfl))
  obtain ⟨-, hp, ht, hg⟩ := finish_bay s.part (p.settled b) b
  obtain ⟨-, kp, kt, kg⟩ := (settled_acts p b).bay (b := b)
  rw [hp, ht, hg, kp, kt, kg, bay, finish_slot, slot, row]
  exact ⟨rfl, rfl, rfl, rfl, joined.imp ((finish_link _ _ _).trans) ((finish_link _ _ _).trans)⟩

/-! ## Waking (R2, R171) -/

/-- R171: the part runs and the wake set is empty. -/
def PowerSupply.Woken (s : PowerSupply) : Prop := s.power = .run ∧ s.wakeRequests = false ∧ s.wakeBands = false

theorem wake_woken (p : Part) : p.wake.ps.Woken := by
  unfold Part.wake
  rw [((takeFromList_acts _).trans (testAll_acts _)).ps_eq]
  exact ⟨rfl, rfl, rfl⟩

theorem presenceBecomes_woken {p : Part} (h : p.asleep = true) (b : Slot) (s : Presence) (t : BayTimer) :
    (p.presenceBecomes b s t).ps.Woken := by
  unfold Part.presenceBecomes Part.presenceChanged
  rw [if_pos (by exact h)]
  exact wake_woken _

theorem contactMade_ps (p : Part) (i : Slot) : (p.contactMade i).ps = p.ps := by
  unfold Part.contactMade
  split
  · rfl
  · split
    · exact (changeState_acts p i _).ps_eq
    · rfl

theorem settleAbandoned_ps (p : Part) (i : Slot) : (p.settleAbandoned i).ps = p.ps := by
  unfold Part.settleAbandoned
  split
  · rfl
  · split
    · exact (changeState_acts p i _).ps_eq
    · rfl

theorem declareSettled_ps (p : Part) (i : Slot) : (p.declareSettled i).ps = p.ps := by
  unfold Part.declareSettled
  split
  · exact (settled_acts p i).ps_eq
  all_goals rfl

theorem declareRemoval_ps (p : Part) (i : Slot) : (p.declareRemoval i).ps = p.ps := (declareRemoval_acts p i).ps_eq

theorem contactClosed_woken {p : Part} {b : Slot} (h : p.asleep = true)
    (presence : (p.bay b).presence = .absent ∨ (p.bay b).presence = .leaving) : (p.contactClosed b).ps.Woken := by
  unfold Part.contactClosed
  rcases presence with e | e <;> rw [e]
  · rw [contactMade_ps]; exact presenceBecomes_woken h b _ _
  · rw [(deliverHeld_acts _ b).ps_eq]; exact presenceBecomes_woken h b _ _

theorem contactOpened_woken {p : Part} {b : Slot} (h : p.asleep = true)
    (presence : (p.bay b).presence = .settling ∨ (p.bay b).presence = .present) : (p.contactOpened b).ps.Woken := by
  unfold Part.contactOpened
  rcases presence with e | e <;> rw [e]
  · rw [settleAbandoned_ps]; exact presenceBecomes_woken h b _ _
  · exact presenceBecomes_woken h b _ _

theorem exec_contactCloses {s : State} {b : Slot} (isOpen : (s.part.bay b).contactClosed = false) (running : s.part.busy = false) :
    exec (.contactCloses b) s = s.after ((s.part.updBay b fun r => { r with contactClosed := true }).contactClosed b) := by
  show execContactCloses b s = _
  rw [execContactCloses, isOpen, if_neg (by decide)]
  exact congrArg s.after (if_pos (senses_running running))

theorem exec_contactOpens {s : State} {b : Slot} (closed : (s.part.bay b).contactClosed = true) (running : s.part.busy = false) :
    exec (.contactOpens b) s = s.after ((s.part.updBay b fun r => { r with contactClosed := false }).contactOpened b) := by
  show execContactOpens b s = _
  rw [execContactOpens, closed, if_pos rfl]
  exact congrArg s.after (if_pos (senses_running running))

theorem exec_removalTimerExpiry {s : State} {b : Slot} (presence : (s.part.bay b).presence = .leaving)
    (timer : (s.part.bay b).timer = .removal) : exec (.removalTimerExpiry b) s =
      s.after (((s.part.updBay b fun r => { r with settledHeld := false }).presenceBecomes b .absent .stopped).declareRemoval b) := by
  show execRemovalTimerExpiry b s = _
  simp [execRemovalTimerExpiry, presence, timer]

/-- R140, R141: POSTED written into a cell that is free or done makes it arrive. -/
theorem exec_cellArrival {s : State} {c : CellNo} (k : Byte) (running : s.part.busy = false)
    (state : s.part.cellState c = .free ∨ s.part.cellState c = .done) :
    exec (.cellArrival c k) s = s.after (s.part.cellArrives c k) := by
  have low : cellBase c < 0x600 := by have := cell_end c; omega
  have number : (⟨cellBase c / 64, by omega⟩ : CellNo) = c := Fin.ext (by simp [cellBase])
  have offset : cellBase c % 64 = 0 := by simp [cellBase]
  have arrives : s.part.engineWrite (cellBase c) CellState.posted.code k = s.part.cellArrives c k := by
    rw [Part.engineWrite, dif_pos low, offset, number, Part.writeCell, if_pos rfl, Part.writeCellState]
    rcases state with e | e <;> rw [e] <;> rfl
  show execCellArrival c k s = _
  rw [execCellArrival, State.engineWrite, running, if_neg (by decide), arrives]

/-- R79, R80: READY written into a bank that is not READY makes it arrive. -/
theorem exec_bankArrival {s : State} {b : BankNo} (f : Byte) (running : s.part.busy = false)
    (state : s.part.bankState b = .opened ∨ s.part.bankState b = .accounted) :
    exec (.bankArrival b f) s = s.after (s.part.bankArrives b f) := by
  have := b.isLt
  have high : ¬ bankBase b < 0x600 := by simp [bankBase]
  have low : bankBase b < 0xA00 := by rw [bankBase]; omega
  have number : (⟨(bankBase b - 0x600) / 256, by omega⟩ : BankNo) = b := Fin.ext (by simp [bankBase])
  have offset : (bankBase b - 0x600) % 256 = 0 := by simp [bankBase]
  have arrives : s.part.engineWrite (bankBase b) BankState.ready.code f = s.part.bankArrives b f := by
    rw [Part.engineWrite, dif_neg high, dif_pos low, offset, number, Part.writeBank, if_pos rfl]
    rcases state with e | e <;> rw [e] <;> rfl
  show execBankArrival b f s = _
  rw [execBankArrival, State.engineWrite, running, if_neg (by decide), arrives]

/-- R141, R171: the arrival of a cell is recorded, and wakes the part from SLEEP when requests are in the wake set. -/
theorem cellArrives_asleep {p : Part} (h : p.asleep = true) (c : CellNo) (k : Byte) :
    (p.cellArrives c k).rq.posted = p.rq.posted ++ [c] ∧ (p.ps.wakeRequests = true → (p.cellArrives c k).ps.Woken) ∧
      (p.ps.wakeRequests = false → (p.cellArrives c k).ps = p.ps) := by
  unfold Part.cellArrives
  extract_lets p1 _ p2
  have ps : p2.ps = p.ps := rfl
  have asleep : p2.asleep = true := h
  have posted : p2.rq.posted = p.rq.posted ++ [c] := rfl
  clear_value p2
  rw [← ps, ← posted, asleep, Bool.true_and]
  split
  · rename_i set
    exact ⟨((wake_acts p2).same .posted rfl).symm, fun _ => wake_woken p2, fun unset => by simp [set] at unset⟩
  · rename_i unset
    exact ⟨rfl, fun set => absurd set unset, fun _ => rfl⟩

/-- R80, R171: the arrival of a bank is recorded, and wakes the part from SLEEP when bands are in the wake set. -/
theorem bankArrives_asleep {p : Part} (h : p.asleep = true) (b : BankNo) (f : Byte) :
    (p.bankArrives b f).au.chargeList = p.au.chargeList ++ [.bank b] ∧ (p.ps.wakeBands = true → (p.bankArrives b f).ps.Woken) ∧
      (p.ps.wakeBands = false → (p.bankArrives b f).ps = p.ps) := by
  unfold Part.bankArrives
  extract_lets p1 _ p2
  have ps : p2.ps = p.ps := rfl
  have asleep : p2.asleep = true := h
  have list : p2.au.chargeList = p.au.chargeList ++ [.bank b] := rfl
  clear_value p2
  rw [← ps, ← list, asleep, Bool.true_and]
  split
  · rename_i set
    exact ⟨((wake_acts p2).same .chargeList rfl).symm, fun _ => wake_woken p2, fun unset => by simp [set] at unset⟩
  · rename_i unset
    exact ⟨rfl, fun set => absurd set unset, fun _ => rfl⟩

theorem finish_posted (before p : Part) : (Part.finish before p).rq.posted = p.rq.posted :=
  ((finish_acts before p).same .posted rfl).symm

theorem finish_chargeList (before p : Part) : (Part.finish before p).au.chargeList = p.au.chargeList :=
  ((finish_acts before p).same .chargeList rfl).symm

/-- Settles O16: each wake goes through `Part.wake`, and nothing after it in the step touches the power block. -/
theorem wakingFromSleep : Obligations.WakingFromSleep := by
  intro s asleep running
  have woken : ∀ {c : Instr} {p : Part}, exec c s = s.after p → p.ps.Woken → Completes c s (.ofCommand c) fun q =>
      q.ps.power = .run ∧ q.ps.wakeRequests = false ∧ q.ps.wakeBands = false := fun run w =>
    completes_after run (by rw [finish_ps]; exact w)
  refine ⟨fun b isOpen presence => ?_, fun b closed presence => ?_, ?_, fun c k state => ?_, fun k f state => ?_⟩
  · refine woken (exec_contactCloses isOpen running) (contactClosed_woken (by exact asleep) ?_)
    rw [updBay_bay_self]; exact presence
  · refine woken (exec_contactOpens closed running) (contactOpened_woken (by exact asleep) ?_)
    rw [updBay_bay_self]; exact presence
  · rintro b c (⟨rfl, presence, timer⟩ | ⟨rfl, presence, timer⟩)
    · refine woken (exec_settleTimerExpiry presence timer) ?_
      rw [declareSettled_ps]; exact presenceBecomes_woken (by exact asleep) b _ _
    · refine woken (exec_removalTimerExpiry presence timer) ?_
      rw [declareRemoval_ps]; exact presenceBecomes_woken (by exact asleep) b _ _
  · obtain ⟨posted, wakes, sleeps⟩ := cellArrives_asleep asleep c k
    refine completes_after (exec_cellArrival k running state) ?_
    rw [finish_ps, finish_posted]
    exact ⟨posted, wakes, sleeps⟩
  · obtain ⟨list, wakes, sleeps⟩ := bankArrives_asleep asleep k f
    refine completes_after (exec_bankArrival f running state) ?_
    rw [finish_ps, finish_chargeList]
    exact ⟨list, wakes, sleeps⟩

end Sys2Proof.Machine
end

-- ==== Bays: FailedAttempts ====
section
set_option Elab.async false
namespace Sys2Proof.Machine
open Sys2Proof

/-! ## The answer to a request (R144) -/

theorem cellStateOf_done : cellStateOf CellState.done.code = .done := by decide

theorem readField_one (p : Part) (a : Nat) : p.readField a 1 = (p.readByte a).toNat := by
  simp [Part.readField, Memory.readField, Memory.readBytes, fieldNumber, numberOf, Part.readByte]

/-- The result and the completion number stand in the cell, and DONE is pending. -/
theorem complete_answered {p : Part} (wf : Memory.wf p.board = true) (c : CellNo) (r : Result) (data : List Field) :
    (p.complete c r data).Answered c r (p.rq.completion + 1) := by
  have data_wf := Memory.wf_writeFields p.port.bigEndian (cellBase c + 8) data wf
  have written : ∀ f : Field, f ∈ ([⟨3, 1, r.code⟩, ⟨4, 2, (p.rq.completion + 1).toNat⟩] : List Field) → 1 ≤ f.offset →
      (p.complete c r data).readField (cellBase c + f.offset) f.width = f.value % 256 ^ f.width := fun f hf low => by
    have apart : ([⟨3, 1, r.code⟩, ⟨4, 2, (p.rq.completion + 1).toNat⟩] : List Field).Pairwise Field.Apart := by
      simp [Field.Apart]
    rw [← Memory.readField_writeFields p.port.bigEndian (cellBase c) data_wf apart hf]
    refine congrArg (fieldNumber _) (Memory.readBytes_congr _ _ _ _ fun a lo hi => ?_)
    exact Memory.read_write_ne _ _ (by omega)
  refine ⟨?_, ?_, ?_, ?_⟩
  · have state : (p.complete c r data).readByte (cellBase c) = CellState.done.code :=
      Memory.read_write_self (Memory.wf_writeFields p.port.bigEndian (cellBase c)
        [⟨3, 1, r.code⟩, ⟨4, 2, (p.rq.completion + 1).toNat⟩] data_wf) _ _
    rw [Part.cellState, state]
    exact cellStateOf_done
  · have code := written ⟨3, 1, r.code⟩ (by simp) (by simp)
    rw [readField_one] at code
    exact BitVec.eq_of_toNat_eq (by rw [code, BitVec.toNat_ofNat]; rfl)
  · have number := written ⟨4, 2, (p.rq.completion + 1).toNat⟩ (by simp) (by simp)
    rw [number]
    exact Nat.mod_eq_of_lt (BitVec.isLt _)
  · simp [Part.noticePending, Part.complete, Part.raise, NoticeClass.bit]

/-- An answer stands while nothing writes into its cell. -/
theorem Part.Answered.keep {p q : Part} {t : Views} {cell : CellNo} {r : Result} {n : Half} (h : p.Answered cell r n)
    (same : p.SameCell cell q) (acts : Part.Acts t p q) (order : t .byteOrder = false := by rfl) : q.Answered cell r n where
  state := by rw [Part.cellState, same _ (by omega) (by omega)]; exact h.state
  code := by rw [same _ (by omega) (by omega)]; exact h.code
  number := by
    rw [← h.number, Part.readField, Part.readField, ← show p.port.bigEndian = _ from acts.same .byteOrder order]
    exact congrArg (fieldNumber _) (Memory.readBytes_congr _ _ _ _ fun a lo hi => same a (by omega) (by omega))
  notice := acts.raised _ h.notice

theorem Part.Answered.finish {p : Part} {cell : CellNo} {r : Result} {n : Half} (h : p.Answered cell r n) (l : p.Loose cell)
    (before : Part) : (Part.finish before p).Answered cell r n :=
  h.keep ((finish_ebbs before p).cells cell l) (finish_acts before p)

theorem Part.Loose.complete {p : Part} {cell : CellNo} (l : p.Loose cell) (c : CellNo) (r : Result) (data : List Field) :
    (p.complete c r data).Loose cell := ⟨l.flushes, l.settings⟩

/-! ## Reports to the commit engine (R24) -/

theorem updSlot_flushes (p : Part) (i : Slot) (f : SlotRow → SlotRow) : Part.Flushes p (p.updSlot i f) := .of_same rfl rfl rfl
theorem updBay_flushes (p : Part) (i : Slot) (f : Bay → Bay) : Part.Flushes p (p.updBay i f) := .of_same rfl rfl rfl
theorem raise_flushes (p : Part) (c : NoticeClass) : Part.Flushes p (p.raise c) := .of_same rfl rfl rfl

theorem updCommit_spares {p : Part} {i : Slot} {f : CommitRow → CommitRow} (h : (f (p.commit i)).holders = (p.commit i).holders) :
    Part.Spares p (p.updCommit i f) := by
  refine ⟨fun j => .inl ?_, id, fun _ => id, fun _ _ _ _ _ => rfl⟩
  by_cases e : j = i
  · subst e; rw [updCommit_commit_self, h]
  · rw [Part.updCommit_eq, Part.setCommit_commit_ne _ _ _ _ e]

theorem markLinkLost_spares (p : Part) (i : Slot) : Part.Spares p (p.markLinkLost i) := by
  rcases markLinkLost_cases p i with ⟨e, -⟩ | e <;> rw [e]
  · exact (Part.Flushes.refl p).toSpares
  · exact (updCommit_spares rfl).trans (recordCommit_flushes _ i).toSpares

/-- R24: the reported slot's row shows LINK_LOST as its state says. -/
theorem markLinkLost_commit_self (p : Part) (i : Slot) : (p.markLinkLost i).commit i =
    { p.commit i with linkLost := (p.slot i).linkLostAfter (p.commit i).linkLost } := by
  rcases markLinkLost_cases p i with ⟨e, kept⟩ | e <;> rw [e]
  · rw [kept]
  · rw [← show Part.commit _ i = _ from (recordCommit_acts _ i).same (.commit i) rfl, updCommit_commit_self]

/-- After the marking a report is the flush's and the link pool's work. -/
theorem reportToCommit_flushes (p : Part) (i : Slot) : Part.Flushes (p.markLinkLost i) (p.reportToCommit i) :=
  (examineFlush_flushes _ i).trans (testCommit_flushes _ i)

theorem reportToCommit_spares (p : Part) (i : Slot) : Part.Spares p (p.reportToCommit i) :=
  (markLinkLost_spares p i).trans (reportToCommit_flushes p i).toSpares

theorem reportToCommit_row (p : Part) (i : Slot) :
    CommitRow.Ebbs { p.commit i with linkLost := (p.slot i).linkLostAfter (p.commit i).linkLost } ((p.reportToCommit i).commit i) :=
  markLinkLost_commit_self p i ▸ (reportToCommit_flushes p i).rows i

theorem reportSlot_spares (p : Part) (i : Slot) : Part.Spares p (p.reportSlot i) :=
  ((recordIdentity_flushes p i).trans (raise_flushes _ _)).toSpares.trans (reportToCommit_spares _ i)

theorem reportSlot_linkLost {p : Part} {i : Slot} (h : (p.slot i).state = .linkLost) :
    ((p.reportSlot i).commit i).linkLost = true := by
  have row : ((p.recordIdentity i).raise .slot).slot i = p.slot i := ((recordIdentity_acts p i).same (.slot i) rfl).symm
  rw [Part.reportSlot, (reportToCommit_row _ i).linkLost, row]
  simp [SlotRow.linkLostAfter, h]

/-! ## The answer to a parked REVERIFY (R38) -/

theorem finishReverify_slot (p : Part) (i : Slot) (r : Result) (data : List Field) :
    (p.finishReverify i r data).slot i = { p.slot i with parkedCell := none } := by
  unfold Part.finishReverify
  cases parked : (p.slot i).parkedCell with
  | some cell => exact updSlot_slot_self p i fun row => { row with parkedCell := none }
  | none => exact congrArg (fun c => ({ p.slot i with parkedCell := c } : SlotRow)) parked

theorem finishReverify_commit (p : Part) (i : Slot) (r : Result) (data : List Field) (j : Slot) :
    (p.finishReverify i r data).commit j = p.commit j := by
  unfold Part.finishReverify
  split <;> rfl

theorem finishReverify_answered {p : Part} {i : Slot} {cell : CellNo} (parked : (p.slot i).parkedCell = some cell)
    (wf : Memory.wf p.board = true) (l : p.Loose cell) (r : Result) (data : List Field) :
    (∃ n, (p.finishReverify i r data).Answered cell r n) ∧ (p.finishReverify i r data).Loose cell := by
  unfold Part.finishReverify
  rw [parked]
  exact ⟨⟨_, complete_answered (p := p.updSlot i _) wf cell r data⟩, ⟨l.flushes, l.settings⟩⟩

/-! ## A failed attempt of a bring-up or a reverify (R27, R40) -/

theorem attemptFailed_retries {p : Part} {i : Slot} (few : (p.slot i).attempts < 2) :
    (p.attemptFailed i).slot i = { p.slot i with attempts := (p.slot i).attempts + 1, timer := .retry } := by
  unfold Part.attemptFailed
  rw [if_pos (by omega), updSlot_slot_self, updSlot_slot_self]

/-- The slot with one more failed attempt. -/
def Part.countAttempt (p : Part) (i : Slot) : Part := p.updSlot i fun r => { r with attempts := (p.slot i).attempts + 1 }

theorem countAttempt_slot (p : Part) (i : Slot) :
    (p.countAttempt i).slot i = { p.slot i with attempts := (p.slot i).attempts + 1 } := updSlot_slot_self p i _

theorem attemptFailed_rejects {p : Part} {i : Slot} (many : 2 ≤ (p.slot i).attempts) (state : (p.slot i).state ≠ .reverify) :
    p.attemptFailed i = (p.countAttempt i).rejectUnreadable i := by
  unfold Part.attemptFailed
  rw [if_neg (by omega), updSlot_slot_self, if_neg (by exact state)]
  rfl

theorem attemptFailed_suspends {p : Part} {i : Slot} (many : 2 ≤ (p.slot i).attempts) (state : (p.slot i).state = .reverify) :
    p.attemptFailed i = (p.countAttempt i).suspendReverify i := by
  unfold Part.attemptFailed
  rw [if_neg (by omega), updSlot_slot_self, if_pos (by exact state)]
  rfl

theorem reportSlot_of_notice {p : Part} {c : NoticeClass} (h : p.noticePending c = true) (i : Slot) :
    (p.reportSlot i).noticePending c = true := (reportSlot_acts p i).raised _ h

theorem finishReverify_notice {p : Part} {c : NoticeClass} (h : p.noticePending c = true) (i : Slot) (r : Result) :
    (p.finishReverify i r []).noticePending c = true := (finishReverify_acts p i r [] (FitsIn.nil _)).raised _ h

/-- R24: a report of state and verdict spares the cells, keeps the slot's row, and makes SLOT and VERDICT pending. -/
theorem reportVerdict_keeps {p q : Part} {i : Slot} (e : q = (((p.recordIdentity i).raise .slot).raise .verdict).reportToCommit i) :
    Part.Spares p q ∧ q.slot i = p.slot i ∧ q.noticePending .slot = true ∧ q.noticePending .verdict = true := by
  have recorded := recordIdentity_acts p i
  have reported := reportToCommit_acts (((p.recordIdentity i).raise .slot).raise .verdict) i
  rw [e]
  refine ⟨?_, ?_, ?_, ?_⟩
  · exact ((recordIdentity_flushes p i).trans ((raise_flushes _ _).trans (raise_flushes _ _))).toSpares.trans (reportToCommit_spares _ i)
  · exact (reported.same (.slot i) rfl).symm.trans (recorded.same (.slot i) rfl).symm
  · exact reported.raised _ (by simp [Part.raise, NoticeClass.bit])
  · exact reported.raised _ (by simp [Part.raise, NoticeClass.bit])

/-- R27: a bring-up that has failed three times leaves its slot REJECTED as UNREADABLE and answers a parked REVERIFY. -/
theorem rejectUnreadable_ends (p : Part) (i : Slot) :
    (p.rejectUnreadable i).slot i =
        { p.slot i with state := .rejected, verdict := some .unreadable, timer := .stopped, parkedCell := none } ∧
      (p.rejectUnreadable i).noticePending .slot = true ∧ (p.rejectUnreadable i).noticePending .verdict = true ∧
      ∀ cell, (p.slot i).parkedCell = some cell → Memory.wf p.board = true → p.Loose cell →
        (∃ n, (p.rejectUnreadable i).Answered cell .linkFailed n) ∧ (p.rejectUnreadable i).Loose cell := by
  unfold Part.rejectUnreadable
  extract_lets p1 p2
  have row : p1.slot i = { p.slot i with state := .rejected, verdict := some .unreadable, timer := .stopped } :=
    updSlot_slot_self p i _
  have changed : Part.Spares p p1 := (updSlot_flushes p i _).toSpares
  clear_value p1
  obtain ⟨spares, slot, notice, verdict⟩ := reportVerdict_keeps (q := p2) rfl
  clear_value p2
  rw [finishReverify_slot, slot, row]
  refine ⟨rfl, finishReverify_notice notice i _, finishReverify_notice verdict i _, fun cell parked wf l =>
    finishReverify_answered ?_ (spares.wf (changed.wf wf)) (spares.loose (changed.loose l)) _ _⟩
  rw [slot, row]
  exact parked

/-- R40: a reverify that has failed three times leaves its slot LINK_LOST with the reverify open and answers its request. -/
theorem suspendReverify_ends (p : Part) (i : Slot) :
    (p.suspendReverify i).slot i =
        { p.slot i with reverifyOpen := true, state := .linkLost, timer := .probe, parkedCell := none } ∧
      ((p.suspendReverify i).commit i).linkLost = true ∧ (p.suspendReverify i).noticePending .slot = true ∧
      ∀ cell, (p.slot i).parkedCell = some cell → Memory.wf p.board = true → p.Loose cell →
        (∃ n, (p.suspendReverify i).Answered cell .linkFailed n) ∧ (p.suspendReverify i).Loose cell := by
  unfold Part.suspendReverify Part.becomeLinkLost
  generalize e : (p.updSlot i fun r => { r with reverifyOpen := true }).updSlot i
    (fun r => { r with state := .linkLost, timer := .probe }) = p1
  have p1_slot : p1.slot i = { p.slot i with reverifyOpen := true, state := .linkLost, timer := .probe } := by
    rw [← e, updSlot_slot_self, updSlot_slot_self]
  have spares : Part.Spares p (p1.reportSlot i) :=
    (e ▸ ((updSlot_flushes p i _).trans (updSlot_flushes _ i _)).toSpares : Part.Spares p p1).trans (reportSlot_spares p1 i)
  rw [finishReverify_slot, finishReverify_commit, reportSlot_slot, p1_slot]
  refine ⟨rfl, reportSlot_linkLost (by rw [p1_slot]), finishReverify_notice (reportSlot_notice p1 i) i _,
    fun cell parked wf l => finishReverify_answered ?_ (spares.wf wf) (spares.loose l) _ _⟩
  rw [reportSlot_slot, p1_slot]
  exact parked

/-! ## The outcome of a single hold (R16, R17) -/

/-- R5: the gap of a line once the frame of an operation with this outcome has ended. -/
def LinkOutcome.gapAfter (o : LinkOutcome) (low : Bool) : LineGap := if o.isFailure && low then .heldLow else .counting

/-- R5: a frame has ended on the bay's line. -/
def Part.frameEnds (p : Part) (b : Slot) (g : LineGap) : Part := p.updBay b fun r => { r with gap := g }

/-- R8, R18: in a bay that is PRESENT the outcome is handed over once the frame has ended. -/
theorem judged_present {p : Part} {b : Slot} (present : (p.bay b).presence = .present) (h : Hold) (o : LinkOutcome) (low : Bool) :
    p.judged b h o low = (p.frameEnds b (o.gapAfter low)).deliverOutcome b o := by
  rw [Part.judged, Part.operationEnds, updBay_bay_self]
  exact if_neg (by rw [present]; decide)

/-- A single hold ends with its operation, and the engine is free before the slot manager acts. -/
theorem deliverOutcome_single {p : Part} {i : Slot} {h : Hold} (link : p.link i = .held h) (single : h.commit = false)
    (o : LinkOutcome) : p.deliverOutcome i o = (p.endHold i).slotOutcome i o := by
  unfold Part.deliverOutcome
  rw [link]
  exact if_neg (by simp [single])

/-- The outcome of a commit hold goes to the commit engine. -/
theorem deliverOutcome_commit {p : Part} {i : Slot} {h : Hold} (link : p.link i = .held h) (commit : h.commit = true)
    (o : LinkOutcome) : p.deliverOutcome i o = p.commitOutcome i h o := by
  unfold Part.deliverOutcome
  rw [link]
  exact if_pos commit

theorem endHold_slot (p : Part) (i j : Slot) : (p.endHold i).slot j = p.slot j :=
  ((endHold_acts p i).same (.slot j) rfl).symm

theorem endHold_ps (p : Part) (i : Slot) : (p.endHold i).ps = p.ps := (endHold_acts p i).ps_eq

theorem frameEnds_flushes (p : Part) (b : Slot) (g : LineGap) : Part.Flushes p (p.frameEnds b g) := updBay_flushes p b _

/-- The end of a frame and of the slot's hold leave its row, the power block and the cells. -/
theorem frameEnds_ends (p : Part) (b : Slot) (g : LineGap) : Part.Spares p ((p.frameEnds b g).endHold b) ∧
    ((p.frameEnds b g).endHold b).slot b = p.slot b ∧ ((p.frameEnds b g).endHold b).ps = p.ps ∧
      (((p.frameEnds b g).endHold b).bay b).gap = g := by
  obtain ⟨-, -, -, gap⟩ := (endHold_acts (p.frameEnds b g) b).bay (b := b)
  refine ⟨((frameEnds_flushes p b g).trans (endHold_flushes (p.frameEnds b g) b)).toSpares, ?_, ?_, ?_⟩
  · rw [endHold_slot]; rfl
  · rw [endHold_ps]; rfl
  · rw [gap, Part.frameEnds, updBay_bay_self]

/-- R27, R39: a failure of the operation that a bring-up or a reverify waits for is a failed attempt. -/
theorem slotOutcome_failed {p : Part} {i : Slot} {o : LinkOutcome} (running : p.busy = false)
    (state : (p.slot i).state = .identify ∨ (p.slot i).state = .challenge ∨ (p.slot i).state = .reverify)
    (failure : o.isFailure = true) : p.slotOutcome i o = p.attemptFailed i := by
  have failed : p.outcomeFailed i o = p.attemptFailed i := if_pos failure
  rw [← failed]
  unfold Part.slotOutcome
  rw [if_neg (by simp [running])]
  cases o with
  | noResponse | checkError | malformed | refused => rcases state with e | e | e <;> rw [e]
  | tallyFull | identified _ | challenged _ | tallyRead _ | advanced _ _ => cases failure

theorem attemptFailed_attempts (p : Part) (i : Slot) :
    ((p.attemptFailed i).slot i).attempts = (p.slot i).attempts + 1 := by
  rcases Nat.lt_or_ge (p.slot i).attempts 2 with few | many
  · rw [attemptFailed_retries few]
  · by_cases state : (p.slot i).state = .reverify
    · rw [attemptFailed_suspends many state, (suspendReverify_ends _ i).1, countAttempt_slot]
    · rw [attemptFailed_rejects many state, (rejectUnreadable_ends _ i).1, countAttempt_slot]

/-- Settles O19: the failed attempt that the end of the hold hands to the slot manager. -/
theorem failedOperationCountsAnAttempt : Obligations.FailedOperationCountsAnAttempt := by
  intro b low s h c o normal holds state ends failure
  have run := exec_ends holds.link (.inr (lineOn_of_present normal.awake holds.present)) ends
  rw [judged_present holds.present, deliverOutcome_single (by exact holds.link) holds.single] at run
  have ended := (frameEnds_ends s.part b (o.gapAfter low))
  generalize (s.part.frameEnds b (o.gapAfter low)).endHold b = r at *
  obtain ⟨spares, slot, ps, gap⟩ := ended
  rw [slotOutcome_failed (p := r) (i := b) (by rw [Part.busy, ps]; exact normal.running) (by rw [slot]; exact state) failure] at run
  refine completes_after run ⟨?_, ?_, fun few => ?_, fun many => ?_⟩
  · obtain ⟨-, -, -, finished⟩ := finish_bay s.part (r.attemptFailed b) b
    obtain ⟨-, -, -, failed⟩ := (attemptFailed_acts r b).bay (b := b)
    rw [finished, failed, gap, LinkOutcome.gapAfter, failure, Bool.true_and]
  · rw [finish_slot, attemptFailed_attempts, slot]
  · rw [finish_slot, attemptFailed_retries (p := r) (i := b) (by rw [slot]; exact few), slot]
  · have counted : Part.Spares s.part (r.countAttempt b) := spares.trans (updSlot_flushes r b _).toSpares
    have row := countAttempt_slot r b
    rw [slot] at row
    have answers : ∀ {q : Part} {cell : CellNo}, (∃ n, q.Answered cell .linkFailed n) ∧ q.Loose cell →
        ∃ n, (Part.finish s.part q).Answered cell .linkFailed n := fun ⟨⟨n, a⟩, l⟩ => ⟨n, a.finish l s.part⟩
    by_cases reverify : (s.part.slot b).state = .reverify
    · obtain ⟨ended, lost, notice, answered⟩ := suspendReverify_ends (r.countAttempt b) b
      rw [attemptFailed_suspends (p := r) (i := b) (by rw [slot]; exact many) (by rw [slot]; exact reverify), finish_slot, ended, row]
      refine ⟨fun other => absurd reverify other, fun _ => ⟨rfl, ?_, finish_notice notice⟩, fun cell parked wf l =>
        answers (answered cell (by rw [row]; exact parked) (counted.wf wf) (counted.loose l))⟩
      exact ((finish_ebbs s.part _).rows b).linkLost.trans lost
    · obtain ⟨ended, notice, verdict, answered⟩ := rejectUnreadable_ends (r.countAttempt b) b
      rw [attemptFailed_rejects (p := r) (i := b) (by rw [slot]; exact many) (by rw [slot]; exact reverify), finish_slot, ended, row]
      exact ⟨fun _ => ⟨rfl, rfl, rfl, rfl, finish_notice notice, finish_notice verdict⟩, fun e => absurd e reverify,
        fun cell parked wf l => answers (answered cell (by rw [row]; exact parked) (counted.wf wf) (counted.loose l))⟩

end Sys2Proof.Machine
end

-- ==== Bays: FailedCommits ====
section
set_option Elab.async false
namespace Sys2Proof.Machine
open Sys2Proof

/-! ## Writes into history entries (R47, R51) -/

theorem updPlace_place_self (p : Part) (k : Fin 64) (f : PlaceRow → PlaceRow) : (p.updPlace k f).place k = f (p.place k) :=
  Part.setPlace_place_self p k _

theorem updPlace_place_ne (p : Part) {j k : Fin 64} (f : PlaceRow → PlaceRow) (h : j ≠ k) :
    (p.updPlace k f).place j = p.place j := Part.setPlace_place_ne p k _ j h

theorem enqueuePlace_place (p : Part) (k j : Fin 64) : (p.enqueuePlace k).place j = p.place j := by
  unfold Part.enqueuePlace
  split <;> rfl

theorem dirtyPlace_place (p : Part) (k j : Fin 64) :
    (p.dirtyPlace k).place j = if j = k then ⟨(p.place k).entry, true⟩ else p.place j := by
  have dirtied : (p.dirtyPlace k).place j = (p.updPlace k fun r => { r with dirty := true }).place j := by
    unfold Part.dirtyPlace
    extract_lets q
    split
    · rfl
    · exact enqueuePlace_place q k j
  rw [dirtied]
  split
  case isTrue e => rw [e, updPlace_place_self]
  case isFalse e => exact updPlace_place_ne p _ e

/-- R47, R51: a written entry stands in its place, which is dirty; every other place is as it was. -/
theorem changeEntry_place (p : Part) (k : Fin 64) (f : Entry → Entry) (j : Fin 64) :
    (p.changeEntry k f).place j = if j = k then ⟨(p.place k).entry.map f, true⟩ else p.place j := by
  unfold Part.changeEntry
  rw [dirtyPlace_place, updPlace_place_self]
  split
  case isTrue e => rfl
  case isFalse e => exact updPlace_place_ne p _ e

theorem changeLinkedEntry_place {p : Part} {i : Slot} {k : Fin 64} {e : Entry} (link : p.linkedPlace i = some k)
    (entry : (p.place k).entry = some e) (f : Entry → Entry) : (p.changeLinkedEntry i f).place k = ⟨some (f e), true⟩ := by
  unfold Part.changeLinkedEntry
  rw [link]
  exact (changeEntry_place p k f k).trans (by rw [if_pos rfl, entry]; rfl)

theorem changeLinkedEntry_commit (p : Part) (i : Slot) (f : Entry → Entry) (j : Slot) :
    (p.changeLinkedEntry i f).commit j = p.commit j := ((changeLinkedEntry_acts p i f).same (.commit j) rfl).symm

theorem recordCommit_commit (p : Part) (i j : Slot) : (p.recordCommit i).commit j = p.commit j :=
  ((recordCommit_acts p i).same (.commit j) rfl).symm

theorem recordCommit_place (p : Part) (i : Slot) (k : Fin 64) : (p.recordCommit i).place k = p.place k :=
  ((recordCommit_acts p i).same (.place k) rfl).symm

/-! ## Units in doubt (R122, R129) -/

/-- R122: the units in doubt stand in the slot and in its entry. -/
theorem setInDoubt_commit_self (p : Part) (i : Slot) (n : Nat) : (p.setInDoubt i n).commit i = { p.commit i with inDoubt := n } := by
  unfold Part.setInDoubt
  rw [recordCommit_commit, changeLinkedEntry_commit, updCommit_commit_self]

theorem setInDoubt_place {p : Part} {i : Slot} {k : Fin 64} {e : Entry} (link : p.linkedPlace i = some k)
    (entry : (p.place k).entry = some e) (n : Nat) : (p.setInDoubt i n).place k = ⟨some { e with inDoubt := n }, true⟩ := by
  unfold Part.setInDoubt
  rw [recordCommit_place]
  exact changeLinkedEntry_place (p := p.updCommit i _) link entry _

/-- R129: a sent ADVANCE_TALLY becomes units in doubt. -/
theorem doubtUnsettled_sent {p : Part} {i : Slot} {a : Advance} (sent : (p.commit i).unsettled = some a) :
    p.doubtUnsettled i = (p.clearUnsettled i).setInDoubt i a.units := by
  unfold Part.doubtUnsettled
  rw [sent]
  rfl

theorem doubtUnsettled_none {p : Part} {i : Slot} (none : (p.commit i).unsettled = none) : p.doubtUnsettled i = p := by
  unfold Part.doubtUnsettled
  rw [none]

theorem clearUnsettled_commit_self (p : Part) (i : Slot) :
    (p.clearUnsettled i).commit i = { p.commit i with unsettled := none } := updCommit_commit_self p i _

theorem clearUnsettled_none {p : Part} {i : Slot} (none : (p.commit i).unsettled = none) :
    (p.clearUnsettled i).commit i = p.commit i := by
  rw [clearUnsettled_commit_self, ← none]

/-! ## A link failure (R42) -/

/-- Between two commit rows the volume to commit, the units in doubt and the unsettled ADVANCE_TALLY are the same. -/
structure CommitRow.SameWork (r r' : CommitRow) : Prop where
  uncommitted : r'.uncommitted = r.uncommitted
  inDoubt : r'.inDoubt = r.inDoubt
  unsettled : r'.unsettled = r.unsettled

theorem CommitRow.SameWork.refl (r : CommitRow) : r.SameWork r := ⟨rfl, rfl, rfl⟩

theorem CommitRow.SameWork.trans {r r' r'' : CommitRow} (h : r.SameWork r') (k : r'.SameWork r'') : r.SameWork r'' :=
  ⟨k.uncommitted.trans h.uncommitted, k.inDoubt.trans h.inDoubt, k.unsettled.trans h.unsettled⟩

theorem Part.Flushes.sameWork {p q : Part} (h : Part.Flushes p q) (i : Slot) : (p.commit i).SameWork (q.commit i) :=
  ⟨h.uncommitted i, h.inDoubt i, (h.rows i).unsettled⟩

theorem reportSlot_sameWork (p : Part) (i : Slot) : (p.commit i).SameWork ((p.reportSlot i).commit i) := by
  have recorded := ((recordIdentity_flushes p i).trans (raise_flushes _ .slot)).sameWork i
  have marked := markLinkLost_commit_self ((p.recordIdentity i).raise .slot) i
  exact recorded.trans (.trans (marked ▸ ⟨rfl, rfl, rfl⟩) ((reportToCommit_flushes _ i).sameWork i))

theorem linkFailed_other {p : Part} {i : Slot} (state : (p.slot i).state ≠ .inService) : p.linkFailed i = p := if_neg state

/-- R42: below the third failure only the count changes. -/
theorem linkFailed_counts {p : Part} {i : Slot} (state : (p.slot i).state = .inService) (few : (p.slot i).linkFailures < 2) :
    p.linkFailed i = p.updSlot i fun r => { r with linkFailures := (p.slot i).linkFailures + 1 } := by
  unfold Part.linkFailed
  rw [if_pos state, if_neg (by omega)]

/-- R42: at the third failure the slot is LINK_LOST. -/
theorem linkFailed_loses {p : Part} {i : Slot} (state : (p.slot i).state = .inService) (many : 2 ≤ (p.slot i).linkFailures) :
    p.linkFailed i = (p.updSlot i fun r => { r with linkFailures := (p.slot i).linkFailures + 1 }).becomeLinkLost i := by
  unfold Part.linkFailed
  rw [if_pos state, if_pos (by omega)]

theorem becomeLinkLost_slot (p : Part) (i : Slot) :
    (p.becomeLinkLost i).slot i = { p.slot i with state := .linkLost, timer := .probe } := by
  rw [Part.becomeLinkLost, reportSlot_slot, updSlot_slot_self]

theorem becomeLinkLost_linkLost (p : Part) (i : Slot) : ((p.becomeLinkLost i).commit i).linkLost = true :=
  reportSlot_linkLost (by rw [updSlot_slot_self])

/-- R42: what a link failure counts, and when it makes the slot LINK_LOST. -/
theorem linkFailed_slot (p : Part) (i : Slot) :
    ((p.slot i).state = .inService →
        ((p.linkFailed i).slot i).linkFailures = (p.slot i).linkFailures + 1 ∧
        ((p.slot i).linkFailures < 2 → ((p.linkFailed i).slot i).state = .inService) ∧
        (2 ≤ (p.slot i).linkFailures → ((p.linkFailed i).slot i).state = .linkLost ∧ ((p.linkFailed i).slot i).timer = .probe ∧
          ((p.linkFailed i).commit i).linkLost = true)) ∧
      ((p.slot i).state ≠ .inService → (p.linkFailed i).slot i = p.slot i) := by
  refine ⟨fun state => ?_, fun state => by rw [linkFailed_other state]⟩
  rcases Nat.lt_or_ge (p.slot i).linkFailures 2 with few | many
  · rw [linkFailed_counts state few, updSlot_slot_self]
    exact ⟨rfl, fun _ => state, fun many => absurd few (by omega)⟩
  · rw [linkFailed_loses state many, becomeLinkLost_slot, updSlot_slot_self]
    exact ⟨rfl, fun few => absurd few (by omega), fun _ => ⟨rfl, rfl, becomeLinkLost_linkLost _ i⟩⟩

theorem linkFailed_sameWork (p : Part) (i : Slot) : (p.commit i).SameWork ((p.linkFailed i).commit i) := by
  by_cases state : (p.slot i).state = .inService
  · rcases Nat.lt_or_ge (p.slot i).linkFailures 2 with few | many
    · rw [linkFailed_counts state few]; exact .refl _
    · rw [linkFailed_loses state many]
      exact reportSlot_sameWork (((p.updSlot i fun r => { r with linkFailures := (p.slot i).linkFailures + 1 })).updSlot i
        fun r => { r with state := .linkLost, timer := .probe }) i
  · rw [linkFailed_other state]; exact .refl _

/-! ## A failed operation of a commit hold (R129) -/

/-- What an ADVANCE_TALLY that has failed leaves: nothing unsettled, and units in doubt unless it was REFUSED. -/
def Part.settleFailed (p : Part) (i : Slot) (o : LinkOutcome) : Part :=
  if o = .refused then p.clearUnsettled i else p.doubtUnsettled i

theorem commitFailed_eq (p : Part) (i : Slot) (o : LinkOutcome) :
    p.commitFailed i o = (((p.settleFailed i o).endFlush i .linkFailed).linkFailed i).endHold i := rfl

/-- The failure itself leaves the slot's work and the history as `settleFailed` has made them. -/
theorem commitFailed_keeps (p : Part) (i : Slot) (o : LinkOutcome) :
    ((p.settleFailed i o).commit i).SameWork ((p.commitFailed i o).commit i) ∧
      ∀ k, (p.commitFailed i o).place k = (p.settleFailed i o).place k := by
  have flushed := endFlush_acts (p.settleFailed i o) i .linkFailed
  have failed := linkFailed_acts ((p.settleFailed i o).endFlush i .linkFailed) i
  have ended := endHold_acts (((p.settleFailed i o).endFlush i .linkFailed).linkFailed i) i
  rw [commitFailed_eq]
  exact ⟨((endFlush_flushes _ i _).sameWork i).trans ((linkFailed_sameWork _ i).trans ((endHold_flushes _ i).sameWork i)),
    fun k => ((flushed.same (.place k) rfl).trans ((failed.same (.place k) rfl).trans (ended.same (.place k) rfl))).symm⟩

theorem settleFailed_slot (p : Part) (i : Slot) (o : LinkOutcome) (j : Slot) : (p.settleFailed i o).slot j = p.slot j := by
  unfold Part.settleFailed
  split
  · rfl
  · exact ((doubtUnsettled_acts p i).same (.slot j) rfl).symm

theorem settleFailed_foldAtWrite (p : Part) (i : Slot) (o : LinkOutcome) : (p.settleFailed i o).hs.foldAtWrite = p.hs.foldAtWrite := by
  unfold Part.settleFailed
  split
  · rfl
  · exact ((doubtUnsettled_acts p i).same .foldAtWrite rfl).symm

theorem commitFailed_foldAtWrite (p : Part) (i : Slot) (o : LinkOutcome) :
    (p.commitFailed i o).hs.foldAtWrite = p.hs.foldAtWrite := by
  have flushed := endFlush_acts (p.settleFailed i o) i .linkFailed
  have failed := linkFailed_acts ((p.settleFailed i o).endFlush i .linkFailed) i
  have ended := endHold_acts (((p.settleFailed i o).endFlush i .linkFailed).linkFailed i) i
  rw [commitFailed_eq, ← settleFailed_foldAtWrite p i o]
  exact ((flushed.same .foldAtWrite rfl).trans ((failed.same .foldAtWrite rfl).trans (ended.same .foldAtWrite rfl))).symm

/-- The failure is a link failure of the slot. -/
theorem commitFailed_slot (p : Part) (i : Slot) (o : LinkOutcome) :
    ∃ q : Part, q.slot i = p.slot i ∧ (p.commitFailed i o).slot i = (q.linkFailed i).slot i ∧
      ((p.commitFailed i o).commit i).linkLost = ((q.linkFailed i).commit i).linkLost := by
  refine ⟨(p.settleFailed i o).endFlush i .linkFailed, ?_, ?_, ?_⟩
  · exact ((endFlush_acts _ i _).same (.slot i) rfl).symm.trans (settleFailed_slot p i o i)
  · rw [commitFailed_eq, endHold_slot]
  · rw [commitFailed_eq]
    exact ((endHold_flushes _ i).rows i).linkLost

/-- The uncommitted volume stays where an operation fails. -/
theorem settleFailed_uncommitted (p : Part) (i : Slot) (o : LinkOutcome) :
    ((p.settleFailed i o).commit i).uncommitted = (p.commit i).uncommitted := by
  unfold Part.settleFailed
  split
  · rw [clearUnsettled_commit_self]
  · cases sent : (p.commit i).unsettled with
    | none => rw [doubtUnsettled_none sent]
    | some a => rw [doubtUnsettled_sent sent, setInDoubt_commit_self, clearUnsettled_commit_self]

/-- Of a sent ADVANCE_TALLY that has failed the units are in doubt, in the slot and in its entry, unless it was REFUSED. -/
theorem settleFailed_sent {p : Part} {i : Slot} {a : Advance} (sent : (p.commit i).unsettled = some a) (o : LinkOutcome) :
    ((p.settleFailed i o).commit i).unsettled = none ∧
      (o ≠ .refused → ((p.settleFailed i o).commit i).inDoubt = a.units ∧
        ∀ k e, p.linkedPlace i = some k → (p.place k).entry = some e →
          (p.settleFailed i o).place k = ⟨some { e with inDoubt := a.units }, true⟩) ∧
      (o = .refused → ((p.settleFailed i o).commit i).inDoubt = (p.commit i).inDoubt ∧
        ∀ k, (p.settleFailed i o).place k = p.place k) := by
  unfold Part.settleFailed
  split
  case isTrue refused =>
    rw [clearUnsettled_commit_self]
    exact ⟨rfl, fun other => absurd refused other, fun _ => ⟨rfl, fun _ => rfl⟩⟩
  case isFalse other =>
    rw [doubtUnsettled_sent sent, setInDoubt_commit_self, clearUnsettled_commit_self]
    exact ⟨rfl, fun _ => ⟨rfl, fun k e link entry => setInDoubt_place (p := p.clearUnsettled i) link entry _⟩,
      fun refused => absurd refused other⟩

/-- Of an operation that has sent nothing nothing is in doubt. -/
theorem settleFailed_unsent {p : Part} {i : Slot} (unsent : (p.commit i).unsettled = none) (o : LinkOutcome) :
    ((p.settleFailed i o).commit i).inDoubt = (p.commit i).inDoubt ∧ ∀ k, (p.settleFailed i o).place k = p.place k := by
  unfold Part.settleFailed
  split
  · rw [clearUnsettled_none unsent]; exact ⟨rfl, fun _ => rfl⟩
  · rw [doubtUnsettled_none unsent]; exact ⟨rfl, fun _ => rfl⟩

theorem commitOutcome_failed {p : Part} {i : Slot} {h : Hold} {o : LinkOutcome} (failure : o.isFailure = true) :
    p.commitOutcome i h o = p.commitFailed i o := by
  cases o with
  | noResponse | checkError | malformed | refused => rfl
  | tallyFull | identified _ | challenged _ | tallyRead _ | advanced _ _ => cases failure

/-- Settles O23: the failure that the commit engine is handed, and the end of a step that folds nothing. -/
theorem unansweredAdvanceIsInDoubt : Obligations.UnansweredAdvanceIsInDoubt := by
  intro b low s h c o link commit present ends failure on fold
  have run := exec_ends link (on.imp_right fun awake => lineOn_of_present awake present) ends
  rw [judged_present present, deliverOutcome_commit (by exact link) commit, commitOutcome_failed failure] at run
  generalize framed : s.part.frameEnds b (o.gapAfter low) = p at run
  have row : p.commit b = s.part.commit b := by rw [← framed]; rfl
  have slot : p.slot b = s.part.slot b := by rw [← framed]; rfl
  have place : ∀ k, p.place k = s.part.place k := fun k => by rw [← framed]; rfl
  have linked : p.linkedPlace b = s.part.linkedPlace b := by rw [← framed]; rfl
  have finished := finish_acts_plain s.part (p.commitFailed b o)
    (by rw [commitFailed_foldAtWrite, ← framed]; exact fold)
  obtain ⟨kept, places⟩ := commitFailed_keeps p b o
  obtain ⟨q, q_slot, failed, lost⟩ := commitFailed_slot p b o
  obtain ⟨counted, other⟩ := linkFailed_slot q b
  rw [q_slot, slot] at counted other
  refine completes_after run ?_
  rw [finish_slot, ← show Part.commit _ b = _ from finished.same (.commit b) rfl, failed, lost, kept.unsettled, kept.inDoubt,
    kept.uncommitted, settleFailed_uncommitted, row]
  have final : ∀ k, (Part.finish s.part (p.commitFailed b o)).place k = (p.settleFailed b o).place k := fun k =>
    (finished.same (.place k) rfl).symm.trans (places k)
  refine ⟨fun n a _ _ sent => ?_, fun _ unsent => ?_, rfl, counted, other⟩
  · obtain ⟨none, doubt, refused⟩ := settleFailed_sent (p := p) (i := b) (by rw [row]; exact sent) o
    refine ⟨none, fun answered => ?_, fun e => ?_⟩
    · obtain ⟨units, entry⟩ := doubt answered
      refine ⟨units, fun k e place_k entry_k => ?_⟩
      rw [final, entry k e (linked.trans place_k) ((congrArg _ (place k)).trans entry_k)]
      exact ⟨rfl, rfl⟩
    · obtain ⟨units, same⟩ := refused e
      exact ⟨by rw [units, row], fun k => by rw [final, same, place]⟩
  · obtain ⟨units, same⟩ := settleFailed_unsent (p := p) (i := b) (by rw [row]; exact unsent) o
    exact ⟨by rw [units, row], fun k => by rw [final, same, place]⟩

end Sys2Proof.Machine
end

-- ==== Bays: Contacts ====
section
set_option Elab.async false
namespace Sys2Proof.Machine
open Sys2Proof

/-! ## The digest queue (R35) -/

theorem takeDigest_waiting (p : Part) : p.takeDigest.dg.queue = p.dg.queue ∧ p.takeDigest.dg.behind = p.dg.behind := by
  unfold Part.takeDigest
  split <;> exact ⟨rfl, rfl⟩

/-- The end of a step takes the head of the digest queue, which stays on it. -/
theorem finish_digests (before p : Part) :
    (Part.finish before p).dg.queue = p.dg.queue ∧ (Part.finish before p).dg.behind = p.dg.behind := by
  have synced := (syncRecords_acts before p.takeDigest.saverTake.closeWrites).same .digests rfl
  have saved := (saverTake_acts p.takeDigest).same .digests rfl
  have dg : (Part.finish before p).dg = p.takeDigest.dg := by
    unfold Part.finish
    obtain ⟨l, e⟩ := keepBrightness_eq before (Part.syncRecords before p.takeDigest.saverTake.closeWrites).choosePatterns
    rw [e]
    exact synced.symm.trans saved.symm
  rw [dg]
  exact takeDigest_waiting p

theorem finish_digestWaits {before p : Part} {owner : DigestOwner} {op : DigestOp} (h : p.DigestWaits owner op) :
    (Part.finish before p).DigestWaits owner op := by
  obtain ⟨queue, behind⟩ := finish_digests before p
  rw [Part.DigestWaits, queue, behind]
  exact h

/-- R35: an operation that is asked for waits. -/
theorem queueDigest_waits (p : Part) (owner : DigestOwner) (op : DigestOp) : (p.queueDigest owner op).DigestWaits owner op := by
  unfold Part.queueDigest Part.DigestWaits
  split <;> simp

theorem queueDigest_slot (p : Part) (owner : DigestOwner) (op : DigestOp) (j : Slot) :
    (p.queueDigest owner op).slot j = p.slot j := ((queueDigest_acts p owner op).same (.slot j) rfl).symm

/-! ## Successful operations of a bring-up (R26, R29) -/

theorem identified_slot (p : Part) (i : Slot) (id : Identity) :
    (p.identified i id).slot i = { p.slot i with identity := some id, attempts := 0, state := .derive } ∧
      (p.identified i id).DigestWaits (.slot i) (.derive (keyGeneration id.batch) id.serial id.batch) := by
  refine ⟨?_, queueDigest_waits _ _ _⟩
  rw [Part.identified, queueDigest_slot, reportSlot_slot, updSlot_slot_self]

theorem challenged_slot {p : Part} {i : Slot} {key nonce : Quad} {id : Identity} (r : Quad) (has : (p.slot i).key = some key)
    (drew : (p.slot i).nonce = some nonce) (is : (p.slot i).identity = some id) :
    (p.challenged i r).slot i = { p.slot i with response := some r, state := .check } ∧
      (p.challenged i r).DigestWaits (.slot i) (.challengeCheck key nonce id.serial id.tally r) := by
  unfold Part.challenged Part.queueChallengeCheck
  extract_lets q row
  have slot : q.slot i = { p.slot i with response := some r, state := .check } := by
    unfold q
    rw [reportSlot_slot, updSlot_slot_self]
  refine ⟨(queueDigest_slot _ _ _ i).trans slot, ?_⟩
  have waits := queueDigest_waits q (.slot i) (.challengeCheck key nonce id.serial id.tally r)
  unfold row
  rw [slot, has, drew, is]
  exact waits

/-- R26, R29: the outcome that a bring-up waits for goes to the slot manager. -/
theorem slotOutcome_identified {p : Part} {i : Slot} (running : p.busy = false) (state : (p.slot i).state = .identify)
    (id : Identity) : p.slotOutcome i (.identified id) = p.identified i id := by
  unfold Part.slotOutcome
  rw [if_neg (by simp [running]), state]

theorem slotOutcome_challenged {p : Part} {i : Slot} (running : p.busy = false) (state : (p.slot i).state = .challenge)
    (r : Quad) : p.slotOutcome i (.challenged r) = p.challenged i r := by
  unfold Part.slotOutcome
  rw [if_neg (by simp [running]), state]

/-! ## Contacts (R1, R18, R25) -/

/-- R1: the bay's contact has closed again within the removal time. -/
def Part.contactReturns (p : Part) (b : Slot) : Part :=
  (p.updBay b fun r => { r with contactClosed := true }).updBay b fun r => { r with presence := .present, timer := .stopped }

theorem contactReturns_bay (p : Part) (b : Slot) : (p.contactReturns b).bay b =
    { p.bay b with contactClosed := true, presence := .present, timer := .stopped } := by
  rw [Part.contactReturns, updBay_bay_self, updBay_bay_self]

/-- R18: what the engine holds for the bay is handed over when its contact returns. -/
theorem exec_contactReturns {s : State} {b : Slot} (normal : s.part.Normal) (isOpen : (s.part.bay b).contactClosed = false)
    (leaving : (s.part.bay b).presence = .leaving) :
    exec (.contactCloses b) s = s.after ((s.part.contactReturns b).deliverHeld b) := by
  rw [exec_contactCloses isOpen normal.running, Part.contactClosed, updBay_bay_self]
  simp only [leaving]
  rw [presenceBecomes_awake (by exact normal.awake)]
  rfl

theorem deliverHeld_outcome {p : Part} {i : Slot} {h : Hold} {o : LinkOutcome} (link : p.link i = .held h)
    (phase : h.phase = .outcomeHeld o) : p.deliverHeld i = p.deliverOutcome i o := by
  unfold Part.deliverHeld
  rw [link]
  simp only [phase]

theorem deliverHeld_none {p : Part} {i : Slot} (link : p.link i = .none) : p.deliverHeld i = p := by
  unfold Part.deliverHeld
  rw [link]

/-- The contact, presence and timer of a bay alone are changed. -/
theorem updContact_changesOnly (p : Part) (b : Slot) (closed : Bool) (presence : Presence) (timer : BayTimer) :
    p.ChangesOnly (.and (.only (.contact b)) (.only (.presence b)))
      ((p.updBay b fun r => { r with contactClosed := closed }).updBay b fun r => { r with presence := presence, timer := timer }) := by
  have contact := setBay_acts p b { p.bay b with contactClosed := closed } (t := .and (.only (.contact b)) (.only (.presence b)))
    (fun h => by simp [Views.and, Views.only] at h) (fun _ => ⟨rfl, rfl, rfl⟩) (fun _ => rfl) (fun _ => rfl) fun _ => rfl
  have present := setBay_acts (p.updBay b fun r => { r with contactClosed := closed }) b
    { (p.updBay b fun r => { r with contactClosed := closed }).bay b with presence := presence, timer := timer }
    (t := .and (.only (.contact b)) (.only (.presence b)))
    (fun _ => rfl) (fun h => by simp [Views.and, Views.only] at h) (fun _ => rfl) (fun _ => rfl) fun _ => rfl
  exact (contact.trans present).same

/-- A command that changes the contact and the presence of a bay and nothing else. -/
theorem completes_contact {c : Instr} {s : State} {b : Slot} {closed : Bool} {presence : Presence} {timer : BayTimer}
    (quiet : s.part.Quiet) (run : exec c s = s.after ((s.part.updBay b fun r => { r with contactClosed := closed }).updBay b
      fun r => { r with presence := presence, timer := timer })) :
    Completes c s (.and (.only (.contact b)) (.only (.presence b))) fun q =>
      (q.bay b).contactClosed = closed ∧ (q.bay b).presence = presence ∧ (q.bay b).timer = timer := by
  have same := updContact_changesOnly s.part b closed presence timer
  refine completes_still quiet run rfl (fun d => (same (.pattern d) rfl).symm) same ?_
  rw [updBay_bay_self, updBay_bay_self]
  exact ⟨rfl, rfl, rfl⟩

/-- A change of state of a slot whose bay has changed, at the end of the step. -/
theorem finish_changeState (before p : Part) (b : Slot) (state : SlotState) :
    ((Part.finish before (p.changeState b state)).bay b).contactClosed = (p.bay b).contactClosed ∧
    ((Part.finish before (p.changeState b state)).bay b).presence = (p.bay b).presence ∧
    ((Part.finish before (p.changeState b state)).bay b).timer = (p.bay b).timer ∧
    (Part.finish before (p.changeState b state)).slot b = { p.slot b with state := state } ∧
    (Part.finish before (p.changeState b state)).noticePending .slot = true := by
  obtain ⟨contact, presence, timer, -⟩ := finish_bay before (p.changeState b state) b
  obtain ⟨contact', presence', timer', -⟩ := (changeState_acts p b state).bay (b := b)
  rw [contact, presence, timer, finish_slot, contact', presence', timer', changeState_slot]
  exact ⟨rfl, rfl, rfl, rfl, finish_notice (reportSlot_notice _ _)⟩

theorem contactMade_running {p : Part} {i : Slot} (running : p.busy = false) (empty : (p.slot i).state = .empty) :
    p.contactMade i = p.changeState i .settling := by
  rw [Part.contactMade, declares_running running, if_neg (by decide), if_pos empty]

theorem settleAbandoned_running {p : Part} {i : Slot} (running : p.busy = false) (settling : (p.slot i).state = .settling) :
    p.settleAbandoned i = p.changeState i .empty := by
  rw [Part.settleAbandoned, declares_running running, if_neg (by decide), if_pos settling]

/-- R1, R25: a contact closes at an absent bay with an EMPTY slot. -/
theorem contact_starts_settling {b : Slot} {s : State} (normal : s.part.Normal) (isOpen : (s.part.bay b).contactClosed = false)
    (absent : (s.part.bay b).presence = .absent) (empty : (s.part.slot b).state = .empty) :
    Completes (.contactCloses b) s (.ofCommand (.contactCloses b)) fun q =>
      (q.bay b).contactClosed = true ∧ (q.bay b).presence = .settling ∧ (q.bay b).timer = .settle ∧
        q.slot b = { s.part.slot b with state := .settling } ∧ q.noticePending .slot = true := by
  refine completes_after (exec_contactCloses isOpen normal.running) ?_
  rw [Part.contactClosed, updBay_bay_self]
  simp only [absent]
  rw [presenceBecomes_awake (by exact normal.awake), contactMade_running (by exact normal.running) (by exact empty)]
  obtain ⟨contact, presence, timer, slot, notice⟩ := finish_changeState s.part
    ((s.part.updBay b fun r => { r with contactClosed := true }).updBay b fun r => { r with presence := .settling, timer := .settle })
    b .settling
  rw [contact, presence, timer, slot, updBay_bay_self, updBay_bay_self]
  exact ⟨rfl, rfl, rfl, rfl, notice⟩

/-- R1, R25: a contact opens again while the bay settles. -/
theorem contact_abandons_settling {b : Slot} {s : State} (normal : s.part.Normal) (closed : (s.part.bay b).contactClosed = true)
    (settling : (s.part.bay b).presence = .settling) (state : (s.part.slot b).state = .settling) :
    Completes (.contactOpens b) s (.ofCommand (.contactOpens b)) fun q =>
      (q.bay b).contactClosed = false ∧ (q.bay b).presence = .absent ∧ (q.bay b).timer = .stopped ∧
        q.slot b = { s.part.slot b with state := .empty } ∧ q.noticePending .slot = true := by
  refine completes_after (exec_contactOpens closed normal.running) ?_
  rw [Part.contactOpened, updBay_bay_self]
  simp only [settling]
  rw [presenceBecomes_awake (by exact normal.awake), settleAbandoned_running (by exact normal.running) (by exact state)]
  obtain ⟨contact, presence, timer, slot, notice⟩ := finish_changeState s.part
    ((s.part.updBay b fun r => { r with contactClosed := false }).updBay b fun r => { r with presence := .absent, timer := .stopped })
    b .empty
  rw [contact, presence, timer, slot, updBay_bay_self, updBay_bay_self]
  exact ⟨rfl, rfl, rfl, rfl, notice⟩

/-- R1: a contact opens at a PRESENT bay. -/
theorem contact_leaves {b : Slot} {s : State} (normal : s.part.Normal) (closed : (s.part.bay b).contactClosed = true)
    (present : (s.part.bay b).presence = .present) (quiet : s.part.Quiet) :
    Completes (.contactOpens b) s (.and (.only (.contact b)) (.only (.presence b))) fun q =>
      (q.bay b).contactClosed = false ∧ (q.bay b).presence = .leaving ∧ (q.bay b).timer = .removal := by
  refine completes_contact quiet ((exec_contactOpens closed normal.running).trans ?_)
  rw [Part.contactOpened, updBay_bay_self]
  simp only [present]
  rw [presenceBecomes_awake (by exact normal.awake)]

/-- R18: a held outcome of a single hold goes to the slot manager when the contact returns. -/
theorem exec_returnsSingle {s : State} {b : Slot} {h : Hold} {o : LinkOutcome} (normal : s.part.Normal)
    (isOpen : (s.part.bay b).contactClosed = false) (leaving : (s.part.bay b).presence = .leaving)
    (link : s.part.link b = .held h) (phase : h.phase = .outcomeHeld o) (single : h.commit = false) :
    exec (.contactCloses b) s = s.after (((s.part.contactReturns b).endHold b).slotOutcome b o) := by
  rw [exec_contactReturns normal isOpen leaving, deliverHeld_outcome (by exact link) phase,
    deliverOutcome_single (by exact link) single]

/-- R18: a held outcome of a commit hold goes to the commit engine when the contact returns. -/
theorem exec_returnsCommit {s : State} {b : Slot} {h : Hold} {o : LinkOutcome} (normal : s.part.Normal)
    (isOpen : (s.part.bay b).contactClosed = false) (leaving : (s.part.bay b).presence = .leaving)
    (link : s.part.link b = .held h) (phase : h.phase = .outcomeHeld o) (commit : h.commit = true) :
    exec (.contactCloses b) s = s.after ((s.part.contactReturns b).commitOutcome b h o) := by
  rw [exec_contactReturns normal isOpen leaving, deliverHeld_outcome (by exact link) phase,
    deliverOutcome_commit (by exact link) commit]

/-- The hold of a slot whose contact has returned has ended: its row stands, its bay is PRESENT. -/
theorem contactReturns_endHold (p : Part) (b : Slot) : ((p.contactReturns b).endHold b).slot b = p.slot b ∧
    ((p.contactReturns b).endHold b).ps = p.ps ∧ (((p.contactReturns b).endHold b).bay b).presence = .present := by
  obtain ⟨-, presence, -⟩ := (endHold_acts (p.contactReturns b) b).bay (b := b)
  refine ⟨?_, ?_, ?_⟩
  · rw [endHold_slot]; rfl
  · rw [endHold_ps]; rfl
  · rw [presence, contactReturns_bay]

/-- R1, R18, R27: the failure of a bring-up's operation is handed over when the contact returns. -/
theorem contactReturns_failed {s : State} {b : Slot} {h : Hold} {o : LinkOutcome} (normal : s.part.Normal)
    (isOpen : (s.part.bay b).contactClosed = false) (leaving : (s.part.bay b).presence = .leaving)
    (link : s.part.link b = .held h) (phase : h.phase = .outcomeHeld o) (single : h.commit = false)
    (failure : o.isFailure = true) (state : (s.part.slot b).state = .identify ∨ (s.part.slot b).state = .challenge) :
    Completes (.contactCloses b) s (.ofCommand (.contactCloses b)) fun q =>
      (q.bay b).presence = .present ∧ (q.slot b).attempts = (s.part.slot b).attempts + 1 ∧
      ((s.part.slot b).attempts < 2 → q.slot b =
        { s.part.slot b with attempts := (s.part.slot b).attempts + 1, timer := .retry }) ∧
      (2 ≤ (s.part.slot b).attempts →
        (q.slot b).state = .rejected ∧ (q.slot b).verdict = some .unreadable) := by
  have run := exec_returnsSingle normal isOpen leaving link phase single
  obtain ⟨slot, ps, present⟩ := contactReturns_endHold s.part b
  generalize (s.part.contactReturns b).endHold b = r at *
  rw [slotOutcome_failed (p := r) (i := b) (by rw [Part.busy, ps]; exact normal.running)
    (by rw [slot]; exact state.imp_right .inl) failure] at run
  refine completes_after run ⟨?_, ?_, fun few => ?_, fun many => ?_⟩
  · obtain ⟨-, finished, -⟩ := finish_bay s.part (r.attemptFailed b) b
    obtain ⟨-, failed, -⟩ := (attemptFailed_acts r b).bay (b := b)
    rw [finished, failed, present]
  · rw [finish_slot, attemptFailed_attempts, slot]
  · rw [finish_slot, attemptFailed_retries (p := r) (i := b) (by rw [slot]; exact few), slot]
  · have other : (r.slot b).state ≠ .reverify := by
      rw [slot]; rcases state with e | e <;> rw [e] <;> decide
    rw [finish_slot, attemptFailed_rejects (p := r) (i := b) (by rw [slot]; exact many) other, (rejectUnreadable_ends _ b).1]
    exact ⟨rfl, rfl⟩

/-- R1, R18, R26: a held IDENTIFY is handed over when the contact returns. -/
theorem contactReturns_identified {s : State} {b : Slot} {h : Hold} {id : Identity} (normal : s.part.Normal)
    (isOpen : (s.part.bay b).contactClosed = false) (leaving : (s.part.bay b).presence = .leaving)
    (link : s.part.link b = .held h) (phase : h.phase = .outcomeHeld (.identified id)) (single : h.commit = false)
    (state : (s.part.slot b).state = .identify) :
    Completes (.contactCloses b) s (.ofCommand (.contactCloses b)) fun q =>
      (q.bay b).presence = .present ∧
      q.slot b = { s.part.slot b with identity := some id, attempts := 0, state := .derive } ∧
      q.DigestWaits (.slot b) (.derive (keyGeneration id.batch) id.serial id.batch) := by
  have run := exec_returnsSingle normal isOpen leaving link phase single
  obtain ⟨slot, ps, present⟩ := contactReturns_endHold s.part b
  generalize (s.part.contactReturns b).endHold b = r at *
  rw [slotOutcome_identified (p := r) (i := b) (by rw [Part.busy, ps]; exact normal.running) (by rw [slot]; exact state)] at run
  obtain ⟨row, waits⟩ := identified_slot r b id
  refine completes_after run ⟨?_, ?_, finish_digestWaits waits⟩
  · obtain ⟨-, finished, -⟩ := finish_bay s.part (r.identified b id) b
    obtain ⟨-, kept, -⟩ := (identified_acts r b id).bay (b := b)
    rw [finished, kept, present]
  · rw [finish_slot, row, slot]

/-- R1, R18, R29: a held CHALLENGE is handed over when the contact returns. -/
theorem contactReturns_challenged {s : State} {b : Slot} {h : Hold} {r key nonce : Quad} {id : Identity} (normal : s.part.Normal)
    (isOpen : (s.part.bay b).contactClosed = false) (leaving : (s.part.bay b).presence = .leaving)
    (link : s.part.link b = .held h) (phase : h.phase = .outcomeHeld (.challenged r)) (single : h.commit = false)
    (state : (s.part.slot b).state = .challenge) (has : (s.part.slot b).key = some key)
    (drew : (s.part.slot b).nonce = some nonce) (is : (s.part.slot b).identity = some id) :
    Completes (.contactCloses b) s (.ofCommand (.contactCloses b)) fun q =>
      (q.bay b).presence = .present ∧ q.slot b = { s.part.slot b with response := some r, state := .check } ∧
      q.DigestWaits (.slot b) (.challengeCheck key nonce id.serial id.tally r) := by
  have run := exec_returnsSingle normal isOpen leaving link phase single
  obtain ⟨slot, ps, present⟩ := contactReturns_endHold s.part b
  generalize (s.part.contactReturns b).endHold b = p at *
  rw [slotOutcome_challenged (p := p) (i := b) (by rw [Part.busy, ps]; exact normal.running) (by rw [slot]; exact state)] at run
  rw [← slot] at has drew is
  obtain ⟨row, waits⟩ := challenged_slot r has drew is
  refine completes_after run ⟨?_, ?_, finish_digestWaits waits⟩
  · obtain ⟨-, finished, -⟩ := finish_bay s.part (p.challenged b r) b
    obtain ⟨-, kept, -⟩ := (challenged_acts p b r).bay (b := b)
    rw [finished, kept, present]
  · rw [finish_slot, row, slot]

/-- R128: an ADVANCE_TALLY that gives the tally it should asks for a RECEIPT_CHECK. -/
theorem advanceAccepted_matches {p : Part} {i : Slot} {h : Hold} {a : Advance} {tally : Nat} {receipt key nonce : Quad}
    (sent : (p.commit i).unsettled = some a) (should : tally = p.committedTally i + a.units)
    (has : (p.slot i).key = some key) (drew : (p.slot i).nonce = some nonce) :
    p.advanceAccepted i h tally receipt = (p.setLink i (.held { h with phase := .awaitingReceipt })).queueDigest (.slot i)
      (.receiptCheck key nonce a.count tally receipt) := by
  unfold Part.advanceAccepted
  rw [sent]
  simp only
  rw [if_pos should, Part.queueReceiptCheck]
  rw [Part.setLink_slot, has, drew]
  rfl

/-- R1, R18, R128: a held ADVANCE_TALLY that was accepted is handed over when the contact returns. -/
theorem contactReturns_advanced {s : State} {b : Slot} {h : Hold} {a : Advance} {tally : Nat} {receipt key nonce : Quad}
    (normal : s.part.Normal) (isOpen : (s.part.bay b).contactClosed = false) (leaving : (s.part.bay b).presence = .leaving)
    (link : s.part.link b = .held h) (phase : h.phase = .outcomeHeld (.advanced tally receipt)) (commit : h.commit = true)
    (sent : (s.part.commit b).unsettled = some a) (should : tally = s.part.committedTally b + a.units)
    (has : (s.part.slot b).key = some key) (drew : (s.part.slot b).nonce = some nonce) (fold : s.part.hs.foldAtWrite = false) :
    Completes (.contactCloses b) s (.ofCommand (.contactCloses b)) fun q =>
      (q.bay b).presence = .present ∧ q.link b = .held { h with phase := .awaitingReceipt } ∧
      q.commit b = s.part.commit b ∧ q.DigestWaits (.slot b) (.receiptCheck key nonce a.count tally receipt) := by
  have run := exec_returnsCommit normal isOpen leaving link phase commit
  have accepted := advanceAccepted_matches (p := s.part.contactReturns b) (i := b) (h := h) (receipt := receipt)
    (by exact sent) (by exact should) (by exact has) (by exact drew)
  rw [Part.commitOutcome, accepted] at run
  generalize held : (s.part.contactReturns b).setLink b (.held { h with phase := .awaitingReceipt }) = p at run
  have queued := queueDigest_acts p (.slot b) (.receiptCheck key nonce a.count tally receipt)
  refine completes_after run ⟨?_, ?_, ?_, finish_digestWaits (queueDigest_waits _ _ _)⟩
  · obtain ⟨-, finished, -⟩ := finish_bay s.part (p.queueDigest (.slot b) (.receiptCheck key nonce a.count tally receipt)) b
    obtain ⟨-, kept, -⟩ := queued.bay (b := b)
    rw [finished, kept, ← held, Part.setLink_bay, contactReturns_bay]
  · rw [finish_link, ← show p.link b = _ from queued.same (.link b) rfl, ← held, Part.setLink_link_self]
  · have plain := finish_acts_plain s.part (p.queueDigest (.slot b) (.receiptCheck key nonce a.count tally receipt))
      ((queued.same .foldAtWrite rfl).symm.trans (by rw [← held]; exact fold))
    rw [← show Part.commit _ b = _ from plain.same (.commit b) rfl, ← show p.commit b = _ from queued.same (.commit b) rfl, ← held]
    rfl

/-- R1, R18, R129: a held ADVANCE_TALLY without an answer is handed over when the contact returns. -/
theorem contactReturns_unanswered {s : State} {b : Slot} {h : Hold} {a : Advance} {o : LinkOutcome}
    (normal : s.part.Normal) (isOpen : (s.part.bay b).contactClosed = false) (leaving : (s.part.bay b).presence = .leaving)
    (link : s.part.link b = .held h) (phase : h.phase = .outcomeHeld o) (commit : h.commit = true)
    (unanswered : o = .noResponse ∨ o = .checkError ∨ o = .malformed) (sent : (s.part.commit b).unsettled = some a)
    (state : (s.part.slot b).state = .inService) (fold : s.part.hs.foldAtWrite = false) :
    Completes (.contactCloses b) s (.ofCommand (.contactCloses b)) fun q =>
      (q.bay b).presence = .present ∧ (q.commit b).unsettled = none ∧ (q.commit b).inDoubt = a.units ∧
      (q.commit b).uncommitted = (s.part.commit b).uncommitted ∧
      (q.slot b).linkFailures = (s.part.slot b).linkFailures + 1 := by
  have run := exec_returnsCommit normal isOpen leaving link phase commit
  rw [commitOutcome_failed (by rcases unanswered with rfl | rfl | rfl <;> rfl)] at run
  generalize returned : s.part.contactReturns b = p at run
  have row : p.commit b = s.part.commit b := by rw [← returned]; rfl
  have slot : p.slot b = s.part.slot b := by rw [← returned]; rfl
  have plain := finish_acts_plain s.part (p.commitFailed b o) (by rw [commitFailed_foldAtWrite, ← returned]; exact fold)
  obtain ⟨kept, -⟩ := commitFailed_keeps p b o
  obtain ⟨none, doubt, -⟩ := settleFailed_sent (p := p) (i := b) (by rw [row]; exact sent) o
  obtain ⟨q, q_slot, failed, -⟩ := commitFailed_slot p b o
  refine completes_after run ⟨?_, ?_⟩
  · obtain ⟨-, finished, -⟩ := finish_bay s.part (p.commitFailed b o) b
    obtain ⟨-, failed, -⟩ := (commitFailed_acts p b o).bay (b := b)
    rw [finished, failed, ← returned, contactReturns_bay]
  · rw [← show Part.commit _ b = _ from plain.same (.commit b) rfl, kept.unsettled, kept.inDoubt, kept.uncommitted, none,
      settleFailed_uncommitted, row, (doubt (by rcases unanswered with rfl | rfl | rfl <;> decide)).1, finish_slot, failed,
      ((linkFailed_slot q b).1 (by rw [q_slot, slot]; exact state)).1, q_slot, slot]
    exact ⟨rfl, rfl, rfl, rfl⟩

/-- Settles O13, one lemma for each contact and each held outcome. -/
theorem contactsMoveTheBay : Obligations.ContactsMoveTheBay := by
  intro b s normal
  refine ⟨contact_starts_settling normal, fun isOpen leaving link quiet => ?_, fun h o isOpen leaving link phase _ => ?_,
    contact_abandons_settling normal, contact_leaves normal⟩
  · have run := exec_contactReturns normal isOpen leaving
    rw [deliverHeld_none (by exact link)] at run
    exact completes_contact quiet run
  · refine ⟨contactReturns_failed normal isOpen leaving link phase, ?_, ?_, ?_, ?_⟩
    · rintro id single rfl state
      exact contactReturns_identified normal isOpen leaving link phase single state
    · rintro r key nonce id single rfl state has drew is
      exact contactReturns_challenged normal isOpen leaving link phase single state has drew is
    · rintro a tally receipt key nonce commit rfl sent should has drew fold
      exact contactReturns_advanced normal isOpen leaving link phase commit sent should has drew fold
    · exact fun a n commit _ unanswered sent state fold =>
        contactReturns_unanswered normal isOpen leaving link phase commit unanswered sent state fold

end Sys2Proof.Machine
end

-- ==== Bays: ClearingPoint ====
section
set_option Elab.async false
namespace Sys2Proof.Machine
open Sys2Proof

/-! ## A blank record (R137) -/

theorem numberOf_zeros (n : Nat) : numberOf (List.replicate n 0) = 0 := by
  induction n with
  | zero => rfl
  | succ n ih => rw [List.replicate_succ, numberOf, ih]; rfl

theorem Memory.readBytes_zeros {m : List Host.Cell} {a n : Nat} (h : ∀ b, a ≤ b → b < a + n → Memory.read m b = 0) :
    Memory.readBytes m a n = List.replicate n 0 := by
  induction n generalizing a with
  | zero => rfl
  | succ n ih =>
    rw [Memory.readBytes, h a (by omega) (by omega), ih fun b lo hi => h b (by omega) (by omega), List.replicate_succ]

/-- A field of bytes that read 0 reads 0. -/
theorem Memory.readField_zero {m : List Host.Cell} {a n : Nat} (o : Bool) (h : ∀ b, a ≤ b → b < a + n → Memory.read m b = 0) :
    Memory.readField o m a n = 0 := by
  rw [Memory.readField, Memory.readBytes_zeros h, fieldNumber]
  cases o
  · exact numberOf_zeros n
  · rw [if_pos rfl, List.reverse_replicate]; exact numberOf_zeros n

/-- The row of a slot whose contact is found closed at the clearing point (R4). -/
def SlotRow.sampled : SlotRow := { SlotRow.blank with state := .settling }

/-- R147: the slot manager's first write of a blank record makes every field of it show what the slot is, since the fields of
the other blocks are 0. -/
theorem sampledRecord_shows {p q : Part} {i : Slot} {old : Bool} (wf : Memory.wf p.board = true)
    (blank : ∀ a, slotBase i ≤ a → a < slotBase i + 64 → p.readByte a = 0) (slot : q.slot i = SlotRow.sampled)
    (volumes : q.volumes i = Volumes.blank) (commit : q.commit i = CommitRow.blank)
    (board : q.board = Memory.writeRecord old q.port.bigEndian (slotBase i) 64 (q.slotIdentityFields i ++ slotZeroFields) p.board) :
    q.Shows (slotBase i) (q.slotFields i ++ slotZeroFields) := by
  intro f hf
  have identity : q.slotIdentityFields i = [⟨2, 1, 1⟩, ⟨3, 1, 0⟩, ⟨6, 2, 0⟩, ⟨8, 8, 0⟩, ⟨16, 1, 0⟩, ⟨17, 1, 0⟩, ⟨18, 2, 0⟩] := by
    rw [Part.slotIdentityFields, slot]; rfl
  have others : q.slotVolumeFields i ++ q.slotCommitFields i = 
      [⟨4, 1, 0⟩, ⟨20, 4, 0⟩, ⟨24, 4, 0⟩, ⟨28, 4, 0⟩, ⟨32, 4, 0⟩, ⟨36, 4, 0⟩, ⟨4, 1, 0⟩, ⟨5, 1, 0⟩, ⟨40, 4, 0⟩] := by
    rw [Part.slotVolumeFields, Part.slotCommitFields, Part.slotFlags, volumes, commit]; rfl
  rw [Part.readField, board, Memory.writeRecord, identity]
  rw [Part.slotFields, List.append_assoc (q.slotIdentityFields i), identity, others] at hf
  simp only [slotZeroFields, List.mem_append] at hf ⊢
  by_cases written : f ∈ ([⟨2, 1, 1⟩, ⟨3, 1, 0⟩, ⟨6, 2, 0⟩, ⟨8, 8, 0⟩, ⟨16, 1, 0⟩, ⟨17, 1, 0⟩, ⟨18, 2, 0⟩] ++ [⟨44, 18, 0⟩] : List Field)
  · refine Memory.readField_writeFields _ _ wf ?_ (List.mem_append_left _ (List.mem_cons_of_mem _ written))
    simp [Field.Apart]
  · have other : f ∈ ([⟨4, 1, 0⟩, ⟨20, 4, 0⟩, ⟨24, 4, 0⟩, ⟨28, 4, 0⟩, ⟨32, 4, 0⟩, ⟨36, 4, 0⟩, ⟨4, 1, 0⟩, ⟨5, 1, 0⟩, ⟨40, 4, 0⟩] : List Field) := by
      simp_all
    have zero : f.value = 0 ∧ (4 ≤ f.offset ∧ f.offset + f.width ≤ 6 ∨ 20 ≤ f.offset ∧ f.offset + f.width ≤ 44) := by
      simp only [List.mem_cons, List.not_mem_nil, or_false] at other
      rcases other with rfl | rfl | rfl | rfl | rfl | rfl | rfl | rfl | rfl <;> decide
    rw [Memory.readField_writeFields_outside, Memory.readField_zero, zero.1]
    · simp
    · exact fun a lo hi => blank a (by omega) (by omega)
    · intro g hg
      have apart : g.offset + g.width ≤ 4 ∨ 6 ≤ g.offset ∧ g.offset + g.width ≤ 20 ∨ 44 ≤ g.offset := by
        simp only [List.cons_append, List.nil_append, List.mem_cons, List.not_mem_nil, or_false] at hg
        rcases hg with rfl | rfl | rfl | rfl | rfl | rfl | rfl | rfl | rfl | rfl <;> simp
      omega

/-! ## The sampling of the contacts (R4) -/

/-- The bay of a closed contact as it is sampled (R4). -/
def Bay.sampled (r : Bay) : Bay := { r with presence := .settling, timer := .settle }

/-- A part at its clearing point: a sequence is under way and every slot's row, volumes and commit row are blank. -/
structure Part.Blanked (z : Part) : Prop where
  busy : z.busy = true
  slot : ∀ i, z.slot i = SlotRow.blank
  volumes : ∀ i, z.volumes i = Volumes.blank
  commit : ∀ i, z.commit i = CommitRow.blank

/-- The part `p` is `z` with the contacts of the bays in `done` sampled: what has changed, and how. -/
structure Part.Sampled (z : Part) (done : List Slot) (p : Part) : Prop where
  rest : { p with board := z.board, bays := z.bays, sm := z.sm, nu := { p.nu with pending := z.nu.pending },
                  openWrites := z.openWrites } = z
  bay : ∀ i, p.bay i = if i ∈ done ∧ (z.bay i).contactClosed = true then (z.bay i).sampled else z.bay i
  slot : ∀ i, p.slot i = if i ∈ done ∧ (z.bay i).contactClosed = true then SlotRow.sampled else SlotRow.blank
  pending : p.nu.pending = 0 ∨ p.nu.pending = 2
  noticed : ∀ i ∈ done, (z.bay i).contactClosed = true → p.nu.pending = 2
  unnoticed : (∀ i, (z.bay i).contactClosed = false) → p.nu.pending = 0
  writes : ∀ w ∈ p.openWrites, w.slot ∈ done
  wf : Memory.wf p.board = true
  zero : ∀ a, (∀ i ∈ done, (z.bay i).contactClosed = true → a < slotBase i ∨ slotBase i + 64 ≤ a) → p.readByte a = 0
  shows : ∀ i ∈ done, (z.bay i).contactClosed = true → p.Shows (slotBase i) (p.slotFields i ++ slotZeroFields)

theorem Part.Blanked.sampled {z : Part} (h : z.Blanked) (board : z.board = []) (writes : z.openWrites = [])
    (pending : z.nu.pending = 0) : z.Sampled [] z where
  rest := rfl
  bay i := by rw [if_neg (by simp)]
  slot i := by rw [if_neg (by simp), h.slot i]
  pending := .inl pending
  noticed _ h := by cases h
  unnoticed _ := pending
  writes w h := by rw [writes] at h; cases h
  wf := by rw [board]; rfl
  zero a _ := by rw [Part.readByte, board]; rfl
  shows _ h := by cases h

/-- The sampling of an open contact. -/
theorem Part.Sampled.skip {z p : Part} {done : List Slot} {b : Slot} (h : z.Sampled done p)
    (isOpen : (z.bay b).contactClosed = false) : z.Sampled (b :: done) p := by
  have old : ∀ i, i ∈ b :: done ∧ (z.bay i).contactClosed = true ↔ i ∈ done ∧ (z.bay i).contactClosed = true := fun i => by
    refine and_congr_left fun closed => ?_
    rw [List.mem_cons, or_iff_right]
    rintro rfl
    rw [isOpen] at closed
    cases closed
  refine ⟨h.rest, fun i => ?_, fun i => ?_, h.pending, fun i hi closed => h.noticed i ((old i).1 ⟨hi, closed⟩).1 closed,
    h.unnoticed, fun w hw => List.mem_cons_of_mem b (h.writes w hw), h.wf,
    fun a away => h.zero a fun i hi closed => away i (List.mem_cons_of_mem b hi) closed,
    fun i hi closed => h.shows i ((old i).1 ⟨hi, closed⟩).1 closed⟩
  · simp only [h.bay i, old i]
  · simp only [h.slot i, old i]

/-- The records of two slots lie apart. -/
theorem slotRecords_apart {i j : Slot} (h : i ≠ j) : slotBase i + 64 ≤ slotBase j ∨ slotBase j + 64 ≤ slotBase i := by
  have : i.val ≠ j.val := fun e => h (Fin.ext e)
  simp only [slotBase]; omega

/-- What stands in a record stands there after a write of another one. -/
theorem shows_of_writeRecord {p q : Part} {i j : Slot} {old : Bool} {l fields : List Field} (ne : i ≠ j) (fit : FitsRecord 62 l)
    (within : FitsRecord 62 fields) (board : q.board = Memory.writeRecord old p.port.bigEndian (slotBase j) 64 l p.board)
    (port : q.port = p.port) (h : p.Shows (slotBase i) fields) : q.Shows (slotBase i) fields := by
  intro f hf
  have bounds := within f hf
  have apart := slotRecords_apart ne
  rw [← h f hf, Part.readField, Part.readField, port, board]
  refine congrArg (fieldNumber _) (Memory.readBytes_congr _ _ _ _ fun a lo hi => ?_)
  exact Memory.read_writeRecord_outside _ _ _ _ _ _ _ (by omega) (fit.fitsIn (by omega)) (by omega)

/-- The sampling of a closed contact. -/
theorem Part.Sampled.sample {z p : Part} {done : List Slot} {b : Slot} (blank : z.Blanked) (h : z.Sampled done p)
    (fresh : b ∉ done) (closed : (z.bay b).contactClosed = true) : z.Sampled (b :: done) (p.sampleContact b) := by
  have bay : p.bay b = z.bay b := by rw [h.bay b, if_neg fun k => fresh k.1]
  have slot : p.slot b = SlotRow.blank := by rw [h.slot b, if_neg fun k => fresh k.1]
  have ce : p.ce = z.ce := by have := congrArg Part.ce h.rest; exact this
  have au : p.au = z.au := by have := congrArg Part.au h.rest; exact this
  have ps : p.ps = z.ps := by have := congrArg Part.ps h.rest; exact this
  have commit : ∀ i, p.commit i = CommitRow.blank := fun i => by rw [← blank.commit i, Part.commit, ce]; rfl
  have volumes : ∀ i, p.volumes i = Volumes.blank := fun i => by rw [← blank.volumes i, Part.volumes, au]; rfl
  rw [sampleContact_closed (by rw [bay]; exact closed) (by rw [Part.busy, ps]; exact blank.busy) (commit b)
    (fun k => fresh (h.writes _ k))]
  extract_lets _ _ q
  have row : q.slot b = SlotRow.sampled := by
    exact (Part.setSlot_slot_self _ b _).trans (congrArg (fun r : SlotRow => { r with state := .settling }) slot)
  have others : ∀ i, i ≠ b → q.slot i = p.slot i := fun i ne => Part.setSlot_slot_ne _ b _ i ne
  have fit : FitsRecord 62 (q.slotIdentityFields b ++ slotZeroFields) := (slotIdentityFields_fit q b).append slotZeroFields_fit
  have pending : p.nu.pending ||| 2#8 = 2 := by rcases h.pending with e | e <;> rw [e] <;> rfl
  refine ⟨h.rest, fun i => ?_, fun i => ?_, .inr pending, fun _ _ _ => pending, fun all => ?_, fun w hw => ?_,
    Memory.wf_writeRecord _ _ _ _ _ h.wf, fun a away => ?_, fun i hi ci => ?_⟩
  · by_cases e : i = b
    · subst e
      rw [if_pos ⟨List.mem_cons_self, closed⟩, ← bay]
      exact Part.setBay_bay_self p i _
    · have same : i ∈ b :: done ↔ i ∈ done := by simp [e]
      simp only [same]
      exact (Part.setBay_bay_ne p b _ i e).trans (h.bay i)
  · by_cases e : i = b
    · subst e
      rw [if_pos ⟨List.mem_cons_self, closed⟩]
      exact row
    · have same : i ∈ b :: done ↔ i ∈ done := by simp [e]
      simp only [same]
      exact (others i e).trans (h.slot i)
  · rw [all b] at closed; cases closed
  · rcases List.mem_cons.1 hw with rfl | k
    · exact List.mem_cons_self
    · exact List.mem_cons_of_mem b (h.writes w k)
  · have zero := h.zero a fun i hi ci => away i (List.mem_cons_of_mem b hi) ci
    rw [← zero]
    exact Memory.read_writeRecord_outside _ _ _ _ _ _ _ (by omega) (fit.fitsIn (by omega)) (away b List.mem_cons_self closed)
  · by_cases e : i = b
    · subst e
      refine sampledRecord_shows (p := p) h.wf (fun a lo hi => h.zero a fun j hj _ => ?_) row (volumes i) (commit i) rfl
      have := slotRecords_apart (i := i) (j := j) fun k => fresh (k ▸ hj)
      omega
    · have known := h.shows i ((List.mem_cons.1 hi).resolve_left e) ci
      refine shows_of_writeRecord e fit ?_ rfl rfl (p := p) ?_
      · exact (slotFields_fit _ i).append slotZeroFields_fit
      · have fields : q.slotFields i = p.slotFields i := by
          unfold Part.slotFields Part.slotIdentityFields Part.slotVolumeFields Part.slotCommitFields Part.slotFlags
          rw [others i e]
          rfl
        show p.Shows (slotBase i) (q.slotFields i ++ slotZeroFields)
        rw [fields]
        exact known

theorem Part.Sampled.foldl {z p : Part} {done : List Slot} (blank : z.Blanked) (l : List Slot) (nodup : l.Nodup)
    (fresh : ∀ b ∈ l, b ∉ done) (h : z.Sampled done p) : z.Sampled (l.reverse ++ done) (l.foldl Part.sampleContact p) := by
  induction l generalizing done p with
  | nil => exact h
  | cons b rest ih =>
    obtain ⟨apart, nodup⟩ := List.nodup_cons.1 nodup
    have new : b ∉ done := fresh b List.mem_cons_self
    have step : z.Sampled (b :: done) (p.sampleContact b) := by
      by_cases closed : (z.bay b).contactClosed = true
      · exact h.sample blank new closed
      · have isOpen : (z.bay b).contactClosed = false := by simpa using closed
        rw [sampleContact_open (by rw [h.bay b, if_neg fun k => new k.1]; exact isOpen)]
        exact h.skip isOpen
    have := ih nodup (fun x hx => ?_) step
    · rw [List.reverse_cons, List.append_assoc]
      exact this
    · rw [List.mem_cons, not_or]
      exact ⟨fun e => apart (e ▸ hx), fresh x (List.mem_cons_of_mem b hx)⟩

/-- The blocks at the clearing point before the contacts are sampled. -/
theorem cleared_blanked (p : Part) (kind : SequenceKind) : (p.cleared kind).Blanked where
  busy := rfl
  slot i := by simp [Part.cleared, Part.reset, Part.slot]
  volumes i := by simp [Part.cleared, Part.reset, Part.volumes, Accounting.blank]
  commit i := by simp [Part.cleared, Part.reset, Part.commit]

theorem cleared_bay (p : Part) (kind : SequenceKind) (i : Slot) : (p.cleared kind).bay i = Bay.blank (p.bay i).contactClosed := by
  simp [Part.cleared, Part.bay]

/-- R4, R175: the clearing point samples every contact of the cleared part. -/
theorem clearingPoint_sampled (p : Part) (kind : SequenceKind) :
    ∃ done, (∀ i, i ∈ done) ∧ (p.cleared kind).Sampled done (p.clearingPoint kind) := by
  have pending : (p.cleared kind).nu.pending = 0 := by cases kind <;> rfl
  have start : (p.cleared kind).Sampled [] (p.cleared kind) := (cleared_blanked p kind).sampled rfl rfl pending
  have all := start.foldl (cleared_blanked p kind) allSlots allSlots_nodup (by simp)
  have sampled : p.clearingPoint kind = allSlots.foldl Part.sampleContact (p.cleared kind) := rfl
  rw [← sampled] at all
  exact ⟨_, fun i => by simp [mem_allSlots], all⟩

/-! ## The end of the step of the clearing point (R151, R154, R156) -/

/-- R151: within a sequence the output is inactive. -/
theorem reviewOutput_busy {p : Part} (busy : p.busy = true) :
    p.reviewOutput = { p with nu := { p.nu with outputHigh := !p.port.activeHigh } } := by
  have inactive : p.interruptActive = false := by rw [Part.interruptActive, busy]; rfl
  have high : (p.interruptActive == p.port.activeHigh) = !p.port.activeHigh := by
    rw [inactive]; cases p.port.activeHigh <;> rfl
  rw [Part.reviewOutput, high]

/-- All that the end of a step changes while a load is under way: each bay's pattern, the brightness of the PWM period under
way and the output, which is inactive. -/
theorem finish_loading_eq {before p : Part} {kind : SequenceKind} (sequence : p.ps.sequence = some ⟨kind, .load⟩)
    (digests : p.dg = ⟨[], false, []⟩) :
    Part.finish before p =
      { p with openWrites := [], bays := p.choosePatterns.bays,
               earlierBrightness := if before.effectiveBrightness = p.effectiveBrightness then p.earlierBrightness
                                    else before.effectiveBrightness :: p.earlierBrightness,
               nu := { p.nu with outputHigh := !p.port.activeHigh } } := by
  have effective : p.closeWrites.choosePatterns.effectiveBrightness = p.effectiveBrightness := rfl
  have busy : p.busy = true := by rw [Part.busy, sequence]; rfl
  rw [finish_loading sequence digests, Part.keepBrightness, effective]
  by_cases same : before.effectiveBrightness = p.effectiveBrightness
  · rw [if_pos same, if_pos same, reviewOutput_busy (by exact busy)]; rfl
  · rw [if_neg same, if_neg same, reviewOutput_busy (by exact busy)]; rfl

theorem choosePatterns_bay (p : Part) (i : Slot) : p.choosePatterns.bay i =
    { p.bay i with selected := selectPattern (p.slot i) (p.volumes i).low (p.volumes i).spent } := by
  simp [Part.choosePatterns, Part.bay]

theorem noticePending_slotOnly {p : Part} (h : p.nu.pending = 0 ∨ p.nu.pending = 2) {c : NoticeClass} (ne : c ≠ .slot) :
    p.noticePending c = false := by
  cases c with
  | slot => exact absurd rfl ne
  | _ => rcases h with e | e <;> rw [Part.noticePending, e] <;> rfl

/-- Settles O58: the blocks are cleared, the contacts sampled one by one, and the end of the step only chooses the patterns,
keeps the brightness under way and drives the output inactive. -/
theorem clearingPoint : Obligations.ClearingPoint := by
  intro s kind waits idle released
  refine completes_after (execClearingPoint_comes waits idle released) ?_
  obtain ⟨done, all, h⟩ := clearingPoint_sampled s.part kind
  generalize s.part.clearingPoint kind = p at h ⊢
  generalize s.part = b at h ⊢
  have ps : p.ps = (b.cleared kind).ps := by have := congrArg Part.ps h.rest; exact this
  have dg : p.dg = (b.cleared kind).dg := by have := congrArg Part.dg h.rest; exact this
  have port : p.port = (b.cleared kind).port := by have := congrArg Part.port h.rest; exact this
  have bright : p.brightness = 255 := by have := congrArg Part.brightness h.rest; exact this
  have earlier : p.earlierBrightness = [] := by have := congrArg Part.earlierBrightness h.rest; exact this
  have levels : p.nu.levels = (b.cleared kind).nu.levels := by have := congrArg (fun q => q.nu.levels) h.rest; exact this
  have volumes : ∀ i, p.volumes i = Volumes.blank := fun i => by
    rw [← (cleared_blanked b kind).volumes i]
    have := congrArg (fun q => q.volumes i) h.rest
    exact this
  have effective : p.effectiveBrightness = 255 := by rw [Part.effectiveBrightness, ps, bright]; rfl
  have closed : ∀ i, ((b.cleared kind).bay i).contactClosed = (b.bay i).contactClosed := fun i => by rw [cleared_bay]; rfl
  rw [finish_loading_eq (kind := kind) (by rw [ps]; rfl) dg]
  refine ⟨fun a away => h.zero a fun i _ ci => away i (by rw [← closed i]; exact ci), ?_, ?_, dg, ?_, ?_, ?_, ?_, ps, bright, ?_,
    fun i => ⟨fun ci => ?_, fun ci => ?_⟩, fun c ne => noticePending_slotOnly h.pending ne,
    fun none => h.unnoticed fun i => (closed i).trans (none i), rfl, fun e => ?_, fun e => ?_⟩
  · have := congrArg Part.rq h.rest; exact this
  · have := congrArg Part.lp h.rest; exact this
  · have := congrArg Part.au h.rest; exact this
  · have := congrArg Part.ce h.rest; exact this
  · have := congrArg Part.hs h.rest; exact this
  · have := congrArg Part.nv h.rest; exact this
  · show (if b.effectiveBrightness = p.effectiveBrightness then p.earlierBrightness
      else b.effectiveBrightness :: p.earlierBrightness) = _
    rw [effective, earlier]
  · have isClosed := (closed i).trans ci
    have slot : p.slot i = SlotRow.sampled := by rw [h.slot i, if_pos ⟨all i, isClosed⟩]
    refine ⟨?_, slot, ?_, h.shows i (all i) isClosed⟩
    · show p.choosePatterns.bay i = _
      rw [choosePatterns_bay, h.bay i, if_pos ⟨all i, isClosed⟩, cleared_bay, slot, ci]
      rfl
    · rw [Part.noticePending]
      show p.nu.pending.getLsbD 1 = true
      rw [h.noticed i (all i) isClosed]; rfl
  · have isOpen : ¬ (i ∈ done ∧ ((b.cleared kind).bay i).contactClosed = true) := fun k => by
      rw [closed i, ci] at k; cases k.2
    have slot : p.slot i = SlotRow.blank := by rw [h.slot i, if_neg isOpen]
    refine ⟨?_, slot⟩
    show p.choosePatterns.bay i = _
    rw [choosePatterns_bay, h.bay i, if_neg isOpen, cleared_bay, slot, ci]
    rfl
  · subst e
    exact ⟨port, levels⟩
  · have : kind = .powerOn ∨ kind = .resetLine := by cases kind <;> simp_all
    rcases this with rfl | rfl <;> exact ⟨port, levels⟩

end Sys2Proof.Machine
end

-- ==== Bays: WindDown ====
section
set_option Elab.async false
namespace Sys2Proof.Machine
open Sys2Proof

/-! ## Commit rows at the end of a wind-down (R122, R170) -/

/-- What a pass over the slots makes of one of them: `P` holds until the pass comes to the slot `i`, and `Q` from then on. -/
theorem forSlots_visits {f : Part → Slot → Part} {P Q : Part → Prop} (i : Slot) (before : ∀ q j, j ≠ i → P q → P (f q j))
    (visit : ∀ q, P q → Q (f q i)) (after : ∀ q j, j ≠ i → Q q → Q (f q j)) {p : Part} (start : P p) : Q (p.forSlots f) := by
  have rest : ∀ l : List Slot, i ∉ l → ∀ q, Q q → Q (l.foldl f q) := by
    intro l
    induction l with
    | nil => exact fun _ q h => h
    | cons x rest ih =>
      intro fresh q h
      rw [List.mem_cons, not_or] at fresh
      exact ih fresh.2 _ (after q x (Ne.symm fresh.1) h)
  have all : ∀ l : List Slot, l.Nodup → i ∈ l → ∀ q, P q → Q (l.foldl f q) := by
    intro l
    induction l with
    | nil => exact fun _ h => by cases h
    | cons x tail ih =>
      intro nodup mem q h
      obtain ⟨fresh, nodup⟩ := List.nodup_cons.1 nodup
      by_cases e : x = i
      · subst e
        exact rest tail fresh _ (visit q h)
      · exact ih nodup ((List.mem_cons.1 mem).resolve_left (Ne.symm e)) _ (before q x e h)
  exact all allSlots allSlots_nodup (mem_allSlots i) p start

theorem updCommit_commit_ne (p : Part) {i j : Slot} (f : CommitRow → CommitRow) (h : j ≠ i) :
    (p.updCommit i f).commit j = p.commit j := by
  rw [Part.updCommit_eq, Part.setCommit_commit_ne _ _ _ _ h]

/-- R170: the wind-down is flush holder of no slot any more. -/
theorem windDownLeaves_commit (p : Part) (i : Slot) :
    p.windDownLeaves.commit i = { p.commit i with windDownHolder := false, windDownEnded := false } := by
  unfold Part.windDownLeaves
  exact forSlots_visits (P := fun q => q.commit i = p.commit i)
    (Q := fun q => q.commit i = { p.commit i with windDownHolder := false, windDownEnded := false }) i
    (fun _ _ ne h => (updCommit_commit_ne _ _ ne.symm).trans h)
    (fun q h => by rw [updCommit_commit_self, h])
    (fun _ _ ne h => (updCommit_commit_ne _ _ ne.symm).trans h) rfl

theorem setInDoubt_commit_ne (p : Part) {i j : Slot} (n : Nat) (h : j ≠ i) : (p.setInDoubt i n).commit j = p.commit j := by
  unfold Part.setInDoubt
  rw [recordCommit_commit, changeLinkedEntry_commit, updCommit_commit_ne _ _ h]

/-- The row of a slot whose sent ADVANCE_TALLY has become units in doubt (R122, R129). -/
def CommitRow.doubted (r : CommitRow) : CommitRow :=
  match r.unsettled with
  | some a => { r with unsettled := none, inDoubt := a.units }
  | none => r

theorem CommitRow.doubted_unsettled (r : CommitRow) : r.doubted.unsettled = none := by
  unfold CommitRow.doubted
  split
  · rfl
  · assumption

theorem doubtUnsettled_commit (p : Part) (i j : Slot) :
    (p.doubtUnsettled i).commit j = if j = i then (p.commit i).doubted else p.commit j := by
  cases sent : (p.commit i).unsettled with
  | none =>
    have same : (p.commit i).doubted = p.commit i := by rw [CommitRow.doubted, sent]
    rw [doubtUnsettled_none sent, same]
    split
    · subst_vars; rfl
    · rfl
  | some a =>
    rw [doubtUnsettled_sent sent]
    split
    · subst_vars
      rw [setInDoubt_commit_self, clearUnsettled_commit_self, CommitRow.doubted, sent]
    · rw [setInDoubt_commit_ne _ _ (by assumption)]
      exact updCommit_commit_ne p _ (by assumption)

theorem testPlace_ce (p : Part) (i : Slot) : (p.testPlace i).ce = p.ce := by
  unfold Part.testPlace Part.placeCommit
  split
  · split <;> rfl
  · rfl

theorem placeDeferred_ce (p : Part) (i : Slot) (d : Option LinkOp) : (p.placeDeferred i d).ce = p.ce := by
  cases d <;> rfl

/-- R17, R134: the report of a release changes at most the row of its slot, whose flush may end. -/
theorem releaseReport_commit (p : Part) (i j : Slot) :
    (p.releaseReport i).commit j = p.commit j ∨ j = i ∧ (p.releaseReport i).commit j = (p.commit i).unflushed := by
  have placed : (p.releaseReport i).commit j = (p.examineFlush i).commit j :=
    congrArg (fun e : CommitEngine => e.rows[j]) (testPlace_ce (p.examineFlush i) i)
  have ended : ∀ cause, (p.endFlush i cause).commit j = p.commit j ∨
      j = i ∧ (p.endFlush i cause).commit j = (p.commit i).unflushed := fun cause => by
    rw [endFlush_commit]
    split
    · exact .inr ⟨‹_ ∧ _›.1, rfl⟩
    · exact .inl rfl
  rw [placed, Part.examineFlush]
  split
  · exact ended _
  · split
    · exact ended _
    · exact .inl rfl

/-- R21: SLEEP entry cuts off the commit hold. -/
def LinkState.cutsCommit : LinkState → Bool
  | .held h => h.commit && !decide (h.phase = .awaitingReceipt)
  | .none | .waitingBringUp _ _ | .waitingCommit => false

/-- A commit row at SLEEP entry: the units of an ADVANCE_TALLY that is cut off are in doubt, and the wind-down does not become
a holder. -/
structure CommitRow.Sleeps (l : LinkState) (r r' : CommitRow) : Prop where
  work : (if l.cutsCommit then r.doubted else r).SameWork r'
  windDownHolder : r.windDownHolder = false → r'.windDownHolder = false

theorem CommitRow.Sleeps.of_same {l : LinkState} (h : l.cutsCommit = false) (r : CommitRow) : r.Sleeps l r :=
  ⟨by rw [h]; exact .refl r, id⟩

theorem CommitRow.doubted_windDownHolder (r : CommitRow) : r.doubted.windDownHolder = r.windDownHolder := by
  unfold CommitRow.doubted
  split <;> rfl

/-- R21: what SLEEP entry does to the commit rows for one slot. -/
theorem cutForSleep_commit (p : Part) (i : Slot) :
    (∀ j, j ≠ i → (p.cutForSleep i).commit j = p.commit j) ∧ (p.commit i).Sleeps (p.link i) ((p.cutForSleep i).commit i) := by
  unfold Part.cutForSleep
  split
  case h_1 h link =>
    rw [link]
    split
    case isTrue single => exact ⟨fun _ _ => rfl, .of_same (by simp_all [LinkState.cutsCommit]) _⟩
    case isFalse commit =>
      split
      case isTrue receipt => exact ⟨fun _ _ => rfl, .of_same (by simp_all [LinkState.cutsCommit]) _⟩
      case isFalse cut =>
        have placed : ∀ j, (p.placeDeferred i h.deferred).commit j = p.commit j := fun j =>
          congrArg (fun e : CommitEngine => e.rows[j]) (placeDeferred_ce p i h.deferred)
        have doubted := doubtUnsettled_commit (p.placeDeferred i h.deferred) i
        generalize (p.placeDeferred i h.deferred).doubtUnsettled i = d at doubted
        have cuts : (LinkState.held h).cutsCommit = true := by simp_all [LinkState.cutsCommit]
        have own : d.commit i = (p.commit i).doubted := by rw [doubted, if_pos rfl, placed]
        refine ⟨fun j ne => ?_, ?_⟩
        · rcases releaseReport_commit d i j with e | ⟨e, -⟩
          · rw [e, doubted, if_neg ne, placed]
          · exact absurd e ne
        · rcases releaseReport_commit d i i with e | ⟨-, e⟩ <;> rw [e, own]
          · exact ⟨by rw [cuts]; exact .refl _, fun none => (CommitRow.doubted_windDownHolder _).trans none⟩
          · exact ⟨by rw [cuts]; exact ⟨rfl, rfl, rfl⟩, fun _ => rfl⟩
  all_goals
    rename_i link
    exact ⟨fun _ _ => rfl, .of_same (by rw [link]; rfl) _⟩

theorem cutForSleep_link_ne {p : Part} (asleep : p.asleep = true) {i j : Slot} (ne : j ≠ i) :
    (p.cutForSleep i).link j = p.link j := by
  have : i.val ≠ j.val := fun q => ne (Fin.ext q.symm)
  rw [Part.link, cutForSleep_lp asleep]
  simp [this, Part.link]

/-- R21, R122: the commit rows after SLEEP entry. -/
theorem enterSleep_commit (p : Part) (i : Slot) : (p.commit i).Sleeps (p.link i) (p.enterSleep.commit i) := by
  unfold Part.enterSleep
  extract_lets _ q back r
  have row : (p.commit i).Sleeps (p.link i) (r.commit i) := by
    refine forSlots_visits (P := fun q => q.asleep = true ∧ q.link i = p.link i ∧ q.commit i = p.commit i)
      (Q := fun q => (p.commit i).Sleeps (p.link i) (q.commit i)) i
      (fun q j ne ⟨asleep, link, commit⟩ => ⟨by rw [Part.asleep, cutForSleep_ps]; exact asleep,
        (cutForSleep_link_ne asleep ne.symm).trans link, ((cutForSleep_commit q j).1 i ne.symm).trans commit⟩)
      (fun q ⟨_, link, commit⟩ => ?_) (fun q j ne h => ?_) ⟨rfl, rfl, rfl⟩
    · rw [← link, ← commit]
      exact (cutForSleep_commit q i).2
    · rw [(cutForSleep_commit q j).1 i ne.symm]
      exact h
  clear_value r
  exact row

/-! ## The cells at SLEEP entry -/

theorem changeLinkedEntry_board (p : Part) (i : Slot) (f : Entry → Entry) : (p.changeLinkedEntry i f).board = p.board := by
  unfold Part.changeLinkedEntry Part.changeEntry Part.dirtyPlace Part.enqueuePlace
  split
  · extract_lets q
    split
    · rfl
    · split <;> rfl
  · rfl

theorem changeLinkedEntry_flushes (p : Part) (i : Slot) (f : Entry → Entry) : Part.Flushes p (p.changeLinkedEntry i f) :=
  (changeLinkedEntry_acts p i f).flushes (fun h => by rw [changeLinkedEntry_board]; exact h)
    ⟨fun _ => rfl, rfl, fun _ _ => rfl⟩

theorem setInDoubt_spares (p : Part) (i : Slot) (n : Nat) : Part.Spares p (p.setInDoubt i n) :=
  (updCommit_spares rfl).trans ((changeLinkedEntry_flushes _ i _).trans (recordCommit_flushes _ i)).toSpares

theorem doubtUnsettled_spares (p : Part) (i : Slot) : Part.Spares p (p.doubtUnsettled i) := by
  unfold Part.doubtUnsettled
  split
  · exact (updCommit_spares rfl).trans (setInDoubt_spares _ i _)
  · exact (Part.Flushes.refl p).toSpares

theorem cutForSleep_spares (p : Part) (i : Slot) : Part.Spares p (p.cutForSleep i) := by
  have same := (Part.Flushes.refl p).toSpares
  unfold Part.cutForSleep
  split
  · split
    · exact (withLinks_flushes p _).toSpares
    · split
      · exact same
      · exact (placeDeferred_flushes p i _).toSpares.trans ((doubtUnsettled_spares _ i).trans (releaseReport_flushes _ i).toSpares)
  all_goals exact same

theorem Part.Spares.forSlots {f : Part → Slot → Part} (h : ∀ p i, Part.Spares p (f p i)) (p : Part) :
    Part.Spares p (p.forSlots f) := by
  have all : ∀ (l : List Slot) (p : Part), Part.Spares p (l.foldl f p) := by
    intro l
    induction l with
    | nil => exact fun p => (Part.Flushes.refl p).toSpares
    | cons x rest ih => exact fun p => (h p x).trans (ih _)
  exact all allSlots p

theorem enterSleep_spares (p : Part) : Part.Spares p p.enterSleep := by
  unfold Part.enterSleep
  extract_lets _ q back r
  have power : Part.Flushes p q := .of_same rfl rfl rfl
  have cut : Part.Spares q r := .forSlots cutForSleep_spares q
  exact power.toSpares.trans (cut.trans (withLinks_flushes r _).toSpares)

theorem windDownLeaves_spares (p : Part) : Part.Spares p p.windDownLeaves := .forSlots (fun _ _ => updCommit_spares rfl) p

/-! ## The end of a wind-down -/

theorem enterSleep_ps (p : Part) : p.enterSleep.ps = { p.ps with power := .sleep } := by
  unfold Part.enterSleep
  extract_lets _ q back r
  have cut : Part.Acts .bringUps q r := .forSlots cutForSleep_acts q
  have ps : r.ps = q.ps := cut.ps_eq
  clear_value r
  exact ps

theorem windDownLeaves_ps (p : Part) : p.windDownLeaves.ps = p.ps := (windDownLeaves_acts p).ps_eq

theorem windDownLeaves_lp (p : Part) : p.windDownLeaves.lp = p.lp := (windDownLeaves_acts p).lp_eq

/-- The wind-down's cell is no longer held. -/
def Part.dropWindDownCell (p : Part) : Part := { p with ps := { p.ps with windDownCell := none } }

/-- The part of which SLEEP entry makes the end of a wind-down: its cell is answered and it holds no slot any more. -/
def Part.woundDown (p : Part) (c : CellNo) : Part := (p.dropWindDownCell.complete c .ok []).windDownLeaves

theorem woundDown_ps (p : Part) (c : CellNo) : (p.woundDown c).ps = { p.ps with windDownCell := none } := windDownLeaves_ps _

theorem woundDown_lp (p : Part) (c : CellNo) : (p.woundDown c).lp = p.lp := windDownLeaves_lp _

theorem woundDown_commit (p : Part) (c : CellNo) (i : Slot) :
    (p.woundDown c).commit i = { p.commit i with windDownHolder := false, windDownEnded := false } :=
  windDownLeaves_commit _ i

theorem woundDown_answered {p : Part} {c : CellNo} (wf : Memory.wf p.board = true) (loose : p.Loose c) :
    (p.woundDown c).Answered c .ok (p.rq.completion + 1) ∧ (p.woundDown c).Loose c := by
  have done := complete_answered (p := p.dropWindDownCell) wf c .ok []
  have dropped : p.dropWindDownCell.Loose c := ⟨loose.flushes, loose.settings⟩
  have spared := dropped.complete c .ok []
  have leaves := windDownLeaves_spares (p.dropWindDownCell.complete c .ok [])
  exact ⟨done.keep (leaves.cells c spared) (windDownLeaves_acts _), leaves.loose spared⟩

theorem woundDown_foldAtWrite (p : Part) (c : CellNo) : (p.woundDown c).hs.foldAtWrite = p.hs.foldAtWrite :=
  ((windDownLeaves_acts _).same .foldAtWrite rfl).symm

theorem enterSleep_foldAtWrite (p : Part) : p.enterSleep.hs.foldAtWrite = p.hs.foldAtWrite :=
  ((enterSleep_acts p).same .foldAtWrite rfl).symm

theorem finish_lp (before p : Part) : (Part.finish before p).lp = p.lp := (finish_acts before p).lp_eq

/-- The row of a slot whose commit hold SLEEP entry cuts off (R122, R129). -/
theorem CommitRow.SameWork.of_doubted {r r' : CommitRow} (h : r.doubted.SameWork r') :
    r'.unsettled = none ∧ r'.uncommitted = r.uncommitted ∧
      r'.inDoubt = (match r.unsettled with
        | some a => a.units
        | none => r.inDoubt) := by
  refine ⟨h.unsettled.trans r.doubted_unsettled, h.uncommitted.trans ?_, h.inDoubt.trans ?_⟩
  · unfold CommitRow.doubted
    split <;> rfl
  · unfold CommitRow.doubted
    cases r.unsettled <;> rfl

theorem LinkState.atSleep_unheld {l : LinkState} (unheld : ∀ h, l ≠ .held h) : l.atSleep = l := by
  cases l with
  | held h => exact absurd rfl (unheld h)
  | _ => rfl

theorem LinkState.cutsCommit_unheld {l : LinkState} (unheld : ∀ h, l ≠ .held h) : l.cutsCommit = false := by
  cases l with
  | held h => exact absurd rfl (unheld h)
  | _ => rfl

theorem CommitRow.Sleeps.unsettled_kept {l : LinkState} {r r' : CommitRow} (h : r.Sleeps l r') (stays : l.cutsCommit = false) :
    r'.unsettled = r.unsettled := by
  have work := h.work
  rw [stays] at work
  exact work.unsettled

/-- Settles O54: SLEEP entry cuts the holds off slot by slot, each step touching its own slot's rows only, and leaves the
answered cell alone. -/
theorem windDownEndsInSleep : Obligations.WindDownEndsInSleep := by
  intro s c wf done cell loose unfolded
  have runs : exec .windDownComplete s = s.after ((s.part.woundDown c).enterSleep) := by
    show execWindDownComplete s = _
    unfold execWindDownComplete
    rw [done, cell]
    rfl
  refine completes_after runs ?_
  generalize s.part = p at *
  obtain ⟨answered, spared⟩ := woundDown_answered wf loose
  obtain ⟨links, bringUp, commits⟩ := enterSleep_lp (p.woundDown c)
  have rows := enterSleep_commit (p.woundDown c)
  have asleep := enterSleep_spares (p.woundDown c)
  have plain := finish_acts_plain p (p.woundDown c).enterSleep
    (by rw [enterSleep_foldAtWrite, woundDown_foldAtWrite]; exact unfolded)
  have row : ∀ i, (Part.finish p (p.woundDown c).enterSleep).commit i = (p.woundDown c).enterSleep.commit i := fun i =>
    (plain.same (.commit i) rfl).symm
  have link : ∀ i, (p.woundDown c).link i = p.link i := fun i => by rw [Part.link, woundDown_lp]; rfl
  simp only [finish_ps, finish_lp, finish_link, row, enterSleep_ps, woundDown_ps, links, bringUp, commits, link, woundDown_lp]
  simp only [link, woundDown_commit] at rows
  refine ⟨trivial, trivial, trivial, trivial, (answered.keep (asleep.cells c spared) (enterSleep_acts _)).finish (asleep.loose spared) p,
    fun i => (rows i).windDownHolder rfl, fun i => ⟨fun unheld => ?_, fun h held => ⟨fun single => ?_, fun commit receipt => ?_,
      fun commit cut => ?_⟩⟩, trivial, rfl⟩
  · exact ⟨LinkState.atSleep_unheld unheld, (rows i).unsettled_kept (LinkState.cutsCommit_unheld unheld)⟩
  · rw [held, LinkState.atSleep, if_pos single]
  · have stays : (p.link i).cutsCommit = false := by rw [held]; simp [LinkState.cutsCommit, receipt]
    refine ⟨?_, (rows i).unsettled_kept stays⟩
    simp [held, LinkState.atSleep, commit, receipt]
  · have cuts : (p.link i).cutsCommit = true := by rw [held]; simp [LinkState.cutsCommit, commit, cut]
    have work := (rows i).work
    rw [if_pos cuts] at work
    refine ⟨?_, work.of_doubted⟩
    rw [held]
    cases deferred : h.deferred <;> simp [LinkState.atSleep, commit, cut, deferred]

end Sys2Proof.Machine
end

-- ==== Bays: SupplyLow ====
section
set_option Elab.async false
namespace Sys2Proof.Machine
open Sys2Proof

/-! ## The link pool when the supply goes low (R20) -/

theorem takeFromList_idle {p : Part} (idle : p.engineFree = false) : p.takeFromList = p := by
  unfold Part.takeFromList
  cases p.lp.waitList.length with
  | zero => rfl
  | succ n => simp [Part.takeUpTo, idle]

/-- R20: while the supply is low no idle engine takes from the list. -/
theorem takeFromList_low {p : Part} (low : p.ps.supplyLow = true) : p.takeFromList = p :=
  takeFromList_idle (by simp [Part.engineFree, low])

theorem endHold_low {p : Part} (low : p.ps.supplyLow = true) {i : Slot} {h : Hold} (link : p.link i = .held h) :
    p.endHold i = (p.placeDeferred i h.deferred).releaseReport i := by
  have unheld : Part.Acts .linking p ((p.placeDeferred i h.deferred).releaseReport i) :=
    (placeDeferred_acts p i _).trans (((examineFlush_acts _ i).mono Views.flushing_le_linking).trans (testPlace_acts _ i))
  unfold Part.endHold
  rw [link]
  exact takeFromList_low (by rw [unheld.ps_eq]; exact low)

theorem placeDeferred_link_ne (p : Part) {i j : Slot} (d : Option LinkOp) (ne : j ≠ i) :
    (p.placeDeferred i d).link j = p.link j := by
  cases d with
  | none => exact Part.setLink_link_ne p i _ j ne
  | some op => exact Part.setLink_link_ne p i _ j ne

theorem placeDeferred_unheld (p : Part) (i : Slot) (d : Option LinkOp) : ((p.placeDeferred i d).link i).isHeld = false := by
  cases d with
  | none => exact congrArg LinkState.isHeld (Part.setLink_link_self p i _)
  | some op => exact congrArg LinkState.isHeld (Part.setLink_link_self p i (.waitingBringUp op none))

theorem testPlace_unheld {p : Part} {i : Slot} (unheld : (p.link i).isHeld = false) : ((p.testPlace i).link i).isHeld = false := by
  unfold Part.testPlace Part.placeCommit
  split
  · split
    · exact congrArg LinkState.isHeld (Part.setLink_link_self p i _)
    all_goals exact unheld
  · exact unheld

theorem releaseReport_unheld {p : Part} {i : Slot} (unheld : (p.link i).isHeld = false) :
    ((p.releaseReport i).link i).isHeld = false :=
  testPlace_unheld (by rw [(examineFlush_acts p i).aside.link]; exact unheld)

/-- A commit hold with no operation in flight. -/
def LinkState.idleCommit : LinkState → Bool
  | .held h => h.commit && h.phase == .ready
  | .none | .waitingBringUp _ _ | .waitingCommit => false

theorem endIdleCommit_other {p : Part} {i : Slot} (h : (p.link i).idleCommit = false) : p.endIdleCommit i = p := by
  unfold Part.endIdleCommit
  cases link : p.link i with
  | held g =>
    rw [link] at h
    exact if_neg (by rw [show (g.commit && g.phase == .ready) = false from h]; simp)
  | _ => rfl

theorem endIdleCommit_idle {p : Part} {i : Slot} (h : (p.link i).idleCommit = true) : p.endIdleCommit i = p.endHold i := by
  unfold Part.endIdleCommit
  cases link : p.link i with
  | held g =>
    rw [link] at h
    exact if_pos h
  | _ => rw [link] at h; cases h

theorem LinkState.held_of_idleCommit {l : LinkState} (h : l.idleCommit = true) : ∃ g, l = .held g := by
  cases l with
  | held g => exact ⟨g, rfl⟩
  | _ => cases h

/-- R20, assumption 22: with the supply low the end of an idle commit hold frees its slot's engine and touches no other link
state. -/
theorem endIdleCommit_link {p : Part} (low : p.ps.supplyLow = true) (i : Slot) :
    (∀ j, j ≠ i → (p.endIdleCommit i).link j = p.link j) ∧
    ((p.link i).idleCommit = true → ((p.endIdleCommit i).link i).isHeld = false) := by
  cases idle : (p.link i).idleCommit with
  | false =>
    rw [endIdleCommit_other idle]
    exact ⟨fun _ _ => rfl, fun h => by cases h⟩
  | true =>
    obtain ⟨h, link⟩ := LinkState.held_of_idleCommit idle
    rw [endIdleCommit_idle idle, endHold_low low link]
    exact ⟨fun j ne => (releaseReport_aside ne _).link.trans (placeDeferred_link_ne p _ ne),
      fun _ => releaseReport_unheld (placeDeferred_unheld p i _)⟩

theorem endIdleCommit_flushes (p : Part) (i : Slot) : Part.Flushes p (p.endIdleCommit i) := by
  cases idle : (p.link i).idleCommit with
  | false => rw [endIdleCommit_other idle]; exact .refl p
  | true => rw [endIdleCommit_idle idle]; exact endHold_flushes p i

/-- R20, assumption 22: every idle commit hold ends, and no other link state changes. -/
theorem endIdleCommits_link {p : Part} (low : p.ps.supplyLow = true) (i : Slot) :
    ((p.link i).idleCommit = true → ((p.forSlots Part.endIdleCommit).link i).isHeld = false) ∧
    ((p.link i).idleCommit = false → (p.forSlots Part.endIdleCommit).link i = p.link i) := by
  have stays : ∀ (q : Part) j, q.ps.supplyLow = true → (q.endIdleCommit j).ps.supplyLow = true := fun q j h => by
    rw [(endIdleCommit_acts q j).ps_eq]; exact h
  have done := forSlots_visits (f := Part.endIdleCommit) (p := p)
    (P := fun q => q.ps.supplyLow = true ∧ q.link i = p.link i)
    (Q := fun q => q.ps.supplyLow = true ∧ ((p.link i).idleCommit = true → (q.link i).isHeld = false) ∧
      ((p.link i).idleCommit = false → q.link i = p.link i)) i
    (fun q j ne ⟨low, link⟩ => ⟨stays q j low, ((endIdleCommit_link low j).1 i ne.symm).trans link⟩)
    (fun q ⟨low, link⟩ => ⟨stays q i low, fun idle => (endIdleCommit_link low i).2 (by rw [link]; exact idle), fun busy => by
      rw [endIdleCommit_other (by rw [link]; exact busy), link]⟩)
    (fun q j ne ⟨low, unheld, kept⟩ => ⟨stays q j low,
      fun idle => by rw [(endIdleCommit_link low j).1 i ne.symm]; exact unheld idle,
      fun busy => ((endIdleCommit_link low j).1 i ne.symm).trans (kept busy)⟩)
    ⟨low, rfl⟩
  exact done.2

/-! ## The save queue when the supply goes low (R56) -/

theorem dirtyPlace_saveQueue (p : Part) (k : Fin 64) {held : List (Fin 64)} (h : k ∈ held) :
    (p.dirtyPlace k).hs.saveQueue.filter (fun j => !held.contains j) = p.hs.saveQueue.filter fun j => !held.contains j := by
  unfold Part.dirtyPlace Part.enqueuePlace
  extract_lets q
  split
  · rfl
  · split
    · rfl
    · show (p.hs.saveQueue ++ [k]).filter _ = _
      simp [List.filter_append, h]

theorem dirtyPlace_saver (p : Part) (k : Fin 64) : (p.dirtyPlace k).hs.saver = .idle ↔ p.hs.saver = .idle := by
  unfold Part.dirtyPlace Part.enqueuePlace
  extract_lets q
  have saver : q.hs.saver = p.hs.saver := rfl
  clear_value q
  split
  · show q.hs.saver.markChanged = .idle ↔ _
    rw [← saver]
    cases q.hs.saver <;> simp [Saver.markChanged]
  · split <;> rw [← saver]

/-- R56: places that are dirtied one after another. -/
theorem dirtyPlaces (l : List (Fin 64)) (p : Part) {held : List (Fin 64)} (sub : ∀ k ∈ l, k ∈ held) :
    let q := l.foldl (fun q k => q.dirtyPlace k) p
    (q.hs.saveQueue.filter fun j => !held.contains j) = (p.hs.saveQueue.filter fun j => !held.contains j) ∧
    (q.hs.saver = .idle ↔ p.hs.saver = .idle) ∧
    ∀ j, (q.place j).entry = (p.place j).entry ∧ ((j ∈ l ∨ (p.place j).dirty = true) → (q.place j).dirty = true) := by
  induction l generalizing p with
  | nil => exact ⟨rfl, .rfl, fun j => ⟨rfl, fun h => h.resolve_left (by simp)⟩⟩
  | cons k rest ih =>
    obtain ⟨queue, saver, places⟩ := ih (p.dirtyPlace k) fun j hj => sub j (List.mem_cons_of_mem k hj)
    refine ⟨queue.trans (dirtyPlace_saveQueue p k (sub k List.mem_cons_self)), saver.trans (dirtyPlace_saver p k), fun j => ?_⟩
    obtain ⟨entry, dirty⟩ := places j
    have step := dirtyPlace_place p k j
    refine ⟨entry.trans ?_, fun h => dirty ?_⟩
    · rw [step]; split
      · subst_vars; rfl
      · rfl
    · rw [step]
      by_cases e : j = k
      · rw [if_pos e]; exact .inr rfl
      · rw [if_neg e]; exact h.imp_left fun m => (List.mem_cons.1 m).resolve_left e

/-- R56: the held places stand at the head of the save queue and are dirty; no entry changes. -/
theorem reorderSaveQueue_does (p : Part) :
    p.reorderSaveQueue.hs.saveQueue = p.heldPlaces ++ p.hs.saveQueue.filter (fun k => !p.heldPlaces.contains k) ∧
    (p.reorderSaveQueue.hs.saver = .idle ↔ p.hs.saver = .idle) ∧
    ∀ j, (p.reorderSaveQueue.place j).entry = (p.place j).entry ∧
      (j ∈ p.heldPlaces → (p.reorderSaveQueue.place j).dirty = true) := by
  obtain ⟨queue, saver, places⟩ := dirtyPlaces p.heldPlaces p (held := p.heldPlaces) fun _ h => h
  exact ⟨congrArg (p.heldPlaces ++ ·) queue, saver, fun j => ⟨(places j).1, fun h => (places j).2 (.inl h)⟩⟩

/-! ## The places that slots hold (R48) -/

/-- The serial of the entry in a place. -/
def PlaceRow.serial (r : PlaceRow) : Option Quad := r.entry.map Entry.serial

theorem PlaceRow.holds_eq (r : PlaceRow) (serial : Quad) : r.holds serial = (r.serial == some serial) := by
  unfold PlaceRow.holds PlaceRow.serial
  cases r.entry <;> rfl

theorem findPlace_congr {p q : Part} (serials : ∀ k, (q.place k).serial = (p.place k).serial) (serial : Quad) :
    q.findPlace serial = p.findPlace serial := by
  simp only [Part.findPlace, PlaceRow.holds_eq, serials]

theorem heldPlace_congr {p q : Part} {i : Slot} (serials : ∀ k, (q.place k).serial = (p.place k).serial)
    (identity : (q.slot i).identity = (p.slot i).identity) : q.heldPlace i = p.heldPlace i := by
  simp only [Part.heldPlace, identity, findPlace_congr serials]

theorem linkedPlace_congr {p q : Part} {i : Slot} (serials : ∀ k, (q.place k).serial = (p.place k).serial)
    (slot : q.slot i = p.slot i) : q.linkedPlace i = p.linkedPlace i := by
  simp only [Part.linkedPlace, slot, heldPlace_congr serials (congrArg SlotRow.identity slot)]

theorem heldPlaces_congr {p q : Part} (serials : ∀ k, (q.place k).serial = (p.place k).serial)
    (slots : ∀ i, q.slot i = p.slot i) : q.heldPlaces = p.heldPlaces := by
  have held : q.heldPlace = p.heldPlace := funext fun i => heldPlace_congr serials (congrArg SlotRow.identity (slots i))
  have linked : q.linkedPlace = p.linkedPlace := funext fun i => linkedPlace_congr serials (slots i)
  have places : q.placeLinked = p.placeLinked := funext fun k => by simp only [Part.placeLinked, linked]
  simp only [Part.heldPlaces, held, places]

/-- A place that a slot holds has an entry with a serial that the slot carries (R48). -/
theorem carries_of_heldPlace {p : Part} {i : Slot} {k : Fin 64} {e : Entry} (held : p.heldPlace i = some k)
    (entry : (p.place k).entry = some e) : (p.slot i).carries e.serial = true := by
  unfold Part.heldPlace at held
  cases identity : (p.slot i).identity with
  | none => rw [identity] at held; cases held
  | some id =>
    rw [identity] at held
    have found : (p.place k).holds id.serial = true :=
      List.find?_some (p := fun k => (p.place k).holds id.serial) held
    rw [PlaceRow.holds, entry] at found
    rw [SlotRow.carries, identity]
    exact beq_iff_eq.2 (beq_iff_eq.1 found).symm

theorem heldPlace_of_linkedPlace {p : Part} {i : Slot} {k : Fin 64} (h : p.linkedPlace i = some k) : p.heldPlace i = some k := by
  unfold Part.linkedPlace at h
  split at h
  · exact h
  · cases h

/-- The sole holder's entry stands in no other slot's place. -/
theorem Part.SoleHolder.linkedPlace_ne {p : Part} {i j : Slot} {k : Fin 64} {e : Entry} (sole : p.SoleHolder i e)
    (entry : (p.place k).entry = some e) (ne : j ≠ i) : p.linkedPlace j ≠ some k := fun linked => by
  have carried := carries_of_heldPlace (heldPlace_of_linkedPlace linked) entry
  rw [sole.alone j ne] at carried
  cases carried

theorem Part.SoleHolder.of_slots {p q : Part} {i : Slot} {e f : Entry} (sole : p.SoleHolder i e)
    (slots : ∀ j, q.slot j = p.slot j) (serial : f.serial = e.serial) : q.SoleHolder i f where
  linked := by rw [slots]; exact sole.linked
  carries := by rw [slots, serial]; exact sole.carries
  alone j ne := by rw [slots, serial]; exact sole.alone j ne

/-! ## The fold by a sole holder (R55) -/

theorem foldSlot_slot (k : Fin 64) (p : Part) (i j : Slot) : (p.foldSlot k i).slot j = p.slot j :=
  ((foldSlot_acts k p i).same (.slot j) rfl).symm

/-- R55: of the slots that fold with an entry the sole holder is the only one. -/
theorem foldEntry_sole {p : Part} {i : Slot} {e : Entry} (sole : p.SoleHolder i e) (k : Fin 64) :
    p.foldEntry k e.serial = p.foldSlot k i := by
  have folds : ∀ j, j ≠ i → (p.slot j).folds e.serial = false := fun j ne => by simp [SlotRow.folds, sole.alone j ne]
  have own : (p.slot i).folds e.serial = true := by simp [SlotRow.folds, sole.linked, sole.carries]
  unfold Part.foldEntry
  exact forSlots_visits (P := fun q => q = p) (Q := fun q => q = p.foldSlot k i) i
    (fun q j ne h => by rw [h, if_neg (by simp [folds j ne])])
    (fun q h => by rw [h, if_pos own])
    (fun q j ne h => by rw [h, if_neg (by simp [foldSlot_slot, folds j ne])]) rfl

/-- R54, R55: what the fold of a slot leaves. -/
theorem foldSlot_does {p : Part} {i : Slot} {k : Fin 64} {e : Entry} (entry : (p.place k).entry = some e) :
    (p.foldSlot k i).place k = ⟨some (p.foldInto i e), true⟩ ∧ ((p.foldSlot k i).commit i).uncommitted = 0 ∧
      ((p.foldSlot k i).commit i).inDoubt = 0 := by
  unfold Part.foldSlot
  extract_lets c v q
  have place : q.place k = ⟨some (p.foldInto i e), true⟩ := by
    unfold q
    rw [updPlace_place_self, entry]
    rfl
  have row := updCommit_commit_self q i fun r => { r with uncommitted := 0, inDoubt := 0 }
  have placed : (q.updCommit i fun r => { r with uncommitted := 0, inDoubt := 0 }).place k = q.place k := rfl
  generalize (q.updCommit i fun r => { r with uncommitted := 0, inDoubt := 0 }) = r at row placed ⊢
  have flushed := (recordCommit_flushes r i).trans (examineFlush_flushes _ i)
  refine ⟨?_, (flushed.uncommitted i).trans (by rw [row]), (flushed.inDoubt i).trans (by rw [row])⟩
  rw [← place, ← placed, ← recordCommit_place r i k]
  exact ((examineFlush_acts (r.recordCommit i) i).same (.place k) rfl).symm

theorem foldSlot_saveQueue (k : Fin 64) (p : Part) (i : Slot) : (p.foldSlot k i).hs.saveQueue = p.hs.saveQueue := by
  unfold Part.foldSlot
  extract_lets c v q
  have row : (q.updCommit i fun r => { r with uncommitted := 0, inDoubt := 0 }).hs.saveQueue = p.hs.saveQueue := rfl
  generalize (q.updCommit i fun r => { r with uncommitted := 0, inDoubt := 0 }) = r at row ⊢
  rw [← row, show r.hs.saveQueue = _ from (recordCommit_acts r i).same .saveQueue rfl]
  exact ((examineFlush_acts (r.recordCommit i) i).same .saveQueue rfl).symm

theorem foldSlot_sightings (k : Fin 64) (p : Part) (i : Slot) : (p.foldSlot k i).hs.sightings = p.hs.sightings :=
  ((foldSlot_acts k p i).same .sightings rfl).symm

/-- The slots with units unsettled of a sole holder's entry (R55). -/
theorem Part.SoleHolder.serialUnsettled {p : Part} {i : Slot} {e : Entry} (sole : p.SoleHolder i e)
    (settled : (p.commit i).unsettled = none) : p.serialUnsettled e.serial = false := by
  rw [Part.serialUnsettled, List.any_eq_false]
  intro j _
  by_cases own : j = i
  · subst own; simp [settled]
  · simp [sole.alone j own]

theorem Part.SoleHolder.serialHeld {p : Part} {i : Slot} {e : Entry} (sole : p.SoleHolder i e) : p.serialHeld e.serial = true :=
  List.any_eq_true.2 ⟨i, mem_allSlots i, sole.carries⟩

/-- R52, R55: the saver's attempt on a place whose entry one slot alone holds folds that slot. -/
theorem beginAttempt_sole {p : Part} {i : Slot} {k : Fin 64} {e : Entry} (folds : p.hs.foldAtWrite = true)
    (entry : (p.place k).entry = some e) (sole : p.SoleHolder i e) (settled : (p.commit i).unsettled = none) (second : Bool) :
    p.beginAttempt k second = { p.foldSlot k i with
      hs := { (p.foldSlot k i).hs with saver := .place k (some (p.foldInto i e)) p.hs.sightings second false } } := by
  have folding : (p.hs.foldAtWrite && p.serialHeld e.serial && !p.serialUnsettled e.serial) = true := by
    simp [folds, sole.serialHeld, sole.serialUnsettled settled]
  unfold Part.beginAttempt
  rw [entry]
  simp only [folding, if_true, foldEntry_sole sole, (foldSlot_does entry).1, foldSlot_sightings]

/-- R52: the saver's take of a place, before its attempt begins. -/
def Part.dequeuePlace (p : Part) (k : Fin 64) : Part :=
  { p with hs := { p.hs with saveQueue := p.hs.saveQueue.erase k },
           rq := { p.rq with parked := p.rq.parked.map (Parked.cover k) } }

/-- R52, R55: the saver takes a place whose entry one slot alone holds and folds that slot. -/
theorem takePlace_sole {p : Part} {i : Slot} {k : Fin 64} {e : Entry} (folds : p.hs.foldAtWrite = true)
    (entry : (p.place k).entry = some e) (sole : p.SoleHolder i e) (settled : (p.commit i).unsettled = none) :
    (p.takePlace k).hs.saver = .place k (some (p.foldInto i e)) p.hs.sightings false false ∧
    (p.takePlace k).place k = ⟨some (p.foldInto i e), true⟩ ∧
    ((p.takePlace k).commit i).uncommitted = 0 ∧ ((p.takePlace k).commit i).inDoubt = 0 ∧
    (p.takePlace k).hs.saveQueue = p.hs.saveQueue.erase k := by
  have taken : p.takePlace k = (p.dequeuePlace k).beginAttempt k false := rfl
  have begun := beginAttempt_sole (p := p.dequeuePlace k) folds entry ⟨sole.linked, sole.carries, sole.alone⟩ settled false
  obtain ⟨place, uncommitted, inDoubt⟩ := foldSlot_does (p := p.dequeuePlace k) (i := i) entry
  have queue := foldSlot_saveQueue k (p.dequeuePlace k) i
  rw [taken, begun]
  exact ⟨rfl, place, uncommitted, inDoubt, queue⟩

/-! ## What follows the saver's take in a step -/

/-- What ends a step after the digest engine and the saver have taken their work. -/
def Views.closing : Views
  | .byte a => decide (0xD00 ≤ a) && decide (a < 0xF00)
  | .openWrites | .pattern _ | .dimming | .output => true
  | _ => false

theorem finish_closes (before p : Part) : Part.Acts .closing p.takeDigest.saverTake (Part.finish before p) := by
  have records : Part.Acts .closing p.takeDigest.saverTake (Part.syncRecords before p.takeDigest.saverTake.closeWrites) :=
    (openWrites_acts _ []).trans
      ((syncRecords_acts before _).mono fun v h => by cases v <;> simp_all [Views.bytes, Views.closing])
  unfold Part.finish
  refine records.trans ?_
  generalize Part.syncRecords before p.takeDigest.saverTake.closeWrites = q
  refine Part.Acts.trans (q := Part.keepBrightness before q.choosePatterns) (Part.Acts.trans (q := q.choosePatterns) ?_ ?_)
    (.raw fun v hv => ?_)
  · exact bays_acts q _ (fun _ _ => rfl) (fun _ _ => ⟨rfl, rfl, rfl⟩) (fun _ _ => rfl) (fun _ h => by cases h)
      (fun _ _ => rfl)
  · exact (keepBrightness_acts before _).mono (Views.only_le rfl)
  · cases v <;> first | rfl | exact ⟨rfl, rfl⟩ | exact ⟨rfl, rfl, rfl⟩ | exact absurd (show true = false from hv) (by decide)

/-- A saver that writes takes nothing. -/
theorem saverTake_writing {p : Part} (writing : p.hs.saver ≠ .idle) : p.saverTake = p := by
  unfold Part.saverTake Part.saverTakeUpTo
  simp [writing]

end Sys2Proof.Machine
end

-- ==== Bays: SupplyReports ====
section
set_option Elab.async false
namespace Sys2Proof.Machine
open Sys2Proof

/-! ## The report of SUPPLY_LOW (R20, R55, R56, R172) -/

/-- SUPPLY_LOW is set and SUPPLY raised (R172). -/
def Part.markLow (p : Part) : Part := Part.raise { p with ps := { p.ps with supplyLow := true } } .supply

/-- Fold at write is enabled (R55). -/
def Part.enableFold (p : Part) : Part := { p with hs := { p.hs with foldAtWrite := true } }

theorem reportSupplyLow_eq (p : Part) :
    p.reportSupplyLow = ((p.markLow.forSlots Part.endIdleCommit).enableFold).reorderSaveQueue := by
  unfold Part.reportSupplyLow Part.markLow Part.enableFold
  rfl

theorem raise_notice (p : Part) (c : NoticeClass) : (p.raise c).noticePending c = true := by
  cases c <;> simp [Part.raise, Part.noticePending, NoticeClass.bit]

/-- What the report of SUPPLY_LOW makes of a part. -/
structure Part.ReportedLow (p q : Part) : Prop where
  ps : q.ps = { p.ps with supplyLow := true }
  folds : q.hs.foldAtWrite = true
  notice : q.noticePending .supply = true
  links : ∀ i, ((p.link i).idleCommit = true → (q.link i).isHeld = false) ∧
    ((p.link i).idleCommit = false → q.link i = p.link i)
  slot : ∀ i, q.slot i = p.slot i
  work : ∀ i e, (q.commit i).unsettled = (p.commit i).unsettled ∧ q.foldInto i e = p.foldInto i e
  saveQueue : q.hs.saveQueue = p.heldPlaces ++ p.hs.saveQueue.filter fun k => !p.heldPlaces.contains k
  saver : q.hs.saver = .idle ↔ p.hs.saver = .idle
  sightings : q.hs.sightings = p.hs.sightings
  entry : ∀ k, (q.place k).entry = (p.place k).entry
  dirty : ∀ k ∈ p.heldPlaces, (q.place k).dirty = true

theorem reportSupplyLow_reported (p : Part) : p.ReportedLow p.reportSupplyLow := by
  have idle : Part.Acts .linking p.markLow (p.markLow.forSlots Part.endIdleCommit) := .forSlots endIdleCommit_acts p.markLow
  have flushed : Part.Flushes p.markLow (p.markLow.forSlots Part.endIdleCommit) := .foldl endIdleCommit_flushes allSlots p.markLow
  have links := endIdleCommits_link (p := p.markLow) rfl
  rw [reportSupplyLow_eq]
  generalize p.markLow.forSlots Part.endIdleCommit = r at idle flushed links ⊢
  have reordered := reorderSaveQueue_acts r.enableFold
  obtain ⟨queue, saver, places⟩ := reorderSaveQueue_does r.enableFold
  have place : ∀ k, r.place k = p.place k := fun k => (idle.same (.place k) rfl).symm
  have slot : ∀ i, r.slot i = p.slot i := fun i => (idle.same (.slot i) rfl).symm
  have held : r.enableFold.heldPlaces = p.heldPlaces := heldPlaces_congr (fun k => congrArg PlaceRow.serial (place k)) slot
  have commit : ∀ i, r.enableFold.reorderSaveQueue.commit i = r.commit i := fun i => (reordered.same (.commit i) rfl).symm
  have volumes : ∀ i, r.enableFold.reorderSaveQueue.volumes i = p.volumes i := fun i =>
    ((reordered.same (.volumes i) rfl).symm.trans (idle.same (.volumes i) rfl).symm)
  rw [held] at queue places
  refine ⟨?_, ?_, ?_, fun i => ?_, fun i => ?_, fun i e => ⟨?_, ?_⟩, ?_, ?_, ?_, fun k => ?_, fun k hk => (places k).2 hk⟩
  · rw [reordered.ps_eq]
    exact idle.ps_eq
  · exact (reordered.same .foldAtWrite rfl).symm
  · exact reordered.raised _ (idle.raised _ (raise_notice _ _))
  · rw [reordered.aside.link]
    exact links i
  · exact (reordered.same (.slot i) rfl).symm.trans (slot i)
  · rw [commit]
    exact (flushed.rows i).unsettled
  · unfold Part.foldInto
    rw [commit, volumes, (flushed.rows i).tallyFull, flushed.uncommitted, flushed.inDoubt]
    rfl
  · rw [queue]
    exact congrArg (fun l : List (Fin 64) => p.heldPlaces ++ l.filter fun k => !p.heldPlaces.contains k)
      (idle.same .saveQueue rfl).symm
  · refine saver.trans ?_
    rw [show p.hs.saver = r.hs.saver from idle.same .saver rfl]
    exact .rfl
  · exact (reordered.same .sightings rfl).symm.trans (idle.same .sightings rfl).symm
  · exact ((places k).1).trans (congrArg PlaceRow.entry (place k))

/-- R52, R165: while fold at write is enabled the idle saver takes the first place that it may write. -/
theorem saverTake_place {p : Part} {k : Fin 64} (idle : p.hs.saver = .idle) (works : p.works = true)
    (folds : p.hs.foldAtWrite = true) (first : p.writablePlace = some k) : p.saverTake = p.takePlace k := by
  have next : p.nextWrite = some (.place k) := by simp [Part.nextWrite, folds, first]
  unfold Part.saverTake Part.saverTakeUpTo
  rw [if_pos (by simp [idle, works]), next]

theorem writablePlace_head {p : Part} {k : Fin 64} {rest : List (Fin 64)} {i : Slot} {e : Entry}
    (queue : p.hs.saveQueue = k :: rest) (entry : (p.place k).entry = some e) (sole : p.SoleHolder i e)
    (settled : (p.commit i).unsettled = none) : p.writablePlace = some k := by
  have free : p.placeUnsettled k = false := by
    rw [Part.placeUnsettled, entry]
    exact sole.serialUnsettled settled
  rw [Part.writablePlace, queue, List.find?_cons]
  simp [free]

/-- The digest engine's take leaves what the saver looks at. -/
theorem takeDigest_hs (p : Part) : p.takeDigest.hs = p.hs := by
  unfold Part.takeDigest
  split <;> rfl

theorem takeDigest_ps (p : Part) : p.takeDigest.ps = p.ps := (takeDigest_acts p).ps_eq

theorem Part.works_congr {p q : Part} (h : q.ps = p.ps) : q.works = p.works := by
  unfold Part.works Part.asleep Part.busy Part.inFoldPhase
  rw [h]

/-- A step that leaves the saver writing ends without a change of the save queue and the history table. -/
theorem finish_writing {p : Part} (before : Part) (writing : p.hs.saver ≠ .idle) :
    (Part.finish before p).hs.saveQueue = p.hs.saveQueue ∧ ∀ k, (Part.finish before p).place k = p.place k := by
  have closes := finish_closes before p
  rw [saverTake_writing (by rw [takeDigest_hs]; exact writing)] at closes
  refine ⟨?_, fun k => (closes.same (.place k) rfl).symm.trans ((takeDigest_acts p).same (.place k) rfl).symm⟩
  rw [← show p.takeDigest.hs.saveQueue = _ from closes.same .saveQueue rfl, takeDigest_hs]

/-- A step that leaves the saver idle, with a place at the head of the save queue whose entry one slot alone holds, ends with
the write of that place begun and the slot folded (R52, R55). -/
theorem finish_folds {p : Part} (before : Part) {i : Slot} {k : Fin 64} {rest : List (Fin 64)} {e : Entry}
    (idle : p.hs.saver = .idle) (works : p.works = true) (folds : p.hs.foldAtWrite = true)
    (queue : p.hs.saveQueue = k :: rest) (entry : (p.place k).entry = some e) (sole : p.SoleHolder i e)
    (settled : (p.commit i).unsettled = none) :
    (Part.finish before p).hs.saver = .place k (some (p.foldInto i e)) p.hs.sightings false false ∧
    (Part.finish before p).place k = ⟨some (p.foldInto i e), true⟩ ∧
    ((Part.finish before p).commit i).uncommitted = 0 ∧ ((Part.finish before p).commit i).inDoubt = 0 ∧
    (Part.finish before p).hs.saveQueue = rest := by
  have digest := takeDigest_acts p
  have hs := takeDigest_hs p
  have commit : p.takeDigest.commit i = p.commit i := (digest.same (.commit i) rfl).symm
  have volumes : p.takeDigest.volumes i = p.volumes i := (digest.same (.volumes i) rfl).symm
  have place : p.takeDigest.place k = p.place k := (digest.same (.place k) rfl).symm
  have sole' : p.takeDigest.SoleHolder i e := sole.of_slots (fun j => (digest.same (.slot j) rfl).symm) rfl
  have into : p.takeDigest.foldInto i e = p.foldInto i e := by unfold Part.foldInto; rw [commit, volumes]
  have closes := finish_closes before p
  have settled' : (p.takeDigest.commit i).unsettled = none := by rw [commit]; exact settled
  have entry' : (p.takeDigest.place k).entry = some e := by rw [place]; exact entry
  have queue' : p.takeDigest.hs.saveQueue = k :: rest := by rw [hs]; exact queue
  rw [saverTake_place (k := k) (by rw [hs]; exact idle) (by rw [Part.works_congr (takeDigest_ps p)]; exact works)
    (by rw [hs]; exact folds) (writablePlace_head queue' entry' sole' settled')] at closes
  obtain ⟨saver, placed, uncommitted, inDoubt, rested⟩ := takePlace_sole (by rw [hs]; exact folds) entry' sole' settled'
  rw [queue', List.erase_cons_head] at rested
  rw [into] at saver placed
  rw [hs] at saver
  have row := closes.same (.commit i) rfl
  exact ⟨(closes.same .saver rfl).symm.trans saver, (closes.same (.place k) rfl).symm.trans placed,
    (congrArg CommitRow.uncommitted row).symm.trans uncommitted, (congrArg CommitRow.inDoubt row).symm.trans inDoubt,
    (closes.same .saveQueue rfl).symm.trans rested⟩

/-! ## The report of SUPPLY_GOOD (R55, R57, R172) -/

/-- SUPPLY_LOW is cleared and SUPPLY raised (R172). -/
def Part.markGood (p : Part) : Part := Part.raise { p with ps := { p.ps with supplyLow := false } } .supply

/-- Fold at write is disabled but for the fold phase (R55). -/
def Part.settleFold (p : Part) : Part := { p with hs := { p.hs with foldAtWrite := p.inFoldPhase } }

theorem reportSupplyGood_eq (p : Part) : p.reportSupplyGood = p.markGood.unfoldAll.settleFold.takeFromList.testAll := by
  unfold Part.reportSupplyGood Part.markGood Part.settleFold
  rfl

/-- R57: the row of a slot whose fold into the entry has been undone. -/
def CommitRow.unfolded (r : CommitRow) (e : Entry) : CommitRow :=
  { r with uncommitted := satAdd max32 r.uncommitted e.carried, inDoubt := if r.inDoubt = 0 then e.inDoubt else r.inDoubt }

theorem Part.SoleHolder.serialInDoubt {p : Part} {i : Slot} {e : Entry} (sole : p.SoleHolder i e) :
    p.serialInDoubt e.serial = decide ((p.commit i).inDoubt ≠ 0) := by
  rw [Bool.eq_iff_iff, Part.serialInDoubt, List.any_eq_true]
  refine ⟨fun ⟨j, _, found⟩ => ?_, fun found => ⟨i, mem_allSlots i, by rw [sole.carries, found]; rfl⟩⟩
  by_cases own : j = i
  · subst own
    rw [sole.carries] at found
    exact found
  · rw [sole.alone j own] at found
    cases found

theorem linkedEntry_of {p : Part} {i : Slot} {k : Fin 64} {e : Entry} (link : p.linkedPlace i = some k)
    (entry : (p.place k).entry = some e) : p.linkedEntry i = some e := by
  rw [Part.linkedEntry, link]
  exact entry

/-- R57: the undoing of a sole holder's fold. -/
theorem unfoldSlot_sole {p : Part} {i : Slot} {k : Fin 64} {e : Entry} (link : p.linkedPlace i = some k)
    (entry : (p.place k).entry = some e) (sole : p.SoleHolder i e) :
    (p.unfoldSlot i).place k = ⟨some { e with carried := 0 }, true⟩ ∧
      ((p.commit i).unfolded e).SameWork ((p.unfoldSlot i).commit i) := by
  have units : (if e.inDoubt ≠ 0 && !p.serialInDoubt e.serial then e.inDoubt else (p.commit i).inDoubt) =
      if (p.commit i).inDoubt = 0 then e.inDoubt else (p.commit i).inDoubt := by
    rw [sole.serialInDoubt]
    by_cases doubt : (p.commit i).inDoubt = 0
    · by_cases none : e.inDoubt = 0 <;> simp [doubt, none]
    · simp [doubt]
  have eq : p.unfoldSlot i = (((p.updCommit i (·.unfolded e)).changeEntry k fun e => { e with carried := 0 }).recordCommit i).examineFlush i := by
    unfold Part.unfoldSlot
    rw [link, linkedEntry_of link entry]
    simp only [units, Part.updCommit_eq, CommitRow.unfolded]
  have row : (p.updCommit i (·.unfolded e)).commit i = (p.commit i).unfolded e := updCommit_commit_self p i _
  rw [eq]
  have linked : (p.updCommit i (·.unfolded e)).linkedPlace i = some k := link
  have place : (p.updCommit i (·.unfolded e)).place k = p.place k := rfl
  generalize p.updCommit i (·.unfolded e) = q at row linked place ⊢
  have change : q.changeEntry k (fun e => { e with carried := 0 }) = q.changeLinkedEntry i fun e => { e with carried := 0 } := by
    rw [Part.changeLinkedEntry, linked]
  have flushed := (recordCommit_flushes (q.changeEntry k fun e => { e with carried := 0 }) i).trans (examineFlush_flushes _ i)
  have changed := (changeLinkedEntry_flushes q i fun e => { e with carried := 0 }).sameWork i
  rw [← change, row] at changed
  refine ⟨?_, changed.trans (flushed.sameWork i)⟩
  have acts := (recordCommit_acts (q.changeEntry k fun e => { e with carried := 0 }) i).same (.place k) rfl
  refine ((examineFlush_acts _ i).same (.place k) rfl).symm.trans (acts.symm.trans ?_)
  rw [changeEntry_place, if_pos rfl, place, entry]
  rfl

theorem endFlush_commit_ne (p : Part) {i j : Slot} (cause : EndCause) (ne : j ≠ i) :
    (p.endFlush i cause).commit j = p.commit j := by
  rw [endFlush_commit, if_neg fun k => ne k.1]

theorem examineFlush_commit_ne (p : Part) {i j : Slot} (ne : j ≠ i) : (p.examineFlush i).commit j = p.commit j := by
  unfold Part.examineFlush
  split
  · exact endFlush_commit_ne p _ ne
  · split
    · exact endFlush_commit_ne p _ ne
    · rfl

theorem changeEntry_acts_commit (p : Part) (k : Fin 64) (f : Entry → Entry) (j : Slot) :
    (p.changeEntry k f).commit j = p.commit j := ((changeEntry_acts p k f).same (.commit j) rfl).symm

/-- R57: the undoing of a fold touches no other slot's row and no place but the slot's. -/
theorem unfoldSlot_others (p : Part) (i : Slot) :
    (∀ j, j ≠ i → (p.unfoldSlot i).commit j = p.commit j) ∧
    (∀ k, p.linkedPlace i ≠ some k → (p.unfoldSlot i).place k = p.place k) ∧
    ∀ k, ((p.unfoldSlot i).place k).serial = (p.place k).serial := by
  unfold Part.unfoldSlot
  split
  case h_2 => exact ⟨fun _ _ => rfl, fun _ _ => rfl, fun _ => rfl⟩
  case h_1 k e link entry =>
    extract_lets u q
    have others : ∀ j, j ≠ i → q.commit j = p.commit j := fun j ne => updCommit_commit_ne p _ ne
    have places : ∀ j, q.place j = p.place j := fun _ => rfl
    clear_value q
    have written : ∀ j, (((q.changeEntry k fun e => { e with carried := 0 }).recordCommit i).examineFlush i).place j =
        (q.changeEntry k fun e => { e with carried := 0 }).place j := fun j =>
      ((examineFlush_acts _ i).same (.place j) rfl).symm.trans (recordCommit_place _ i j)
    refine ⟨fun j ne => ?_, fun j other => ?_, fun j => ?_⟩
    · rw [examineFlush_commit_ne _ ne, recordCommit_commit, changeEntry_acts_commit, others j ne]
    · rw [written, changeEntry_place, if_neg fun same => other (by rw [same]; exact link), places]
    · rw [written, changeEntry_place, places, places]
      split
      · subst_vars
        cases h : (p.place j).entry <;> simp [PlaceRow.serial, h]
      · rfl

theorem unfoldSlot_slot (p : Part) (i j : Slot) : (p.unfoldSlot i).slot j = p.slot j :=
  ((unfoldSlot_acts p i).same (.slot j) rfl).symm

/-- R57: every fold is undone; that of an entry which one slot alone holds is undone into this slot. -/
theorem unfoldAll_sole {p : Part} {i : Slot} {k : Fin 64} {e : Entry} (link : p.linkedPlace i = some k)
    (entry : (p.place k).entry = some e) (sole : p.SoleHolder i e) :
    p.unfoldAll.place k = ⟨some { e with carried := 0 }, true⟩ ∧ ((p.commit i).unfolded e).SameWork (p.unfoldAll.commit i) := by
  unfold Part.unfoldAll
  have done := forSlots_visits (f := Part.unfoldSlot) (p := p)
    (P := fun q => q.linkedPlace i = some k ∧ (q.place k).entry = some e ∧ q.SoleHolder i e ∧ q.commit i = p.commit i)
    (Q := fun q => q.SoleHolder i { e with carried := 0 } ∧ q.place k = ⟨some { e with carried := 0 }, true⟩ ∧
      ((p.commit i).unfolded e).SameWork (q.commit i)) i
    (fun q j ne ⟨link, entry, sole, commit⟩ => ?_) (fun q ⟨link, entry, sole, commit⟩ => ?_)
    (fun q j ne ⟨sole, place, work⟩ => ?_) ⟨link, entry, sole, rfl⟩
  · exact done.2
  · obtain ⟨rows, places, serials⟩ := unfoldSlot_others q j
    exact ⟨(linkedPlace_congr serials (unfoldSlot_slot q j i)).trans link,
      (congrArg PlaceRow.entry (places k (sole.linkedPlace_ne entry ne))).trans entry,
      sole.of_slots (unfoldSlot_slot q j) rfl, (rows i ne.symm).trans commit⟩
  · obtain ⟨place, work⟩ := unfoldSlot_sole link entry sole
    rw [commit] at work
    exact ⟨sole.of_slots (unfoldSlot_slot q i) rfl, place, work⟩
  · obtain ⟨rows, places, -⟩ := unfoldSlot_others q j
    refine ⟨sole.of_slots (unfoldSlot_slot q j) rfl, ?_, by rw [rows i ne.symm]; exact work⟩
    rw [places k (sole.linkedPlace_ne (by rw [place]) ne)]
    exact place

/-- What the report of SUPPLY_GOOD makes of a part outside a sequence. -/
structure Part.ReportedGood (p q : Part) : Prop where
  ps : q.ps = { p.ps with supplyLow := false }
  unfolds : q.hs.foldAtWrite = false
  notice : q.noticePending .supply = true
  sole : ∀ i k e, p.linkedPlace i = some k → (p.place k).entry = some e → p.SoleHolder i e →
    q.place k = ⟨some { e with carried := 0 }, true⟩ ∧ ((p.commit i).unfolded e).SameWork (q.commit i)

theorem reportSupplyGood_reported {p : Part} (running : p.busy = false) : p.ReportedGood p.reportSupplyGood := by
  have unfolded := unfoldAll_acts p.markGood
  have sole := fun i k e => unfoldAll_sole (p := p.markGood) (i := i) (k := k) (e := e)
  rw [reportSupplyGood_eq]
  generalize p.markGood.unfoldAll = r at unfolded sole ⊢
  have ps : r.ps = { p.ps with supplyLow := false } := unfolded.ps_eq
  have linked : Part.Acts .linking r.settleFold r.settleFold.takeFromList.testAll := (takeFromList_acts _).trans (testAll_acts _)
  have flushed := (takeFromList_flushes r.settleFold).trans (testAll_flushes _)
  have noFold : r.inFoldPhase = false := by
    have none : p.ps.sequence = none := by simpa [Part.busy] using running
    rw [Part.inFoldPhase, ps, none]
  refine ⟨linked.ps_eq.trans ps, ?_, linked.raised _ (unfolded.raised _ (raise_notice _ _)), fun i k e link entry alone => ?_⟩
  · rw [← show r.settleFold.hs.foldAtWrite = _ from linked.same .foldAtWrite rfl]
    exact noFold
  · obtain ⟨place, work⟩ := sole i k e link entry ⟨alone.linked, alone.carries, alone.alone⟩
    exact ⟨(linked.same (.place k) rfl).symm.trans place, work.trans (flushed.sameWork i)⟩

end Sys2Proof.Machine
end

-- ==== Bays: SupplyChanges ====
section
set_option Elab.async false
namespace Sys2Proof.Machine
open Sys2Proof

/-! ## The supply watch outside a sequence (R172) -/

theorem exec_supplyLow {s : State} (running : s.part.busy = false) (good : s.part.ps.comparatorLow = false) :
    exec .supplyLow s = s.after (s.part.setComparator true).reportSupplyLow := by
  have reported : (s.part.setComparator true).supplyReported = true := by
    rw [Part.supplyReported, show (s.part.setComparator true).busy = false from running]; rfl
  show execSupplyLow s = _
  unfold execSupplyLow
  rw [good]
  simp only [reported, if_true]
  rfl

theorem exec_supplyGood {s : State} (running : s.part.busy = false) (low : s.part.ps.comparatorLow = true) :
    exec .supplyGood s = s.after (s.part.setComparator false).reportSupplyGood := by
  have reported : (s.part.setComparator false).supplyReported = true := by
    rw [Part.supplyReported, show (s.part.setComparator false).busy = false from running]; rfl
  have none : s.part.ps.sequence = none := by simpa [Part.busy] using running
  have waits : s.part.waitsForGood = false := by rw [Part.waitsForGood, none]
  show execSupplyGood s = _
  unfold execSupplyGood
  rw [low, waits]
  simp only [reported, if_true]
  rfl

theorem LinkState.idleCommit_held {l : LinkState} {h : Hold} (held : l = .held h) (commit : h.commit = true)
    (ready : h.phase = .ready) : l.idleCommit = true := by
  rw [held]
  simp [LinkState.idleCommit, commit, ready]

theorem LinkState.idleCommit_driven {l : LinkState} (driven : ∀ h, l = .held h → h.commit = true → h.phase ≠ .ready) :
    l.idleCommit = false := by
  cases l with
  | held h =>
    cases commit : h.commit with
    | true => simp [LinkState.idleCommit, driven h rfl commit]
    | false => simp [LinkState.idleCommit, commit]
  | _ => rfl

theorem finish_foldAtWrite (before p : Part) : (Part.finish before p).hs.foldAtWrite = p.hs.foldAtWrite :=
  ((finish_acts before p).same .foldAtWrite rfl).symm

/-- Settles O55: the report of the change rewrites the link pool, the save queue and the folds; the end of the step adds the
saver's take. -/
theorem supplyChanges : Obligations.SupplyChanges := by
  intro s running
  refine ⟨fun held good heldPlaces => completes_after (exec_supplyLow running good) ?_,
    fun low => completes_after (exec_supplyGood running low) ?_⟩
  · have r := reportSupplyLow_reported (s.part.setComparator true)
    generalize (s.part.setComparator true).reportSupplyLow = q at r ⊢
    have places : (s.part.setComparator true).heldPlaces = held := heldPlaces.symm
    generalize s.part = p at *
    have entry : ∀ k, (q.place k).entry = (p.place k).entry := r.entry
    have saveQueue := r.saveQueue
    have dirty := r.dirty
    rw [places] at saveQueue dirty
    refine ⟨(finish_ps p q).trans r.ps, (finish_foldAtWrite p q).trans r.folds, finish_notice r.notice, fun i => ⟨?_, ?_⟩, ?_, ?_⟩
    · intro h link commit ready
      rw [finish_link]
      exact (r.links i).1 (LinkState.idleCommit_held link commit ready)
    · intro driven
      rw [finish_link]
      exact (r.links i).2 (LinkState.idleCommit_driven driven)
    · intro writing
      obtain ⟨queue, kept⟩ := finish_writing p fun idle => writing (r.saver.1 idle)
      exact ⟨queue.trans saveQueue, fun k hk => by rw [kept]; exact ⟨dirty k hk, entry k⟩⟩
    · intro k rest i e idle awake queue stored sole settled
      subst queue
      have works : q.works = true := by
        rw [Part.works_congr (p := { p with ps := { p.ps with comparatorLow := true, supplyLow := true } }) r.ps]
        show (!p.asleep && (!p.busy || p.inFoldPhase)) = true
        rw [awake, running]; rfl
      have ends := finish_folds p (r.saver.2 idle) works r.folds saveQueue ((entry k).trans stored)
        (sole.of_slots r.slot rfl) ((r.work i e).1.trans settled)
      rw [(r.work i e).2, r.sightings] at ends
      exact ends
  · have r := reportSupplyGood_reported (p := s.part.setComparator false) running
    generalize (s.part.setComparator false).reportSupplyGood = q at r ⊢
    generalize s.part = p at *
    have plain := finish_acts_plain p q r.unfolds
    refine ⟨(finish_ps p q).trans r.ps, (finish_foldAtWrite p q).trans r.unfolds, finish_notice r.notice,
      fun i k e link entry sole => ?_⟩
    obtain ⟨place, work⟩ := r.sole i k e link entry ⟨sole.linked, sole.carries, sole.alone⟩
    have row := (plain.same (.commit i) rfl).symm
    exact ⟨(plain.same (.place k) rfl).symm.trans place, (congrArg CommitRow.uncommitted row).trans work.uncommitted,
      (congrArg CommitRow.inDoubt row).trans work.inDoubt⟩

end Sys2Proof.Machine
end

-- ==== Bays: FlushEnds ====
section
set_option Elab.async false
namespace Sys2Proof.Machine
open Sys2Proof

/-! ## The completion of a COMMIT_NOW by the end of its flush (R134, R144) -/

/-- The result data of a request stand in its cell. -/
theorem complete_data {p : Part} (wf : Memory.wf p.board = true) (c : CellNo) (r : Result) {data : List Field}
    (apart : data.Pairwise Field.Apart) {f : Field} (hf : f ∈ data) :
    (p.complete c r data).readField (cellBase c + 8 + f.offset) f.width = f.value % 256 ^ f.width := by
  rw [← Memory.readField_writeFields p.port.bigEndian (cellBase c + 8) wf apart hf]
  refine congrArg (fieldNumber _) (Memory.readBytes_congr _ _ _ _ fun a lo hi => ?_)
  refine (Memory.read_write_ne _ _ (by omega)).trans (Memory.read_writeFields_outside _ _ _ _ _ fun g hg => ?_)
  simp only [List.mem_cons, List.not_mem_nil, or_false] at hg
  rcases hg with rfl | rfl <;> dsimp only <;> omega

/-- The end-cause byte of a slot in the result data of a COMMIT_NOW. -/
theorem complete_endCause {p : Part} (wf : Memory.wf p.board = true) (c : CellNo) (r : Result) (causes : Vector EndCause 12)
    (i : Slot) : (p.complete c r (endCauseFields causes)).argumentByte c i.val = BitVec.ofNat 8 (causes[i]).code := by
  have apart : (endCauseFields causes).Pairwise Field.Apart := by
    refine List.pairwise_map.2 (allSlots_nodup.imp fun {a b} ne => ?_)
    have : a.val ≠ b.val := fun e => ne (Fin.ext e)
    simp only [Field.Apart]
    omega
  have data := complete_data wf c r apart (List.mem_map.2 ⟨i, mem_allSlots i, rfl⟩)
  rw [readField_one] at data
  refine BitVec.eq_of_toNat_eq (data.trans ?_)
  rw [BitVec.toNat_ofNat]
  rfl

/-- A COMMIT_NOW for the slot alone that has ended by its removal: its cell is answered and names the cause. -/
structure Part.EndedByRemoval (p : Part) (cell : CellNo) (b : Slot) : Prop where
  answered : ∃ m, p.Answered cell .abortedRemoved m
  cause : p.argumentByte cell b.val = 4

theorem Part.EndedByRemoval.keep {p q : Part} {t : Views} {cell : CellNo} {b : Slot} (h : p.EndedByRemoval cell b)
    (same : p.SameCell cell q) (acts : Part.Acts t p q) (order : t .byteOrder = false := by rfl) : q.EndedByRemoval cell b where
  answered := h.answered.imp fun _ a => a.keep same acts order
  cause := by
    have := b.isLt
    rw [Part.argumentByte, same _ (by omega) (by omega)]
    exact h.cause

theorem complete_endedByRemoval {p : Part} (wf : Memory.wf p.board = true) (cell : CellNo) (b : Slot)
    {causes : Vector EndCause 12} (removed : causes[b] = .removed) :
    (p.complete cell (commitNowResult (some b) causes) (endCauseFields causes)).EndedByRemoval cell b where
  answered := ⟨_, by simpa [commitNowResult, removed] using complete_answered wf cell .abortedRemoved (endCauseFields causes)⟩
  cause := by rw [complete_endCause wf, removed]; rfl

/-- R134: the parked requests are gone through once; a COMMIT_NOW for the removed slot alone completes. -/
theorem foldl_completeFlushed_ends {holders : List CellNo} {cell : CellNo} {b : Slot} {causes : Vector EndCause 12}
    (held : cell ∈ holders) (removed : causes[b] = .removed) (l : List Parked)
    (sole : ∀ x ∈ l, x.cell = cell → x.work = .commitNow (some b) causes) {p : Part} (wf : Memory.wf p.board = true)
    (free : p.holdsSomeSlot cell = false) (some : p.EndedByRemoval cell b ∨ ∃ x ∈ l, x.cell = cell) :
    (l.foldl (Part.completeFlushed holders) p).EndedByRemoval cell b := by
  induction l generalizing p with
  | nil => exact some.resolve_right (by simp)
  | cons x rest ih =>
    have commit : ∀ i, (Part.completeFlushed holders p x).commit i = p.commit i := fun i =>
      ((completeFlushed_acts holders p x).same (.commit i) rfl).symm
    have free' : (Part.completeFlushed holders p x).holdsSomeSlot cell = false := by
      simp only [Part.holdsSomeSlot, commit]
      exact free
    refine ih (fun y hy => sole y (List.mem_cons_of_mem x hy)) (completeFlushed_wf holders p x wf) free' ?_
    by_cases own : x.cell = cell
    · left
      have work := sole x List.mem_cons_self own
      have completed : Part.completeFlushed holders p x =
          p.complete cell (commitNowResult (Option.some b) causes) (endCauseFields causes) := by
        unfold Part.completeFlushed
        rw [work, own]
        exact if_pos (by rw [free]; simpa using held)
      rw [completed]
      exact complete_endedByRemoval wf cell b removed
    · rcases some with ended | ⟨y, hy, e⟩
      · left
        refine ended.keep ?_ (completeFlushed_acts holders p x)
        unfold Part.completeFlushed
        split
        · split
          · exact complete_sameCell p _ (endCauseFields_fit _) (Ne.symm own)
          · exact fun _ _ _ => rfl
        all_goals exact fun _ _ _ => rfl
      · right
        rcases List.mem_cons.1 hy with rfl | later
        · exact absurd e own
        · exact ⟨y, later, e⟩

/-- R134: the end of a slot's flush by its removal completes the COMMIT_NOW that holds this slot alone. -/
theorem endFlush_ends {p : Part} {b : Slot} {cell : CellNo} {causes : Vector EndCause 12} (wf : Memory.wf p.board = true)
    (parked : ⟨cell, .commitNow (some b) causes⟩ ∈ p.rq.parked)
    (sole : ∀ x ∈ p.rq.parked, x.cell = cell → x.work = .commitNow (some b) causes)
    (holds : ∀ i, cell ∈ (p.commit i).holders ↔ i = b) :
    (p.endFlush b .removed).EndedByRemoval cell b ∧ ∀ i, cell ∉ ((p.endFlush b .removed).commit i).holders := by
  have held : cell ∈ (p.commit b).holders := (holds b).2 rfl
  have flushing : (p.commit b).flushing = true := by
    have : (p.commit b).holders ≠ [] := fun e => by rw [e] at held; cases held
    simp [CommitRow.flushing, this]
  have left : ∀ i, cell ∉ ((p.endFlush b .removed).commit i).holders := fun i => by
    rw [endFlush_commit]
    by_cases own : i = b
    · rw [if_pos ⟨own, flushing⟩]
      exact List.not_mem_nil
    · rw [if_neg fun k => own k.1, holds]
      exact own
  refine ⟨?_, left⟩
  have noted : ∀ x, x.cell = cell → x.work = .commitNow (some b) causes →
      Parked.noteEnd (p.commit b).holders b .removed x = ⟨cell, .commitNow (some b) (causes.set b .removed)⟩ := fun x own work => by
    unfold Parked.noteEnd
    rw [work]
    simp [own, held]
  have cells : ∀ x, (Parked.noteEnd (p.commit b).holders b .removed x).cell = x.cell := fun x => by
    unfold Parked.noteEnd
    split
    · split <;> rfl
    all_goals rfl
  have rows : ∀ i, (p.setCommit b (p.commit b).unflushed).commit i = (p.endFlush b .removed).commit i := fun i => by
    rw [endFlush_commit]
    by_cases own : i = b
    · rw [if_pos ⟨own, flushing⟩, own]; exact Part.setCommit_commit_self p b _
    · rw [if_neg fun k => own k.1]; exact Part.setCommit_commit_ne p b _ i own
  have free : (p.setCommit b (p.commit b).unflushed).holdsSomeSlot cell = false := by
    rw [Part.holdsSomeSlot, List.any_eq_false]
    intro i _
    rw [rows i]
    simpa using left i
  unfold Part.endFlush
  rw [if_pos flushing]
  refine foldl_completeFlushed_ends held (causes := causes.set b .removed) (by simp) _ (fun y hy own => ?_) wf free
    (.inr ⟨_, List.mem_map.2 ⟨_, parked, rfl⟩, ?_⟩)
  · obtain ⟨x, hx, rfl⟩ := List.mem_map.1 hy
    rw [cells] at own
    rw [noted x own (sole x hx own)]
  · rw [cells]

end Sys2Proof.Machine
end

-- ==== Bays: RemovalStages ====
section
set_option Elab.async false
namespace Sys2Proof.Machine
open Sys2Proof

/-! ## What a removal touches -/

/-- What the parts of a removal touch, but for the digest engine and the channel's source. -/
def Views.removing (i : Slot) : Views
  | .slot j | .volumes j | .identity j | .unsettled j => j == i
  | .byte a => Views.reporting (.byte a)
  | v => Views.reporting v || Views.history v

theorem Views.reporting_le_removing (i : Slot) : Views.le .reporting (.removing i) := fun v h => by
  cases v <;> simp_all [Views.removing, Views.reporting, Views.linking, Views.flushing, Views.completing]

theorem Views.history_le_removing (i : Slot) : Views.le .history (.removing i) := fun v h => by
  cases v <;> simp_all [Views.removing, Views.history]

theorem Views.doubting_le_removing (i : Slot) : Views.le (Views.and .doubting (.only (.unsettled i))) (.removing i) :=
  Views.and_le (fun v h => by
    cases v <;> simp_all [Views.removing, Views.doubting, Views.reporting, Views.linking, Views.flushing, Views.completing,
      Views.history]) (Views.only_le (by simp [Views.removing]))

theorem linking_removes {p q : Part} (i : Slot) (h : Part.Acts .linking p q) : Part.Acts (.removing i) p q :=
  h.mono (Views.le_trans Views.linking_le_reporting (Views.reporting_le_removing i))

theorem endFlush_removes (p : Part) (i : Slot) (cause : EndCause) : Part.Acts (.removing i) p (p.endFlush i cause) :=
  linking_removes i ((endFlush_acts p i cause).mono Views.flushing_le_linking)

theorem cutLink_removes (p : Part) (i : Slot) : Part.Acts (.removing i) p (p.cutLink i) := by
  unfold Part.cutLink
  split
  · exact .refl _ _
  · exact linking_removes i (leaveBringUp_acts p i _ rfl)
  · exact linking_removes i (unheld_acts p i .none _ rfl rfl)
  · exact ((linking_removes i (setLink_acts p i _ rfl fun h => by cases h)).trans
      ((doubtUnsettled_acts _ i).mono (Views.doubting_le_removing i))).trans (linking_removes i (takeFromList_acts _))

theorem recordCommit_removes (p : Part) (i : Slot) : Part.Acts (.removing i) p (p.recordCommit i) :=
  (recordCommit_acts_reporting p i).mono (Views.reporting_le_removing i)

theorem removalHandling_removes (p : Part) (i : Slot) : Part.Acts (.removing i) p (p.removalHandling i) := by
  unfold Part.removalHandling
  extract_lets c v q
  have written : Part.Acts (.removing i) p q := (changeLinkedEntry_acts p i _).mono (Views.history_le_removing i)
  exact written.trans ((updCommit_acts q i _ rfl).trans (recordCommit_removes _ i))

theorem emptySlot_removes (p : Part) (i : Slot) : Part.Acts (.removing i) p (p.emptySlot i) := by
  unfold Part.emptySlot
  extract_lets p1 _ p2
  have blank : Part.Acts (.removing i) p p1 :=
    (setSlot_acts p i _ (by simp [Views.removing]) (by simp [Views.removing])).trans
      (setVolumes_acts _ i _ (by simp [Views.removing]))
  have row : Part.Acts (.removing i) p1 p2 := setCommit_acts p1 i _ rfl (by simp [Views.removing])
  have report : Part.Acts .reporting p2 (((p2.recordSlot i).raise .slot).reportToCommit i) :=
    (((recordSlot_acts p2 i).mono (Views.slotRecord_le_reporting i)).trans (raise_acts _ _)).trans (reportToCommit_acts _ i)
  exact (blank.trans row).trans (report.mono (Views.reporting_le_removing i))

/-! ## The stages of a removal (R19, R36, R44, R118) -/

/-- The flush of the slot has ended and its link is cut. -/
def Part.cutOff (p : Part) (i : Slot) : Part := (p.endFlush i .removed).cutLink i

/-- Its timer is stopped and its digest operations are cancelled. -/
def Part.withdrawn (p : Part) (i : Slot) : Part :=
  ((p.cutOff i).updSlot i fun r => { r with timer := .stopped }).cancelDigest (DigestEntry.ownedBy (.slot i))

/-- The history entry has taken over what it keeps of the slot. -/
def Part.handedOver (p : Part) (i : Slot) : Part :=
  if (p.withdrawn i |>.slot i).keepsHistory then (p.withdrawn i).removalHandling i else p.withdrawn i

/-- The slot is EMPTY and has left its channel's source. -/
def Part.emptied (p : Part) (i : Slot) : Part := ((p.handedOver i).emptySlot i).dropSource i

theorem removal_eq (p : Part) (i : Slot) : p.removal i =
    match (p.handedOver i |>.slot i).parkedCell with
    | some cell => (p.emptied i).complete cell .abortedRemoved []
    | none => p.emptied i := by
  unfold Part.removal Part.emptied Part.handedOver Part.withdrawn Part.cutOff
  rfl

theorem cutOff_removes (p : Part) (i : Slot) : Part.Acts (.removing i) p (p.cutOff i) :=
  (endFlush_removes p i .removed).trans (cutLink_removes _ i)

theorem cutLink_slot (p : Part) (i j : Slot) : (p.cutLink i).slot j = p.slot j := by
  unfold Part.cutLink
  split
  · rfl
  · rfl
  · rfl
  · exact (((doubtUnsettled_acts _ i).same (.slot j) rfl).trans ((takeFromList_acts _).same (.slot j) rfl)).symm

theorem cutOff_slot (p : Part) (i j : Slot) : (p.cutOff i).slot j = p.slot j :=
  (cutLink_slot _ i j).trans ((endFlush_acts p i .removed).same (.slot j) rfl).symm

theorem withdrawn_slot (p : Part) (i : Slot) : (p.withdrawn i).slot i = { p.slot i with timer := .stopped } := by
  unfold Part.withdrawn
  rw [← show Part.slot _ i = _ from (cancelDigest_acts _ _).same (.slot i) rfl, updSlot_slot_self, cutOff_slot]

theorem removalHandling_slot (p : Part) (i j : Slot) : (p.removalHandling i).slot j = p.slot j := by
  unfold Part.removalHandling
  extract_lets c v q
  have written : q.slot j = p.slot j := ((changeLinkedEntry_acts p i _).same (.slot j) rfl).symm
  exact ((recordCommit_acts _ i).same (.slot j) rfl).symm.trans written

theorem handedOver_slot (p : Part) (i : Slot) : (p.handedOver i).slot i = { p.slot i with timer := .stopped } := by
  unfold Part.handedOver
  split
  · exact (removalHandling_slot _ i i).trans (withdrawn_slot p i)
  · exact withdrawn_slot p i

/-- R44: a REVERIFY parked with the slot completes when the slot is EMPTY. -/
theorem removal_parked {p : Part} {i : Slot} {cell : CellNo} (parked : (p.slot i).parkedCell = some cell) :
    p.removal i = (p.emptied i).complete cell .abortedRemoved [] := by
  rw [removal_eq, handedOver_slot]
  simp only [parked]

theorem removal_unparked {p : Part} {i : Slot} (none : (p.slot i).parkedCell = none) : p.removal i = p.emptied i := by
  rw [removal_eq, handedOver_slot]
  simp only [none]

/-- The answer to a parked REVERIFY is all that a removal does after the slot is EMPTY. -/
theorem removal_completes (p : Part) (i : Slot) : Part.Acts .completing (p.emptied i) (p.removal i) := by
  cases parked : (p.slot i).parkedCell with
  | none => rw [removal_unparked parked]; exact .refl _ _
  | some cell => rw [removal_parked parked]; exact complete_acts _ _ _ _ (FitsIn.nil _)

/-! ### The emptied slot (R118, R121) -/

theorem reportToCommit_slots (p : Part) (i j : Slot) : (p.reportToCommit i).slot j = p.slot j :=
  ((reportToCommit_acts p i).same (.slot j) rfl).symm

/-- R118, R121: the slot's values in every block. -/
theorem emptySlot_blank (p : Part) (i : Slot) :
    (p.emptySlot i).slot i = SlotRow.blank ∧ (p.emptySlot i).volumes i = Volumes.blank ∧
    CommitRow.Ebbs { CommitRow.blank with windDownEnded := (p.commit i).windDownEnded } ((p.emptySlot i).commit i) := by
  unfold Part.emptySlot
  extract_lets p1 _ p2
  have slot : p2.slot i = SlotRow.blank := Part.setSlot_slot_self p i _
  have volumes : p2.volumes i = Volumes.blank := Part.setVolumes_volumes_self _ i _
  have commit : p2.commit i = { CommitRow.blank with windDownEnded := (p.commit i).windDownEnded } :=
    Part.setCommit_commit_self p1 i _
  clear_value p2
  have written : Part.Acts .reporting p2 ((p2.recordSlot i).raise .slot) :=
    ((recordSlot_acts p2 i).mono (Views.slotRecord_le_reporting i)).trans (raise_acts _ _)
  have recorded := ((recordSlot_flushes p2 i).trans (raise_flushes _ .slot)).rows i
  have row : ((p2.recordSlot i).raise .slot).slot i = SlotRow.blank := (written.same (.slot i) rfl).symm.trans slot
  have reported := reportToCommit_row ((p2.recordSlot i).raise .slot) i
  have lost : ((p2.recordSlot i).raise .slot).commit i = p2.commit i := ((recordSlot_acts p2 i).same (.commit i) rfl).symm
  refine ⟨(reportToCommit_slots _ i i).trans row, ?_, ?_⟩
  · exact ((written.trans (reportToCommit_acts _ i)).same (.volumes i) rfl).symm.trans volumes
  · rw [row, lost, commit] at reported
    exact reported

theorem emptied_slot (p : Part) (i : Slot) : (p.emptied i).slot i = SlotRow.blank :=
  ((dropSource_acts _ i).same (.slot i) rfl).symm.trans (emptySlot_blank _ i).1

theorem emptied_volumes (p : Part) (i : Slot) : (p.emptied i).volumes i = Volumes.blank :=
  ((dropSource_acts _ i).same (.volumes i) rfl).symm.trans (emptySlot_blank _ i).2.1

theorem emptied_commit (p : Part) (i : Slot) :
    ∃ ended, CommitRow.Ebbs { CommitRow.blank with windDownEnded := ended } ((p.emptied i).commit i) := by
  have kept : (p.emptied i).commit i = ((p.handedOver i).emptySlot i).commit i :=
    ((dropSource_acts _ i).same (.commit i) rfl).symm
  rw [kept]
  exact ⟨_, (emptySlot_blank (p.handedOver i) i).2.2⟩

theorem CommitRow.Ebbs.blank {ended : Bool} {r : CommitRow} (h : CommitRow.Ebbs { CommitRow.blank with windDownEnded := ended } r) :
    r.uncommitted = 0 ∧ r.inDoubt = 0 ∧ r.unsettled = none ∧ r.tallyFull = false ∧ r.holders = [] ∧ r.linkLost = false ∧
      r.count = 0 :=
  ⟨h.uncommitted.elim id id, h.inDoubt.elim id id, h.unsettled, h.tallyFull, h.holders.elim id id, h.linkLost, h.count⟩

/-! ### The digest operations (R36) -/

theorem cancelDigest_keeps (p : Part) (f : DigestEntry → Bool) {e : DigestEntry}
    (h : e ∈ (p.cancelDigest f).dg.queue ++ (p.cancelDigest f).dg.behind) : f e = false := by
  unfold Part.cancelDigest at h
  simp only [List.mem_append, List.mem_filter] at h
  rcases h with (⟨_, k⟩ | ⟨⟨_, k⟩, _⟩) | ⟨⟨_, k⟩, _⟩ <;> simpa using k

theorem handedOver_dg (p : Part) (i : Slot) : (p.handedOver i).dg = (p.withdrawn i).dg := by
  unfold Part.handedOver
  split
  · exact ((removalHandling_removes _ i).same .digests rfl).symm
  · rfl

theorem emptied_dg (p : Part) (i : Slot) : (p.emptied i).dg = (p.withdrawn i).dg :=
  (((emptySlot_removes _ i).same .digests rfl).trans ((dropSource_acts _ i).same .digests rfl)).symm.trans (handedOver_dg p i)

/-- R36: none of the removed slot's digest operations is left. -/
theorem emptied_digests (p : Part) (i : Slot) : ∀ e ∈ (p.emptied i).dg.queue ++ (p.emptied i).dg.behind, e.owner ≠ .slot i := by
  intro e he owner
  rw [emptied_dg] at he
  have kept := cancelDigest_keeps _ _ he
  simp [DigestEntry.ownedBy, owner] at kept

/-! ### The link (R19) -/

/-- R19: the removed slot's link state is NONE and it stands on no class. -/
theorem cutLink_leaves {p : Part} {i : Slot} (listed : p.ListedAs i) : (p.cutLink i).link i = .none ∧ (p.cutLink i).Unlisted i := by
  have counts := (listedAs_iff p i).1 listed
  unfold Part.cutLink
  split
  case h_1 link => exact ⟨link, ListedAs.unlisted listed (by rw [link]; rfl)⟩
  case h_2 op behind link =>
    have commit : p.lp.commit.count i = 0 := by rw [link] at counts; cases behind <;> exact congrArg Prod.snd counts
    exact ⟨Part.leaveBringUp_link p i _, not_mem_leaveBringUp p i _, List.count_eq_zero.1 commit⟩
  case h_3 link =>
    rw [link] at counts
    refine ⟨Part.setLink_link_self p i _, List.count_eq_zero.1 (congrArg Prod.fst counts), List.count_eq_zero.1 ?_⟩
    show (p.lp.commit.erase i).count i = 0
    rw [List.count_erase_self, show p.lp.commit.count i = 1 from congrArg Prod.snd counts]
  case h_4 h link =>
    have unlisted := ListedAs.unlisted listed (by rw [link]; rfl)
    have doubted := (doubtUnsettled_acts (p.setLink i .none) i).aside (i := i)
    have off : ((p.setLink i .none).doubtUnsettled i).Unlisted i := doubted.unlisted ⟨unlisted.bringUp, unlisted.commit⟩
    have taken := takeFromList_aside off
    exact ⟨(taken.link.trans doubted.link).trans (Part.setLink_link_self p i _), taken.unlisted off⟩

end Sys2Proof.Machine
end

-- ==== Bays: RemovedEntry ====
section
set_option Elab.async false
namespace Sys2Proof.Machine
open Sys2Proof

/-! ## The history entry of a removed slot (R54, R130) -/

theorem changeEntry_serial (p : Part) (k : Fin 64) {f : Entry → Entry} (same : ∀ e, (f e).serial = e.serial) (j : Fin 64) :
    ((p.changeEntry k f).place j).serial = (p.place j).serial := by
  rw [changeEntry_place]
  split
  case isTrue own =>
    subst own
    cases h : (p.place j).entry <;> simp [PlaceRow.serial, h, same]
  case isFalse => rfl

theorem changeLinkedEntry_serial (p : Part) (i : Slot) {f : Entry → Entry} (same : ∀ e, (f e).serial = e.serial) (j : Fin 64) :
    ((p.changeLinkedEntry i f).place j).serial = (p.place j).serial := by
  unfold Part.changeLinkedEntry
  split
  · exact changeEntry_serial p _ same j
  · rfl

theorem setInDoubt_serial (p : Part) (i : Slot) (n : Nat) (k : Fin 64) : ((p.setInDoubt i n).place k).serial = (p.place k).serial := by
  unfold Part.setInDoubt
  extract_lets q r
  rw [recordCommit_place]
  exact changeLinkedEntry_serial q i (f := fun e => { e with inDoubt := n }) (fun _ => rfl) k

theorem doubtUnsettled_serial (p : Part) (i : Slot) (k : Fin 64) : ((p.doubtUnsettled i).place k).serial = (p.place k).serial := by
  cases sent : (p.commit i).unsettled with
  | none => rw [doubtUnsettled_none sent]
  | some a =>
    rw [doubtUnsettled_sent sent]
    exact setInDoubt_serial (p.clearUnsettled i) i a.units k

theorem cutLink_serial (p : Part) (i : Slot) (k : Fin 64) : ((p.cutLink i).place k).serial = (p.place k).serial := by
  unfold Part.cutLink
  split
  · rfl
  · rfl
  · rfl
  · rw [← show Part.place _ k = _ from (takeFromList_acts _).same (.place k) rfl, doubtUnsettled_serial]
    rfl

/-- R19: a link that is cut with no ADVANCE_TALLY sent leaves the slot's work and the history table. -/
theorem cutLink_settled {p : Part} {i : Slot} (settled : (p.commit i).unsettled = none) :
    Part.Flushes p (p.cutLink i) ∧ ∀ k, (p.cutLink i).place k = p.place k := by
  unfold Part.cutLink
  split
  · exact ⟨.refl p, fun _ => rfl⟩
  · exact ⟨.of_same rfl rfl rfl, fun _ => rfl⟩
  · exact ⟨.of_same rfl rfl rfl, fun _ => rfl⟩
  · rw [doubtUnsettled_none (p := p.setLink i .none) settled]
    exact ⟨(setLink_flushes p i _).trans (takeFromList_flushes _), fun k => ((takeFromList_acts _).same (.place k) rfl).symm⟩

/-- R130: an ADVANCE_TALLY that was sent and is cut off stands in doubt in the slot and in its entry. -/
theorem cutLink_sent {p : Part} {i : Slot} {h : Hold} {a : Advance} {k : Fin 64} {e : Entry} (held : p.link i = .held h)
    (sent : (p.commit i).unsettled = some a) (link : p.linkedPlace i = some k) (entry : (p.place k).entry = some e) :
    ((p.cutLink i).commit i).uncommitted = (p.commit i).uncommitted ∧ ((p.cutLink i).commit i).inDoubt = a.units ∧
    ((p.cutLink i).commit i).tallyFull = (p.commit i).tallyFull ∧
    (p.cutLink i).place k = ⟨some { e with inDoubt := a.units }, true⟩ := by
  have cut : p.cutLink i = ((p.setLink i .none).doubtUnsettled i).takeFromList := by
    unfold Part.cutLink
    rw [held]
  have row : ((p.setLink i .none).doubtUnsettled i).commit i = (p.commit i).doubted :=
    (doubtUnsettled_commit _ i i).trans (if_pos rfl)
  have place : ((p.setLink i .none).doubtUnsettled i).place k = ⟨some { e with inDoubt := a.units }, true⟩ := by
    rw [doubtUnsettled_sent (p := p.setLink i .none) sent]
    exact setInDoubt_place (p := (p.setLink i .none).clearUnsettled i) link entry a.units
  have doubted : (p.commit i).doubted = { p.commit i with unsettled := none, inDoubt := a.units } := by
    rw [CommitRow.doubted, sent]
  rw [doubted] at row
  rw [cut]
  have taken := takeFromList_flushes ((p.setLink i .none).doubtUnsettled i)
  refine ⟨(taken.uncommitted i).trans (by rw [row]), (taken.inDoubt i).trans (by rw [row]),
    (taken.rows i).tallyFull.trans (by rw [row]), ?_⟩
  rw [← show Part.place _ k = _ from (takeFromList_acts _).same (.place k) rfl, place]

/-- R54: the entry takes over what it keeps of the slot. -/
theorem removalHandling_place {p : Part} {i : Slot} {k : Fin 64} {e : Entry} (link : p.linkedPlace i = some k)
    (entry : (p.place k).entry = some e) : (p.removalHandling i).place k = ⟨some (p.foldInto i e), true⟩ := by
  unfold Part.removalHandling
  rw [recordCommit_place]
  exact changeLinkedEntry_place link entry _

theorem withdrawn_acts (p : Part) (i : Slot) :
    Part.Acts (Views.and (.only .digests) (.only (.slot i))) (p.cutOff i) (p.withdrawn i) :=
  (updSlot_acts (p.cutOff i) i (fun r => { r with timer := .stopped }) (by simp [Views.and, Views.only])
    fun _ => ⟨rfl, rfl⟩).trans
    ((cancelDigest_acts _ _).mono (Views.le_and_left _ _))

theorem withdrawn_linkedPlace (p : Part) (i : Slot) : (p.withdrawn i).linkedPlace i = (p.cutOff i).linkedPlace i := by
  unfold Part.linkedPlace
  rw [withdrawn_slot, cutOff_slot, heldPlace_congr (p := p.cutOff i) (fun k => ?_) (by rw [withdrawn_slot, cutOff_slot])]
  exact congrArg PlaceRow.serial ((withdrawn_acts p i).same (.place k) rfl).symm

theorem withdrawn_foldInto (p : Part) (i : Slot) (e : Entry) : (p.withdrawn i).foldInto i e = (p.cutOff i).foldInto i e := by
  unfold Part.foldInto
  rw [← show Part.commit _ i = _ from (withdrawn_acts p i).same (.commit i) rfl,
    ← show Part.volumes _ i = _ from (withdrawn_acts p i).same (.volumes i) rfl]

theorem handedOver_place {p : Part} {i : Slot} {k : Fin 64} {e : Entry} (keeps : (p.slot i).keepsHistory = true)
    (link : (p.cutOff i).linkedPlace i = some k) (entry : ((p.cutOff i).place k).entry = some e) :
    (p.handedOver i).place k = ⟨some ((p.cutOff i).foldInto i e), true⟩ := by
  have kept : ((p.withdrawn i).slot i).keepsHistory = true := by rw [withdrawn_slot]; exact keeps
  have place : (p.withdrawn i).place k = (p.cutOff i).place k := ((withdrawn_acts p i).same (.place k) rfl).symm
  unfold Part.handedOver
  rw [if_pos kept, removalHandling_place ((withdrawn_linkedPlace p i).trans link) (by rw [place]; exact entry),
    withdrawn_foldInto]

theorem emptySlot_place (p : Part) (i : Slot) (k : Fin 64) : (p.emptySlot i).place k = p.place k := by
  unfold Part.emptySlot
  extract_lets p1 _ p2
  have report : Part.Acts .reporting p2 (((p2.recordSlot i).raise .slot).reportToCommit i) :=
    (((recordSlot_acts p2 i).mono (Views.slotRecord_le_reporting i)).trans (raise_acts _ _)).trans (reportToCommit_acts _ i)
  exact (report.same (.place k) rfl).symm

theorem emptied_place (p : Part) (i : Slot) (k : Fin 64) : (p.emptied i).place k = (p.handedOver i).place k :=
  ((dropSource_acts _ i).same (.place k) rfl).symm.trans (emptySlot_place _ i k)

theorem foldInto_congr {p q : Part} {i : Slot} (uncommitted : (q.commit i).uncommitted = (p.commit i).uncommitted)
    (inDoubt : (q.commit i).inDoubt = (p.commit i).inDoubt) (tallyFull : (q.commit i).tallyFull = (p.commit i).tallyFull)
    (volumes : q.volumes i = p.volumes i) (e : Entry) : q.foldInto i e = p.foldInto i e := by
  unfold Part.foldInto
  rw [uncommitted, inDoubt, tallyFull, volumes]

theorem endFlush_place (p : Part) (i : Slot) (cause : EndCause) (k : Fin 64) : (p.endFlush i cause).place k = p.place k :=
  ((endFlush_acts p i cause).same (.place k) rfl).symm

theorem cutLink_volumes (p : Part) (i j : Slot) : (p.cutLink i).volumes j = p.volumes j := by
  unfold Part.cutLink
  split
  · rfl
  · rfl
  · rfl
  · exact (((doubtUnsettled_acts _ i).same (.volumes j) rfl).trans ((takeFromList_acts _).same (.volumes j) rfl)).symm

theorem cutOff_linkedPlace {p : Part} {i : Slot} : (p.cutOff i).linkedPlace i = p.linkedPlace i :=
  linkedPlace_congr (fun k => (cutLink_serial _ i k).trans (congrArg PlaceRow.serial (endFlush_place p i _ k))) (cutOff_slot p i i)

theorem cutOff_volumes (p : Part) (i : Slot) : (p.cutOff i).volumes i = p.volumes i :=
  (cutLink_volumes _ i i).trans ((endFlush_acts p i .removed).same (.volumes i) rfl).symm

/-- R54: the removed slot's entry, nothing being unsettled. -/
theorem emptied_place_settled {p : Part} {i : Slot} {k : Fin 64} {e : Entry} (keeps : (p.slot i).keepsHistory = true)
    (link : p.linkedPlace i = some k) (entry : (p.place k).entry = some e) (settled : (p.commit i).unsettled = none) :
    (p.emptied i).place k = ⟨some (p.foldInto i e), true⟩ := by
  have ended := endFlush_flushes p i .removed
  obtain ⟨cut, places⟩ := cutLink_settled (p := p.endFlush i .removed) (i := i) ((ended.rows i).unsettled.trans settled)
  have work := ended.trans cut
  have place : (p.cutOff i).place k = p.place k := (places k).trans (endFlush_place p i _ k)
  rw [emptied_place, handedOver_place keeps (cutOff_linkedPlace.trans link) (by rw [place]; exact entry),
    foldInto_congr (p := p) (q := p.cutOff i) (work.uncommitted i) (work.inDoubt i) (work.rows i).tallyFull (cutOff_volumes p i)]

/-- R54, R130: the removed slot's entry, with an ADVANCE_TALLY sent. -/
theorem emptied_place_sent {p : Part} {i : Slot} {k : Fin 64} {e : Entry} {h : Hold} {a : Advance}
    (keeps : (p.slot i).keepsHistory = true) (link : p.linkedPlace i = some k) (entry : (p.place k).entry = some e)
    (sent : (p.commit i).unsettled = some a) (held : p.link i = .held h) :
    (p.emptied i).place k = ⟨some { p.foldInto i e with inDoubt := a.units }, true⟩ := by
  have ended := endFlush_flushes p i .removed
  have acts := endFlush_acts p i .removed
  have entry' : ((p.endFlush i .removed).place k).entry = some e := by rw [endFlush_place]; exact entry
  have link' : (p.endFlush i .removed).linkedPlace i = some k :=
    (linkedPlace_congr (fun k => congrArg PlaceRow.serial (endFlush_place p i _ k)) (acts.same (.slot i) rfl).symm).trans link
  obtain ⟨uncommitted, inDoubt, tallyFull, place⟩ :=
    cutLink_sent (acts.aside.link.trans held) ((ended.rows i).unsettled.trans sent) link' entry'
  rw [emptied_place, handedOver_place keeps (cutOff_linkedPlace.trans link) (congrArg PlaceRow.entry place)]
  have into : (p.cutOff i).foldInto i { e with inDoubt := a.units } = { p.foldInto i e with inDoubt := a.units } := by
    unfold Part.foldInto
    rw [show ((p.cutOff i).commit i).uncommitted = _ from uncommitted.trans (ended.uncommitted i),
      show ((p.cutOff i).commit i).inDoubt = _ from inDoubt,
      show ((p.cutOff i).commit i).tallyFull = _ from tallyFull.trans (ended.rows i).tallyFull, cutOff_volumes]
    simp
  rw [into]

end Sys2Proof.Machine
end

-- ==== Bays: RemovedSlot ====
section
set_option Elab.async false
namespace Sys2Proof.Machine
open Sys2Proof

/-! ## The channel of a removed slot (R105, R106, R118) -/

/-- The slots that a feed names, the primary first. -/
def Feed.slots (f : Feed) : List Slot := f.primary.toList ++ f.secondary.toList

/-- R105: a channel without a source gets the first slot of its feed that qualifies, else the first that is present. -/
theorem chooseSource_none {p : Part} {c : Channel} (none : (p.channel c).active = none) :
    p.chooseSource c = ((p.channel c).feed.slots.find? p.qualifies).or ((p.channel c).feed.slots.find? p.presentForChannel) := by
  unfold Part.chooseSource Feed.slots
  dsimp only
  rw [none]
  generalize (p.channel c).feed.primary = primary
  generalize (p.channel c).feed.secondary = secondary
  cases primary with
  | none =>
    cases secondary with
    | none => rfl
    | some j => cases hj : p.qualifies j <;> cases kj : p.presentForChannel j <;> simp [optSlot, hj, kj]
  | some i =>
    cases secondary with
    | none => cases hi : p.qualifies i <;> cases ki : p.presentForChannel i <;> simp [optSlot, hi, ki]
    | some j =>
      cases hi : p.qualifies i <;> cases hj : p.qualifies j <;> cases ki : p.presentForChannel i <;>
        cases kj : p.presentForChannel j <;> simp [optSlot, hi, hj, ki, kj]

/-- R106: a slot that is its channel's source leaves it, and the channel is re-selected. -/
theorem dropSource_active {p : Part} {i : Slot} {c : Channel} (active : (p.channel c).active = some i)
    (channel : p.channelOf i = some c) : ((p.dropSource i).channel c).active =
      ((p.channel c).feed.slots.find? p.qualifies).or ((p.channel c).feed.slots.find? p.presentForChannel) := by
  have row : (p.updChannel c fun r => { r with active := none }).channel c = { p.channel c with active := none } :=
    Part.setChannel_channel_self p c _
  have chosen := chooseSource_none (p := p.updChannel c fun r => { r with active := none }) (c := c) (by rw [row])
  unfold Part.dropSource
  rw [channel]
  simp only [active, if_true]
  rw [Part.reselect]
  refine (congrArg ChannelRow.active (Part.setChannel_channel_self _ c _)).trans (chosen.trans ?_)
  rw [row]
  rfl

theorem dropSource_other {p : Part} {i : Slot} {c : Channel} (active : (p.channel c).active ≠ some i) :
    (p.dropSource i).channel c = p.channel c := by
  unfold Part.dropSource
  split
  · split
    · rename_i d _ source
      have ne : c ≠ d := fun e => active (by rw [e]; exact source)
      exact (Part.setChannel_channel_ne _ d _ c ne).trans (Part.setChannel_channel_ne p d _ c ne)
    · rfl
  · rfl

/-! ### The channels at a removal -/

/-- The part whose slot is about to leave its channel. -/
abbrev Part.blanked (p : Part) (i : Slot) : Part := (p.handedOver i).emptySlot i

theorem withdrawn_removes (p : Part) (i : Slot) :
    Part.Acts (Views.and (.removing i) (.only .digests)) (p.cutOff i) (p.withdrawn i) :=
  (withdrawn_acts p i).mono fun v h => by
    cases v <;> simp_all [Views.and, Views.only, Views.removing]

theorem handedOver_removes (p : Part) (i : Slot) : Part.Acts (.removing i) (p.withdrawn i) (p.handedOver i) := by
  unfold Part.handedOver
  split
  · exact removalHandling_removes _ i
  · exact .refl _ _

/-- Up to the channel's source a removal touches the views of its parts and the digest engine. -/
theorem blanked_removes (p : Part) (i : Slot) :
    Part.Acts (Views.and (.removing i) (.only .digests)) (p.endFlush i .removed) (p.blanked i) :=
  (((cutLink_removes _ i).mono (Views.le_and_left _ _)).trans (withdrawn_removes p i)).trans
    (((handedOver_removes p i).trans (emptySlot_removes _ i)).mono (Views.le_and_left _ _))

theorem blanked_acts (p : Part) (i : Slot) : Part.Acts (Views.and (.removing i) (.only .digests)) p (p.blanked i) :=
  ((endFlush_removes p i .removed).mono (Views.le_and_left _ _)).trans (blanked_removes p i)

theorem blanked_channel (p : Part) (i : Slot) (c : Channel) : (p.blanked i).channel c = p.channel c :=
  ((blanked_acts p i).same (.channel c) rfl).symm

theorem blanked_others (p : Part) {i j : Slot} (ne : j ≠ i) :
    (p.blanked i).slot j = p.slot j ∧ (p.blanked i).volumes j = p.volumes j := by
  have untouched : Views.and (.removing i) (.only .digests) (.slot j) = false ∧
      Views.and (.removing i) (.only .digests) (.volumes j) = false := by
    simp [Views.and, Views.removing, Views.only, ne]
  exact ⟨((blanked_acts p i).same (.slot j) untouched.1).symm, ((blanked_acts p i).same (.volumes j) untouched.2).symm⟩

/-- R104: the removed slot neither qualifies nor is present; every other slot is as it was. -/
theorem blanked_present (p : Part) (i j : Slot) : (p.blanked i).presentForChannel j = (j != i && p.presentForChannel j) := by
  unfold Part.presentForChannel
  by_cases own : j = i
  · subst own
    rw [(emptySlot_blank (p.handedOver j) j).1]
    simp [SlotRow.blank, SlotState.inServiceGroup]
  · rw [(blanked_others p own).1]
    simp [own]

theorem blanked_qualifies (p : Part) (i j : Slot) : (p.blanked i).qualifies j = (j != i && p.qualifies j) := by
  unfold Part.qualifies
  by_cases own : j = i
  · subst own
    rw [(emptySlot_blank (p.handedOver j) j).1]
    simp [SlotRow.blank, SlotState.inServiceGroup]
  · rw [(blanked_others p own).1, (blanked_others p own).2]
    simp [own]

theorem channelOf_congr {p q : Part} (same : ∀ c, q.channel c = p.channel c) (i : Slot) : q.channelOf i = p.channelOf i := by
  simp only [Part.channelOf, same]

theorem emptied_channel_active {p : Part} {i : Slot} {c : Channel} (active : (p.channel c).active = some i)
    (channel : p.channelOf i = some c) : ((p.emptied i).channel c).active =
      ((p.channel c).feed.slots.find? fun j => j != i && p.qualifies j).or
        ((p.channel c).feed.slots.find? fun j => j != i && p.presentForChannel j) := by
  have qualifies : (p.blanked i).qualifies = fun j => j != i && p.qualifies j := funext fun j => blanked_qualifies p i j
  have present : (p.blanked i).presentForChannel = fun j => j != i && p.presentForChannel j :=
    funext fun j => blanked_present p i j
  have dropped := dropSource_active (p := p.blanked i) (i := i) (c := c) (by rw [blanked_channel]; exact active)
    (by rw [channelOf_congr (blanked_channel p i)]; exact channel)
  rw [qualifies, present, blanked_channel] at dropped
  exact dropped

theorem emptied_channel_other {p : Part} {i : Slot} {c : Channel} (active : (p.channel c).active ≠ some i) :
    (p.emptied i).channel c = p.channel c := by
  have dropped := dropSource_other (p := p.blanked i) (i := i) (c := c) (by rw [blanked_channel]; exact active)
  exact dropped.trans (blanked_channel p i c)

/-! ## The link of a removed slot -/

theorem removalHandling_aside (p : Part) (i : Slot) : Part.Aside i p (p.removalHandling i) := by
  unfold Part.removalHandling
  extract_lets c v q
  have written : Part.Aside i p q := (changeLinkedEntry_acts p i _).aside
  exact written.trans ((updCommit_aside i q i _).trans (recordCommit_acts _ i).aside)

theorem handedOver_aside (p : Part) (i : Slot) : Part.Aside i (p.withdrawn i) (p.handedOver i) := by
  unfold Part.handedOver
  split
  · exact removalHandling_aside _ i
  · exact .refl i _

theorem emptySlot_aside {p : Part} {i : Slot} (off : p.Unlisted i) : Part.Aside i p (p.emptySlot i) := by
  unfold Part.emptySlot
  extract_lets p1 _ p2
  have rows : Part.Aside i p p2 := .of_lp rfl
  have slot : p2.slot i = SlotRow.blank := Part.setSlot_slot_self p i _
  clear_value p2
  have recorded : Part.Aside i p2 ((p2.recordSlot i).raise .slot) := (recordSlot_acts p2 i).aside.trans (raise_aside i _ _)
  have row : ((p2.recordSlot i).raise .slot).slot i = SlotRow.blank := ((recordSlot_acts p2 i).same (.slot i) rfl).symm.trans slot
  have idle : (((p2.recordSlot i).raise .slot).slot i).state ≠ .inService := by rw [row]; simp [SlotRow.blank]
  exact rows.trans (recorded.trans (reportToCommit_aside idle (recorded.unlisted (rows.unlisted off))))

theorem emptied_drops (p : Part) (i : Slot) : Part.Acts .channels (p.blanked i) (p.emptied i) := dropSource_acts _ i

theorem emptied_link {p : Part} {i : Slot} (listed : p.ListedAs i) :
    (p.emptied i).link i = .none ∧ (p.emptied i).Unlisted i := by
  have ended : (p.endFlush i .removed).ListedAs i := by
    have lp := (endFlush_acts p i .removed).lp_eq
    rw [listedAs_iff, Part.link, lp]
    exact (listedAs_iff p i).1 listed
  obtain ⟨link, unlisted⟩ := cutLink_leaves ended
  have handed : Part.Aside i (p.cutOff i) (p.handedOver i) := (withdrawn_acts p i).aside.trans (handedOver_aside p i)
  have blanked : Part.Aside i (p.handedOver i) (p.blanked i) := emptySlot_aside (handed.unlisted unlisted)
  have all := handed.trans (blanked.trans (emptied_drops p i).aside)
  exact ⟨all.link.trans link, all.unlisted unlisted⟩

/-! ## The cells at a removal -/

theorem cutLink_spares (p : Part) (i : Slot) : Part.Spares p (p.cutLink i) := by
  unfold Part.cutLink
  split
  · exact (Part.Flushes.refl p).toSpares
  · exact (withLinks_flushes p _).toSpares
  · exact (withLinks_flushes p _).toSpares
  · exact (setLink_flushes p i _).toSpares.trans ((doubtUnsettled_spares _ i).trans (takeFromList_flushes _).toSpares)

theorem withdrawn_spares (p : Part) (i : Slot) : Part.Spares (p.cutOff i) (p.withdrawn i) := by
  have stopped := updSlot_flushes (p.cutOff i) i fun r => { r with timer := .stopped }
  have cancelled : Part.Flushes ((p.cutOff i).updSlot i fun r => { r with timer := .stopped }) (p.withdrawn i) :=
    .of_same rfl rfl rfl
  exact (stopped.trans cancelled).toSpares

theorem removalHandling_spares (p : Part) (i : Slot) : Part.Spares p (p.removalHandling i) := by
  unfold Part.removalHandling
  extract_lets c v q
  have written : Part.Flushes p q := changeLinkedEntry_flushes p i _
  exact written.toSpares.trans ((updCommit_spares rfl).trans (recordCommit_flushes _ i).toSpares)

theorem handedOver_spares (p : Part) (i : Slot) : Part.Spares (p.withdrawn i) (p.handedOver i) := by
  unfold Part.handedOver
  split
  · exact removalHandling_spares _ i
  · exact (Part.Flushes.refl _).toSpares

/-- A row whose holders are given up. -/
theorem setCommit_spares (p : Part) (i : Slot) {r : CommitRow} (left : r.holders = []) : Part.Spares p (p.setCommit i r) := by
  refine ⟨fun j => ?_, id, fun _ => id, fun _ _ _ _ _ => rfl⟩
  by_cases e : j = i
  · subst e; right; rw [Part.setCommit_commit_self, left]
  · left; rw [Part.setCommit_commit_ne _ _ _ _ e]

theorem emptySlot_spares (p : Part) (i : Slot) : Part.Spares p (p.emptySlot i) := by
  unfold Part.emptySlot
  extract_lets p1 _ p2
  have blank : Part.Flushes p p1 := .of_same rfl rfl rfl
  have row : Part.Spares p1 p2 := setCommit_spares p1 i rfl
  exact (blank.toSpares.trans row).trans
    (((recordSlot_flushes p2 i).trans (raise_flushes _ _)).toSpares.trans (reportToCommit_spares _ i))

theorem dropSource_flushes (p : Part) (i : Slot) : Part.Flushes p (p.dropSource i) := by
  unfold Part.dropSource
  split
  · split
    · exact .of_same rfl rfl rfl
    · exact .refl p
  · exact .refl p

/-- After the end of the flush a removal spares the cells. -/
theorem emptied_spares (p : Part) (i : Slot) : Part.Spares (p.endFlush i .removed) (p.emptied i) :=
  ((cutLink_spares _ i).trans ((withdrawn_spares p i).trans (handedOver_spares p i))).trans
    ((emptySlot_spares _ i).trans (dropSource_flushes _ i).toSpares)

/-- R134: after the end of the flush the answer to a COMMIT_NOW stands. -/
theorem emptied_acts (p : Part) (i : Slot) :
    Part.Acts (Views.and (Views.and (.removing i) (.only .digests)) .channels) (p.endFlush i .removed) (p.emptied i) :=
  ((blanked_removes p i).mono (Views.le_and_left _ _)).trans ((dropSource_acts _ i).mono (Views.le_and_right _ _))

/-- R44: a REVERIFY parked with the removed slot is answered. -/
theorem removal_answers {p : Part} {i : Slot} {cell : CellNo} (wf : Memory.wf p.board = true) (loose : p.Loose cell)
    (parked : (p.slot i).parkedCell = some cell) :
    (∃ m, (p.removal i).Answered cell .abortedRemoved m) ∧ (p.removal i).Loose cell := by
  have spared := (endFlush_flushes p i .removed).toSpares.trans (emptied_spares p i)
  rw [removal_parked parked]
  exact ⟨⟨_, complete_answered (spared.wf wf) cell .abortedRemoved []⟩, (spared.loose loose).complete cell .abortedRemoved []⟩

/-- R134: a COMMIT_NOW for the removed slot alone is answered, with the slot marked removed. -/
theorem removal_endsCommitNow {p : Part} {i : Slot} {cell : CellNo} {causes : Vector EndCause 12}
    (wf : Memory.wf p.board = true) (settings : ∀ r ∈ p.hs.settingsQueue, r.cell ≠ cell)
    (other : (p.slot i).parkedCell ≠ some cell) (parked : ⟨cell, .commitNow (some i) causes⟩ ∈ p.rq.parked)
    (sole : ∀ x ∈ p.rq.parked, x.cell = cell → x.work = .commitNow (some i) causes)
    (holds : ∀ j, cell ∈ (p.commit j).holders ↔ j = i) :
    (p.removal i).EndedByRemoval cell i ∧ (p.removal i).Loose cell := by
  obtain ⟨ended, free⟩ := endFlush_ends wf parked sole holds
  have loose : (p.endFlush i .removed).Loose cell :=
    ⟨free, fun r hr => settings r ((endFlush_flushes p i .removed).settings r hr)⟩
  have spared := emptied_spares p i
  have kept := ended.keep (spared.cells cell loose) (emptied_acts p i)
  have still := spared.loose loose
  cases reverify : (p.slot i).parkedCell with
  | none =>
    rw [removal_unparked reverify]
    exact ⟨kept, still⟩
  | some d =>
    have ne : cell ≠ d := fun e => other (by rw [reverify, e])
    rw [removal_parked reverify]
    exact ⟨kept.keep (complete_sameCell _ _ (FitsIn.nil _) ne) (complete_acts _ _ _ _ (FitsIn.nil _)),
      still.complete d .abortedRemoved []⟩

end Sys2Proof.Machine
end

-- ==== Bays: Removal ====
section
set_option Elab.async false
namespace Sys2Proof.Machine
open Sys2Proof

/-! ## The removal timer's end (R1, R19) -/

/-- The bay whose removal time has ended (R1). -/
def Part.vacated (p : Part) (b : Slot) : Part :=
  (p.updBay b fun r => { r with settledHeld := false }).updBay b fun r => { r with presence := .absent, timer := .stopped }

theorem exec_removal {s : State} {b : Slot} (normal : s.part.Normal) (presence : (s.part.bay b).presence = .leaving)
    (timer : (s.part.bay b).timer = .removal) :
    exec (.removalTimerExpiry b) s = s.after ((s.part.vacated b).removal b) := by
  have declares : (s.part.vacated b).declares ≠ .none := by
    rw [declares_running (p := s.part.vacated b) normal.running]
    simp
  rw [exec_removalTimerExpiry presence timer, presenceBecomes_awake (by exact normal.awake)]
  rw [Part.declareRemoval]
  exact congrArg s.after (if_neg declares)

theorem finish_channel (before p : Part) (c : Channel) : (Part.finish before p).channel c = p.channel c :=
  ((finish_acts before p).same (.channel c) rfl).symm

theorem finish_volumes (before p : Part) (i : Slot) : (Part.finish before p).volumes i = p.volumes i :=
  ((finish_acts before p).same (.volumes i) rfl).symm

theorem removal_bay (p : Part) (i : Slot) : ((p.removal i).bay i).presence = (p.bay i).presence ∧
    ((p.removal i).bay i).timer = (p.bay i).timer :=
  let ⟨presence, timer, _⟩ := (removal_acts p i).same (.presence i) rfl
  ⟨presence.symm, timer.symm⟩

theorem removal_slot (p : Part) (i : Slot) : (p.removal i).slot i = SlotRow.blank :=
  ((removal_completes p i).same (.slot i) rfl).symm.trans (emptied_slot p i)

theorem removal_volumes (p : Part) (i : Slot) : (p.removal i).volumes i = Volumes.blank :=
  ((removal_completes p i).same (.volumes i) rfl).symm.trans (emptied_volumes p i)

theorem removal_commit (p : Part) (i : Slot) : (p.removal i).commit i = (p.emptied i).commit i :=
  ((removal_completes p i).same (.commit i) rfl).symm

theorem removal_dg (p : Part) (i : Slot) : (p.removal i).dg = (p.emptied i).dg :=
  ((removal_completes p i).same .digests rfl).symm

theorem removal_place (p : Part) (i : Slot) (k : Fin 64) : (p.removal i).place k = (p.emptied i).place k :=
  ((removal_completes p i).same (.place k) rfl).symm

theorem removal_channel (p : Part) (i : Slot) (c : Channel) : (p.removal i).channel c = (p.emptied i).channel c :=
  ((removal_completes p i).same (.channel c) rfl).symm

/-- While fold at write is disabled the end of the step leaves the history table of the removal. -/
theorem finish_removal_place {before p : Part} {i : Slot} (unfolded : p.hs.foldAtWrite = false) (k : Fin 64) :
    (Part.finish before (p.removal i)).place k = (p.emptied i).place k := by
  have still : (p.removal i).hs.foldAtWrite = false := ((removal_acts p i).same .foldAtWrite rfl).symm.trans unfolded
  rw [← removal_place]
  exact ((finish_acts_plain before _ still).same (.place k) rfl).symm

/-- Settles O15: the removal in its stages, each a lemma, and the end of the step, which touches none of it. -/
theorem removalEmptiesTheSlot : Obligations.RemovalEmptiesTheSlot := by
  intro b s normal presence timer
  refine completes_after (exec_removal normal presence timer) ?_
  have bay : ((s.part.vacated b).bay b).presence = .absent ∧ ((s.part.vacated b).bay b).timer = .stopped := by
    unfold Part.vacated
    rw [updBay_bay_self]
    exact ⟨rfl, rfl⟩
  obtain ⟨presence', timer'⟩ := removal_bay (s.part.vacated b) b
  obtain ⟨-, absent, stopped, -⟩ := finish_bay s.part ((s.part.vacated b).removal b) b
  obtain ⟨ended, row⟩ := emptied_commit (s.part.vacated b) b
  rw [← removal_commit] at row
  obtain ⟨uncommitted, inDoubt, unsettled, tallyFull, holders, linkLost, count⟩ :=
    (row.trans ((finish_ebbs s.part _).rows b)).blank
  refine ⟨absent.trans (presence'.trans bay.1), stopped.trans (timer'.trans bay.2), ?_, ?_, uncommitted, inDoubt, unsettled,
    tallyFull, holders, linkLost, count, ?_, fun listed => ?_, fun k e keeps link entry plain => ⟨fun settled => ?_, ?_⟩,
    fun c active channel => ?_, fun c active => ?_, fun cell wf settings => ⟨fun parked free => ?_, ?_⟩⟩
  · rw [finish_slot, removal_slot]
  · rw [finish_volumes, removal_volumes]
  · obtain ⟨queue, behind⟩ := finish_digests s.part ((s.part.vacated b).removal b)
    rw [queue, behind, removal_dg]
    exact emptied_digests _ b
  · obtain ⟨link, unlisted⟩ := emptied_link (p := s.part.vacated b) (i := b) listed
    have kept : Part.Aside b ((s.part.vacated b).emptied b) (Part.finish s.part ((s.part.vacated b).removal b)) :=
      (removal_completes _ b).aside.trans (.of_lp (finish_lp _ _))
    exact ⟨kept.link.trans link, kept.unlisted unlisted⟩
  · rw [finish_removal_place (p := s.part.vacated b) plain]
    exact emptied_place_settled (p := s.part.vacated b) keeps link entry settled
  · intro a h sent held
    rw [finish_removal_place (p := s.part.vacated b) plain]
    exact emptied_place_sent (p := s.part.vacated b) keeps link entry sent held
  · rw [finish_channel, removal_channel]
    exact emptied_channel_active (p := s.part.vacated b) active channel
  · rw [finish_channel, removal_channel, emptied_channel_other (p := s.part.vacated b) active]
    rfl
  · obtain ⟨⟨m, answered⟩, loose⟩ := removal_answers (p := s.part.vacated b) wf ⟨free, settings⟩ parked
    exact ⟨m, answered.finish loose s.part⟩
  · intro causes other parked sole holds
    obtain ⟨ended, loose⟩ := removal_endsCommitNow (p := s.part.vacated b) wf settings other parked sole holds
    have kept := ended.keep ((finish_ebbs s.part _).cells cell loose) (finish_acts s.part _)
    exact ⟨kept.answered, kept.cause⟩

end Sys2Proof.Machine
end

-- ==== BringUp: Quiet ====
section

/-! PROOFS. The blocks that act of themselves have nothing left to do after any step (R35, R52, R151, R154). -/

set_option Elab.async false
namespace Sys2Proof.Machine
open Sys2Proof

/-! ## How a command ends -/

/-- The command changes nothing, or its step ends as every step does. -/
def Ends (s : State) (o : Host.Outcome State Fault Refusal) : Prop :=
  o = .next s ∨ ∃ before p, o = .next { s with part := Part.finish before p }

theorem ends_unchanged (s : State) : Ends s s.unchanged := .inl rfl

theorem ends_after (s : State) (p : Part) : Ends s (s.after p) := .inr ⟨s.part, p, rfl⟩

theorem ends_ite {s : State} {b : Prop} [Decidable b] {x y : Host.Outcome State Fault Refusal} (hx : Ends s x)
    (hy : Ends s y) : Ends s (if b then x else y) := by
  split
  · exact hx
  · exact hy

/-- A command that either changes nothing or ends with some part. -/
theorem ends_either {s : State} {b : Prop} [Decidable b] (p : Part) : Ends s (if b then s.after p else s.unchanged) :=
  ends_ite (ends_after s p) (ends_unchanged s)

theorem ends_unless {s : State} {b : Prop} [Decidable b] (p : Part) : Ends s (if b then s.unchanged else s.after p) :=
  ends_ite (ends_unchanged s) (ends_after s p)

theorem ends_afterSome (s : State) (o : Option Part) : Ends s (s.afterSome o) := by
  unfold State.afterSome
  split
  · exact ends_after s _
  · exact ends_unchanged s

theorem ends_request (s : State) (k : Kind) (owner : CellNo → Part → Part) : Ends s (s.request k owner) := by
  unfold State.request
  split
  · exact ends_after s _
  · exact ends_unchanged s

theorem ends_engineWrite (s : State) (a : Nat) (x y : Byte) : Ends s (s.engineWrite a x y) := ends_unless _

theorem ends_controlUpperWrite (s : State) (u : Half) : Ends s (s.controlUpperWrite u) := ends_unless _

/-- A judging of the operation of a hold, which only its phase allows. -/
theorem execResponseByteTimeout_ends (b : Slot) (low : Bool) (s : State) : Ends s (execResponseByteTimeout b low s) := by
  unfold execResponseByteTimeout
  split
  · split <;> first | exact ends_after s _ | exact ends_unchanged s
  · exact ends_unchanged s

theorem execCommandFrameEnd_ends (b : Slot) (s : State) : Ends s (execCommandFrameEnd b s) := by
  unfold execCommandFrameEnd
  split
  · split <;> first | exact ends_after s _ | exact ends_unchanged s
  · exact ends_unchanged s

theorem execStatusLengthReceived_ends (b : Slot) (status length : Byte) (low : Bool) (s : State) :
    Ends s (execStatusLengthReceived b status length low s) := by
  unfold execStatusLengthReceived
  split
  · exact ends_ite (ends_ite (ends_after s _) (ends_after s _)) (ends_unchanged s)
  · exact ends_unchanged s

theorem execHistoryWriteAttemptEnd_ends (v : Bool) (s : State) : Ends s (execHistoryWriteAttemptEnd v s) := by
  unfold execHistoryWriteAttemptEnd
  split
  · exact ends_ite (ends_after s _) (ends_ite (ends_after s _) (ends_after s _))
  all_goals exact ends_unchanged s

theorem execSupplyGood_ends (s : State) : Ends s (execSupplyGood s) :=
  ends_ite (ends_ite (ends_after s _) (ends_after s _)) (ends_unchanged s)

/-- The load completes: the step ends against the part that the load has left. -/
theorem execLoadComplete_ends (s : State) : Ends s (execLoadComplete s) :=
  ends_ite (.inr ⟨s.part.loadStored, s.part.loadStored.endSequence, rfl⟩) (ends_unchanged s)

/-- Every command but a loss of power ends so. -/
theorem exec_ends_step {c : Instr} (powered : c ≠ .powerLoss) (s : State) : Ends s (exec c s) := by
  cases c with
  | powerLoss => exact absurd rfl powered
  | contactCloses | supplyLow | resetAsserted | patternPeriodEnd | noticeClear | controlLowerHalfWrite =>
    exact ends_unless _
  | contactOpens | settleTimerExpiry | removalTimerExpiry | lineFoundHigh | probeTimerExpiry | powerOn | resetReleased
  | lockoutTimerExpiry | idleTimerExpiry => exact ends_either _
  | identify | challenge | readTally | advanceTally => exact ends_afterSome s _
  | cellArrival | cellWithdrawal | cellGiveBack | bankArrival | bankReopen => exact ends_engineWrite s _ _ _
  | boardWrite => exact ends_ite (ends_engineWrite s _ _ _) (ends_unchanged s)
  | controlByteOrder | controlMaskPolarity | restart => exact ends_controlUpperWrite s _
  | registerWriteOther half => cases half <;> exact ends_unchanged s
  | setThresholds | setCommit | commitNow | reverify | purge | readHistory | setNoticeLevels | setLedBrightness | setPower
  | enterService | leaveService | loadCalibration | setFeed | reconcile | forgetHistory | setRefillMargin =>
    exact ends_request s _ _
  | supplyGood => exact execSupplyGood_ends s
  | loadComplete => exact execLoadComplete_ends s
  | commandFrameEnd b => exact execCommandFrameEnd_ends b s
  | responseByteTimeout b low => exact execResponseByteTimeout_ends b low s
  | statusLengthReceived b status length low => exact execStatusLengthReceived_ends b status length low s
  | historyWriteAttemptEnd v => exact execHistoryWriteAttemptEnd_ends v s
  | linkOperationStart b =>
    show Ends s (execLinkOperationStart b s)
    unfold execLinkOperationStart
    split
    · exact ends_either _
    · exact ends_unchanged s
  | linkGapTimeout b low =>
    show Ends s (execLinkGapTimeout b low s)
    unfold execLinkGapTimeout
    split
    · exact ends_either _
    · exact ends_unchanged s
  | responseTimeout b low =>
    show Ends s (execResponseTimeout b low s)
    unfold execResponseTimeout
    split
    · exact ends_either _
    · exact ends_unchanged s
  | responseStartSeen b =>
    show Ends s (execResponseStartSeen b s)
    unfold execResponseStartSeen
    split
    · exact ends_either _
    · exact ends_unchanged s
  | retryTimerExpiry i =>
    show Ends s (execRetryTimerExpiry i s)
    unfold execRetryTimerExpiry
    split
    · exact ends_after s _
    all_goals exact ends_unchanged s
  | derive =>
    show Ends s (execDerive s)
    unfold execDerive
    split
    · exact ends_after s _
    all_goals exact ends_unchanged s
  | challengeCheck =>
    show Ends s (execChallengeCheck s)
    unfold execChallengeCheck
    split
    · exact ends_after s _
    all_goals exact ends_unchanged s
  | receiptCheck =>
    show Ends s (execReceiptCheck s)
    unfold execReceiptCheck
    split
    · exact ends_after s _
    all_goals exact ends_unchanged s
  | tokenCheck =>
    show Ends s (execTokenCheck s)
    unfold execTokenCheck
    split
    · exact ends_after s _
    all_goals exact ends_unchanged s
  | counterWriteEnd r =>
    show Ends s (execCounterWriteEnd r s)
    unfold execCounterWriteEnd
    split
    · exact ends_after s _
    · exact ends_after s _
    all_goals exact ends_unchanged s
  | settingsWriteEnd r =>
    show Ends s (execSettingsWriteEnd r s)
    unfold execSettingsWriteEnd
    split
    · exact ends_after s _
    · exact ends_after s _
    all_goals exact ends_unchanged s
  | bankAccounting =>
    show Ends s (execBankAccounting s)
    unfold execBankAccounting
    split
    · exact ends_after s _
    all_goals exact ends_unchanged s
  | purgeAccounting =>
    show Ends s (execPurgeAccounting s)
    unfold execPurgeAccounting
    split
    · exact ends_after s _
    all_goals exact ends_unchanged s
  | unknownKind =>
    show Ends s (execUnknownKind s)
    unfold execUnknownKind
    split
    · exact ends_after s _
    · exact ends_unchanged s
  | windDownComplete =>
    show Ends s (execWindDownComplete s)
    unfold execWindDownComplete
    split
    · exact ends_after s _
    all_goals exact ends_unchanged s
  | foldPhaseEnd =>
    show Ends s (execFoldPhaseEnd s)
    unfold execFoldPhaseEnd
    split
    · exact ends_either _
    all_goals exact ends_unchanged s
  | foldPhaseTimeLimit =>
    show Ends s (execFoldPhaseTimeLimit s)
    unfold execFoldPhaseTimeLimit
    split
    · exact ends_after s _
    all_goals exact ends_unchanged s
  | clearingPoint =>
    show Ends s (execClearingPoint s)
    unfold execClearingPoint
    split
    · exact ends_after s _
    all_goals exact ends_unchanged s

/-! ## The part after a step -/

theorem powerLost_bay (p : Part) (b : Slot) : p.powerLost.bay b = Bay.blank (p.bay b).contactClosed := by
  simp [Part.bay, Part.powerLost]

theorem powerLost_slot (p : Part) (i : Slot) : p.powerLost.slot i = SlotRow.blank := by
  simp [Part.slot, Part.powerLost, Part.reset]

/-- A part that waits for the first GOOD has nothing to do. -/
theorem powerLost_quiet (p : Part) : p.powerLost.Quiet where
  digests _ _ := rfl
  saver _ h := Bool.noConfusion (show false = true from h)
  writes := rfl
  patterns b := by rw [powerLost_bay, powerLost_slot]; rfl
  output := rfl

/-- Settles O5: an idle step and an impossible event change nothing, a loss of power leaves nothing to do, and every other
step ends with the takes. -/
theorem quietKept : Obligations.QuietKept := by
  intro s t quiet run
  unfold step at run
  split at run
  · cases run; exact quiet
  · rename_i c rest _
    by_cases power : c = .powerLoss
    · subst power
      cases run
      exact powerLost_quiet s.part
    · obtain e | ⟨before, p, e⟩ := exec_ends_step power { s with pending := rest } <;> rw [e] at run <;> cases run
      · exact quiet
      · exact finish_quiet before p

end Sys2Proof.Machine

end

-- ==== BringUp: Timers ====
section

/-! PROOFS. The slot timers and the DERIVE of a bring-up: what joins the link wait list (R27, R28, R29, R43). -/

set_option Elab.async false
namespace Sys2Proof.Machine
open Sys2Proof

/-! ## A join of a slot that stands on no list -/

theorem Part.Joined.finish {p : Part} {i : Slot} {op : LinkOp} (h : p.Joined i op) (before : Part) :
    (Part.finish before p).Joined i op := h.imp (finish_link _ _ _).trans (finish_link _ _ _).trans

/-- R15: the slot's join alone, before an engine takes it. -/
theorem joinBringUp_idle {p : Part} {i : Slot} (op : LinkOp) (link : p.link i = .none) :
    p.joinBringUp i op = ({ p with lp := { p.lp with states := p.lp.states.set i (.waitingBringUp op none),
                                                     bringUp := p.lp.bringUp ++ [i] } } : Part).takeFromList := by
  unfold Part.joinBringUp Part.placeBringUp
  rw [link]

/-- A join flushes at most what the freed engines flush. -/
theorem joinBringUp_flushes {p : Part} {i : Slot} (op : LinkOp) (link : p.link i = .none) :
    Part.Flushes p (p.joinBringUp i op) := by
  rw [joinBringUp_idle op link]
  exact (withLinks_flushes p _).trans (takeFromList_flushes _)

/-- R24: the report of a slot that is not in service leaves a slot that stands on no list where it is. -/
theorem reportSlot_aside {p : Part} {i : Slot} (state : (p.slot i).state ≠ .inService) (u : p.Unlisted i) :
    Part.Aside i p (p.reportSlot i) := by
  have recorded : Part.Aside i p ((p.recordIdentity i).raise .slot) := (recordIdentity_acts p i).aside.trans (raise_aside i _ _)
  refine recorded.trans (reportToCommit_aside ?_ (recorded.unlisted u))
  rwa [show Part.slot (Part.raise _ _) i = _ from ((recordIdentity_acts p i).same (.slot i) rfl).symm]

/-! ## The retry and the probe timer (R27, R43) -/

/-- A slot whose timer ends, and which stands on no list, joins. -/
theorem stopTimer_joins {p : Part} {i : Slot} (link : p.link i = .none) (u : p.Unlisted i) (op : LinkOp) :
    let q := (p.updSlot i fun r => { r with timer := .stopped }).joinBringUp i op
    q.slot i = { p.slot i with timer := .stopped } ∧ q.Joined i op := by
  intro q
  have none : (p.updSlot i fun r => { r with timer := .stopped }).link i = .none := link
  refine ⟨?_, (joinBringUp_awaits op none (u.of_lp rfl)).joined⟩
  rw [joinBringUp_slot op none, updSlot_slot_self]

/-- Settles O24: either timer's end joins the slot. -/
theorem slotTimersJoin : Obligations.SlotTimersJoin := by
  intro i s running link u
  refine ⟨fun op timer tried => ?_, fun timer lost => ?_⟩
  · have run : exec (.retryTimerExpiry i) s =
        s.after ((s.part.updSlot i fun r => { r with timer := .stopped }).joinBringUp i op) := by
      simp [exec, execRetryTimerExpiry, Part.slotTimerRuns, timer, running, tried]
    obtain ⟨slot, joined⟩ := stopTimer_joins link u op
    exact completes_after run ⟨(finish_slot _ _ _).trans slot, joined.finish _⟩
  · have run : exec (.probeTimerExpiry i) s =
        s.after ((s.part.updSlot i fun r => { r with timer := .stopped }).joinBringUp i (s.part.slot i).probeOperation) := by
      simp [exec, execProbeTimerExpiry, Part.slotTimerRuns, timer, running, lost]
    obtain ⟨slot, joined⟩ := stopTimer_joins link u (s.part.slot i).probeOperation
    exact completes_after run ⟨(finish_slot _ _ _).trans slot, joined.finish _⟩

/-! ## The DERIVE of a bring-up (R28, R29, R37) -/

theorem popDigest_slot (p : Part) (i : Slot) : p.popDigest.slot i = p.slot i :=
  ((popDigest_acts p).same (.slot i) rfl).symm

theorem popDigest_lp (p : Part) : p.popDigest.lp = p.lp := (popDigest_acts p).lp_eq

theorem popDigest_free (p : Part) : p.popDigest.free = p.free := by
  unfold Part.popDigest
  split <;> rfl

/-- R28, R29: the row that a DERIVE leaves before the slot is reported. -/
def Part.keyed (p : Part) (i : Slot) (key : Quad) : Part :=
  (p.nonceDrawn.updSlot i fun r =>
    { r with key := some key, nonce := some p.freshNonce, attempts := 0, state := .challenge }).updCommit i
    fun r => { r with count := 0 }

theorem derived_eq (p : Part) (i : Slot) (key : Quad) :
    p.derived i key = ((p.keyed i key).reportSlot i).joinBringUp i (.challenge p.freshNonce) := rfl

theorem keyed_slot (p : Part) (i : Slot) (key : Quad) : (p.keyed i key).slot i =
    { p.slot i with key := some key, nonce := some p.freshNonce, attempts := 0, state := .challenge } :=
  updSlot_slot_self p.nonceDrawn i fun r =>
    { r with key := some key, nonce := some p.freshNonce, attempts := 0, state := .challenge }

theorem keyed_count (p : Part) (i : Slot) (key : Quad) : ((p.keyed i key).commit i).count = 0 := by
  rw [Part.keyed, updCommit_commit_self]

/-- A report leaves the commit count. -/
theorem reportSlot_count (p : Part) (i : Slot) : ((p.reportSlot i).commit i).count = (p.commit i).count := by
  have recorded : p.commit i = (p.recordIdentity i).commit i := (recordIdentity_acts p i).same (.commit i) rfl
  rw [recorded]
  exact (reportToCommit_row ((p.recordIdentity i).raise .slot) i).count

/-- R28, R29: a slot that stands on no list becomes CHALLENGE and joins for it. -/
theorem derived_joins {p : Part} {i : Slot} (link : p.link i = .none) (u : p.Unlisted i) (key : Quad) :
    (p.derived i key).slot i =
        { p.slot i with key := some key, nonce := some p.freshNonce, attempts := 0, state := .challenge } ∧
      ((p.derived i key).commit i).count = 0 ∧ (p.derived i key).free.nonces = p.free.nonces + 1 ∧
      (p.derived i key).Joined i (.challenge p.freshNonce) := by
  have report : Part.Aside i (p.keyed i key) ((p.keyed i key).reportSlot i) :=
    reportSlot_aside (by rw [keyed_slot]; exact SlotState.noConfusion) (u.of_lp rfl)
  have none : ((p.keyed i key).reportSlot i).link i = .none := report.link.trans link
  rw [derived_eq]
  refine ⟨?_, ?_, ?_, (joinBringUp_awaits _ none (report.unlisted (u.of_lp rfl))).joined⟩
  · rw [joinBringUp_slot _ none, reportSlot_slot, keyed_slot]
  · rw [((joinBringUp_flushes _ none).rows i).count, reportSlot_count, keyed_count]
  · exact (((reportSlot_acts _ i).same .nonces rfl).trans ((joinBringUp_acts _ i _).same .nonces rfl)).symm

/-- Settles O26: the DERIVE at the head of the queue. -/
theorem deriveLeadsToChallenge : Obligations.DeriveLeadsToChallenge := by
  intro i s generation serial batch head state running link u
  have run : exec .derive s = s.after (s.part.popDigest.derived i (cartridgeKey generation serial batch)) := by
    show execDerive s = _
    unfold execDerive
    rw [head]
    exact congrArg s.after (if_pos (by rw [popDigest_slot]; exact state))
  obtain ⟨slot, count, nonces, joined⟩ := derived_joins (p := s.part.popDigest) (i := i)
    (by rw [Part.link, popDigest_lp]; exact link) (u.of_lp (popDigest_lp _)) (cartridgeKey generation serial batch)
  have fresh : s.part.popDigest.freshNonce = s.part.freshNonce := by rw [Part.freshNonce, popDigest_free]; rfl
  rw [fresh] at slot joined
  rw [popDigest_slot] at slot
  rw [popDigest_free] at nonces
  refine completes_after run ⟨(finish_slot _ _ _).trans slot, ?_, ?_, joined.finish _⟩
  · rw [((finish_ebbs s.part _).rows i).count, count]
  · rw [← (finish_acts s.part _).same .nonces rfl]
    exact nonces

end Sys2Proof.Machine

end

-- ==== BringUp: ReverifyRequest ====
section

/-! PROOFS. The request REVERIFY: what it answers at once, and what it begins (R38, R39, R41, R142). -/

set_option Elab.async false
namespace Sys2Proof.Machine
open Sys2Proof

/-! ## A parked request stays parked (R143) -/

/-- Work of a parked request that neither the end of a flush nor the beginning of a write changes (R59, R134). -/
def ParkedWork.stays : ParkedWork → Bool
  | .reverify _ | .purge | .settings | .windDown | .enterService => true
  | .commitNow _ _ | .forget _ _ => false

theorem Parked.noteEnd_stays {x : Parked} (stays : x.work.stays = true) (holders : List CellNo) (i : Slot)
    (cause : EndCause) : x.noteEnd holders i cause = x := by
  unfold Parked.noteEnd
  split
  · rename_i e; rw [e] at stays; cases stays
  all_goals rfl

theorem Parked.cover_stays {x : Parked} (stays : x.work.stays = true) (k : Fin 64) : x.cover k = x := by
  unfold Parked.cover
  split
  · rename_i e; rw [e] at stays; cases stays
  all_goals rfl

/-- Between `p` and `q` a parked request whose cell is loose stays parked with its work, and its cell is not touched. -/
structure Part.Retains (x : Parked) (p q : Part) : Prop extends Part.Spares p q where
  parked : p.Loose x.cell → x ∈ p.rq.parked → x ∈ q.rq.parked

theorem Part.Retains.trans {x : Parked} {p q r : Part} (h : Part.Retains x p q) (k : Part.Retains x q r) :
    Part.Retains x p r := ⟨h.toSpares.trans k.toSpares, fun l m => k.parked (h.loose l) (h.parked l m)⟩

theorem Part.Spares.retains {x : Parked} {p q : Part} (h : Part.Spares p q) (same : q.rq.parked = p.rq.parked := by rfl) :
    Part.Retains x p q := ⟨h, fun _ m => same ▸ m⟩

theorem Part.Retains.refl (x : Parked) (p : Part) : Part.Retains x p p := (Part.Flushes.refl p).toSpares.retains

/-- Work of known views that leaves the parked requests. -/
theorem Part.Acts.retains {x : Parked} {t : Views} {p q : Part} (h : Part.Acts t p q) (spares : Part.Spares p q)
    (k : t .parked = false := by rfl) : Part.Retains x p q := spares.retains (h.same .parked k).symm

/-- A request that still stands parked in its TAKEN cell. -/
theorem Part.Retains.parkedAs {p q : Part} {cell : CellNo} {work : ParkedWork} (h : Part.Retains ⟨cell, work⟩ p q)
    (loose : p.Loose cell) (parked : p.ParkedAs cell work) : q.ParkedAs cell work where
  state := by
    rw [Part.cellState, h.cells cell loose _ (Nat.le_refl _) (by omega)]
    exact parked.state
  parked := h.parked loose parked.parked

/-! ### The ends of flushes -/

theorem completeFlushed_parked {holders : List CellNo} {x : Parked} (h : x.cell ∉ holders) {p : Part}
    (m : x ∈ p.rq.parked) (k : Parked) : x ∈ (Part.completeFlushed holders p k).rq.parked := by
  unfold Part.completeFlushed
  split
  · split
    · rename_i held
      simp only [Bool.and_eq_true, List.contains_iff_mem] at held
      exact List.mem_filter.2 ⟨m, bne_iff_ne.2 fun e => h (e ▸ held.1)⟩
    · exact m
  all_goals exact m

theorem foldl_completeFlushed_parked {holders : List CellNo} {x : Parked} (h : x.cell ∉ holders) (l : List Parked) {p : Part}
    (m : x ∈ p.rq.parked) : x ∈ (l.foldl (Part.completeFlushed holders) p).rq.parked := by
  induction l generalizing p with
  | nil => exact m
  | cons k rest ih => exact ih (completeFlushed_parked h m k)

theorem endFlush_retains {x : Parked} (stays : x.work.stays = true) (p : Part) (i : Slot) (cause : EndCause) :
    Part.Retains x p (p.endFlush i cause) := by
  refine ⟨(endFlush_flushes p i cause).toSpares, fun loose m => ?_⟩
  unfold Part.endFlush
  extract_lets r q parked
  split
  · exact foldl_completeFlushed_parked (loose.flushes i) _
      (List.mem_map.2 ⟨x, m, Parked.noteEnd_stays stays r.holders i cause⟩)
  · exact m

theorem examineFlush_retains {x : Parked} (stays : x.work.stays = true) (p : Part) (i : Slot) :
    Part.Retains x p (p.examineFlush i) := by
  unfold Part.examineFlush
  split
  · exact endFlush_retains stays p i _
  · split
    · exact endFlush_retains stays p i _
    · exact .refl x p

/-! ### The link pool -/

theorem testPlace_retains (x : Parked) (p : Part) (i : Slot) : Part.Retains x p (p.testPlace i) := by
  refine (testPlace_flushes p i).toSpares.retains ?_
  unfold Part.testPlace Part.placeCommit
  split
  · split <;> rfl
  · rfl

theorem releaseReport_retains {x : Parked} (stays : x.work.stays = true) (p : Part) (i : Slot) :
    Part.Retains x p (p.releaseReport i) := (examineFlush_retains stays p i).trans (testPlace_retains x _ i)

theorem openCommitHold_retains {x : Parked} (stays : x.work.stays = true) (p : Part) (i : Slot) :
    Part.Retains x p (p.openCommitHold i) := by
  rcases openCommitHold_cases p i with ⟨op, e⟩ | e <;> rw [e]
  · exact (setLink_flushes p i _).toSpares.retains
  · exact Part.Retains.trans (setLink_flushes p i _).toSpares.retains (releaseReport_retains stays _ i)

theorem openSingleHold_retains (x : Parked) (p : Part) (i : Slot) : Part.Retains x p (p.openSingleHold i) := by
  refine (openSingleHold_flushes p i).toSpares.retains ?_
  unfold Part.openSingleHold
  split <;> rfl

theorem takeHeadOfList_retains {x : Parked} (stays : x.work.stays = true) (p : Part) : Part.Retains x p p.takeHeadOfList := by
  unfold Part.takeHeadOfList
  split
  · exact Part.Retains.trans (withLinks_flushes p _).toSpares.retains (openSingleHold_retains x _ _)
  · split
    · exact Part.Retains.trans (withLinks_flushes p _).toSpares.retains (openCommitHold_retains stays _ _)
    · exact .refl x p

theorem takeUpTo_retains {x : Parked} (stays : x.work.stays = true) (n : Nat) (p : Part) :
    Part.Retains x p (Part.takeUpTo n p) := by
  induction n generalizing p with
  | zero => exact .refl x p
  | succ n ih =>
    unfold Part.takeUpTo
    split
    · exact (takeHeadOfList_retains stays p).trans (ih _)
    · exact .refl x p

theorem takeFromList_retains {x : Parked} (stays : x.work.stays = true) (p : Part) : Part.Retains x p p.takeFromList :=
  takeUpTo_retains stays _ p

theorem reportSlot_retains {x : Parked} (stays : x.work.stays = true) (p : Part) (i : Slot) :
    Part.Retains x p (p.reportSlot i) := by
  have recorded : Part.Retains x p ((p.recordIdentity i).raise .slot) :=
    ((recordIdentity_acts p i).retains (recordIdentity_flushes p i).toSpares).trans (raise_flushes _ _).toSpares.retains
  rw [Part.reportSlot, reportToCommit_eq]
  refine (recorded.trans ((markLinkLost_acts _ i).retains (markLinkLost_spares _ i))).trans ?_
  exact (examineFlush_retains stays _ i).trans ((testPlace_retains x _ i).trans (takeFromList_retains stays _))

theorem joinBringUp_retains {x : Parked} (stays : x.work.stays = true) {p : Part} {i : Slot} (op : LinkOp)
    (link : p.link i = .none) : Part.Retains x p (p.joinBringUp i op) := by
  rw [joinBringUp_idle op link]
  exact Part.Retains.trans (withLinks_flushes p _).toSpares.retains (takeFromList_retains stays _)

/-! ### The end of a step -/

theorem takePlace_parked_plain {p : Part} (unfolded : p.hs.foldAtWrite = false) (k : Fin 64) :
    (p.takePlace k).rq.parked = p.rq.parked.map (Parked.cover k) := by
  unfold Part.takePlace Part.beginAttempt
  simp only [unfolded, Bool.false_and]
  split <;> rfl

theorem saverTakeUpTo_retains {x : Parked} (stays : x.work.stays = true) (n : Nat) {p : Part}
    (unfolded : p.hs.foldAtWrite = false) : Part.Retains x p (Part.saverTakeUpTo n p) := by
  induction n generalizing p with
  | zero => exact .refl x p
  | succ n ih =>
    refine ⟨(saverTakeUpTo_ebbs _ p).toSpares, fun loose m => ?_⟩
    unfold Part.saverTakeUpTo
    split
    · split
      · exact m
      · rw [takePlace_parked_plain unfolded]
        exact List.mem_map.2 ⟨x, m, Parked.cover_stays stays _⟩
      · exact m
      · rename_i r next
        have queued := mem_settingsQueue_of_nextWrite next
        extract_lets _ q
        split
        · exact m
        · exact (ih (p := q.complete r.cell .badArgument []) unfolded).parked ((refuseSetting_ebbs queued).loose loose)
            (List.mem_filter.2 ⟨m, bne_iff_ne.2 fun e => loose.settings r queued e.symm⟩)
    · exact m

theorem takeDigest_rq (p : Part) : p.takeDigest.rq = p.rq := by
  unfold Part.takeDigest
  split <;> rfl

theorem finish_retains {x : Parked} (stays : x.work.stays = true) (before : Part) {p : Part}
    (unfolded : p.hs.foldAtWrite = false) : Part.Retains x p (Part.finish before p) := by
  have saved : Part.Retains x p.takeDigest p.takeDigest.saverTake :=
    saverTakeUpTo_retains stays _ (by rw [takeDigest_hs p]; exact unfolded)
  refine ⟨(finish_ebbs before p).toSpares, fun loose m => ?_⟩
  rw [← show _ = (Part.finish before p).rq.parked from (finish_closes before p).same .parked rfl]
  exact saved.parked ((takeDigest_flushes p).loose loose) (by rw [takeDigest_rq p]; exact m)

/-! ## The take of a cell (R142) -/

/-- R142: a cell whose kind is not service-only is taken and handed to its owner. -/
theorem request_offers {s : State} {c : CellNo} {k : Kind} (offers : s.part.Offers (some k) c) (free : k.serviceOnly = false)
    (owner : CellNo → Part → Part) : s.request k owner = s.after (owner c (s.part.takeCell c)) := by
  obtain ⟨rest, posted⟩ := List.head?_eq_some_iff.1 offers.head
  have next : s.part.nextCell (some k) = some c := by
    simp [Part.nextCell, posted, Part.takingOpen, offers.awake, offers.running, offers.kind]
  rw [State.request, next]
  simp only [Part.handOver, free, Bool.false_eq_true, if_false]

theorem takeCell_wf {p : Part} (wf : Memory.wf p.board = true) (c : CellNo) : Memory.wf (p.takeCell c).board = true :=
  Memory.wf_write _ _ wf

theorem takeCell_cellState {p : Part} (wf : Memory.wf p.board = true) (c : CellNo) : (p.takeCell c).cellState c = .taken := by
  have state : (p.takeCell c).readByte (cellBase c) = CellState.taken.code := Memory.read_write_self wf _ _
  rw [Part.cellState, state]
  decide

theorem takeCell_targetByte (p : Part) (c : CellNo) : (p.takeCell c).targetByte c = p.targetByte c :=
  Memory.read_write_ne _ _ (by omega)

theorem takeCell_target (p : Part) (c : CellNo) : (p.takeCell c).target c = p.target c := by
  rw [Part.target, takeCell_targetByte]
  rfl

theorem Part.Loose.takeCell {p : Part} {cell : CellNo} (l : p.Loose cell) (c : CellNo) : (p.takeCell c).Loose cell :=
  ⟨l.flushes, l.settings⟩

/-- A taken cell that is answered at once. -/
theorem completes_refusal {k : Instr} {s : State} {c : CellNo} {r : Result} (wf : Memory.wf s.part.board = true)
    (loose : s.part.Loose c) (run : exec k s = s.after ((s.part.takeCell c).complete c r [])) :
    Completes k s (.ofCommand k) fun q => q.Answered c r (s.part.rq.completion + 1) :=
  completes_after run ((complete_answered (takeCell_wf wf c) c r []).finish ((loose.takeCell c).complete c r []) s.part)

/-! ## REVERIFY answered at once -/

theorem exec_reverify {s : State} {c : CellNo} (offers : s.part.Offers (some .reverify) c) :
    exec .reverify s = s.after ((s.part.takeCell c).doReverify c) := request_offers offers rfl Part.doReverify

theorem target_none {p : Part} {c : CellNo} (far : 11 < (p.targetByte c).toNat) : p.target c = none :=
  dif_neg (by omega)

theorem doReverify_untargeted {p : Part} {c : CellNo} (target : p.target c = none) :
    p.doReverify c = p.complete c .badArgument [] := by
  unfold Part.doReverify
  rw [target]

theorem doReverify_absent {p : Part} {c : CellNo} {i : Slot} (target : p.target c = some i)
    (state : (p.slot i).state = .empty ∨ (p.slot i).state = .settling) : p.doReverify c = p.complete c .noCartridge [] := by
  unfold Part.doReverify
  rw [target]
  rcases state with e | e <;> simp only [e]

theorem doReverify_busy {p : Part} {c : CellNo} {i : Slot} (target : p.target c = some i)
    (state : (p.slot i).state.bringUp = true ∨ (p.slot i).state = .reverify ∨ (p.slot i).state = .linkLost) :
    p.doReverify c = p.complete c .busy [] := by
  unfold Part.doReverify
  rw [target]
  cases e : (p.slot i).state <;> rw [e] at state <;> simp_all [SlotState.bringUp]

theorem doReverify_inService {p : Part} {c : CellNo} {i : Slot} (target : p.target c = some i)
    (state : (p.slot i).state = .inService) : p.doReverify c = (p.parkReverify c i).beginReverify i := by
  unfold Part.doReverify
  rw [target]
  simp only [state]

theorem doReverify_rejected {p : Part} {c : CellNo} {i : Slot} (target : p.target c = some i)
    (state : (p.slot i).state = .rejected) : p.doReverify c = (p.parkReverify c i).repeatBringUp i := by
  unfold Part.doReverify
  rw [target]
  simp only [state]

/-! ## The parked REVERIFY -/

theorem parkReverify_slot (p : Part) (c : CellNo) (i : Slot) :
    (p.parkReverify c i).slot i = { p.slot i with parkedCell := some c, reverifyTally := none } :=
  updSlot_slot_self (p.park c (.reverify i)) i fun r => { r with parkedCell := some c, reverifyTally := none }

theorem parkReverify_parkedAs {p : Part} {c : CellNo} (taken : p.cellState c = .taken) (i : Slot) :
    (p.parkReverify c i).ParkedAs c (.reverify i) := ⟨taken, List.mem_append_right _ (List.mem_singleton_self _)⟩

/-- Later work that retains the parked request leaves it parked at the end of the step. -/
theorem parkReverify_retained {p q : Part} {c : CellNo} {i : Slot} (taken : p.cellState c = .taken) (loose : p.Loose c)
    (retains : Part.Retains ⟨c, .reverify i⟩ (p.parkReverify c i) q) (unfolded : q.hs.foldAtWrite = false) (before : Part) :
    (Part.finish before q).ParkedAs c (.reverify i) := by
  have parked : (p.parkReverify c i).Loose c := ⟨loose.flushes, loose.settings⟩
  exact (finish_retains rfl before unfolded).parkedAs (retains.loose parked)
    (retains.parkedAs parked (parkReverify_parkedAs taken i))

/-! ## A reverify begins (R39) -/

/-- R39 step 1: the row of the slot whose reverify begins, with a candidate nonce drawn. -/
def Part.candidateDrawn (p : Part) (i : Slot) : Part :=
  p.nonceDrawn.updSlot i fun r =>
    { r with state := .reverify, candidate := some p.freshNonce, stage := .challenge, attempts := 0 }

theorem beginReverify_eq (p : Part) (i : Slot) :
    p.beginReverify i = ((p.candidateDrawn i).reportSlot i).joinBringUp i (.challenge p.freshNonce) := rfl

theorem candidateDrawn_slot (p : Part) (i : Slot) : (p.candidateDrawn i).slot i =
    { p.slot i with state := .reverify, candidate := some p.freshNonce, stage := .challenge, attempts := 0 } :=
  updSlot_slot_self p.nonceDrawn i fun r =>
    { r with state := .reverify, candidate := some p.freshNonce, stage := .challenge, attempts := 0 }

/-- A reported slot that is not in service and stands on no list joins. -/
theorem reportSlot_joins {p : Part} {i : Slot} (state : (p.slot i).state ≠ .inService) (link : p.link i = .none)
    (u : p.Unlisted i) (op : LinkOp) : ((p.reportSlot i).joinBringUp i op).slot i = p.slot i ∧
      ((p.reportSlot i).joinBringUp i op).Joined i op ∧ (p.reportSlot i).link i = .none := by
  have report := reportSlot_aside state u
  have none : (p.reportSlot i).link i = .none := report.link.trans link
  exact ⟨by rw [joinBringUp_slot op none, reportSlot_slot], (joinBringUp_awaits op none (report.unlisted u)).joined, none⟩

theorem beginReverify_joins {p : Part} {i : Slot} (link : p.link i = .none) (u : p.Unlisted i) :
    (p.beginReverify i).slot i =
        { p.slot i with state := .reverify, candidate := some p.freshNonce, stage := .challenge, attempts := 0 } ∧
      (p.beginReverify i).Joined i (.challenge p.freshNonce) ∧
      ∀ x : Parked, x.work.stays = true → Part.Retains x p (p.beginReverify i) := by
  obtain ⟨slot, joined, none⟩ := reportSlot_joins (p := p.candidateDrawn i) (i := i)
    (by rw [candidateDrawn_slot]; exact SlotState.noConfusion) link (u.of_lp rfl) (.challenge p.freshNonce)
  rw [candidateDrawn_slot] at slot
  rw [beginReverify_eq]
  refine ⟨slot, joined, fun x stays => ?_⟩
  have drawn : Part.Flushes p (p.candidateDrawn i) := .of_same rfl rfl rfl
  exact Part.Retains.trans drawn.toSpares.retains ((reportSlot_retains stays _ i).trans (joinBringUp_retains stays _ none))

/-! ## A bring-up is repeated (R41) -/

/-- R41, R54: the removal handling of a slot with a history link. -/
def Part.historyClosed (p : Part) (i : Slot) : Part := if (p.slot i).historyLink then p.removalHandling i else p

/-- R41, R118: the slot as its repeated bring-up finds it, before it is reported. -/
def Part.startedAfresh (p : Part) (i : Slot) : Part :=
  (((p.historyClosed i).updSlot i SlotRow.repeated).setVolumes i Volumes.blank).recordVolumes i

theorem repeatBringUp_eq (p : Part) (i : Slot) :
    p.repeatBringUp i = ((p.startedAfresh i).reportSlot i).joinBringUp i .identify := rfl

theorem historyClosed_slot (p : Part) (i : Slot) : (p.historyClosed i).slot i = p.slot i := by
  unfold Part.historyClosed
  split
  · exact removalHandling_slot p i i
  · rfl

theorem removalHandling_parked (p : Part) (i : Slot) : (p.removalHandling i).rq.parked = p.rq.parked := by
  unfold Part.removalHandling
  extract_lets c v q
  have written : q.rq.parked = p.rq.parked := ((changeLinkedEntry_acts p i _).same .parked rfl).symm
  exact ((recordCommit_acts _ i).same .parked rfl).symm.trans written

/-- R54: a history link leaves no volume and no units uncommitted. -/
theorem removalHandling_work (p : Part) (i : Slot) : ((p.removalHandling i).commit i).uncommitted = 0 ∧
    ((p.removalHandling i).commit i).inDoubt = 0 := by
  unfold Part.removalHandling
  rw [recordCommit_commit, updCommit_commit_self]
  exact ⟨rfl, rfl⟩

/-- What the end of the old cartridge's history touches, and the record write after it. -/
theorem startedAfresh_records (p : Part) (i : Slot) : Part.Acts (.slotRecord i)
    (((p.historyClosed i).updSlot i SlotRow.repeated).setVolumes i Volumes.blank) (p.startedAfresh i) := recordVolumes_acts _ i

theorem startedAfresh_slot (p : Part) (i : Slot) : (p.startedAfresh i).slot i = (p.slot i).repeated := by
  rw [← show Part.slot _ i = _ from (startedAfresh_records p i).same (.slot i) rfl, Part.setVolumes_slot, updSlot_slot_self,
    historyClosed_slot]

theorem startedAfresh_volumes (p : Part) (i : Slot) : (p.startedAfresh i).volumes i = Volumes.blank := by
  rw [← show Part.volumes _ i = _ from (startedAfresh_records p i).same (.volumes i) rfl, Part.setVolumes_volumes_self]

theorem startedAfresh_commit (p : Part) (i : Slot) : (p.startedAfresh i).commit i = (p.historyClosed i).commit i :=
  ((startedAfresh_records p i).same (.commit i) rfl).symm

theorem startedAfresh_place (p : Part) (i : Slot) (k : Fin 64) : (p.startedAfresh i).place k = (p.historyClosed i).place k :=
  ((startedAfresh_records p i).same (.place k) rfl).symm

theorem startedAfresh_aside (p : Part) (i : Slot) : Part.Aside i p (p.startedAfresh i) := by
  have closed : Part.Aside i p (p.historyClosed i) := by
    unfold Part.historyClosed
    split
    · exact removalHandling_aside p i
    · exact .refl i p
  have changed : Part.Aside i (p.historyClosed i)
      (((p.historyClosed i).updSlot i SlotRow.repeated).setVolumes i Volumes.blank) := .of_lp rfl
  exact (closed.trans changed).trans (startedAfresh_records p i).aside

theorem startedAfresh_retains (x : Parked) (p : Part) (i : Slot) : Part.Retains x p (p.startedAfresh i) := by
  have closed : Part.Retains x p (p.historyClosed i) := by
    unfold Part.historyClosed
    split
    · exact (removalHandling_spares p i).retains (removalHandling_parked p i)
    · exact .refl x p
  have changed : Part.Flushes (p.historyClosed i)
      (((p.historyClosed i).updSlot i SlotRow.repeated).setVolumes i Volumes.blank) := .of_same rfl rfl rfl
  exact (closed.trans changed.toSpares.retains).trans ((startedAfresh_records p i).retains
    (writeSlotRecord_flushes _ _ i _ (slotVolumeFields_fit _ i)).toSpares)

/-- R41: a slot that stands on no list joins for its IDENTIFY, with blank volumes. -/
theorem repeatBringUp_joins {p : Part} {i : Slot} (link : p.link i = .none) (u : p.Unlisted i) :
    (p.repeatBringUp i).slot i = (p.slot i).repeated ∧ (p.repeatBringUp i).Joined i .identify ∧
      (p.repeatBringUp i).volumes i = Volumes.blank ∧
      ∀ x : Parked, x.work.stays = true → Part.Retains x p (p.repeatBringUp i) := by
  have before := startedAfresh_aside p i
  obtain ⟨slot, joined, none⟩ := reportSlot_joins (p := p.startedAfresh i) (i := i)
    (by rw [startedAfresh_slot]; exact SlotState.noConfusion) (before.link.trans link) (before.unlisted u) .identify
  rw [startedAfresh_slot] at slot
  rw [repeatBringUp_eq]
  refine ⟨slot, joined, ?_, fun x stays => ?_⟩
  · rw [← show Part.volumes _ i = _ from (joinBringUp_acts _ i .identify).same (.volumes i) rfl,
      ← show Part.volumes _ i = _ from (reportSlot_acts _ i).same (.volumes i) rfl, startedAfresh_volumes]
  · exact (startedAfresh_retains x p i).trans ((reportSlot_retains stays _ i).trans (joinBringUp_retains stays _ none))

/-- R41, R54: what a repeated bring-up leaves of the old cartridge's history. -/
theorem repeatBringUp_place (p : Part) (i : Slot) (k : Fin 64) : (p.repeatBringUp i).place k = (p.historyClosed i).place k := by
  rw [repeatBringUp_eq, ← show Part.place _ k = _ from (joinBringUp_acts _ i .identify).same (.place k) rfl,
    ← show Part.place _ k = _ from (reportSlot_acts _ i).same (.place k) rfl, startedAfresh_place]

theorem repeatBringUp_commit {p : Part} {i : Slot} (link : p.link i = .none) (u : p.Unlisted i) :
    ((p.repeatBringUp i).commit i).uncommitted = ((p.historyClosed i).commit i).uncommitted ∧
      ((p.repeatBringUp i).commit i).inDoubt = ((p.historyClosed i).commit i).inDoubt := by
  have before := startedAfresh_aside p i
  obtain ⟨-, -, none⟩ := reportSlot_joins (p := p.startedAfresh i) (i := i)
    (by rw [startedAfresh_slot]; exact SlotState.noConfusion) (before.link.trans link) (before.unlisted u) .identify
  have reported := reportSlot_sameWork (p.startedAfresh i) i
  have joins := joinBringUp_flushes .identify none
  rw [repeatBringUp_eq, ← startedAfresh_commit]
  exact ⟨(joins.uncommitted i).trans reported.uncommitted, (joins.inDoubt i).trans reported.inDoubt⟩

theorem beginReverify_unfolded {p : Part} (i : Slot) (unfolded : p.hs.foldAtWrite = false) :
    (p.beginReverify i).hs.foldAtWrite = false := by
  rw [beginReverify_eq, ← show (Part.hs _).foldAtWrite = _ from (joinBringUp_acts _ i _).same .foldAtWrite rfl,
    ← show (Part.hs _).foldAtWrite = _ from (reportSlot_acts _ i).same .foldAtWrite rfl]
  exact unfolded

theorem historyClosed_unfolded {p : Part} (i : Slot) (unfolded : p.hs.foldAtWrite = false) :
    (p.historyClosed i).hs.foldAtWrite = false := by
  unfold Part.historyClosed
  split
  · exact ((removalHandling_acts p i).same .foldAtWrite rfl).symm.trans unfolded
  · exact unfolded

theorem repeatBringUp_unfolded {p : Part} (i : Slot) (unfolded : p.hs.foldAtWrite = false) :
    (p.repeatBringUp i).hs.foldAtWrite = false := by
  rw [repeatBringUp_eq, ← show (Part.hs _).foldAtWrite = _ from (joinBringUp_acts _ i _).same .foldAtWrite rfl,
    ← show (Part.hs _).foldAtWrite = _ from (reportSlot_acts _ i).same .foldAtWrite rfl,
    ← show (Part.hs _).foldAtWrite = _ from (startedAfresh_records p i).same .foldAtWrite rfl]
  exact historyClosed_unfolded i unfolded

/-- R54: the history and the commits of a slot whose bring-up is repeated, at the end of the step. -/
theorem repeatBringUp_history {p : Part} {i : Slot} (unfolded : p.hs.foldAtWrite = false) (link : p.link i = .none)
    (u : p.Unlisted i) (before : Part) :
    ((p.slot i).historyLink = false → ∀ k, (Part.finish before (p.repeatBringUp i)).place k = p.place k) ∧
      ((p.slot i).historyLink = true →
        ((Part.finish before (p.repeatBringUp i)).commit i).uncommitted = 0 ∧
        ((Part.finish before (p.repeatBringUp i)).commit i).inDoubt = 0 ∧
        ∀ k e, p.linkedPlace i = some k → (p.place k).entry = some e →
          (Part.finish before (p.repeatBringUp i)).place k = ⟨some (p.foldInto i e), true⟩) := by
  have place (k) : (Part.finish before (p.repeatBringUp i)).place k = (p.historyClosed i).place k :=
    ((finish_acts_plain before _ (repeatBringUp_unfolded i unfolded)).same (.place k) rfl).symm.trans
      (repeatBringUp_place _ i k)
  obtain ⟨uncommitted, inDoubt⟩ := repeatBringUp_commit link u
  have ebbs := (finish_ebbs before (p.repeatBringUp i)).rows i
  constructor
  · intro none k
    rw [place, Part.historyClosed, if_neg (by rw [none]; exact Bool.noConfusion)]
  · intro linked
    have closed : p.historyClosed i = p.removalHandling i := if_pos linked
    obtain ⟨noVolume, noDoubt⟩ := removalHandling_work p i
    rw [closed] at uncommitted inDoubt
    refine ⟨?_, ?_, fun k e at_ entry => ?_⟩
    · exact ebbs.uncommitted.elim (fun same => same.trans (uncommitted.trans noVolume)) id
    · exact ebbs.inDoubt.elim (fun same => same.trans (inDoubt.trans noDoubt)) id
    · rw [place, closed]
      exact removalHandling_place at_ entry

/-! ## The two REVERIFYs that go on -/

/-- R38, R39: REVERIFY of a slot in service. -/
theorem doReverify_begins {p : Part} {c : CellNo} {i : Slot} (wf : Memory.wf p.board = true) (loose : p.Loose c)
    (unfolded : p.hs.foldAtWrite = false) (link : p.link i = .none) (u : p.Unlisted i) (before : Part) :
    let q := Part.finish before (((p.takeCell c).parkReverify c i).beginReverify i)
    q.ParkedAs c (.reverify i) ∧ q.Joined i (.challenge p.freshNonce) ∧
      q.slot i = { p.slot i with
        state := .reverify, candidate := some p.freshNonce, stage := .challenge, attempts := 0, parkedCell := some c,
        reverifyTally := none } := by
  have parked := parkReverify_slot (p.takeCell c) c i
  obtain ⟨slot, joined, retains⟩ := beginReverify_joins (p := (p.takeCell c).parkReverify c i) (i := i) link (u.of_lp rfl)
  rw [parked] at slot
  exact ⟨parkReverify_retained (takeCell_cellState wf c) (loose.takeCell c) (retains _ rfl)
    (beginReverify_unfolded i unfolded) before,
    joined.finish before, (finish_slot before _ i).trans slot⟩

/-- R38, R41: REVERIFY of a rejected slot. -/
theorem doReverify_repeats {p : Part} {c : CellNo} {i : Slot} (wf : Memory.wf p.board = true) (loose : p.Loose c)
    (unfolded : p.hs.foldAtWrite = false) (link : p.link i = .none) (u : p.Unlisted i) (before : Part) :
    let q := Part.finish before (((p.takeCell c).parkReverify c i).repeatBringUp i)
    q.ParkedAs c (.reverify i) ∧ q.Joined i .identify ∧ q.volumes i = Volumes.blank ∧
      q.slot i = { p.slot i with
        state := .identify, verdict := none, identity := none, key := none, nonce := none, candidate := none,
        response := none, attempts := 0, parkedCell := some c, reverifyTally := none, historyLink := false } := by
  have parked := parkReverify_slot (p.takeCell c) c i
  obtain ⟨slot, joined, volumes, retains⟩ :=
    repeatBringUp_joins (p := (p.takeCell c).parkReverify c i) (i := i) link (u.of_lp rfl)
  rw [parked] at slot
  exact ⟨parkReverify_retained (takeCell_cellState wf c) (loose.takeCell c) (retains _ rfl)
    (repeatBringUp_unfolded i unfolded) before, joined.finish before, (finish_volumes before _ i).trans volumes,
    (finish_slot before _ i).trans slot⟩

/-- The park of the request leaves the place of the slot's history link. -/
theorem parkReverify_linkedPlace (p : Part) (c : CellNo) (i : Slot) : (p.parkReverify c i).linkedPlace i = p.linkedPlace i := by
  have row := parkReverify_slot p c i
  have held : (p.parkReverify c i).heldPlace i = p.heldPlace i :=
    heldPlace_congr (fun _ => rfl) (by rw [row])
  rw [Part.linkedPlace, congrArg SlotRow.historyLink row, held]
  rfl

theorem doReverify_history {p : Part} {c : CellNo} {i : Slot} (unfolded : p.hs.foldAtWrite = false) (link : p.link i = .none)
    (u : p.Unlisted i) (before : Part) :
    let q := Part.finish before (((p.takeCell c).parkReverify c i).repeatBringUp i)
    ((p.slot i).historyLink = false → ∀ k, q.place k = p.place k) ∧
      ((p.slot i).historyLink = true → (q.commit i).uncommitted = 0 ∧ (q.commit i).inDoubt = 0 ∧
        ∀ k e, p.linkedPlace i = some k → (p.place k).entry = some e → q.place k = ⟨some (p.foldInto i e), true⟩) := by
  have closes := repeatBringUp_history (p := (p.takeCell c).parkReverify c i) (i := i) unfolded link (u.of_lp rfl) before
  rw [parkReverify_slot, parkReverify_linkedPlace] at closes
  exact closes

/-- Settles O47: a REVERIFY is answered at once or begins. -/
theorem reverifyBegins : Obligations.ReverifyBegins := by
  intro s c wf offers loose unfolded
  have run := exec_reverify offers
  refine ⟨fun far => ?_, fun i target => ⟨fun state link u => ?_, fun state link u => ?_, fun state => ?_, fun state => ?_⟩⟩
  · rw [doReverify_untargeted ((takeCell_target _ c).trans (target_none far))] at run
    exact completes_refusal wf loose run
  · rw [doReverify_inService ((takeCell_target _ c).trans target) state] at run
    exact completes_after run (doReverify_begins wf loose unfolded link u s.part)
  · rw [doReverify_rejected ((takeCell_target _ c).trans target) state] at run
    obtain ⟨parked, joined, volumes, slot⟩ := doReverify_repeats wf loose unfolded link u s.part
    exact completes_after run ⟨parked, joined, volumes, slot, doReverify_history unfolded link u s.part⟩
  · rw [doReverify_absent ((takeCell_target _ c).trans target) state] at run
    exact completes_refusal wf loose run
  · rw [doReverify_busy ((takeCell_target _ c).trans target) state] at run
    exact completes_refusal wf loose run

end Sys2Proof.Machine

end

-- ==== BringUp: Escalation ====
section

/-! PROOFS. What an escalation does to a slot (R71, R72, R75, R112), and the two results of a RECEIPT_CHECK (R128). -/

set_option Elab.async false
namespace Sys2Proof.Machine
open Sys2Proof

/-! ## The account of a slot's commits through a report (R24) -/

/-- A commit row whose work and whose TALLY_FULL are those of another. -/
structure CommitRow.SameAccount (r r' : CommitRow) : Prop extends CommitRow.SameWork r r' where
  tallyFull : r'.tallyFull = r.tallyFull

theorem CommitRow.SameAccount.refl (r : CommitRow) : r.SameAccount r := ⟨.refl r, rfl⟩

theorem CommitRow.SameAccount.trans {r r' r'' : CommitRow} (h : r.SameAccount r') (k : r'.SameAccount r'') :
    r.SameAccount r'' := ⟨h.toSameWork.trans k.toSameWork, k.tallyFull.trans h.tallyFull⟩

theorem Part.Flushes.sameAccount {p q : Part} (h : Part.Flushes p q) (i : Slot) : (p.commit i).SameAccount (q.commit i) :=
  ⟨h.sameWork i, (h.rows i).tallyFull⟩

theorem markLinkLost_sameAccount (p : Part) (i j : Slot) : (p.commit j).SameAccount ((p.markLinkLost i).commit j) := by
  by_cases e : j = i
  · rw [e, markLinkLost_commit_self]
    exact ⟨⟨rfl, rfl, rfl⟩, rfl⟩
  · rcases markLinkLost_cases p i with ⟨h, -⟩ | h <;> rw [h]
    · exact .refl _
    · rw [recordCommit_commit, updCommit_commit_ne _ _ e]
      exact .refl _

theorem reportToCommit_sameAccount (p : Part) (i j : Slot) : (p.commit j).SameAccount ((p.reportToCommit i).commit j) :=
  (markLinkLost_sameAccount p i j).trans ((reportToCommit_flushes p i).sameAccount j)

/-! ## The stages of an escalation (R72, R75, R112) -/

/-- R72, R112: verdict, state, LOW and SPENT change, and are recorded and raised. -/
def Part.verdictMoved (p : Part) (i : Slot) (next : Verdict) : Part :=
  (((((p.updSlot i fun r =>
    { r with verdict := some next, state := if next = .counterfeit then .rejected else r.state }).updVolumes i
    fun v => { v with low := false, spent := false }).recordEscalation i).raise .slot).raise .verdict)

/-- R32, R72: a COUNTERFEIT slot's work is abandoned; any other verdict goes into the history entry. -/
def Part.verdictApplied (p : Part) (i : Slot) (next : Verdict) : Part :=
  if next = .counterfeit then (p.verdictMoved i next).abandonSlotWork i
  else (p.verdictMoved i next).changeLinkedEntry i fun e => { e with verdict := next }

/-- R72, R106: the channel re-selects its source and the commit engine is told. -/
def Part.verdictReported (p : Part) (i : Slot) (next : Verdict) : Part :=
  ((p.verdictApplied i next).reselectIfActive i).reportToCommit i

theorem carryOutEscalation_eq (p : Part) (i : Slot) (next : Verdict) : p.carryOutEscalation i next =
    if next = .counterfeit then (p.verdictReported i next).finishCounterfeit i else p.verdictReported i next := rfl

/-- The row of a slot whose verdict moves. -/
def SlotRow.moved (r : SlotRow) (next : Verdict) : SlotRow :=
  { r with verdict := some next, state := if next = .counterfeit then .rejected else r.state }

/-- The write and the notices of a moved verdict. -/
theorem verdictMoved_acts (p : Part) (i : Slot) (next : Verdict) : Part.Acts .reporting
    ((p.updSlot i fun r => r.moved next).updVolumes i fun v => { v with low := false, spent := false })
    (p.verdictMoved i next) :=
  ((recordEscalation_acts _ i).mono (Views.slotRecord_le_reporting i)).trans ((raise_acts _ _).trans (raise_acts _ _))

theorem verdictMoved_slot (p : Part) (i : Slot) (next : Verdict) : (p.verdictMoved i next).slot i = (p.slot i).moved next := by
  rw [← show Part.slot _ i = _ from (verdictMoved_acts p i next).same (.slot i) rfl]
  exact updSlot_slot_self p i fun r => r.moved next

theorem verdictMoved_volumes (p : Part) (i : Slot) (next : Verdict) :
    (p.verdictMoved i next).volumes i = { p.volumes i with low := false, spent := false } := by
  rw [← show Part.volumes _ i = _ from (verdictMoved_acts p i next).same (.volumes i) rfl]
  exact Part.setVolumes_volumes_self _ i _

theorem verdictMoved_notice (p : Part) (i : Slot) (next : Verdict) : (p.verdictMoved i next).noticePending .verdict = true :=
  raise_notice _ _

theorem verdictMoved_commit (p : Part) (i : Slot) (next : Verdict) (j : Slot) :
    (p.verdictMoved i next).commit j = p.commit j :=
  ((recordEscalation_acts _ i).same (.commit j) rfl).symm

theorem verdictMoved_place (p : Part) (i : Slot) (next : Verdict) (k : Fin 64) :
    (p.verdictMoved i next).place k = p.place k := ((verdictMoved_acts p i next).same (.place k) rfl).symm

/-! ### The work that a COUNTERFEIT slot leaves (R32) -/

/-- The row of a slot that has no bring-up or reverify work left. -/
def SlotRow.abandoned (r : SlotRow) : SlotRow :=
  { r with timer := .stopped, stage := .none, reverifyOpen := false, response := none }

/-- R32: the slot's row, the digest queue and the link pool alone change. -/
theorem abandonSlotWork_keeps (p : Part) (i : Slot) : (p.abandonSlotWork i).ce = p.ce ∧ (p.abandonSlotWork i).hs = p.hs ∧
    (p.abandonSlotWork i).au = p.au ∧ (p.abandonSlotWork i).nu = p.nu ∧
    (p.abandonSlotWork i).sm = (p.updSlot i SlotRow.abandoned).sm ∧ (p.abandonSlotWork i).board = p.board := by
  unfold Part.abandonSlotWork
  extract_lets q r
  split <;> exact ⟨rfl, rfl, rfl, rfl, rfl, rfl⟩

theorem abandonSlotWork_slot (p : Part) (i : Slot) : (p.abandonSlotWork i).slot i = (p.slot i).abandoned := by
  obtain ⟨-, -, -, -, table, -⟩ := abandonSlotWork_keeps p i
  rw [Part.slot, table]
  exact updSlot_slot_self p i _

theorem abandonSlotWork_flushes (p : Part) (i : Slot) : Part.Flushes p (p.abandonSlotWork i) := by
  obtain ⟨ce, hs, -, -, -, board⟩ := abandonSlotWork_keeps p i
  exact .of_same ce (by rw [hs]) board

/-! ### The answer to a parked REVERIFY whose slot becomes COUNTERFEIT (R40, R75) -/

/-- The tally that the answer names: the one read, or a free value. -/
def Part.counterfeitTally (p : Part) (i : Slot) : Nat :=
  (p.slot i).reverifyTally.getD (Config.unreadTally p.free.unreadTallies).toNat

/-- The request of a COUNTERFEIT slot is answered with its verdict and tally; a free value that the answer takes is used up. -/
theorem finishCounterfeit_cases (p : Part) (i : Slot) :
    (p.slot i).parkedCell = none ∧ p.finishCounterfeit i = p ∨
      ∃ n, p.finishCounterfeit i = ({ p with free := { p.free with unreadTallies := n } } : Part).finishReverify i .ok
        (reverifyFields (some .counterfeit) (p.counterfeitTally i)) := by
  unfold Part.finishCounterfeit Part.counterfeitTally
  split
  · rename_i tally
    exact .inr ⟨p.free.unreadTallies, by rw [tally]; rfl⟩
  · rename_i tally
    exact .inr ⟨p.free.unreadTallies + 1, by rw [tally]; rfl⟩
  · rename_i none
    exact .inl ⟨none, rfl⟩

theorem finishCounterfeit_slot (p : Part) (i : Slot) :
    (p.finishCounterfeit i).slot i = { p.slot i with parkedCell := none } := by
  rcases finishCounterfeit_cases p i with ⟨none, e⟩ | ⟨n, e⟩ <;> rw [e]
  · rw [← none]
  · exact finishReverify_slot _ i _ _

/-- The answer leaves the volumes, the history and the commit rows, and every notice raised. -/
theorem finishCounterfeit_keeps (p : Part) (i : Slot) : (∀ j, (p.finishCounterfeit i).volumes j = p.volumes j) ∧
    (∀ k, (p.finishCounterfeit i).place k = p.place k) ∧ (∀ j, (p.finishCounterfeit i).commit j = p.commit j) := by
  rcases finishCounterfeit_cases p i with ⟨-, e⟩ | ⟨n, e⟩ <;> rw [e]
  · exact ⟨fun _ => rfl, fun _ => rfl, fun _ => rfl⟩
  · have acts := finishReverify_acts ({ p with free := { p.free with unreadTallies := n } } : Part) i .ok _
      (reverifyFields_fit (some .counterfeit) (p.counterfeitTally i))
    exact ⟨fun j => (acts.same (.volumes j) rfl).symm, fun k => (acts.same (.place k) rfl).symm,
      fun j => finishReverify_commit _ i _ _ j⟩

/-! ### The cells at an escalation -/

theorem reselectIfActive_flushes (p : Part) (i : Slot) : Part.Flushes p (p.reselectIfActive i) := by
  unfold Part.reselectIfActive
  split
  · split
    · exact .of_same rfl rfl rfl
    · exact .refl p
  · exact .refl p

theorem recordEscalation_flushes (p : Part) (i : Slot) : Part.Flushes p (p.recordEscalation i) :=
  writeSlotRecord_flushes p _ i _ ((slotIdentityFields_fit _ _).append (slotVolumeFields_fit _ _))

theorem verdictMoved_flushes (p : Part) (i : Slot) (next : Verdict) : Part.Flushes p (p.verdictMoved i next) := by
  have changed : Part.Flushes p
      ((p.updSlot i fun r => r.moved next).updVolumes i fun v => { v with low := false, spent := false }) :=
    .of_same rfl rfl rfl
  exact changed.trans ((recordEscalation_flushes _ i).trans ((raise_flushes _ _).trans (raise_flushes _ _)))

theorem verdictReported_spares (p : Part) (i : Slot) (next : Verdict) : Part.Spares p (p.verdictReported i next) := by
  have applied : Part.Flushes (p.verdictMoved i next) (p.verdictApplied i next) := by
    unfold Part.verdictApplied
    split
    · exact abandonSlotWork_flushes _ i
    · exact changeLinkedEntry_flushes _ i _
  exact (((verdictMoved_flushes p i next).trans applied).trans (reselectIfActive_flushes _ i)).toSpares.trans
    (reportToCommit_spares _ i)

/-! ## What an escalation has done (R72) -/

/-- The row of a slot to which an escalation has been carried out. -/
def SlotRow.escalatedTo (r : SlotRow) (next : Verdict) : SlotRow :=
  if next = .counterfeit then { (r.moved next).abandoned with parkedCell := none } else r.moved next

/-- Between `p` and `q` the slot has been escalated: its row and its volumes, with the history entry of its link. -/
structure Part.Escalated (i : Slot) (next : Verdict) (p q : Part) : Prop where
  slot : q.slot i = (p.slot i).escalatedTo next
  volumes : q.volumes i = { p.volumes i with low := false, spent := false }
  work : ∀ j, (p.commit j).SameAccount (q.commit j)
  forged : next = .counterfeit → ∀ k, q.place k = p.place k
  entered : next ≠ .counterfeit → ∀ k, q.place k =
    if p.linkedPlace i = some k then ⟨(p.place k).entry.map fun e => { e with verdict := next }, true⟩ else p.place k
  notice : q.noticePending .verdict = true

theorem changeLinkedEntry_places (p : Part) (i : Slot) (f : Entry → Entry) (k : Fin 64) : (p.changeLinkedEntry i f).place k =
    if p.linkedPlace i = some k then ⟨(p.place k).entry.map f, true⟩ else p.place k := by
  unfold Part.changeLinkedEntry
  split
  · rename_i j linked
    rw [changeEntry_place, linked]
    by_cases e : k = j
    · rw [if_pos e, if_pos (congrArg some e.symm), e]
    · rw [if_neg e, if_neg fun h => e (Option.some.inj h).symm]
  · rename_i none
    rw [none, if_neg nofun]

/-- The stages that apply a moved verdict to the rest of the part. -/
theorem verdictReported_keeps (p : Part) (i : Slot) (next : Verdict) :
    (p.verdictReported i next).slot i = (p.verdictApplied i next).slot i ∧
      (p.verdictReported i next).volumes i = (p.verdictApplied i next).volumes i ∧
      (∀ k, (p.verdictReported i next).place k = (p.verdictApplied i next).place k) ∧
      (∀ j, ((p.verdictApplied i next).commit j).SameAccount ((p.verdictReported i next).commit j)) ∧
      ((p.verdictApplied i next).noticePending .verdict = true → (p.verdictReported i next).noticePending .verdict = true) := by
  rw [Part.verdictReported]
  generalize p.verdictApplied i next = q
  have selected := reselectIfActive_acts q i
  have told := reportToCommit_acts (q.reselectIfActive i) i
  refine ⟨?_, ?_, fun k => ?_, fun j => ?_, fun raised => told.raised _ (selected.raised _ raised)⟩
  · exact ((selected.same (.slot i) rfl).trans (told.same (.slot i) rfl)).symm
  · exact ((selected.same (.volumes i) rfl).trans (told.same (.volumes i) rfl)).symm
  · exact ((selected.same (.place k) rfl).trans (told.same (.place k) rfl)).symm
  · rw [show q.commit j = _ from selected.same (.commit j) rfl]
    exact reportToCommit_sameAccount _ i j

theorem carryOutEscalation_escalated (p : Part) (i : Slot) (next : Verdict) :
    Part.Escalated i next p (p.carryOutEscalation i next) := by
  obtain ⟨slot, volumes, place, work, notice⟩ := verdictReported_keeps p i next
  rw [carryOutEscalation_eq]
  by_cases forged : next = .counterfeit
  · have applied : p.verdictApplied i next = (p.verdictMoved i next).abandonSlotWork i := if_pos forged
    obtain ⟨ce, hs, au, nu, -, -⟩ := abandonSlotWork_keeps (p.verdictMoved i next) i
    obtain ⟨kept, places, rows⟩ := finishCounterfeit_keeps (p.verdictReported i next) i
    rw [applied] at slot volumes place work notice
    rw [if_pos forged]
    refine ⟨?_, ?_, fun j => ?_, fun _ k => ?_, fun h => absurd forged h, ?_⟩
    · rw [finishCounterfeit_slot, slot, abandonSlotWork_slot, verdictMoved_slot, SlotRow.escalatedTo, if_pos forged]
    · rw [kept, volumes, ← verdictMoved_volumes p i next, Part.volumes, au]; rfl
    · rw [rows, ← verdictMoved_commit p i next j]
      refine .trans ?_ (work j)
      rw [Part.commit, Part.commit, ce]
      exact .refl _
    · rw [places, place, ← verdictMoved_place p i next k, Part.place, hs]; rfl
    · exact (finishCounterfeit_acts _ i).raised _ (notice (by
        rw [Part.noticePending, nu]; exact verdictMoved_notice p i next))
  · have applied : p.verdictApplied i next = (p.verdictMoved i next).changeLinkedEntry i fun e => { e with verdict := next } :=
      if_neg forged
    have written := changeLinkedEntry_acts (p.verdictMoved i next) i fun e => { e with verdict := next }
    have linked : (p.verdictMoved i next).linkedPlace i = p.linkedPlace i := by
      have row := verdictMoved_slot p i next
      rw [Part.linkedPlace, Part.linkedPlace, row, heldPlace_congr (p := p)
        (fun k => congrArg PlaceRow.serial (verdictMoved_place p i next k)) (by rw [row]; rfl)]
      rfl
    rw [applied] at slot volumes place work notice
    rw [if_neg forged]
    refine ⟨?_, ?_, fun j => ?_, fun h => absurd h forged, fun _ k => ?_, ?_⟩
    · rw [slot, ← show Part.slot _ i = _ from written.same (.slot i) rfl, verdictMoved_slot, SlotRow.escalatedTo,
        if_neg forged]
    · rw [volumes, ← show Part.volumes _ i = _ from written.same (.volumes i) rfl, verdictMoved_volumes]
    · rw [← verdictMoved_commit p i next j, ← changeLinkedEntry_commit (p.verdictMoved i next) i]
      exact work j
    · rw [place, changeLinkedEntry_places, linked, verdictMoved_place]
    · exact notice (written.raised _ (verdictMoved_notice p i next))

theorem escalate_carried {p : Part} {i : Slot} {now next : Verdict} (verdict : (p.slot i).verdict = some now)
    (forward : escalates now next = true) : p.escalate i next = p.carryOutEscalation i next := by
  rw [Part.escalate, verdict]
  exact if_pos forward

/-- R71: an escalation that does not move the verdict forward. -/
theorem escalate_refused {p : Part} {i : Slot} {next : Verdict}
    (still : ∀ now, (p.slot i).verdict = some now → escalates now next = false) : p.escalate i next = p := by
  unfold Part.escalate
  split
  · rename_i now verdict
    exact if_neg (by rw [still now verdict]; exact Bool.noConfusion)
  · rfl

theorem escalate_escalated {p : Part} {i : Slot} {now next : Verdict} (verdict : (p.slot i).verdict = some now)
    (forward : escalates now next = true) : Part.Escalated i next p (p.escalate i next) := by
  rw [escalate_carried verdict forward]
  exact carryOutEscalation_escalated p i next

theorem escalates_counterfeit {now : Verdict} (served : now.class ≠ .rejected) : escalates now .counterfeit = true := by
  simp [escalates, served]

theorem escalates_rejected {now : Verdict} (rejected : now.class = .rejected) (next : Verdict) : escalates now next = false := by
  simp [escalates, rejected]

/-! ## The result of a RECEIPT_CHECK (R128) -/

/-- The hold goes on with a frame or ends. -/
theorem continueHold_flushes (p : Part) (i : Slot) (success : Bool) : Part.Flushes p (p.continueHold i success) := by
  unfold Part.continueHold
  split
  · split
    · exact setLink_flushes p i _
    · exact endHold_flushes p i
  all_goals exact .refl p

/-- R128: the units are taken off the uncommitted volume, and the entry has the new tally. -/
def Part.unitsTaken (p : Part) (i : Slot) (a : Advance) (tally : Nat) : Part :=
  (p.updCommit i fun r => { r with uncommitted := r.uncommitted - a.units * unitVolume, unsettled := none }).changeLinkedEntry
    i fun e => { e with tally := tally }

theorem linkSucceeded_flushes (p : Part) (i : Slot) : Part.Flushes p (p.linkSucceeded i) := updSlot_flushes p i _

theorem advanceConfirmed_eq (p : Part) (i : Slot) (a : Advance) (tally : Nat) : p.advanceConfirmed i a tally =
    (((((p.unitsTaken i a tally).recordCommit i).linkSucceeded i).examineFlush i).testCommit i).continueHold i true := rfl

/-- The work of a hold that goes on after a confirmed ADVANCE_TALLY. -/
theorem advanceConfirmed_acts_link (p : Part) (i : Slot) (a : Advance) (tally : Nat) :
    Part.Acts .linking (((p.unitsTaken i a tally).recordCommit i).linkSucceeded i) (p.advanceConfirmed i a tally) :=
  ((examineFlush_acts _ i).mono Views.flushing_le_linking).trans ((testCommit_acts _ i).trans (continueHold_acts _ i true))

theorem advanceConfirmed_flushes (p : Part) (i : Slot) (a : Advance) (tally : Nat) :
    Part.Flushes (p.unitsTaken i a tally) (p.advanceConfirmed i a tally) := by
  rw [advanceConfirmed_eq]
  generalize p.unitsTaken i a tally = q
  exact (recordCommit_flushes q i).trans ((linkSucceeded_flushes _ i).trans
    ((examineFlush_flushes _ i).trans ((testCommit_flushes _ i).trans (continueHold_flushes _ i true))))

theorem advanceConfirmed_work (p : Part) (i : Slot) (a : Advance) (tally : Nat) :
    ((p.advanceConfirmed i a tally).commit i).uncommitted = (p.commit i).uncommitted - a.units * unitVolume ∧
      ((p.advanceConfirmed i a tally).commit i).unsettled = none := by
  obtain ⟨uncommitted, -, unsettled⟩ := (advanceConfirmed_flushes p i a tally).sameWork i
  rw [uncommitted, unsettled, Part.unitsTaken, changeLinkedEntry_commit, updCommit_commit_self]
  exact ⟨rfl, rfl⟩

theorem advanceConfirmed_slot (p : Part) (i : Slot) (a : Advance) (tally : Nat) :
    (p.advanceConfirmed i a tally).slot i = { p.slot i with linkFailures := 0 } := by
  have written : ((p.unitsTaken i a tally).recordCommit i).slot i = p.slot i :=
    (((changeLinkedEntry_acts _ i _).same (.slot i) rfl).trans ((recordCommit_acts _ i).same (.slot i) rfl)).symm
  rw [← show Part.slot _ i = _ from (advanceConfirmed_acts_link p i a tally).same (.slot i) rfl, ← written]
  exact updSlot_slot_self _ i _

theorem advanceConfirmed_place (p : Part) (i : Slot) (a : Advance) (tally : Nat) (k : Fin 64) :
    (p.advanceConfirmed i a tally).place k = (p.unitsTaken i a tally).place k := by
  rw [← show Part.place _ k = _ from (advanceConfirmed_acts_link p i a tally).same (.place k) rfl]
  exact recordCommit_place _ i k

theorem unitsTaken_place {p : Part} {i : Slot} {k : Fin 64} {e : Entry} (link : p.linkedPlace i = some k)
    (entry : (p.place k).entry = some e) (a : Advance) (tally : Nat) :
    (p.unitsTaken i a tally).place k = ⟨some { e with tally := tally }, true⟩ :=
  changeLinkedEntry_place (p := p.updCommit i fun r =>
    { r with uncommitted := r.uncommitted - a.units * unitVolume, unsettled := none }) link entry _

/-- R128: the operation is settled, and the link has answered. -/
def Part.settledUnbelieved (p : Part) (i : Slot) : Part := (p.clearUnsettled i).linkSucceeded i

theorem advanceDisbelieved_eq (p : Part) (i : Slot) :
    p.advanceDisbelieved i = ((p.settledUnbelieved i).escalate i .counterfeit).continueHold i false := rfl

theorem settledUnbelieved_slot (p : Part) (i : Slot) : (p.settledUnbelieved i).slot i = { p.slot i with linkFailures := 0 } :=
  updSlot_slot_self _ i _

theorem settledUnbelieved_commit (p : Part) (i : Slot) :
    (p.settledUnbelieved i).commit i = { p.commit i with unsettled := none } := clearUnsettled_commit_self p i

/-- R128: the hold ends, leaving the escalation as it stands. -/
theorem advanceDisbelieved_escalates {p : Part} {i : Slot} {now : Verdict} (verdict : (p.slot i).verdict = some now)
    (served : now.class ≠ .rejected) : Part.Escalated i .counterfeit (p.settledUnbelieved i) (p.advanceDisbelieved i) := by
  obtain ⟨slot, volumes, work, forged, entered, notice⟩ := escalate_escalated (p := p.settledUnbelieved i) (i := i)
    ((congrArg SlotRow.verdict (settledUnbelieved_slot p i)).trans verdict) (escalates_counterfeit served)
  rw [advanceDisbelieved_eq]
  generalize (p.settledUnbelieved i).escalate i .counterfeit = q at *
  have ends := continueHold_acts q i false
  exact ⟨(ends.same (.slot i) rfl).symm.trans slot, (ends.same (.volumes i) rfl).symm.trans volumes,
    fun j => (work j).trans ((continueHold_flushes q i false).sameAccount j),
    fun h k => (ends.same (.place k) rfl).symm.trans (forged h k), fun h => absurd rfl h, ends.raised _ notice⟩

/-- What a mismatch leaves of a slot that is rejected already, or that has no verdict. -/
theorem advanceDisbelieved_settles {p : Part} {i : Slot}
    (still : ∀ now, (p.slot i).verdict = some now → now.class = .rejected) :
    p.advanceDisbelieved i = (p.settledUnbelieved i).continueHold i false := by
  rw [advanceDisbelieved_eq, escalate_refused fun now verdict => escalates_rejected
    (still now ((congrArg SlotRow.verdict (settledUnbelieved_slot p i)).symm.trans verdict)) _]

/-- R128: what a mismatch leaves, whatever the verdict. -/
theorem advanceDisbelieved_keeps (p : Part) (i : Slot) :
    (({ p.commit i with unsettled := none } : CommitRow).SameWork ((p.advanceDisbelieved i).commit i)) ∧
      ((p.advanceDisbelieved i).slot i).linkFailures = 0 ∧ ∀ k, (p.advanceDisbelieved i).place k = p.place k := by
  by_cases served : ∃ now, (p.slot i).verdict = some now ∧ now.class ≠ .rejected
  · obtain ⟨now, verdict, served⟩ := served
    have escalated := advanceDisbelieved_escalates verdict served
    refine ⟨settledUnbelieved_commit p i ▸ (escalated.work i).toSameWork, ?_, fun k => escalated.forged rfl k⟩
    rw [escalated.slot, settledUnbelieved_slot]
    rfl
  · have ends := continueHold_acts (p.settledUnbelieved i) i false
    rw [advanceDisbelieved_settles fun now verdict => not_not.1 fun h => served ⟨now, verdict, h⟩]
    refine ⟨settledUnbelieved_commit p i ▸ (continueHold_flushes _ i false).sameWork i, ?_, fun k =>
      (ends.same (.place k) rfl).symm⟩
    rw [← show Part.slot _ i = _ from ends.same (.slot i) rfl, settledUnbelieved_slot]

theorem exec_receiptCheck {s : State} {i : Slot} {key nonce receipt : Quad} {count : Half} {tally : Nat} {a : Advance}
    (head : s.part.digestHead = some ⟨.slot i, .receiptCheck key nonce count tally receipt⟩)
    (sent : (s.part.commit i).unsettled = some a) : exec .receiptCheck s = s.after
      (if receiptMatches key nonce count tally receipt then s.part.popDigest.advanceConfirmed i a tally
       else s.part.popDigest.advanceDisbelieved i) := by
  have row : (s.part.popDigest.commit i).unsettled = some a := by
    rw [← show Part.commit _ i = _ from (popDigest_acts s.part).same (.commit i) rfl]
    exact sent
  show execReceiptCheck s = _
  unfold execReceiptCheck Part.receiptChecked
  rw [head]
  simp only [row]

/-- What the digest queue's head leaves of the history and the commits. -/
theorem popDigest_place (p : Part) (k : Fin 64) : p.popDigest.place k = p.place k := ((popDigest_acts p).same (.place k) rfl).symm

theorem popDigest_commit (p : Part) (i : Slot) : p.popDigest.commit i = p.commit i := ((popDigest_acts p).same (.commit i) rfl).symm

theorem popDigest_volumes (p : Part) (i : Slot) : p.popDigest.volumes i = p.volumes i :=
  ((popDigest_acts p).same (.volumes i) rfl).symm

theorem popDigest_linkedPlace (p : Part) (i : Slot) : p.popDigest.linkedPlace i = p.linkedPlace i :=
  linkedPlace_congr (fun k => congrArg PlaceRow.serial (popDigest_place p k)) (popDigest_slot p i)

theorem popDigest_unfolded {p : Part} (unfolded : p.hs.foldAtWrite = false) : p.popDigest.hs.foldAtWrite = false :=
  ((popDigest_acts p).same .foldAtWrite rfl).symm.trans unfolded

/-- What the end of a step leaves of the history and the commits while fold at write is disabled. -/
theorem finish_place_plain {p : Part} (before : Part) (unfolded : p.hs.foldAtWrite = false) (k : Fin 64) :
    (Part.finish before p).place k = p.place k := ((finish_acts_plain before p unfolded).same (.place k) rfl).symm

theorem finish_commit_plain {p : Part} (before : Part) (unfolded : p.hs.foldAtWrite = false) (i : Slot) :
    (Part.finish before p).commit i = p.commit i := ((finish_acts_plain before p unfolded).same (.commit i) rfl).symm

/-- Settles O28: a match confirms, a mismatch rejects what is not rejected already. -/
theorem receiptDecides : Obligations.ReceiptDecides := by
  intro i s key nonce receipt count tally a head sent unfolded
  have run := exec_receiptCheck head sent
  have popped := popDigest_unfolded unfolded
  constructor
  · intro matched
    rw [matched, if_pos rfl] at run
    have plain : (s.part.popDigest.advanceConfirmed i a tally).hs.foldAtWrite = false :=
      ((advanceConfirmed_acts _ i a tally).same .foldAtWrite rfl).symm.trans popped
    obtain ⟨uncommitted, unsettled⟩ := advanceConfirmed_work s.part.popDigest i a tally
    refine completes_after run ⟨?_, ?_, ?_, fun k e link entry => ?_⟩
    · rw [finish_commit_plain _ plain, uncommitted, popDigest_commit]
    · rw [finish_commit_plain _ plain, unsettled]
    · rw [finish_slot, advanceConfirmed_slot]
    · rw [finish_place_plain _ plain, advanceConfirmed_place,
        unitsTaken_place ((popDigest_linkedPlace _ i).trans link) (by rw [popDigest_place]; exact entry)]
      exact ⟨rfl, rfl⟩
  · intro mismatched
    rw [mismatched, if_neg Bool.noConfusion] at run
    have plain : (s.part.popDigest.advanceDisbelieved i).hs.foldAtWrite = false :=
      (((clearUnsettled_acts _ i).same .foldAtWrite rfl).trans (((linkSucceeded_acts _ i).same .foldAtWrite rfl).trans
        (((escalate_acts _ i _).same .foldAtWrite rfl).trans
          ((continueHold_acts _ i false).same .foldAtWrite rfl)))).symm.trans popped
    obtain ⟨work, failures, place⟩ := advanceDisbelieved_keeps s.part.popDigest i
    rw [popDigest_commit] at work
    refine completes_after run ⟨?_, ?_, ?_, ?_, fun k => ?_, fun now verdict served => ?_, fun now verdict rejected => ?_⟩
    · rw [finish_commit_plain _ plain, work.unsettled]
    · rw [finish_commit_plain _ plain, work.uncommitted]
    · rw [finish_commit_plain _ plain, work.inDoubt]
    · rw [finish_slot, failures]
    · rw [finish_place_plain _ plain, place, popDigest_place]
    · have escalated := advanceDisbelieved_escalates (p := s.part.popDigest) (by rw [popDigest_slot]; exact verdict) served
      rw [finish_slot, finish_volumes, escalated.slot, escalated.volumes]
      exact ⟨rfl, rfl, rfl, rfl, finish_notice escalated.notice⟩
    · rw [finish_slot, finish_volumes, advanceDisbelieved_settles fun v h => by
        rw [popDigest_slot, verdict] at h; exact Option.some.inj h ▸ rejected]
      have ends := continueHold_acts (s.part.popDigest.settledUnbelieved i) i false
      rw [← show Part.slot _ i = _ from ends.same (.slot i) rfl, ← show Part.volumes _ i = _ from ends.same (.volumes i) rfl,
        settledUnbelieved_slot, popDigest_slot]
      exact ⟨rfl, verdict, popDigest_volumes s.part i⟩

end Sys2Proof.Machine

end

-- ==== BringUp: Tally ====
section

/-! PROOFS. What a tally read from a cartridge settles: units in doubt, and a disagreement (R40, R43, R71, R123). -/

set_option Elab.async false
namespace Sys2Proof.Machine
open Sys2Proof

/-! ## Carrying a settled tally on -/

/-- Between `p` and `q` nothing changes of what a settled tally speaks of. -/
structure Part.KeepsTally (i : Slot) (p q : Part) : Prop where
  work : (p.commit i).SameWork (q.commit i)
  verdict : (q.slot i).verdict = (p.slot i).verdict
  volumes : q.volumes i = p.volumes i
  place : ∀ k, q.place k = p.place k
  notice : p.noticePending .verdict = true → q.noticePending .verdict = true

theorem Part.KeepsTally.trans {i : Slot} {p q r : Part} (h : Part.KeepsTally i p q) (k : Part.KeepsTally i q r) :
    Part.KeepsTally i p r :=
  ⟨h.work.trans k.work, k.verdict.trans h.verdict, k.volumes.trans h.volumes, fun j => (k.place j).trans (h.place j),
    k.notice ∘ h.notice⟩

theorem Part.KeepsTally.refl (i : Slot) (p : Part) : Part.KeepsTally i p p := ⟨.refl _, rfl, rfl, fun _ => rfl, id⟩

/-- Work that flushes at most and leaves the slots, their volumes and the history. -/
theorem Part.Acts.keepsTally {t : Views} {p q : Part} (h : Part.Acts t p q) (i : Slot)
    (work : (p.commit i).SameWork (q.commit i))
    (k : t (.slot i) = false ∧ t (.volumes i) = false ∧ ∀ j, t (.place j) = false := by exact ⟨rfl, rfl, fun _ => rfl⟩) :
    Part.KeepsTally i p q :=
  ⟨work, congrArg SlotRow.verdict (h.same (.slot i) k.1).symm, (h.same (.volumes i) k.2.1).symm,
    fun j => (h.same (.place j) (k.2.2 j)).symm, h.raised _⟩

theorem Part.TallySettled.keep {p q r : Part} {i : Slot} {tally : Nat} (h : p.TallySettled q i tally)
    (k : Part.KeepsTally i q r) : p.TallySettled r i tally where
  units := k.work.inDoubt.trans h.units
  applied doubt agrees := by
    obtain ⟨uncommitted, verdict, entry⟩ := h.applied doubt agrees
    exact ⟨k.work.uncommitted.trans uncommitted, k.verdict.trans verdict, fun j e link at_ => (k.place j).trans (entry j e link at_)⟩
  notApplied agrees := by
    obtain ⟨uncommitted, verdict, entry⟩ := h.notApplied agrees
    exact ⟨k.work.uncommitted.trans uncommitted, k.verdict.trans verdict,
      fun j e doubt link at_ => (k.place j).trans (entry j e doubt link at_)⟩
  disagrees ne ne' := by
    obtain ⟨uncommitted, still, moves⟩ := h.disagrees ne ne'
    refine ⟨k.work.uncommitted.trans uncommitted, fun now verdict last => k.verdict.trans (still now verdict last),
      fun now verdict a b c => ?_⟩
    obtain ⟨regressed, low, spent, notice, entry⟩ := moves now verdict a b c
    exact ⟨k.verdict.trans regressed, by rw [k.volumes]; exact low, by rw [k.volumes]; exact spent, k.notice notice,
      fun j e link at_ => (k.place j).trans (entry j e link at_)⟩

theorem committedTally_congr {p q : Part} {i : Slot} (linked : q.linkedPlace i = p.linkedPlace i)
    (place : ∀ k, q.place k = p.place k) : q.committedTally i = p.committedTally i := by
  simp only [Part.committedTally, Part.linkedEntry, linked, place]

/-- The part that the tally is settled against may be any that agrees on the slot's commits, verdict and history. -/
theorem Part.TallySettled.before {p p' q : Part} {i : Slot} {tally : Nat} (h : p'.TallySettled q i tally)
    (work : (p.commit i).SameWork (p'.commit i)) (verdict : (p'.slot i).verdict = (p.slot i).verdict)
    (linked : p'.linkedPlace i = p.linkedPlace i) (place : ∀ k, p'.place k = p.place k) : p.TallySettled q i tally := by
  obtain ⟨units, applied, notApplied, disagrees⟩ := h
  rw [committedTally_congr linked place] at applied notApplied disagrees
  simp only [work.uncommitted, work.inDoubt, verdict, linked, place] at applied notApplied disagrees
  exact ⟨units, applied, notApplied, disagrees⟩

/-! ## The escalation to REGRESSED (R71) -/

theorem escalates_regressed {now : Verdict} (regressed : now ≠ .regressed) (clone : now ≠ .clone)
    (served : now.class ≠ .rejected) : escalates now .regressed = true := by
  cases now with
  | regressed => exact absurd rfl regressed
  | clone => exact absurd rfl clone
  | new | used | resumed | depleted | refilled => rfl
  | counterfeit | wrongInk | unknownType | unreadable => exact absurd rfl served

theorem escalates_last {now : Verdict} (last : now = .regressed ∨ now = .clone) : escalates now .regressed = false := by
  rcases last with rfl | rfl <;> rfl

/-- An escalation leaves the accounts of every slot's commits. -/
theorem escalate_sameAccount (p : Part) (i : Slot) (next : Verdict) (j : Slot) :
    (p.commit j).SameAccount ((p.escalate i next).commit j) := by
  unfold Part.escalate
  split
  · split
    · exact (carryOutEscalation_escalated p i next).work j
    · exact .refl _
  · exact .refl _

/-! ## The units in doubt (R122, R123) -/

theorem setInDoubt_slot (p : Part) (i : Slot) (n : Nat) (j : Slot) : (p.setInDoubt i n).slot j = p.slot j :=
  ((setInDoubt_acts p i n).same (.slot j) rfl).symm

theorem setInDoubt_linkedPlace (p : Part) (i : Slot) (n : Nat) : (p.setInDoubt i n).linkedPlace i = p.linkedPlace i :=
  linkedPlace_congr (setInDoubt_serial p i n) (setInDoubt_slot p i n i)

theorem testCommit_keepsTally (p : Part) (i : Slot) : Part.KeepsTally i p (p.testCommit i) :=
  (testCommit_acts p i).keepsTally i ((testCommit_flushes p i).sameWork i)

/-- R123: the units are taken off the uncommitted volume, and the entry has the tally and no units in doubt. -/
def Part.unitsCounted (p : Part) (i : Slot) (tally : Nat) : Part :=
  (p.updCommit i fun r => { r with uncommitted := r.uncommitted - (p.commit i).inDoubt * unitVolume, inDoubt := 0 }).changeLinkedEntry
    i fun e => { e with tally := tally, inDoubt := 0 }

theorem unitsApplied_eq (p : Part) (i : Slot) (tally : Nat) : p.unitsApplied i tally =
    (((p.unitsCounted i tally).recordCommit i).examineFlush i).testCommit i := rfl

theorem unitsApplied_keepsTally (p : Part) (i : Slot) (tally : Nat) :
    Part.KeepsTally i (p.unitsCounted i tally) (p.unitsApplied i tally) := by
  rw [unitsApplied_eq]
  generalize p.unitsCounted i tally = q
  have recorded : Part.KeepsTally i q (q.recordCommit i) :=
    (recordCommit_acts q i).keepsTally i ((recordCommit_flushes q i).sameWork i)
  have examined : Part.KeepsTally i (q.recordCommit i) ((q.recordCommit i).examineFlush i) :=
    (examineFlush_acts _ i).keepsTally i ((examineFlush_flushes _ i).sameWork i)
  exact (recorded.trans examined).trans (testCommit_keepsTally _ i)

/-- R123, first row. -/
theorem unitsApplied_settles {p : Part} {i : Slot} {tally : Nat} (doubt : (p.commit i).inDoubt ≠ 0)
    (agrees : tally = p.committedTally i + (p.commit i).inDoubt) : p.TallySettled (p.unitsApplied i tally) i tally := by
  have counted : p.TallySettled (p.unitsCounted i tally) i tally := by
    have row : (p.unitsCounted i tally).commit i =
        { p.commit i with uncommitted := (p.commit i).uncommitted - (p.commit i).inDoubt * unitVolume, inDoubt := 0 } := by
      rw [Part.unitsCounted, changeLinkedEntry_commit, updCommit_commit_self]
    refine ⟨by rw [row], fun _ _ => ⟨by rw [row], ?_, fun k e link entry => ?_⟩, fun same => ?_, fun _ ne => absurd agrees ne⟩
    · exact congrArg SlotRow.verdict ((changeLinkedEntry_acts _ i _).same (.slot i) rfl).symm
    · exact changeLinkedEntry_place (p := p.updCommit i fun r =>
        { r with uncommitted := r.uncommitted - (p.commit i).inDoubt * unitVolume, inDoubt := 0 }) link entry _
    · omega
  exact counted.keep (unitsApplied_keepsTally p i tally)

/-- R123, second row. -/
theorem unitsNotApplied_settles {p : Part} {i : Slot} {tally : Nat} (agrees : tally = p.committedTally i) :
    p.TallySettled ((p.setInDoubt i 0).testCommit i) i tally := by
  have cleared : p.TallySettled (p.setInDoubt i 0) i tally := by
    refine ⟨by rw [setInDoubt_commit_self], fun doubt other => ?_, fun _ => ⟨by rw [setInDoubt_commit_self], ?_,
      fun k e _ link entry => setInDoubt_place link entry 0⟩, fun ne => absurd agrees ne⟩
    · omega
    · rw [setInDoubt_slot]
  exact cleared.keep (testCommit_keepsTally _ i)

/-- R71, R123: a tally that agrees with neither, in a part `q` whose units in doubt have been cleared. -/
theorem escalateRegressed_settles {p q : Part} {i : Slot} {tally : Nat} (none : (q.commit i).inDoubt = 0)
    (uncommitted : (q.commit i).uncommitted = (p.commit i).uncommitted) (slot : q.slot i = p.slot i)
    (linked : q.linkedPlace i = p.linkedPlace i)
    (cleared : ∀ k e, p.linkedPlace i = some k → (p.place k).entry = some e →
      (q.place k).entry = some { e with inDoubt := if (p.commit i).inDoubt = 0 then e.inDoubt else 0 })
    (ne : tally ≠ p.committedTally i) (ne' : tally ≠ p.committedTally i + (p.commit i).inDoubt) :
    p.TallySettled (q.escalate i .regressed) i tally := by
  have work := escalate_sameAccount q i .regressed i
  refine ⟨work.inDoubt.trans none, fun _ e => absurd e ne', fun e => absurd e ne, fun _ _ =>
    ⟨work.uncommitted.trans uncommitted, fun now verdict last => ?_, fun now verdict notRegressed notClone served => ?_⟩⟩
  · rw [escalate_refused fun v h => ?_, slot, verdict]
    rw [slot, verdict] at h
    exact Option.some.inj h ▸ escalates_last last
  · have escalated := escalate_escalated (p := q) (by rw [slot]; exact verdict) (escalates_regressed notRegressed notClone served)
    rw [escalated.slot, escalated.volumes]
    refine ⟨rfl, rfl, rfl, escalated.notice, fun k e link entry => ?_⟩
    rw [escalated.entered nofun, linked, if_pos link, cleared k e link entry]
    rfl

/-- R123: the units in doubt are resolved against the tally. -/
theorem resolveInDoubt_settles {p : Part} {i : Slot} (doubt : (p.commit i).inDoubt ≠ 0) (tally : Nat) :
    p.TallySettled (p.resolveInDoubt i tally) i tally := by
  unfold Part.resolveInDoubt
  split
  · exact unitsApplied_settles doubt ‹_›
  · split
    · exact unitsNotApplied_settles ‹_›
    · refine escalateRegressed_settles (by rw [setInDoubt_commit_self]) (by rw [setInDoubt_commit_self])
        (setInDoubt_slot p i 0 i) (setInDoubt_linkedPlace p i 0) (fun k e link entry => ?_) ‹_› ‹_›
      rw [setInDoubt_place link entry, if_neg doubt]

/-- R40, R43: the tally is resolved, or compared with the committed tally. -/
theorem compareTally_settles (p : Part) (i : Slot) (tally : Nat) : p.TallySettled (p.compareTally i tally) i tally := by
  unfold Part.compareTally
  split
  · exact resolveInDoubt_settles ‹_› tally
  · have none : (p.commit i).inDoubt = 0 := not_not.1 ‹_›
    split
    · exact ⟨none, fun doubt => absurd none doubt, fun _ => ⟨rfl, rfl, fun _ _ doubt => absurd none doubt⟩,
        fun ne => absurd ‹_› ne⟩
    · refine escalateRegressed_settles none rfl rfl rfl (fun k e _ entry => ?_) ‹_› (by rw [none, Nat.add_zero]; exact ‹_›)
      rw [if_pos none]
      exact entry

/-! ## The return to service (R40, R43) -/

/-- R40, R43: the row of a slot whose reverify or probe ends in service. -/
def SlotRow.returned (r : SlotRow) : SlotRow :=
  { r with state := .inService, stage := .none, reverifyOpen := false, response := none, linkFailures := 0, timer := .stopped }

theorem returnToService_eq (p : Part) (i : Slot) :
    p.returnToService i = ((p.updSlot i SlotRow.returned).joinWindDown i).reportSlot i := rfl

theorem joinWindDown_slot (p : Part) (i j : Slot) : (p.joinWindDown i).slot j = p.slot j :=
  ((joinWindDown_acts p i).same (.slot j) rfl).symm

theorem joinWindDown_sameWork (p : Part) (i : Slot) : (p.commit i).SameWork ((p.joinWindDown i).commit i) := by
  unfold Part.joinWindDown
  split
  · rw [updCommit_commit_self]
    exact ⟨rfl, rfl, rfl⟩
  · exact .refl _

theorem returnToService_slot (p : Part) (i : Slot) : (p.returnToService i).slot i = (p.slot i).returned := by
  rw [returnToService_eq, reportSlot_slot, joinWindDown_slot, updSlot_slot_self]

/-- R24: LINK_LOST is cleared with the report. -/
theorem reportSlot_linkFound {p : Part} {i : Slot} (h : (p.slot i).state = .inService) :
    ((p.reportSlot i).commit i).linkLost = false := by
  have slot : ((p.recordIdentity i).raise .slot).slot i = p.slot i := ((recordIdentity_acts p i).same (.slot i) rfl).symm
  rw [Part.reportSlot, (reportToCommit_row _ i).linkLost, slot, SlotRow.linkLostAfter, if_neg (by rw [h]; decide), if_pos h]

theorem returnToService_linkLost (p : Part) (i : Slot) : ((p.returnToService i).commit i).linkLost = false := by
  rw [returnToService_eq]
  exact reportSlot_linkFound (by rw [joinWindDown_slot, updSlot_slot_self]; rfl)

theorem returnToService_keepsTally (p : Part) (i : Slot) : Part.KeepsTally i p (p.returnToService i) := by
  have acts := returnToService_acts p i
  refine ⟨?_, by rw [returnToService_slot]; rfl, (acts.same (.volumes i) rfl).symm,
    fun k => (acts.same (.place k) rfl).symm, acts.raised _⟩
  exact ((updSlot_flushes p i SlotRow.returned).sameWork i).trans
    ((joinWindDown_sameWork _ i).trans (reportSlot_sameWork _ i))

theorem finish_keepsTally {p : Part} (before : Part) (unfolded : p.hs.foldAtWrite = false) (i : Slot) :
    Part.KeepsTally i p (Part.finish before p) :=
  (finish_acts_plain before p unfolded).keepsTally i (finish_commit_plain before unfolded i ▸ .refl _)

end Sys2Proof.Machine

end

-- ==== BringUp: Responses ====
section

/-! PROOFS. What the responses of a bring-up, a reverify, a probe and the READ_TALLY of a commit hold do (R26, R29, R39, R43,
R123, R126). -/

set_option Elab.async false
namespace Sys2Proof.Machine
open Sys2Proof

/-! ## The end of a single hold (R16, R17) -/

/-- The slot's frame and its hold have ended. -/
def Part.handedBack (p : Part) (b : Slot) (o : LinkOutcome) (low : Bool) : Part :=
  (p.frameEnds b (o.gapAfter low)).endHold b

/-- Between `p` and `r` the hold of a slot has ended. -/
structure Part.HandedBack (b : Slot) (p r : Part) : Prop where
  slot : r.slot b = p.slot b
  ps : r.ps = p.ps
  flushes : Part.Flushes p r
  place : ∀ k, r.place k = p.place k
  folds : r.hs.foldAtWrite = p.hs.foldAtWrite
  freed : (p.slot b).state ≠ .inService → p.Unlisted b → r.link b = .none ∧ r.Unlisted b

/-- R17: the hold of a slot that is not in service and defers no join leaves it on no list. -/
theorem endHold_leaves {p : Part} {i : Slot} {h : Hold} (link : p.link i = .held h) (alone : h.deferred = none)
    (state : (p.slot i).state ≠ .inService) (u : p.Unlisted i) : (p.endHold i).link i = .none ∧ (p.endHold i).Unlisted i := by
  have ends : p.endHold i = ((p.setLink i .none).releaseReport i).takeFromList := by
    unfold Part.endHold
    rw [link]
    simp only [alone, Part.placeDeferred]
  have examined : Part.Aside i (p.setLink i .none) ((p.setLink i .none).examineFlush i) := (examineFlush_acts _ i).aside
  have report : (p.setLink i .none).releaseReport i = (p.setLink i .none).examineFlush i :=
    testPlace_unserviceable (serviceable_state (by
      rw [← show Part.slot _ i = _ from (examineFlush_acts (p.setLink i .none) i).same (.slot i) rfl]
      exact state))
  have off : (p.setLink i .none).Unlisted i := ⟨u.bringUp, u.commit⟩
  have taken := examined.trans (takeFromList_aside (examined.unlisted off))
  rw [ends, report]
  exact ⟨taken.link.trans (Part.setLink_link_self p i .none), taken.unlisted off⟩

theorem handedBack_back {p : Part} {b : Slot} {h : Hold} (holds : p.HoldsSingle b h) (o : LinkOutcome) (low : Bool) :
    Part.HandedBack b p (p.handedBack b o low) := by
  have acts := endHold_acts (p.frameEnds b (o.gapAfter low)) b
  refine ⟨(endHold_slot _ b b).trans rfl, (endHold_ps _ b).trans rfl,
    (frameEnds_flushes p b _).trans (endHold_flushes _ b), fun k => (acts.same (.place k) rfl).symm.trans rfl,
    (acts.same .foldAtWrite rfl).symm.trans rfl, fun state u => ?_⟩
  exact endHold_leaves (p := p.frameEnds b (o.gapAfter low)) holds.link holds.alone state (u.of_lp rfl)

theorem Part.HandedBack.linkedPlace {b : Slot} {p r : Part} (h : Part.HandedBack b p r) : r.linkedPlace b = p.linkedPlace b :=
  linkedPlace_congr (fun k => congrArg PlaceRow.serial (h.place k)) h.slot

theorem Part.HandedBack.running {b : Slot} {p r : Part} (h : Part.HandedBack b p r) (running : p.busy = false) :
    r.busy = false := by
  rw [Part.busy, h.ps]
  exact running

/-- R16: the outcome of a single hold goes to the slot manager once the hold has ended. -/
theorem exec_single {s : State} {b : Slot} {low : Bool} {h : Hold} {c : Instr} {o : LinkOutcome} (normal : s.part.Normal)
    (holds : s.part.HoldsSingle b h) (ends : EndsOperation b low h c o ∨ EndsResponse b low h c o) :
    exec c s = s.after ((s.part.handedBack b o low).slotOutcome b o) := by
  rw [exec_ends holds.link (.inr (lineOn_of_present normal.awake holds.present)) ends, judged_present holds.present,
    deliverOutcome_single (by exact holds.link) holds.single]
  rfl

/-! ## The outcomes of the slot manager's operations (R26, R29, R39, R43) -/

theorem slotOutcome_probe {p : Part} {i : Slot} (running : p.busy = false) (state : (p.slot i).state = .linkLost)
    (o : LinkOutcome) : p.slotOutcome i o = p.probeOutcome i o := by
  unfold Part.slotOutcome
  rw [if_neg (by simp [running]), state]

theorem slotOutcome_reverifyChallenged {p : Part} {i : Slot} (running : p.busy = false)
    (state : (p.slot i).state = .reverify) (r : Quad) : p.slotOutcome i (.challenged r) = p.reverifyChallenged i r := by
  unfold Part.slotOutcome
  rw [if_neg (by simp [running]), state]

theorem slotOutcome_reverifyRead {p : Part} {i : Slot} (running : p.busy = false)
    (state : (p.slot i).state = .reverify) (t : Nat) : p.slotOutcome i (.tallyRead t) = p.reverifyRead i t := by
  unfold Part.slotOutcome
  rw [if_neg (by simp [running]), state]

/-- R43: a failed probe. -/
theorem probeOutcome_failed {o : LinkOutcome} (failure : o.isFailure = true) (p : Part) (i : Slot) :
    p.probeOutcome i o = p.updSlot i fun r => { r with timer := .probe } := by
  cases o with
  | noResponse | checkError | malformed | refused => rfl
  | tallyFull | identified _ | challenged _ | tallyRead _ | advanced _ _ => cases failure

/-- R39: the row of a slot whose reverify CHALLENGE has been answered. -/
def SlotRow.answered (r : SlotRow) (response : Quad) : SlotRow :=
  { r with nonce := r.candidate, candidate := none, response := some response, stage := .readTally, attempts := 0 }

/-- R39 step 2: the slot joins for a READ_TALLY. -/
theorem reverifyChallenged_joins {p : Part} {i : Slot} (link : p.link i = .none) (u : p.Unlisted i) (response : Quad) :
    (p.reverifyChallenged i response).slot i = (p.slot i).answered response ∧
      ((p.reverifyChallenged i response).commit i).count = 0 ∧ (p.reverifyChallenged i response).Joined i .readTally := by
  have joins : p.reverifyChallenged i response =
      ((p.updSlot i fun r => r.answered response).updCommit i fun r => { r with count := 0 }).joinBringUp i .readTally := rfl
  have none : ((p.updSlot i fun r => r.answered response).updCommit i fun r => { r with count := 0 }).link i = .none := link
  rw [joins]
  refine ⟨?_, ?_, (joinBringUp_awaits _ none (u.of_lp rfl)).joined⟩
  · rw [joinBringUp_slot _ none]
    exact updSlot_slot_self p i fun r => r.answered response
  · rw [((joinBringUp_flushes _ none).rows i).count, updCommit_commit_self]

/-- R43: the row of a slot whose probe leads back to its reverify. -/
def SlotRow.resumed (r : SlotRow) : SlotRow :=
  { r with state := .reverify, reverifyOpen := false, timer := .stopped, attempts := 0 }

theorem resumeReverify_slot (p : Part) (i : Slot) : (p.resumeReverify i).slot i = (p.slot i).resumed := by
  rw [Part.resumeReverify, reportSlot_slot]
  exact updSlot_slot_self p i _

theorem resumeReverify_aside {p : Part} {i : Slot} (u : p.Unlisted i) : Part.Aside i p (p.resumeReverify i) := by
  have row : (p.updSlot i SlotRow.resumed).slot i = (p.slot i).resumed := updSlot_slot_self p i _
  exact (updSlot_aside i p i _).trans
    (reportSlot_aside (p := p.updSlot i SlotRow.resumed) (by rw [row]; exact SlotState.noConfusion) (u.of_lp rfl))

/-- R29, R39: the check that a slot's values call for. -/
theorem queueChallengeCheck_waits {p : Part} {i : Slot} {key nonce r : Quad} {id : Identity} (has : (p.slot i).key = some key)
    (drew : (p.slot i).nonce = some nonce) (is : (p.slot i).identity = some id) (said : (p.slot i).response = some r) (t : Nat) :
    (p.queueChallengeCheck i t).DigestWaits (.slot i) (.challengeCheck key nonce id.serial t r) := by
  unfold Part.queueChallengeCheck
  extract_lets row
  unfold row
  rw [has, drew, is, said]
  exact queueDigest_waits p _ _

/-- R39 step 3: the tally read is kept, and the check is asked for. -/
theorem reverifyRead_waits {p : Part} {i : Slot} {key nonce r : Quad} {id : Identity} (has : (p.slot i).key = some key)
    (drew : (p.slot i).nonce = some nonce) (is : (p.slot i).identity = some id) (said : (p.slot i).response = some r) (t : Nat) :
    (p.reverifyRead i t).slot i = { p.slot i with reverifyTally := some t, stage := .check } ∧
      (p.reverifyRead i t).DigestWaits (.slot i) (.challengeCheck key nonce id.serial t r) := by
  have row : (p.updSlot i fun r => { r with reverifyTally := some t, stage := .check }).slot i =
      { p.slot i with reverifyTally := some t, stage := .check } := updSlot_slot_self p i _
  refine ⟨(queueDigest_slot _ _ _ i).trans row, queueChallengeCheck_waits ?_ ?_ ?_ ?_ t⟩ <;> rw [row] <;> assumption

theorem probeOutcome_read (p : Part) (i : Slot) (t : Nat) : p.probeOutcome i (.tallyRead t) =
    if (p.slot i).reverifyOpen then (p.resumeReverify i).reverifyRead i t else (p.compareTally i t).returnToService i := rfl

/-! ## A slot that does not become commit-due (R124) -/

/-- Between `p` and `q` the slot's duty to commit does not grow. -/
structure Part.Wanes (i : Slot) (p q : Part) : Prop where
  serviceable : q.serviceable i = true → p.serviceable i = true
  power : q.ps = p.ps
  quantum : q.ce.quantum = p.ce.quantum
  uncommitted : (q.commit i).uncommitted = (p.commit i).uncommitted
  flushing : (q.commit i).flushing = true → (p.commit i).flushing = true

theorem Part.Wanes.trans {i : Slot} {p q r : Part} (h : Part.Wanes i p q) (k : Part.Wanes i q r) : Part.Wanes i p r :=
  ⟨h.serviceable ∘ k.serviceable, k.power.trans h.power, k.quantum.trans h.quantum, k.uncommitted.trans h.uncommitted,
    h.flushing ∘ k.flushing⟩

theorem Part.Wanes.refl (i : Slot) (p : Part) : Part.Wanes i p p := ⟨id, rfl, rfl, rfl, id⟩

theorem Part.Wanes.due {i : Slot} {p q : Part} (h : Part.Wanes i p q) (due : q.commitDue i = true) : p.commitDue i = true := by
  simp only [Part.commitDue, Part.asleep, h.power, h.quantum, h.uncommitted, Bool.and_eq_true, Bool.or_eq_true] at due ⊢
  exact ⟨h.serviceable due.1, due.2.imp_right fun flush => ⟨⟨h.flushing flush.1.1, flush.1.2⟩, flush.2⟩⟩

/-- Work that leaves slots and settings and of the slot's row ends the flush at most. -/
theorem Part.Acts.wanes {t : Views} {p q : Part} {i : Slot} (h : Part.Acts t p q)
    (row : q.commit i = p.commit i ∨ q.commit i = (p.commit i).unflushed)
    (k : t (.slot i) = false ∧ t .commitSettings = false := by exact ⟨rfl, rfl⟩)
    (ps : powerViews.all (fun v => !t v) = true := by rfl) : Part.Wanes i p q := by
  have slot : q.slot i = p.slot i := (h.same (.slot i) k.1).symm
  refine ⟨fun serves => ?_, h.ps_eq ps, (h.same .commitSettings k.2).1.symm, ?_, fun flush => ?_⟩
  · rw [Part.serviceable, slot] at serves
    rcases row with e | e <;> rw [e] at serves <;> exact serves
  · rcases row with e | e <;> rw [e]
    rfl
  · rcases row with e | e <;> rw [e] at flush
    · exact flush
    · cases flush

theorem wanes_of_links (p : Part) (i : Slot) (l : LinkPool) : Part.Wanes i p { p with lp := l } := ⟨id, rfl, rfl, rfl, id⟩

theorem examineFlush_wanes (p : Part) (i j : Slot) : Part.Wanes j p (p.examineFlush i) := by
  refine (examineFlush_acts p i).wanes ?_
  have ended : ∀ cause, (p.endFlush i cause).commit j = p.commit j ∨ (p.endFlush i cause).commit j = (p.commit j).unflushed :=
    fun cause => by
      rw [endFlush_commit]
      split
      · exact .inr (by rw [(‹_ ∧ _› : j = i ∧ _).1])
      · exact .inl rfl
  unfold Part.examineFlush
  split
  · exact ended _
  · split
    · exact ended _
    · exact .inl rfl

theorem testPlace_wanes (p : Part) (i j : Slot) : Part.Wanes j p (p.testPlace i) :=
  (testPlace_acts p i).wanes (.inl (congrArg (fun e : CommitEngine => e.rows[j]) (testPlace_ce p i)))

theorem releaseReport_wanes (p : Part) (i j : Slot) : Part.Wanes j p (p.releaseReport i) :=
  (examineFlush_wanes p i j).trans (testPlace_wanes _ i j)

theorem openCommitHold_wanes (p : Part) (i j : Slot) : Part.Wanes j p (p.openCommitHold i) := by
  rcases openCommitHold_cases p i with ⟨op, e⟩ | e <;> rw [e]
  · exact wanes_of_links p j _
  · exact (wanes_of_links p j _).trans (releaseReport_wanes _ i j)

theorem openSingleHold_wanes (p : Part) (i j : Slot) : Part.Wanes j p (p.openSingleHold i) := by
  unfold Part.openSingleHold
  split
  · exact wanes_of_links p j _
  all_goals exact .refl j p

theorem takeHeadOfList_wanes (p : Part) (j : Slot) : Part.Wanes j p p.takeHeadOfList := by
  unfold Part.takeHeadOfList
  split
  · exact (wanes_of_links p j _).trans (openSingleHold_wanes _ _ j)
  · split
    · exact (wanes_of_links p j _).trans (openCommitHold_wanes _ _ j)
    · exact .refl j p

theorem takeUpTo_wanes (n : Nat) (p : Part) (j : Slot) : Part.Wanes j p (Part.takeUpTo n p) := by
  induction n generalizing p with
  | zero => exact .refl j p
  | succ n ih =>
    unfold Part.takeUpTo
    split
    · exact (takeHeadOfList_wanes p j).trans (ih _)
    · exact .refl j p

theorem placeDeferred_wanes (p : Part) (i : Slot) (d : Option LinkOp) (j : Slot) : Part.Wanes j p (p.placeDeferred i d) := by
  cases d <;> exact wanes_of_links p j _

theorem endHold_wanes (p : Part) (i j : Slot) : Part.Wanes j p (p.endHold i) := by
  unfold Part.endHold
  split
  · exact (placeDeferred_wanes p i _ j).trans ((releaseReport_wanes _ i j).trans (takeUpTo_wanes _ _ j))
  all_goals exact .refl j p

theorem continueHold_wanes (p : Part) (i : Slot) (success : Bool) (j : Slot) : Part.Wanes j p (p.continueHold i success) := by
  unfold Part.continueHold
  split
  · split
    · exact wanes_of_links p j _
    · exact endHold_wanes p i j
  all_goals exact .refl j p

/-! ## A commit hold that has sent no frame (R126) -/

/-- The slot holds an engine for a commit hold that has sent no ADVANCE_TALLY and defers no join. -/
def Part.Opened (p : Part) (i : Slot) : Prop := ∃ op phase, p.link i = .held ⟨true, op, phase, 0, none⟩

theorem Part.Opened.keep {p q : Part} {i : Slot} (h : p.Opened i) (link : q.link i = p.link i) : q.Opened i := by
  obtain ⟨op, phase, held⟩ := h
  exact ⟨op, phase, link.trans held⟩

/-- R126: a slot that is due opens its hold. -/
theorem openCommitHold_opens {p : Part} {i : Slot} (due : p.commitDue i = true) : (p.openCommitHold i).Opened i := by
  have serves : p.serviceable i = true := by
    rw [Part.commitDue, Bool.and_eq_true] at due
    exact due.1
  have awake : p.asleep = false := by
    cases e : p.asleep with
    | false => rfl
    | true => rw [commitDue_asleep e] at due; cases due
  unfold Part.openCommitHold
  split
  · exact ⟨_, _, Part.setLink_link_self p i _⟩
  · rename_i settled
    rw [if_pos (by simp [Part.asksAdvance, serves, awake, due, not_not.1 settled])]
    exact ⟨_, _, Part.setLink_link_self p i _⟩

/-- The engines' takes leave the hold of a slot that is due after them as one that has sent no frame. -/
theorem takeHeadOfList_opened {p : Part} {i : Slot} (h : p.Opened i) (due : p.takeHeadOfList.commitDue i = true) :
    p.takeHeadOfList.Opened i := by
  have was := (takeHeadOfList_wanes p i).due due
  unfold Part.takeHeadOfList
  split
  · rename_i j rest _
    by_cases e : i = j
    · subst e
      refine Part.Opened.keep (p := p) h ?_
      obtain ⟨op, phase, held⟩ := h
      unfold Part.openSingleHold
      split
      · rename_i waits
        exact absurd (waits.symm.trans held) LinkState.noConfusion
      all_goals rfl
    · exact h.keep (openSingleHold_aside e _).link
  · split
    · rename_i j rest _
      by_cases e : i = j
      · subst e
        exact openCommitHold_opens (p := { p with lp := { p.lp with commit := rest } }) was
      · exact h.keep (openCommitHold_aside e _).link
    · exact h

theorem takeUpTo_opened {i : Slot} (n : Nat) {p : Part} (h : p.Opened i) (due : (Part.takeUpTo n p).commitDue i = true) :
    (Part.takeUpTo n p).Opened i := by
  induction n generalizing p with
  | zero => exact h
  | succ n ih =>
    unfold Part.takeUpTo at due ⊢
    split at due
    · rw [if_pos ‹_›]
      exact ih (takeHeadOfList_opened h ((takeUpTo_wanes n _ i).due due)) due
    · rw [if_neg ‹_›]
      exact h

theorem testCommit_opened {p : Part} {i : Slot} (h : p.Opened i) (due : (p.testCommit i).commitDue i = true) :
    (p.testCommit i).Opened i := by
  refine takeUpTo_opened _ (h.keep ?_) due
  obtain ⟨op, phase, held⟩ := h
  unfold Part.testPlace Part.placeCommit
  rw [held]
  split <;> exact held

/-! ## The READ_TALLY that opens a commit hold (R123, R126) -/

theorem unitsApplied_opened {p : Part} {i : Slot} {tally : Nat} (h : p.Opened i)
    (due : (p.unitsApplied i tally).commitDue i = true) : (p.unitsApplied i tally).Opened i := by
  rw [unitsApplied_eq] at due ⊢
  refine testCommit_opened (h.keep ?_) due
  have counted : Part.link (p.unitsCounted i tally) i = p.link i := ((changeLinkedEntry_acts _ i _).same (.link i) rfl).symm
  rw [← show Part.link _ i = _ from (examineFlush_acts _ i).same (.link i) rfl,
    ← show Part.link _ i = _ from (recordCommit_acts _ i).same (.link i) rfl, counted]

theorem setInDoubt_link (p : Part) (i : Slot) (n : Nat) : (p.setInDoubt i n).link i = p.link i :=
  ((setInDoubt_acts p i n).same (.link i) rfl).symm

/-- R71: a slot to which a disagreeing tally has been handed commits no more. -/
theorem escalateRegressed_idle (p : Part) (i : Slot) : (p.escalate i .regressed).commitDue i = false := by
  have idle : ((p.escalate i .regressed).slot i).allowsCommits = false := by
    cases verdict : (p.slot i).verdict with
    | none =>
      have refused : p.escalate i .regressed = p := escalate_refused fun v h => absurd (verdict.symm.trans h) nofun
      rw [refused, SlotRow.allowsCommits, verdict]
    | some now =>
      by_cases forward : escalates now .regressed = true
      · rw [(escalate_escalated verdict forward).slot]
        rfl
      · have refused : p.escalate i .regressed = p := escalate_refused fun v h => by
          rw [verdict] at h
          exact Option.some.inj h ▸ Bool.eq_false_iff.2 forward
        rw [refused, SlotRow.allowsCommits, verdict]
        revert forward
        cases now <;> decide
  rw [Part.commitDue, Part.serviceable, idle, Bool.and_false, Bool.false_and, Bool.false_and]

/-- R123: the three rows of the resolution. -/
theorem resolveInDoubt_cases (p : Part) (i : Slot) (tally : Nat) :
    tally = p.committedTally i + (p.commit i).inDoubt ∧ p.resolveInDoubt i tally = p.unitsApplied i tally ∨
      tally = p.committedTally i ∧ p.resolveInDoubt i tally = (p.setInDoubt i 0).testCommit i ∨
      p.resolveInDoubt i tally = (p.setInDoubt i 0).escalate i .regressed := by
  unfold Part.resolveInDoubt
  split
  · exact .inl ⟨‹_›, rfl⟩
  · split
    · exact .inr (.inl ⟨‹_›, rfl⟩)
    · exact .inr (.inr rfl)

/-- R123, R126: a slot that is due once its units in doubt are resolved has resolved them, and its hold may go on. -/
theorem resolveInDoubt_opened {p : Part} {i : Slot} {tally : Nat} (h : p.Opened i) (doubt : (p.commit i).inDoubt ≠ 0)
    (due : (p.resolveInDoubt i tally).commitDue i = true) :
    p.resolves i tally = true ∧ (p.resolveInDoubt i tally).Opened i := by
  rcases resolveInDoubt_cases p i tally with ⟨agrees, e⟩ | ⟨agrees, e⟩ | e <;> rw [e] at due ⊢
  · exact ⟨by simp [Part.resolves, doubt, agrees], unitsApplied_opened h due⟩
  · exact ⟨by simp [Part.resolves, doubt, agrees], testCommit_opened (h.keep (setInDoubt_link p i 0)) due⟩
  · rw [escalateRegressed_idle] at due
    cases due

/-- R126: the hold goes on with an ADVANCE_TALLY. -/
theorem continueHold_advances {p : Part} {i : Slot} (h : p.Opened i) (due : p.commitDue i = true)
    (settled : (p.commit i).inDoubt = 0) (supply : p.ps.supplyLow = false) (normal : p.Normal) :
    (p.continueHold i true).link i = .held ⟨true, .advance (p.advanceSize i), .ready, 0, none⟩ ∧
      (p.continueHold i true).advanceSize i = p.advanceSize i := by
  obtain ⟨op, phase, held⟩ := h
  have serves : p.serviceable i = true := by
    rw [Part.commitDue, Bool.and_eq_true] at due
    exact due.1
  have goes : p.continueHold i true = p.setLink i (.held ⟨true, .advance (p.advanceSize i), .ready, 0, none⟩) := by
    unfold Part.continueHold
    rw [held]
    simp [Part.asksAdvance, serves, settled, normal.awake, normal.running, due, supply]
  rw [goes]
  exact ⟨Part.setLink_link_self p i _, rfl⟩

/-- The part in which the units in doubt are resolved and the link has answered. -/
def Part.readResolved (p : Part) (i : Slot) (tally : Nat) : Part := (p.resolveInDoubt i tally).linkSucceeded i

theorem openingRead_doubt {p : Part} {i : Slot} (doubt : (p.commit i).inDoubt ≠ 0) (tally : Nat) :
    p.openingRead i tally = (p.readResolved i tally).continueHold i (p.resolves i tally) := by
  unfold Part.openingRead
  extract_lets resolved q
  have resolves : q = p.resolveInDoubt i tally := if_neg doubt
  rw [resolves]
  rfl

theorem readResolved_slot (p : Part) (i : Slot) (tally : Nat) :
    (p.readResolved i tally).slot i = { (p.resolveInDoubt i tally).slot i with linkFailures := 0 } := updSlot_slot_self _ i _

theorem readResolved_wanes (p : Part) (i : Slot) (tally : Nat) :
    Part.Wanes i (p.resolveInDoubt i tally) (p.readResolved i tally) := by
  refine ⟨fun serves => ?_, rfl, rfl, rfl, id⟩
  rw [Part.serviceable, readResolved_slot] at serves
  exact serves

theorem openingRead_settles {p : Part} {i : Slot} (doubt : (p.commit i).inDoubt ≠ 0) (tally : Nat) :
    p.TallySettled (p.openingRead i tally) i tally ∧ ((p.openingRead i tally).slot i).linkFailures = 0 := by
  have resolved := resolveInDoubt_settles doubt tally
  have answered : Part.KeepsTally i (p.resolveInDoubt i tally) (p.readResolved i tally) :=
    ⟨.refl _, by rw [readResolved_slot], rfl, fun _ => rfl, id⟩
  rw [openingRead_doubt doubt]
  have goes := continueHold_acts (p.readResolved i tally) i (p.resolves i tally)
  refine ⟨resolved.keep (answered.trans (goes.keepsTally i ((continueHold_flushes _ i _).sameWork i))), ?_⟩
  rw [← show Part.slot _ i = _ from goes.same (.slot i) rfl, readResolved_slot]

theorem openingRead_advances {p : Part} {i : Slot} {tally : Nat} (h : p.Opened i) (doubt : (p.commit i).inDoubt ≠ 0)
    (supply : p.ps.supplyLow = false) (normal : p.Normal) (due : (p.openingRead i tally).commitDue i = true) :
    (p.openingRead i tally).link i =
      .held ⟨true, .advance ((p.openingRead i tally).advanceSize i), .ready, 0, none⟩ := by
  rw [openingRead_doubt doubt] at due ⊢
  have ready := (continueHold_wanes _ i _ i).due due
  obtain ⟨resolves, opened⟩ := resolveInDoubt_opened h doubt ((readResolved_wanes p i tally).due ready)
  have ps : (p.readResolved i tally).ps = p.ps := (resolveInDoubt_acts p i tally).ps_eq
  rw [resolves]
  obtain ⟨link, size⟩ := continueHold_advances (p := p.readResolved i tally) (opened.keep rfl) ready
    (resolveInDoubt_settles doubt tally).units (by rw [ps]; exact supply)
    ⟨by rw [Part.busy, ps]; exact normal.running, by rw [Part.asleep, ps]; exact normal.awake⟩
  rw [link, size]

/-! ## The responses, as commands (R26, R29, R39, R43) -/

/-- R43: a failed probe starts the probe timer again. -/
theorem probe_fails {s : State} {b : Slot} {low : Bool} {h : Hold} {c : Instr} {o : LinkOutcome} (normal : s.part.Normal)
    (holds : s.part.HoldsSingle b h) (state : (s.part.slot b).state = .linkLost)
    (ends : EndsOperation b low h c o ∨ EndsResponse b low h c o) (failure : o.isFailure = true) :
    Completes c s (.ofCommand c) fun q => q.slot b = { s.part.slot b with timer := .probe } := by
  have run := exec_single normal holds ends
  have back := handedBack_back holds o low
  generalize s.part.handedBack b o low = r at *
  rw [slotOutcome_probe (back.running normal.running) (by rw [back.slot]; exact state), probeOutcome_failed failure] at run
  refine completes_after run ?_
  rw [finish_slot, updSlot_slot_self, back.slot]

theorem identify_succeeds {s : State} {b : Slot} {low : Bool} {h : Hold} {c : Instr} {id : Identity} (normal : s.part.Normal)
    (holds : s.part.HoldsSingle b h) (state : (s.part.slot b).state = .identify) (ends : EndsResponse b low h c (.identified id)) :
    Completes c s (.ofCommand c) fun q =>
      q.slot b = { s.part.slot b with identity := some id, attempts := 0, state := .derive } ∧
        q.DigestWaits (.slot b) (.derive (keyGeneration id.batch) id.serial id.batch) := by
  have run := exec_single normal holds (.inr ends)
  have back := handedBack_back holds (.identified id) low
  generalize s.part.handedBack b _ low = r at *
  rw [slotOutcome_identified (back.running normal.running) (by rw [back.slot]; exact state)] at run
  obtain ⟨row, waits⟩ := identified_slot r b id
  exact completes_after run ⟨by rw [finish_slot, row, back.slot], finish_digestWaits waits⟩

theorem challenge_succeeds {s : State} {b : Slot} {low : Bool} {h : Hold} {c : Instr} {key nonce r : Quad} {id : Identity}
    (normal : s.part.Normal) (holds : s.part.HoldsSingle b h) (state : (s.part.slot b).state = .challenge)
    (has : (s.part.slot b).key = some key) (drew : (s.part.slot b).nonce = some nonce)
    (is : (s.part.slot b).identity = some id) (ends : EndsResponse b low h c (.challenged r)) :
    Completes c s (.ofCommand c) fun q =>
      q.slot b = { s.part.slot b with response := some r, state := .check } ∧
        q.DigestWaits (.slot b) (.challengeCheck key nonce id.serial id.tally r) := by
  have run := exec_single normal holds (.inr ends)
  have back := handedBack_back holds (.challenged r) low
  generalize s.part.handedBack b _ low = p at *
  rw [slotOutcome_challenged (back.running normal.running) (by rw [back.slot]; exact state)] at run
  rw [← back.slot] at has drew is
  obtain ⟨row, waits⟩ := challenged_slot r has drew is
  exact completes_after run ⟨by rw [finish_slot, row, back.slot], finish_digestWaits waits⟩

/-- R39 step 2, R43: the CHALLENGE of a reverify, or of a probe that leads back to it. -/
theorem reverifyChallenge_succeeds {s : State} {b : Slot} {low : Bool} {h : Hold} {c : Instr} {r : Quad}
    (normal : s.part.Normal) (holds : s.part.HoldsSingle b h) (u : s.part.Unlisted b)
    (ends : EndsResponse b low h c (.challenged r)) :
    ((s.part.slot b).state = .reverify → Completes c s (.ofCommand c) fun q =>
      q.slot b = (s.part.slot b).answered r ∧ (q.commit b).count = 0 ∧ q.Joined b .readTally) ∧
    ((s.part.slot b).state = .linkLost → Completes c s (.ofCommand c) fun q =>
      q.slot b = (s.part.slot b).resumed.answered r ∧ (q.commit b).count = 0 ∧ q.Joined b .readTally) := by
  have run := exec_single normal holds (.inr ends)
  have back := handedBack_back holds (.challenged r) low
  generalize s.part.handedBack b _ low = p at *
  constructor <;> intro state
  · obtain ⟨link, off⟩ := back.freed (by rw [state]; exact SlotState.noConfusion) u
    rw [slotOutcome_reverifyChallenged (back.running normal.running) (by rw [back.slot]; exact state)] at run
    obtain ⟨row, count, joined⟩ := reverifyChallenged_joins link off r
    refine completes_after run ⟨by rw [finish_slot, row, back.slot], ?_, joined.finish _⟩
    rw [((finish_ebbs s.part _).rows b).count, count]
  · obtain ⟨link, off⟩ := back.freed (by rw [state]; exact SlotState.noConfusion) u
    have aside := resumeReverify_aside off
    rw [slotOutcome_probe (back.running normal.running) (by rw [back.slot]; exact state)] at run
    obtain ⟨row, count, joined⟩ := reverifyChallenged_joins (aside.link.trans link) (aside.unlisted off) r
    refine completes_after run ⟨?_, ?_, joined.finish _⟩
    · exact (finish_slot _ _ _).trans (row.trans (by rw [resumeReverify_slot, back.slot]))
    · exact ((finish_ebbs s.part _).rows b).count.trans count

/-- R39 step 3, R43: the READ_TALLY of a reverify, or of a probe that leads back to it. -/
theorem reverifyRead_succeeds {s : State} {b : Slot} {low : Bool} {h : Hold} {c : Instr} {key nonce r : Quad} {id : Identity}
    {t : Nat} (normal : s.part.Normal) (holds : s.part.HoldsSingle b h) (has : (s.part.slot b).key = some key)
    (drew : (s.part.slot b).nonce = some nonce) (is : (s.part.slot b).identity = some id)
    (said : (s.part.slot b).response = some r) (ends : EndsResponse b low h c (.tallyRead t)) :
    ((s.part.slot b).state = .reverify → Completes c s (.ofCommand c) fun q =>
      q.slot b = { s.part.slot b with reverifyTally := some t, stage := .check } ∧
        q.DigestWaits (.slot b) (.challengeCheck key nonce id.serial t r)) ∧
    ((s.part.slot b).state = .linkLost → (s.part.slot b).reverifyOpen = true → Completes c s (.ofCommand c) fun q =>
      q.slot b = { (s.part.slot b).resumed with reverifyTally := some t, stage := .check } ∧
        q.DigestWaits (.slot b) (.challengeCheck key nonce id.serial t r)) := by
  have run := exec_single normal holds (.inr ends)
  have back := handedBack_back holds (.tallyRead t) low
  generalize s.part.handedBack b _ low = p at *
  constructor
  · intro state
    rw [slotOutcome_reverifyRead (back.running normal.running) (by rw [back.slot]; exact state)] at run
    rw [← back.slot] at has drew is said
    obtain ⟨row, waits⟩ := reverifyRead_waits has drew is said t
    exact completes_after run ⟨by rw [finish_slot, row, back.slot], finish_digestWaits waits⟩
  · intro state isOpen
    rw [slotOutcome_probe (back.running normal.running) (by rw [back.slot]; exact state), probeOutcome_read,
      if_pos (by rw [back.slot]; exact isOpen)] at run
    have resumed := resumeReverify_slot p b
    rw [back.slot] at resumed
    obtain ⟨row, waits⟩ := reverifyRead_waits (p := p.resumeReverify b) (by rw [resumed]; exact has)
      (by rw [resumed]; exact drew) (by rw [resumed]; exact is) (by rw [resumed]; exact said) t
    exact completes_after run ⟨by rw [finish_slot, row, resumed], finish_digestWaits waits⟩

/-- R43: a probe's READ_TALLY without a reverify open settles the tally and returns the slot to service. -/
theorem probeRead_succeeds {s : State} {b : Slot} {low : Bool} {h : Hold} {c : Instr} {t : Nat} (normal : s.part.Normal)
    (holds : s.part.HoldsSingle b h) (state : (s.part.slot b).state = .linkLost)
    (shut : (s.part.slot b).reverifyOpen = false) (unfolded : s.part.hs.foldAtWrite = false)
    (ends : EndsResponse b low h c (.tallyRead t)) : Completes c s (.ofCommand c) fun q =>
      s.part.TallySettled q b t ∧ (q.slot b).state = .inService ∧ (q.slot b).timer = .stopped ∧
        (q.slot b).stage = .none ∧ (q.slot b).linkFailures = 0 ∧ (q.commit b).linkLost = false := by
  have run := exec_single normal holds (.inr ends)
  have back := handedBack_back holds (.tallyRead t) low
  generalize s.part.handedBack b _ low = p at *
  rw [slotOutcome_probe (back.running normal.running) (by rw [back.slot]; exact state), probeOutcome_read,
    if_neg (by rw [back.slot, shut]; exact Bool.noConfusion)] at run
  have plain : ((p.compareTally b t).returnToService b).hs.foldAtWrite = false := by
    rw [← show (Part.hs _).foldAtWrite = _ from (returnToService_acts _ b).same .foldAtWrite rfl,
      ← show (Part.hs _).foldAtWrite = _ from (compareTally_acts p b t).same .foldAtWrite rfl, back.folds]
    exact unfolded
  have settled := ((compareTally_settles p b t).before (back.flushes.sameWork b) (congrArg SlotRow.verdict back.slot)
    back.linkedPlace back.place).keep ((returnToService_keepsTally _ b).trans (finish_keepsTally s.part plain b))
  refine completes_after run ⟨settled, ?_⟩
  rw [finish_slot, returnToService_slot, finish_commit_plain _ plain, returnToService_linkLost]
  exact ⟨rfl, rfl, rfl, rfl, rfl⟩

/-- R123, R126: the READ_TALLY that opens a commit hold. -/
theorem openingRead_succeeds {s : State} {b : Slot} {low : Bool} {h : Hold} {c : Instr} {t : Nat} (normal : s.part.Normal)
    (link : s.part.link b = .held h) (commit : h.commit = true) (present : (s.part.bay b).presence = .present)
    (doubt : (s.part.commit b).inDoubt ≠ 0) (unfolded : s.part.hs.foldAtWrite = false)
    (ends : EndsResponse b low h c (.tallyRead t)) : Completes c s (.ofCommand c) fun q =>
      s.part.TallySettled q b t ∧ (q.slot b).linkFailures = 0 ∧
      (h.frames = 0 → h.deferred = none → s.part.ps.supplyLow = false → q.commitDue b = true →
        q.link b = .held { h with op := .advance (q.advanceSize b), phase := .ready }) := by
  have run := exec_ends link (.inr (lineOn_of_present normal.awake present)) (.inr ends)
  rw [judged_present present, deliverOutcome_commit (by exact link) commit] at run
  generalize framed : s.part.frameEnds b _ = p at run
  change exec c s = s.after (p.openingRead b t) at run
  have doubted : (p.commit b).inDoubt ≠ 0 := by rw [← framed]; exact doubt
  have plain : (p.openingRead b t).hs.foldAtWrite = false := by
    rw [← show (Part.hs _).foldAtWrite = _ from (openingRead_acts p b t).same .foldAtWrite rfl, ← framed]
    exact unfolded
  obtain ⟨settled, failures⟩ := openingRead_settles doubted t
  have wanes : Part.Wanes b (p.openingRead b t) (Part.finish s.part (p.openingRead b t)) :=
    (finish_acts_plain s.part _ plain).wanes (.inl (finish_commit_plain _ plain b))
  refine completes_after run ⟨?_, ?_, fun fresh alone supply due => ?_⟩
  · refine (settled.keep (finish_keepsTally s.part plain b)).before ?_ ?_ ?_ fun k => ?_ <;> rw [← framed]
    · exact .refl _
    all_goals rfl
  · rw [finish_slot, failures]
  · have opened : p.Opened b := ⟨h.op, h.phase, by
      rw [← framed, ← commit, ← fresh, ← alone]
      exact link⟩
    have kept : p.Normal := by rw [← framed]; exact ⟨normal.running, normal.awake⟩
    have size : (Part.finish s.part (p.openingRead b t)).advanceSize b = (p.openingRead b t).advanceSize b := by
      rw [Part.advanceSize, finish_commit_plain _ plain]
      rfl
    rw [finish_link, size, openingRead_advances opened doubted (by rw [← framed]; exact supply) kept (wanes.due due), commit,
      fresh, alone]

/-- Settles O21: the responses one by one. -/
theorem responsesMoveTheSlotOn : Obligations.ResponsesMoveTheSlotOn := by
  refine ⟨fun b low s h c o normal holds state ends failure => probe_fails normal holds state ends failure, ?_, ?_⟩
  · intro b low s h status length crc payload normal holds phase full
    have challenged : ∀ {nonce r}, h.op = .challenge nonce → h.op.judge status length payload crc = .challenged r →
        EndsResponse b low h (.challenge b payload crc low) (.challenged r) := fun op judged =>
      judged ▸ .challenge status length crc payload _ phase op full
    have read : ∀ {t}, h.op = .readTally → h.op.judge status length payload crc = .tallyRead t →
        EndsResponse b low h (.readTally b payload crc low) (.tallyRead t) := fun op judged =>
      judged ▸ .readTally status length crc payload phase op full
    refine ⟨fun id op state judged => ?_, fun nonce key r id op state has drew is judged => ?_,
      fun nonce r op state u judged => ?_, fun nonce r op state u judged => ?_,
      fun t key nonce id r op has drew is said judged => ?_, fun t op state shut unfolded judged => ?_⟩
    · have ends : EndsResponse b low h (.identify b payload crc low) (.identified id) :=
        judged ▸ .identify status length crc payload phase op full
      exact identify_succeeds normal holds state ends
    · exact challenge_succeeds normal holds state has drew is (challenged op judged)
    · exact (reverifyChallenge_succeeds normal holds u (challenged op judged)).1 state
    · exact (reverifyChallenge_succeeds normal holds u (challenged op judged)).2 state
    · exact reverifyRead_succeeds normal holds has drew is said (read op judged)
    · exact probeRead_succeeds normal holds state shut unfolded (read op judged)
  · intro b low s h status length crc payload t normal link commit op present phase full judged doubt unfolded
    have ends : EndsResponse b low h (.readTally b payload crc low) (.tallyRead t) :=
      judged ▸ .readTally status length crc payload phase op full
    exact openingRead_succeeds normal link commit present doubt unfolded ends

end Sys2Proof.Machine

end

-- ==== BringUp: Recheck ====
section

/-! PROOFS. What the check of a reverify decides, and the answer to the REVERIFY parked with it (R40, R75). -/

set_option Elab.async false
namespace Sys2Proof.Machine
open Sys2Proof

/-! ## The answer that a REVERIFY gets (R40, 12.1) -/

/-- The cell is answered OK and names a verdict and a tally. -/
structure Part.Reverified (p : Part) (c : CellNo) (v : Option Verdict) (t : Nat) : Prop where
  answered : ∃ m, p.Answered c .ok m
  verdict : (p.argumentByte c 0).toNat = verdictCode v
  tally : p.argument c 2 2 = t

theorem Part.Reverified.finish {p : Part} {c : CellNo} {v : Option Verdict} {t : Nat} (h : p.Reverified c v t) (l : p.Loose c)
    (before : Part) : (Part.finish before p).Reverified c v t := by
  have same := (finish_ebbs before p).cells c l
  refine ⟨h.answered.imp fun _ a => a.finish l before, ?_, ?_⟩
  · rw [Part.argumentByte, same _ (by omega) (by omega)]
    exact h.verdict
  · rw [← h.tally, Part.argument, Part.argument, Part.readField, Part.readField,
      ← show p.port.bigEndian = _ from (finish_acts before p).same .byteOrder rfl]
    exact congrArg (fieldNumber _) (Memory.readBytes_congr _ _ _ _ fun a lo hi => same a (by omega) (by omega))

theorem verdictCode_lt (v : Option Verdict) : verdictCode v < 256 := by
  cases v with
  | none => decide
  | some v => cases v <;> decide

/-- The fields of the answer lie apart. -/
theorem reverifyFields_apart (v : Option Verdict) (t : Nat) : (reverifyFields v t).Pairwise Field.Apart := by
  simp [reverifyFields, Field.Apart]

theorem finishReverify_names {p : Part} {i : Slot} {c : CellNo} (parked : (p.slot i).parkedCell = some c)
    (wf : Memory.wf p.board = true) (l : p.Loose c) (v : Option Verdict) {t : Nat} (range : t < 65536) :
    (p.finishReverify i .ok (reverifyFields v t)).Reverified c v t ∧ (p.finishReverify i .ok (reverifyFields v t)).Loose c := by
  have ended : p.finishReverify i .ok (reverifyFields v t) =
      (p.updSlot i fun r => { r with parkedCell := none }).complete c .ok (reverifyFields v t) := by
    unfold Part.finishReverify
    rw [parked]
  obtain ⟨answered, loose⟩ := finishReverify_answered parked wf l .ok (reverifyFields v t)
  have data {f : Field} (hf : f ∈ reverifyFields v t) := complete_data (p := p.updSlot i fun r => { r with parkedCell := none })
    wf c .ok (reverifyFields_apart v t) hf
  rw [ended] at answered loose ⊢
  refine ⟨⟨answered, ?_, ?_⟩, loose⟩
  · have named := data (f := ⟨0, 1, verdictCode v⟩) (by simp [reverifyFields])
    rw [readField_one] at named
    exact named.trans (Nat.mod_eq_of_lt (verdictCode_lt v))
  · exact (data (f := ⟨2, 2, t⟩) (by simp [reverifyFields])).trans (Nat.mod_eq_of_lt range)

/-! ## A mismatch (R40, R75) -/

theorem finishCounterfeit_answers {p : Part} {i : Slot} {c : CellNo} {t : Nat} (read : (p.slot i).reverifyTally = some t)
    (range : t < 65536) (parked : (p.slot i).parkedCell = some c) (wf : Memory.wf p.board = true) (l : p.Loose c) :
    (p.finishCounterfeit i).Reverified c (some .counterfeit) t ∧ (p.finishCounterfeit i).Loose c := by
  obtain ⟨none, -⟩ | ⟨n, e⟩ := finishCounterfeit_cases p i
  · exact absurd (none.symm.trans parked) nofun
  · have tally : p.counterfeitTally i = t := by
      rw [Part.counterfeitTally, read]
      rfl
    rw [e, tally]
    exact finishReverify_names (p := { p with free := { p.free with unreadTallies := n } }) parked wf ⟨l.flushes, l.settings⟩
      (some .counterfeit) range

/-- The parked REVERIFY of a slot that becomes COUNTERFEIT. -/
theorem escalateCounterfeit_answers {p : Part} {i : Slot} {c : CellNo} {now : Verdict} {t : Nat}
    (verdict : (p.slot i).verdict = some now) (served : now.class ≠ .rejected) (read : (p.slot i).reverifyTally = some t)
    (range : t < 65536) (parked : (p.slot i).parkedCell = some c) (wf : Memory.wf p.board = true) (l : p.Loose c) :
    (p.escalate i .counterfeit).Reverified c (some .counterfeit) t ∧ (p.escalate i .counterfeit).Loose c := by
  have spares := verdictReported_spares p i .counterfeit
  have row : (p.verdictReported i .counterfeit).slot i = ((p.slot i).moved .counterfeit).abandoned := by
    rw [(verdictReported_keeps p i .counterfeit).1, Part.verdictApplied, if_pos rfl, abandonSlotWork_slot, verdictMoved_slot]
  rw [escalate_carried verdict (escalates_counterfeit served), carryOutEscalation_eq, if_pos rfl]
  generalize p.verdictReported i .counterfeit = q at *
  exact finishCounterfeit_answers (by rw [row]; exact read) range (by rw [row]; exact parked) (spares.wf wf) (spares.loose l)

/-! ## A match (R40) -/

theorem escalateRegressed_spares (p : Part) (i : Slot) : Part.Spares p (p.escalate i .regressed) := by
  unfold Part.escalate
  split
  · split
    · rw [carryOutEscalation_eq, if_neg nofun]
      exact verdictReported_spares p i .regressed
    · exact (Part.Flushes.refl p).toSpares
  · exact (Part.Flushes.refl p).toSpares

theorem unitsApplied_spares (p : Part) (i : Slot) (tally : Nat) : Part.Spares p (p.unitsApplied i tally) := by
  have counted : Part.Spares p (p.unitsCounted i tally) :=
    (updCommit_spares rfl).trans (changeLinkedEntry_flushes _ i _).toSpares
  rw [unitsApplied_eq]
  exact counted.trans ((recordCommit_flushes _ i).trans
    ((examineFlush_flushes _ i).trans (testCommit_flushes _ i))).toSpares

theorem compareTally_spares (p : Part) (i : Slot) (tally : Nat) : Part.Spares p (p.compareTally i tally) := by
  unfold Part.compareTally
  split
  · rcases resolveInDoubt_cases p i tally with ⟨-, e⟩ | ⟨-, e⟩ | e <;> rw [e]
    · exact unitsApplied_spares p i tally
    · exact (setInDoubt_spares p i 0).trans (testCommit_flushes _ i).toSpares
    · exact (setInDoubt_spares p i 0).trans (escalateRegressed_spares _ i)
  · split
    · exact (Part.Flushes.refl p).toSpares
    · exact escalateRegressed_spares p i

theorem returnToService_spares (p : Part) (i : Slot) : Part.Spares p (p.returnToService i) := by
  have joined : Part.Spares (p.updSlot i SlotRow.returned) ((p.updSlot i SlotRow.returned).joinWindDown i) := by
    unfold Part.joinWindDown
    split
    · exact updCommit_spares rfl
    · exact (Part.Flushes.refl _).toSpares
  rw [returnToService_eq]
  exact (updSlot_flushes p i _).toSpares.trans (joined.trans (reportSlot_spares _ i))

/-- An escalation short of COUNTERFEIT leaves the parked request with its slot. -/
theorem compareTally_parked (p : Part) (i : Slot) (tally : Nat) :
    ((p.compareTally i tally).slot i).parkedCell = (p.slot i).parkedCell := by
  have escalated : ∀ q : Part, ((q.escalate i .regressed).slot i).parkedCell = (q.slot i).parkedCell := fun q => by
    unfold Part.escalate
    split
    · split
      · rw [(carryOutEscalation_escalated q i .regressed).slot]
        rfl
      · rfl
    · rfl
  unfold Part.compareTally
  split
  · rcases resolveInDoubt_cases p i tally with ⟨-, e⟩ | ⟨-, e⟩ | e <;> rw [e]
    · have counted : (p.unitsCounted i tally).slot i = p.slot i := ((changeLinkedEntry_acts _ i _).same (.slot i) rfl).symm
      rw [unitsApplied_eq, ← show Part.slot _ i = _ from (testCommit_acts _ i).same (.slot i) rfl,
        ← show Part.slot _ i = _ from (examineFlush_acts _ i).same (.slot i) rfl,
        ← show Part.slot _ i = _ from (recordCommit_acts _ i).same (.slot i) rfl, counted]
    · rw [← show Part.slot _ i = _ from (testCommit_acts _ i).same (.slot i) rfl, setInDoubt_slot]
    · rw [escalated, setInDoubt_slot]
  · split
    · rfl
    · exact escalated p

theorem reverifyChecked_matched {p : Part} {i : Slot} {t : Nat} (read : (p.slot i).reverifyTally = some t) :
    p.reverifyChecked i true = ((p.compareTally i t).returnToService i).finishReverify i .ok
      (reverifyFields (((p.compareTally i t).returnToService i).slot i).verdict t) := by
  unfold Part.reverifyChecked
  rw [if_pos rfl, read]
  rfl

theorem finishReverify_keepsTally (p : Part) (i : Slot) (v : Option Verdict) (t : Nat) :
    Part.KeepsTally i p (p.finishReverify i .ok (reverifyFields v t)) := by
  have acts := finishReverify_acts p i .ok _ (reverifyFields_fit v t)
  exact ⟨finishReverify_commit p i _ _ i ▸ .refl _, by rw [finishReverify_slot], (acts.same (.volumes i) rfl).symm,
    fun k => (acts.same (.place k) rfl).symm, acts.raised _⟩

/-! ## The check of a reverify, as a command -/

theorem exec_challengeCheck_reverify {s : State} {i : Slot} {key nonce serial response : Quad} {tally : Nat}
    (head : s.part.digestHead = some ⟨.slot i, .challengeCheck key nonce serial tally response⟩)
    (state : (s.part.slot i).state = .reverify) : exec .challengeCheck s =
      s.after (s.part.popDigest.reverifyChecked i (challengeMatches key nonce serial tally response)) := by
  show execChallengeCheck s = _
  unfold execChallengeCheck Part.challengeChecked
  rw [head]
  simp only [popDigest_slot, state]

theorem popDigest_flushes (p : Part) : Part.Flushes p p.popDigest := by
  unfold Part.popDigest
  split
  · exact .of_same rfl rfl rfl
  · exact .refl p

/-- R40, R75: the mismatch of a reverify. -/
theorem recheck_mismatches {s : State} {i : Slot} {key nonce serial response : Quad} {tally t : Nat} {now : Verdict}
    (head : s.part.digestHead = some ⟨.slot i, .challengeCheck key nonce serial tally response⟩)
    (state : (s.part.slot i).state = .reverify) (verdict : (s.part.slot i).verdict = some now) (served : now.class ≠ .rejected)
    (read : (s.part.slot i).reverifyTally = some t) (range : t < 65536) (unfolded : s.part.hs.foldAtWrite = false)
    (mismatched : challengeMatches key nonce serial tally response = false) :
    Completes .challengeCheck s (.ofCommand .challengeCheck) fun q =>
      (q.slot i).state = .rejected ∧ (q.slot i).verdict = some .counterfeit ∧ (q.slot i).response = none ∧
      (q.volumes i).low = false ∧ (q.volumes i).spent = false ∧
      (q.commit i).uncommitted = (s.part.commit i).uncommitted ∧ q.noticePending .verdict = true ∧
      (∀ k, q.place k = s.part.place k) ∧
      ∀ c, (s.part.slot i).parkedCell = some c → Memory.wf s.part.board = true → s.part.Loose c →
        (∃ m, q.Answered c .ok m) ∧ (q.argumentByte c 0).toNat = verdictCode (some .counterfeit) ∧ q.argument c 2 2 = t := by
  have run := exec_challengeCheck_reverify head state
  rw [mismatched, show s.part.popDigest.reverifyChecked i false = s.part.popDigest.escalate i .counterfeit from rfl] at run
  have popped : s.part.popDigest.slot i = s.part.slot i := popDigest_slot s.part i
  have escalated := escalate_escalated (p := s.part.popDigest) (by rw [popped]; exact verdict) (escalates_counterfeit served)
  have plain : (s.part.popDigest.escalate i .counterfeit).hs.foldAtWrite = false :=
    ((escalate_acts _ i _).same .foldAtWrite rfl).symm.trans (popDigest_unfolded unfolded)
  refine completes_after run ?_
  rw [finish_slot, finish_volumes, finish_commit_plain _ plain, escalated.slot, escalated.volumes,
    (escalated.work i).uncommitted, popDigest_commit]
  refine ⟨rfl, rfl, rfl, rfl, rfl, rfl, finish_notice escalated.notice, fun k => ?_, fun c parked wf l => ?_⟩
  · rw [finish_place_plain _ plain, escalated.forged rfl, popDigest_place]
  · have spares := (popDigest_flushes s.part).toSpares
    obtain ⟨named, loose⟩ := escalateCounterfeit_answers (p := s.part.popDigest) (by rw [popped]; exact verdict) served
      (by rw [popped]; exact read) range (by rw [popped]; exact parked) (spares.wf wf) (spares.loose l)
    obtain ⟨answered, code, number⟩ := named.finish loose s.part
    exact ⟨answered, code, number⟩

/-- R40: the match of a reverify. -/
theorem recheck_matches {s : State} {i : Slot} {key nonce serial response : Quad} {tally t : Nat}
    (head : s.part.digestHead = some ⟨.slot i, .challengeCheck key nonce serial tally response⟩)
    (state : (s.part.slot i).state = .reverify) (read : (s.part.slot i).reverifyTally = some t) (range : t < 65536)
    (unfolded : s.part.hs.foldAtWrite = false) (matched : challengeMatches key nonce serial tally response = true) :
    Completes .challengeCheck s (.ofCommand .challengeCheck) fun q =>
      s.part.TallySettled q i t ∧ (q.slot i).state = .inService ∧ (q.slot i).stage = .none ∧
      (q.slot i).linkFailures = 0 ∧
      ∀ c, (s.part.slot i).parkedCell = some c → Memory.wf s.part.board = true → s.part.Loose c →
        (∃ m, q.Answered c .ok m) ∧ (q.argumentByte c 0).toNat = verdictCode (q.slot i).verdict ∧ q.argument c 2 2 = t := by
  have run := exec_challengeCheck_reverify head state
  have popped : s.part.popDigest.slot i = s.part.slot i := popDigest_slot s.part i
  rw [matched, reverifyChecked_matched (by rw [popped]; exact read)] at run
  have flushes := popDigest_flushes s.part
  have settled := (compareTally_settles s.part.popDigest i t).before (flushes.sameWork i) (congrArg SlotRow.verdict popped)
    (popDigest_linkedPlace s.part i) (popDigest_place s.part)
  have spares := flushes.toSpares.trans ((compareTally_spares s.part.popDigest i t).trans (returnToService_spares _ i))
  have folds : ((s.part.popDigest.compareTally i t).returnToService i).hs.foldAtWrite = false :=
    (((compareTally_acts _ i t).same .foldAtWrite rfl).trans
      ((returnToService_acts _ i).same .foldAtWrite rfl)).symm.trans (popDigest_unfolded unfolded)
  have returned := settled.keep (returnToService_keepsTally _ i)
  have row := returnToService_slot (s.part.popDigest.compareTally i t) i
  have parkedCell := compareTally_parked s.part.popDigest i t
  rw [popped] at parkedCell
  generalize (s.part.popDigest.compareTally i t).returnToService i = p at *
  have plain : (p.finishReverify i .ok (reverifyFields (p.slot i).verdict t)).hs.foldAtWrite = false :=
    ((finishReverify_acts p i .ok _ (reverifyFields_fit _ t)).same .foldAtWrite rfl).symm.trans folds
  refine completes_after run ⟨?_, ?_⟩
  · exact returned.keep ((finishReverify_keepsTally p i _ t).trans (finish_keepsTally _ plain i))
  rw [finish_slot, finishReverify_slot]
  refine ⟨by rw [row]; rfl, by rw [row]; rfl, by rw [row]; rfl, fun c parked wf l => ?_⟩
  obtain ⟨named, loose⟩ := finishReverify_names (p := p) (i := i) (by rw [row]; exact parkedCell.trans parked) (spares.wf wf)
    (spares.loose l) (p.slot i).verdict range
  obtain ⟨answered, code, number⟩ := named.finish loose s.part
  exact ⟨answered, code, number⟩

end Sys2Proof.Machine

end

-- ==== BringUp: Places ====
section

/-! PROOFS. The place that a new history entry takes (R46, R49). -/

set_option Elab.async false
namespace Sys2Proof.Machine
open Sys2Proof

/-! ## The free place with the lowest number -/

theorem allPlaces_pairwise : allPlaces.Pairwise (· < ·) := List.pairwise_lt_finRange 64

theorem mem_allPlaces (k : Fin 64) : k ∈ allPlaces := List.mem_finRange k

/-- The first place with a property. -/
theorem find_allPlaces {f : Fin 64 → Bool} {k : Fin 64} (has : f k = true) (first : ∀ j, j < k → f j = false) :
    allPlaces.find? f = some k := by
  cases found : allPlaces.find? f with
  | none => exact absurd has (List.find?_eq_none.1 found k (mem_allPlaces k))
  | some j =>
    obtain ⟨holds, l, r, split, before⟩ := List.find?_eq_some_iff_append.1 found
    rcases lt_trichotomy j k with lt | eq | gt
    · rw [first j lt] at holds
      cases holds
    · rw [eq]
    · have sorted := allPlaces_pairwise
      have mem := mem_allPlaces k
      rw [split] at sorted mem
      rcases List.mem_append.1 mem with left | right
      · exact absurd has (by simpa using before k left)
      · rcases List.mem_cons.1 right with eq | tail
        · exact absurd gt (by rw [eq]; exact lt_irrefl j)
        · exact absurd gt (not_lt.2 (le_of_lt ((List.pairwise_cons.1 (List.pairwise_append.1 sorted).2.1).1 k tail)))

theorem freePlace_of {p : Part} {k : Fin 64} (free : (p.place k).entry = none) (first : ∀ j, j < k → (p.place j).entry ≠ none) :
    p.freePlace = some k :=
  find_allPlaces (by rw [free]; rfl) fun j lt => Option.isNone_eq_false_iff.2 (Option.isSome_iff_ne_none.2 (first j lt))

theorem freePlace_none {p : Part} (full : ∀ j, (p.place j).entry ≠ none) : p.freePlace = none :=
  List.find?_eq_none.2 fun j _ h => full j (Option.isNone_iff_eq_none.1 h)

/-! ## Eviction (R49) -/

theorem lowestSighting_mem {l : List (Fin 64 × Entry)} {x : Fin 64 × Entry} (h : lowestSighting l = some x) : x ∈ l := by
  induction l generalizing x with
  | nil => cases h
  | cons y rest ih =>
    unfold lowestSighting at h
    split at h
    · rename_i z found
      split at h
      · exact Option.some.inj h ▸ List.mem_cons_self
      · exact List.mem_cons_of_mem y (Option.some.inj h ▸ ih found)
    · exact Option.some.inj h ▸ List.mem_cons_self

/-- The candidate that stands before every other by its sighting number, and on equal numbers by its place. -/
theorem lowestSighting_of_best {l : List (Fin 64 × Entry)} {x : Fin 64 × Entry} (sorted : l.Pairwise fun a b => a.1 < b.1)
    (mem : x ∈ l) (best : ∀ y ∈ l, y.1 ≠ x.1 → x.2.sighting < y.2.sighting ∨ x.2.sighting = y.2.sighting ∧ x.1 < y.1) :
    lowestSighting l = some x := by
  induction l with
  | nil => cases mem
  | cons y rest ih =>
    obtain ⟨head, tail⟩ := List.pairwise_cons.1 sorted
    rcases List.mem_cons.1 mem with rfl | inside
    · unfold lowestSighting
      split
      · rename_i z found
        have z_mem := lowestSighting_mem found
        have order := best z (List.mem_cons_of_mem x z_mem) (ne_of_gt (head z z_mem))
        exact if_pos (by omega)
      · rfl
    · have found := ih tail inside fun z hz => best z (List.mem_cons_of_mem y hz)
      have before := head x inside
      have order := best y List.mem_cons_self (ne_of_lt before)
      unfold lowestSighting
      rw [found]
      exact if_neg (by omega)

/-- The candidates for eviction stand in the order of their places. -/
theorem candidates_sorted (p : Part) : (allPlaces.filterMap p.evictable).Pairwise fun a b => a.1 < b.1 := by
  refine allPlaces_pairwise.filterMap p.evictable fun a b lt x hx y hy => ?_
  have place : ∀ {k : Fin 64} {z : Fin 64 × Entry}, p.evictable k = some z → z.1 = k := fun {k z} h => by
    unfold Part.evictable at h
    split at h
    · split at h
      · cases h
      · exact Option.some.inj h ▸ rfl
    · cases h
  rw [place hx, place hy]
  exact lt

theorem mem_candidates {p : Part} {x : Fin 64 × Entry} : x ∈ allPlaces.filterMap p.evictable ↔
    (p.place x.1).entry = some x.2 ∧ p.serialHeld x.2.serial = false := by
  obtain ⟨k, e⟩ := x
  simp only [List.mem_filterMap, mem_allPlaces, true_and]
  constructor
  · rintro ⟨j, h⟩
    unfold Part.evictable at h
    split at h
    · rename_i d entry
      split at h
      · cases h
      · cases h
        exact ⟨entry, Bool.eq_false_iff.2 ‹_›⟩
    · cases h
  · rintro ⟨entry, free⟩
    exact ⟨k, by simp only [Part.evictable, entry, free, Bool.false_eq_true, if_false]⟩

/-- R49: the place of the entry that stands before every other that may be evicted. -/
theorem evictionPlace_of {p : Part} {k : Fin 64} {e : Entry} (entry : (p.place k).entry = some e)
    (free : p.serialHeld e.serial = false)
    (best : ∀ j d, j ≠ k → (p.place j).entry = some d → p.serialHeld d.serial = false →
      (e.verdict.sticky = false ∧ d.verdict.sticky = true) ∨
      e.verdict.sticky = d.verdict.sticky ∧ (e.sighting < d.sighting ∨ e.sighting = d.sighting ∧ k < j)) :
    p.evictionPlace = some k := by
  have mem : (k, e) ∈ allPlaces.filterMap p.evictable := mem_candidates.2 ⟨entry, free⟩
  have sorted := candidates_sorted p
  have order : ∀ y ∈ allPlaces.filterMap p.evictable, y.1 ≠ k →
      (e.verdict.sticky = false ∧ y.2.verdict.sticky = true) ∨
      e.verdict.sticky = y.2.verdict.sticky ∧ (e.sighting < y.2.sighting ∨ e.sighting = y.2.sighting ∧ k < y.1) :=
    fun y hy ne => by
      obtain ⟨there, unheld⟩ := mem_candidates.1 hy
      exact best y.1 y.2 ne there unheld
  unfold Part.evictionPlace
  extract_lets candidates preferred
  rw [Option.map_eq_some_iff]
  refine ⟨(k, e), ?_, rfl⟩
  cases sticky : e.verdict.sticky with
  | false =>
    have inside : (k, e) ∈ preferred := List.mem_filter.2 ⟨mem, by simp [sticky]⟩
    rw [if_neg (by rw [List.isEmpty_iff]; exact List.ne_nil_of_mem inside)]
    refine lowestSighting_of_best (sorted.filter _) inside fun y hy ne => ?_
    obtain ⟨y_mem, y_free⟩ := List.mem_filter.1 hy
    rcases order y y_mem ne with ⟨-, other⟩ | ⟨-, lower⟩
    · simp [other] at y_free
    · exact lower
  | true =>
    have all : preferred = [] := List.filter_eq_nil_iff.2 fun y hy => by
      by_cases same : y.1 = k
      · obtain ⟨there, -⟩ := mem_candidates.1 hy
        rw [same, entry] at there
        rw [← Option.some.inj there, sticky]
        decide
      · rcases order y hy same with ⟨other, -⟩ | ⟨alike, -⟩
        · rw [sticky] at other
          cases other
        · rw [← alike, sticky]
          decide
    rw [all, if_pos List.isEmpty_nil]
    refine lowestSighting_of_best sorted mem fun y hy ne => ?_
    rcases order y hy ne with ⟨other, -⟩ | ⟨-, lower⟩
    · rw [sticky] at other
      cases other
    · exact lower

/-! ## The insertion (R46, R49) -/

theorem insertEntry_place {p : Part} {k : Fin 64} (takes : p.TakesEntry k) (e : Entry) (j : Fin 64) :
    (p.insertEntry e).place j = if j = k then ⟨some e, true⟩ else p.place j := by
  have chosen : p.freePlace.or p.evictionPlace = some k := by
    cases takes with
    | free none first => rw [freePlace_of none first]; rfl
    | evicted d full entry unheld best => rw [freePlace_none full, evictionPlace_of entry unheld best]; rfl
  unfold Part.insertEntry
  rw [chosen]
  dsimp only
  rw [dirtyPlace_place, updPlace_place_self]
  by_cases h : j = k
  · rw [if_pos h, if_pos h]
  · rw [if_neg h, if_neg h, updPlace_place_ne p _ h]

/-- The place depends on what stands in the table and on which serials slots carry. -/
theorem Part.TakesEntry.congr {p q : Part} {k : Fin 64} (h : p.TakesEntry k) (places : ∀ j, q.place j = p.place j)
    (identities : ∀ i, (q.slot i).identity = (p.slot i).identity) : q.TakesEntry k := by
  have carries : ∀ i serial, (q.slot i).carries serial = (p.slot i).carries serial := fun i serial => by
    unfold SlotRow.carries
    rw [identities]
  have held : ∀ serial, q.serialHeld serial = p.serialHeld serial := fun serial => by simp only [Part.serialHeld, carries]
  cases h with
  | free none first => exact .free (by rw [places]; exact none) fun j lt => by rw [places]; exact first j lt
  | evicted e full entry unheld best =>
    exact .evicted e (fun j => by rw [places]; exact full j) (by rw [places]; exact entry) (by rw [held]; exact unheld)
      fun j d ne there free => best j d ne (by rw [← places]; exact there) (by rw [← held]; exact free)

end Sys2Proof.Machine

end

-- ==== BringUp: Decisions ====
section

/-! PROOFS. What RESOLVE decides and writes, and the bring-up that it completes (R31, R49, R63 to R70, R76). -/

set_option Elab.async false
namespace Sys2Proof.Machine
open Sys2Proof

/-! ## The decision (R63 step 3, R65 to R69) -/

/-- A decision that takes the slot into service with a history entry for the serial. -/
structure Decision.Serves (d : Decision) (serial : Quad) : Prop where
  serial : d.entry.serial = serial
  linked : d.resolution.linked = true
  served : d.resolution.verdict.class ≠ .rejected

theorem resolveUnits_serial (e : Entry) (tally : Nat) : (e.resolveUnits tally).serial = e.serial := by
  unfold Entry.resolveUnits
  split
  · rfl
  · split <;> rfl

theorem resolveUnits_verdict (e : Entry) (tally : Nat) : (e.resolveUnits tally).verdict = e.verdict := by
  unfold Entry.resolveUnits
  split
  · rfl
  · split <;> rfl

theorem decideKnown_serves (id : Identity) (e : Entry) : (decideKnown id e).Serves e.serial := by
  unfold decideKnown
  extract_lets tc disagrees e' remaining
  have serial : e'.serial = e.serial := resolveUnits_serial e tc
  clear_value e'
  split
  · exact ⟨rfl, rfl, nofun⟩
  · split
    · exact ⟨serial, rfl, nofun⟩
    · split
      · exact ⟨serial, rfl, nofun⟩
      · split
        · exact ⟨serial, rfl, nofun⟩
        · exact ⟨serial, rfl, nofun⟩

theorem decideNew_serves (i : Slot) (id : Identity) (margin : Nat) : (decideNew i id margin).Serves id.serial := by
  unfold decideNew
  extract_lets rated drawn r
  have linked : r.linked = true ∧ r.verdict.class ≠ .rejected := by
    unfold r
    split
    · exact ⟨rfl, nofun⟩
    · split
      · exact ⟨rfl, nofun⟩
      · split
        · exact ⟨rfl, nofun⟩
        · exact ⟨rfl, nofun⟩
  exact ⟨rfl, linked.1, linked.2⟩

/-- R70: the margin test. -/
theorem Decision.Serves.marginTest {d : Decision} {serial : Quad} (h : d.Serves serial) (margin : Nat) :
    Decision.Serves { d with resolution := d.resolution.marginTest margin } serial := by
  unfold Resolution.marginTest
  split
  · exact ⟨h.serial, h.linked, nofun⟩
  · exact h

/-- The entry of the serial's place. -/
theorem findPlace_holds {p : Part} {serial : Quad} {k : Fin 64} (found : p.findPlace serial = some k) :
    ∃ e, (p.place k).entry = some e ∧ e.serial = serial := by
  have holds := List.find?_some found
  unfold PlaceRow.holds at holds
  split at holds
  · exact ⟨_, ‹_›, eq_of_beq holds⟩
  · cases holds

/-- R63 step 3: the cases of a serial that the history knows. -/
theorem decideEntry_known {p : Part} {i : Slot} {id : Identity} {k : Fin 64} {e : Entry}
    (found : p.findPlace id.serial = some k) (entry : (p.place k).entry = some e) (alone : p.heldElsewhere i id.serial = false) :
    p.decideEntry i id = if e.verdict.sticky then decideSticky id e else
      { decideKnown id e with
        resolution := (decideKnown id e).resolution.marginTest (marginVolume p.au.margin id.volumeClass) } := by
  unfold Part.decideEntry
  extract_lets place margin
  have known : place = some e := by
    unfold place
    rw [found]
    exact entry
  rw [alone, known]
  rfl

/-- R65: the case of a serial that another slot carries. -/
theorem decideEntry_clone {p : Part} {i : Slot} {id : Identity} (shared : p.heldElsewhere i id.serial = true) :
    p.decideEntry i id = decideClone i id ((p.findPlace id.serial).bind fun k => (p.place k).entry) := by
  unfold Part.decideEntry
  exact if_pos shared

/-- R69: the case of a serial never seen. -/
theorem decideEntry_new {p : Part} {i : Slot} {id : Identity} (none : p.findPlace id.serial = none)
    (alone : p.heldElsewhere i id.serial = false) : p.decideEntry i id =
      { decideNew i id (marginVolume p.au.margin id.volumeClass) with
        resolution := (decideNew i id (marginVolume p.au.margin id.volumeClass)).resolution.marginTest
          (marginVolume p.au.margin id.volumeClass) } := by
  unfold Part.decideEntry
  extract_lets place margin
  have unknown : place = Option.none := by
    unfold place
    rw [none]
    rfl
  rw [alone, unknown]
  rfl

theorem decideEntry_serves (p : Part) (i : Slot) (id : Identity) : (p.decideEntry i id).Serves id.serial := by
  cases found : p.findPlace id.serial with
  | none =>
    cases shared : p.heldElsewhere i id.serial with
    | true =>
      rw [decideEntry_clone shared, found]
      exact ⟨rfl, rfl, nofun⟩
    | false =>
      rw [decideEntry_new found shared]
      exact (decideNew_serves i id _).marginTest _
  | some k =>
    obtain ⟨e, entry, serial⟩ := findPlace_holds found
    cases shared : p.heldElsewhere i id.serial with
    | true =>
      rw [decideEntry_clone shared, found, Option.bind_some, entry]
      exact ⟨serial, rfl, nofun⟩
    | false =>
      rw [decideEntry_known found entry shared]
      split
      · rename_i sticky
        refine ⟨(resolveUnits_serial e id.tally).trans serial, rfl, ?_⟩
        show (e.resolveUnits id.tally).verdict.class ≠ .rejected
        rw [resolveUnits_verdict]
        revert sticky
        cases e.verdict <;> decide
      · exact serial ▸ (decideKnown_serves id e).marginTest _

/-! ## What the decision writes (R63 steps 4 and 5) -/

/-- The place that the entry of a serial has or takes. -/
def Part.EntryPlace (p : Part) (serial : Quad) (k : Fin 64) : Prop :=
  p.findPlace serial = some k ∨ p.findPlace serial = none ∧ p.TakesEntry k

theorem decideVerdict_accepted {p : Part} {i : Slot} {id : Identity} (known : knownClass id.volumeClass = true)
    (ink : p.wrongInk i id.ink = false) : (p.decideVerdict i id true).2 = (p.decideEntry i id).resolution ∧
      ∀ k, p.EntryPlace id.serial k → ∀ j, (p.decideVerdict i id true).1.place j =
        if j = k then ⟨some ((p.decideEntry i id).written i p.hs.sightings), true⟩ else p.place j := by
  unfold Part.decideVerdict
  rw [known, ink]
  simp only [Bool.not_true, Bool.false_eq_true, if_false]
  split
  · rename_i k found
    refine ⟨rfl, fun k' at_ j => ?_⟩
    obtain rfl : k = k' := by
      rcases at_ with found' | ⟨none, -⟩
      · exact Option.some.inj (found.symm.trans found')
      · exact absurd (found.symm.trans none) nofun
    obtain ⟨e, entry, -⟩ := findPlace_holds found
    rw [changeEntry_place, entry]
    rfl
  · rename_i none
    refine ⟨rfl, fun k at_ j => ?_⟩
    rcases at_ with found | ⟨-, takes⟩
    · exact absurd (none.symm.trans found) nofun
    · exact insertEntry_place takes _ j

/-- R64: the three cases that leave the history untouched. -/
theorem decideVerdict_rejected {p : Part} {i : Slot} {id : Identity} {matched : Bool} {v : Verdict}
    (cases : matched = false ∧ v = .counterfeit ∨ matched = true ∧ knownClass id.volumeClass = false ∧ v = .unknownType ∨
      matched = true ∧ knownClass id.volumeClass = true ∧ p.wrongInk i id.ink = true ∧ v = .wrongInk) :
    p.decideVerdict i id matched = (p, .reject v) := by
  unfold Part.decideVerdict
  rcases cases with ⟨rfl, rfl⟩ | ⟨rfl, unknown, rfl⟩ | ⟨rfl, known, ink, rfl⟩
  · rfl
  · rw [unknown]
    rfl
  · rw [known, ink]
    rfl

/-- The entry stands alone for its serial once it is written. -/
theorem findPlace_written {p q : Part} {serial : Quad} {k : Fin 64} {e : Entry} (at_ : p.EntryPlace serial k)
    (serial_e : e.serial = serial) (places : ∀ j, q.place j = if j = k then ⟨some e, true⟩ else p.place j) :
    q.findPlace serial = some k := by
  have self : (q.place k).holds serial = true := by
    rw [places, if_pos rfl, PlaceRow.holds_eq, PlaceRow.serial, Option.map_some, serial_e, beq_self_eq_true]
  have others : ∀ j, j ≠ k → (q.place j).holds serial = (p.place j).holds serial := fun j ne => by rw [places, if_neg ne]
  rcases at_ with found | ⟨none, -⟩
  · obtain ⟨d, entry, same⟩ := findPlace_holds found
    rw [← found]
    refine findPlace_congr (fun j => ?_) serial
    rw [places]
    by_cases h : j = k
    · rw [if_pos h, h, PlaceRow.serial, PlaceRow.serial, entry, Option.map_some, Option.map_some, serial_e, same]
    · rw [if_neg h]
  · refine find_allPlaces self fun j lt => ?_
    rw [others j (ne_of_lt lt)]
    exact Bool.eq_false_iff.2 fun h => (List.find?_eq_none.1 none j (mem_allPlaces j)) h

/-! ## The bring-up that RESOLVE completes (R31) -/

/-- R31: the slot's row has the verdict and the history link, and is recorded and raised. -/
def Part.verdictEntered (p : Part) (i : Slot) (r : Resolution) : Part :=
  let q := ((p.updSlot i fun row =>
    { row with verdict := some r.verdict, historyLink := r.linked, linkFailures := 0,
               state := if r.verdict.class == .rejected then .rejected else .inService }).recordIdentity i).raise .slot
  if r.verdict.class == .tracked then q else q.raise .verdict

/-- R31, R110: the slot's starting volumes. -/
def Part.volumesEntered (p : Part) (i : Slot) (r : Resolution) : Part :=
  if r.verdict.class == .rejected then
    (p.verdictEntered i r).setVolumes i Volumes.blank |>.recordVolumes i
  else (p.verdictEntered i r).enterVolumes i r.remaining r.postEmpty r.exhausted

/-- R31, R121: the slot's starting account. -/
def Part.accountEntered (p : Part) (i : Slot) (r : Resolution) : Part :=
  ((p.volumesEntered i r).updCommit i fun c =>
    { c with uncommitted := r.uncommitted, inDoubt := 0, tallyFull := r.tallyFull }).recordCommit i

/-- R31, R106, R170: the channel's source, and the wind-down. -/
def Part.sourceEntered (p : Part) (i : Slot) (r : Resolution) : Part :=
  if r.verdict.class == .rejected then p.accountEntered i r else ((p.accountEntered i r).reselectFor i).joinWindDown i

theorem completeBringUp_eq (p : Part) (i : Slot) (r : Resolution) : p.completeBringUp i r =
    ((p.sourceEntered i r).reportToCommit i).finishReverify i .ok (reverifyFields (some r.verdict)
      ((((p.sourceEntered i r).slot i).identity.map fun id => id.tally).getD 0)) := rfl

/-- The row of a slot that RESOLVE has decided. -/
def SlotRow.decided (row : SlotRow) (r : Resolution) : SlotRow :=
  { row with verdict := some r.verdict, historyLink := r.linked, linkFailures := 0,
             state := if r.verdict.class == .rejected then .rejected else .inService }

theorem verdictEntered_acts (p : Part) (i : Slot) (r : Resolution) :
    Part.Acts .reporting (p.updSlot i fun row => row.decided r) (p.verdictEntered i r) := by
  unfold Part.verdictEntered
  extract_lets q
  have recorded : Part.Acts .reporting (p.updSlot i fun row => row.decided r) q :=
    ((recordIdentity_acts _ i).mono (Views.slotRecord_le_reporting i)).trans (raise_acts _ _)
  split
  · exact recorded
  · exact recorded.trans (raise_acts _ _)

theorem verdictEntered_slot (p : Part) (i : Slot) (r : Resolution) :
    (p.verdictEntered i r).slot i = (p.slot i).decided r := by
  rw [← show Part.slot _ i = _ from (verdictEntered_acts p i r).same (.slot i) rfl]
  exact updSlot_slot_self p i _

theorem verdictEntered_notice {p : Part} {i : Slot} {r : Resolution} (noticed : r.verdict.class ≠ .tracked) :
    (p.verdictEntered i r).noticePending .verdict = true := by
  unfold Part.verdictEntered
  extract_lets q
  rw [if_neg (by simpa using noticed)]
  exact raise_notice q .verdict

theorem verdictEntered_commit (p : Part) (i : Slot) (r : Resolution) (j : Slot) :
    (p.verdictEntered i r).commit j = p.commit j := by
  unfold Part.verdictEntered
  extract_lets q
  have recorded : q.commit j = p.commit j := ((recordIdentity_acts _ i).same (.commit j) rfl).symm
  split <;> exact recorded

/-- The volumes that a slot has when RESOLVE has decided. -/
structure Volumes.Decided (v : Volumes) (r : Resolution) : Prop where
  rejected : r.verdict.class = .rejected → v = Volumes.blank
  served : r.verdict.class ≠ .rejected →
    v.remaining = r.remaining ∧ v.postEmpty = r.postEmpty ∧ v.exhausted = r.exhausted

/-- What the entry of the volumes leaves: everything but the slot's volumes and record. -/
theorem volumesEntered_acts (p : Part) (i : Slot) (r : Resolution) :
    Part.Acts (Views.and (.only (.volumes i)) (.slotRecord i)) (p.verdictEntered i r) (p.volumesEntered i r) := by
  unfold Part.volumesEntered
  split
  · exact (setVolumes_acts _ i _ (by simp [Views.and, Views.only])).trans
      ((recordVolumes_acts _ i).mono (Views.le_and_right _ _))
  · exact enterVolumes_acts _ _ _ _ _

theorem volumesEntered_volumes (p : Part) (i : Slot) (r : Resolution) : ((p.volumesEntered i r).volumes i).Decided r := by
  unfold Part.volumesEntered Part.enterVolumes
  by_cases rejected : r.verdict.class = .rejected
  · rw [if_pos (by rw [rejected]; rfl), ← show Part.volumes _ i = _ from (recordVolumes_acts _ i).same (.volumes i) rfl,
      Part.setVolumes_volumes_self]
    exact ⟨fun _ => rfl, fun h => absurd rejected h⟩
  · rw [if_neg (by simpa using rejected)]
    extract_lets t tracked q
    rw [← show Part.volumes _ i = _ from (recordVolumes_acts q i).same (.volumes i) rfl]
    unfold q
    rw [Part.setVolumes_volumes_self]
    exact ⟨fun h => absurd h rejected, fun _ => ⟨rfl, rfl, rfl⟩⟩

theorem volumesEntered_commit (p : Part) (i : Slot) (r : Resolution) (j : Slot) :
    (p.volumesEntered i r).commit j = p.commit j :=
  ((volumesEntered_acts p i r).same (.commit j) rfl).symm.trans (verdictEntered_commit p i r j)

theorem accountEntered_commit (p : Part) (i : Slot) (r : Resolution) (j : Slot) : (p.accountEntered i r).commit j =
    if j = i then { p.commit i with uncommitted := r.uncommitted, inDoubt := 0, tallyFull := r.tallyFull } else p.commit j := by
  rw [Part.accountEntered, recordCommit_commit]
  by_cases e : j = i
  · rw [if_pos e, e, updCommit_commit_self, volumesEntered_commit]
  · rw [if_neg e, updCommit_commit_ne _ _ e, volumesEntered_commit]

/-- What the account's entry and the source's leave: slots, volumes, history. -/
theorem accountEntered_acts (p : Part) (i : Slot) (r : Resolution) :
    Part.Acts .reporting (p.volumesEntered i r) (p.accountEntered i r) :=
  (updCommit_acts _ i _ rfl).trans (recordCommit_acts_reporting _ i)

theorem sourceEntered_acts (p : Part) (i : Slot) (r : Resolution) :
    Part.Acts (Views.and .channels .reporting) (p.accountEntered i r) (p.sourceEntered i r) := by
  unfold Part.sourceEntered
  split
  · exact .refl _ _
  · exact ((reselectFor_acts _ i).mono (Views.le_and_left _ _)).trans ((joinWindDown_acts _ i).mono (Views.le_and_right _ _))

theorem joinWindDown_sameAccount (p : Part) (i j : Slot) : (p.commit j).SameAccount ((p.joinWindDown i).commit j) := by
  unfold Part.joinWindDown
  split
  · by_cases e : j = i
    · rw [e, updCommit_commit_self]
      exact ⟨⟨rfl, rfl, rfl⟩, rfl⟩
    · rw [updCommit_commit_ne _ _ e]
      exact .refl _
  · exact .refl _

theorem sourceEntered_sameAccount (p : Part) (i : Slot) (r : Resolution) (j : Slot) :
    ((p.accountEntered i r).commit j).SameAccount ((p.sourceEntered i r).commit j) := by
  unfold Part.sourceEntered
  split
  · exact .refl _
  · rw [show (p.accountEntered i r).commit j = _ from (reselectFor_acts _ i).same (.commit j) rfl]
    exact joinWindDown_sameAccount _ i j

/-- The slot as RESOLVE has decided it, with the accounts of the others as they were. -/
structure Part.Decided (i : Slot) (r : Resolution) (p q : Part) : Prop where
  slot : q.slot i = { (p.slot i).decided r with parkedCell := none }
  volumes : (q.volumes i).Decided r
  account : ({ p.commit i with uncommitted := r.uncommitted, inDoubt := 0, tallyFull := r.tallyFull } : CommitRow).SameAccount
    (q.commit i)
  others : ∀ j, j ≠ i → (p.commit j).SameAccount (q.commit j)
  place : ∀ k, q.place k = p.place k
  sightings : q.hs.sightings = p.hs.sightings
  notice : r.verdict.class ≠ .tracked → q.noticePending .verdict = true

/-- R31: what is left of a bring-up once its slot has been reported. -/
theorem completeBringUp_acts_report (p : Part) (i : Slot) (r : Resolution) :
    Part.Acts (.rowReport i) (p.sourceEntered i r) (p.completeBringUp i r) := by
  rw [completeBringUp_eq]
  exact ((reportToCommit_acts _ i).mono (Views.le_and_left _ _)).trans
    (finishReverify_acts _ i .ok _ (reverifyFields_fit _ _))

theorem completeBringUp_decided (p : Part) (i : Slot) (r : Resolution) : Part.Decided i r p (p.completeBringUp i r) := by
  have ended := completeBringUp_acts_report p i r
  have source := sourceEntered_acts p i r
  have account := accountEntered_acts p i r
  have volumes := volumesEntered_acts p i r
  have entered := verdictEntered_acts p i r
  have row : (p.sourceEntered i r).slot i = (p.slot i).decided r := by
    rw [← show Part.slot _ i = _ from source.same (.slot i) rfl, ← show Part.slot _ i = _ from account.same (.slot i) rfl,
      ← show Part.slot _ i = _ from volumes.same (.slot i) rfl, verdictEntered_slot]
  have reported (j) : ((p.accountEntered i r).commit j).SameAccount ((p.completeBringUp i r).commit j) := by
    rw [completeBringUp_eq, finishReverify_commit]
    exact (sourceEntered_sameAccount p i r j).trans (reportToCommit_sameAccount _ i j)
  refine ⟨?_, ?_, ?_, fun j ne => ?_, fun k => ?_, ?_, fun noticed => ?_⟩
  · rw [completeBringUp_eq, finishReverify_slot, ← show Part.slot _ i = _ from (reportToCommit_acts _ i).same (.slot i) rfl, row]
  · rw [← show Part.volumes _ i = _ from ended.same (.volumes i) rfl, ← show Part.volumes _ i = _ from source.same (.volumes i) rfl,
      ← show Part.volumes _ i = _ from account.same (.volumes i) rfl]
    exact volumesEntered_volumes p i r
  · have kept := reported i
    rwa [accountEntered_commit, if_pos rfl] at kept
  · have kept := reported j
    rwa [accountEntered_commit, if_neg ne] at kept
  · rw [← show Part.place _ k = _ from ended.same (.place k) rfl, ← show Part.place _ k = _ from source.same (.place k) rfl,
      ← show Part.place _ k = _ from account.same (.place k) rfl, ← show Part.place _ k = _ from volumes.same (.place k) rfl,
      ← show Part.place _ k = _ from entered.same (.place k) rfl]
    rfl
  · exact ((entered.same .sightings rfl).trans ((volumes.same .sightings rfl).trans ((account.same .sightings rfl).trans
      ((source.same .sightings rfl).trans (ended.same .sightings rfl))))).symm
  · exact ended.raised _ (source.raised _ (account.raised _ (volumes.raised _ (verdictEntered_notice noticed))))

/-! ## The other holders of a CLONE's serial (R76) -/

/-- What each visit of a pass over the slots keeps, the pass keeps. -/
theorem forSlots_keeps {P : Part → Prop} {f : Part → Slot → Part} (h : ∀ q j, P q → P (f q j)) {p : Part} (start : P p) :
    P (p.forSlots f) := by
  unfold Part.forSlots
  generalize allSlots = l
  induction l generalizing p with
  | nil => exact start
  | cons x rest ih => exact ih (h p x start)

/-- R76: the visit of one slot. -/
def Part.escalateHolder (i : Slot) (serial : Quad) (q : Part) (j : Slot) : Part :=
  if j != i && (q.slot j).carries serial && (q.slot j).state.inServiceGroup then q.escalate j .clone else q

theorem escalateHolders_eq (p : Part) (i : Slot) (serial : Quad) :
    p.escalateHolders i serial = p.forSlots (Part.escalateHolder i serial) := rfl

/-- A visit that escalates comes to another slot that carries the serial. -/
theorem escalateHolder_cases (i : Slot) (serial : Quad) (q : Part) (j : Slot) :
    Part.escalateHolder i serial q j = q ∨ Part.escalateHolder i serial q j = q.escalate j .clone ∧ j ≠ i ∧
      (q.slot j).carries serial = true := by
  unfold Part.escalateHolder
  split
  · rename_i visited
    simp only [Bool.and_eq_true, bne_iff_ne] at visited
    exact .inr ⟨rfl, visited.1.1, visited.1.2⟩
  · exact .inl rfl

/-- A slot's escalation leaves the rows and volumes of the others. -/
theorem escalate_others (p : Part) {i j : Slot} (next : Verdict) (ne : j ≠ i) :
    (p.escalate i next).slot j = p.slot j ∧ (p.escalate i next).volumes j = p.volumes j := by
  have off : justSlot i j = false := by simp [justSlot, ne]
  have acts := escalate_acts p i next
  exact ⟨(acts.same (.slot j) off).symm, (acts.same (.volumes j) off).symm⟩

/-- R76: the resolving slot stays as it is, and so do all accounts. -/
theorem escalateHolders_self (p : Part) (i : Slot) (serial : Quad) :
    (p.escalateHolders i serial).slot i = p.slot i ∧ (p.escalateHolders i serial).volumes i = p.volumes i ∧
      (∀ j, (p.commit j).SameAccount ((p.escalateHolders i serial).commit j)) := by
  rw [escalateHolders_eq]
  refine forSlots_keeps (P := fun q => q.slot i = p.slot i ∧ q.volumes i = p.volumes i ∧
    ∀ j, (p.commit j).SameAccount (q.commit j)) (fun q j h => ?_) ⟨rfl, rfl, fun _ => .refl _⟩
  obtain ⟨slot, volumes, account⟩ := h
  rcases escalateHolder_cases i serial q j with e | ⟨e, ne, -⟩ <;> rw [e]
  · exact ⟨slot, volumes, account⟩
  · obtain ⟨row, left⟩ := escalate_others q .clone (Ne.symm ne)
    exact ⟨row.trans slot, left.trans volumes, fun l => (account l).trans (escalate_sameAccount q j .clone l)⟩

/-- R76: the history stays as it is, the serial's entry being that of a CLONE already. -/
theorem escalateHolders_place {p : Part} {i : Slot} {serial : Quad} {k : Fin 64} {e : Entry}
    (found : p.findPlace serial = some k) (entry : p.place k = ⟨some e, true⟩) (clone : e.verdict = .clone) (l : Fin 64) :
    (p.escalateHolders i serial).place l = p.place l := by
  rw [escalateHolders_eq]
  refine forSlots_keeps (P := fun q => ∀ l, q.place l = p.place l) (fun q j same l => ?_) (fun _ => rfl) l
  rcases escalateHolder_cases i serial q j with same' | ⟨moved, -, carries⟩
  · rw [same', same]
  rw [moved, ← same l]
  have at_ : ∀ l, q.linkedPlace j = some l → l = k := fun l linked => by
    have held := heldPlace_of_linkedPlace linked
    unfold Part.heldPlace at held
    unfold SlotRow.carries at carries
    split at carries
    · rename_i id identity
      rw [identity, Option.bind_some, eq_of_beq carries,
        findPlace_congr (fun k => congrArg PlaceRow.serial (same k)) serial, found] at held
      exact (Option.some.inj held).symm
    · cases carries
  unfold Part.escalate
  split
  · split
    · rw [(carryOutEscalation_escalated q j .clone).entered nofun]
      split
      · rename_i linked
        rw [at_ l linked, same, entry, Option.map_some, ← clone]
      · rfl
    · rfl
  · rfl

end Sys2Proof.Machine

end

-- ==== BringUp: Check ====
section

/-! PROOFS. What the CHALLENGE_CHECK of a bring-up decides (R30, R31, R49, R63 to R70, R76). -/

set_option Elab.async false
namespace Sys2Proof.Machine
open Sys2Proof

/-! ## The beginning of a RESOLVE (R30, R50) -/

/-- R30, R50: the slot is in RESOLVE, has been reported, and the sighting is counted. -/
def Part.resolveBegun (p : Part) (i : Slot) : Part :=
  ((p.updSlot i fun r => { r with response := none, state := .resolve }).reportSlot i).countSighting

/-- Between `p` and `q` the RESOLVE of a slot has begun. -/
structure Part.Begun (i : Slot) (p q : Part) : Prop where
  others : ∀ j, j ≠ i → q.slot j = p.slot j
  identity : ∀ j, (q.slot j).identity = (p.slot j).identity
  volumes : ∀ j, q.volumes j = p.volumes j
  account : ∀ j, (p.commit j).SameAccount (q.commit j)
  place : ∀ k, q.place k = p.place k
  channel : ∀ c, q.channel c = p.channel c
  margin : q.au.margin = p.au.margin
  sightings : q.hs.sightings = satAdd max32 p.hs.sightings 1

theorem reportSlot_sameAccount (p : Part) (i j : Slot) : (p.commit j).SameAccount ((p.reportSlot i).commit j) :=
  (((recordIdentity_flushes p i).trans (raise_flushes _ .slot)).sameAccount j).trans (reportToCommit_sameAccount _ i j)

theorem updSlot_slot_ne (p : Part) {i j : Slot} (f : SlotRow → SlotRow) (ne : j ≠ i) : (p.updSlot i f).slot j = p.slot j :=
  Part.setSlot_slot_ne p i _ j ne

/-- The report and the count of the sighting, once the row has changed. -/
theorem countSighting_reported (q : Part) (i : Slot) : Part.Begun i q (q.reportSlot i).countSighting := by
  have report := reportSlot_acts q i
  have slot := reportSlot_slot q i
  have account := reportSlot_sameAccount q i
  generalize q.reportSlot i = w at *
  refine ⟨fun j _ => slot j, fun j => congrArg SlotRow.identity (slot j), fun j => (report.same (.volumes j) rfl).symm, account,
    fun k => (report.same (.place k) rfl).symm, fun c => (report.same (.channel c) rfl).symm, (report.same .margin rfl).symm, ?_⟩
  rw [report.same .sightings rfl]
  rfl

theorem Part.Begun.trans {i : Slot} {p q r : Part} (h : Part.Begun i q r) (others : ∀ j, j ≠ i → q.slot j = p.slot j)
    (identity : ∀ j, (q.slot j).identity = (p.slot j).identity) (kept : q.au = p.au ∧ q.ce = p.ce ∧ q.hs = p.hs) :
    Part.Begun i p r := by
  obtain ⟨au, ce, hs⟩ := kept
  have volumes : ∀ j, q.volumes j = p.volumes j := fun j => by rw [Part.volumes, au]; rfl
  have channel : ∀ c, q.channel c = p.channel c := fun c => by rw [Part.channel, au]; rfl
  have commit : ∀ j, q.commit j = p.commit j := fun j => by rw [Part.commit, ce]; rfl
  have place : ∀ k, q.place k = p.place k := fun k => by rw [Part.place, hs]; rfl
  exact ⟨fun j ne => (h.others j ne).trans (others j ne), fun j => (h.identity j).trans (identity j),
    fun j => (h.volumes j).trans (volumes j), fun j => commit j ▸ h.account j, fun k => (h.place k).trans (place k),
    fun c => (h.channel c).trans (channel c), h.margin.trans (by rw [au]), h.sightings.trans (by rw [hs])⟩

theorem popDigest_keeps (p : Part) : p.popDigest.au = p.au ∧ p.popDigest.ce = p.ce ∧ p.popDigest.hs = p.hs := by
  unfold Part.popDigest
  split <;> exact ⟨rfl, rfl, rfl⟩

theorem resolveBegun_begun (p : Part) (i : Slot) : Part.Begun i p (p.popDigest.resolveBegun i) := by
  have slot := popDigest_slot p
  have kept := popDigest_keeps p
  unfold Part.resolveBegun
  generalize p.popDigest = q at *
  refine (countSighting_reported _ i).trans (fun j ne => (updSlot_slot_ne q _ ne).trans (slot j)) (fun j => ?_) kept
  by_cases e : j = i
  · rw [e, updSlot_slot_self, slot]
  · rw [updSlot_slot_ne q _ e, slot]

section Congruence

variable {i : Slot} {p q : Part}

theorem Part.Begun.findPlace (h : Part.Begun i p q) (serial : Quad) : q.findPlace serial = p.findPlace serial :=
  findPlace_congr (fun k => congrArg PlaceRow.serial (h.place k)) serial

theorem Part.Begun.entryPlace (h : Part.Begun i p q) {serial : Quad} {k : Fin 64} (at_ : p.EntryPlace serial k) :
    q.EntryPlace serial k := by
  rw [Part.EntryPlace, h.findPlace]
  exact at_.imp_right fun ⟨new, takes⟩ => ⟨new, takes.congr h.place h.identity⟩

theorem Part.Begun.heldElsewhere (h : Part.Begun i p q) (serial : Quad) :
    q.heldElsewhere i serial = p.heldElsewhere i serial := by
  simp only [Part.heldElsewhere, SlotRow.carries, h.identity]

theorem Part.Begun.wrongInk (h : Part.Begun i p q) (ink : Byte) : q.wrongInk i ink = p.wrongInk i ink := by
  simp only [Part.wrongInk, channelOf_congr h.channel, h.channel]

theorem Part.Begun.decideEntry (h : Part.Begun i p q) (id : Identity) : q.decideEntry i id = p.decideEntry i id := by
  simp only [Part.decideEntry, h.findPlace, h.place, h.margin, h.heldElsewhere]

end Congruence

/-! ## The end of a RESOLVE (R31, R63, R76) -/

/-- The part and the resolution with which the bring-up is decided. -/
def Part.decision (p : Part) (i : Slot) (id : Identity) (matched : Bool) : Part × Resolution :=
  (p.resolveBegun i).decideVerdict i id matched

/-- R31, R76: the bring-up is completed, and a CLONE's other holders are escalated. -/
def Part.concluded (d : Part) (i : Slot) (serial : Quad) (r : Resolution) : Part :=
  if r.verdict = .clone then (d.completeBringUp i r).escalateHolders i serial else d.completeBringUp i r

theorem resolve_eq {p : Part} {i : Slot} {id : Identity} (identity : (p.slot i).identity = some id) (matched : Bool) :
    p.resolve i matched = (p.decision i id matched).1.concluded i id.serial (p.decision i id matched).2 := by
  have row : ((p.updSlot i fun r => { r with response := none, state := .resolve }).reportSlot i).slot i =
      { p.slot i with response := none, state := .resolve } := by rw [reportSlot_slot, updSlot_slot_self]
  unfold Part.resolve Part.decision Part.resolveBegun Part.concluded
  extract_lets q
  have carried : (q.slot i).identity = some id := by
    unfold q
    rw [row]
    exact identity
  rw [carried]

/-- The slot at the end of a RESOLVE, by what has been decided. -/
structure Part.Resolved (i : Slot) (r : Resolution) (q : Part) : Prop where
  state : (q.slot i).state = if r.verdict.class = .rejected then .rejected else .inService
  verdict : (q.slot i).verdict = some r.verdict
  linked : (q.slot i).historyLink = r.linked
  volumes : (q.volumes i).Decided r
  uncommitted : (q.commit i).uncommitted = r.uncommitted
  units : (q.commit i).inDoubt = 0
  tallyFull : (q.commit i).tallyFull = r.tallyFull
  notice : r.verdict.class ≠ .tracked → q.noticePending .verdict = true

theorem Part.Decided.resolved {i : Slot} {r : Resolution} {p q w : Part} (h : Part.Decided i r p q) (slot : w.slot i = q.slot i)
    (volumes : w.volumes i = q.volumes i) (account : (q.commit i).SameAccount (w.commit i))
    (notice : q.noticePending .verdict = true → w.noticePending .verdict = true) : Part.Resolved i r w := by
  have all := h.account.trans account
  refine ⟨?_, by rw [slot, h.slot]; rfl, by rw [slot, h.slot]; rfl, volumes ▸ h.volumes, all.uncommitted, all.inDoubt,
    all.tallyFull, notice ∘ h.notice⟩
  rw [slot, h.slot]
  by_cases rejected : r.verdict.class = .rejected <;> simp [SlotRow.decided, rejected]

theorem concluded_resolved (d : Part) (i : Slot) (serial : Quad) (r : Resolution) : Part.Resolved i r (d.concluded i serial r) := by
  have decided := completeBringUp_decided d i r
  unfold Part.concluded
  generalize d.completeBringUp i r = c at *
  split
  · obtain ⟨slot, volumes, account⟩ := escalateHolders_self c i serial
    exact decided.resolved slot volumes (account i) ((escalateHolders_acts c i serial).raised _)
  · exact decided.resolved rfl rfl (.refl _) fun raised => raised

theorem concluded_sightings (d : Part) (i : Slot) (serial : Quad) (r : Resolution) :
    (d.concluded i serial r).hs.sightings = d.hs.sightings := by
  have decided := (completeBringUp_decided d i r).sightings
  unfold Part.concluded
  generalize d.completeBringUp i r = c at *
  split
  · exact ((escalateHolders_acts c i serial).same .sightings rfl).symm.trans decided
  · exact decided

/-- The history is as the decision has left it, if a CLONE's serial has its entry. -/
theorem concluded_place {d : Part} {i : Slot} {serial : Quad} {r : Resolution} (entered : r.verdict = .clone → ∃ k e,
    d.findPlace serial = some k ∧ d.place k = ⟨some e, true⟩ ∧ e.verdict = .clone) (l : Fin 64) :
    (d.concluded i serial r).place l = d.place l := by
  have decided := (completeBringUp_decided d i r).place
  unfold Part.concluded
  generalize d.completeBringUp i r = c at *
  split
  · rename_i clone
    obtain ⟨k, e, found, entry, verdict⟩ := entered clone
    refine (escalateHolders_place (k := k) (e := e) ?_ ((decided k).trans entry) verdict l).trans (decided l)
    exact (findPlace_congr (fun j => congrArg PlaceRow.serial (decided j)) serial).trans found
  · exact decided l

/-- R76: another holder of a CLONE's serial, whose verdict is tracked. -/
theorem concluded_escalates {d : Part} {i j : Slot} {serial : Quad} {r : Resolution} {now : Verdict}
    (clone : r.verdict = .clone) (ne : j ≠ i) (carries : (d.slot j).carries serial = true)
    (group : (d.slot j).state.inServiceGroup = true) (verdict : (d.slot j).verdict = some now) (tracked : now.class = .tracked) :
    ((d.concluded i serial r).slot j).verdict = some .clone ∧ ((d.concluded i serial r).slot j).state = (d.slot j).state ∧
      (d.concluded i serial r).volumes j = { d.volumes j with low := false, spent := false } ∧
      ((d.concluded i serial r).commit j).uncommitted = (d.commit j).uncommitted := by
  have forward : escalates now .clone = true := by
    revert tracked
    cases now <;> decide
  have off : Views.bringUpOf i (.slot j) = false ∧ Views.bringUpOf i (.volumes j) = false := by
    simp [Views.bringUp, Views.slotWork, justSlot, ne]
  have completed := completeBringUp_acts d i r
  have decided := completeBringUp_decided d i r
  rw [Part.concluded, if_pos clone, escalateHolders_eq]
  generalize d.completeBringUp i r = c at *
  refine forSlots_visits (P := fun q => q.slot j = d.slot j ∧ q.volumes j = d.volumes j ∧
      (d.commit j).SameAccount (q.commit j))
    (Q := fun q => (q.slot j).verdict = some .clone ∧ (q.slot j).state = (d.slot j).state ∧
      q.volumes j = { d.volumes j with low := false, spent := false } ∧
      (q.commit j).uncommitted = (d.commit j).uncommitted) j (fun q l other h => ?_) (fun q h => ?_) (fun q l other h => ?_)
    ⟨(completed.same (.slot j) off.1).symm, (completed.same (.volumes j) off.2).symm, decided.others j ne⟩
  · obtain ⟨slot, volumes, account⟩ := h
    rcases escalateHolder_cases i serial q l with e | ⟨e, -, -⟩ <;> rw [e]
    · exact ⟨slot, volumes, account⟩
    · obtain ⟨row, left⟩ := escalate_others q .clone (Ne.symm other)
      exact ⟨row.trans slot, left.trans volumes, account.trans (escalate_sameAccount q l .clone j)⟩
  · obtain ⟨slot, volumes, account⟩ := h
    have visited : Part.escalateHolder i serial q j = q.escalate j .clone := if_pos (by simp [ne, slot, carries, group])
    have escalated := escalate_escalated (p := q) (by rw [slot]; exact verdict) forward
    rw [visited, escalated.slot, escalated.volumes, slot, volumes]
    exact ⟨rfl, rfl, rfl, (escalated.work j).uncommitted.trans account.uncommitted⟩
  · obtain ⟨moved, state, volumes, uncommitted⟩ := h
    rcases escalateHolder_cases i serial q l with e | ⟨e, -, -⟩ <;> rw [e]
    · exact ⟨moved, state, volumes, uncommitted⟩
    · obtain ⟨row, left⟩ := escalate_others q .clone (Ne.symm other)
      rw [row, left]
      exact ⟨moved, state, volumes, (escalate_sameAccount q l .clone j).uncommitted.trans uncommitted⟩

theorem Part.Resolved.finish {i : Slot} {r : Resolution} {q : Part} (h : Part.Resolved i r q) (before : Part)
    (plain : q.hs.foldAtWrite = false) : Part.Resolved i r (Part.finish before q) := by
  obtain ⟨state, verdict, linked, volumes, uncommitted, units, tallyFull, notice⟩ := h
  have row := finish_commit_plain before plain i
  refine ⟨?_, ?_, ?_, (finish_volumes before q i).symm ▸ volumes, ?_, ?_, ?_, fun noticed => finish_notice (notice noticed)⟩
  all_goals first | rw [finish_slot] | rw [row]
  all_goals assumption

/-! ## The check of a bring-up, as a command -/

theorem exec_challengeCheck_resolve {s : State} {i : Slot} {key nonce serial response : Quad} {tally : Nat}
    (head : s.part.digestHead = some ⟨.slot i, .challengeCheck key nonce serial tally response⟩)
    (state : (s.part.slot i).state = .check) : exec .challengeCheck s =
      s.after (s.part.popDigest.resolve i (challengeMatches key nonce serial tally response)) := by
  show execChallengeCheck s = _
  unfold execChallengeCheck Part.challengeChecked
  rw [head]
  simp only [popDigest_slot, state]

section Bringup

variable {s : State} {i : Slot} {id : Identity}

theorem resolve_plain (i : Slot) (matched : Bool) (unfolded : s.part.hs.foldAtWrite = false) :
    (s.part.popDigest.resolve i matched).hs.foldAtWrite = false :=
  ((resolve_acts _ i matched).same .foldAtWrite rfl).symm.trans (popDigest_unfolded unfolded)

/-- R63, R64: the check rejects the slot. -/
theorem resolve_rejects {matched : Bool} {v : Verdict} (identity : (s.part.slot i).identity = some id)
    (unfolded : s.part.hs.foldAtWrite = false)
    (cases : matched = false ∧ v = .counterfeit ∨ matched = true ∧ knownClass id.volumeClass = false ∧ v = .unknownType ∨
      matched = true ∧ knownClass id.volumeClass = true ∧ s.part.wrongInk i id.ink = true ∧ v = .wrongInk) :
    let q := Part.finish s.part (s.part.popDigest.resolve i matched)
    (q.slot i).state = .rejected ∧ (q.slot i).verdict = some v ∧ (q.slot i).historyLink = false ∧
      q.volumes i = Volumes.blank ∧ q.noticePending .verdict = true ∧ ∀ k, q.place k = s.part.place k := by
  have begun := resolveBegun_begun s.part i
  have plain := resolve_plain i matched unfolded
  have decision : s.part.popDigest.decision i id matched = (s.part.popDigest.resolveBegun i, .reject v) :=
    decideVerdict_rejected (by rw [begun.wrongInk]; exact cases)
  have rejected : v.class = .rejected := by
    rcases cases with ⟨-, rfl⟩ | ⟨-, -, rfl⟩ | ⟨-, -, -, rfl⟩ <;> rfl
  have notClone : v ≠ .clone := fun e => by
    rw [e] at rejected
    cases rejected
  rw [resolve_eq (by rw [popDigest_slot]; exact identity), decision] at plain ⊢
  generalize s.part.popDigest.resolveBegun i = d at *
  have resolved := (concluded_resolved d i id.serial (.reject v)).finish s.part plain
  refine ⟨resolved.state.trans (if_pos rejected), resolved.verdict, resolved.linked, resolved.volumes.rejected rejected,
    resolved.notice ?_, fun k => ?_⟩
  · rw [show (Resolution.reject v).verdict = v from rfl, rejected]
    exact nofun
  · rw [finish_place_plain _ plain, concluded_place fun clone => absurd clone notClone, begun.place]

/-- R63 steps 3 to 6: the slot as the decision for its serial has it. -/
theorem resolve_accepts (identity : (s.part.slot i).identity = some id) (unfolded : s.part.hs.foldAtWrite = false)
    (known : knownClass id.volumeClass = true) (ink : s.part.wrongInk i id.ink = false) :
    Part.Resolved i (s.part.decideEntry i id).resolution (Part.finish s.part (s.part.popDigest.resolve i true)) := by
  have begun := resolveBegun_begun s.part i
  have plain := resolve_plain i true unfolded
  have decided : (s.part.popDigest.decision i id true).2 = (s.part.decideEntry i id).resolution :=
    (decideVerdict_accepted known ((begun.wrongInk _).trans ink)).1.trans (congrArg _ (begun.decideEntry id))
  rw [resolve_eq (by rw [popDigest_slot]; exact identity), decided] at plain ⊢
  exact (concluded_resolved _ i id.serial _).finish s.part plain

/-- R63 steps 3 to 6: the slot enters service with the entry that the decision has written. -/
theorem resolve_enters (identity : (s.part.slot i).identity = some id) (unfolded : s.part.hs.foldAtWrite = false)
    (known : knownClass id.volumeClass = true) (ink : s.part.wrongInk i id.ink = false) {k : Fin 64}
    (at_ : s.part.EntryPlace id.serial k) : s.part.EntersWith (Part.finish s.part (s.part.popDigest.resolve i true)) i k
      (s.part.decideEntry i id).resolution.uncommitted
      ((s.part.decideEntry i id).written i (satAdd max32 s.part.hs.sightings 1)) := by
  have begun := resolveBegun_begun s.part i
  have plain := resolve_plain i true unfolded
  have serves := decideEntry_serves s.part i id
  have resolved := resolve_accepts identity unfolded known ink
  obtain ⟨decided, places⟩ := decideVerdict_accepted known ((begun.wrongInk id.ink).trans ink)
  have places := places k (begun.entryPlace at_)
  have counted := ((decideVerdict_acts (s.part.popDigest.resolveBegun i) i id true).same .sightings rfl).symm.trans begun.sightings
  rw [begun.decideEntry, begun.sightings] at places
  rw [begun.decideEntry] at decided
  have decision : s.part.popDigest.decision i id true =
      (((s.part.popDigest.resolveBegun i).decideVerdict i id true).1, (s.part.decideEntry i id).resolution) :=
    Prod.ext rfl decided
  have found := findPlace_written (begun.entryPlace at_)
    (show ((s.part.decideEntry i id).written i (satAdd max32 s.part.hs.sightings 1)).serial = id.serial from serves.serial) places
  rw [resolve_eq (by rw [popDigest_slot]; exact identity), decision] at plain resolved ⊢
  generalize ((s.part.popDigest.resolveBegun i).decideVerdict i id true).1 = d at *
  have place := concluded_place (i := i) (r := (s.part.decideEntry i id).resolution) (serial := id.serial) fun clone =>
    ⟨k, _, found, (places k).trans (if_pos rfl), clone⟩
  obtain ⟨remaining, postEmpty, exhausted⟩ := resolved.volumes.served serves.served
  refine ⟨resolved.state.trans (if_neg serves.served), resolved.verdict, resolved.linked.trans serves.linked, remaining,
    postEmpty, exhausted, resolved.tallyFull, resolved.uncommitted, resolved.units, ?_, fun j ne => ?_, ?_, resolved.notice⟩
  · rw [finish_place_plain _ plain, place, places, if_pos rfl]
  · rw [finish_place_plain _ plain, place, places, if_neg ne, begun.place]
  · exact ((finish_acts s.part _).same .sightings rfl).symm.trans ((concluded_sightings d i id.serial _).trans counted)

/-- R76: another holder of the serial, whose verdict is tracked. -/
theorem resolve_escalates (identity : (s.part.slot i).identity = some id) (unfolded : s.part.hs.foldAtWrite = false)
    (known : knownClass id.volumeClass = true) (ink : s.part.wrongInk i id.ink = false)
    (shared : s.part.heldElsewhere i id.serial = true) {j : Slot} {now : Verdict} (ne : j ≠ i)
    (carries : (s.part.slot j).carries id.serial = true) (group : (s.part.slot j).state.inServiceGroup = true)
    (verdict : (s.part.slot j).verdict = some now) (tracked : now.class = .tracked) :
    let q := Part.finish s.part (s.part.popDigest.resolve i true)
    (q.slot j).verdict = some .clone ∧ (q.slot j).state = (s.part.slot j).state ∧
      q.volumes j = { s.part.volumes j with low := false, spent := false } ∧
      (q.commit j).uncommitted = (s.part.commit j).uncommitted := by
  have begun := resolveBegun_begun s.part i
  have plain := resolve_plain i true unfolded
  have clone : (s.part.popDigest.decision i id true).2.verdict = .clone := by
    rw [Part.decision, (decideVerdict_accepted known ((begun.wrongInk id.ink).trans ink)).1, begun.decideEntry,
      decideEntry_clone shared]
    unfold decideClone
    split <;> rfl
  have history : Part.Acts .history (s.part.popDigest.resolveBegun i) (s.part.popDigest.decision i id true).1 :=
    decideVerdict_acts _ i id true
  have row : (s.part.popDigest.decision i id true).1.slot j = s.part.slot j :=
    (history.same (.slot j) rfl).symm.trans (begun.others j ne)
  have volumes : (s.part.popDigest.decision i id true).1.volumes j = s.part.volumes j :=
    (history.same (.volumes j) rfl).symm.trans (begun.volumes j)
  have uncommitted : ((s.part.popDigest.decision i id true).1.commit j).uncommitted = (s.part.commit j).uncommitted :=
    (congrArg CommitRow.uncommitted (history.same (.commit j) rfl)).symm.trans (begun.account j).uncommitted
  intro q
  have ended : q = Part.finish s.part (s.part.popDigest.resolve i true) := rfl
  rw [resolve_eq (by rw [popDigest_slot]; exact identity)] at plain ended
  generalize s.part.popDigest.decision i id true = d at *
  have moved := concluded_escalates clone ne (by rw [row]; exact carries) (by rw [row]; exact group) (by rw [row]; exact verdict)
    tracked
  rw [row, volumes, uncommitted] at moved
  rw [ended, finish_slot, finish_volumes, finish_commit_plain _ plain]
  exact moved

end Bringup

end Sys2Proof.Machine

end

-- ==== BringUp: Verdicts ====
section

/-! PROOFS. The verdict of each case of RESOLVE, with its starting values and its entry (R65 to R70). -/

set_option Elab.async false
namespace Sys2Proof.Machine
open Sys2Proof

/-! ## The units in doubt of an entry (R67) -/

theorem resolveUnits_none {e : Entry} (none : e.inDoubt = 0) (tally : Nat) : e.resolveUnits tally = e := if_pos none

theorem resolveUnits_applied {e : Entry} {tally : Nat} (doubt : e.inDoubt ≠ 0) (agrees : tally = e.tally + e.inDoubt) :
    e.resolveUnits tally = { e with tally := tally, carried := e.carried - e.inDoubt * unitVolume, inDoubt := 0 } := by
  rw [Entry.resolveUnits, if_neg doubt, if_pos agrees]

theorem resolveUnits_dropped {e : Entry} {tally : Nat} (other : tally ≠ e.tally + e.inDoubt ∨ e.inDoubt = 0) :
    e.resolveUnits tally = { e with inDoubt := 0 } := by
  by_cases none : e.inDoubt = 0
  · rw [resolveUnits_none none, ← none]
  · rw [Entry.resolveUnits, if_neg none, if_neg (other.resolve_right none)]

/-! ## The sticky verdicts (R66) -/

theorem decideSticky_uncommitted (id : Identity) (e : Entry) : (decideSticky id e).resolution.uncommitted =
    if e.inDoubt ≠ 0 ∧ id.tally = e.tally + e.inDoubt then e.carried - e.inDoubt * unitVolume else e.carried := by
  show (e.resolveUnits id.tally).carried = _
  by_cases applied : e.inDoubt ≠ 0 ∧ id.tally = e.tally + e.inDoubt
  · rw [if_pos applied, resolveUnits_applied applied.1 applied.2]
  · rw [if_neg applied, resolveUnits_dropped (by omega)]

theorem decideSticky_written (id : Identity) (e : Entry) (i : Slot) (n : Nat) : (decideSticky id e).written i n =
    { e with tally := max e.tally id.tally, inDoubt := 0, carried := 0, lastSlot := i, sighting := n } := by
  unfold decideSticky
  extract_lets e'
  by_cases applied : e.inDoubt ≠ 0 ∧ id.tally = e.tally + e.inDoubt
  · have resolved : e' = _ := resolveUnits_applied applied.1 applied.2
    rw [resolved]
    simp only [Decision.written, Resolution.fromEntry]
    rw [Nat.max_eq_right (by omega : e.tally ≤ id.tally), Nat.max_self]
  · have resolved : e' = _ := resolveUnits_dropped (by omega)
    rw [resolved]
    rfl

/-! ## The margin test (R70) -/

theorem marginTest_eq (r : Resolution) (margin : Nat) : r.marginTest margin =
    { r with verdict := if r.verdict.marginTested = true ∧ margin < r.postEmpty then .refilled else r.verdict } := by
  unfold Resolution.marginTest
  by_cases past : r.verdict.marginTested = true ∧ margin < r.postEmpty
  · rw [if_pos past, if_pos (by simpa using past)]
  · rw [if_neg past, if_neg (by simpa using past)]

/-! ## A known serial (R67, R68) -/

/-- R68: another cartridge under the serial, or a tally that agrees with no outcome or has fallen. -/
def Entry.Regresses (e : Entry) (id : Identity) : Prop :=
  e.volumeClass ≠ id.volumeClass ∨ e.ink ≠ id.ink ∨
    e.inDoubt ≠ 0 ∧ id.tally ≠ e.tally ∧ id.tally ≠ e.tally + e.inDoubt ∨ e.inDoubt = 0 ∧ id.tally < e.tally

theorem decideKnown_regresses {id : Identity} {e : Entry} (regresses : e.Regresses id) :
    decideKnown id e = ⟨.fromEntry .regressed e, { e with inDoubt := 0 }⟩ := by
  unfold decideKnown
  extract_lets tc disagrees e' remaining
  by_cases stranger : e.volumeClass ≠ id.volumeClass ∨ e.ink ≠ id.ink
  · rw [if_pos stranger]
  · rw [if_neg stranger]
    have tallies : e.inDoubt ≠ 0 ∧ id.tally ≠ e.tally ∧ id.tally ≠ e.tally + e.inDoubt ∨ e.inDoubt = 0 ∧ id.tally < e.tally :=
      regresses.elim (fun h => absurd (.inl h) stranger) fun h => h.elim (fun h => absurd (.inr h) stranger) fun h => h
    have resolved : e' = { e with inDoubt := 0 } := resolveUnits_dropped (by omega)
    have regressed : disagrees = true ∨ tc < e'.tally := by
      rw [resolved]
      rcases tallies with ⟨doubt, ne, ne'⟩ | ⟨-, lower⟩
      · exact .inl (by simp [disagrees, Entry.disagrees, doubt, ne, ne', tc])
      · exact .inr lower
    rw [if_pos regressed, resolved]
    rfl

/-- R68: the tally has risen. -/
theorem decideKnown_rises {id : Identity} {e : Entry} (volumeClass : e.volumeClass = id.volumeClass) (ink : e.ink = id.ink)
    (none : e.inDoubt = 0) (rises : e.tally < id.tally) {remaining : Nat}
    (left : remaining = min e.remaining (ratedVolume id.volumeClass - id.tally * unitVolume)) : decideKnown id e =
      ⟨⟨.used, remaining, e.postEmpty, remaining == 0, e.tallyFull, e.carried, true⟩, { e with tally := id.tally }⟩ := by
  unfold decideKnown
  extract_lets tc disagrees e' remaining'
  have resolved : e' = e := resolveUnits_none none _
  have agrees : disagrees = false := by simp [disagrees, Entry.disagrees, none]
  have same : remaining' = remaining := by rw [left, ← show e'.remaining = e.remaining from by rw [resolved]]
  rw [if_neg (by simp [volumeClass, ink]), agrees, same, resolved,
    if_neg (by simp only [Bool.false_eq_true, false_or]; omega), if_pos rises]

/-- R67, R68: the tally is the committed one, or the one with the units in doubt. -/
theorem decideKnown_agrees {id : Identity} {e : Entry} (volumeClass : e.volumeClass = id.volumeClass) (ink : e.ink = id.ink)
    (agrees : id.tally = e.tally ∨ e.inDoubt ≠ 0 ∧ id.tally = e.tally + e.inDoubt) : decideKnown id e =
      ⟨.fromEntry (if e.exhausted = true then .depleted else .resumed) (e.resolveUnits id.tally), e.resolveUnits id.tally⟩ := by
  have exhausted : (e.resolveUnits id.tally).exhausted = e.exhausted := by
    unfold Entry.resolveUnits
    split
    · rfl
    · split <;> rfl
  have tally : (e.resolveUnits id.tally).tally = id.tally := by
    by_cases applied : e.inDoubt ≠ 0 ∧ id.tally = e.tally + e.inDoubt
    · rw [resolveUnits_applied applied.1 applied.2]
    · rw [resolveUnits_dropped (by omega)]
      exact (agrees.resolve_right applied).symm
  unfold decideKnown
  extract_lets tc disagrees e' remaining
  have accepted : disagrees = false := by
    rcases agrees with same | ⟨-, applied⟩
    · simp [disagrees, Entry.disagrees, tc, same]
    · simp [disagrees, Entry.disagrees, tc, applied]
  have now : e'.tally = tc := tally
  rw [if_neg (by simp [volumeClass, ink]), accepted, if_neg (by simp [now]), if_neg (by omega), exhausted]
  split <;> rfl

theorem decideKnown_agrees_uncommitted {id : Identity} {e : Entry}
    (agrees : id.tally = e.tally ∨ e.inDoubt ≠ 0 ∧ id.tally = e.tally + e.inDoubt) : (e.resolveUnits id.tally).carried =
      if id.tally = e.tally then e.carried else e.carried - e.inDoubt * unitVolume := by
  by_cases same : id.tally = e.tally
  · rw [if_pos same, resolveUnits_dropped (by omega)]
  · obtain ⟨doubt, applied⟩ := agrees.resolve_left same
    rw [if_neg same, resolveUnits_applied doubt applied]

theorem decideKnown_agrees_written {id : Identity} {e : Entry} (v : Verdict)
    (agrees : id.tally = e.tally ∨ e.inDoubt ≠ 0 ∧ id.tally = e.tally + e.inDoubt) (i : Slot) (n : Nat) :
    Decision.written ⟨.fromEntry v (e.resolveUnits id.tally), e.resolveUnits id.tally⟩ i n =
      { e with verdict := v, tally := id.tally, inDoubt := 0, carried := 0, lastSlot := i, sighting := n } := by
  by_cases same : id.tally = e.tally
  · rw [resolveUnits_dropped (by omega), same]
    rfl
  · obtain ⟨doubt, applied⟩ := agrees.resolve_left same
    rw [resolveUnits_applied doubt applied]
    rfl

theorem resolveUnits_postEmpty (e : Entry) (tally : Nat) : (e.resolveUnits tally).postEmpty = e.postEmpty := by
  unfold Entry.resolveUnits
  split
  · rfl
  · split <;> rfl

/-! ## A serial never seen (R69) -/

/-- R69, R70: what a new serial starts with. -/
def newResolution (id : Identity) (margin : Nat) : Resolution :=
  if id.tally = 0 then ⟨.new, ratedVolume id.volumeClass, 0, false, false, 0, true⟩
  else if id.tally * unitVolume < ratedVolume id.volumeClass then
    ⟨.used, ratedVolume id.volumeClass - id.tally * unitVolume, 0, false, false, 0, true⟩
  else ⟨if margin < id.tally * unitVolume - ratedVolume id.volumeClass then .refilled else .depleted, 0,
    id.tally * unitVolume - ratedVolume id.volumeClass, true, false, 0, true⟩

theorem decideNew_margin (i : Slot) (id : Identity) (margin : Nat) :
    (decideNew i id margin).resolution.marginTest margin = newResolution id margin := by
  unfold decideNew newResolution
  extract_lets rated drawn r
  by_cases fresh : id.tally = 0
  · have start : r = _ := if_pos fresh
    rw [start, if_pos fresh, marginTest_eq, if_neg (by simp)]
  · by_cases filled : id.tally * unitVolume < ratedVolume id.volumeClass
    · have start : r = _ := (if_neg fresh).trans (if_pos filled)
      rw [start, if_neg fresh, if_pos filled, marginTest_eq, if_neg (by simp)]
    · by_cases past : margin < id.tally * unitVolume - ratedVolume id.volumeClass
      · have start : r = _ := (if_neg fresh).trans ((if_neg filled).trans (if_pos past))
        rw [start, if_neg fresh, if_neg filled, if_pos past, marginTest_eq, if_neg (by simp [Verdict.marginTested])]
      · have start : r = _ := (if_neg fresh).trans ((if_neg filled).trans (if_neg past))
        rw [start, if_neg fresh, if_neg filled, if_neg past, marginTest_eq, if_neg (fun h => past h.2)]

/-- R69: nothing is uncommitted, and the tally is not full. -/
theorem newResolution_account (id : Identity) (margin : Nat) : (newResolution id margin).uncommitted = 0 ∧
    (newResolution id margin).tallyFull = false ∧ (newResolution id margin).linked = true ∧
    (newResolution id margin).verdict.class ≠ .rejected := by
  unfold newResolution
  split
  · exact ⟨rfl, rfl, rfl, nofun⟩
  · split
    · exact ⟨rfl, rfl, rfl, nofun⟩
    · refine ⟨rfl, rfl, rfl, ?_⟩
      dsimp only
      split <;> exact nofun

/-! ## The cases of the check, as commands -/

section Cases

variable {s : State} {i : Slot} {id : Identity} {n : Nat}

/-- The check of a bring-up that matches, of a known class and the right ink, has just completed. -/
structure Checked (s : State) (i : Slot) (id : Identity) (n : Nat) : Prop where
  run : exec .challengeCheck s = s.after (s.part.popDigest.resolve i true)
  identity : (s.part.slot i).identity = some id
  unfolded : s.part.hs.foldAtWrite = false
  known : knownClass id.volumeClass = true
  ink : s.part.wrongInk i id.ink = false
  counted : n = satAdd max32 s.part.hs.sightings 1

theorem Checked.enters (h : Checked s i id n) {d : Decision} (decides : s.part.decideEntry i id = d) {k : Fin 64} {u : Nat} {e : Entry}
    (at_ : s.part.EntryPlace id.serial k) (uncommitted : d.resolution.uncommitted = u) (written : d.written i n = e) :
    Completes .challengeCheck s (.ofCommand .challengeCheck) fun q => s.part.EntersWith q i k u e := by
  have entered := resolve_enters h.identity h.unfolded h.known h.ink at_
  rw [decides, ← h.counted, uncommitted, written] at entered
  exact completes_after h.run entered

/-- R65, R76. -/
theorem Checked.clones (h : Checked s i id n) (shared : s.part.heldElsewhere i id.serial = true) :
    (∀ k e, s.part.findPlace id.serial = some k → (s.part.place k).entry = some e →
      Completes .challengeCheck s (.ofCommand .challengeCheck) fun q =>
        s.part.EntersWith q i k e.carried { e with verdict := .clone, carried := 0, remaining := 0, postEmpty := 0,
                                                   exhausted := false, lastSlot := i, sighting := n }) ∧
    ∀ k, s.part.findPlace id.serial = none → s.part.TakesEntry k →
      Completes .challengeCheck s (.ofCommand .challengeCheck) fun q =>
        s.part.EntersWith q i k 0 ⟨id.serial, id.ink, id.volumeClass, id.tally, 0, 0, 0, 0, .clone, false, false, i, n⟩ := by
  refine ⟨fun k e found entry => ?_, fun k new takes => ?_⟩
  · have decides : s.part.decideEntry i id = decideClone i id (some e) := by
      rw [decideEntry_clone shared, found, Option.bind_some, entry]
    exact h.enters decides (.inl found) rfl rfl
  · have decides : s.part.decideEntry i id = decideClone i id none := by
      rw [decideEntry_clone shared, new, Option.bind_none]
    exact h.enters decides (.inr ⟨new, takes⟩) rfl rfl

/-- R66. -/
theorem Checked.sticks (h : Checked s i id n) {k : Fin 64} {e : Entry} (alone : s.part.heldElsewhere i id.serial = false)
    (found : s.part.findPlace id.serial = some k) (entry : (s.part.place k).entry = some e) (sticky : e.verdict.sticky = true) :
    Completes .challengeCheck s (.ofCommand .challengeCheck) fun q =>
      s.part.EntersWith q i k
        (if e.inDoubt ≠ 0 ∧ id.tally = e.tally + e.inDoubt then e.carried - e.inDoubt * unitVolume else e.carried)
        { e with tally := max e.tally id.tally, inDoubt := 0, carried := 0, lastSlot := i, sighting := n } := by
  have decides : s.part.decideEntry i id = decideSticky id e := (decideEntry_known found entry alone).trans (if_pos sticky)
  exact h.enters decides (.inl found) (decideSticky_uncommitted id e) (decideSticky_written id e i n)

/-- R68: the decision for an entry whose verdict is not sticky. -/
theorem Checked.recalls (h : Checked s i id n) {k : Fin 64} {e : Entry} {d : Decision}
    (alone : s.part.heldElsewhere i id.serial = false) (found : s.part.findPlace id.serial = some k)
    (entry : (s.part.place k).entry = some e) (free : e.verdict.sticky = false) (decides : decideKnown id e = d) {u : Nat}
    {e' : Entry} (uncommitted : d.resolution.uncommitted = u)
    (written : Decision.written ⟨{ d.resolution with
      verdict := if d.resolution.verdict.marginTested = true ∧
          marginVolume s.part.au.margin id.volumeClass < d.resolution.postEmpty then .refilled
        else d.resolution.verdict }, d.entry⟩ i n = e') :
    Completes .challengeCheck s (.ofCommand .challengeCheck) fun q => s.part.EntersWith q i k u e' := by
  have all := (decideEntry_known found entry alone).trans (if_neg (by rw [free]; exact Bool.noConfusion))
  rw [decides, marginTest_eq] at all
  exact h.enters all (.inl found) uncommitted written

theorem Checked.regresses (h : Checked s i id n) {k : Fin 64} {e : Entry} (alone : s.part.heldElsewhere i id.serial = false)
    (found : s.part.findPlace id.serial = some k) (entry : (s.part.place k).entry = some e) (free : e.verdict.sticky = false)
    (regresses : e.Regresses id) : Completes .challengeCheck s (.ofCommand .challengeCheck) fun q =>
      s.part.EntersWith q i k e.carried
        { e with verdict := .regressed, inDoubt := 0, carried := 0, lastSlot := i, sighting := n } :=
  h.recalls alone found entry free (decideKnown_regresses regresses) rfl (by
    rw [if_neg (by simp [Resolution.fromEntry, Verdict.marginTested])]
    rfl)

theorem Checked.rises (h : Checked s i id n) {k : Fin 64} {e : Entry} (alone : s.part.heldElsewhere i id.serial = false)
    (found : s.part.findPlace id.serial = some k) (entry : (s.part.place k).entry = some e) (free : e.verdict.sticky = false)
    (volumeClass : e.volumeClass = id.volumeClass) (ink : e.ink = id.ink) (none : e.inDoubt = 0) (rises : e.tally < id.tally)
    {remaining : Nat} (left : remaining = min e.remaining (ratedVolume id.volumeClass - id.tally * unitVolume)) :
    Completes .challengeCheck s (.ofCommand .challengeCheck) fun q =>
      s.part.EntersWith q i k e.carried
        { e with verdict := if marginVolume s.part.au.margin id.volumeClass < e.postEmpty then .refilled else .used,
                 tally := id.tally, remaining := remaining, exhausted := decide (remaining = 0), carried := 0,
                 lastSlot := i, sighting := n } :=
  h.recalls alone found entry free (decideKnown_rises volumeClass ink none rises left) rfl (by
    simp only [Decision.written, Verdict.marginTested, true_and, beq_eq_decide])

theorem Checked.agrees (h : Checked s i id n) {k : Fin 64} {e : Entry} (alone : s.part.heldElsewhere i id.serial = false)
    (found : s.part.findPlace id.serial = some k) (entry : (s.part.place k).entry = some e) (free : e.verdict.sticky = false)
    (volumeClass : e.volumeClass = id.volumeClass) (ink : e.ink = id.ink)
    (agrees : id.tally = e.tally ∨ e.inDoubt ≠ 0 ∧ id.tally = e.tally + e.inDoubt) :
    Completes .challengeCheck s (.ofCommand .challengeCheck) fun q =>
      s.part.EntersWith q i k (if id.tally = e.tally then e.carried else e.carried - e.inDoubt * unitVolume)
        { e with verdict := if marginVolume s.part.au.margin id.volumeClass < e.postEmpty then .refilled
                   else if e.exhausted = true then .depleted else .resumed,
                 tally := id.tally, inDoubt := 0, carried := 0, lastSlot := i, sighting := n } := by
  refine h.recalls alone found entry free (decideKnown_agrees volumeClass ink agrees) (decideKnown_agrees_uncommitted agrees) ?_
  have tested : (if e.exhausted = true then Verdict.depleted else .resumed).marginTested = true := by split <;> rfl
  refine .trans (congrArg (fun v => Decision.written ⟨.fromEntry v (e.resolveUnits id.tally), _⟩ i n) ?_)
    (decideKnown_agrees_written _ agrees i n)
  simp only [Resolution.fromEntry, tested, true_and, resolveUnits_postEmpty]

/-- R69: the slot and the entry of a serial never seen. -/
theorem Checked.begins (h : Checked s i id n) (alone : s.part.heldElsewhere i id.serial = false)
    (new : s.part.findPlace id.serial = none) :
    let q := Part.finish s.part (s.part.popDigest.resolve i true)
    let r := newResolution id (marginVolume s.part.au.margin id.volumeClass)
    Part.Resolved i r q ∧ ∀ k, s.part.TakesEntry k → s.part.EntersWith q i k 0
      ⟨id.serial, id.ink, id.volumeClass, id.tally, r.remaining, 0, 0, r.postEmpty, r.verdict, r.exhausted, false, i, n⟩ := by
  intro q r
  obtain ⟨uncommitted, tallyFull, -, -⟩ := newResolution_account id (marginVolume s.part.au.margin id.volumeClass)
  have decides : s.part.decideEntry i id = ⟨r, newEntry i id⟩ := by
    rw [decideEntry_new new alone, decideNew_margin]
    rfl
  have resolved := resolve_accepts h.identity h.unfolded h.known h.ink
  rw [decides] at resolved
  refine ⟨resolved, fun k takes => ?_⟩
  have entered := resolve_enters h.identity h.unfolded h.known h.ink (.inr ⟨new, takes⟩)
  have written : (⟨r, newEntry i id⟩ : Decision).written i n =
      ⟨id.serial, id.ink, id.volumeClass, id.tally, r.remaining, 0, 0, r.postEmpty, r.verdict, r.exhausted, false, i, n⟩ := by
    rw [Decision.written, show r.tallyFull = false from tallyFull]
    rfl
  rwa [decides, show r.uncommitted = 0 from uncommitted, ← h.counted, written] at entered

theorem Checked.starts (h : Checked s i id n) (alone : s.part.heldElsewhere i id.serial = false)
    (new : s.part.findPlace id.serial = none) :
    Completes .challengeCheck s (.ofCommand .challengeCheck) fun q =>
      (q.slot i).state = .inService ∧ (q.slot i).historyLink = true ∧
      (q.commit i).uncommitted = 0 ∧ (q.commit i).inDoubt = 0 ∧ (q.commit i).tallyFull = false ∧
      (id.tally = 0 → (q.slot i).verdict = some .new ∧ (q.volumes i).remaining = ratedVolume id.volumeClass ∧
        (q.volumes i).postEmpty = 0 ∧ (q.volumes i).exhausted = false) ∧
      (0 < id.tally → id.tally * unitVolume < ratedVolume id.volumeClass →
        (q.slot i).verdict = some .used ∧
        (q.volumes i).remaining = ratedVolume id.volumeClass - id.tally * unitVolume ∧
        (q.volumes i).postEmpty = 0 ∧ (q.volumes i).exhausted = false) ∧
      (0 < id.tally → ratedVolume id.volumeClass ≤ id.tally * unitVolume →
        (q.volumes i).remaining = 0 ∧ (q.volumes i).postEmpty = id.tally * unitVolume - ratedVolume id.volumeClass ∧
        (q.volumes i).exhausted = true ∧
        (q.slot i).verdict = some
          (if marginVolume s.part.au.margin id.volumeClass < id.tally * unitVolume - ratedVolume id.volumeClass
            then .refilled else .depleted)) ∧
      ∀ k, s.part.TakesEntry k → ∃ v, (q.slot i).verdict = some v ∧
        s.part.EntersWith q i k 0 ⟨id.serial, id.ink, id.volumeClass, id.tally, (q.volumes i).remaining, 0, 0,
          (q.volumes i).postEmpty, v, (q.volumes i).exhausted, false, i, n⟩ := by
  obtain ⟨resolved, enters⟩ := h.begins alone new
  obtain ⟨uncommitted, tallyFull, linked, served⟩ := newResolution_account id (marginVolume s.part.au.margin id.volumeClass)
  obtain ⟨remaining, postEmpty, exhausted⟩ := resolved.volumes.served served
  refine completes_after h.run ⟨resolved.state.trans (if_neg served), resolved.linked.trans linked,
    resolved.uncommitted.trans uncommitted, resolved.units, resolved.tallyFull.trans tallyFull, fun fresh => ?_,
    fun drawn filled => ?_, fun drawn spent => ?_, fun k takes => ⟨_, resolved.verdict, ?_⟩⟩
  · rw [resolved.verdict, remaining, postEmpty, exhausted, newResolution, if_pos fresh]
    exact ⟨rfl, rfl, rfl, rfl⟩
  · rw [resolved.verdict, remaining, postEmpty, exhausted, newResolution, if_neg (by omega), if_pos filled]
    exact ⟨rfl, rfl, rfl, rfl⟩
  · rw [resolved.verdict, remaining, postEmpty, exhausted, newResolution, if_neg (by omega), if_neg (by omega)]
    exact ⟨rfl, rfl, rfl, rfl⟩
  · rw [remaining, postEmpty, exhausted]
    exact enters k takes

end Cases

/-- Settles O27: the cases of RESOLVE, and the check of a reverify. -/
theorem challengeCheckDecides : Obligations.ChallengeCheckDecides := by
  refine ⟨fun i s key nonce serial response tally id n head state identity unfolded counted => ⟨fun v cases => ?_,
    fun matched known ink => ?_⟩, fun i s key nonce serial response tally t now head state verdict served read range unfolded =>
      ⟨fun mismatched => recheck_mismatches head state verdict served read range unfolded mismatched,
        fun matched => recheck_matches head state read range unfolded matched⟩⟩
  · exact completes_after (exec_challengeCheck_resolve head state) (resolve_rejects identity unfolded cases)
  · have checked : Checked s i id n :=
      ⟨matched ▸ exec_challengeCheck_resolve head state, identity, unfolded, known, ink, counted⟩
    refine ⟨fun shared => ?_, fun k e alone found entry => ⟨fun sticky => checked.sticks alone found entry sticky,
      fun free => ⟨fun regresses => checked.regresses alone found entry free regresses,
        fun remaining volumeClass ink none rises left =>
          checked.rises alone found entry free volumeClass ink none rises left,
        fun volumeClass ink agrees => checked.agrees alone found entry free volumeClass ink agrees⟩⟩,
      fun alone new => checked.starts alone new⟩
    obtain ⟨known_, new⟩ := checked.clones shared
    exact ⟨known_, new, fun j now ne carries group verdict tracked => completes_after checked.run
      (resolve_escalates identity unfolded known ink shared ne carries group verdict tracked)⟩

end Sys2Proof.Machine

end

-- ==== BringUp: Records ====
section

/-! PROOFS. The slot records through the shared operations of the blocks: which fields of a record an update of a row makes
stale, and which a record write makes current (R24, R113, R120, R147). -/

set_option Elab.async false
namespace Sys2Proof.Machine
open Sys2Proof

/-! ## The fields of a slot record, by the rows that they stand for (12.3) -/

/-- The groups of fields of a slot record: the slot manager's, the flags byte that two blocks share, the volumes of the
accounting unit, the commit engine's, and the bytes that are always 0. -/
inductive FieldGroup where
  | manager | flags | volumes | commit | zero
deriving DecidableEq

/-- The fields of one group of a slot's record. -/
def Part.groupFields (p : Part) (i : Slot) : FieldGroup → List Field
  | .manager => p.slotIdentityFields i
  | .flags => [⟨4, 1, p.slotFlags i⟩]
  | .volumes =>
    let v := p.volumes i
    [⟨20, 4, v.remaining⟩, ⟨24, 4, v.thresholds.warn⟩, ⟨28, 4, v.thresholds.stop⟩, ⟨32, 4, v.postEmpty⟩, ⟨36, 4, v.maintenance⟩]
  | .commit => [⟨5, 1, (p.commit i).inDoubt⟩, ⟨40, 4, (p.commit i).uncommitted⟩]
  | .zero => slotZeroFields

theorem slotVolumeFields_eq (p : Part) (i : Slot) :
    p.slotVolumeFields i = p.groupFields i .flags ++ p.groupFields i .volumes := rfl

theorem slotCommitFields_eq (p : Part) (i : Slot) :
    p.slotCommitFields i = p.groupFields i .flags ++ p.groupFields i .commit := rfl

/-- Every field of a slot record is of some group, and every group is of the record. -/
theorem mem_slotRecord (p : Part) (i : Slot) (f : Field) :
    f ∈ p.slotFields i ++ slotZeroFields ↔ ∃ g, f ∈ p.groupFields i g := by
  simp only [Part.slotFields, slotVolumeFields_eq, slotCommitFields_eq, List.mem_append]
  constructor
  · rintro (((h | h | h) | h | h) | h)
    · exact ⟨.manager, h⟩
    · exact ⟨.flags, h⟩
    · exact ⟨.volumes, h⟩
    · exact ⟨.flags, h⟩
    · exact ⟨.commit, h⟩
    · exact ⟨.zero, h⟩
  · rintro ⟨g, h⟩
    cases g with
    | manager => exact .inl (.inl (.inl h))
    | flags => exact .inl (.inl (.inr (.inl h)))
    | volumes => exact .inl (.inl (.inr (.inr h)))
    | commit => exact .inl (.inr (.inr h))
    | zero => exact .inr h

/-- The group of the record of a slot shows what it stands for. -/
def Part.Current (p : Part) (i : Slot) (g : FieldGroup) : Prop := p.Shows (slotBase i) (p.groupFields i g)

theorem shows_slotRecord_iff (p : Part) (i : Slot) :
    p.Shows (slotBase i) (p.slotFields i ++ slotZeroFields) ↔ ∀ g, p.Current i g :=
  ⟨fun h g f hf => h f ((mem_slotRecord p i f).2 ⟨g, hf⟩), fun h f hf => by
    obtain ⟨g, hg⟩ := (mem_slotRecord p i f).1 hf
    exact h g f hg⟩

/-! ## What a record write shows -/

theorem Field.Apart.symm {f g : Field} (h : f.Apart g) : g.Apart f := by
  rcases h with h | h | h
  · exact .inr (.inl h)
  · exact .inl h
  · exact .inr (.inr h.symm)

/-- Any two fields of a slot record are apart. -/
theorem slotRecord_apart (p : Part) (i : Slot) {f g : Field} (hf : f ∈ p.slotFields i ++ slotZeroFields)
    (hg : g ∈ p.slotFields i ++ slotZeroFields) : f.Apart g := by
  by_cases e : f = g
  · exact .inr (.inr e)
  · have symm : Std.Symm Field.Apart := ⟨fun _ _ => Field.Apart.symm⟩
    exact (recordFields_apart p (.slot i)).forall hf hg e

/-- The record of the slot shows a field. -/
abbrev Part.ShowsField (p : Part) (i : Slot) (f : Field) : Prop := p.readField (slotBase i + f.offset) f.width = f.value % 256 ^ f.width

/-- A write of fields of a slot's record shows them, and leaves the fields of the record that it does not write. -/
theorem writeSlotRecord_showsField (p : Part) (block : Recorder) (i : Slot) (l : List Field)
    (sub : ∀ f ∈ l, f ∈ p.slotFields i) (hm : Memory.wf p.board = true) {f : Field}
    (hf : f ∈ p.slotFields i ++ slotZeroFields) (h : f ∈ l ++ slotZeroFields ∨ p.ShowsField i f) :
    (p.writeSlotRecord block i l).ShowsField i f := by
  have inside : ∀ g ∈ l ++ slotZeroFields, g ∈ p.slotFields i ++ slotZeroFields := fun g hg =>
    (List.mem_append.1 hg).elim (fun h => List.mem_append_left _ (sub g h)) (List.mem_append_right _)
  have fit : ∀ g ∈ l ++ slotZeroFields, 2 ≤ g.offset ∧ g.offset + g.width ≤ 62 := fun g hg =>
    recordFields_fit p (.slot i) g (inside g hg)
  have apart : (l ++ slotZeroFields).Pairwise Field.Apart :=
    List.pairwise_of_forall_mem_list fun f hf g hg => slotRecord_apart p i (inside f hf) (inside g hg)
  have range := recordFields_fit p (.slot i) f hf
  have disjoint (e : f ∉ l ++ slotZeroFields) (g : Field) (hg : g ∈ l ++ slotZeroFields) :
      f.offset + f.width ≤ g.offset ∨ g.offset + g.width ≤ f.offset := by
    rcases slotRecord_apart p i hf (inside g hg) with a | a | a
    · exact .inl a
    · exact .inr a
    · exact absurd (a ▸ hg) e
  rcases writeSlotRecord_cases p block i l with ⟨-, e⟩ | ⟨-, e⟩ <;> rw [e]
  · by_cases mem : f ∈ l ++ slotZeroFields
    · exact Memory.readField_writeFields _ _ hm apart mem
    · have kept := h.resolve_left mem
      refine (Memory.readField_writeFields_outside _ _ _ _ _ _ _ fun g hg => ?_).trans kept
      have := disjoint mem g hg
      omega
  · by_cases mem : f ∈ l ++ slotZeroFields
    · refine Memory.readField_writeFields _ _ hm (List.pairwise_append.2 ⟨List.pairwise_cons.2 ⟨fun g hg => .inl ?_, apart⟩,
        List.pairwise_singleton _ _, fun g hg k hk => ?_⟩) (List.mem_append_left _ (List.mem_cons_of_mem _ mem))
      · simpa using (fit g hg).1
      · simp only [List.mem_singleton] at hk
        subst hk
        rcases List.mem_cons.1 hg with rfl | hg
        · exact .inl (by simp)
        · exact .inl (by simpa using (fit g hg).2)
    · have kept := h.resolve_left mem
      refine (Memory.readField_writeFields_outside _ _ _ _ _ _ _ fun g hg => ?_).trans kept
      simp only [List.mem_append, List.mem_cons, List.not_mem_nil, or_false] at hg
      have low : 2 ≤ f.offset ∧ f.offset + f.width ≤ 62 := range
      rcases hg with (rfl | hg) | rfl
      · simp only; omega
      · have := disjoint mem g (List.mem_append.2 hg)
        omega
      · simp only; omega

end Sys2Proof.Machine

end

-- ==== BringUp: Presents ====
section

/-! PROOFS. The relation of the work that leaves the slot records showing what they stand for: its lemmas for updates of
rows, for record writes, and for work of known views. -/

set_option Elab.async false
namespace Sys2Proof.Machine
open Sys2Proof

/-! ## What a row gives to its record (12.3) -/

/-- What the record shows of a slot table row. -/
def SlotRow.shown (r : SlotRow) : SlotState × Option Verdict × Option Identity := (r.state, r.verdict, r.identity)

/-- What the record shows of a slot's volumes: all but a pending setting. -/
def Volumes.shown (v : Volumes) : Volumes := { v with pending := none }

/-- What the record shows of a commit row: LINK_LOST, TALLY_FULL, units in doubt, uncommitted volume. -/
def CommitRow.shown (r : CommitRow) : Bool × Bool × Nat × Nat := (r.linkLost, r.tallyFull, r.inDoubt, r.uncommitted)

theorem groupFields_manager {p q : Part} {i : Slot} (h : (q.slot i).shown = (p.slot i).shown) :
    q.groupFields i .manager = p.groupFields i .manager := by
  simp only [SlotRow.shown, Prod.mk.injEq] at h
  obtain ⟨state, verdict, identity⟩ := h
  simp only [Part.groupFields, Part.slotIdentityFields, state, verdict, identity]

theorem groupFields_flags {p q : Part} {i : Slot} (hv : (q.volumes i).shown = (p.volumes i).shown)
    (hc : (q.commit i).shown = (p.commit i).shown) : q.groupFields i .flags = p.groupFields i .flags := by
  simp only [Volumes.shown, Volumes.mk.injEq] at hv
  simp only [CommitRow.shown, Prod.mk.injEq] at hc
  simp only [Part.groupFields, Part.slotFlags, hv, hc]

theorem groupFields_volumes {p q : Part} {i : Slot} (hv : (q.volumes i).shown = (p.volumes i).shown) :
    q.groupFields i .volumes = p.groupFields i .volumes := by
  simp only [Volumes.shown, Volumes.mk.injEq] at hv
  simp only [Part.groupFields, hv]

theorem groupFields_commit {p q : Part} {i : Slot} (hc : (q.commit i).shown = (p.commit i).shown) :
    q.groupFields i .commit = p.groupFields i .commit := by
  simp only [CommitRow.shown, Prod.mk.injEq] at hc
  simp only [Part.groupFields, hc]

theorem groupFields_congr {p q : Part} {i : Slot} (hs : (q.slot i).shown = (p.slot i).shown)
    (hv : (q.volumes i).shown = (p.volumes i).shown) (hc : (q.commit i).shown = (p.commit i).shown) (g : FieldGroup) :
    q.groupFields i g = p.groupFields i g := by
  cases g with
  | manager => exact groupFields_manager hs
  | flags => exact groupFields_flags hv hc
  | volumes => exact groupFields_volumes hv
  | commit => exact groupFields_commit hc
  | zero => rfl

/-! ## The relation -/

/-- Groups of fields that may not show what they stand for. -/
abbrev Stale := Slot → FieldGroup → Prop

/-- No group is stale. -/
def Stale.none : Stale := fun _ _ => False

/-- Some groups of one slot's record are stale as well. -/
def Stale.plus (S : Stale) (i : Slot) (l : List FieldGroup) : Stale := fun j g => S j g ∨ (j = i ∧ g ∈ l)

/-- In a step from `b` the board is sound, the slot records show what they stand for but for the stale groups, and the
byte order and the records above are still those of `b`. -/
structure Part.Stands (p b : Part) (S : Stale) : Prop where
  sound : Memory.Sound p.board
  current : ∀ i g, ¬ S i g → p.Current i g
  order : p.port.bigEndian = b.port.bigEndian
  above : ∀ a, 0xD00 ≤ a → a < 0xF00 → p.readByte a = b.readByte a

/-- Work that leaves the slot records showing what they stand for, whatever was stale before. -/
def Part.Presents (p q : Part) : Prop := ∀ b S, p.Stands b S → q.Stands b S

/-- Work that leaves no more stale than some groups of one slot's record. -/
def Part.Stales (i : Slot) (l : List FieldGroup) (p q : Part) : Prop := ∀ b S, p.Stands b S → q.Stands b (S.plus i l)

/-- Work that makes stale groups of one slot's record current. -/
def Part.Refreshes (i : Slot) (l : List FieldGroup) (p q : Part) : Prop := ∀ b S, p.Stands b (S.plus i l) → q.Stands b S

theorem Part.Presents.refl (p : Part) : Part.Presents p p := fun _ _ h => h

theorem Part.Presents.trans {p q r : Part} (h : Part.Presents p q) (k : Part.Presents q r) : Part.Presents p r :=
  fun b S x => k b S (h b S x)

theorem Part.Presents.foldl {α : Type} {f : Part → α → Part} (h : ∀ p x, Part.Presents p (f p x)) (l : List α) (p : Part) :
    Part.Presents p (l.foldl f p) := by
  induction l generalizing p with
  | nil => exact .refl p
  | cons x rest ih => exact (h p x).trans (ih (f p x))

theorem Part.Presents.forSlots {f : Part → Slot → Part} (h : ∀ p i, Part.Presents p (f p i)) (p : Part) :
    Part.Presents p (p.forSlots f) := .foldl h allSlots p

/-- What some work makes stale, later work makes current. -/
theorem Part.Stales.refreshed {p q r : Part} {i : Slot} {l : List FieldGroup} (h : Part.Stales i l p q)
    (k : Part.Refreshes i l q r) : Part.Presents p r := fun b S x => k b S (h b S x)

theorem Part.Stales.trans {p q r : Part} {i : Slot} {l : List FieldGroup} (h : Part.Stales i l p q)
    (k : Part.Presents q r) : Part.Stales i l p r := fun b S x => k b _ (h b S x)

theorem Part.Refreshes.trans {p q r : Part} {i : Slot} {l : List FieldGroup} (h : Part.Refreshes i l p q)
    (k : Part.Presents q r) : Part.Refreshes i l p r := fun b S x => k b _ (h b S x)

theorem Part.Stands.mono {b p : Part} {S T : Stale} (h : p.Stands b S) (k : ∀ i g, S i g → T i g) : p.Stands b T :=
  ⟨h.sound, fun i g n => h.current i g fun s => n (k i g s), h.order, h.above⟩

theorem Part.Presents.stales {p q : Part} (h : Part.Presents p q) (i : Slot) (l : List FieldGroup) : Part.Stales i l p q :=
  fun b S x => (h b S x).mono fun _ _ => .inl

theorem Part.Stales.mono {p q : Part} {i : Slot} {l m : List FieldGroup} (h : Part.Stales i l p q) (k : l ⊆ m) :
    Part.Stales i m p q := fun b S x => (h b S x).mono fun _ _ => Or.imp id (And.imp id fun y => k y)

/-- Work that makes groups of one slot's record stale, on top of such work. -/
theorem Part.Stales.comp {p q r : Part} {i : Slot} {l : List FieldGroup} (h : Part.Stales i l p q)
    (k : Part.Stales i l q r) : Part.Stales i l p r := fun b S x => (k b _ (h b S x)).mono fun _ _ y => by
  rcases y with (y | y) | y
  · exact .inl y
  · exact .inr y
  · exact .inr y

/-! ## Work that leaves the records' bytes -/

/-- Fields stand where the bytes that hold them stay. -/
theorem Part.Shows.congr {p q : Part} {base size : Nat} {l : List Field} (h : p.Shows base l)
    (fit : ∀ f ∈ l, f.offset + f.width ≤ size) (bytes : ∀ a, base ≤ a → a < base + size → q.readByte a = p.readByte a)
    (order : q.port.bigEndian = p.port.bigEndian) : q.Shows base l := by
  intro f hf
  rw [← h f hf]
  have range := fit f hf
  unfold Part.readField Memory.readField
  rw [order]
  congr 1
  exact Memory.readBytes_congr _ _ _ _ fun a lo hi => bytes a (by omega) (by omega)

theorem groupFields_fit {p : Part} {i : Slot} {g : FieldGroup} {f : Field} (hf : f ∈ p.groupFields i g) :
    f.offset + f.width ≤ 64 := by
  have range := recordFields_fit p (.slot i) f ((mem_slotRecord p i f).2 ⟨g, hf⟩)
  simp only [RecordId.size] at range
  omega

/-- The bytes of a group of a slot record, unchanged, are current when its fields are. -/
theorem Part.Current.congr {p q : Part} {i : Slot} {g : FieldGroup} (h : p.Current i g)
    (bytes : ∀ a, slotBase i ≤ a → a < slotBase i + 64 → q.readByte a = p.readByte a)
    (order : q.port.bigEndian = p.port.bigEndian) (fields : q.groupFields i g = p.groupFields i g) : q.Current i g := by
  rw [Part.Current, fields]
  exact Part.Shows.congr h (fun _ => groupFields_fit) bytes order

/-- Work that leaves the bytes and the byte order leaves what is current, where the fields stay. -/
theorem Part.Stands.frame {b p q : Part} {S T : Stale} (h : p.Stands b S) (sound : Memory.Sound p.board → Memory.Sound q.board)
    (bytes : ∀ a, 0xA00 ≤ a → a < 0xF00 → q.readByte a = p.readByte a) (order : q.port.bigEndian = p.port.bigEndian)
    (fields : ∀ i g, ¬ T i g → ¬ S i g ∧ q.groupFields i g = p.groupFields i g) : q.Stands b T where
  sound := sound h.sound
  current i g n := by
    have := i.isLt
    exact (h.current i g (fields i g n).1).congr
      (fun a lo hi => bytes a (by simp only [slotBase] at lo; omega) (by simp only [slotBase] at hi; omega)) order (fields i g n).2
  order := order.trans h.order
  above a lo hi := (bytes a (by omega) hi).trans (h.above a lo hi)

/-- The views in which nothing of the records and of what slot records stand for shows. -/
def Views.unrecorded : Views
  | .slot _ | .volumes _ | .commit _ | .byteOrder => false
  | .byte a => !(decide (0xA00 ≤ a) && decide (a < 0xF00))
  | _ => true

/-- The same views, and the commit rows. -/
def Views.accountOnly : Views
  | .commit _ => true
  | v => Views.unrecorded v

/-- Work outside the records and the rows that they stand for, but for commit rows whose account stays. -/
theorem Part.Acts.presents_of_account {t : Views} {p q : Part} (h : Part.Acts t p q) (le : Views.le t .accountOnly)
    (account : ∀ i, (q.commit i).shown = (p.commit i).shown) : Part.Presents p q := fun b S x => by
  have same := h.same.mono le
  refine x.frame h.board (fun a lo hi => (same (.byte a) ?_).symm) (same .byteOrder rfl).symm fun i g n => ⟨n, ?_⟩
  · simp [Views.accountOnly, Views.unrecorded, lo, hi]
  · have slot : q.slot i = p.slot i := (same (.slot i) rfl).symm
    have volumes : q.volumes i = p.volumes i := (same (.volumes i) rfl).symm
    exact groupFields_congr (by rw [slot]) (by rw [volumes]) (account i) g

/-- Work outside the records and the rows that they stand for. -/
theorem Part.Acts.presents {t : Views} {p q : Part} (h : Part.Acts t p q) (le : Views.le t .unrecorded) : Part.Presents p q :=
  h.presents_of_account (Views.le_trans le fun v e => by cases v <;> first | rfl | exact e) fun i => by
    have row : q.commit i = p.commit i := (h.same.mono le (.commit i) rfl).symm
    rw [row]

theorem Part.Flushes.shown {p q : Part} (h : Part.Flushes p q) (i : Slot) : (q.commit i).shown = (p.commit i).shown := by
  simp only [CommitRow.shown, (h.rows i).linkLost, (h.rows i).tallyFull, h.inDoubt i, h.uncommitted i]

/-- Work of the link pool and of the commit engine's examinations. -/
theorem Part.Acts.presents_of_flushes {t : Views} {p q : Part} (h : Part.Acts t p q) (le : Views.le t .linking)
    (f : Part.Flushes p q) : Part.Presents p q :=
  h.presents_of_account (Views.le_trans le fun v e => by
    cases v <;> simp_all [Views.accountOnly, Views.unrecorded, Views.linking, Views.flushing, Views.completing]
    omega) f.shown

theorem Views.completing_unrecorded : Views.le .completing .unrecorded := fun v e => by
  cases v <;> simp_all [Views.unrecorded, Views.completing]
  omega

theorem Views.history_unrecorded : Views.le .history .unrecorded := fun v e => by
  cases v <;> simp_all [Views.unrecorded, Views.history]

theorem Views.only_unrecorded {v : View} (h : Views.unrecorded v = true) : Views.le (.only v) .unrecorded := fun w e => by
  rw [show w = v by simpa [Views.only] using e]
  exact h

/-- An update that leaves the rows, the board and the port. -/
theorem Part.Presents.of_same {p q : Part} (sm : q.sm = p.sm := by rfl) (volumes : q.au.slots = p.au.slots := by rfl)
    (ce : q.ce.rows = p.ce.rows := by rfl) (port : q.port.bigEndian = p.port.bigEndian := by rfl)
    (board : q.board = p.board := by rfl) : Part.Presents p q := fun b S x => by
  refine x.frame (fun h => board ▸ h) (fun a _ _ => by rw [Part.readByte, board]; rfl) port fun i g n =>
    ⟨n, groupFields_congr (p := p) ?_ ?_ ?_ g⟩
  · rw [Part.slot, sm]; rfl
  · rw [Part.volumes, volumes]; rfl
  · rw [Part.commit, ce]; rfl

/-! ## Updates of rows -/

theorem setSlot_presents (p : Part) (i : Slot) (r : SlotRow) (h : r.shown = (p.slot i).shown) :
    Part.Presents p (p.setSlot i r) := fun b S x => by
  refine x.frame id (fun _ _ _ => rfl) rfl fun j g n => ⟨n, groupFields_congr (p := p) (q := p.setSlot i r) (i := j) ?_ rfl rfl g⟩
  by_cases e : j = i
  · rw [e, Part.setSlot_slot_self]; exact h
  · rw [Part.setSlot_slot_ne p i r j e]

theorem setSlot_stales (p : Part) (i : Slot) (r : SlotRow) : Part.Stales i [.manager] p (p.setSlot i r) := fun b S x => by
  refine x.frame id (fun _ _ _ => rfl) rfl fun j g n => ⟨fun s => n (.inl s), ?_⟩
  by_cases e : j = i
  · cases g with
    | manager => exact absurd (.inr ⟨e, List.mem_singleton.2 rfl⟩) n
    | _ => rfl
  · exact groupFields_congr (p := p) (q := p.setSlot i r) (i := j) (by rw [Part.setSlot_slot_ne p i r j e]) rfl rfl g

theorem setVolumes_presents (p : Part) (i : Slot) (r : Volumes) (h : r.shown = (p.volumes i).shown) :
    Part.Presents p (p.setVolumes i r) := fun b S x => by
  refine x.frame id (fun _ _ _ => rfl) rfl fun j g n => ⟨n, groupFields_congr (p := p) (q := p.setVolumes i r) (i := j) rfl ?_ rfl g⟩
  by_cases e : j = i
  · rw [e, Part.setVolumes_volumes_self]; exact h
  · rw [Part.setVolumes_volumes_ne p i r j e]

theorem setVolumes_stales (p : Part) (i : Slot) (r : Volumes) : Part.Stales i [.flags, .volumes] p (p.setVolumes i r) :=
  fun b S x => by
  refine x.frame id (fun _ _ _ => rfl) rfl fun j g n => ⟨fun s => n (.inl s), ?_⟩
  by_cases e : j = i
  · cases g with
    | flags | volumes => exact absurd (.inr ⟨e, by decide⟩) n
    | _ => rfl
  · exact groupFields_congr (p := p) (q := p.setVolumes i r) (i := j) rfl (by rw [Part.setVolumes_volumes_ne p i r j e]) rfl g

theorem setCommit_presents (p : Part) (i : Slot) (r : CommitRow) (h : r.shown = (p.commit i).shown) :
    Part.Presents p (p.setCommit i r) := fun b S x => by
  refine x.frame id (fun _ _ _ => rfl) rfl fun j g n => ⟨n, groupFields_congr (p := p) (q := p.setCommit i r) (i := j) rfl rfl ?_ g⟩
  by_cases e : j = i
  · rw [e, Part.setCommit_commit_self]; exact h
  · rw [Part.setCommit_commit_ne p i r j e]

theorem setCommit_stales (p : Part) (i : Slot) (r : CommitRow) : Part.Stales i [.flags, .commit] p (p.setCommit i r) :=
  fun b S x => by
  refine x.frame id (fun _ _ _ => rfl) rfl fun j g n => ⟨fun s => n (.inl s), ?_⟩
  by_cases e : j = i
  · cases g with
    | flags | commit => exact absurd (.inr ⟨e, by decide⟩) n
    | _ => rfl
  · exact groupFields_congr (p := p) (q := p.setCommit i r) (i := j) rfl rfl (by rw [Part.setCommit_commit_ne p i r j e]) g

theorem updSlot_presents (p : Part) (i : Slot) (f : SlotRow → SlotRow) (h : (f (p.slot i)).shown = (p.slot i).shown := by rfl) :
    Part.Presents p (p.updSlot i f) := setSlot_presents p i _ h

theorem updSlot_stales (p : Part) (i : Slot) (f : SlotRow → SlotRow) : Part.Stales i [.manager] p (p.updSlot i f) :=
  setSlot_stales p i _

theorem updVolumes_stales (p : Part) (i : Slot) (f : Volumes → Volumes) :
    Part.Stales i [.flags, .volumes] p (p.updVolumes i f) := setVolumes_stales p i _

theorem updCommit_presents (p : Part) (i : Slot) (f : CommitRow → CommitRow)
    (h : (f (p.commit i)).shown = (p.commit i).shown := by rfl) : Part.Presents p (p.updCommit i f) :=
  setCommit_presents p i _ h

theorem updCommit_stales (p : Part) (i : Slot) (f : CommitRow → CommitRow) :
    Part.Stales i [.flags, .commit] p (p.updCommit i f) := setCommit_stales p i _

/-! ## Record writes (R147) -/

theorem writeSlotRecord_groupFields (p : Part) (block : Recorder) (i j : Slot) (l : List Field) (g : FieldGroup) :
    (p.writeSlotRecord block i l).groupFields j g = p.groupFields j g := by
  rcases writeSlotRecord_cases p block i l with ⟨-, e⟩ | ⟨-, e⟩ <;> rw [e] <;> exact groupFields_congr rfl rfl rfl g

/-- A record write makes the groups that it writes current, and leaves the others. -/
theorem writeSlotRecord_refreshes (p : Part) (block : Recorder) (i : Slot) (l : List Field) (gs : List FieldGroup)
    (sub : ∀ f ∈ l, f ∈ p.slotFields i) (all : ∀ g ∈ gs, ∀ f ∈ p.groupFields i g, f ∈ l) :
    Part.Refreshes i gs p (p.writeSlotRecord block i l) := fun b S x => by
  have fit : FitsRecord 62 l := fun f hf => slotFields_fit p i f (sub f hf)
  have acts := writeSlotRecord_acts p block i l fit
  have order : (p.writeSlotRecord block i l).port.bigEndian = p.port.bigEndian := (acts.same .byteOrder rfl).symm
  have spare (a : Nat) (h : a < slotBase i ∨ slotBase i + 64 ≤ a) :
      (p.writeSlotRecord block i l).readByte a = p.readByte a :=
    (acts.same (.byte a) (by simp only [Views.slotRecord, Views.bytes]; simp; omega)).symm
  have top := i.isLt
  refine ⟨acts.board x.sound, fun j g n f hf => ?_, order.trans x.order, fun a lo hi =>
    (spare a (.inr (by simp only [slotBase]; omega))).trans (x.above a lo hi)⟩
  rw [writeSlotRecord_groupFields] at hf
  have mem := (mem_slotRecord p j f).2 ⟨g, hf⟩
  by_cases e : j = i
  · subst e
    refine writeSlotRecord_showsField p block j l sub x.sound.canonical mem ?_
    by_cases hg : g ∈ gs
    · exact .inl (List.mem_append_left _ (all g hg f hf))
    · exact .inr (x.current j g (fun s => s.elim n fun s => hg s.2) f hf)
  · have apart := slotRecords_apart e
    exact Part.Shows.congr (x.current j g fun s => s.elim n fun s => e s.1) (fun _ => groupFields_fit)
      (fun a lo hi => spare a (by omega)) order f hf

theorem recordIdentity_refreshes (p : Part) (i : Slot) : Part.Refreshes i [.manager] p (p.recordIdentity i) :=
  writeSlotRecord_refreshes p _ i _ _ (fun f h => by simp [Part.slotFields, h]) (by simp [Part.groupFields])

theorem recordVolumes_refreshes (p : Part) (i : Slot) : Part.Refreshes i [.flags, .volumes] p (p.recordVolumes i) :=
  writeSlotRecord_refreshes p _ i _ _ (fun f h => by simp [Part.slotFields, h])
    (by simp [slotVolumeFields_eq]; exact ⟨fun f => .inl, fun f => .inr⟩)

theorem recordCommit_refreshes (p : Part) (i : Slot) : Part.Refreshes i [.flags, .commit] p (p.recordCommit i) :=
  writeSlotRecord_refreshes p _ i _ _ (fun f h => by simp [Part.slotFields, h])
    (by simp [slotCommitFields_eq]; exact ⟨fun f => .inl, fun f => .inr⟩)

theorem recordShare_refreshes (p : Part) (i : Slot) : Part.Refreshes i [.flags, .volumes, .commit] p (p.recordShare i) :=
  writeSlotRecord_refreshes p _ i _ _ (fun f h => by simp only [Part.slotFields, List.mem_append] at h ⊢; tauto)
    (by simp [slotVolumeFields_eq, slotCommitFields_eq]; tauto)

theorem recordEscalation_refreshes (p : Part) (i : Slot) :
    Part.Refreshes i [.manager, .flags, .volumes] p (p.recordEscalation i) :=
  writeSlotRecord_refreshes p _ i _ _ (fun f h => by simp only [Part.slotFields, List.mem_append] at h ⊢; tauto)
    (by simp [slotVolumeFields_eq, Part.groupFields]; tauto)

theorem recordSlot_refreshes (p : Part) (i : Slot) :
    Part.Refreshes i [.manager, .flags, .volumes, .commit] p (p.recordSlot i) :=
  writeSlotRecord_refreshes p _ i _ _ (fun f h => h)
    (by simp [Part.slotFields, slotVolumeFields_eq, slotCommitFields_eq, Part.groupFields]; tauto)

end Sys2Proof.Machine

end

-- ==== BringUp: SlotsPresent ====
section

/-! PROOFS. The operations of the slot manager, of the commit engine and of RESOLVE leave the slot records showing what they
stand for (R24, R113, R120): each change of a row that a record shows is recorded before the operation ends. -/

set_option Elab.async false
namespace Sys2Proof.Machine
open Sys2Proof

theorem Part.Refreshes.presents {p q : Part} {i : Slot} {l : List FieldGroup} (h : Part.Refreshes i l p q) :
    Part.Presents p q := fun b S x => h b S (x.mono fun _ _ => .inl)

/-! ## Requests, notices, digests, the link pool -/

theorem raise_presents (p : Part) (c : NoticeClass) : Part.Presents p (p.raise c) := .of_same

theorem complete_presents (p : Part) (c : CellNo) (r : Result) (data : List Field) (fit : FitsIn 56 data) :
    Part.Presents p (p.complete c r data) := (complete_acts p c r data fit).presents Views.completing_unrecorded

theorem queueDigest_presents (p : Part) (o : DigestOwner) (op : DigestOp) : Part.Presents p (p.queueDigest o op) :=
  (queueDigest_acts p o op).presents (Views.only_unrecorded rfl)

theorem cancelDigest_presents (p : Part) (f : DigestEntry → Bool) : Part.Presents p (p.cancelDigest f) :=
  .of_same

theorem withLinks_presents (p : Part) (l : LinkPool) : Part.Presents p { p with lp := l } := .of_same

theorem setLink_presents (p : Part) (i : Slot) (l : LinkState) : Part.Presents p (p.setLink i l) := .of_same

theorem endFlush_presents (p : Part) (i : Slot) (cause : EndCause) : Part.Presents p (p.endFlush i cause) :=
  (endFlush_acts p i cause).presents_of_flushes Views.flushing_le_linking (endFlush_flushes p i cause)

theorem examineFlush_presents (p : Part) (i : Slot) : Part.Presents p (p.examineFlush i) :=
  (examineFlush_acts p i).presents_of_flushes Views.flushing_le_linking (examineFlush_flushes p i)

theorem takeFromList_presents (p : Part) : Part.Presents p p.takeFromList :=
  (takeFromList_acts p).presents_of_flushes (Views.le_refl _) (takeFromList_flushes p)

theorem testCommit_presents (p : Part) (i : Slot) : Part.Presents p (p.testCommit i) :=
  (testCommit_acts p i).presents_of_flushes (Views.le_refl _) (testCommit_flushes p i)

theorem testAll_presents (p : Part) : Part.Presents p p.testAll := .forSlots testCommit_presents p

theorem releaseReport_presents (p : Part) (i : Slot) : Part.Presents p (p.releaseReport i) :=
  (releaseReport_acts p i).presents_of_flushes (Views.le_refl _) (releaseReport_flushes p i)

theorem endHold_presents (p : Part) (i : Slot) : Part.Presents p (p.endHold i) :=
  (endHold_acts p i).presents_of_flushes (Views.le_refl _) (endHold_flushes p i)

theorem continueHold_presents (p : Part) (i : Slot) (success : Bool) : Part.Presents p (p.continueHold i success) :=
  (continueHold_acts p i success).presents_of_flushes (Views.le_refl _) (continueHold_flushes p i success)

theorem placeDeferred_presents (p : Part) (i : Slot) (d : Option LinkOp) : Part.Presents p (p.placeDeferred i d) :=
  (placeDeferred_acts p i d).presents_of_flushes (Views.le_refl _) (placeDeferred_flushes p i d)

/-! ## Channels and the history -/

theorem Views.channels_unrecorded : Views.le .channels .unrecorded := fun v e => by
  cases v <;> simp_all [Views.unrecorded, Views.channels]

theorem reselectFor_presents (p : Part) (i : Slot) : Part.Presents p (p.reselectFor i) :=
  (reselectFor_acts p i).presents Views.channels_unrecorded

theorem reselectIfActive_presents (p : Part) (i : Slot) : Part.Presents p (p.reselectIfActive i) :=
  (reselectIfActive_acts p i).presents Views.channels_unrecorded

theorem dropSource_presents (p : Part) (i : Slot) : Part.Presents p (p.dropSource i) :=
  (dropSource_acts p i).presents Views.channels_unrecorded

theorem changeLinkedEntry_presents (p : Part) (i : Slot) (f : Entry → Entry) : Part.Presents p (p.changeLinkedEntry i f) :=
  (changeLinkedEntry_acts p i f).presents Views.history_unrecorded

theorem changeEntry_presents (p : Part) (k : Fin 64) (f : Entry → Entry) : Part.Presents p (p.changeEntry k f) :=
  (changeEntry_acts p k f).presents Views.history_unrecorded

/-! ## Reports of a slot (R24) -/

theorem markLinkLost_presents (p : Part) (i : Slot) : Part.Presents p (p.markLinkLost i) := by
  rcases markLinkLost_cases p i with ⟨e, -⟩ | e <;> rw [e]
  · exact .refl p
  · exact (updCommit_stales p i _).refreshed (recordCommit_refreshes _ i)

theorem reportToCommit_presents (p : Part) (i : Slot) : Part.Presents p (p.reportToCommit i) := by
  rw [reportToCommit_eq]
  exact ((markLinkLost_presents p i).trans (examineFlush_presents _ i)).trans (testCommit_presents _ i)

theorem reportSlot_refreshes (p : Part) (i : Slot) : Part.Refreshes i [.manager] p (p.reportSlot i) :=
  ((recordIdentity_refreshes p i).trans (raise_presents _ _)).trans (reportToCommit_presents _ i)

/-- A row that changes and is then reported. -/
theorem reported_presents (p : Part) (i : Slot) (f : SlotRow → SlotRow) : Part.Presents p ((p.updSlot i f).reportSlot i) :=
  (updSlot_stales p i f).refreshed (reportSlot_refreshes _ i)

theorem changeState_presents (p : Part) (i : Slot) (s : SlotState) : Part.Presents p (p.changeState i s) :=
  reported_presents p i _

theorem finishReverify_presents (p : Part) (i : Slot) (r : Result) (data : List Field) (fit : FitsIn 56 data) :
    Part.Presents p (p.finishReverify i r data) := by
  unfold Part.finishReverify
  split
  · exact (updSlot_presents p i _).trans (complete_presents _ _ _ _ fit)
  · exact .refl p

/-! ## Escalation (R71, R72) -/

theorem abandonSlotWork_presents (p : Part) (i : Slot) : Part.Presents p (p.abandonSlotWork i) := by
  unfold Part.abandonSlotWork
  extract_lets p1 p2
  have cancelled : Part.Presents p p2 := (updSlot_presents p i _).trans (cancelDigest_presents p1 _)
  refine cancelled.trans ?_
  split
  · exact withLinks_presents _ _
  · exact setLink_presents _ _ _
  all_goals exact .refl _

theorem finishCounterfeit_presents (p : Part) (i : Slot) : Part.Presents p (p.finishCounterfeit i) := by
  unfold Part.finishCounterfeit
  split
  · exact finishReverify_presents _ _ _ _ (reverifyFields_fit _ _)
  · extract_lets t _ q
    have read : Part.Presents p q := .of_same
    exact read.trans (finishReverify_presents q _ _ _ (reverifyFields_fit _ _))
  · exact .refl p

theorem verdictMoved_presents (p : Part) (i : Slot) (next : Verdict) : Part.Presents p (p.verdictMoved i next) := by
  have row := (updSlot_stales p i fun r =>
    { r with verdict := some next, state := if next = .counterfeit then .rejected else r.state }).mono
    (m := [.manager, .flags, .volumes]) (by simp)
  have marks := fun q : Part => (updVolumes_stales q i fun v => { v with low := false, spent := false }).mono
    (m := [.manager, .flags, .volumes]) (by simp)
  exact (((row.comp (marks _)).refreshed (recordEscalation_refreshes _ i)).trans (raise_presents _ _)).trans
    (raise_presents _ _)

theorem verdictApplied_presents (p : Part) (i : Slot) (next : Verdict) : Part.Presents p (p.verdictApplied i next) := by
  unfold Part.verdictApplied
  split
  · exact (verdictMoved_presents p i next).trans (abandonSlotWork_presents _ i)
  · exact (verdictMoved_presents p i next).trans (changeLinkedEntry_presents _ i _)

theorem carryOutEscalation_presents (p : Part) (i : Slot) (next : Verdict) : Part.Presents p (p.carryOutEscalation i next) := by
  have reported : Part.Presents p (p.verdictReported i next) :=
    ((verdictApplied_presents p i next).trans (reselectIfActive_presents _ i)).trans (reportToCommit_presents _ i)
  rw [carryOutEscalation_eq]
  split
  · exact reported.trans (finishCounterfeit_presents _ i)
  · exact reported

theorem escalate_presents (p : Part) (i : Slot) (next : Verdict) : Part.Presents p (p.escalate i next) := by
  unfold Part.escalate
  split
  · split
    · exact carryOutEscalation_presents _ _ _
    · exact .refl p
  · exact .refl p

theorem testMargin_presents (p : Part) (i : Slot) : Part.Presents p (p.testMargin i) := by
  unfold Part.testMargin
  split
  · exact escalate_presents _ _ _
  · exact .refl p

/-! ## Attempts, link failures and joins (R27, R40, R42, R43) -/

theorem joinWindDown_presents (p : Part) (i : Slot) : Part.Presents p (p.joinWindDown i) := by
  unfold Part.joinWindDown
  split
  · exact updCommit_presents p i _
  · exact .refl p

theorem returnToService_presents (p : Part) (i : Slot) : Part.Presents p (p.returnToService i) :=
  ((updSlot_stales p i _).trans (joinWindDown_presents _ i)).refreshed (reportSlot_refreshes _ i)

theorem becomeLinkLost_presents (p : Part) (i : Slot) : Part.Presents p (p.becomeLinkLost i) := reported_presents p i _

theorem rejectUnreadable_presents (p : Part) (i : Slot) : Part.Presents p (p.rejectUnreadable i) := by
  unfold Part.rejectUnreadable
  extract_lets p1 p2
  have recorded : Part.Presents p (p1.recordIdentity i) := (updSlot_stales p i _).refreshed (recordIdentity_refreshes _ i)
  have reported : Part.Presents p p2 :=
    ((recorded.trans (raise_presents _ _)).trans (raise_presents _ _)).trans (reportToCommit_presents _ i)
  exact reported.trans (finishReverify_presents p2 i _ _ (FitsIn.nil _))

theorem suspendReverify_presents (p : Part) (i : Slot) : Part.Presents p (p.suspendReverify i) :=
  ((updSlot_presents p i _).trans (becomeLinkLost_presents _ i)).trans (finishReverify_presents _ i _ _ (FitsIn.nil _))

theorem attemptFailed_presents (p : Part) (i : Slot) : Part.Presents p (p.attemptFailed i) := by
  unfold Part.attemptFailed
  extract_lets n q
  have counted : Part.Presents p q := updSlot_presents p i _
  split
  · exact counted.trans (updSlot_presents q i _)
  · split
    · exact counted.trans (suspendReverify_presents q i)
    · exact counted.trans (rejectUnreadable_presents q i)

theorem placeBringUp_presents {p q : Part} {i : Slot} {op : LinkOp} (h : p.placeBringUp i op = some q) : Part.Presents p q := by
  unfold Part.placeBringUp at h
  split at h
  · cases h; exact withLinks_presents _ _
  · cases h
  · cases h; exact withLinks_presents _ _
  · split at h
    · cases h; exact setLink_presents _ _ _
    · cases h

theorem joinBringUp_presents (p : Part) (i : Slot) (op : LinkOp) : Part.Presents p (p.joinBringUp i op) := by
  unfold Part.joinBringUp
  split
  · rename_i q placed
    exact (placeBringUp_presents placed).trans (takeFromList_presents q)
  · split
    · exact updSlot_presents p i _
    · exact attemptFailed_presents p i

theorem linkFailed_presents (p : Part) (i : Slot) : Part.Presents p (p.linkFailed i) := by
  unfold Part.linkFailed
  split
  · extract_lets n q
    have counted : Part.Presents p q := updSlot_presents p i _
    split
    · exact counted.trans (becomeLinkLost_presents q i)
    · exact counted
  · exact .refl p

theorem linkSucceeded_presents (p : Part) (i : Slot) : Part.Presents p (p.linkSucceeded i) := updSlot_presents p i _

/-! ## Units in doubt (R122, R123) -/

theorem setInDoubt_presents (p : Part) (i : Slot) (units : Nat) : Part.Presents p (p.setInDoubt i units) :=
  ((updCommit_stales p i _).trans (changeLinkedEntry_presents _ i _)).refreshed (recordCommit_refreshes _ i)

theorem doubtUnsettled_presents (p : Part) (i : Slot) : Part.Presents p (p.doubtUnsettled i) := by
  unfold Part.doubtUnsettled
  split
  · exact (updCommit_presents p i _).trans (setInDoubt_presents _ i _)
  · exact .refl p

theorem clearUnsettled_presents (p : Part) (i : Slot) : Part.Presents p (p.clearUnsettled i) := updCommit_presents p i _

theorem unitsApplied_presents (p : Part) (i : Slot) (tally : Nat) : Part.Presents p (p.unitsApplied i tally) :=
  ((((updCommit_stales p i _).trans (changeLinkedEntry_presents _ i _)).refreshed (recordCommit_refreshes _ i)).trans
    (examineFlush_presents _ i)).trans (testCommit_presents _ i)

theorem resolveInDoubt_presents (p : Part) (i : Slot) (tally : Nat) : Part.Presents p (p.resolveInDoubt i tally) := by
  unfold Part.resolveInDoubt
  split
  · exact unitsApplied_presents p i tally
  · split
    · exact (setInDoubt_presents p i 0).trans (testCommit_presents _ i)
    · exact (setInDoubt_presents p i 0).trans (escalate_presents _ i _)

theorem compareTally_presents (p : Part) (i : Slot) (tally : Nat) : Part.Presents p (p.compareTally i tally) := by
  unfold Part.compareTally
  split
  · exact resolveInDoubt_presents p i tally
  · split
    · exact .refl p
    · exact escalate_presents p i _

/-! ## Outcomes of the slot manager's own operations (R26, R29, R39, R43) -/

theorem identified_presents (p : Part) (i : Slot) (id : Identity) : Part.Presents p (p.identified i id) :=
  (reported_presents p i _).trans (queueDigest_presents _ _ _)

theorem challenged_presents (p : Part) (i : Slot) (response : Quad) : Part.Presents p (p.challenged i response) := by
  unfold Part.challenged
  extract_lets q
  have reported : Part.Presents p q := reported_presents p i _
  exact reported.trans (queueDigest_presents _ _ _)

theorem reverifyChallenged_presents (p : Part) (i : Slot) (response : Quad) :
    Part.Presents p (p.reverifyChallenged i response) :=
  ((updSlot_presents p i _).trans (updCommit_presents _ i _)).trans (joinBringUp_presents _ i _)

theorem reverifyRead_presents (p : Part) (i : Slot) (tally : Nat) : Part.Presents p (p.reverifyRead i tally) :=
  (updSlot_presents p i _).trans (queueDigest_presents _ _ _)

theorem resumeReverify_presents (p : Part) (i : Slot) : Part.Presents p (p.resumeReverify i) := reported_presents p i _

theorem probeOutcome_presents (p : Part) (i : Slot) (o : LinkOutcome) : Part.Presents p (p.probeOutcome i o) := by
  unfold Part.probeOutcome
  split
  · exact (resumeReverify_presents p i).trans (reverifyChallenged_presents _ i _)
  · split
    · exact (resumeReverify_presents p i).trans (reverifyRead_presents _ i _)
    · exact (compareTally_presents p i _).trans (returnToService_presents _ i)
  all_goals exact updSlot_presents p i _

theorem outcomeFailed_presents (p : Part) (i : Slot) (o : LinkOutcome) : Part.Presents p (p.outcomeFailed i o) := by
  unfold Part.outcomeFailed
  split
  · exact attemptFailed_presents p i
  · exact .refl p

theorem slotOutcome_presents (p : Part) (i : Slot) (o : LinkOutcome) : Part.Presents p (p.slotOutcome i o) := by
  unfold Part.slotOutcome
  split
  · exact .refl p
  · split
    · exact identified_presents p i _
    · exact challenged_presents p i _
    · exact reverifyChallenged_presents p i _
    · exact reverifyRead_presents p i _
    · exact probeOutcome_presents p i _
    · exact outcomeFailed_presents p i _
    · exact outcomeFailed_presents p i _
    · exact outcomeFailed_presents p i _
    · exact .refl p

/-! ## Removal (R19, R44, R54) -/

theorem cutLink_presents (p : Part) (i : Slot) : Part.Presents p (p.cutLink i) := by
  unfold Part.cutLink
  split
  · exact .refl p
  · exact withLinks_presents _ _
  · exact withLinks_presents _ _
  · exact ((setLink_presents p i _).trans (doubtUnsettled_presents _ i)).trans (takeFromList_presents _)

theorem removalHandling_presents (p : Part) (i : Slot) : Part.Presents p (p.removalHandling i) :=
  ((changeLinkedEntry_presents p i _).trans (.refl _)).trans
    ((updCommit_stales _ i _).refreshed (recordCommit_refreshes _ i))

theorem emptySlot_presents (p : Part) (i : Slot) : Part.Presents p (p.emptySlot i) := by
  have all : ∀ l : List FieldGroup, l ∈ [[.manager], [.flags, .volumes], [.flags, .commit]] →
      l ⊆ ([.manager, .flags, .volumes, .commit] : List FieldGroup) := by decide
  have rows := ((setSlot_stales p i SlotRow.blank).mono (all _ (by simp))).comp
    ((setVolumes_stales _ i Volumes.blank).mono (all _ (by simp)))
  have blank := rows.comp ((setCommit_stales _ i
    { CommitRow.blank with windDownEnded := (((p.setSlot i SlotRow.blank).setVolumes i Volumes.blank).commit i).windDownEnded }).mono
    (all _ (by simp)))
  exact ((blank.refreshed (recordSlot_refreshes _ i)).trans (raise_presents _ _)).trans (reportToCommit_presents _ i)

theorem removal_presents (p : Part) (i : Slot) : Part.Presents p (p.removal i) := by
  unfold Part.removal
  extract_lets p1 p2 p3 cell p4
  have cut : Part.Presents p p2 := (((endFlush_presents p i _).trans (cutLink_presents _ i)).trans
    (updSlot_presents p1 i _)).trans (cancelDigest_presents _ _)
  have handled : Part.Presents p2 p3 := by
    unfold p3
    split
    · exact removalHandling_presents p2 i
    · exact .refl p2
  have emptied : Part.Presents p3 p4 := (emptySlot_presents p3 i).trans (dropSource_presents _ i)
  refine (cut.trans handled).trans (emptied.trans ?_)
  clear_value cell
  cases cell with
  | some cell => exact complete_presents _ _ _ _ (FitsIn.nil _)
  | none => exact .refl _

end Sys2Proof.Machine

end

-- ==== BringUp: WorkPresents ====
section

/-! PROOFS. RESOLVE, the accounting, the settings, the holds and the saver leave the slot records showing what they stand for
(R31, R109, R113, R120, R126, R55, R57). -/

set_option Elab.async false
namespace Sys2Proof.Machine
open Sys2Proof

/-- Stale groups that later work makes stale as well are made current with them. -/
theorem Part.Stales.refreshes {p q r : Part} {i : Slot} {l m : List FieldGroup} (h : Part.Stales i m p q) (sub : l ⊆ m)
    (k : Part.Refreshes i m q r) : Part.Refreshes i l p r := fun b S x =>
  k b S ((h b _ x).mono fun _ _ y => by
    rcases y with (y | ⟨e, y⟩) | y
    · exact .inl y
    · exact .inr ⟨e, sub y⟩
    · exact .inr y)

/-! ## RESOLVE (R31, R63, R76) -/

theorem enterVolumes_presents (p : Part) (i : Slot) (remaining postEmpty : Nat) (exhausted : Bool) :
    Part.Presents p (p.enterVolumes i remaining postEmpty exhausted) :=
  (setVolumes_stales p i _).refreshed (recordVolumes_refreshes _ i)

theorem verdictEntered_presents (p : Part) (i : Slot) (r : Resolution) : Part.Presents p (p.verdictEntered i r) := by
  unfold Part.verdictEntered
  extract_lets q
  have recorded : Part.Presents p q :=
    ((updSlot_stales p i _).refreshed (recordIdentity_refreshes _ i)).trans (raise_presents _ _)
  split
  · exact recorded
  · exact recorded.trans (raise_presents q _)

theorem accountEntered_presents (p : Part) (i : Slot) (r : Resolution) : Part.Presents p (p.accountEntered i r) := by
  have volumes : Part.Presents (p.verdictEntered i r) (p.volumesEntered i r) := by
    unfold Part.volumesEntered
    split
    · exact (setVolumes_stales _ i _).refreshed (recordVolumes_refreshes _ i)
    · exact enterVolumes_presents _ i _ _ _
  exact ((verdictEntered_presents p i r).trans volumes).trans
    ((updCommit_stales _ i _).refreshed (recordCommit_refreshes _ i))

theorem completeBringUp_presents (p : Part) (i : Slot) (r : Resolution) : Part.Presents p (p.completeBringUp i r) := by
  have source : Part.Presents p (p.sourceEntered i r) := by
    unfold Part.sourceEntered
    split
    · exact accountEntered_presents p i r
    · exact ((accountEntered_presents p i r).trans (reselectFor_presents _ i)).trans (joinWindDown_presents _ i)
  rw [completeBringUp_eq]
  exact (source.trans (reportToCommit_presents _ i)).trans (finishReverify_presents _ i _ _ (reverifyFields_fit _ _))

theorem escalateHolders_presents (p : Part) (i : Slot) (serial : Quad) : Part.Presents p (p.escalateHolders i serial) := by
  rw [escalateHolders_eq]
  refine .forSlots (fun q j => ?_) p
  rcases escalateHolder_cases i serial q j with e | ⟨e, -⟩ <;> rw [e]
  · exact .refl q
  · exact escalate_presents q j _

theorem concluded_presents (d : Part) (i : Slot) (serial : Quad) (r : Resolution) : Part.Presents d (d.concluded i serial r) := by
  unfold Part.concluded
  split
  · exact (completeBringUp_presents d i r).trans (escalateHolders_presents _ i serial)
  · exact completeBringUp_presents d i r

theorem countSighting_presents (p : Part) : Part.Presents p p.countSighting := .of_same

theorem resolve_presents (p : Part) (i : Slot) (matched : Bool) : Part.Presents p (p.resolve i matched) := by
  have begun : Part.Presents p (p.resolveBegun i) := (reported_presents p i _).trans (countSighting_presents _)
  cases identity : (p.slot i).identity with
  | some id =>
    rw [resolve_eq identity]
    have decided : Part.Presents p (p.decision i id matched).1 :=
      begun.trans ((decideVerdict_acts _ i id matched).presents Views.history_unrecorded)
    exact decided.trans (concluded_presents _ i _ _)
  | none =>
    unfold Part.resolve
    extract_lets q
    have absent : (q.slot i).identity = none := by
      unfold q
      rw [reportSlot_slot, updSlot_slot_self]
      exact identity
    rw [absent]
    exact reported_presents p i _

theorem reverifyChecked_presents (p : Part) (i : Slot) (matched : Bool) : Part.Presents p (p.reverifyChecked i matched) := by
  unfold Part.reverifyChecked
  split
  · exact ((compareTally_presents p i _).trans (returnToService_presents _ i)).trans
      (finishReverify_presents _ i _ _ (reverifyFields_fit _ _))
  · exact escalate_presents p i _

/-! ## Settings (R96, R97, R113, R117) -/

theorem updChannel_presents (p : Part) (c : Channel) (f : ChannelRow → ChannelRow) : Part.Presents p (p.updChannel c f) := .of_same

theorem thresholdsEffect_presents (p : Part) (i : Slot) (t : Thresholds) : Part.Presents p (p.thresholdsEffect i t) := by
  have recorded : ∀ {q : Part}, Part.Stales i [.flags, .volumes] p q → Part.Presents p ((q.recordVolumes i).reselectFor i) :=
    fun h => (h.refreshed (recordVolumes_refreshes _ i)).trans (reselectFor_presents _ i)
  unfold Part.thresholdsEffect
  extract_lets v v' low spent q r
  split
  · have set : Part.Stales i [.flags, .volumes] p q := setVolumes_stales p i _
    refine recorded ?_
    unfold r
    split
    · exact set.trans (raise_presents q _)
    · exact set
  · exact recorded (setVolumes_stales p i v')

theorem feedChanged_presents (p : Part) (c : Channel) : Part.Presents p (p.feedChanged c) :=
  (feedChanged_acts p c).presents Views.channels_unrecorded

theorem installFeed_presents (p : Part) (c : Channel) (f : Feed) : Part.Presents p (p.installFeed c f) := updChannel_presents p c _

theorem settingEffect_presents (p : Part) (item : SettingItem) : Part.Presents p (p.settingEffect item) := by
  unfold Part.settingEffect
  split
  · exact updChannel_presents p _ _
  · split
    · exact installFeed_presents p _ _
    · exact (installFeed_presents p _ _).trans (feedChanged_presents _ _)
  · exact thresholdsEffect_presents p _ _

theorem placeSetting_presents (p : Part) (item : SettingItem) : Part.Presents p (p.placeSetting item) := by
  unfold Part.placeSetting
  split
  · exact settingEffect_presents p item
  · cases item with
    | calibration c v => exact updChannel_presents p c fun r => { r with pendingCalibration := some v }
    | feed c v => exact updChannel_presents p c fun r => { r with pendingFeed := some v }
    | thresholds i v => exact setVolumes_presents p i _ rfl

theorem pageBoundary_presents (p : Part) : Part.Presents p p.pageBoundary := by
  unfold Part.pageBoundary
  extract_lets p1 p2 p3
  have calibrations : Part.Presents p p1 := .forSlots (fun q c => by
    unfold Part.installPendingCalibration
    split
    · exact settingEffect_presents q _
    · exact .refl q) p
  have feeds : Part.Presents p1 p2 := .forSlots (fun q c => by
    unfold Part.installPendingFeed
    split
    · exact installFeed_presents q _ _
    · exact .refl q) p1
  have changed : Part.Presents p2 p3 := .forSlots (fun q c => by
    split
    · exact .refl q
    · exact feedChanged_presents q c) p2
  have thresholds : Part.Presents p3 (p3.forSlots Part.installPendingThresholds) := .forSlots (fun q i => by
    unfold Part.installPendingThresholds
    split
    · exact thresholdsEffect_presents q i _
    · exact .refl q) p3
  exact ((calibrations.trans feeds).trans changed).trans thresholds

/-! ## Shares and charges (R83, R93, R107 to R111) -/

theorem addUncommitted_stales (p : Part) (i : Slot) (share : Nat) :
    Part.Stales i [.flags, .commit] p (p.addUncommitted i share) := by
  unfold Part.addUncommitted
  extract_lets p1 p2
  have grown : Part.Stales i [.flags, .commit] p p1 := updCommit_stales p i _
  have dirtied : Part.Presents p1 p2 := by
    unfold p2
    split
    · split
      · exact (dirtyPlace_acts p1 _).presents Views.history_unrecorded
      · exact .refl p1
    · exact .refl p1
  exact grown.trans ((dirtied.trans (examineFlush_presents p2 i)).trans (testCommit_presents _ i))

theorem crossLow_stales (p : Part) (i : Slot) : Part.Stales i [.flags, .volumes] p (p.crossLow i) := by
  unfold Part.crossLow
  extract_lets v
  split
  · exact (setVolumes_stales p i _).trans (raise_presents _ _)
  · exact (Part.Presents.refl p).stales i _

theorem crossSpent_stales (p : Part) (i : Slot) : Part.Stales i [.flags, .volumes] p (p.crossSpent i) := by
  unfold Part.crossSpent
  extract_lets v
  split
  · exact (setVolumes_stales p i _).trans (raise_presents _ _)
  · exact (Part.Presents.refl p).stales i _

/-- R109: a share ends with a record write of the volumes, whatever of them was stale. -/
theorem placeShare_refreshes (p : Part) (i : Slot) (fell post : Nat) :
    Part.Refreshes i [.flags, .volumes] p (p.placeShare i fell post) := by
  have wider {q r : Part} (h : Part.Stales i [.flags, .volumes] q r) : Part.Stales i [.flags, .volumes, .commit] q r :=
    h.mono (by simp)
  unfold Part.placeShare
  split
  · exact recordVolumes_refreshes p i
  · extract_lets p1 p2 p3 p4
    have taken : Part.Stales i [.flags, .volumes, .commit] p p1 := wider (updVolumes_stales p i _)
    have added : Part.Stales i [.flags, .volumes, .commit] p1 p2 := (addUncommitted_stales p1 i _).mono (by simp)
    have crossed : Part.Stales i [.flags, .volumes, .commit] p2 p3 := by
      unfold p3
      split
      · exact wider ((crossLow_stales p2 i).comp (crossSpent_stales _ i))
      · exact (Part.Presents.refl p2).stales i _
    have tested : Part.Presents p3 p4 := by
      unfold p4
      split
      · exact testMargin_presents p3 i
      · exact .refl p3
    exact (((taken.comp added).comp crossed).trans tested).refreshes (by simp) (recordShare_refreshes p4 i)

theorem placeWhole_refreshes (p : Part) (i : Slot) (x : Nat) : Part.Refreshes i [.flags, .volumes] p (p.placeWhole i x) :=
  placeShare_refreshes p i _ _

theorem chargeTandem_refreshes (p : Part) (c : Channel) (a b : Slot) (x : Nat) :
    Part.Refreshes a [.flags, .volumes] p (p.chargeTandem c a b x) := by
  unfold Part.chargeTandem
  extract_lets stop share q r
  have given : Part.Refreshes a [.flags, .volumes] p q := placeShare_refreshes p a _ _
  split
  · have handed : Part.Presents q r := updChannel_presents q c _
    split
    · exact given.trans handed
    · exact given.trans (handed.trans (placeWhole_refreshes r b _).presents)
  · exact given

theorem chargeSource_refreshes (p : Part) (c : Channel) (a : Slot) (x : Nat) :
    Part.Refreshes a [.flags, .volumes] p (p.chargeSource c a x) := by
  unfold Part.chargeSource
  split
  · split
    · split
      · exact chargeTandem_refreshes p c a _ x
      · exact placeWhole_refreshes p a x
    · exact placeWhole_refreshes p a x
  · exact placeShare_refreshes p a _ _

theorem charge_presents (p : Part) (c : Channel) (x maintenance : Nat) : Part.Presents p (p.charge c x maintenance) := by
  unfold Part.charge
  split
  · exact .refl p
  · split
    · exact (updChannel_presents p c _).trans (raise_presents _ _)
    · exact (updVolumes_stales p _ _).refreshed (chargeSource_refreshes _ c _ x)

theorem accountChannel_presents (p : Part) (b : BankNo) (c : Channel) : Part.Presents p (p.accountChannel b c) := by
  unfold Part.accountChannel
  extract_lets r block volume maintenance _ q
  have grown : Part.Presents p q := .of_same
  exact grown.trans (charge_presents q c _ _)

theorem checkSequence_presents (p : Part) (b : BankNo) : Part.Presents p (p.checkSequence b) := by
  unfold Part.checkSequence
  extract_lets seq gap gaps _ q
  have noted : Part.Presents p q := .of_same
  split
  · exact noted.trans (raise_presents q _)
  · exact noted

theorem setBankState_presents (p : Part) (b : BankNo) (s : BankState) : Part.Presents p (p.setBankState b s) :=
  (setBankState_acts p b s).presents (Views.only_unrecorded (by
    have := b.isLt
    have low : ¬ 0xA00 ≤ bankBase b := by simp only [bankBase]; omega
    simp [Views.unrecorded, low]))

theorem accountBank_presents (p : Part) (b : BankNo) : Part.Presents p (p.accountBank b) := by
  unfold Part.accountBank
  extract_lets p1 p2 last _ p3 p4 p5
  have accounted : Part.Presents p1 p2 := .forSlots (fun q c => by
    split
    · exact accountChannel_presents q b c
    · exact .refl q) p1
  have ended : Part.Presents p3 p4 := by
    unfold p4
    split
    · exact pageBoundary_presents p3
    · exact .refl p3
  have marked : Part.Presents p2 p3 := .of_same
  have stated : Part.Presents p4 p5 := setBankState_presents p4 b _
  exact (((checkSequence_presents p b).trans accounted).trans (marked.trans ended)).trans (stated.trans .of_same)

theorem accountPurge_presents (p : Part) (cell : CellNo) (mask : Half) (volumes : Vector Nat 12) (clamped : Bool) :
    Part.Presents p (p.accountPurge cell mask volumes clamped) := by
  unfold Part.accountPurge
  extract_lets p1 _ p2
  have charged : Part.Presents p p1 := .forSlots (fun q c => by
    split
    · exact (updChannel_presents q c _).trans (charge_presents _ c _ _)
    · exact .refl q) p
  have dropped : Part.Presents p1 p2 := .of_same
  exact (charged.trans dropped).trans (complete_presents p2 _ _ _ (FitsIn.nil _))

/-! ## Holds (R13, R126 to R131) -/

theorem startOperation_presents (p : Part) (i : Slot) (h : Hold) : Part.Presents p (p.startOperation i h) := by
  unfold Part.startOperation
  extract_lets frame
  split
  · exact (updCommit_presents p i _).trans (setLink_presents _ i _)
  all_goals exact setLink_presents p i _

theorem endIdleCommit_presents (p : Part) (i : Slot) : Part.Presents p (p.endIdleCommit i) :=
  (endIdleCommit_acts p i).presents_of_flushes (Views.le_refl _) (endIdleCommit_flushes p i)

theorem openingRead_presents (p : Part) (i : Slot) (tally : Nat) : Part.Presents p (p.openingRead i tally) := by
  unfold Part.openingRead
  extract_lets resolved q
  have settled : Part.Presents p q := by
    unfold q
    split
    · exact .refl p
    · exact resolveInDoubt_presents p i tally
  exact (settled.trans (linkSucceeded_presents q i)).trans (continueHold_presents _ i _)

theorem advanceAccepted_presents (p : Part) (i : Slot) (h : Hold) (tally : Nat) (receipt : Quad) :
    Part.Presents p (p.advanceAccepted i h tally receipt) := by
  unfold Part.advanceAccepted
  split
  · split
    · exact (setLink_presents p i _).trans (queueDigest_presents _ _ _)
    · exact ((((clearUnsettled_presents p i).trans (linkSucceeded_presents _ i)).trans (escalate_presents _ i _)).trans
        (examineFlush_presents _ i)).trans (continueHold_presents _ i _)
  · exact endHold_presents p i

theorem advanceFull_presents (p : Part) (i : Slot) : Part.Presents p (p.advanceFull i) := by
  unfold Part.advanceFull
  extract_lets p1 p2 p3
  have noted : Part.Stales i [.flags, .commit] p p2 :=
    (updCommit_stales p i _).trans (changeLinkedEntry_presents p1 i _)
  have recorded : Part.Presents p p3 :=
    ((noted.refreshed (recordCommit_refreshes p2 i)).trans (raise_presents _ _)).trans (linkSucceeded_presents _ i)
  exact (recorded.trans (examineFlush_presents p3 i)).trans (continueHold_presents _ i _)

theorem commitFailed_presents (p : Part) (i : Slot) (o : LinkOutcome) : Part.Presents p (p.commitFailed i o) := by
  unfold Part.commitFailed
  extract_lets q
  have settled : Part.Presents p q := by
    unfold q
    split
    · exact clearUnsettled_presents p i
    · exact doubtUnsettled_presents p i
  exact ((settled.trans (endFlush_presents q i _)).trans (linkFailed_presents _ i)).trans (endHold_presents _ i)

theorem commitOutcome_presents (p : Part) (i : Slot) (h : Hold) (o : LinkOutcome) : Part.Presents p (p.commitOutcome i h o) := by
  cases o with
  | tallyRead tally => exact openingRead_presents p i tally
  | advanced tally receipt => exact advanceAccepted_presents p i h tally receipt
  | tallyFull => exact advanceFull_presents p i
  | noResponse | checkError | malformed | refused => exact commitFailed_presents p i _
  | identified _ | challenged _ => exact endHold_presents p i

theorem receiptChecked_presents (p : Part) (i : Slot) (tally : Nat) (matched : Bool) :
    Part.Presents p (p.receiptChecked i tally matched) := by
  unfold Part.receiptChecked
  split
  · split
    · unfold Part.advanceConfirmed
      extract_lets p1 p2 p3
      have taken : Part.Stales i [.flags, .commit] p p2 :=
        (updCommit_stales p i _).trans (changeLinkedEntry_presents p1 i _)
      have recorded : Part.Presents p p3 := (taken.refreshed (recordCommit_refreshes p2 i)).trans (linkSucceeded_presents _ i)
      exact ((recorded.trans (examineFlush_presents p3 i)).trans (testCommit_presents _ i)).trans (continueHold_presents _ i _)
    · exact (((clearUnsettled_presents p i).trans (linkSucceeded_presents _ i)).trans (escalate_presents _ i _)).trans
        (continueHold_presents _ i _)
  · exact .refl p

theorem deliverOutcome_presents (p : Part) (i : Slot) (o : LinkOutcome) : Part.Presents p (p.deliverOutcome i o) := by
  unfold Part.deliverOutcome
  split
  · split
    · exact commitOutcome_presents p i _ o
    · exact (endHold_presents p i).trans (slotOutcome_presents _ i o)
  all_goals exact .refl p

theorem operationEnds_presents (p : Part) (i : Slot) (h : Hold) (o : LinkOutcome) :
    Part.Presents p (p.operationEnds i h o) := by
  unfold Part.operationEnds
  split
  · exact setLink_presents p i _
  · exact deliverOutcome_presents p i o

theorem updBay_presents (p : Part) (b : Slot) (f : Bay → Bay) : Part.Presents p (p.updBay b f) := .of_same

theorem judged_presents (p : Part) (i : Slot) (h : Hold) (o : LinkOutcome) (low : Bool) :
    Part.Presents p (p.judged i h o low) := (updBay_presents p i _).trans (operationEnds_presents _ i h o)

theorem deliverHeld_presents (p : Part) (i : Slot) : Part.Presents p (p.deliverHeld i) := by
  unfold Part.deliverHeld
  split
  · split
    · exact deliverOutcome_presents p i _
    all_goals exact .refl p
  all_goals exact .refl p

theorem responseReceived_presents {p q : Part} {i : Slot} {command : LinkOp} {payload : List Byte} {crc : Byte} {low : Bool}
    (h : p.responseReceived i command payload crc low = some q) : Part.Presents p q := by
  unfold Part.responseReceived at h
  split at h
  · split at h
    · split at h
      · cases h; exact judged_presents p i _ _ low
      · cases h
    all_goals cases h
  all_goals cases h

/-! ## The saver (R52, R55, R57, R161, R166) -/

theorem foldSlot_presents (k : Fin 64) (p : Part) (i : Slot) : Part.Presents p (p.foldSlot k i) := by
  unfold Part.foldSlot
  extract_lets c v q
  have taken : Part.Presents p q := .of_same
  exact (taken.trans ((updCommit_stales q i _).refreshed (recordCommit_refreshes _ i))).trans (examineFlush_presents _ i)

theorem foldEntry_presents (p : Part) (k : Fin 64) (serial : Quad) : Part.Presents p (p.foldEntry k serial) :=
  .forSlots (fun q i => by
    split
    · exact foldSlot_presents k q i
    · exact .refl q) p

theorem unfoldSlot_presents (p : Part) (i : Slot) : Part.Presents p (p.unfoldSlot i) := by
  unfold Part.unfoldSlot
  split
  · extract_lets units q
    have given : Part.Stales i [.flags, .commit] p q := updCommit_stales p i _
    exact ((given.trans (changeEntry_presents q _ _)).refreshed (recordCommit_refreshes _ i)).trans (examineFlush_presents _ i)
  · exact .refl p

theorem beginAttempt_presents (p : Part) (k : Fin 64) (second : Bool) : Part.Presents p (p.beginAttempt k second) := by
  unfold Part.beginAttempt
  extract_lets q
  have folded : Part.Presents p q := by
    unfold q
    split
    · split
      · exact foldEntry_presents p k _
      · exact .refl p
    · exact .refl p
  exact folded.trans .of_same

theorem takePlace_presents (p : Part) (k : Fin 64) : Part.Presents p (p.takePlace k) := by
  unfold Part.takePlace
  extract_lets _ _ q
  have taken : Part.Presents p q := .of_same
  exact taken.trans (beginAttempt_presents q k false)

theorem saverTakeUpTo_presents (n : Nat) (p : Part) : Part.Presents p (Part.saverTakeUpTo n p) := by
  induction n generalizing p with
  | zero => exact .refl p
  | succ n ih =>
    unfold Part.saverTakeUpTo
    split
    · split
      · exact .refl p
      · exact takePlace_presents p _
      · exact .of_same
      · extract_lets _ q
        have dropped : Part.Presents p q := .of_same
        split
        · exact dropped.trans .of_same
        · exact (dropped.trans (complete_presents q _ _ _ (FitsIn.nil _))).trans (ih _)
    · exact .refl p

theorem saverTake_presents (p : Part) : Part.Presents p p.saverTake := saverTakeUpTo_presents _ p

theorem finishForget_presents (p : Part) (k : Fin 64) (result : Result) : Part.Presents p (p.finishForget k result) :=
  (finishForget_acts p k result).presents Views.completing_unrecorded

theorem enqueuePlace_presents (p : Part) (k : Fin 64) : Part.Presents p (p.enqueuePlace k) :=
  (enqueuePlace_acts p k).presents Views.history_unrecorded

theorem placeVerified_presents (p : Part) (k : Fin 64) (copy : Option Entry) (counter : Nat) (changed : Bool) :
    Part.Presents p (p.placeVerified k copy counter changed) := by
  unfold Part.placeVerified
  extract_lets _ _ p1 p2
  have written : Part.Presents p p1 := .of_same
  have cleaned : Part.Presents p1 p2 := by
    unfold p2
    split
    · exact .refl p1
    · split
      · exact enqueuePlace_presents p1 k
      · exact .of_same
  exact (written.trans cleaned).trans (finishForget_presents p2 k _)

theorem reportStoreFault_presents (p : Part) : Part.Presents p p.reportStoreFault := .of_same

theorem placeFailed_presents (p : Part) (k : Fin 64) : Part.Presents p (p.placeFailed k) := by
  unfold Part.placeFailed
  extract_lets _ q
  have idle : Part.Presents p q := Part.Presents.trans .of_same (enqueuePlace_presents _ k)
  exact (idle.trans (reportStoreFault_presents q)).trans (finishForget_presents _ k _)

theorem finishSettings_presents (p : Part) (r : SettingsRequest) (result : Result) :
    Part.Presents p (p.finishSettings r result) := complete_presents p _ _ _ (FitsIn.nil _)

theorem settingsVerified_presents (p : Part) (r : SettingsRequest) (page : Page) :
    Part.Presents p (p.settingsVerified r page) := by
  unfold Part.settingsVerified
  extract_lets target p1 _ p2
  have written : Part.Presents p p2 := .of_same
  exact (written.trans (placeSetting_presents p2 _)).trans (finishSettings_presents _ r _)

theorem settingsDiffers_presents (p : Part) (r : SettingsRequest) (page : Page) (second fails : Bool) :
    Part.Presents p (p.settingsDiffers r page second fails) := by
  unfold Part.settingsDiffers
  extract_lets q
  have spoilt : Part.Presents p q := by
    unfold q
    split
    · exact .of_same
    · exact .refl p
  split
  · exact (spoilt.trans (Part.Presents.trans .of_same (reportStoreFault_presents _))).trans (finishSettings_presents _ r _)
  · exact spoilt.trans .of_same

theorem counterVerified_presents (p : Part) (value : BitVec 32) : Part.Presents p (p.counterVerified value) := by
  unfold Part.counterVerified
  extract_lets target p1 _ p2 _ p3
  have written : Part.Presents p p2 := .of_same
  split
  · have served : Part.Presents p2 p3 := .of_same
    exact (written.trans served).trans (complete_presents p3 _ _ _ (FitsIn.nil _))
  · exact written

theorem counterDiffers_presents (p : Part) (value : BitVec 32) (second fails : Bool) :
    Part.Presents p (p.counterDiffers value second fails) := by
  unfold Part.counterDiffers
  extract_lets q _ r
  have spoilt : Part.Presents p q := by
    unfold q
    split
    · exact .of_same
    · exact .refl p
  split
  · have faulted : Part.Presents q r := Part.Presents.trans .of_same (reportStoreFault_presents _)
    refine (spoilt.trans faulted).trans ?_
    split
    · exact Part.Presents.trans .of_same (complete_presents _ _ _ _ (FitsIn.nil _))
    · exact .refl r
  · exact spoilt.trans .of_same

end Sys2Proof.Machine

end

-- ==== BringUp: EventsPresent ====
section

/-! PROOFS. The events of the bays, of power, supply and reset, and the requests leave the slot records showing what they stand
for (R1, R4, R20, R41, R77, R114, R115, R133, R169 to R175). -/

set_option Elab.async false
namespace Sys2Proof.Machine
open Sys2Proof

/-! ## Whole blocks that no slot record shows -/

theorem withPower_presents (p : Part) (r : PowerSupply) : Part.Presents p { p with ps := r } := .of_same

theorem withStore_presents (p : Part) (r : HistoryStore) : Part.Presents p { p with hs := r } := .of_same

/-! ## Waking and SLEEP (R21, R169 to R171) -/

theorem linesOn_presents (p : Part) : Part.Presents p p.linesOn := .of_same

theorem wake_presents (p : Part) : Part.Presents p p.wake := by
  unfold Part.wake
  extract_lets _ q
  have powered : Part.Presents p q := .of_same
  exact ((powered.trans (linesOn_presents q)).trans (takeFromList_presents _)).trans (testAll_presents _)

theorem presenceChanged_presents (p : Part) : Part.Presents p p.presenceChanged := by
  unfold Part.presenceChanged
  split
  · exact wake_presents p
  · exact .refl p

theorem cutForSleep_presents (p : Part) (i : Slot) : Part.Presents p (p.cutForSleep i) := by
  unfold Part.cutForSleep
  split
  · split
    · exact withLinks_presents p _
    · split
      · exact .refl p
      · exact ((placeDeferred_presents p i _).trans (doubtUnsettled_presents _ i)).trans (releaseReport_presents _ i)
  all_goals exact .refl p

theorem enterSleep_presents (p : Part) : Part.Presents p p.enterSleep := by
  unfold Part.enterSleep
  extract_lets _ q back r
  have powered : Part.Presents p q := withPower_presents p _
  exact (powered.trans (.forSlots cutForSleep_presents q)).trans (withLinks_presents r _)

theorem windDownLeaves_presents (p : Part) : Part.Presents p p.windDownLeaves := .forSlots (fun q i => updCommit_presents q i _) p

theorem supersede_presents (p : Part) : Part.Presents p p.supersede := by
  unfold Part.supersede
  split
  · exact Part.Presents.trans .of_same (complete_presents _ _ _ _ (FitsIn.nil _))
  · exact .refl p

theorem beginWindDown_presents (p : Part) : Part.Presents p p.beginWindDown := by
  unfold Part.beginWindDown
  extract_lets _ q
  have left : Part.Presents p q := (withPower_presents p _).trans (windDownLeaves_presents _)
  refine (left.trans (.forSlots (fun r i => ?_) q)).trans (testAll_presents _)
  split
  · exact updCommit_presents r i _
  · exact .refl r

theorem completeWindDown_presents (p : Part) (c : CellNo) : Part.Presents p (p.completeWindDown c) := by
  have completed : Part.Presents p (Part.complete { p with ps := { p.ps with windDownCell := none } } c .ok []) :=
    Part.Presents.trans .of_same (complete_presents _ _ _ _ (FitsIn.nil _))
  exact (completed.trans (windDownLeaves_presents _)).trans (enterSleep_presents _)

/-! ## The supply and the start of a reset (R22, R55, R56, R172 to R174) -/

theorem reorderSaveQueue_presents (p : Part) : Part.Presents p p.reorderSaveQueue :=
  (reorderSaveQueue_acts p).presents Views.history_unrecorded

theorem reportSupplyLow_presents (p : Part) : Part.Presents p p.reportSupplyLow := by
  unfold Part.reportSupplyLow
  extract_lets _ q r _
  have raised : Part.Presents p q := .of_same
  have ended : Part.Presents q r := .forSlots endIdleCommit_presents q
  exact ((raised.trans ended).trans (withStore_presents r _)).trans (reorderSaveQueue_presents _)

theorem reportSupplyGood_presents (p : Part) : Part.Presents p p.reportSupplyGood := by
  unfold Part.reportSupplyGood
  extract_lets _ q r _ u
  have raised : Part.Presents p q := .of_same
  have unfolded : Part.Presents q r := .forSlots unfoldSlot_presents q
  have stopped : Part.Presents r u := withStore_presents r _
  exact (((raised.trans unfolded).trans stopped).trans (takeFromList_presents u)).trans (testAll_presents _)

theorem slotAtReset_shown (p q : Part) (h : q.sm = p.sm.map SlotRow.atReset) (i : Slot) : (q.slot i).shown = (p.slot i).shown := by
  have row : q.slot i = (p.slot i).atReset := by simp [Part.slot, h]
  rw [row]
  rfl

theorem commitAtReset_shown (p q : Part) (h : q.ce.rows = p.ce.rows.map CommitRow.atReset) (i : Slot) :
    (q.commit i).shown = (p.commit i).shown := by
  have row : q.commit i = (p.commit i).atReset := by simp [Part.commit, h]
  rw [row]
  rfl

/-- At the start of a reset no row loses what its record shows (R22, R45, R136). -/
theorem abandonWork_presents (p : Part) (keep : Bool) : Part.Presents p (p.abandonWork keep) := by
  unfold Part.abandonWork
  extract_lets _ _ _ _ q
  have abandoned : Part.Presents p q := fun b S x => x.frame id (fun _ _ _ => rfl) rfl fun i g n =>
    ⟨n, groupFields_congr (slotAtReset_shown p q rfl i) rfl (commitAtReset_shown p q rfl i) g⟩
  exact (abandoned.trans (cancelDigest_presents q _)).trans
    ((abortParked_acts _).presents Views.completing_unrecorded)

theorem powerAtReset_presents (p : Part) : Part.Presents p p.powerAtReset := by
  unfold Part.powerAtReset
  split
  · exact .of_same
  · exact .of_same
  · exact .refl p
  · exact .refl p

theorem beginReset_presents (p : Part) (kind : SequenceKind) (fold : Bool) : Part.Presents p (p.beginReset kind fold) := by
  unfold Part.beginReset
  extract_lets p1 _ p2 p3 _ p4
  have begun : Part.Presents p1 p2 := .of_same
  have marked : Part.Presents p3 p4 := .of_same
  have reset : Part.Presents p p4 :=
    (((powerAtReset_presents p).trans begun).trans (abandonWork_presents p2 fold)).trans marked
  split
  · exact reset.trans (reorderSaveQueue_presents p4)
  · exact reset

theorem resetLine_presents (p : Part) : Part.Presents p p.resetLine := by
  unfold Part.resetLine
  split
  · exact beginReset_presents p _ _
  all_goals exact .of_same

/-! ## The bays (R1, R2, R4, R25) -/

theorem presenceBecomes_presents (p : Part) (b : Slot) (s : Presence) (t : BayTimer) :
    Part.Presents p (p.presenceBecomes b s t) := (updBay_presents p b _).trans (presenceChanged_presents _)

theorem contactMade_presents (p : Part) (i : Slot) : Part.Presents p (p.contactMade i) := by
  unfold Part.contactMade
  split
  · exact .refl p
  · split
    · exact changeState_presents p i _
    · exact .refl p

theorem settleAbandoned_presents (p : Part) (i : Slot) : Part.Presents p (p.settleAbandoned i) := by
  unfold Part.settleAbandoned
  split
  · exact .refl p
  · split
    · exact changeState_presents p i _
    · exact .refl p

theorem settled_presents (p : Part) (i : Slot) : Part.Presents p (p.settled i) := by
  unfold Part.settled
  split
  · exact ((updSlot_presents p i _).trans (changeState_presents _ i _)).trans (joinBringUp_presents _ i _)
  · exact .refl p

theorem declareSettled_presents (p : Part) (i : Slot) : Part.Presents p (p.declareSettled i) := by
  unfold Part.declareSettled
  split
  · exact settled_presents p i
  · exact updBay_presents p i _
  all_goals exact .refl p

theorem declareRemoval_presents (p : Part) (i : Slot) : Part.Presents p (p.declareRemoval i) := by
  unfold Part.declareRemoval
  split
  · exact .refl p
  · exact removal_presents p i

theorem contactClosed_presents (p : Part) (b : Slot) : Part.Presents p (p.contactClosed b) := by
  unfold Part.contactClosed
  split
  · exact (presenceBecomes_presents p b _ _).trans (contactMade_presents _ b)
  · exact (presenceBecomes_presents p b _ _).trans (deliverHeld_presents _ b)
  all_goals exact .refl p

theorem contactOpened_presents (p : Part) (b : Slot) : Part.Presents p (p.contactOpened b) := by
  unfold Part.contactOpened
  split
  · exact (presenceBecomes_presents p b _ _).trans (settleAbandoned_presents _ b)
  · exact presenceBecomes_presents p b _ _
  all_goals exact .refl p

theorem sampleContact_presents (p : Part) (b : Slot) : Part.Presents p (p.sampleContact b) := by
  unfold Part.sampleContact
  split
  · exact (updBay_presents p b _).trans (changeState_presents _ b _)
  · exact .refl p

theorem releaseSettled_presents (p : Part) (b : Slot) : Part.Presents p (p.releaseSettled b) := by
  unfold Part.releaseSettled
  split
  · exact (updBay_presents p b _).trans (settled_presents _ b)
  · exact .refl p

theorem endSequence_presents (p : Part) : Part.Presents p p.endSequence := by
  unfold Part.endSequence
  extract_lets _ p1 p2 p3
  have ended : Part.Presents p p1 := .of_same
  have reported : Part.Presents p1 p2 := by
    unfold p2
    split
    · exact reportSupplyLow_presents p1
    · exact .refl p1
  have raised : Part.Presents p2 p3 := by
    unfold p3
    split
    · exact raise_presents p2 _
    · exact .refl p2
  exact ((ended.trans reported).trans raised).trans (.forSlots releaseSettled_presents p3)

/-! ## The digests of a bring-up (R28, R30, R40) -/

theorem popDigest_presents (p : Part) : Part.Presents p p.popDigest := (popDigest_acts p).presents (Views.only_unrecorded rfl)

theorem derived_presents (p : Part) (i : Slot) (key : Quad) : Part.Presents p (p.derived i key) := by
  unfold Part.derived
  extract_lets nonce p1 p2
  have keyed : Part.Stales i [.manager] p p1 :=
    fun b S x => updSlot_stales p.nonceDrawn i _ b S ((Part.Presents.of_same : Part.Presents p p.nonceDrawn) b S x)
  exact ((keyed.trans (updCommit_presents p1 i _)).refreshed (reportSlot_refreshes p2 i)).trans (joinBringUp_presents _ i _)

theorem challengeChecked_presents (p : Part) (i : Slot) (matched : Bool) : Part.Presents p (p.challengeChecked i matched) := by
  unfold Part.challengeChecked
  split
  · exact resolve_presents p i matched
  · exact reverifyChecked_presents p i matched
  all_goals exact .refl p

theorem tokenChecked_presents (p : Part) (matched : Bool) : Part.Presents p (p.tokenChecked matched) := by
  unfold Part.tokenChecked
  split
  · split
    · exact .of_same
    · exact Part.Presents.trans .of_same (complete_presents _ _ _ _ (FitsIn.nil _))
  · exact .refl p

/-! ## Engine writes below the registers (R79 to R81, R137 to R141) -/

theorem writeByte_presents (p : Part) (a : Nat) (v : Byte) (low : a < 0xA00) : Part.Presents p (p.writeByte a v) :=
  (writeByte_acts p a v (t := .only (.byte a)) (by simp [Views.only]) low).presents
    (Views.only_unrecorded (by simp [Views.unrecorded, low]))

theorem landWord_presents (p : Part) (a : Nat) (x y : Byte) (low : a + 1 < 0xA00) : Part.Presents p (p.landWord a x y) :=
  (writeByte_presents p (a + 1) y low).trans (writeByte_presents _ a x (by omega))

theorem landCell_presents (p : Part) (c : CellNo) (x y : Byte) : Part.Presents p (p.landWord (cellBase c) x y) :=
  landWord_presents p _ x y (by have := c.isLt; simp only [cellBase]; omega)

theorem landBank_presents (p : Part) (b : BankNo) (x y : Byte) : Part.Presents p (p.landWord (bankBase b) x y) :=
  landWord_presents p _ x y (by have := b.isLt; simp only [bankBase]; omega)

theorem dropCounted_presents (p : Part) : Part.Presents p p.dropCounted := .of_same

theorem dropOverrun_presents (p : Part) : Part.Presents p p.dropOverrun := .of_same

theorem cellArrives_presents (p : Part) (c : CellNo) (kind : Byte) : Part.Presents p (p.cellArrives c kind) := by
  unfold Part.cellArrives
  extract_lets q _ r
  have landed : Part.Presents p r := (landCell_presents p c _ _).trans .of_same
  split
  · exact landed.trans (wake_presents r)
  · exact landed

theorem writeCellState_presents (p : Part) (c : CellNo) (code kind : Byte) : Part.Presents p (p.writeCellState c code kind) := by
  unfold Part.writeCellState
  split
  · exact dropCounted_presents p
  · split
    · exact (landCell_presents p c _ _).trans .of_same
    · split
      · exact landCell_presents p c _ _
      · exact dropCounted_presents p
  all_goals
    split
    · exact landCell_presents p c _ _
    · split
      · exact cellArrives_presents p c kind
      · exact dropCounted_presents p

theorem bankArrives_presents (p : Part) (b : BankNo) (flags : Byte) : Part.Presents p (p.bankArrives b flags) := by
  unfold Part.bankArrives
  extract_lets q _ r
  have landed : Part.Presents p r := (landBank_presents p b _ _).trans .of_same
  split
  · exact landed.trans (wake_presents r)
  · exact landed

theorem writeBank_presents (p : Part) (b : BankNo) (offset : Nat) (x y : Byte) (fit : offset + 1 < 256) :
    Part.Presents p (p.writeBank b offset x y) := by
  have low : bankBase b + offset + 1 < 0xA00 := by have := b.isLt; simp only [bankBase]; omega
  have inside : Part.Presents p (if offset = 0 then p.writeBankState b x y else p.landWord (bankBase b + offset) x y) := by
    split
    · unfold Part.writeBankState
      split
      · exact bankArrives_presents p b y
      · split
        · exact landBank_presents p b _ _
        · exact dropCounted_presents p
    · exact landWord_presents p _ x y low
  unfold Part.writeBank
  split
  · exact dropOverrun_presents p
  all_goals exact inside

theorem writeCell_presents (p : Part) (c : CellNo) (offset : Nat) (x y : Byte) (fit : offset + 1 < 64) :
    Part.Presents p (p.writeCell c offset x y) := by
  unfold Part.writeCell
  split
  · exact writeCellState_presents p c x y
  · split
    · exact dropCounted_presents p
    · exact landWord_presents p _ x y (by have := c.isLt; simp only [cellBase]; omega)

theorem engineWrite_presents (p : Part) (a : Nat) (x y : Byte) (even : a % 2 = 0) : Part.Presents p (p.engineWrite a x y) := by
  unfold Part.engineWrite
  split
  · exact writeCell_presents p _ _ x y (by omega)
  · split
    · exact writeBank_presents p _ _ x y (by omega)
    · split
      · exact dropCounted_presents p
      · exact .refl p

/-! ## Requests (R38, R41, R77, R92, R114, R115, R133, R169) -/

theorem takeCell_presents (p : Part) (c : CellNo) : Part.Presents p (p.takeCell c) :=
  Part.Presents.trans .of_same (writeByte_presents _ _ _ (by have := c.isLt; simp only [cellBase]; omega))

theorem park_presents (p : Part) (c : CellNo) (w : ParkedWork) : Part.Presents p (p.park c w) := .of_same

theorem refused_presents (p : Part) (c : CellNo) (r : Result) : Part.Presents p (p.complete c r []) :=
  complete_presents p c r [] (FitsIn.nil _)

theorem Views.taking_unrecorded : Views.le .taking .unrecorded := fun v e => by
  cases v <;> simp_all [Views.unrecorded, Views.taking, Views.completing]
  omega

theorem doSetThresholds_presents (c : CellNo) (p : Part) : Part.Presents p (p.doSetThresholds c) := by
  unfold Part.doSetThresholds
  split
  · exact refused_presents p c _
  · exact (placeSetting_presents p _).trans (refused_presents _ c _)

theorem doReconcile_presents (c : CellNo) (p : Part) : Part.Presents p (p.doReconcile c) := by
  unfold Part.doReconcile
  split
  · exact refused_presents p c _
  · rename_i i _
    extract_lets given rated q
    have set : Part.Stales i [.flags, .volumes] p q := updVolumes_stales p i _
    exact ((set.refreshed (recordVolumes_refreshes q i)).trans (reselectFor_presents _ i)).trans (refused_presents _ c _)

theorem doPurge_presents (c : CellNo) (p : Part) : Part.Presents p (p.doPurge c) := by
  unfold Part.doPurge
  extract_lets
  split
  · exact refused_presents p c _
  · split
    · exact refused_presents p c _
    · exact .of_same

theorem doLoadCalibration_presents (c : CellNo) (p : Part) : Part.Presents p (p.doLoadCalibration c) := by
  unfold Part.doLoadCalibration
  split
  · exact refused_presents p c _
  · exact .of_same

theorem doSetFeed_presents (c : CellNo) (p : Part) : Part.Presents p (p.doSetFeed c) := by
  unfold Part.doSetFeed
  split
  · exact .of_same
  all_goals exact refused_presents p c _

theorem doSetRefillMargin_presents (c : CellNo) (p : Part) : Part.Presents p (p.doSetRefillMargin c) := by
  unfold Part.doSetRefillMargin
  extract_lets given margin _ q
  have answered : Part.Presents p q := Part.Presents.trans .of_same (refused_presents _ c _)
  refine answered.trans (.forSlots (fun r i => ?_) q)
  split
  · exact testMargin_presents r i
  · exact .refl r

theorem doForgetHistory_presents (c : CellNo) (p : Part) : Part.Presents p (p.doForgetHistory c) := by
  unfold Part.doForgetHistory
  split
  · exact complete_presents p c _ _ (by simp [FitsIn])
  · split
    · exact refused_presents p c _
    · exact (Part.Presents.trans .of_same ((dirtyPlace_acts _ _).presents Views.history_unrecorded)).trans (park_presents _ c _)

theorem doSetCommit_presents (c : CellNo) (p : Part) : Part.Presents p (p.doSetCommit c) := by
  unfold Part.doSetCommit
  extract_lets given burst quantum _ q
  split
  · exact refused_presents p c _
  · have set : Part.Presents p q := .of_same
    exact (set.trans (refused_presents q c _)).trans (testAll_presents _)

theorem addHolder_presents (p : Part) (c : CellNo) (i : Slot) : Part.Presents p (p.addHolder c i) := updCommit_presents p i _

theorem doCommitNow_presents (c : CellNo) (p : Part) : Part.Presents p (p.doCommitNow c) := by
  unfold Part.doCommitNow
  split
  · unfold Part.commitEvery
    extract_lets causes taken q
    split
    · exact complete_presents p c _ _ (endCauseFields_fit _)
    · have held : Part.Presents p q := (park_presents p c _).trans (.foldl (fun r i => addHolder_presents r c i) taken _)
      exact held.trans (.foldl testCommit_presents taken q)
  · split
    · unfold Part.commitOne
      split
      · exact refused_presents p c _
      · exact complete_presents p c _ _ (endCauseFields_fit _)
      · exact ((park_presents p c _).trans (addHolder_presents _ c _)).trans (testCommit_presents _ _)
    · exact refused_presents p c _

theorem repeatBringUp_presents (p : Part) (i : Slot) : Part.Presents p (p.repeatBringUp i) := by
  unfold Part.repeatBringUp
  extract_lets q r
  have handled : Part.Presents p q := by
    unfold q
    split
    · exact removalHandling_presents p i
    · exact .refl p
  have blanked : Part.Presents (q.updSlot i SlotRow.repeated) r :=
    (setVolumes_stales _ i Volumes.blank).refreshed (recordVolumes_refreshes _ i)
  have reported : Part.Presents q (r.reportSlot i) :=
    ((updSlot_stales q i _).trans blanked).refreshed (reportSlot_refreshes r i)
  exact (handled.trans reported).trans (joinBringUp_presents _ i _)

theorem beginReverify_presents (p : Part) (i : Slot) : Part.Presents p (p.beginReverify i) := by
  unfold Part.beginReverify
  extract_lets nonce q
  have drawn : Part.Presents p p.nonceDrawn := .of_same
  have begun : Part.Stales i [.manager] p.nonceDrawn q := updSlot_stales _ i _
  exact (drawn.trans (begun.refreshed (reportSlot_refreshes q i))).trans (joinBringUp_presents _ i _)

theorem doReverify_presents (c : CellNo) (p : Part) : Part.Presents p (p.doReverify c) := by
  have parked (i : Slot) : Part.Presents p (p.parkReverify c i) := (park_presents p c _).trans (updSlot_presents _ i _)
  unfold Part.doReverify
  split
  · exact refused_presents p c _
  · split
    case h_10 => exact (parked _).trans (beginReverify_presents _ _)
    case h_11 => exact (parked _).trans (repeatBringUp_presents _ _)
    all_goals exact refused_presents p c _

theorem powerTo_presents (p : Part) (c : CellNo) (state : PowerState) : Part.Presents p (p.powerTo c state) := by
  unfold Part.powerTo
  extract_lets q _ r
  have left : Part.Presents p q := (supersede_presents p).trans (windDownLeaves_presents _)
  have answered : Part.Presents q r := (withPower_presents q _).trans (refused_presents _ c _)
  exact (left.trans answered).trans (testAll_presents r)

theorem holdWindDown_presents (p : Part) (c : CellNo) (wake : Byte) : Part.Presents p (p.holdWindDown c wake) := .of_same

theorem doSetPower_presents (c : CellNo) (p : Part) : Part.Presents p (p.doSetPower c) := by
  unfold Part.doSetPower
  extract_lets requested
  split
  · exact powerTo_presents p c _
  · split
    · exact powerTo_presents p c _
    · split
      · unfold Part.requestSleep
        split
        · exact refused_presents p c _
        · split
          · exact refused_presents p c _
          · split
            · exact (supersede_presents p).trans (holdWindDown_presents _ c _)
            · exact (holdWindDown_presents p c _).trans (beginWindDown_presents _)
      · exact refused_presents p c _

theorem doEnterService_presents (c : CellNo) (p : Part) : Part.Presents p (p.doEnterService c) := by
  unfold Part.doEnterService
  split
  · exact refused_presents p c _
  · split
    · exact refused_presents p c _
    · split
      · exact refused_presents p c _
      · exact Part.Presents.trans .of_same (queueDigest_presents _ _ _)

end Sys2Proof.Machine

end

-- ==== BringUp: RecordsStand ====
section

/-! PROOFS. The records at the end of every step (R24, R98, R102, R113, R120, R147): the channel records and part information
that the end of a step writes, the steps that leave slot records as they should stand, and the steps of a reset sequence. -/

set_option Elab.async false
namespace Sys2Proof.Machine
open Sys2Proof

/-! ## The end of a step writes what has changed (R102, R147) -/

/-- The write of one record leaves what stands in another. -/
theorem writeRecord_shows_apart {p : Part} {old : Bool} {r s : RecordId} {l : List Field} (ne : s ≠ r)
    (fit : FitsRecord (s.size - 2) l) (h : p.Shows s.base l) :
    (p.writeRecord old r.base r.size (p.recordFields r)).Shows s.base l := by
  have size := s.size_ge
  have apart := RecordId.apart ne
  have acts : Part.Acts (.bytes r.base r.size) p (p.writeRecord old r.base r.size (p.recordFields r)) :=
    writeRecord_acts p old r _ (recordFields_fit p r) fun a lo hi => by simp [Views.bytes, lo, hi]
  refine h.congr (size := s.size) (fun f hf => by have := (fit f hf).2; omega) (fun a lo hi => ?_) rfl
  refine (acts.same (.byte a) ?_).symm
  simp only [Views.bytes, Bool.and_eq_false_iff, decide_eq_false_iff_not]
  omega

/-- A channel's record shows what it stood for before the step, or what it stands for now. -/
def Part.ShowsChannel (before p : Part) (c : Channel) : Prop :=
  p.Shows (channelBase c) (before.channelFields c) ∨ p.ShowsRecord (.channel c)

theorem syncChannel_cases (before p : Part) (c : Channel) :
    (before.channelFields c = p.channelFields c ∧ Part.syncChannel before p c = p) ∨
      Part.syncChannel before p c = p.writeRecord p.port.bigEndian (RecordId.channel c).base (RecordId.channel c).size
        (p.recordFields (.channel c)) := by
  unfold Part.syncChannel
  split
  · rename_i same; exact .inl ⟨same, rfl⟩
  · exact .inr rfl

theorem syncChannel_wf (before : Part) {p : Part} (c : Channel) (hm : Memory.wf p.board = true) :
    Memory.wf (Part.syncChannel before p c).board = true := by
  rcases syncChannel_cases before p c with ⟨-, e⟩ | e <;> rw [e]
  · exact hm
  · exact Memory.wf_writeRecord _ _ _ _ _ hm

/-- R102: once looked at, a channel's record shows what it stands for. -/
theorem syncChannel_shows {before p : Part} {c : Channel} (hm : Memory.wf p.board = true) (h : Part.ShowsChannel before p c) :
    (Part.syncChannel before p c).ShowsRecord (.channel c) := by
  rcases syncChannel_cases before p c with ⟨same, e⟩ | e <;> rw [e]
  · exact h.elim (fun k => by rw [same] at k; exact k) id
  · exact writeRecord_shows p _ (.channel c) hm

/-- R102: a look at one channel's record leaves the fields that stand in another record. -/
theorem syncChannel_shows_apart {before p : Part} {c : Channel} {s : RecordId} {l : List Field} (ne : s ≠ .channel c)
    (fit : FitsRecord (s.size - 2) l) (h : p.Shows s.base l) : (Part.syncChannel before p c).Shows s.base l := by
  rcases syncChannel_cases before p c with ⟨-, e⟩ | e <;> rw [e]
  · exact h
  · exact writeRecord_shows_apart ne fit h

theorem syncChannel_fields (before p : Part) (c : Channel) (r : RecordId) :
    (Part.syncChannel before p c).recordFields r = p.recordFields r := by
  rcases syncChannel_cases before p c with ⟨-, e⟩ | e <;> rw [e]
  cases r <;> rfl

theorem syncChannel_showsChannel {before p : Part} {c d : Channel} (hm : Memory.wf p.board = true)
    (h : Part.ShowsChannel before p d) : Part.ShowsChannel before (Part.syncChannel before p c) d := by
  by_cases e : d = c
  · subst e
    exact .inr (syncChannel_shows hm h)
  · have ne : RecordId.channel d ≠ .channel c := fun k => e (RecordId.channel.inj k)
    refine h.imp (syncChannel_shows_apart ne (channelFields_fit before d)) fun k => ?_
    rw [Part.ShowsRecord, syncChannel_fields]
    exact syncChannel_shows_apart ne (recordFields_fit p (.channel d)) k

/-- R102: after a look at every channel of a list, each of them shows what it stands for. -/
theorem syncChannels_show {before : Part} (l : List Channel) {p : Part} (hm : Memory.wf p.board = true) {c : Channel}
    (h : Part.ShowsChannel before p c) (mem : c ∈ l ∨ p.ShowsRecord (.channel c)) :
    (l.foldl (Part.syncChannel before) p).ShowsRecord (.channel c) := by
  induction l generalizing p with
  | nil => exact mem.resolve_left List.not_mem_nil
  | cons d rest ih =>
    refine ih (syncChannel_wf before d hm) (syncChannel_showsChannel hm h) ?_
    by_cases e : c = d
    · subst e
      exact .inr (syncChannel_shows hm h)
    · refine mem.imp (fun m => (List.mem_cons.1 m).resolve_left e) fun k => ?_
      rw [Part.ShowsRecord, syncChannel_fields]
      exact syncChannel_shows_apart (fun k => e (RecordId.channel.inj k)) (recordFields_fit p (.channel c)) k

theorem syncChannels_partInfo {before : Part} (l : List Channel) {p : Part} (hm : Memory.wf p.board = true)
    (h : p.Shows partInfoBase before.partInfoFields) :
    Memory.wf (l.foldl (Part.syncChannel before) p).board = true ∧
      (l.foldl (Part.syncChannel before) p).Shows partInfoBase before.partInfoFields := by
  induction l generalizing p with
  | nil => exact ⟨hm, h⟩
  | cons d rest ih =>
    exact ih (syncChannel_wf before d hm)
      (syncChannel_shows_apart (s := .partInfo) (by simp) (partInfoFields_fit before) h)

theorem partInfoFields_congr {p q : Part} (h : p.partInfo = q.partInfo) : p.partInfoFields = q.partInfoFields := by
  simp only [Part.partInfo, Prod.mk.injEq] at h
  simp only [Part.partInfoFields, h]

/-- In `c` the channel records and part information show what they stand for in `before`. -/
structure Part.ShowsAbove (c before : Part) : Prop where
  channels : ∀ n, c.Shows (channelBase n) (before.channelFields n)
  partInfo : c.Shows partInfoBase before.partInfoFields

/-- R102, R147: where the records above the slots' show what they stood for before the step, they show at its end what they
stand for then. -/
theorem syncRecords_shows {before p : Part} (hm : Memory.wf p.board = true) (kept : p.recordsKept = true)
    (shown : p.ShowsAbove before) : (Part.syncRecords before p).ShowsAbove (Part.syncRecords before p) := by
  obtain ⟨wf, info⟩ := syncChannels_partInfo allSlots hm shown.partInfo
  have channels (n : Channel) : (allSlots.foldl (Part.syncChannel before) p).ShowsRecord (.channel n) :=
    syncChannels_show allSlots hm (.inl (shown.channels n)) (.inl (mem_allSlots n))
  rw [Part.syncRecords, if_pos kept, Part.forSlots]
  generalize allSlots.foldl (Part.syncChannel before) p = q at *
  unfold Part.syncPartInfo
  split
  · rename_i same
    exact ⟨channels, by rw [partInfoFields_congr same] at info; exact info⟩
  · exact ⟨fun n => writeRecord_shows_apart (s := .channel n) (r := .partInfo) (by simp) (recordFields_fit q (.channel n))
      (channels n), writeRecord_shows q q.port.bigEndian .partInfo wf⟩

/-! ## The whole end of a step -/

theorem recordsKept_congr {p q : Part} (h : q.ps.sequence = p.ps.sequence) : q.recordsKept = p.recordsKept := by
  simp only [Part.recordsKept, Part.busy, Part.inFoldPhase, h]

theorem loading_congr {p q : Part} (h : q.ps.sequence = p.ps.sequence) : q.loading = p.loading := by
  simp only [Part.loading, h]

/-- What the end of a step does once the records are written: patterns, the brightness of the PWM period, the output. -/
theorem finish_rest (before p : Part) : ∃ bays dimming notices, Part.finish before p =
    { Part.syncRecords before p.takeDigest.saverTake.closeWrites with
      bays := bays, earlierBrightness := dimming, nu := notices } := by
  unfold Part.finish Part.keepBrightness
  generalize Part.syncRecords before p.takeDigest.saverTake.closeWrites = q
  split
  · exact ⟨_, q.earlierBrightness, _, rfl⟩
  · exact ⟨_, _, _, rfl⟩

theorem takes_presents (p : Part) : Part.Presents p p.takeDigest.saverTake.closeWrites :=
  (((takeDigest_acts p).presents (Views.only_unrecorded rfl)).trans (saverTake_presents _)).trans .of_same

theorem takes_sequence (p : Part) : p.takeDigest.saverTake.closeWrites.ps.sequence = p.ps.sequence :=
  ((saverTake_acts p.takeDigest).same .sequence rfl).symm.trans ((takeDigest_acts p).same .sequence rfl).symm

/-- The records of the channels and part information, and their writes, leave the slot records. -/
theorem syncRecords_current {before p : Part} {i : Slot} {g : FieldGroup} (h : p.Current i g) :
    (Part.syncRecords before p).Current i g := by
  have acts := syncRecords_acts before p
  have slot : (Part.syncRecords before p).slot i = p.slot i := (acts.same (.slot i) rfl).symm
  have volumes : (Part.syncRecords before p).volumes i = p.volumes i := (acts.same (.volumes i) rfl).symm
  have commit : (Part.syncRecords before p).commit i = p.commit i := (acts.same (.commit i) rfl).symm
  have top := i.isLt
  refine h.congr (fun a lo hi => (acts.same (.byte a) ?_).symm) (acts.same .byteOrder rfl).symm
    (groupFields_congr (by rw [slot]) (by rw [volumes]) (by rw [commit]) g)
  simp only [slotBase] at lo hi
  simp only [Views.bytes, Bool.and_eq_false_iff, decide_eq_false_iff_not]
  omega

/-- What stands above the slot records in the part that a step refers to stands there throughout the step. -/
theorem Part.Stands.showsAbove {p c before : Part} {S : Stale} (h : p.Stands c S) (above : c.ShowsAbove before) :
    p.ShowsAbove before where
  channels n := (above.channels n).congr (size := 32)
    (fun f hf => by have := (channelFields_fit before n f hf).2; omega)
    (fun a lo hi => h.above a (by simp only [channelBase] at lo; omega)
      (by have := n.isLt; simp only [channelBase] at hi; omega)) h.order
  partInfo := above.partInfo.congr (size := 128)
    (fun f hf => by have := (partInfoFields_fit before f hf).2; omega)
    (fun a lo hi => h.above a (by simp only [partInfoBase] at lo; omega) (by simp only [partInfoBase] at hi; omega)) h.order

/-- R147: a step whose work leaves no slot record stale ends with every record showing what it stands for, where those
above the slots' did so before. -/
theorem finish_recordsStand {before c p : Part} (stands : p.Stands c .none)
    (above : p.recordsKept = true → c.ShowsAbove before) : (Part.finish before p).RecordsStand := by
  have taken := takes_presents p c .none stands
  have sequence := takes_sequence p
  obtain ⟨bays, dimming, notices, e⟩ := finish_rest before p
  rw [e]
  have slots (i : Slot) (g : FieldGroup) := syncRecords_current (before := before) (taken.current i g id)
  have shown : p.recordsKept = true → (Part.syncRecords before p.takeDigest.saverTake.closeWrites).ShowsAbove
      (Part.syncRecords before p.takeDigest.saverTake.closeWrites) := fun kept =>
    syncRecords_shows taken.sound.canonical ((recordsKept_congr sequence).trans kept) (taken.showsAbove (above kept))
  have kept : (Part.syncRecords before p.takeDigest.saverTake.closeWrites).recordsKept = p.recordsKept :=
    recordsKept_congr (((syncRecords_acts before _).same .sequence rfl).symm.trans sequence)
  generalize Part.syncRecords before p.takeDigest.saverTake.closeWrites = q at *
  exact ⟨fun _ i => (shows_slotRecord_iff q i).2 (slots i), fun h => (shown (kept.symm.trans h)).channels,
    fun h => (shown (kept.symm.trans h)).partInfo⟩

/-! ## A step outside the clearing point and the load -/

/-- The records show what they stand for, so that work of a step may begin. -/
theorem Part.RecordsStand.stands {p : Part} (h : p.RecordsStand) (sound : Memory.Sound p.board)
    (kept : p.recordsKept = true ∨ p.loading = true) : p.Stands p .none where
  sound := sound
  current i g _ := (shows_slotRecord_iff p i).1 (h.slots kept i) g
  order := rfl
  above _ _ _ := rfl

theorem Part.RecordsStand.showsAbove {p : Part} (h : p.RecordsStand) (kept : p.recordsKept = true) : p.ShowsAbove p :=
  ⟨h.channels kept, h.partInfo kept⟩

/-- Within a sequence after its fold phase and before its load nothing is asked of the records. -/
theorem recordsStand_of_not_kept {p : Part} (kept : p.recordsKept = false) (loading : p.loading = false) : p.RecordsStand :=
  ⟨fun h => by simp [kept, loading] at h, fun h => by simp [kept] at h, fun h => by simp [kept] at h⟩

/-- The records are kept in `q`, or a load is under way, only where they were in `p`. -/
structure Part.KeepsNoMore (p q : Part) : Prop where
  kept : q.recordsKept = true → p.recordsKept = true
  loading : q.loading = true → p.loading = true

theorem keepsNoMore_of_sequence {p q : Part} (h : q.ps.sequence = p.ps.sequence) : Part.KeepsNoMore p q :=
  ⟨fun k => (recordsKept_congr h).symm.trans k, fun k => (loading_congr h).symm.trans k⟩

/-- A step whose work presents the slot records keeps the records. -/
theorem presents_recordsStand {p q : Part} (h : p.RecordsStand) (sound : Memory.Sound p.board) (work : Part.Presents p q)
    (phase : Part.KeepsNoMore p q) : (Part.finish p q).RecordsStand := by
  have same : (Part.finish p q).ps.sequence = q.ps.sequence := by rw [finish_ps]
  cases kept : q.recordsKept with
  | true =>
    have before := phase.kept kept
    exact finish_recordsStand (work p .none (h.stands sound (.inl before))) fun _ => h.showsAbove before
  | false =>
    cases loading : q.loading with
    | true =>
      exact finish_recordsStand (work p .none (h.stands sound (.inr (phase.loading loading)))) fun k => by simp [kept] at k
    | false =>
      exact recordsStand_of_not_kept ((recordsKept_congr same).trans kept) ((loading_congr same).trans loading)

end Sys2Proof.Machine

end

-- ==== BringUp: RecordsKept ====
section

/-! PROOFS. Every step keeps the records showing what they stand for (R24, R98, R102, R113, R120, R147). -/

set_option Elab.async false
namespace Sys2Proof.Machine
open Sys2Proof

/-! ## The commands whose work presents the slot records -/

/-- The command changes nothing, or its step ends after work that leaves the slot records showing what they stand for. -/
def Recorded (s : State) (o : Host.Outcome State Fault Refusal) : Prop :=
  o = .next s ∨ ∃ q, o = .next { s with part := Part.finish s.part q } ∧ Part.Presents s.part q

theorem recorded_unchanged (s : State) : Recorded s s.unchanged := .inl rfl

theorem recorded_after {s : State} {q : Part} (h : Part.Presents s.part q) : Recorded s (s.after q) := .inr ⟨q, rfl, h⟩

theorem recorded_ite {s : State} {b : Prop} [Decidable b] {x y : Host.Outcome State Fault Refusal} (hx : Recorded s x)
    (hy : Recorded s y) : Recorded s (if b then x else y) := by
  split
  · exact hx
  · exact hy

/-- A command that has an effect only under a condition. -/
theorem recorded_when {s : State} {b : Prop} [Decidable b] {q : Part} (h : Part.Presents s.part q) :
    Recorded s (if b then s.after q else s.unchanged) := recorded_ite (recorded_after h) (recorded_unchanged s)

theorem recorded_unless {s : State} {b : Prop} [Decidable b] {q : Part} (h : Part.Presents s.part q) :
    Recorded s (if b then s.unchanged else s.after q) := recorded_ite (recorded_unchanged s) (recorded_after h)

theorem presents_ite {p q r : Part} {b : Prop} [Decidable b] (hq : Part.Presents p q) (hr : Part.Presents p r) :
    Part.Presents p (if b then q else r) := by
  split
  · exact hq
  · exact hr

theorem response_recorded (s : State) (b : Slot) (command : LinkOp) (payload : List Byte) (crc : Byte) (low : Bool) :
    Recorded s (s.afterSome (s.part.responseReceived b command payload crc low)) := by
  unfold State.afterSome
  split
  · rename_i q received; exact recorded_after (responseReceived_presents received)
  · exact recorded_unchanged s

theorem request_recorded (s : State) (k : Kind) {owner : CellNo → Part → Part} (h : ∀ c p, Part.Presents p (owner c p)) :
    Recorded s (s.request k owner) := by
  unfold State.request
  split
  · rename_i c _
    refine recorded_after ((takeCell_presents s.part c).trans ?_)
    unfold Part.handOver
    refine presents_ite (presents_ite ?_ (refused_presents _ c _)) (h c _)
    exact (withPower_presents _ _).trans (h c _)
  · exact recorded_unchanged s

theorem engineWrite_recorded (s : State) {a : Nat} (x y : Byte) (even : a % 2 = 0) : Recorded s (s.engineWrite a x y) :=
  recorded_unless (engineWrite_presents s.part a x y even)

/-! ### The link events (R5 to R13) -/

theorem execLinkOperationStart_recorded (b : Slot) (s : State) : Recorded s (execLinkOperationStart b s) := by
  unfold execLinkOperationStart
  split
  · exact recorded_when (startOperation_presents s.part b _)
  · exact recorded_unchanged s

theorem execCommandFrameEnd_recorded (b : Slot) (s : State) : Recorded s (execCommandFrameEnd b s) := by
  unfold execCommandFrameEnd
  split
  · split
    · exact recorded_after (setLink_presents s.part b _)
    all_goals exact recorded_unchanged s
  · exact recorded_unchanged s

theorem execLinkGapTimeout_recorded (b : Slot) (low : Bool) (s : State) : Recorded s (execLinkGapTimeout b low s) := by
  unfold execLinkGapTimeout
  split
  · exact recorded_when (judged_presents s.part b _ _ low)
  · exact recorded_unchanged s

theorem execResponseTimeout_recorded (b : Slot) (low : Bool) (s : State) : Recorded s (execResponseTimeout b low s) := by
  unfold execResponseTimeout
  split
  · exact recorded_when (judged_presents s.part b _ _ low)
  · exact recorded_unchanged s

theorem execResponseStartSeen_recorded (b : Slot) (s : State) : Recorded s (execResponseStartSeen b s) := by
  unfold execResponseStartSeen
  split
  · exact recorded_when (setLink_presents s.part b _)
  · exact recorded_unchanged s

theorem execStatusLengthReceived_recorded (b : Slot) (status length : Byte) (low : Bool) (s : State) :
    Recorded s (execStatusLengthReceived b status length low s) := by
  unfold execStatusLengthReceived
  split
  · exact recorded_ite (recorded_ite (recorded_after (setLink_presents s.part b _))
      (recorded_after (judged_presents s.part b _ _ low))) (recorded_unchanged s)
  · exact recorded_unchanged s

theorem execResponseByteTimeout_recorded (b : Slot) (low : Bool) (s : State) : Recorded s (execResponseByteTimeout b low s) := by
  unfold execResponseByteTimeout
  split
  · split
    · exact recorded_after (judged_presents s.part b _ _ low)
    · exact recorded_after (judged_presents s.part b _ _ low)
    all_goals exact recorded_unchanged s
  · exact recorded_unchanged s

theorem execRetryTimerExpiry_recorded (i : Slot) (s : State) : Recorded s (execRetryTimerExpiry i s) := by
  unfold execRetryTimerExpiry
  split
  · exact recorded_after ((updSlot_presents s.part i _).trans (joinBringUp_presents _ i _))
  all_goals exact recorded_unchanged s

/-! ### The digests and the saver (R28, R30, R52, R128, R161, R166) -/

theorem execDerive_recorded (s : State) : Recorded s (execDerive s) := by
  unfold execDerive
  split
  · rename_i i _ _ _ _
    exact recorded_after (presents_ite ((popDigest_presents s.part).trans (derived_presents _ i _)) (popDigest_presents s.part))
  all_goals exact recorded_unchanged s

theorem execChallengeCheck_recorded (s : State) : Recorded s (execChallengeCheck s) := by
  unfold execChallengeCheck
  split
  · exact recorded_after ((popDigest_presents s.part).trans (challengeChecked_presents _ _ _))
  all_goals exact recorded_unchanged s

theorem execReceiptCheck_recorded (s : State) : Recorded s (execReceiptCheck s) := by
  unfold execReceiptCheck
  split
  · exact recorded_after ((popDigest_presents s.part).trans (receiptChecked_presents _ _ _ _))
  all_goals exact recorded_unchanged s

theorem execTokenCheck_recorded (s : State) : Recorded s (execTokenCheck s) := by
  unfold execTokenCheck
  split
  · exact recorded_after ((popDigest_presents s.part).trans (tokenChecked_presents _ _))
  all_goals exact recorded_unchanged s

theorem execHistoryWriteAttemptEnd_recorded (verified : Bool) (s : State) :
    Recorded s (execHistoryWriteAttemptEnd verified s) := by
  unfold execHistoryWriteAttemptEnd
  split
  · exact recorded_ite (recorded_after (placeVerified_presents s.part _ _ _ _))
      (recorded_ite (recorded_after (placeFailed_presents s.part _)) (recorded_after (beginAttempt_presents s.part _ _)))
  all_goals exact recorded_unchanged s

theorem execCounterWriteEnd_recorded (r : ReadBack) (s : State) : Recorded s (execCounterWriteEnd r s) := by
  unfold execCounterWriteEnd
  split
  · exact recorded_after (counterVerified_presents s.part _)
  · exact recorded_after (counterDiffers_presents s.part _ _ _)
  all_goals exact recorded_unchanged s

theorem execSettingsWriteEnd_recorded (r : ReadBack) (s : State) : Recorded s (execSettingsWriteEnd r s) := by
  unfold execSettingsWriteEnd
  split
  · exact recorded_after (settingsVerified_presents s.part _ _)
  · exact recorded_after (settingsDiffers_presents s.part _ _ _ _)
  all_goals exact recorded_unchanged s

/-! ### The charge list, the wind-down, the fold phase (R83, R93, R142, R170, R174) -/

theorem execBankAccounting_recorded (s : State) : Recorded s (execBankAccounting s) := by
  unfold execBankAccounting
  split
  · exact recorded_after (accountBank_presents s.part _)
  all_goals exact recorded_unchanged s

theorem execPurgeAccounting_recorded (s : State) : Recorded s (execPurgeAccounting s) := by
  unfold execPurgeAccounting
  split
  · exact recorded_after (accountPurge_presents s.part _ _ _ _)
  all_goals exact recorded_unchanged s

theorem execUnknownKind_recorded (s : State) : Recorded s (execUnknownKind s) := by
  unfold execUnknownKind
  split
  · exact recorded_after ((takeCell_presents s.part _).trans (refused_presents _ _ _))
  · exact recorded_unchanged s

theorem execWindDownComplete_recorded (s : State) : Recorded s (execWindDownComplete s) := by
  unfold execWindDownComplete
  split
  · exact recorded_after (completeWindDown_presents s.part _)
  all_goals exact recorded_unchanged s

theorem execFoldPhaseEnd_recorded (s : State) : Recorded s (execFoldPhaseEnd s) := by
  unfold execFoldPhaseEnd
  split
  · exact recorded_when (withPower_presents s.part _)
  all_goals exact recorded_unchanged s

theorem execFoldPhaseTimeLimit_recorded (s : State) : Recorded s (execFoldPhaseTimeLimit s) := by
  unfold execFoldPhaseTimeLimit
  split
  · exact recorded_after (withPower_presents s.part _)
  all_goals exact recorded_unchanged s

/-- The commands that change no byte order, and neither clear nor load nor lose what the part holds. -/
def presentsRecords : Instr → Bool
  | .controlByteOrder _ | .controlMaskPolarity _ | .restart _ | .clearingPoint | .loadComplete | .powerLoss => false
  | _ => true

theorem exec_recorded {c : Instr} (h : presentsRecords c = true) (s : State) : Recorded s (exec c s) := by
  cases c with
  | controlByteOrder | controlMaskPolarity | restart | clearingPoint | loadComplete | powerLoss => cases h
  | contactCloses b =>
    exact recorded_unless ((updBay_presents s.part b _).trans (presents_ite (contactClosed_presents _ b) (.refl _)))
  | contactOpens b =>
    exact recorded_when ((updBay_presents s.part b _).trans (presents_ite (contactOpened_presents _ b) (.refl _)))
  | settleTimerExpiry b =>
    exact recorded_when (((updBay_presents s.part b _).trans (presenceBecomes_presents _ b _ _)).trans (declareSettled_presents _ b))
  | removalTimerExpiry b =>
    exact recorded_when (((updBay_presents s.part b _).trans (presenceBecomes_presents _ b _ _)).trans (declareRemoval_presents _ b))
  | linkOperationStart b => exact execLinkOperationStart_recorded b s
  | commandFrameEnd b => exact execCommandFrameEnd_recorded b s
  | linkGapTimeout b low => exact execLinkGapTimeout_recorded b low s
  | responseTimeout b low => exact execResponseTimeout_recorded b low s
  | responseByteTimeout b low => exact execResponseByteTimeout_recorded b low s
  | responseStartSeen b => exact execResponseStartSeen_recorded b s
  | statusLengthReceived b status length low => exact execStatusLengthReceived_recorded b status length low s
  | identify | challenge | readTally | advanceTally => exact response_recorded s _ _ _ _ _
  | lineFoundHigh b => exact recorded_when (updBay_presents s.part b _)
  | retryTimerExpiry i => exact execRetryTimerExpiry_recorded i s
  | probeTimerExpiry i => exact recorded_when ((updSlot_presents s.part i _).trans (joinBringUp_presents _ i _))
  | derive => exact execDerive_recorded s
  | challengeCheck => exact execChallengeCheck_recorded s
  | receiptCheck => exact execReceiptCheck_recorded s
  | tokenCheck => exact execTokenCheck_recorded s
  | historyWriteAttemptEnd v => exact execHistoryWriteAttemptEnd_recorded v s
  | counterWriteEnd r => exact execCounterWriteEnd_recorded r s
  | settingsWriteEnd r => exact execSettingsWriteEnd_recorded r s
  | bankAccounting => exact execBankAccounting_recorded s
  | purgeAccounting => exact execPurgeAccounting_recorded s
  | patternPeriodEnd b => exact recorded_unless .of_same
  | cellArrival n | cellWithdrawal n | cellGiveBack n => exact engineWrite_recorded s _ _ (cellBase_even n)
  | bankArrival b | bankReopen b => exact engineWrite_recorded s _ _ (bankBase_even b)
  | boardWrite w x y => exact recorded_ite (engineWrite_recorded s x y (Nat.mul_mod_right 2 _)) (recorded_unchanged s)
  | noticeClear | controlLowerHalfWrite => exact recorded_unless .of_same
  | registerWriteOther half => cases half <;> exact recorded_unchanged s
  | unknownKind => exact execUnknownKind_recorded s
  | setThresholds => exact request_recorded s _ doSetThresholds_presents
  | setCommit => exact request_recorded s _ doSetCommit_presents
  | commitNow => exact request_recorded s _ doCommitNow_presents
  | reverify => exact request_recorded s _ doReverify_presents
  | purge => exact request_recorded s _ doPurge_presents
  | readHistory => exact request_recorded s _ fun c p => (doReadHistory_acts c p).presents Views.taking_unrecorded
  | setNoticeLevels => exact request_recorded s _ fun c p =>
      (doSetNoticeLevels_acts c p).presents (Views.and_le Views.taking_unrecorded (Views.only_unrecorded rfl))
  | setLedBrightness => exact request_recorded s _ fun c p =>
      (doSetLedBrightness_acts c p).presents (Views.and_le Views.taking_unrecorded (Views.only_unrecorded rfl))
  | setPower => exact request_recorded s _ doSetPower_presents
  | enterService => exact request_recorded s _ doEnterService_presents
  | leaveService => exact request_recorded s _ fun c p => (doLeaveService_acts c p).presents Views.taking_unrecorded
  | loadCalibration => exact request_recorded s _ doLoadCalibration_presents
  | setFeed => exact request_recorded s _ doSetFeed_presents
  | reconcile => exact request_recorded s _ doReconcile_presents
  | forgetHistory => exact request_recorded s _ doForgetHistory_presents
  | setRefillMargin => exact request_recorded s _ doSetRefillMargin_presents
  | windDownComplete => exact execWindDownComplete_recorded s
  | supplyLow =>
    exact recorded_unless ((withPower_presents s.part _).trans (presents_ite (reportSupplyLow_presents _) (.refl _)))
  | supplyGood =>
    exact recorded_ite (recorded_ite (recorded_after (withPower_presents s.part _))
      (recorded_after ((withPower_presents s.part _).trans (presents_ite (reportSupplyGood_presents _) (.refl _)))))
      (recorded_unchanged s)
  | powerOn => exact recorded_when (withPower_presents s.part _)
  | resetAsserted => exact recorded_unless ((withPower_presents s.part _).trans (resetLine_presents _))
  | resetReleased | lockoutTimerExpiry | idleTimerExpiry => exact recorded_when (withPower_presents s.part _)
  | foldPhaseEnd => exact execFoldPhaseEnd_recorded s
  | foldPhaseTimeLimit => exact execFoldPhaseTimeLimit_recorded s

end Sys2Proof.Machine

end

-- ==== BringUp: BoardSound ====
section

/-! PROOFS. The steps that begin, clear and load a reset sequence, the change of byte order, and the statement (R137, R146, R147,
R149, R175). -/

set_option Elab.async false
namespace Sys2Proof.Machine
open Sys2Proof

/-! ## The phase of a sequence after a step (R173, R174) -/

/-- Outside a sequence the records are kept, and no load is under way. -/
theorem recordsKept_of_idle {p : Part} (idle : p.busy = false) : p.recordsKept = true ∧ p.loading = false := by
  have none : p.ps.sequence = Option.none := by simpa [Part.busy] using idle
  simp [Part.recordsKept, Part.loading, idle, none]

theorem loading_of_sequence {p : Part} {kind : SequenceKind} {phase : SequencePhase} (h : p.ps.sequence = some ⟨kind, phase⟩)
    (ne : phase ≠ .load) : p.loading = false := by
  cases phase <;> first | exact absurd rfl ne | simp [Part.loading, h]

theorem Part.KeepsNoMore.of_same {p q r : Part} (h : Part.KeepsNoMore q r) (same : q.ps.sequence = p.ps.sequence) :
    Part.KeepsNoMore p r :=
  ⟨fun k => (recordsKept_congr same).symm.trans (h.kept k), fun k => (loading_congr same).symm.trans (h.loading k)⟩

/-- The wait for the clearing point keeps no records. -/
theorem keepsNoMore_of_waiting {p q : Part} {kind : SequenceKind} (h : q.ps.sequence = some ⟨kind, .awaitClear⟩) :
    Part.KeepsNoMore p q :=
  ⟨fun k => by simp [Part.recordsKept, Part.busy, Part.inFoldPhase, h] at k, fun k => by simp [Part.loading, h] at k⟩

theorem beginReset_sequence (p : Part) (kind : SequenceKind) (fold : Bool) :
    (p.beginReset kind fold).ps.sequence = some ⟨kind, if fold then .fold else .awaitClear⟩ := by
  unfold Part.beginReset
  extract_lets p1 _ p2 p3 _ p4
  have abandoned : p3.ps.sequence = p2.ps.sequence := by
    unfold p3 Part.abandonWork
    exact ((abortParked_acts _).same .sequence rfl).symm
  have begun : p4.ps.sequence = some ⟨kind, if fold then .fold else .awaitClear⟩ := abandoned
  have reordered : (if fold then p4.reorderSaveQueue else p4).ps.sequence = p4.ps.sequence := by
    split
    · exact ((reorderSaveQueue_acts p4).same .sequence rfl).symm
    · rfl
  exact reordered.trans begun

/-- A reset that begins outside a sequence. -/
theorem beginReset_keepsNoMore {p : Part} (idle : p.busy = false) (q : Part) (kind : SequenceKind) (fold : Bool) :
    Part.KeepsNoMore p (q.beginReset kind fold) :=
  ⟨fun _ => (recordsKept_of_idle idle).1, fun k => by
    rw [loading_of_sequence (beginReset_sequence q kind fold) (by cases fold <;> simp)] at k
    cases k⟩

theorem resetLine_keepsNoMore (p : Part) : Part.KeepsNoMore p p.resetLine := by
  unfold Part.resetLine
  split
  · rename_i none
    exact beginReset_keepsNoMore (by rw [Part.busy, none]; rfl) p _ _
  · rename_i fold
    exact ⟨fun _ => by simp [Part.recordsKept, Part.inFoldPhase, fold], fun k => by cases k⟩
  · exact keepsNoMore_of_waiting rfl
  · exact keepsNoMore_of_waiting rfl
  all_goals exact keepsNoMore_of_sequence rfl

/-- However the command ends, no more records are kept after it than before. -/
def KeepsNoMore (s : State) (o : Host.Outcome State Fault Refusal) : Prop := ∀ t, o = .next t → Part.KeepsNoMore s.part t.part

theorem keepsNoMore_unchanged (s : State) : KeepsNoMore s s.unchanged := fun t e => by
  cases e
  exact keepsNoMore_of_sequence rfl

theorem keepsNoMore_after {s : State} {q : Part} (h : Part.KeepsNoMore s.part q) : KeepsNoMore s (s.after q) := fun t e => by
  cases e
  have same : (Part.finish s.part q).ps.sequence = q.ps.sequence := by rw [finish_ps]
  exact ⟨fun k => h.kept ((recordsKept_congr same).symm.trans k), fun k => h.loading ((loading_congr same).symm.trans k)⟩

theorem keepsNoMore_ite {s : State} {b : Prop} [Decidable b] {x y : Host.Outcome State Fault Refusal}
    (hx : KeepsNoMore s x) (hy : KeepsNoMore s y) : KeepsNoMore s (if b then x else y) := by
  split
  · exact hx
  · exact hy

/-- A command that leaves the sequence under way. -/
theorem keepsNoMore_of_spared {c : Instr} (s : State) (spared : Views.ofCommand c .sequence = false) :
    KeepsNoMore s (exec c s) := fun t h => by
  obtain ⟨u, e, -, hu⟩ := exec_answers c s
  rw [h] at e
  cases e
  exact keepsNoMore_of_sequence (hu.same .sequence spared).symm

theorem execSupplyLow_keepsNoMore (s : State) : KeepsNoMore s (execSupplyLow s) := by
  refine keepsNoMore_ite (keepsNoMore_unchanged s) (keepsNoMore_after (keepsNoMore_of_sequence ?_))
  split
  · exact ((reportSupplyLow_acts _).same .sequence rfl).symm
  · rfl

theorem execSupplyGood_keepsNoMore (s : State) : KeepsNoMore s (execSupplyGood s) := by
  refine keepsNoMore_ite (keepsNoMore_ite (keepsNoMore_after (keepsNoMore_of_waiting rfl))
    (keepsNoMore_after (keepsNoMore_of_sequence ?_))) (keepsNoMore_unchanged s)
  split
  · exact ((reportSupplyGood_acts _).same .sequence rfl).symm
  · rfl

theorem execResetAsserted_keepsNoMore (s : State) : KeepsNoMore s (execResetAsserted s) := by
  refine keepsNoMore_ite (keepsNoMore_unchanged s) (keepsNoMore_after ?_)
  exact (resetLine_keepsNoMore { s.part with ps := { s.part.ps with resetAsserted := true } }).of_same rfl

theorem execFoldPhaseEnd_keepsNoMore (s : State) : KeepsNoMore s (execFoldPhaseEnd s) := by
  unfold execFoldPhaseEnd
  split
  · exact keepsNoMore_ite (keepsNoMore_after (keepsNoMore_of_waiting rfl)) (keepsNoMore_unchanged s)
  all_goals exact keepsNoMore_unchanged s

theorem execFoldPhaseTimeLimit_keepsNoMore (s : State) : KeepsNoMore s (execFoldPhaseTimeLimit s) := by
  unfold execFoldPhaseTimeLimit
  split
  · exact keepsNoMore_after (keepsNoMore_of_waiting rfl)
  all_goals exact keepsNoMore_unchanged s

theorem exec_keepsNoMore {c : Instr} (h : presentsRecords c = true) (s : State) : KeepsNoMore s (exec c s) := by
  cases c with
  | controlByteOrder | controlMaskPolarity | restart | clearingPoint | loadComplete | powerLoss => cases h
  | supplyLow => exact execSupplyLow_keepsNoMore s
  | supplyGood => exact execSupplyGood_keepsNoMore s
  | powerOn => exact keepsNoMore_ite (keepsNoMore_after (keepsNoMore_of_waiting rfl)) (keepsNoMore_unchanged s)
  | resetAsserted => exact execResetAsserted_keepsNoMore s
  | foldPhaseEnd => exact execFoldPhaseEnd_keepsNoMore s
  | foldPhaseTimeLimit => exact execFoldPhaseTimeLimit_keepsNoMore s
  | _ => exact keepsNoMore_of_spared s rfl

/-- Most commands keep the records because their work presents the slot records. -/
theorem recorded_recordsStand {c : Instr} (presents : presentsRecords c = true) {s t : State} (run : exec c s = .next t)
    (sound : Memory.Sound s.part.board) (stand : s.part.RecordsStand) : t.part.RecordsStand := by
  have phase := exec_keepsNoMore presents s t run
  obtain e | ⟨q, e, work⟩ := exec_recorded presents s <;> rw [e] at run <;> cases run
  · exact stand
  · have same : (Part.finish s.part q).ps.sequence = q.ps.sequence := by rw [finish_ps]
    exact presents_recordsStand stand sound work ⟨fun k => phase.kept ((recordsKept_congr same).trans k),
      fun k => phase.loading ((loading_congr same).trans k)⟩

/-! ## A write of CONTROL (R149) -/

/-- Writes of records one after another change the board alone. -/
theorem foldl_board {α : Type} {f : Part → α → Part} (h : ∀ p x, ∃ m, f p x = { p with board := m }) (l : List α) (p : Part) :
    ∃ m, l.foldl f p = { p with board := m } := by
  induction l generalizing p with
  | nil => exact ⟨p.board, rfl⟩
  | cons x rest ih =>
    obtain ⟨m, e⟩ := h p x
    obtain ⟨n, k⟩ := ih (f p x)
    exact ⟨n, by rw [List.foldl_cons, k, e]⟩

theorem rewriteRecords_board (p : Part) (old : Bool) : ∃ m, p.rewriteRecords old = { p with board := m } := by
  unfold Part.rewriteRecords
  extract_lets q r
  obtain ⟨m, hq⟩ : ∃ m, q = { p with board := m } := foldl_board (fun _ _ => ⟨_, rfl⟩) allSlots p
  obtain ⟨n, hr⟩ : ∃ n, r = { q with board := n } := foldl_board (fun _ _ => ⟨_, rfl⟩) allSlots q
  clear_value q r
  subst hq hr
  exact ⟨_, rfl⟩

/-- What a write of CONTROL does once the byte order is settled. -/
theorem controlRest_presents (p : Part) (v : BitVec 32) : Part.Presents p ((p.writeMaskPolarity v).writeRestart v) := by
  have written : Part.Presents p (p.writeMaskPolarity v) := .of_same
  exact written.trans (presents_ite (beginReset_presents _ _ _) (.refl _))

theorem controlRest_phase {p : Part} (idle : p.busy = false) (v : BitVec 32) :
    Part.KeepsNoMore p ((p.writeMaskPolarity v).writeRestart v) := by
  unfold Part.writeRestart
  split
  · exact beginReset_keepsNoMore idle _ _ _
  · exact keepsNoMore_of_sequence rfl

/-- R149: after a change of byte order every record shows what it stands for in the new order. -/
theorem writeControl_recordsStand {p : Part} (idle : p.busy = false) (sound : Memory.Sound p.board) (stand : p.RecordsStand)
    (upper : Half) : (Part.finish p (p.writeControl upper)).RecordsStand := by
  unfold Part.writeControl
  extract_lets v _ r
  have held : Part.Presents p r := .of_same
  unfold Part.writeByteOrder
  split
  · rename_i order _
    split
    · exact presents_recordsStand stand sound (held.trans (controlRest_presents r v)) ((controlRest_phase (p := r) idle v).of_same rfl)
    · let ordered : Part := { r with port := { r.port with bigEndian := order } }
      have rewritten := rewriteRecords_stand ordered r.port.bigEndian sound.canonical
      have canonical : Memory.Sound (ordered.rewriteRecords r.port.bigEndian).board :=
        (rewriteRecords_acts ordered r.port.bigEndian).board sound
      obtain ⟨m, e⟩ := rewriteRecords_board ordered r.port.bigEndian
      rw [e] at rewritten canonical ⊢
      have kept := (recordsKept_of_idle (p := { ordered with board := m }) idle).1
      have shown := rewritten.showsAbove kept
      have above : ({ ordered with board := m } : Part).ShowsAbove p := ⟨shown.channels, shown.partInfo⟩
      exact finish_recordsStand (controlRest_presents _ v _ .none (rewritten.stands canonical (.inl kept))) fun _ => above
  · exact presents_recordsStand stand sound (held.trans (controlRest_presents r v)) ((controlRest_phase (p := r) idle v).of_same rfl)

theorem controlUpperWrite_recordsStand {s t : State} {upper : Half} (run : s.controlUpperWrite upper = .next t)
    (sound : Memory.Sound s.part.board) (stand : s.part.RecordsStand) : t.part.RecordsStand := by
  unfold State.controlUpperWrite at run
  split at run
  · cases run; exact stand
  · rename_i idle
    cases run
    exact writeControl_recordsStand (by simpa using idle) sound stand upper

/-! ## The clearing point (R175) -/

/-- At the clearing point every slot record is blank, and shows it. -/
theorem cleared_stands (p : Part) (kind : SequenceKind) : (p.cleared kind).Stands (p.cleared kind) .none where
  sound := Memory.Sound.empty
  current i g _ f hf := by
    have zero : f.value = 0 := by
      have blank := cleared_blanked p kind
      cases g <;> simp only [Part.groupFields, Part.slotIdentityFields, Part.slotFlags, blank.slot i, blank.volumes i,
        blank.commit i, SlotRow.blank, Volumes.blank, CommitRow.blank, slotZeroFields, List.mem_cons, List.not_mem_nil,
        or_false] at hf
      case manager => rcases hf with rfl | rfl | rfl | rfl | rfl | rfl | rfl <;> rfl
      case flags => rw [hf]; rfl
      case volumes => rcases hf with rfl | rfl | rfl | rfl | rfl <;> rfl
      case commit => rcases hf with rfl | rfl <;> rfl
      case zero => rw [hf]
    rw [zero, Nat.zero_mod]
    exact Memory.readField_zero _ fun _ _ _ => rfl
  order := rfl
  above _ _ _ := rfl

theorem clearingPoint_sequence (p : Part) (kind : SequenceKind) :
    (p.clearingPoint kind).ps.sequence = some ⟨kind, .load⟩ := by
  obtain ⟨_, -, sampled⟩ := clearingPoint_sampled p kind
  generalize p.clearingPoint kind = q at sampled ⊢
  have ps : q.ps = (p.cleared kind).ps := by have := congrArg Part.ps sampled.rest; exact this
  rw [ps]
  rfl

theorem execClearingPoint_recordsStand {s t : State} (run : execClearingPoint s = .next t) (stand : s.part.RecordsStand) :
    t.part.RecordsStand := by
  unfold execClearingPoint at run
  split at run
  · rename_i q _ _
    cases run
    have work : Part.Presents (s.part.cleared q.kind) (s.part.clearingPoint q.kind) := .forSlots sampleContact_presents _
    refine finish_recordsStand (work _ .none (cleared_stands s.part q.kind)) fun kept => ?_
    simp [Part.recordsKept, Part.busy, Part.inFoldPhase, clearingPoint_sequence] at kept
  all_goals cases run; exact stand

/-! ## The end of the load (R147, R175) -/

/-- The record writes of the load, as writes of whole records. -/
theorem recordChannels_eq (l : List Channel) (p : Part) : l.foldl Part.recordChannel p =
    (l.map RecordId.channel).foldl (fun q r => q.writeRecord p.port.bigEndian r.base r.size (q.recordFields r)) p := by
  induction l generalizing p with
  | nil => rfl
  | cons c rest ih => exact ih (p.recordChannel c)

/-- R102, R147: the load writes every channel's record and part information. -/
theorem recordAll_showsAbove {p : Part} (hm : Memory.wf p.board = true) :
    ((p.forSlots Part.recordChannel).recordPartInfo).ShowsAbove ((p.forSlots Part.recordChannel).recordPartInfo) := by
  have all (r : RecordId) (mem : r ∈ (allSlots.map .channel ++ [.partInfo] : List RecordId)) :
      ((p.forSlots Part.recordChannel).recordPartInfo).ShowsRecord r := by
    have order : (p.forSlots Part.recordChannel).port.bigEndian = p.port.bigEndian :=
      ((Part.Acts.forSlots (fun q c => recordChannel_acts q c) p).same .byteOrder rfl).symm
    have one : (p.forSlots Part.recordChannel).recordPartInfo = (allSlots.map .channel ++ [.partInfo] : List RecordId).foldl
        (fun q r => q.writeRecord p.port.bigEndian r.base r.size (q.recordFields r)) p := by
      rw [List.foldl_append, ← recordChannels_eq, Part.recordPartInfo, order]
      rfl
    rw [one]
    exact writeRecords_show _ _ hm r (.inl mem)
  exact ⟨fun n => all (.channel n) (by simp [mem_allSlots]), all .partInfo (by simp)⟩

/-- The load leaves the slot records as they stood. -/
theorem loadStored_stands {p : Part} (stands : p.Stands p .none) : p.loadStored.Stands p.loadStored .none where
  sound := (loadStored_acts p).board stands.sound
  order := rfl
  above _ _ _ := rfl
  current i g n := by
    unfold Part.loadStored
    extract_lets store q
    have loaded : Part.Presents p q := .of_same
    have acts : Part.Acts (.bytes 0xD00 0x200) q ((q.forSlots Part.recordChannel).recordPartInfo) :=
      (Part.Acts.forSlots (fun r c => recordChannel_acts r c) q).trans (recordPartInfo_acts _)
    generalize (q.forSlots Part.recordChannel).recordPartInfo = r at acts ⊢
    have slot : r.slot i = q.slot i := (acts.same (.slot i) rfl).symm
    have volumes : r.volumes i = q.volumes i := (acts.same (.volumes i) rfl).symm
    have commit : r.commit i = q.commit i := (acts.same (.commit i) rfl).symm
    have top := i.isLt
    refine ((loaded p .none stands).current i g n).congr (fun a lo hi => (acts.same (.byte a) ?_).symm)
      (acts.same .byteOrder rfl).symm (groupFields_congr (by rw [slot]) (by rw [volumes]) (by rw [commit]) g)
    simp only [slotBase] at lo hi
    simp only [Views.bytes, Bool.and_eq_false_iff, decide_eq_false_iff_not]
    omega

theorem execLoadComplete_recordsStand {s t : State} (run : execLoadComplete s = .next t)
    (sound : Memory.Sound s.part.board) (stand : s.part.RecordsStand) : t.part.RecordsStand := by
  unfold execLoadComplete at run
  split at run
  · rename_i loading
    extract_lets loaded at run
    cases run
    have stands : loaded.Stands loaded .none := loadStored_stands (stand.stands sound (.inr loading))
    have above : loaded.ShowsAbove loaded := recordAll_showsAbove sound.canonical
    exact finish_recordsStand (endSequence_presents loaded _ .none stands) fun _ => above
  · cases run; exact stand

/-! ## Every step -/

/-- Every command keeps the records showing what they stand for. -/
theorem exec_recordsStand {c : Instr} {s t : State} (run : exec c s = .next t) (sound : Memory.Sound s.part.board)
    (stand : s.part.RecordsStand) : t.part.RecordsStand := by
  cases presents : presentsRecords c with
  | true => exact recorded_recordsStand presents run sound stand
  | false =>
    cases c with
    | controlByteOrder | controlMaskPolarity | restart => exact controlUpperWrite_recordsStand run sound stand
    | clearingPoint => exact execClearingPoint_recordsStand run stand
    | loadComplete => exact execLoadComplete_recordsStand run sound stand
    | powerLoss =>
      cases run
      exact recordsStand_of_not_kept rfl rfl
    | _ => cases presents

/-- Settles O4: every command keeps the board sound (`step_does`), and by case on the command its work leaves no slot record
stale, after which the end of the step writes the records above that have changed. -/
theorem boardSoundKept : Obligations.BoardSoundKept := by
  refine ⟨fun s t sound run => (step_does run).board sound, fun s t sound stand run => ?_⟩
  unfold step at run
  split at run
  · cases run; exact stand
  · exact exec_recordsStand run sound stand

end Sys2Proof.Machine

end

-- ==== History: NonVolatile ====
section

/-! PROOFS. What non-volatile memory keeps: it changes only where a write of it ends or the power fails, and a loss of power
leaves it but for the target of the write under way (R52, R60, R165, R166, R167, R172). -/

set_option Elab.async false
namespace Sys2Proof.Machine
open Sys2Proof

/-! ## Where non-volatile memory changes -/

/-- A command whose views leave NV out does not change it. -/
theorem exec_nv {c : Instr} {s t : State} (run : exec c s = .next t) (out : Views.ofCommand c .nv = false) :
    t.part.nv = s.part.nv := by
  obtain ⟨u, e, -, does⟩ := exec_answers c s
  rw [run] at e
  cases e
  exact (does.same .nv out).symm

/-- Settles O10: of all commands only the ends of the three NV writes and the loss of power have NV among their views. -/
theorem nvChangesOnlyAtWriteEnds : Obligations.NvChangesOnlyAtWriteEnds := by
  intro c s t run changed
  cases c with
  | historyWriteAttemptEnd v => exact .inl ⟨v, rfl⟩
  | counterWriteEnd r => exact .inr (.inl ⟨r, rfl⟩)
  | settingsWriteEnd r => exact .inr (.inr (.inl ⟨r, rfl⟩))
  | powerLoss => exact .inr (.inr (.inr rfl))
  | _ => exact absurd (exec_nv run rfl) changed

/-! ## A loss of power -/

/-- The board of a part without power reads 0. -/
theorem powerLost_readByte (p : Part) (a : Nat) : p.powerLost.readByte a = 0 := rfl

/-- R52, R167: only the target of a write under way is left failing its check. -/
theorem nvAfterPowerLoss_idle {p : Part} (saver : p.hs.saver = .idle) : p.nvAfterPowerLoss = p.nv := by
  rw [Part.nvAfterPowerLoss, saver]

theorem nvAfterPowerLoss_place {p : Part} {k : Fin 64} {copy : Option Entry} {n : Nat} {second changed : Bool}
    (saver : p.hs.saver = .place k copy n second changed) :
    p.nvAfterPowerLoss = { p.nv with places := p.nv.places.set k .failing } := by
  rw [Part.nvAfterPowerLoss, saver]

theorem nvAfterPowerLoss_counter {p : Part} {value : BitVec 32} {second : Bool} (saver : p.hs.saver = .counter value second) :
    p.nvAfterPowerLoss = { p.nv with counters := p.nv.counters.set p.counterTarget none } := by
  rw [Part.nvAfterPowerLoss, saver]

theorem nvAfterPowerLoss_settings {p : Part} {r : SettingsRequest} {page : Page} {second : Bool}
    (saver : p.hs.saver = .settings r page second) :
    p.nvAfterPowerLoss = { p.nv with pages := p.nv.pages.set p.pageTarget none } := by
  rw [Part.nvAfterPowerLoss, saver]

/-- Settles O60: the part without power is read off field by field, and NV by the write under way. -/
theorem powerLossKeepsNv : Obligations.PowerLossKeepsNv := by
  intro s
  have keeps : s.part.ChangesOnly (.ofCommand .powerLoss) s.part.powerLost :=
    ((powerLost_keeps s.part).mono (Views.le_and_left _ _)).same
  refine ⟨_, rfl, rfl, keeps, rfl, rfl, powerLost_readByte s.part, fun i => ⟨powerLost_slot _ i, ?_⟩, rfl,
    nvAfterPowerLoss_idle, fun _ _ _ _ _ => nvAfterPowerLoss_place, fun _ _ => nvAfterPowerLoss_counter,
    fun _ _ _ => nvAfterPowerLoss_settings⟩
  rw [powerLost_bay]
  rfl

end Sys2Proof.Machine
end

-- ==== History: LoadEnd ====
section

/-! PROOFS. The end of the load (R4, R60, R85, R101, R164, R165, R172, R175): what the part takes from NV stands at the end of
the step, and a settled declaration that was held is made. -/

set_option Elab.async false
namespace Sys2Proof.Machine
open Sys2Proof

/-! ## What is taken from NV -/

/-- The part with the history, the page and the counter of NV, before any record is written. -/
def Part.takeStored (p : Part) : Part :=
  { p with hs := HistoryStore.load p.nv, au := p.au.loadPage p.nv.loadPage }

/-- R102, R147: the rest of the load writes channel records and part information. -/
theorem loadStored_records (p : Part) : Part.Acts (.bytes 0xD00 0x200) p.takeStored p.loadStored :=
  (Part.Acts.forSlots (fun r c => recordChannel_acts r c) p.takeStored).trans (recordPartInfo_acts _)

theorem takeStored_channel (p : Part) (c : Channel) : p.takeStored.channel c =
    { p.channel c with calibration := Page.calibrationOf p.nv.loadPage c, feed := Page.feedOf p.nv.loadPage c } := by
  simp [Part.channel, Part.takeStored, Accounting.loadPage]

theorem takeStored_place (p : Part) (k : Fin 64) : p.takeStored.place k = p.nv.loadPlace k := by
  simp [Part.place, Part.takeStored, HistoryStore.load]

/-! ## The end of the sequence before the held declarations (R172, R175) -/

/-- BUSY clears and the lockout starts. -/
def Part.clearBusy (p : Part) : Part :=
  { p with ps := { p.ps with sequence := none, supplyLow := false, lockoutRunning := true } }

/-- A comparator in LOW is reported. -/
def Part.reportComparator (p : Part) : Part := if p.ps.comparatorLow then p.reportSupplyLow else p

/-- STORE is raised for damage. -/
def Part.reportDamage (p : Part) : Part := if p.hs.storeFault then p.raise .store else p

theorem endSequence_eq (p : Part) :
    p.endSequence = p.clearBusy.reportComparator.reportDamage.forSlots Part.releaseSettled := rfl

/-- What the start of the lockout and the end of BUSY touch. -/
def Views.clearingBusy : Views := Views.and (.only .sequence) (Views.and (.only .supplyLow) (.only .gate))

theorem clearBusy_acts (p : Part) : Part.Acts .clearingBusy p p.clearBusy := by
  refine .raw fun v hv => ?_
  cases v <;> first | rfl | exact ⟨rfl, rfl⟩ | exact ⟨rfl, rfl, rfl⟩ | exact absurd hv (by decide)

theorem reportComparator_acts (p : Part) : Part.Acts .supplying p p.reportComparator := by
  unfold Part.reportComparator
  split
  · exact reportSupplyLow_acts p
  · exact .refl _ _

theorem reportComparator_ps (p : Part) : p.clearBusy.reportComparator.ps =
    { p.ps with sequence := none, supplyLow := p.ps.comparatorLow, lockoutRunning := true } := by
  unfold Part.reportComparator
  split
  case isTrue low =>
    rw [(reportSupplyLow_reported _).ps, show p.ps.comparatorLow = true from low]
    rfl
  case isFalse good =>
    rw [show p.ps.comparatorLow = false from Bool.eq_false_iff.2 good]
    rfl

theorem reportComparator_good {p : Part} (good : p.ps.comparatorLow = false) : p.reportComparator = p := by
  simp [Part.reportComparator, good]

theorem reportDamage_acts (p : Part) : Part.Acts (.only .pending) p p.reportDamage := by
  unfold Part.reportDamage
  split
  · exact raise_acts _ _ rfl
  · exact .refl _ _

theorem reportDamage_notice {p : Part} (damage : p.hs.storeFault = true) : p.reportDamage.noticePending .store = true := by
  rw [Part.reportDamage, if_pos damage]
  exact raise_notice _ _

/-! ## Held settled declarations (R4, R25) -/

/-- What a settled declaration of a bay that was held touches. -/
def Views.releasing (b : Slot) : Views := Views.and (.rowReport b) (.only (.presence b))

/-- R4, R25: a declaration that was held is made, and concerns its own bay and slot alone. -/
theorem releaseSettled_acts_row (p : Part) (b : Slot) : Part.Acts (.releasing b) p (p.releaseSettled b) := by
  unfold Part.releaseSettled
  split
  · have cleared : Part.Acts (.releasing b) p (p.updBay b fun r => { r with settledHeld := false }) :=
      setBay_acts p b _ (fun _ => rfl) (fun h => by simp [Views.releasing, Views.and, Views.only] at h) (fun _ => rfl)
        (fun _ => rfl) (fun _ => rfl)
    exact cleared.trans ((settled_acts _ b).mono (Views.le_and_left _ _))
  · exact .refl _ _

/-- R27: while no attempt has failed, a join leaves the slot's state, taken or refused. -/
theorem joinBringUp_state {p : Part} {i : Slot} (op : LinkOp) (fresh : (p.slot i).attempts = 0) :
    ((p.joinBringUp i op).slot i).state = (p.slot i).state := by
  unfold Part.joinBringUp
  split
  · rename_i q taken
    rw [← ((placeBringUp_acts p q i op taken).trans (takeFromList_acts q)).same (.slot i) rfl]
  · split
    · rw [updSlot_slot_self]
    · rw [attemptFailed_retries (by omega)]

/-- R25: settled: the slot becomes IDENTIFY. -/
theorem settled_state {p : Part} {i : Slot} (state : (p.slot i).state = .settling) :
    ((p.settled i).slot i).state = .identify := by
  have changed : (((p.updSlot i fun r => { r with attempts := 0 }).changeState i .identify).slot i) =
      { p.slot i with attempts := 0, state := .identify } := by rw [changeState_slot, updSlot_slot_self]
  rw [Part.settled, if_pos state, joinBringUp_state _ (by rw [changed]), changed]

/-- R4: a SETTLING slot whose settled declaration is held. -/
def Part.HoldsSettled (p : Part) (b : Slot) : Prop := (p.slot b).state = .settling ∧ (p.bay b).settledHeld = true

/-- R4, R25: the declaration has been made. -/
def Part.HasSettled (p : Part) (b : Slot) : Prop := (p.slot b).state = .identify ∧ (p.bay b).settledHeld = false

/-- Work that touches neither the slot nor the presence of its bay. -/
theorem Part.Acts.settling {t : Views} {p q : Part} {b : Slot} (h : Part.Acts t p q)
    (k : t (.slot b) = false ∧ t (.presence b) = false := by exact ⟨rfl, rfl⟩) :
    q.slot b = p.slot b ∧ (q.bay b).settledHeld = (p.bay b).settledHeld :=
  ⟨(h.same (.slot b) k.1).symm, (h.same (.presence b) k.2).2.2.symm⟩

theorem Part.Acts.holdsSettled {t : Views} {p q : Part} {b : Slot} (h : Part.Acts t p q)
    (k : t (.slot b) = false ∧ t (.presence b) = false := by exact ⟨rfl, rfl⟩) (held : p.HoldsSettled b) :
    q.HoldsSettled b := by
  obtain ⟨slot, bay⟩ := h.settling k
  rwa [Part.HoldsSettled, slot, bay]

theorem Part.Acts.hasSettled {t : Views} {p q : Part} {b : Slot} (h : Part.Acts t p q)
    (k : t (.slot b) = false ∧ t (.presence b) = false := by exact ⟨rfl, rfl⟩) (made : p.HasSettled b) :
    q.HasSettled b := by
  obtain ⟨slot, bay⟩ := h.settling k
  rwa [Part.HasSettled, slot, bay]

theorem releaseSettled_releases {p : Part} {b : Slot} (held : p.HoldsSettled b) : (p.releaseSettled b).HasSettled b := by
  obtain ⟨state, settled⟩ := held
  have made := settled_acts (p.updBay b fun r => { r with settledHeld := false }) b
  rw [Part.releaseSettled, if_pos settled]
  refine ⟨settled_state state, ?_⟩
  rw [← (made.same (.presence b) rfl).2.2, updBay_bay_self]

/-- R4: every held declaration is made by the pass over the slots. -/
theorem releaseAll_releases {p : Part} {b : Slot} (held : p.HoldsSettled b) :
    (p.forSlots Part.releaseSettled).HasSettled b := by
  have apart {j : Slot} (other : j ≠ b) : Views.releasing j (.slot b) = false ∧ Views.releasing j (.presence b) = false := by
    simp [Views.releasing, Views.rowReport, Views.and, Views.only, Views.reporting, Views.linking, Views.flushing,
      Views.completing, Ne.symm other]
  exact forSlots_visits (P := (Part.HoldsSettled · b)) (Q := (Part.HasSettled · b)) b
    (fun q j other => (releaseSettled_acts_row q j).holdsSettled (apart other)) (fun _ => releaseSettled_releases)
    (fun q j other => (releaseSettled_acts_row q j).hasSettled (apart other)) held

/-! ## The whole step -/

/-- Everything but what the load takes from NV, and NV. -/
def Views.unstored : Views
  | .page | .counter | .nv | .sightings | .storeFault | .channel _ => false
  | _ => true

/-- Everything of `Views.unstored` but the history table and fold at write. -/
def Views.unplaced : Views
  | .place _ | .foldAtWrite => false
  | v => Views.unstored v

/-- The views of the steps of the end of the sequence. -/
theorem Views.clearingBusy_le : Views.le .clearingBusy .unplaced := fun v h => by
  cases v <;> simp_all [Views.clearingBusy, Views.and, Views.only, Views.unplaced, Views.unstored]

theorem Views.releasing_le (b : Slot) : Views.le (.releasing b) .unplaced := fun v h => by
  cases v <;> simp_all [Views.releasing, Views.rowReport, Views.and, Views.only, Views.reporting, Views.linking,
    Views.flushing, Views.completing, Views.unplaced, Views.unstored]

theorem Views.unplaced_le : Views.le .unplaced .unstored := fun v h => by
  cases v <;> simp_all [Views.unplaced, Views.unstored]

theorem Views.supplying_le : Views.le .supplying .unstored := fun v h => by
  cases v <;> simp_all [Views.supplying, Views.saving, Views.flushing, Views.completing, Views.history, Views.unstored]

theorem Views.records_le : Views.le (.bytes 0xD00 0x200) .unplaced := fun v h => by
  cases v <;> simp_all [Views.bytes, Views.unplaced, Views.unstored]

theorem Views.ending_le : Views.le .ending .unstored := fun v h => by
  cases v <;> simp_all [Views.ending, Views.saving, Views.flushing, Views.completing, Views.history, Views.unstored]

theorem releaseAll_acts (p : Part) : Part.Acts .unplaced p (p.forSlots Part.releaseSettled) :=
  .forSlots (fun q b => (releaseSettled_acts_row q b).mono (Views.releasing_le b)) p

/-- The end of the sequence leaves what the load has taken from NV. -/
theorem endSequence_unstored (p : Part) : Part.Acts .unstored p p.endSequence :=
  ((clearBusy_acts p).mono (Views.le_trans Views.clearingBusy_le Views.unplaced_le)).trans
    (((reportComparator_acts _).mono Views.supplying_le).trans
      (((reportDamage_acts _).mono (Views.only_le rfl)).trans ((releaseAll_acts _).mono Views.unplaced_le)))

/-- R172: with the comparator in GOOD it leaves the history table too. -/
theorem endSequence_unplaced {p : Part} (good : p.ps.comparatorLow = false) : Part.Acts .unplaced p p.endSequence := by
  rw [endSequence_eq, reportComparator_good (p := p.clearBusy) good]
  exact ((clearBusy_acts p).mono Views.clearingBusy_le).trans
    (((reportDamage_acts _).mono (Views.only_le rfl)).trans (releaseAll_acts _))

/-- R175: the power and supply block after the load. -/
theorem endSequence_ps (p : Part) : p.endSequence.ps =
    { p.ps with sequence := none, supplyLow := p.ps.comparatorLow, lockoutRunning := true } := by
  rw [endSequence_eq]
  refine forSlots_keeps (P := fun q => q.ps = _) (fun q b kept => ?_) ?_
  · exact (releaseSettled_acts_row q b).ps_eq.trans kept
  · exact (reportDamage_acts _).ps_eq.trans (reportComparator_ps p)

/-- R60: damage found in the load raises STORE. -/
theorem endSequence_notice {p : Part} (damage : p.hs.storeFault = true) : p.endSequence.noticePending .store = true := by
  have kept : Part.Acts .unstored p p.clearBusy.reportComparator :=
    ((clearBusy_acts p).mono (Views.le_trans Views.clearingBusy_le Views.unplaced_le)).trans
      ((reportComparator_acts _).mono Views.supplying_le)
  have found : p.clearBusy.reportComparator.hs.storeFault = true := (kept.same .storeFault rfl).symm.trans damage
  rw [endSequence_eq]
  exact (releaseAll_acts _).raised _ (reportDamage_notice found)

/-- R4: a held declaration is made at the end of the sequence. -/
theorem endSequence_settles {p : Part} {b : Slot} (held : p.HoldsSettled b) : p.endSequence.HasSettled b := by
  have begun : p.clearBusy.HoldsSettled b := (clearBusy_acts p).holdsSettled (held := held)
  have reported := (reportComparator_acts p.clearBusy).holdsSettled (held := begun)
  rw [endSequence_eq]
  exact releaseAll_releases ((reportDamage_acts _).holdsSettled (held := reported))

theorem exec_loadComplete {s : State} {kind : SequenceKind} (sequence : s.part.ps.sequence = some ⟨kind, .load⟩) :
    exec .loadComplete s =
      .next { s with part := Part.finish s.part.loadStored s.part.loadStored.endSequence } := by
  have loading : s.part.loading = true := by rw [Part.loading, sequence]; rfl
  exact if_pos loading

/-- Settles O59: NV and what is loaded from it stand from the load to the end of the step, and the end of the sequence gives
the power and supply block, STORE and the held declarations. -/
theorem loadEndsTheSequence : Obligations.LoadEndsTheSequence := by
  intro s kind sequence
  obtain ⟨t, run, pending, does⟩ := exec_answers .loadComplete s
  have run' := exec_loadComplete sequence
  rw [run'] at run
  cases run
  have records := loadStored_records s.part
  have stored : Part.Acts .unstored s.part.takeStored
      (Part.finish s.part.loadStored s.part.loadStored.endSequence) :=
    (records.mono (Views.le_trans Views.records_le Views.unplaced_le)).trans
      ((endSequence_unstored _).trans ((finish_acts _ _).mono Views.ending_le))
  have ps : s.part.loadStored.ps = s.part.ps := records.ps_eq
  refine ⟨_, run', rfl, does.same, ?_, (stored.same .nv rfl).symm, (stored.same .page rfl).1.symm,
    (stored.same .counter rfl).1.symm, (stored.same .sightings rfl).symm, (stored.same .storeFault rfl).symm,
    fun damage => ?_, fun good k => ?_, fun c => ?_, fun b state held => ?_⟩
  · rw [finish_ps, endSequence_ps, ps]
  · exact finish_notice (endSequence_notice ((records.same .storeFault rfl).symm.trans damage))
  · have whole := (records.mono Views.records_le).trans (endSequence_unplaced (p := s.part.loadStored) (ps ▸ good))
    rw [finish_place_plain _ (whole.same .foldAtWrite rfl).symm, ← whole.same (.place k) rfl, takeStored_place]
  · rw [← stored.same (.channel c) rfl, takeStored_channel]
    exact ⟨rfl, rfl⟩
  · exact (finish_acts _ _).hasSettled (made := endSequence_settles (records.holdsSettled (held := ⟨state, held⟩)))

end Sys2Proof.Machine
end

-- ==== History: Saver ====
section

/-! PROOFS. The saver's operations (R51, R52, R53, R55, R165): the save queue, the start of an attempt, the take of a place and
the ends of a write, each said once. -/

set_option Elab.async false
namespace Sys2Proof.Machine
open Sys2Proof

/-! ## The save queue (R51) -/

theorem enqueuePlace_saveQueue (p : Part) (k : Fin 64) : (p.enqueuePlace k).hs.saveQueue =
    if p.hs.saveQueue.contains k then p.hs.saveQueue else p.hs.saveQueue ++ [k] := by
  unfold Part.enqueuePlace
  split <;> rfl

theorem mem_enqueuePlace (p : Part) (k : Fin 64) : k ∈ (p.enqueuePlace k).hs.saveQueue := by
  rw [enqueuePlace_saveQueue]
  split
  case isTrue queued => exact List.contains_iff_mem.1 queued
  case isFalse => simp

theorem enqueuePlace_saver (p : Part) (k : Fin 64) : (p.enqueuePlace k).hs.saver = p.hs.saver := by
  unfold Part.enqueuePlace
  split <;> rfl

/-- R51: a place joins the queue at the tail; the queue as it was stands before it. -/
theorem enqueuePlace_prefix (p : Part) (k : Fin 64) : p.hs.saveQueue <+: (p.enqueuePlace k).hs.saveQueue := by
  rw [enqueuePlace_saveQueue]
  split
  · exact List.prefix_rfl
  · exact List.prefix_append _ _

/-! ## The start of an attempt (R52, R55) -/

/-- R55: the fold that the start of an attempt makes. -/
def Part.foldPlace (p : Part) (k : Fin 64) : Part :=
  match (p.place k).entry with
  | some e => if p.hs.foldAtWrite && p.serialHeld e.serial && !p.serialUnsettled e.serial then p.foldEntry k e.serial else p
  | none => p

theorem beginAttempt_eq (p : Part) (k : Fin 64) (second : Bool) : p.beginAttempt k second =
    { p.foldPlace k with hs := { (p.foldPlace k).hs with
        saver := .place k ((p.foldPlace k).place k).entry (p.foldPlace k).hs.sightings second false } } := rfl

theorem foldPlace_plain {p : Part} (unfolded : p.hs.foldAtWrite = false) (k : Fin 64) : p.foldPlace k = p := by
  unfold Part.foldPlace
  split
  · rw [unfolded, Bool.false_and, Bool.false_and, if_neg Bool.false_ne_true]
  · rfl

theorem foldEntry_saveQueue (p : Part) (k : Fin 64) (serial : Quad) :
    (p.foldEntry k serial).hs.saveQueue = p.hs.saveQueue := by
  have visit (q : Part) (i : Slot) : (if (q.slot i).folds serial then q.foldSlot k i else q).hs.saveQueue = q.hs.saveQueue := by
    split
    · exact foldSlot_saveQueue k q i
    · rfl
  unfold Part.foldEntry
  exact forSlots_keeps (P := fun q => q.hs.saveQueue = p.hs.saveQueue) (fun q i kept => (visit q i).trans kept) rfl

theorem foldPlace_saveQueue (p : Part) (k : Fin 64) : (p.foldPlace k).hs.saveQueue = p.hs.saveQueue := by
  unfold Part.foldPlace
  split
  · split
    · exact foldEntry_saveQueue p k _
    · rfl
  · rfl

theorem beginAttempt_writes (p : Part) (k : Fin 64) (second : Bool) : (p.beginAttempt k second).hs.saver.writes k = true :=
  beq_iff_eq.2 rfl

/-- While fold at write is disabled the start of an attempt changes the saver alone. -/
theorem beginAttempt_plain {p : Part} (unfolded : p.hs.foldAtWrite = false) (k : Fin 64) (second : Bool) :
    p.beginAttempt k second =
      { p with hs := { p.hs with saver := .place k (p.place k).entry p.hs.sightings second false } } := by
  rw [beginAttempt_eq, foldPlace_plain unfolded]

theorem beginAttempt_saveQueue (p : Part) (k : Fin 64) (second : Bool) :
    (p.beginAttempt k second).hs.saveQueue = p.hs.saveQueue := by
  rw [beginAttempt_eq]
  exact foldPlace_saveQueue p k

theorem takePlace_writes (p : Part) (k : Fin 64) : (p.takePlace k).hs.saver.writes k = true :=
  beginAttempt_writes _ _ _

theorem takePlace_saveQueue (p : Part) (k : Fin 64) : (p.takePlace k).hs.saveQueue = p.hs.saveQueue.erase k :=
  beginAttempt_saveQueue (p.dequeuePlace k) k false

/-- A place other than the one taken stays on the queue. -/
theorem mem_takePlace {p : Part} {j k : Fin 64} (other : j ≠ k) (queued : j ∈ p.hs.saveQueue) :
    j ∈ (p.takePlace k).hs.saveQueue := by
  rw [takePlace_saveQueue]
  exact (List.mem_erase_of_ne other).2 queued

/-- R52: whatever the saver takes, a place that stands on the queue stays there or is being written. -/
theorem saverTakeUpTo_queued {k : Fin 64} (n : Nat) {p : Part} (queued : k ∈ p.hs.saveQueue) :
    k ∈ (Part.saverTakeUpTo n p).hs.saveQueue ∨ (Part.saverTakeUpTo n p).hs.saver.writes k = true := by
  induction n generalizing p with
  | zero => exact .inl queued
  | succ n ih =>
    unfold Part.saverTakeUpTo
    split
    case isFalse => exact .inl queued
    case isTrue =>
      split
      case h_1 => exact .inl queued
      case h_2 j _ =>
        by_cases own : k = j
        · subst own
          exact .inr (takePlace_writes p k)
        · exact .inl (mem_takePlace own queued)
      case h_3 => exact .inl queued
      case h_4 r _ =>
        extract_lets _ q
        split
        · exact .inl queued
        · refine ih ?_
          rw [← show q.hs.saveQueue = _ from (complete_acts q r.cell .badArgument [] (FitsIn.nil _)).same .saveQueue rfl]
          exact queued

/-- A place that stands on the queue at the end of a step's work stays there or is being written after the step. -/
theorem finish_queued {k : Fin 64} {p : Part} (before : Part) (queued : k ∈ p.hs.saveQueue) :
    k ∈ (Part.finish before p).hs.saveQueue ∨ (Part.finish before p).hs.saver.writes k = true := by
  have closes := finish_closes before p
  have digest : k ∈ p.takeDigest.hs.saveQueue := by rw [takeDigest_hs]; exact queued
  rw [← show _ = (Part.finish before p).hs.saveQueue from closes.same .saveQueue rfl,
    ← show _ = (Part.finish before p).hs.saver from closes.same .saver rfl]
  exact saverTakeUpTo_queued _ digest

/-! ## The end of a step that leaves the saver writing -/

/-- What the end of a step touches while the saver writes. -/
def Views.closingDigest : Views := Views.and .closing (.only .digests)

theorem finish_busySaver {p : Part} (before : Part) (writing : p.hs.saver ≠ .idle) :
    Part.Acts .closingDigest p (Part.finish before p) := by
  have closes := finish_closes before p
  rw [saverTake_writing (by rw [takeDigest_hs]; exact writing)] at closes
  exact ((takeDigest_acts p).mono (Views.le_and_right _ _)).trans (closes.mono (Views.le_and_left _ _))

theorem saver_ne_idle {s : Saver} {k : Fin 64} (writes : s.writes k = true) : s ≠ .idle := fun idle => by
  rw [idle] at writes
  cases writes

/-! ## The saver's choice of a place (R52, R55, R165) -/

theorem nextWrite_takeDigest (p : Part) : p.takeDigest.nextWrite = p.nextWrite := by
  refine nextWrite_congr (takeDigest_hs p) ?_ ?_ <;> unfold Part.takeDigest <;> split <;> rfl

/-- R165: while fold at write is enabled the places come first. -/
theorem nextWrite_folding {p : Part} {k : Fin 64} (folds : p.hs.foldAtWrite = true) (first : p.writablePlace = some k) :
    p.nextWrite = some (.place k) := by
  simp [Part.nextWrite, folds, first]

theorem writablePlace_plain {p : Part} (unfolded : p.hs.foldAtWrite = false) : p.writablePlace = p.hs.saveQueue.head? := by
  rw [Part.writablePlace]
  cases queue : p.hs.saveQueue with
  | nil => rfl
  | cons k rest => rw [List.find?_cons]; simp [unfolded]

/-- R165: while fold at write is disabled the counter and the settings come first, then the head of the save queue. -/
theorem nextWrite_plain {p : Part} (unfolded : p.hs.foldAtWrite = false) :
    p.nextWrite = p.nextStored.or (p.hs.saveQueue.head?.map .place) := by
  rw [Part.nextWrite, writablePlace_plain unfolded]
  simp [unfolded]

/-- R52: a step that leaves the saver idle, with a place as its next write, ends with the write of that place. -/
theorem finish_takes {p : Part} (before : Part) {k : Fin 64} (idle : p.hs.saver = .idle) (works : p.works = true)
    (next : p.nextWrite = some (.place k)) : Part.Acts .closing (p.takeDigest.takePlace k) (Part.finish before p) := by
  have ready : (p.takeDigest.hs.saver = .idle && p.takeDigest.works) = true := by
    rw [takeDigest_hs, Part.works_congr (takeDigest_ps p), idle, works]
    rfl
  have taken : p.takeDigest.saverTake = p.takeDigest.takePlace k := by
    unfold Part.saverTake Part.saverTakeUpTo
    rw [if_pos ready, nextWrite_takeDigest, next]
  rw [← taken]
  exact finish_closes before p

/-- A place that the saver has taken at the end of a step is being written. -/
theorem finish_takes_writes {p : Part} (before : Part) {k : Fin 64} (idle : p.hs.saver = .idle) (works : p.works = true)
    (next : p.nextWrite = some (.place k)) : (Part.finish before p).hs.saver.writes k = true := by
  rw [← show _ = (Part.finish before p).hs.saver from (finish_takes before idle works next).same .saver rfl]
  exact takePlace_writes _ k

/-- R55: a slot that carries the serial of the place's entry has an ADVANCE_TALLY unsettled. -/
theorem placeUnsettled_of {p : Part} {k : Fin 64} {e : Entry} {i : Slot} (entry : (p.place k).entry = some e)
    (carries : (p.slot i).carries e.serial = true) (unsettled : (p.commit i).unsettled ≠ none) :
    p.placeUnsettled k = true := by
  rw [Part.placeUnsettled, entry]
  exact List.any_eq_true.2 ⟨i, mem_allSlots i, by simp [carries, Option.isSome_iff_ne_none.2 unsettled]⟩

theorem placeSettled_of {p : Part} {k : Fin 64}
    (settled : ∀ e i, (p.place k).entry = some e → (p.slot i).carries e.serial = true → (p.commit i).unsettled = none) :
    p.placeUnsettled k = false := by
  unfold Part.placeUnsettled
  split
  case h_1 e entry =>
    refine List.any_eq_false.2 fun i _ => ?_
    by_cases carries : (p.slot i).carries e.serial = true
    · simp [settled e i entry carries]
    · simp [carries]
  case h_2 => rfl

/-- R55: the saver passes over the head of the queue while the head is unsettled. -/
theorem writablePlace_second {p : Part} {j m : Fin 64} {rest : List (Fin 64)} (queue : p.hs.saveQueue = j :: m :: rest)
    (folds : p.hs.foldAtWrite = true) (passed : p.placeUnsettled j = true) (settled : p.placeUnsettled m = false) :
    p.writablePlace = some m := by
  rw [Part.writablePlace, queue, List.find?_cons, List.find?_cons]
  simp [folds, passed, settled]

/-! ## The end of an attempt (R52, R53) -/

/-- R52 step 2: NV holds the copy, and the saver is idle. -/
def Part.storeCopy (p : Part) (k : Fin 64) (copy : Option Entry) (counter : Nat) : Part :=
  { p with nv := { p.nv with places := p.nv.places.set k (nvPlaceOf copy counter) }, hs := { p.hs with saver := .idle } }

/-- R52 step 2: the place is clean, or joins the queue when it has changed. -/
def Part.settlePlace (p : Part) (k : Fin 64) (changed : Bool) : Part :=
  if p.hs.saveQueue.contains k then p
  else if changed then p.enqueuePlace k
  else p.updPlace k fun r => { r with dirty := false }

theorem placeVerified_eq (p : Part) (k : Fin 64) (copy : Option Entry) (counter : Nat) (changed : Bool) :
    p.placeVerified k copy counter changed = ((p.storeCopy k copy counter).settlePlace k changed).finishForget k .ok := rfl

theorem settlePlace_saver (p : Part) (k : Fin 64) (changed : Bool) : (p.settlePlace k changed).hs.saver = p.hs.saver := by
  unfold Part.settlePlace
  split
  · rfl
  · split
    · exact enqueuePlace_saver p k
    · rfl

theorem settlePlace_prefix (p : Part) (k : Fin 64) (changed : Bool) :
    p.hs.saveQueue <+: (p.settlePlace k changed).hs.saveQueue := by
  unfold Part.settlePlace
  split
  · exact List.prefix_rfl
  · split
    · exact enqueuePlace_prefix p k
    · exact List.prefix_rfl

theorem settlePlace_ne (p : Part) {j k : Fin 64} (changed : Bool) (other : j ≠ k) :
    (p.settlePlace k changed).place j = p.place j := by
  unfold Part.settlePlace
  split
  · rfl
  · split
    · exact enqueuePlace_place p k j
    · exact updPlace_place_ne p _ other

theorem settlePlace_entry (p : Part) (j k : Fin 64) (changed : Bool) :
    ((p.settlePlace k changed).place j).entry = (p.place j).entry := by
  by_cases own : j = k
  case neg => rw [settlePlace_ne p changed own]
  case pos =>
    subst own
    unfold Part.settlePlace
    split
    · rfl
    · split
      · rw [enqueuePlace_place]
      · rw [updPlace_place_self]

theorem settlePlace_clean {p : Part} {k : Fin 64} (unqueued : p.hs.saveQueue.contains k = false) :
    (p.settlePlace k false).place k = { p.place k with dirty := false } := by
  unfold Part.settlePlace
  rw [if_neg (by rw [unqueued]; exact Bool.false_ne_true), if_neg Bool.false_ne_true, updPlace_place_self]

/-- What the end of a verified write touches before the requests complete. -/
def Views.verifying : Views := Views.and .history (.only .nv)

theorem storeCopy_acts (p : Part) (k : Fin 64) (copy : Option Entry) (counter : Nat) :
    Part.Acts .verifying p (p.storeCopy k copy counter) := by
  refine .raw fun v hv => ?_
  cases v <;> first | rfl | exact ⟨rfl, rfl⟩ | exact ⟨rfl, rfl, rfl⟩ | exact absurd hv (by decide)

theorem settlePlace_acts (p : Part) (k : Fin 64) (changed : Bool) : Part.Acts .history p (p.settlePlace k changed) := by
  unfold Part.settlePlace
  split
  · exact .refl _ _
  · split
    · exact enqueuePlace_acts p k
    · exact setPlace_acts p k _ rfl

/-- What the end of a write leaves of the store when it has been verified: NV with the copy, the saver idle, the queue with
at most the place behind it, the entries as they were. -/
structure Part.Verified (p : Part) (k : Fin 64) (copy : Option Entry) (counter : Nat) (q : Part) : Prop where
  acts : Part.Acts (.and .verifying .completing) p q
  nv : q.nv = { p.nv with places := p.nv.places.set k (nvPlaceOf copy counter) }
  saver : q.hs.saver = .idle
  queue : p.hs.saveQueue <+: q.hs.saveQueue
  entry : ∀ j, (q.place j).entry = (p.place j).entry
  others : ∀ j, j ≠ k → q.place j = p.place j

theorem settlePlace_verified (p : Part) (k : Fin 64) (copy : Option Entry) (counter : Nat) (changed : Bool) :
    p.Verified k copy counter ((p.storeCopy k copy counter).settlePlace k changed) := by
  have settled := settlePlace_acts (p.storeCopy k copy counter) k changed
  exact {
    acts := ((storeCopy_acts p k copy counter).mono (Views.le_and_left _ _)).trans
      (settled.mono (Views.le_trans (Views.le_and_left _ _) (Views.le_and_left _ _)))
    nv := (settled.same .nv rfl).symm
    saver := settlePlace_saver _ k changed
    queue := settlePlace_prefix (p.storeCopy k copy counter) k changed
    entry := fun j => settlePlace_entry _ j k changed
    others := fun _ other => settlePlace_ne _ changed other }

/-- Requests that complete afterwards change nothing of it. -/
theorem Part.Verified.completing {p q r : Part} {k : Fin 64} {copy : Option Entry} {counter : Nat}
    (h : p.Verified k copy counter q) (completed : Part.Acts .completing q r) : p.Verified k copy counter r where
  acts := h.acts.trans (completed.mono (Views.le_and_right _ _))
  nv := (completed.same .nv rfl).symm.trans h.nv
  saver := (completed.same .saver rfl).symm.trans h.saver
  queue := (completed.same .saveQueue rfl : q.hs.saveQueue = r.hs.saveQueue) ▸ h.queue
  entry j := by rw [← completed.same (.place j) rfl]; exact h.entry j
  others j other := by rw [← completed.same (.place j) rfl]; exact h.others j other

theorem placeVerified_verified (p : Part) (k : Fin 64) (copy : Option Entry) (counter : Nat) (changed : Bool) :
    p.Verified k copy counter (p.placeVerified k copy counter changed) :=
  (settlePlace_verified p k copy counter changed).completing (finishForget_acts _ _ _)

/-- R52 step 2: a place that did not change during its write and stands on no queue is clean. -/
theorem placeVerified_clean {p : Part} {k : Fin 64} (unqueued : p.hs.saveQueue.contains k = false) (copy : Option Entry)
    (counter : Nat) : (p.placeVerified k copy counter false).place k = { p.place k with dirty := false } := by
  rw [placeVerified_eq, ← (finishForget_acts _ k .ok).same (.place k) rfl]
  exact settlePlace_clean (p := p.storeCopy k copy counter) unqueued

/-- R52 step 4: the failed place is back on the queue, and the saver is idle. -/
def Part.requeuePlace (p : Part) (k : Fin 64) : Part := ({ p with hs := { p.hs with saver := .idle } } : Part).enqueuePlace k

theorem placeFailed_eq (p : Part) (k : Fin 64) :
    p.placeFailed k = (p.requeuePlace k).reportStoreFault.finishForget k .storeFailed := rfl

/-- What a failed write leaves: the place stands on the queue, the saver is idle, and the store fault is reported. -/
structure Part.Failed (p : Part) (k : Fin 64) (q : Part) : Prop where
  queued : k ∈ q.hs.saveQueue
  fault : q.hs.storeFault = true
  notice : q.noticePending .store = true
  nv : q.nv = p.nv
  folds : q.hs.foldAtWrite = p.hs.foldAtWrite
  place : ∀ j, q.place j = p.place j

theorem reportStoreFault_failed (p : Part) (k : Fin 64) : p.Failed k (p.requeuePlace k).reportStoreFault := by
  have queued := enqueuePlace_acts { p with hs := { p.hs with saver := .idle } } k
  exact {
    queued := mem_enqueuePlace _ k
    fault := rfl
    notice := raise_notice _ _
    nv := (queued.same .nv rfl).symm
    folds := (queued.same .foldAtWrite rfl).symm
    place := enqueuePlace_place _ k }

theorem Part.Failed.completing {p q r : Part} {k : Fin 64} (h : p.Failed k q) (completed : Part.Acts .completing q r) :
    p.Failed k r where
  queued := (completed.same .saveQueue rfl : q.hs.saveQueue = r.hs.saveQueue) ▸ h.queued
  fault := (completed.same .storeFault rfl).symm.trans h.fault
  notice := completed.raised _ h.notice
  nv := (completed.same .nv rfl).symm.trans h.nv
  folds := (completed.same .foldAtWrite rfl).symm.trans h.folds
  place j := (completed.same (.place j) rfl).symm.trans (h.place j)

theorem placeFailed_failed (p : Part) (k : Fin 64) : p.Failed k (p.placeFailed k) :=
  (reportStoreFault_failed p k).completing (finishForget_acts _ _ _)

/-! ## The end of an attempt as a command -/

theorem exec_historyWriteVerified {s : State} {k : Fin 64} {copy : Option Entry} {counter : Nat} {second changed : Bool}
    (saver : s.part.hs.saver = .place k copy counter second changed) :
    exec (.historyWriteAttemptEnd true) s = s.after (s.part.placeVerified k copy counter changed) := by
  show execHistoryWriteAttemptEnd true s = _
  simp only [execHistoryWriteAttemptEnd, saver, if_true]

theorem exec_historyWriteRetried {s : State} {k : Fin 64} {copy : Option Entry} {counter : Nat} {changed : Bool}
    (saver : s.part.hs.saver = .place k copy counter false changed) :
    exec (.historyWriteAttemptEnd false) s = s.after (s.part.beginAttempt k true) := by
  show execHistoryWriteAttemptEnd false s = _
  simp [execHistoryWriteAttemptEnd, saver]

theorem exec_historyWriteFailed {s : State} {k : Fin 64} {copy : Option Entry} {counter : Nat} {changed : Bool}
    (saver : s.part.hs.saver = .place k copy counter true changed) :
    exec (.historyWriteAttemptEnd false) s = s.after (s.part.placeFailed k) := by
  show execHistoryWriteAttemptEnd false s = _
  simp [execHistoryWriteAttemptEnd, saver]

end Sys2Proof.Machine
end

-- ==== History: WriteEnds ====
section

/-! PROOFS. The end of the write of a history place (R50, R52, R53, R55). -/

set_option Elab.async false
namespace Sys2Proof.Machine
open Sys2Proof

/-! ## A verified write (R52, R55) -/

section Verified

variable {p q : Part} {k : Fin 64} {copy : Option Entry} {counter : Nat}

theorem Part.Verified.works (h : p.Verified k copy counter q) : q.works = p.works := Part.works_congr h.acts.ps_eq

theorem Part.Verified.foldAtWrite (h : p.Verified k copy counter q) : q.hs.foldAtWrite = p.hs.foldAtWrite :=
  (h.acts.same .foldAtWrite rfl).symm

theorem Part.Verified.slot (h : p.Verified k copy counter q) (i : Slot) : q.slot i = p.slot i :=
  (h.acts.same (.slot i) rfl).symm

theorem Part.Verified.commit (h : p.Verified k copy counter q) (i : Slot) : q.commit i = p.commit i :=
  (h.acts.same (.commit i) rfl).symm

theorem Part.Verified.foldInto (h : p.Verified k copy counter q) (i : Slot) (e : Entry) :
    q.foldInto i e = p.foldInto i e := by
  have volumes : q.volumes i = p.volumes i := (h.acts.same (.volumes i) rfl).symm
  unfold Part.foldInto
  rw [h.commit, volumes]

/-- What stands at the head of the queue stands there still. -/
theorem Part.Verified.head (h : p.Verified k copy counter q) {l rest : List (Fin 64)}
    (queue : p.hs.saveQueue = l ++ rest) : ∃ rest', q.hs.saveQueue = l ++ rest' := by
  obtain ⟨tail, e⟩ := h.queue
  exact ⟨rest ++ tail, by rw [← e, queue, List.append_assoc]⟩

/-- R52, R55: the step ends with the write of the head of the queue, whose entry one slot alone holds, and its fold. -/
theorem Part.Verified.folds (h : p.Verified k copy counter q) (before : Part) {j : Fin 64} {rest : List (Fin 64)} {i : Slot}
    {e : Entry} (folds : p.hs.foldAtWrite = true) (works : p.works = true) (queue : p.hs.saveQueue = j :: rest)
    (entry : (p.place j).entry = some e) (sole : p.SoleHolder i e) (settled : (p.commit i).unsettled = none) :
    (Part.finish before q).hs.saver = .place j (some (p.foldInto i e)) p.hs.sightings false false ∧
    (Part.finish before q).place j = ⟨some (p.foldInto i e), true⟩ ∧
    ((Part.finish before q).commit i).uncommitted = 0 ∧ ((Part.finish before q).commit i).inDoubt = 0 := by
  obtain ⟨rest', queue'⟩ := h.head (l := [j]) queue
  have sightings : q.hs.sightings = p.hs.sightings := (h.acts.same .sightings rfl).symm
  obtain ⟨saver, place, uncommitted, inDoubt, -⟩ := finish_folds before h.saver (h.works.trans works)
    (h.foldAtWrite.trans folds) queue' ((h.entry j).trans entry) (sole.of_slots h.slot rfl) (by rw [h.commit, settled])
  rw [h.foldInto] at saver place
  rw [sightings] at saver
  exact ⟨saver, place, uncommitted, inDoubt⟩

/-- R52, R55: the step ends with the write of the place behind the head, which is passed over. -/
theorem Part.Verified.passes (h : p.Verified k copy counter q) (before : Part) {j m : Fin 64} {rest : List (Fin 64)}
    (folds : p.hs.foldAtWrite = true) (works : p.works = true) (queue : p.hs.saveQueue = j :: m :: rest)
    (passed : p.placeUnsettled j = true) (settled : p.placeUnsettled m = false) :
    (Part.finish before q).hs.saver.writes m = true ∧ j ∈ (Part.finish before q).hs.saveQueue := by
  obtain ⟨rest', queue'⟩ := h.head (l := [j, m]) queue
  have same (n : Fin 64) : q.placeUnsettled n = p.placeUnsettled n := by
    simp only [Part.placeUnsettled, Part.serialUnsettled, h.entry, h.slot, h.commit]
  have folding := h.foldAtWrite.trans folds
  have next := nextWrite_folding folding (writablePlace_second queue' folding ((same j).trans passed) ((same m).trans settled))
  have closes := finish_takes before h.saver (h.works.trans works) next
  have other : j ≠ m := fun own => by
    rw [own, settled] at passed
    cases passed
  have queued : j ∈ q.takeDigest.hs.saveQueue := by rw [takeDigest_hs, queue']; exact List.mem_cons_self
  refine ⟨finish_takes_writes before h.saver (h.works.trans works) next, ?_⟩
  rw [← show _ = (Part.finish before q).hs.saveQueue from closes.same .saveQueue rfl]
  exact mem_takePlace other queued

end Verified

/-! ## A second attempt (R52, R55) -/

/-- R55: a second attempt on an entry that one slot alone holds folds that slot. -/
theorem finish_beginAttempt_sole {p : Part} (before : Part) {i : Slot} {k : Fin 64} {e : Entry}
    (folds : p.hs.foldAtWrite = true) (entry : (p.place k).entry = some e) (sole : p.SoleHolder i e)
    (settled : (p.commit i).unsettled = none) (second : Bool) :
    (Part.finish before (p.beginAttempt k second)).hs.saver = .place k (some (p.foldInto i e)) p.hs.sightings second false ∧
    (Part.finish before (p.beginAttempt k second)).place k = ⟨some (p.foldInto i e), true⟩ ∧
    ((Part.finish before (p.beginAttempt k second)).commit i).uncommitted = 0 ∧
    ((Part.finish before (p.beginAttempt k second)).commit i).inDoubt = 0 := by
  have ends := finish_busySaver before (saver_ne_idle (beginAttempt_writes p k second))
  have begun := beginAttempt_sole folds entry sole settled second
  obtain ⟨place, uncommitted, inDoubt⟩ := foldSlot_does (i := i) entry
  have row := ends.same (.commit i) rfl
  have saver := ends.same .saver rfl
  have placed := ends.same (.place k) rfl
  generalize Part.finish before (p.beginAttempt k second) = q at row saver placed ⊢
  rw [begun] at row saver placed
  exact ⟨saver.symm, placed.symm.trans place, (congrArg CommitRow.uncommitted row).symm.trans uncommitted,
    (congrArg CommitRow.inDoubt row).symm.trans inDoubt⟩

theorem beginAttempt_nv (p : Part) (k : Fin 64) (second : Bool) : (p.beginAttempt k second).nv = p.nv :=
  ((beginAttempt_acts p k second).same .nv rfl).symm

theorem finish_nv (before p : Part) : (Part.finish before p).nv = p.nv := ((finish_acts before p).same .nv rfl).symm

/-- Settles O30: what a verified write leaves (`Part.Verified`) decides the saver's next take, a first failure begins a second
attempt, and a second failure leaves the place queued (`Part.Failed`). -/
theorem historyWriteEnds : Obligations.HistoryWriteEnds := by
  intro s k copy counter second changed saver
  refine ⟨completes_after (exec_historyWriteVerified saver) ?_, ?_, ?_, ?_⟩
  · have verified := placeVerified_verified s.part k copy counter changed
    refine ⟨(finish_nv _ _).trans verified.nv, fun unfolded => ?_, ?_, ?_⟩
    · have same (j : Fin 64) := finish_place_plain s.part (verified.foldAtWrite.trans unfolded) j
      refine ⟨fun still unqueued => ?_, fun j other => (same j).trans (verified.others j other)⟩
      subst still
      rw [same, placeVerified_clean unqueued]
    · intro j rest i e folds works queue entry sole settled
      exact verified.folds s.part folds works queue entry sole settled
    · intro j m rest i e folds works queue entry carries unsettled settled
      exact verified.passes s.part folds works queue (placeUnsettled_of entry carries unsettled) (placeSettled_of settled)
  · rintro rfl unfolded
    refine completes_after (exec_historyWriteRetried saver) ⟨(finish_nv _ _).trans (beginAttempt_nv _ _ _), ?_⟩
    have ends := finish_busySaver s.part (saver_ne_idle (beginAttempt_writes s.part k true))
    rw [← show _ = (Part.finish _ _).hs.saver from ends.same .saver rfl, beginAttempt_plain unfolded]
  · rintro i e rfl folds entry sole settled
    exact completes_after (exec_historyWriteRetried saver) ⟨(finish_nv _ _).trans (beginAttempt_nv _ _ _),
      finish_beginAttempt_sole s.part folds entry sole settled true⟩
  · rintro rfl
    have failed := placeFailed_failed s.part k
    have ends := finish_acts s.part (s.part.placeFailed k)
    refine completes_after (exec_historyWriteFailed saver) ⟨(finish_nv _ _).trans failed.nv,
      (ends.same .storeFault rfl).symm.trans failed.fault, finish_notice failed.notice, fun unfolded => ?_,
      finish_queued s.part failed.queued⟩
    rw [finish_place_plain s.part (failed.folds.trans unfolded), failed.place]

end Sys2Proof.Machine
end

-- ==== History: ReadHistory ====
section

/-! PROOFS. The request READ_HISTORY (R58, 12.5): which place it selects, and what its answer shows. -/

set_option Elab.async false
namespace Sys2Proof.Machine
open Sys2Proof

/-! ## A request that is answered at once (R142, R144) -/

theorem takeCell_acts_answering (p : Part) (c : CellNo) : Part.Acts (.answering c) p (p.takeCell c) := by
  unfold Part.takeCell
  refine Part.Acts.trans (posted_acts p _) ((setCellState_acts _ c _).mono (Views.only_le ?_))
  simp [Views.answering, Views.bytes]

theorem Views.cellDone_le_answering (c : CellNo) : Views.le (.cellDone c) (.answering c) := fun v h => by
  cases v <;> simp_all [Views.cellDone, Views.answering, Views.bytes]

theorem reviewOutput_acts_output (p : Part) : Part.Acts (.only .output) p p.reviewOutput := by
  refine .raw fun v hv => ?_
  cases v <;> first | rfl | exact ⟨rfl, rfl⟩ | exact ⟨rfl, rfl, rfl⟩ | exact absurd hv (by decide)

/-- A cell that is taken from a part at rest and answered at once leaves nothing else to do but to review the output. -/
theorem finish_answered {p : Part} (quiet : p.Quiet) (c : CellNo) (r : Result) (data : List Field) :
    Part.finish p ((p.takeCell c).complete c r data) = ((p.takeCell c).complete c r data).reviewOutput :=
  finish_calm quiet rfl rfl rfl rfl rfl rfl rfl rfl rfl rfl rfl rfl rfl rfl (fun _ => rfl) rfl

/-- The answer touches the cell, the posted and the parked requests, the completion number, the notices and the output. -/
theorem completes_answered {k : Instr} {s : State} {c : CellNo} {r : Result} {data : List Field} {R : Part → Prop}
    (quiet : s.part.Quiet) (fit : FitsIn 56 data) (run : exec k s = s.after ((s.part.takeCell c).complete c r data))
    (result : R ((s.part.takeCell c).complete c r data).reviewOutput) : Completes k s (.answering c) R := by
  have acts : Part.Acts (.answering c) s.part ((s.part.takeCell c).complete c r data).reviewOutput :=
    (takeCell_acts_answering s.part c).trans
      (((complete_acts_cell _ c r data fit).mono (Views.cellDone_le_answering c)).trans
        ((reviewOutput_acts_output _).mono (Views.only_le rfl)))
  rw [← finish_answered quiet] at acts result
  exact ⟨_, run, rfl, acts.same, result⟩

theorem Part.Answered.reviewOutput {p : Part} {c : CellNo} {r : Result} {n : Half} (h : p.Answered c r n) :
    p.reviewOutput.Answered c r n := ⟨h.state, h.code, h.number, h.notice⟩

/-! ## Result data as the cell shows them (R144, R176, R177) -/

theorem complete_shows {p : Part} (wf : Memory.wf p.board = true) (c : CellNo) (r : Result) {data : List Field}
    (apart : data.Pairwise Field.Apart) : (p.complete c r data).Shows (cellBase c + 8) data := fun _ hf =>
  complete_data wf c r apart hf

/-- A byte of the payload that a field of one byte shows. -/
theorem Part.Shows.byte {q : Part} {c : CellNo} {fields : List Field} (shows : q.Shows (cellBase c + 8) fields) {o v : Nat}
    (hf : ⟨o, 1, v⟩ ∈ fields) : q.argumentByte c o = BitVec.ofNat 8 v := by
  have shown := shows _ hf
  rw [readField_one] at shown
  exact BitVec.eq_of_toNat_eq (by rw [BitVec.toNat_ofNat]; exact shown)

/-- A field of the payload that shows a value within its width. -/
theorem Part.Shows.argument {q : Part} {c : CellNo} {fields : List Field} (shows : q.Shows (cellBase c + 8) fields)
    {o w v : Nat} (hf : ⟨o, w, v⟩ ∈ fields) (fits : v < 256 ^ w) : q.argument c o w = v :=
  (shows _ hf).trans (Nat.mod_eq_of_lt fits)

theorem bytesOf_zero (w : Nat) : bytesOf w 0 = List.replicate w 0 := by
  induction w with
  | zero => rfl
  | succ w ih => rw [bytesOf, Nat.zero_div, ih]; rfl

theorem fieldBytes_zero (o : Bool) (w : Nat) : fieldBytes o w 0 = List.replicate w 0 := by
  rw [fieldBytes, bytesOf_zero, List.reverse_replicate, ite_self]

/-- The first bytes of a payload that is written as zeros. -/
theorem complete_zeros {p : Part} (wf : Memory.wf p.board = true) (c : CellNo) (r : Result) {w a : Nat} (inside : a < w) :
    (p.complete c r [⟨0, w, 0⟩]).readByte (cellBase c + 8 + a) = 0 := by
  have header : (p.complete c r [⟨0, w, 0⟩]).readByte (cellBase c + 8 + a) =
      Memory.read (Memory.writeFields p.port.bigEndian (cellBase c + 8) p.board [⟨0, w, 0⟩]) (cellBase c + 8 + 0 + a) := by
    refine (Memory.read_write_ne _ _ (by omega)).trans (Memory.read_writeFields_outside _ _ _ _ _ fun g hg => ?_)
    simp only [List.mem_cons, List.not_mem_nil, or_false] at hg
    rcases hg with rfl | rfl <;> dsimp only <;> omega
  rw [header, Memory.read_field_inside p.port.bigEndian (cellBase c + 8) ⟨0, w, 0⟩ wf a (by simpa using inside)]
  simp only [fieldBytes_zero, List.getElem_replicate]

/-! ## The place that is selected (R58) -/

theorem takeCell_byte (p : Part) (c : CellNo) {a : Nat} (h : a ≠ cellBase c) : (p.takeCell c).readByte a = p.readByte a :=
  Memory.read_write_ne _ _ h

theorem takeCell_argument (p : Part) (c : CellNo) (o w : Nat) : (p.takeCell c).argument c o w = p.argument c o w :=
  congrArg (fieldNumber _) (Memory.readBytes_congr _ _ _ _ fun _ _ _ => takeCell_byte p c (by omega))

theorem takeCell_historyPlace (p : Part) (c : CellNo) : (p.takeCell c).historyPlace c = p.historyPlace c := by
  have option : (p.takeCell c).optionByte c = p.optionByte c := takeCell_byte p c (by omega)
  have number : (p.takeCell c).argumentByte c 0 = p.argumentByte c 0 := takeCell_byte p c (by omega)
  unfold Part.historyPlace
  simp only [option, number, takeCell_argument, takeCell_target]
  rfl

theorem historyPlace_selects {p : Part} {c : CellNo} {place : Option (Fin 64)} (h : p.SelectsPlace c place) :
    p.historyPlace c = some place := by
  unfold Part.historyPlace
  cases h with
  | place k option number =>
    have inside : (p.argumentByte c 0).toNat < 64 := by omega
    rw [if_pos option, dif_pos inside]
    exact congrArg (fun k => some (some k)) (Fin.ext number)
  | serial option => rw [option]; rfl
  | slot i option target => rw [option, target]; rfl

/-- R58: a selector that names no place and no slot. -/
theorem historyPlace_none {p : Part} {c : CellNo}
    (h : p.optionByte c = 0 ∧ 63 < (p.argumentByte c 0).toNat ∨ p.optionByte c = 2 ∧ 11 < (p.targetByte c).toNat ∨
      2 < (p.optionByte c).toNat) : p.historyPlace c = none := by
  unfold Part.historyPlace
  rcases h with ⟨option, far⟩ | ⟨option, far⟩ | beyond
  · rw [if_pos option, dif_neg (by omega)]
  · rw [option, target_none far]; rfl
  · have other (n : Byte) (low : n.toNat ≤ 2) : p.optionByte c ≠ n := fun e => by rw [e] at beyond; omega
    rw [if_neg (other 0 (by decide)), if_neg (other 1 (by decide)), if_neg (other 2 (by decide))]

/-! ## What is answered (R58, 12.5) -/

theorem exec_readHistory {s : State} {c : CellNo} (offers : s.part.Offers (some .readHistory) c) :
    exec .readHistory s = s.after ((s.part.takeCell c).doReadHistory c) := request_offers offers rfl Part.doReadHistory

theorem doReadHistory_selects {p : Part} {c : CellNo} {place : Option (Fin 64)} (selects : p.SelectsPlace c place) :
    (p.takeCell c).doReadHistory c = (p.takeCell c).complete c .ok (p.historyData place) := by
  unfold Part.doReadHistory
  rw [takeCell_historyPlace, historyPlace_selects selects]
  rfl

theorem historyData_entry {p : Part} {k : Fin 64} {e : Entry} (entry : (p.place k).entry = some e) :
    p.historyData (some k) = p.historyFields k e := by
  simp only [Part.historyData, entry]

theorem historyData_missing {p : Part} {place : Option (Fin 64)} (missing : ∀ k, place = some k → (p.place k).entry = none) :
    p.historyData place = [⟨0, 36, 0⟩] := by
  cases place with
  | none => rfl
  | some k => simp only [Part.historyData, missing k rfl]

theorem historyFields_apart (p : Part) (k : Fin 64) (e : Entry) : (p.historyFields k e).Pairwise Field.Apart := by
  simp [Part.historyFields, Field.Apart]

theorem Verdict.code_lt (v : Verdict) : v.code < 256 := by cases v <;> decide

/-- 12.5: each flag stands in its bit. -/
theorem flagBits (a b c d : Bool) :
    let flags := BitVec.ofNat 8 (boolBit a 0 + boolBit b 1 + boolBit c 2 + boolBit d 3)
    flags.getLsbD 0 = a ∧ flags.getLsbD 1 = b ∧ flags.getLsbD 2 = c ∧ flags.getLsbD 3 = d ∧ flags.toNat < 16 := by
  revert a b c d
  decide

/-- 12.5: the payload of the cell shows the entry with its place, its dirty flag and its held mark. -/
def Part.ReturnsEntry (q : Part) (c : CellNo) (k : Fin 64) (e : Entry) (dirty held : Bool) : Prop :=
  q.argumentByte c 0 = 1 ∧ (q.argumentByte c 1).toNat = k.val ∧
  (q.argumentByte c 2).getLsbD 0 = e.exhausted ∧ (q.argumentByte c 2).getLsbD 1 = e.tallyFull ∧
  (q.argumentByte c 2).getLsbD 2 = dirty ∧ (q.argumentByte c 2).getLsbD 3 = held ∧ (q.argumentByte c 2).toNat < 16 ∧
  (q.argumentByte c 3).toNat = e.verdict.code ∧ q.argument c 4 8 = e.serial.toNat ∧
  q.argumentByte c 12 = e.ink ∧ q.argumentByte c 13 = e.volumeClass ∧ q.argument c 14 2 = e.tally ∧
  q.argument c 16 4 = e.remaining ∧ q.argument c 20 4 = e.carried ∧ q.argument c 24 4 = e.postEmpty ∧
  (q.argumentByte c 28).toNat = e.inDoubt ∧ (q.argumentByte c 29).toNat = e.lastSlot.val ∧
  q.argument c 30 2 = 0 ∧ q.argument c 32 4 = e.sighting

theorem Part.Shows.returnsEntry {p q : Part} {c : CellNo} {k : Fin 64} {e : Entry} (range : e.InRange)
    (shows : q.Shows (cellBase c + 8) (p.historyFields k e)) :
    q.ReturnsEntry c k e (p.place k).dirty (p.serialHeld e.serial) := by
  have byte {o v : Nat} (hf : ⟨o, 1, v⟩ ∈ p.historyFields k e) (fits : v < 256) : (q.argumentByte c o).toNat = v := by
    rw [shows.byte hf, BitVec.toNat_ofNat, Nat.mod_eq_of_lt fits]
  have whole {o : Nat} (v : Byte) (hf : ⟨o, 1, v.toNat⟩ ∈ p.historyFields k e) : q.argumentByte c o = v :=
    BitVec.eq_of_toNat_eq (byte hf v.isLt)
  have flags : q.argumentByte c 2 = BitVec.ofNat 8 (p.historyFlags e (p.place k).dirty) :=
    shows.byte (by simp [Part.historyFields])
  obtain ⟨exhausted, tallyFull, dirty, held, low⟩ :=
    flagBits e.exhausted e.tallyFull (p.place k).dirty (p.serialHeld e.serial)
  obtain ⟨tally, remaining, carried, postEmpty, inDoubt, sighting⟩ := range
  unfold Part.ReturnsEntry
  rw [flags]
  refine ⟨shows.byte (v := 1) ?_, byte ?_ (by omega), exhausted, tallyFull, dirty, held, low, byte ?_ e.verdict.code_lt,
    shows.argument ?_ e.serial.isLt, whole e.ink ?_, whole e.volumeClass ?_, shows.argument ?_ tally,
    shows.argument ?_ remaining, shows.argument ?_ carried, shows.argument ?_ postEmpty, byte ?_ inDoubt, byte ?_ (by omega),
    shows.argument ?_ (by decide), shows.argument ?_ sighting⟩
  all_goals simp [Part.historyFields]

/-- R58: the answer to a READ_HISTORY that finds an entry. -/
theorem readHistory_finds {s : State} {c : CellNo} (wf : Memory.wf s.part.board = true) (quiet : s.part.Quiet)
    (offers : s.part.Offers (some .readHistory) c) {k : Fin 64} {e : Entry} (selects : s.part.SelectsPlace c (some k))
    (entry : (s.part.place k).entry = some e) (range : e.InRange) :
    Completes .readHistory s (.answering c) fun q => q.Answered c .ok (s.part.rq.completion + 1) ∧
      q.ReturnsEntry c k e (s.part.place k).dirty (s.part.serialHeld e.serial) := by
  have run := exec_readHistory offers
  rw [doReadHistory_selects selects, historyData_entry entry] at run
  have shows := complete_shows (takeCell_wf wf c) c .ok (historyFields_apart s.part k e)
  refine completes_answered quiet ?_ run ⟨(complete_answered (takeCell_wf wf c) c _ _).reviewOutput,
    Part.Shows.returnsEntry range (shows := shows)⟩
  rw [← historyData_entry entry]
  exact historyData_fit s.part _

/-- R58: the answer to a READ_HISTORY that finds none. -/
theorem readHistory_misses {s : State} {c : CellNo} (wf : Memory.wf s.part.board = true) (quiet : s.part.Quiet)
    (offers : s.part.Offers (some .readHistory) c) {place : Option (Fin 64)} (selects : s.part.SelectsPlace c place)
    (missing : ∀ k, place = some k → (s.part.place k).entry = none) :
    Completes .readHistory s (.answering c) fun q => q.Answered c .ok (s.part.rq.completion + 1) ∧
      q.argumentByte c 0 = 0 ∧ q.argument c 4 8 = 0 := by
  have run := exec_readHistory offers
  rw [doReadHistory_selects selects, historyData_missing missing] at run
  have zeros {a : Nat} (inside : a < 36) := complete_zeros (takeCell_wf wf c) c .ok inside
  refine completes_answered quiet (by simp [FitsIn]) run ⟨(complete_answered (takeCell_wf wf c) c _ _).reviewOutput,
    zeros (a := 0) (by omega), Memory.readField_zero _ fun b lo hi => ?_⟩
  obtain ⟨a, rfl⟩ := Nat.exists_eq_add_of_le (show cellBase c + 8 ≤ b by omega)
  exact zeros (by omega)

/-- R58: the answer to a READ_HISTORY with a selector that names nothing. -/
theorem readHistory_refused {s : State} {c : CellNo} (wf : Memory.wf s.part.board = true) (quiet : s.part.Quiet)
    (offers : s.part.Offers (some .readHistory) c) (none : s.part.historyPlace c = none) :
    Completes .readHistory s (.answering c) fun q => q.Answered c .badArgument (s.part.rq.completion + 1) := by
  have run := exec_readHistory offers
  have refused : (s.part.takeCell c).doReadHistory c = (s.part.takeCell c).complete c .badArgument [] := by
    unfold Part.doReadHistory
    rw [takeCell_historyPlace, none]
  rw [refused] at run
  exact completes_answered quiet (FitsIn.nil _) run (complete_answered (takeCell_wf wf c) c _ _).reviewOutput

end Sys2Proof.Machine
end

-- ==== History: ForgetHistory ====
section

/-! PROOFS. The parked FORGET_HISTORY (R59): how it stays parked, how the start of a write covers it and the end of a write
answers it. -/

set_option Elab.async false
namespace Sys2Proof.Machine
open Sys2Proof

/-! ## The start of a write covers it (R59) -/

/-- A write of place `j` covers the requests of that place and leaves the others. -/
theorem Parked.cover_forget (c : CellNo) (j k : Fin 64) (covered : Bool) :
    (⟨c, .forget k covered⟩ : Parked).cover j = ⟨c, .forget k (covered || decide (k = j))⟩ := by
  unfold Parked.cover
  dsimp only
  split
  case isTrue own => simp [own]
  case isFalse other => simp [other]

theorem Parked.cover_cell (j : Fin 64) (x : Parked) : (x.cover j).cell = x.cell := by
  unfold Parked.cover
  split
  · split <;> rfl
  all_goals rfl

/-- R59: the take of a place while fold at write is disabled. -/
theorem takePlace_forget {p : Part} (unfolded : p.hs.foldAtWrite = false) {c : CellNo} (j : Fin 64) {k : Fin 64} {covered : Bool}
    (parked : ⟨c, .forget k covered⟩ ∈ p.rq.parked) :
    ⟨c, .forget k (covered || decide (k = j))⟩ ∈ (p.takePlace j).rq.parked := by
  rw [takePlace_parked_plain unfolded]
  exact List.mem_map.2 ⟨_, parked, Parked.cover_forget c j k covered⟩

/-- A request that the saver refuses on its way is no request of a loose cell. -/
theorem refuseSetting_parked {p : Part} {r : SettingsRequest} {c : CellNo} (loose : p.Loose c) (queued : r ∈ p.hs.settingsQueue)
    {x : Parked} (own : x.cell = c) (parked : x ∈ p.rq.parked) :
    x ∈ (Part.complete { p with hs := { p.hs with settingsQueue := p.hs.settingsQueue.drop 1 } } r.cell .badArgument []).rq.parked :=
  List.mem_filter.2 ⟨parked, bne_iff_ne.2 fun e => loose.settings r queued (e.symm.trans own)⟩

/-- R59, R143: whatever the saver takes, a FORGET_HISTORY of a loose cell stays parked, and covered if it was. -/
theorem saverTakeUpTo_forget {c : CellNo} {k : Fin 64} {covered : Bool} (n : Nat) {p : Part} (unfolded : p.hs.foldAtWrite = false)
    (loose : p.Loose c) (parked : ⟨c, .forget k covered⟩ ∈ p.rq.parked) :
    ∃ now, (covered = true → now = true) ∧ ⟨c, .forget k now⟩ ∈ (Part.saverTakeUpTo n p).rq.parked := by
  induction n generalizing p with
  | zero => exact ⟨covered, id, parked⟩
  | succ n ih =>
    unfold Part.saverTakeUpTo
    split
    case isFalse => exact ⟨covered, id, parked⟩
    case isTrue =>
      split
      case h_1 => exact ⟨covered, id, parked⟩
      case h_2 j _ => exact ⟨_, fun h => by simp [h], takePlace_forget unfolded j parked⟩
      case h_3 => exact ⟨covered, id, parked⟩
      case h_4 r next =>
        have queued := mem_settingsQueue_of_nextWrite next
        extract_lets _ q
        split
        · exact ⟨covered, id, parked⟩
        · exact ih (p := q.complete r.cell .badArgument []) unfolded ((refuseSetting_ebbs queued).loose loose)
            (refuseSetting_parked loose queued rfl parked)

/-- The parked requests at the end of a step are those after the saver's takes. -/
theorem finish_parked (before p : Part) : (Part.finish before p).rq.parked = p.takeDigest.saverTake.rq.parked :=
  ((finish_closes before p).same .parked rfl).symm

theorem finish_forget {p : Part} (before : Part) {c : CellNo} {k : Fin 64} {covered : Bool} (unfolded : p.hs.foldAtWrite = false)
    (loose : p.Loose c) (parked : ⟨c, .forget k covered⟩ ∈ p.rq.parked) :
    ∃ now, (covered = true → now = true) ∧ ⟨c, .forget k now⟩ ∈ (Part.finish before p).rq.parked := by
  rw [finish_parked]
  exact saverTakeUpTo_forget _ (by rw [takeDigest_hs, unfolded]) ((takeDigest_flushes p).loose loose)
    (by rw [takeDigest_rq]; exact parked)

/-- No request of the cell is parked. -/
def Part.Unparked (p : Part) (c : CellNo) : Prop := ∀ x ∈ p.rq.parked, x.cell ≠ c

theorem complete_unparked (p : Part) (c : CellNo) (r : Result) (data : List Field) : (p.complete c r data).Unparked c :=
  fun _ mem => bne_iff_ne.1 (List.mem_filter.1 mem).2

theorem Part.Unparked.complete {p : Part} {c : CellNo} (h : p.Unparked c) (d : CellNo) (r : Result) (data : List Field) :
    (p.complete d r data).Unparked c := fun x mem => h x (List.mem_filter.1 mem).1

theorem saverTakeUpTo_unparked {c : CellNo} (n : Nat) {p : Part} (unfolded : p.hs.foldAtWrite = false)
    (unparked : p.Unparked c) : (Part.saverTakeUpTo n p).Unparked c := by
  induction n generalizing p with
  | zero => exact unparked
  | succ n ih =>
    unfold Part.saverTakeUpTo
    split
    case isFalse => exact unparked
    case isTrue =>
      split
      case h_1 => exact unparked
      case h_2 j _ =>
        intro x mem
        rw [takePlace_parked_plain unfolded] at mem
        obtain ⟨y, hy, rfl⟩ := List.mem_map.1 mem
        rw [Parked.cover_cell]
        exact unparked y hy
      case h_3 => exact unparked
      case h_4 r _ =>
        extract_lets _ q
        split
        · exact unparked
        · exact ih (p := q.complete r.cell .badArgument []) unfolded
            (Part.Unparked.complete (p := q) unparked r.cell .badArgument [])

theorem finish_unparked {p : Part} (before : Part) {c : CellNo} (unfolded : p.hs.foldAtWrite = false)
    (unparked : p.Unparked c) : (Part.finish before p).Unparked c := by
  unfold Part.Unparked
  rw [finish_parked]
  refine saverTakeUpTo_unparked _ (by rw [takeDigest_hs, unfolded]) ?_
  unfold Part.Unparked
  rw [takeDigest_rq]
  exact unparked

/-! ## The end of a write answers it (R59) -/

/-- R59: the write of place `k` answers the parked request. -/
def Parked.answeredBy (k : Fin 64) (x : Parked) : Bool :=
  match x.work with
  | .forget place covered => decide (place = k) && covered
  | .reverify _ | .commitNow _ _ | .purge | .settings | .windDown | .enterService => false

/-- One step of the answers: the request completes if the write answers it. -/
def Part.answerForget (k : Fin 64) (result : Result) (p : Part) (x : Parked) : Part :=
  if x.answeredBy k then p.complete x.cell result [⟨0, 1, 1⟩] else p

theorem finishForget_eq (p : Part) (k : Fin 64) (result : Result) :
    p.finishForget k result = p.rq.parked.foldl (Part.answerForget k result) p := by
  unfold Part.finishForget
  congr
  funext q ⟨cell, work⟩
  cases work with
  | forget place covered => simp [Part.answerForget, Parked.answeredBy]
  | _ => rfl

theorem foundMark_fit : FitsIn 56 [(⟨0, 1, 1⟩ : Field)] := by simp [FitsIn]

/-- A request that the write does not answer stays parked. -/
theorem foldl_answerForget_parked {k : Fin 64} {result : Result} {y : Parked} (l : List Parked)
    (apart : ∀ x ∈ l, x.answeredBy k = true → x.cell ≠ y.cell) {p : Part} (parked : y ∈ p.rq.parked) :
    y ∈ (l.foldl (Part.answerForget k result) p).rq.parked := by
  induction l generalizing p with
  | nil => exact parked
  | cons x rest ih =>
    refine ih (fun z mem => apart z (List.mem_cons_of_mem x mem)) ?_
    unfold Part.answerForget
    split
    case isTrue answered =>
      exact List.mem_filter.2 ⟨parked, bne_iff_ne.2 fun e => apart x List.mem_cons_self answered e.symm⟩
    case isFalse => exact parked

theorem finishForget_parked {p : Part} {k : Fin 64} {result : Result} {y : Parked}
    (apart : ∀ x ∈ p.rq.parked, x.answeredBy k = true → x.cell ≠ y.cell) (parked : y ∈ p.rq.parked) :
    y ∈ (p.finishForget k result).rq.parked := by
  rw [finishForget_eq]
  exact foldl_answerForget_parked _ apart parked

/-- R59, R144: a FORGET_HISTORY has been answered with the found mark. -/
structure Part.Forgotten (p : Part) (c : CellNo) (r : Result) : Prop where
  answered : ∃ n, p.Answered c r n
  mark : p.argumentByte c 0 = 1
  unparked : p.Unparked c

theorem complete_forgotten {p : Part} (wf : Memory.wf p.board = true) (c : CellNo) (r : Result) :
    (p.complete c r [⟨0, 1, 1⟩]).Forgotten c r where
  answered := ⟨_, complete_answered wf c r _⟩
  mark := (complete_shows wf c r (data := [⟨0, 1, 1⟩]) (by simp)).byte (by simp)
  unparked := complete_unparked p c r _

/-- An answer stands while its cell is left and nothing parks for it. -/
theorem Part.Forgotten.keep {p q : Part} {t : Views} {c : CellNo} {r : Result} (h : p.Forgotten c r)
    (same : p.SameCell c q) (unparked : q.Unparked c) (acts : Part.Acts t p q) (order : t .byteOrder = false := by rfl) :
    q.Forgotten c r where
  answered := h.answered.imp fun _ a => a.keep same acts order
  mark := by
    rw [Part.argumentByte, same _ (by omega) (by omega)]
    exact h.mark
  unparked := unparked

theorem Part.Forgotten.finish {p : Part} {c : CellNo} {r : Result} (h : p.Forgotten c r) (loose : p.Loose c)
    (unfolded : p.hs.foldAtWrite = false) (before : Part) : (Part.finish before p).Forgotten c r :=
  h.keep ((finish_ebbs before p).cells c loose) (finish_unparked before unfolded h.unparked) (finish_acts before p)

/-- A later answer leaves it, or is given to the same request again. -/
theorem Part.Forgotten.answerForget {p : Part} {c : CellNo} {r : Result} (wf : Memory.wf p.board = true)
    (h : p.Forgotten c r) (k : Fin 64) (x : Parked) : (p.answerForget k r x).Forgotten c r := by
  unfold Part.answerForget
  split
  case isFalse => exact h
  case isTrue =>
    by_cases own : x.cell = c
    · rw [own]
      exact complete_forgotten wf c r
    · exact h.keep (complete_sameCell p r foundMark_fit (Ne.symm own)) (h.unparked.complete _ _ _)
        (complete_acts p _ r _ foundMark_fit)

theorem answerForget_wf {p : Part} (wf : Memory.wf p.board = true) (k : Fin 64) (r : Result) (x : Parked) :
    Memory.wf (p.answerForget k r x).board = true := by
  unfold Part.answerForget
  split
  · exact complete_wf p _ _ _ wf
  · exact wf

/-- R59: the parked requests are gone through once; those that the write answers are answered. -/
theorem foldl_answerForget_forgotten {k : Fin 64} {r : Result} {c : CellNo} (l : List Parked) {p : Part}
    (wf : Memory.wf p.board = true) (some : p.Forgotten c r ∨ ∃ x ∈ l, x.cell = c ∧ x.answeredBy k = true) :
    (l.foldl (Part.answerForget k r) p).Forgotten c r := by
  induction l generalizing p with
  | nil => exact some.resolve_right (by simp)
  | cons x rest ih =>
    refine ih (answerForget_wf wf k r x) ?_
    rcases some with done | ⟨y, mem, own, answered⟩
    · exact .inl (done.answerForget wf k x)
    · rcases List.mem_cons.1 mem with rfl | later
      · left
        rw [Part.answerForget, if_pos answered, own]
        exact complete_forgotten wf c r
      · exact .inr ⟨y, later, own, answered⟩

theorem finishForget_forgotten {p : Part} (wf : Memory.wf p.board = true) {c : CellNo} {k : Fin 64}
    (parked : ⟨c, .forget k true⟩ ∈ p.rq.parked) (r : Result) : (p.finishForget k r).Forgotten c r := by
  rw [finishForget_eq]
  exact foldl_answerForget_forgotten _ wf (.inr ⟨_, parked, rfl, by simp [Parked.answeredBy]⟩)

end Sys2Proof.Machine
end

-- ==== History: HistoryRequests ====
section

/-! PROOFS. The request FORGET_HISTORY and its write (R52, R53, R59), and with READ_HISTORY the requests of the history store. -/

set_option Elab.async false
namespace Sys2Proof.Machine
open Sys2Proof

/-! ## A service request is taken (R142, R163) -/

/-- R142, R163: the take of a cell with a service request in service mode restarts the idle timer. -/
def Part.takeService (p : Part) (c : CellNo) : Part :=
  { p.takeCell c with ps := { p.ps with idleRunning := true } }

theorem request_service {s : State} {c : CellNo} {k : Kind} (offers : s.part.Offers (some k) c) (kept : k.serviceOnly = true)
    (mode : s.part.ps.serviceMode = true) (owner : CellNo → Part → Part) :
    s.request k owner = s.after (owner c (s.part.takeService c)) := by
  obtain ⟨rest, posted⟩ := List.head?_eq_some_iff.1 offers.head
  have next : s.part.nextCell (some k) = some c := by
    simp [Part.nextCell, posted, Part.takingOpen, offers.awake, offers.running, offers.kind]
  have mode' : (s.part.takeCell c).ps.serviceMode = true := mode
  rw [State.request, next]
  show s.after ((s.part.takeCell c).handOver k c (owner c)) = _
  rw [Part.handOver, if_pos kept, if_pos mode']
  rfl

theorem Part.Loose.takeService {p : Part} {c : CellNo} (l : p.Loose c) : (p.takeService c).Loose c := ⟨l.flushes, l.settings⟩

/-- A part whose requests are taken works. -/
theorem Part.Offers.works {p : Part} {k : Option Kind} {c : CellNo} (offers : p.Offers k c) : p.works = true := by
  simp [Part.works, offers.running, offers.awake]

/-! ## The removal from the table (R51, R59) -/

theorem dirtyPlace_flushes (p : Part) (k : Fin 64) : Part.Flushes p (p.dirtyPlace k) := by
  unfold Part.dirtyPlace Part.enqueuePlace
  extract_lets q
  split
  · exact .of_same rfl rfl rfl
  · split <;> exact .of_same rfl rfl rfl

theorem markChanged_writes (s : Saver) (k : Fin 64) : s.markChanged.writes k = s.writes k := by cases s <;> rfl

/-- R51: a dirtied place stands on the queue or is being written. -/
theorem dirtyPlace_queued (p : Part) (k : Fin 64) :
    k ∈ (p.dirtyPlace k).hs.saveQueue ∨ (p.dirtyPlace k).hs.saver.writes k = true := by
  unfold Part.dirtyPlace
  extract_lets q
  split
  case isTrue writes => exact .inr ((markChanged_writes _ _).trans writes)
  case isFalse => exact .inl (mem_enqueuePlace q k)

/-- R51: while the saver is idle a dirtied place joins an empty queue alone. -/
theorem dirtyPlace_saveQueue_nil {p : Part} (idle : p.hs.saver = .idle) (empty : p.hs.saveQueue = []) (k : Fin 64) :
    (p.dirtyPlace k).hs.saveQueue = [k] := by
  unfold Part.dirtyPlace
  extract_lets q
  have saver : q.hs.saver = .idle := idle
  have queue : q.hs.saveQueue = [] := empty
  rw [if_neg (by rw [saver]; exact Bool.false_ne_true), enqueuePlace_saveQueue, queue]
  rfl

/-- A FORGET_HISTORY that removes the entry in place `k`: the place is emptied and dirty, and the request parks. -/
def Part.forgotten (p : Part) (c : CellNo) (k : Fin 64) : Part := ((p.takeService c).forgetPlace k).park c (.forget k false)

section Removal

variable (p : Part) (c : CellNo) (k : Fin 64)

theorem forgotten_acts : Part.Acts (Views.and .taking .history) (p.takeService c) (p.forgotten c k) :=
  (Part.Acts.mono ((setPlace_acts _ k _ rfl).trans (dirtyPlace_acts _ k)) (Views.le_and_right _ _)).trans
    (park_acts_request _ c _)

theorem forgotten_flushes : Part.Flushes (p.takeService c) (p.forgotten c k) :=
  ((updPlace_flushes _ k _).trans (dirtyPlace_flushes _ k)).trans (withRequests_flushes _ _)

theorem forgotten_place : (p.forgotten c k).place k = ⟨none, true⟩ := by
  refine (dirtyPlace_place _ k k).trans ?_
  rw [if_pos rfl, updPlace_place_self]

theorem forgotten_saver : (p.forgotten c k).hs.saver = .idle ↔ p.hs.saver = .idle := dirtyPlace_saver _ k

theorem forgotten_queued : k ∈ (p.forgotten c k).hs.saveQueue ∨ (p.forgotten c k).hs.saver.writes k = true :=
  dirtyPlace_queued _ k

theorem forgotten_parked : ⟨c, .forget k false⟩ ∈ (p.forgotten c k).rq.parked :=
  List.mem_append_right _ (List.mem_singleton_self _)

theorem forgotten_unfolded : (p.forgotten c k).hs.foldAtWrite = p.hs.foldAtWrite :=
  ((forgotten_acts p c k).same .foldAtWrite rfl).symm

theorem forgotten_nextStored : (p.forgotten c k).nextStored = p.nextStored := by
  have acts := forgotten_acts p c k
  unfold Part.nextStored
  rw [← show _ = (p.forgotten c k).hs.counterWaiting from acts.same .counterWaiting rfl,
    ← show _ = (p.forgotten c k).hs.settingsQueue from acts.same .settingsQueue rfl]
  rfl

theorem forgotten_works : (p.forgotten c k).works = p.works := by
  have acts := forgotten_acts p c k
  unfold Part.works Part.asleep Part.busy Part.inFoldPhase
  rw [← show _ = (p.forgotten c k).ps.power from acts.same .power rfl,
    ← show _ = (p.forgotten c k).ps.sequence from acts.same .sequence rfl]
  rfl

end Removal

theorem Part.Loose.forgotten {p : Part} {c : CellNo} (loose : p.Loose c) (k : Fin 64) : (p.forgotten c k).Loose c :=
  (forgotten_flushes p c k).loose loose.takeService

/-- R143: the cell stays TAKEN to the end of the step. -/
theorem finish_forgotten_cellState {p : Part} {c : CellNo} (wf : Memory.wf p.board = true) (loose : p.Loose c) (k : Fin 64)
    (before : Part) : (Part.finish before (p.forgotten c k)).cellState c = .taken := by
  have ended := (finish_ebbs before (p.forgotten c k)).cells c (loose.forgotten k)
  have removed := (forgotten_flushes p c k).cells c loose.takeService
  rw [Part.cellState, ended _ (by omega) (by omega), removed _ (by omega) (by omega)]
  exact takeCell_cellState wf c

/-! ## What FORGET_HISTORY answers (R59) -/

theorem exec_forgetHistory {s : State} {c : CellNo} (offers : s.part.Offers (some .forgetHistory) c)
    (mode : s.part.ps.serviceMode = true) :
    exec .forgetHistory s = s.after ((s.part.takeService c).doForgetHistory c) :=
  request_service offers rfl mode Part.doForgetHistory

section Answers

variable {p : Part} {c : CellNo} {serial : Quad} (named : serial = BitVec.ofNat 64 (p.argument c 0 8))
include named

theorem takeService_findPlace : (p.takeService c).findPlace (BitVec.ofNat 64 ((p.takeService c).argument c 0 8)) =
    p.findPlace serial := by
  rw [named, ← takeCell_argument p c 0 8]
  rfl

theorem doForgetHistory_missing (missing : p.findPlace serial = none) :
    (p.takeService c).doForgetHistory c = (p.takeService c).complete c .ok [⟨0, 1, 0⟩] := by
  unfold Part.doForgetHistory
  rw [takeService_findPlace named, missing]

theorem doForgetHistory_found {k : Fin 64} (found : p.findPlace serial = some k) :
    (p.takeService c).doForgetHistory c =
      if p.serialHeld serial then (p.takeService c).complete c .busy [] else p.forgotten c k := by
  obtain ⟨e, entry, own⟩ := findPlace_holds found
  have held : (p.takeService c).placeHeld k = p.serialHeld serial := by
    have entry' : ((p.takeService c).place k).entry = some e := entry
    rw [Part.placeHeld, entry', ← own]
    rfl
  unfold Part.doForgetHistory
  rw [takeService_findPlace named, found]
  dsimp only
  rw [held]
  rfl

end Answers

/-- R59: an answer at once, with its data. -/
theorem takeService_answered {p : Part} {c : CellNo} (wf : Memory.wf p.board = true) (loose : p.Loose c) (r : Result)
    (data : List Field) (before : Part) :
    (Part.finish before ((p.takeService c).complete c r data)).Answered c r (p.rq.completion + 1) := by
  have wf' : Memory.wf (p.takeService c).board = true := takeCell_wf wf c
  exact (complete_answered wf' c r data).finish (loose.takeService.complete c r data) before

/-- R59: no entry has the serial. -/
theorem forgetHistory_missing {s : State} {c : CellNo} {serial : Quad} (wf : Memory.wf s.part.board = true)
    (offers : s.part.Offers (some .forgetHistory) c) (mode : s.part.ps.serviceMode = true) (loose : s.part.Loose c)
    (named : serial = BitVec.ofNat 64 (s.part.argument c 0 8)) (missing : s.part.findPlace serial = none) :
    Completes .forgetHistory s (.ofCommand .forgetHistory) fun q =>
      q.Answered c .ok (s.part.rq.completion + 1) ∧ q.argumentByte c 0 = 0 := by
  have run := exec_forgetHistory offers mode
  rw [doForgetHistory_missing named missing] at run
  refine completes_after run ⟨takeService_answered wf loose _ _ _, ?_⟩
  have wf' : Memory.wf (s.part.takeService c).board = true := takeCell_wf wf c
  have same := (finish_ebbs s.part ((s.part.takeService c).complete c .ok [⟨0, 1, 0⟩])).cells c
    (loose.takeService.complete c _ _)
  rw [Part.argumentByte, same _ (by omega) (by omega)]
  exact complete_zeros wf' c .ok (by omega)

/-- R59: a slot holds the entry. -/
theorem forgetHistory_held {s : State} {c : CellNo} {serial : Quad} {k : Fin 64} (wf : Memory.wf s.part.board = true)
    (offers : s.part.Offers (some .forgetHistory) c) (mode : s.part.ps.serviceMode = true) (loose : s.part.Loose c)
    (unfolded : s.part.hs.foldAtWrite = false) (named : serial = BitVec.ofNat 64 (s.part.argument c 0 8))
    (found : s.part.findPlace serial = some k) (held : s.part.serialHeld serial = true) :
    Completes .forgetHistory s (.ofCommand .forgetHistory) fun q =>
      q.Answered c .busy (s.part.rq.completion + 1) ∧ q.place k = s.part.place k := by
  have run := exec_forgetHistory offers mode
  rw [doForgetHistory_found named found, if_pos held] at run
  exact completes_after run ⟨takeService_answered wf loose _ _ _,
    finish_place_plain (p := (s.part.takeService c).complete c .busy []) s.part unfolded k⟩

/-! ## The write that answers a removal (R52, R59) -/

/-- R52, R59: with an idle saver and nothing to write the removed entry is written at once, and this write answers. -/
theorem finish_forgotten_idle {p : Part} {c : CellNo} {k : Fin 64} (unfolded : p.hs.foldAtWrite = false)
    (works : p.works = true) (idle : p.hs.saver = .idle) (rest : p.nextWrite = none) (before : Part) :
    ⟨c, .forget k true⟩ ∈ (Part.finish before (p.forgotten c k)).rq.parked ∧
      (Part.finish before (p.forgotten c k)).hs.saver = .place k none p.hs.sightings false false := by
  have plain := (forgotten_unfolded p c k).trans unfolded
  rw [nextWrite_plain unfolded] at rest
  obtain ⟨stored, empty⟩ := Option.or_eq_none_iff.1 rest
  have queue : (p.forgotten c k).hs.saveQueue = [k] :=
    dirtyPlace_saveQueue_nil (p := (p.takeService c).updPlace k fun r => { r with entry := none }) idle
      (List.head?_eq_none_iff.1 (Option.map_eq_none_iff.1 empty)) k
  have next : (p.forgotten c k).nextWrite = some (.place k) := by
    rw [nextWrite_plain plain, forgotten_nextStored, stored, queue]
    rfl
  have sightings : (p.forgotten c k).hs.sightings = p.hs.sightings := ((forgotten_acts p c k).same .sightings rfl).symm
  have closes := finish_takes before ((forgotten_saver p c k).2 idle) ((forgotten_works p c k).trans works) next
  have digest := takeDigest_hs (p.forgotten c k)
  have plain' : (p.forgotten c k).takeDigest.hs.foldAtWrite = false := by rw [digest, plain]
  constructor
  · rw [← show _ = (Part.finish _ _).rq.parked from closes.same .parked rfl]
    have covered := takePlace_forget plain' k (c := c) (k := k) (covered := false)
      (by rw [takeDigest_rq]; exact forgotten_parked p c k)
    rwa [decide_eq_true rfl] at covered
  · rw [← show _ = (Part.finish _ _).hs.saver from closes.same .saver rfl]
    have begun : ((p.forgotten c k).takeDigest.takePlace k).hs.saver = .place k
        ((p.forgotten c k).takeDigest.place k).entry (p.forgotten c k).takeDigest.hs.sightings false false :=
      congrArg (fun q => q.hs.saver) (beginAttempt_plain (p := (p.forgotten c k).takeDigest.dequeuePlace k) plain' k false)
    rw [begun, ← (takeDigest_acts _).same (.place k) rfl, forgotten_place, digest, sightings]

/-- R59: while the saver writes, the request waits for a later write. -/
theorem finish_forgotten_busy {p : Part} {c : CellNo} {k : Fin 64} (busy : p.hs.saver ≠ .idle) (before : Part) :
    ⟨c, .forget k false⟩ ∈ (Part.finish before (p.forgotten c k)).rq.parked ∧
      (k ∈ (Part.finish before (p.forgotten c k)).hs.saveQueue ∨
        (Part.finish before (p.forgotten c k)).hs.saver.writes k = true) := by
  have ends := finish_busySaver before (mt (forgotten_saver p c k).1 busy)
  rw [← show _ = (Part.finish _ _).rq.parked from ends.same .parked rfl,
    ← show _ = (Part.finish _ _).hs.saveQueue from ends.same .saveQueue rfl,
    ← show _ = (Part.finish _ _).hs.saver from ends.same .saver rfl]
  exact ⟨forgotten_parked p c k, forgotten_queued p c k⟩

/-- R59: the entry is removed and the request parks. -/
theorem forgetHistory_removes {s : State} {c : CellNo} {serial : Quad} {k : Fin 64} (wf : Memory.wf s.part.board = true)
    (offers : s.part.Offers (some .forgetHistory) c) (mode : s.part.ps.serviceMode = true) (loose : s.part.Loose c)
    (unfolded : s.part.hs.foldAtWrite = false) (named : serial = BitVec.ofNat 64 (s.part.argument c 0 8))
    (found : s.part.findPlace serial = some k) (free : s.part.serialHeld serial = false) :
    Completes .forgetHistory s (.ofCommand .forgetHistory) fun q =>
      q.place k = ⟨none, true⟩ ∧ ∃ covered, q.ParkedAs c (.forget k covered) ∧
        (s.part.hs.saver = .idle → s.part.nextWrite = none →
          covered = true ∧ q.hs.saver = .place k none s.part.hs.sightings false false) ∧
        (s.part.hs.saver ≠ .idle → covered = false ∧ (k ∈ q.hs.saveQueue ∨ q.hs.saver.writes k = true)) := by
  have run := exec_forgetHistory offers mode
  rw [doForgetHistory_found named found, if_neg (by rw [free]; exact Bool.false_ne_true)] at run
  have plain := (forgotten_unfolded s.part c k).trans unfolded
  have taken := finish_forgotten_cellState wf loose k s.part
  refine completes_after run ⟨(finish_place_plain s.part plain k).trans (forgotten_place s.part c k), ?_⟩
  by_cases idle : s.part.hs.saver = .idle
  case neg =>
    obtain ⟨parked, queued⟩ := finish_forgotten_busy (c := c) (k := k) idle s.part
    exact ⟨false, ⟨taken, parked⟩, fun h => absurd h idle, fun _ => ⟨rfl, queued⟩⟩
  case pos =>
    by_cases rest : s.part.nextWrite = none
    case pos =>
      obtain ⟨parked, saver⟩ := finish_forgotten_idle (c := c) (k := k) unfolded offers.works idle rest s.part
      exact ⟨true, ⟨taken, parked⟩, fun _ _ => ⟨rfl, saver⟩, fun h => absurd idle h⟩
    case neg =>
      obtain ⟨now, -, parked⟩ := finish_forget s.part plain (loose.forgotten k) (forgotten_parked s.part c k)
      exact ⟨now, ⟨taken, parked⟩, fun _ h => absurd h rest, fun h => absurd idle h⟩

/-! ## The ends of that write (R52, R53, R59) -/

section Ends

variable {p : Part} {c : CellNo} {j : Fin 64} {copy : Option Entry} {counter : Nat} {changed : Bool}

theorem enqueuePlace_requests (p : Part) (j : Fin 64) : (p.enqueuePlace j).rq = p.rq ∧ (p.enqueuePlace j).board = p.board := by
  unfold Part.enqueuePlace
  split <;> exact ⟨rfl, rfl⟩

theorem settlePlace_requests (p : Part) (j : Fin 64) (changed : Bool) : (p.settlePlace j changed).rq = p.rq ∧
    (p.settlePlace j changed).board = p.board := by
  unfold Part.settlePlace
  split
  · exact ⟨rfl, rfl⟩
  · split
    · exact enqueuePlace_requests p j
    · exact ⟨rfl, rfl⟩

/-- Work that touches neither the commit rows nor the settings queue leaves a loose cell loose. -/
theorem Part.Loose.of_acts {q : Part} {t : Views} (loose : p.Loose c) (acts : Part.Acts t p q)
    (k : (∀ i, t (.commit i) = false) ∧ t .settingsQueue = false := by exact ⟨fun _ => rfl, rfl⟩) : q.Loose c where
  flushes i := by
    rw [← acts.same (.commit i) (k.1 i)]
    exact loose.flushes i
  settings := by
    rw [← show _ = q.hs.settingsQueue from acts.same .settingsQueue k.2]
    exact loose.settings

/-- R52, R59: the saver goes on with the place of a request that waits for its write, and this write covers it. -/
theorem placeVerified_covers {k : Fin 64} {rest : List (Fin 64)}
    (only : ∀ x ∈ p.rq.parked, x.cell = c → x.work = .forget k false) (parked : ⟨c, .forget k false⟩ ∈ p.rq.parked)
    (unfolded : p.hs.foldAtWrite = false) (works : p.works = true) (stored : p.nextStored = none)
    (queue : p.hs.saveQueue = k :: rest) (before : Part) :
    (Part.finish before (p.placeVerified j copy counter changed)).hs.saver.writes k = true ∧
      ⟨c, .forget k true⟩ ∈ (Part.finish before (p.placeVerified j copy counter changed)).rq.parked := by
  have verified := placeVerified_verified p j copy counter changed
  have waits : ⟨c, .forget k false⟩ ∈ (p.placeVerified j copy counter changed).rq.parked := by
    rw [placeVerified_eq]
    refine finishForget_parked (fun x mem answered own => ?_) ?_
    · rw [(settlePlace_requests _ j changed).1] at mem
      rw [Parked.answeredBy, only x mem own] at answered
      simp at answered
    · rw [(settlePlace_requests _ j changed).1]
      exact parked
  generalize p.placeVerified j copy counter changed = q at verified waits ⊢
  obtain ⟨rest', queue'⟩ := verified.head (l := [k]) queue
  have plain := verified.foldAtWrite.trans unfolded
  have stored' : q.nextStored = none := by
    unfold Part.nextStored
    rw [← show _ = q.hs.counterWaiting from verified.acts.same .counterWaiting rfl,
      ← show _ = q.hs.settingsQueue from verified.acts.same .settingsQueue rfl]
    exact stored
  have next : q.nextWrite = some (.place k) := by
    rw [nextWrite_plain plain, stored', queue']
    rfl
  refine ⟨finish_takes_writes before verified.saver (verified.works.trans works) next, ?_⟩
  have closes := finish_takes before verified.saver (verified.works.trans works) next
  rw [← show _ = (Part.finish before q).rq.parked from closes.same .parked rfl]
  have covered := takePlace_forget (p := q.takeDigest) (by rw [takeDigest_hs, plain]) k (c := c) (k := k) (covered := false)
    (by rw [takeDigest_rq]; exact waits)
  rwa [decide_eq_true rfl] at covered

/-- R59: a verified write answers the request that it covers. -/
theorem placeVerified_answers (wf : Memory.wf p.board = true) (parked : ⟨c, .forget j true⟩ ∈ p.rq.parked) :
    (p.placeVerified j copy counter changed).Forgotten c .ok := by
  obtain ⟨requests, board⟩ := settlePlace_requests (p.storeCopy j copy counter) j changed
  rw [placeVerified_eq]
  exact finishForget_forgotten (by rw [board]; exact wf) (by rw [requests]; exact parked) .ok

/-- R53, R59: a write that fails twice answers it STORE_FAILED. -/
theorem placeFailed_answers (wf : Memory.wf p.board = true) (parked : ⟨c, .forget j true⟩ ∈ p.rq.parked) :
    (p.placeFailed j).Forgotten c .storeFailed := by
  obtain ⟨requests, board⟩ := enqueuePlace_requests { p with hs := { p.hs with saver := .idle } } j
  have requests' : (p.requeuePlace j).reportStoreFault.rq = p.rq := requests
  have board' : (p.requeuePlace j).reportStoreFault.board = p.board := board
  rw [placeFailed_eq]
  exact finishForget_forgotten (by rw [board']; exact wf) (by rw [requests']; exact parked) .storeFailed

/-- What a second failure touches. -/
def Views.failing : Views := Views.and .history (Views.and .completing (.only .storeFault))

theorem placeFailed_failing (p : Part) (j : Fin 64) : Part.Acts .failing p (p.placeFailed j) := by
  have idle : Part.Acts .failing p { p with hs := { p.hs with saver := .idle } } := by
    refine .raw fun v hv => ?_
    cases v <;> first | rfl | exact ⟨rfl, rfl⟩ | exact ⟨rfl, rfl, rfl⟩ | exact absurd hv (by decide)
  have queued : Part.Acts .failing p (p.requeuePlace j) :=
    idle.trans ((enqueuePlace_acts _ j).mono (Views.le_and_left _ _))
  have reported : Part.Acts .failing p (p.requeuePlace j).reportStoreFault :=
    queued.trans ((reportStoreFault_acts _).mono (Views.and_le (Views.only_le rfl) (Views.only_le rfl)))
  exact reported.trans
    ((finishForget_acts _ _ _).mono (Views.le_trans (Views.le_and_left _ _) (Views.le_and_right _ _)))

end Ends

/-- Settles O50: the answers of READ_HISTORY, what FORGET_HISTORY answers or begins, and the ends of the write that answers
it. -/
theorem historyRequests : Obligations.HistoryRequests := by
  intro s c wf
  refine ⟨fun quiet offers => ⟨fun k e selects entry range => ?_, fun place selects missing => ?_, fun beyond => ?_⟩,
    fun serial offers mode loose unfolded named => ⟨fun missing => ?_, fun k found held => ?_, fun k found free => ?_⟩,
    fun j copy counter second changed saver loose unfolded => ⟨?_, fun parked => ⟨?_, ?_, ?_⟩⟩⟩
  · exact readHistory_finds wf quiet offers selects entry range
  · exact readHistory_misses wf quiet offers selects missing
  · exact readHistory_refused wf quiet offers (historyPlace_none beyond)
  · exact forgetHistory_missing wf offers mode loose named missing
  · exact forgetHistory_held wf offers mode loose unfolded named found held
  · exact forgetHistory_removes wf offers mode loose unfolded named found free
  · intro k rest only parked works stored queue _
    exact completes_after (exec_historyWriteVerified saver)
      (placeVerified_covers only parked unfolded works stored queue s.part)
  · have verified := placeVerified_verified s.part j copy counter changed
    have done := (placeVerified_answers (changed := changed) (copy := copy) (counter := counter) wf parked).finish
      (loose.of_acts verified.acts) (verified.foldAtWrite.trans unfolded) s.part
    exact completes_after (exec_historyWriteVerified saver)
      ⟨done.answered, done.mark, done.unparked, (finish_nv _ _).trans verified.nv⟩
  · rintro rfl
    have failed := placeFailed_failed s.part j
    have done := (placeFailed_answers wf parked).finish (loose.of_acts (placeFailed_failing s.part j))
      (failed.folds.trans unfolded) s.part
    exact completes_after (exec_historyWriteFailed saver)
      ⟨done.answered, done.mark, done.unparked, finish_queued s.part failed.queued, finish_notice failed.notice⟩
  · rintro rfl
    have ends := finish_busySaver s.part (saver_ne_idle (beginAttempt_writes s.part j true))
    refine completes_after (exec_historyWriteRetried saver) ?_
    rw [← show _ = (Part.finish _ _).rq.parked from ends.same .parked rfl,
      ← show _ = (Part.finish _ _).hs.saver from ends.same .saver rfl, beginAttempt_plain unfolded]
    exact ⟨parked, beq_iff_eq.2 rfl⟩

end Sys2Proof.Machine
end

-- ==== Verdicts: Margin ====
section

/-! PROOFS. The refill margin: the margin test of a slot (R73), and SET_REFILL_MARGIN, which tests every slot in service (R77). -/

set_option Elab.async false
namespace Sys2Proof.Machine
open Sys2Proof

/-! ## The margin test of a slot (R73) -/

theorem escalates_refilled {now : Verdict} (tested : now.marginTested = true) : escalates now .refilled = true := by
  cases now with
  | new | used | resumed | depleted => rfl
  | refilled | regressed | clone | counterfeit | wrongInk | unknownType | unreadable => cases tested

theorem pastMargin_iff (p : Part) (i : Slot) : p.pastMargin i = true ↔ (p.slot i).marginTested = true ∧
    marginVolume p.au.margin (p.slot i).volumeClass < (p.volumes i).postEmpty := by
  rw [Part.pastMargin, Bool.and_eq_true, decide_eq_true_eq]

/-- R73: of a slot the margin test looks at its row, its volumes and the margin. -/
theorem pastMargin_congr {p q : Part} {i : Slot} (slot : q.slot i = p.slot i) (volumes : q.volumes i = p.volumes i)
    (margin : q.au.margin = p.au.margin) : q.pastMargin i = p.pastMargin i := by
  rw [Part.pastMargin, Part.pastMargin, slot, volumes, margin]

theorem testMargin_within {p : Part} {i : Slot} (within : p.pastMargin i = false) : p.testMargin i = p :=
  if_neg (by rw [within]; exact Bool.noConfusion)

/-- R73: a slot past the margin is escalated, since every verdict that is tested moves on to REFILLED. -/
theorem testMargin_past {p : Part} {i : Slot} (past : p.pastMargin i = true) :
    p.testMargin i = p.carryOutEscalation i .refilled := by
  obtain ⟨tested, -⟩ := (pastMargin_iff p i).1 past
  unfold SlotRow.marginTested at tested
  split at tested
  · rename_i now verdict
    exact (if_pos past).trans (escalate_carried verdict (escalates_refilled tested))
  · cases tested

theorem testMargin_spares (p : Part) (i : Slot) : Part.Spares p (p.testMargin i) := by
  cases past : p.pastMargin i with
  | false =>
    rw [testMargin_within past]
    exact (Part.Flushes.refl p).toSpares
  | true =>
    rw [testMargin_past past, carryOutEscalation_eq, if_neg nofun]
    exact verdictReported_spares p i _

/-! ## The test of every slot in service (R77) -/

/-- R77: the test of one slot. -/
def Part.testInService (p : Part) (i : Slot) : Part := if (p.slot i).state.inServiceGroup then p.testMargin i else p

theorem testMargins_eq (p : Part) : p.testMargins = p.forSlots Part.testInService := rfl

theorem testInService_acts (p : Part) (i : Slot) : Part.Acts (.slotWork (justSlot i)) p (p.testInService i) := by
  unfold Part.testInService
  split
  · exact testMargin_acts p i
  · exact .refl _ _

theorem testInService_others (p : Part) {i j : Slot} (ne : j ≠ i) : (p.testInService j).slot i = p.slot i ∧
    (p.testInService j).volumes i = p.volumes i ∧ (p.testInService j).au.margin = p.au.margin := by
  have acts := testInService_acts p j
  have off : justSlot j i = false := by simp [justSlot, ne.symm]
  exact ⟨(acts.same (.slot i) off).symm, (acts.same (.volumes i) off).symm, (acts.same .margin rfl).symm⟩

/-- R77: a slot in service past the margin becomes REFILLED, and any other keeps its row. -/
theorem testMargins_visits {p : Part} {i : Slot} (served : (p.slot i).state.inServiceGroup = true) :
    (p.testMargins.slot i = if p.pastMargin i then (p.slot i).moved .refilled else p.slot i) ∧
      p.testMargins.volumes i = if p.pastMargin i then { p.volumes i with low := false, spent := false } else p.volumes i := by
  rw [testMargins_eq]
  refine forSlots_visits (P := fun q => q.slot i = p.slot i ∧ q.volumes i = p.volumes i ∧ q.au.margin = p.au.margin)
    (Q := fun q => (q.slot i = if p.pastMargin i then (p.slot i).moved .refilled else p.slot i) ∧
      q.volumes i = if p.pastMargin i then { p.volumes i with low := false, spent := false } else p.volumes i) i
    (fun q j ne ⟨slot, volumes, margin⟩ => ?_) (fun q ⟨slot, volumes, margin⟩ => ?_) (fun q j ne ⟨slot, volumes⟩ => ?_)
    ⟨rfl, rfl, rfl⟩
  · obtain ⟨row, left, same⟩ := testInService_others q ne
    exact ⟨row.trans slot, left.trans volumes, same.trans margin⟩
  · have visited : q.testInService i = q.testMargin i := if_pos (by rw [slot]; exact served)
    rw [visited, ← pastMargin_congr slot volumes margin, ← slot, ← volumes]
    cases past : q.pastMargin i with
    | false => rw [testMargin_within past]; exact ⟨rfl, rfl⟩
    | true =>
      have escalated := carryOutEscalation_escalated q i .refilled
      rw [testMargin_past past]
      exact ⟨escalated.slot, escalated.volumes⟩
  · obtain ⟨row, left, -⟩ := testInService_others q ne
    exact ⟨row.trans slot, left.trans volumes⟩

theorem testMargins_acts (p : Part) : Part.Acts (.slotWork everySlot) p p.testMargins :=
  .forSlots (fun q i => (testInService_acts q i).mono (slot_le_work i)) p

theorem testMargins_spares (p : Part) : Part.Spares p p.testMargins := by
  refine .forSlots (f := Part.testInService) (fun q i => ?_) p
  unfold Part.testInService
  split
  · exact testMargin_spares q i
  · exact (Part.Flushes.refl q).toSpares

/-! ## The request SET_REFILL_MARGIN (R77) -/

theorem exec_setRefillMargin {s : State} {c : CellNo} (offers : s.part.Offers (some .setRefillMargin) c)
    (mode : s.part.ps.serviceMode = true) :
    exec .setRefillMargin s = s.after ((s.part.takeService c).doSetRefillMargin c) :=
  request_service offers rfl mode Part.doSetRefillMargin

/-- R77: the margin is set and the request answered, before any slot is tested. -/
def Part.marginSet (p : Part) (c : CellNo) (margin : Nat) (r : Result) : Part :=
  Part.complete { p with au := { p.au with margin := margin } } c r []

theorem doSetRefillMargin_eq (p : Part) (c : CellNo) : p.doSetRefillMargin c =
    (p.marginSet c (clampTo 1 500 (p.argument c 0 2))
      (okOrClamped (clampTo 1 500 (p.argument c 0 2) != p.argument c 0 2))).testMargins := rfl

theorem takeService_argument (p : Part) (c : CellNo) (o w : Nat) : (p.takeService c).argument c o w = p.argument c o w :=
  takeCell_argument p c o w

theorem okOrClamped_ne (n m : Nat) : okOrClamped (n != m) = if n = m then .ok else .clamped := by
  by_cases e : n = m <;> simp [okOrClamped, e]

/-- Settles O53: the request is answered with the new margin in force, and then each slot is visited once. -/
theorem refillMargin : Obligations.RefillMargin := by
  intro s c margin wf offers mode loose _ given
  have run := exec_setRefillMargin offers mode
  have clamped : clampTo 1 500 (s.part.argument c 0 2) = margin := given.symm
  rw [doSetRefillMargin_eq, takeService_argument, clamped, okOrClamped_ne] at run
  generalize (if margin = s.part.argument c 0 2 then Result.ok else .clamped) = result at run ⊢
  have acts := testMargins_acts ((s.part.takeService c).marginSet c margin result)
  have answered : ((s.part.takeService c).marginSet c margin result).Answered c result (s.part.rq.completion + 1) :=
    complete_answered (p := { s.part.takeService c with au := { s.part.au with margin := margin } }) (takeCell_wf wf c) c result []
  have open_ : ((s.part.takeService c).marginSet c margin result).Loose c := ⟨loose.flushes, loose.settings⟩
  have spares := testMargins_spares ((s.part.takeService c).marginSet c margin result)
  refine completes_after run ⟨?_, ?_, fun i served => ?_⟩
  · rw [← show _ = (Part.finish _ _).au.margin from (finish_acts _ _).same .margin rfl]
    exact (acts.same .margin rfl).symm
  · exact (answered.keep (spares.cells c open_) acts).finish (spares.loose open_) s.part
  · obtain ⟨slot, volumes⟩ := testMargins_visits (p := (s.part.takeService c).marginSet c margin result) (i := i) served
    have past := pastMargin_iff ((s.part.takeService c).marginSet c margin result) i
    rw [finish_slot, finish_volumes, slot, volumes]
    refine ⟨fun tested exceeds => ?_, fun within => ?_⟩
    · rw [if_pos (past.2 ⟨tested, exceeds⟩), if_pos (past.2 ⟨tested, exceeds⟩)]
      exact ⟨rfl, rfl, rfl⟩
    · refine if_neg fun h => ?_
      obtain ⟨tested, exceeds⟩ := past.1 h
      rcases within with untested | less
      · exact Bool.noConfusion (tested.symm.trans untested)
      · exact absurd exceeds (Nat.not_lt.2 less)

end Sys2Proof.Machine

end

-- ==== Verdicts: Shares ====
section

/-! PROOFS. What a share does to the slot that takes it (R108, R109, R111), and to the channel whose source the slot is (R73,
R105, R106). -/

set_option Elab.async false
namespace Sys2Proof.Machine
open Sys2Proof

/-! ## What shares and charges speak of -/

/-- Between `p` and `q` nothing changes of what a share or a charge speaks of, and no notice is withdrawn. -/
structure Part.SameStock (p q : Part) : Prop where
  slot : ∀ i, q.slot i = p.slot i
  volumes : ∀ i, q.volumes i = p.volumes i
  commit : ∀ i, q.commit i = p.commit i
  place : ∀ k, q.place k = p.place k
  active : ∀ c, (q.channel c).active = (p.channel c).active
  feed : ∀ c, (q.channel c).feed = (p.channel c).feed
  unfed : ∀ c, (q.channel c).unfed = (p.channel c).unfed
  margin : q.au.margin = p.au.margin
  folds : q.hs.foldAtWrite = p.hs.foldAtWrite
  notice : ∀ n, p.noticePending n = true → q.noticePending n = true

theorem Part.SameStock.trans {p q r : Part} (h : p.SameStock q) (k : q.SameStock r) : p.SameStock r where
  slot i := (k.slot i).trans (h.slot i)
  volumes i := (k.volumes i).trans (h.volumes i)
  commit i := (k.commit i).trans (h.commit i)
  place j := (k.place j).trans (h.place j)
  active c := (k.active c).trans (h.active c)
  feed c := (k.feed c).trans (h.feed c)
  unfed c := (k.unfed c).trans (h.unfed c)
  margin := k.margin.trans h.margin
  folds := k.folds.trans h.folds
  notice n := k.notice n ∘ h.notice n

theorem Part.SameStock.refl (p : Part) : p.SameStock p :=
  ⟨fun _ => rfl, fun _ => rfl, fun _ => rfl, fun _ => rfl, fun _ => rfl, fun _ => rfl, fun _ => rfl, rfl, rfl, fun _ => id⟩

/-- Work that touches none of the views of a charge. -/
theorem Part.Acts.sameStock {t : Views} {p q : Part} (h : Part.Acts t p q)
    (k : (∀ i, t (.slot i) = false) ∧ (∀ i, t (.volumes i) = false) ∧ (∀ i, t (.commit i) = false) ∧
      (∀ c, t (.channel c) = false) ∧ (∀ j, t (.place j) = false) ∧ t .margin = false ∧ t .foldAtWrite = false := by
        exact ⟨fun _ => rfl, fun _ => rfl, fun _ => rfl, fun _ => rfl, fun _ => rfl, rfl, rfl⟩) : p.SameStock q := by
  obtain ⟨slots, volumes, commits, channels, places, margin, folds⟩ := k
  have channel : ∀ c, p.channel c = q.channel c := fun c => h.same (.channel c) (channels c)
  exact ⟨fun i => (h.same (.slot i) (slots i)).symm, fun i => (h.same (.volumes i) (volumes i)).symm,
    fun i => (h.same (.commit i) (commits i)).symm, fun j => (h.same (.place j) (places j)).symm,
    fun c => by rw [channel], fun c => by rw [channel], fun c => by rw [channel], (h.same .margin margin).symm,
    (h.same .foldAtWrite folds).symm, fun _ => h.raised _⟩

theorem recordVolumes_sameStock (p : Part) (i : Slot) : p.SameStock (p.recordVolumes i) := (recordVolumes_acts p i).sameStock
theorem recordShare_sameStock (p : Part) (i : Slot) : p.SameStock (p.recordShare i) := (recordShare_acts p i).sameStock

theorem finish_sameStock (before p : Part) (unfolded : p.hs.foldAtWrite = false) : p.SameStock (Part.finish before p) :=
  (finish_acts_plain before p unfolded).sameStock

theorem Part.SameStock.linkedPlace {p q : Part} (h : p.SameStock q) (i : Slot) : q.linkedPlace i = p.linkedPlace i :=
  linkedPlace_congr (fun k => congrArg PlaceRow.serial (h.place k)) (h.slot i)

theorem Part.SameStock.channelOf {p q : Part} (h : p.SameStock q) (i : Slot) : q.channelOf i = p.channelOf i := by
  simp only [Part.channelOf, h.feed]

theorem Part.SameStock.qualifies {p q : Part} (h : p.SameStock q) (i : Slot) : q.qualifies i = p.qualifies i := by
  rw [Part.qualifies, Part.qualifies, h.slot, h.volumes]

/-! ## The volumes of a slot through a share (R108, R111) -/

/-- R111: LOW and SPENT are crossed as the remaining volume says. -/
def Volumes.crossed (v : Volumes) : Volumes :=
  { v with low := v.low || decide (v.remaining ≤ v.thresholds.warn),
           spent := v.spent || decide (v.remaining ≤ v.thresholds.stop) }

/-- R108, R109, R111: the volumes of a slot after a share, before the margin test. -/
def Volumes.shared (v : Volumes) (fell post : Nat) : Volumes :=
  if fell + post = 0 then v else if 0 < fell then (v.take fell post).crossed else v.take fell post

theorem Volumes.shared_remaining (v : Volumes) (fell post : Nat) : (v.shared fell post).remaining = v.remaining - fell := by
  unfold Volumes.shared
  split
  · rw [show fell = 0 by omega, Nat.sub_zero]
  · split <;> rfl

theorem Volumes.shared_postEmpty (v : Volumes) (fell post : Nat) : (v.shared fell post).postEmpty =
    if fell + post = 0 then v.postEmpty else satAdd max32 v.postEmpty post := by
  unfold Volumes.shared
  split
  · rfl
  · split <;> rfl

theorem Volumes.shared_maintenance (v : Volumes) (fell post : Nat) : (v.shared fell post).maintenance = v.maintenance := by
  unfold Volumes.shared
  split
  · rfl
  · split <;> rfl

theorem Volumes.shared_exhausted (v : Volumes) (fell post : Nat) :
    (v.shared fell post).exhausted = (v.exhausted || (decide (0 < fell) && decide (v.remaining ≤ fell))) := by
  have empty : (v.remaining - fell == 0) = decide (v.remaining ≤ fell) := by
    rw [beq_eq_decide, decide_eq_decide, Nat.sub_eq_zero_iff_le]
  have taken : (v.take fell post).exhausted = (v.exhausted || (decide (0 < fell) && decide (v.remaining ≤ fell))) := by
    rw [Volumes.take, empty]
  unfold Volumes.shared
  split
  · rw [show fell = 0 by omega]; simp
  · split <;> exact taken

theorem Volumes.shared_low (v : Volumes) (fell post : Nat) : (v.shared fell post).low =
    (v.low || (decide (0 < fell) && decide (v.remaining - fell ≤ v.thresholds.warn))) := by
  unfold Volumes.shared
  split
  · rw [show fell = 0 by omega]; simp
  · split
    · rename_i falls; simp [Volumes.crossed, Volumes.take, falls]
    · rename_i stays; simp [Volumes.take, stays]

theorem Volumes.shared_spent (v : Volumes) (fell post : Nat) : (v.shared fell post).spent =
    (v.spent || (decide (0 < fell) && decide (v.remaining - fell ≤ v.thresholds.stop))) := by
  unfold Volumes.shared
  split
  · rw [show fell = 0 by omega]; simp
  · split
    · rename_i falls; simp [Volumes.crossed, Volumes.take, falls]
    · rename_i stays; simp [Volumes.take, stays]

/-! ## A share before the margin test (R109, R111) -/

/-- What a share touches before the margin test: the slot's volumes and the link pool's work. -/
def Views.drawing (i : Slot) : Views := Views.and .linking (.only (.volumes i))

/-- A flag that is not newly crossed stands as it was. -/
theorem crossing_kept {below flag : Bool} (h : ¬ (below && !flag) = true) : (flag || below) = flag := by
  cases flag <;> simp_all

theorem crossing_set {below flag : Bool} (h : (below && !flag) = true) : (flag || below) = true := by
  cases flag <;> simp_all

theorem crossLow_volumes (p : Part) (i : Slot) : (p.crossLow i).volumes i =
    { p.volumes i with low := (p.volumes i).low || decide ((p.volumes i).remaining ≤ (p.volumes i).thresholds.warn) } := by
  unfold Part.crossLow
  extract_lets v
  split
  · rename_i crossed
    rw [crossing_set crossed]
    exact Part.setVolumes_volumes_self p i _
  · rename_i kept
    rw [crossing_kept kept]

theorem crossSpent_volumes (p : Part) (i : Slot) : (p.crossSpent i).volumes i =
    { p.volumes i with spent := (p.volumes i).spent || decide ((p.volumes i).remaining ≤ (p.volumes i).thresholds.stop) } := by
  unfold Part.crossSpent
  extract_lets v
  split
  · rename_i crossed
    rw [crossing_set crossed]
    exact Part.setVolumes_volumes_self p i _
  · rename_i kept
    rw [crossing_kept kept]

/-- R111: LOW and SPENT of the slot are crossed. -/
def Part.crossed (p : Part) (i : Slot) : Part := (p.crossLow i).crossSpent i

theorem crossed_volumes (p : Part) (i : Slot) : (p.crossed i).volumes i = (p.volumes i).crossed := by
  rw [Part.crossed, crossSpent_volumes, crossLow_volumes]
  rfl

theorem crossLow_draws (p : Part) (i : Slot) : Part.Acts (.drawing i) p (p.crossLow i) ∧ Part.Flushes p (p.crossLow i) := by
  unfold Part.crossLow
  extract_lets v
  split
  · exact ⟨(setVolumes_acts p i _ (by simp [Views.drawing, Views.and, Views.only])).trans (raise_acts _ _),
      .of_same rfl rfl rfl⟩
  · exact ⟨.refl _ _, .refl _⟩

theorem crossSpent_draws (p : Part) (i : Slot) :
    Part.Acts (.drawing i) p (p.crossSpent i) ∧ Part.Flushes p (p.crossSpent i) := by
  unfold Part.crossSpent
  extract_lets v
  split
  · exact ⟨(setVolumes_acts p i _ (by simp [Views.drawing, Views.and, Views.only])).trans (raise_acts _ _),
      .of_same rfl rfl rfl⟩
  · exact ⟨.refl _ _, .refl _⟩

theorem crossed_draws (p : Part) (i : Slot) : Part.Acts (.drawing i) p (p.crossed i) ∧ Part.Flushes p (p.crossed i) :=
  ⟨(crossLow_draws p i).1.trans (crossSpent_draws _ i).1, (crossLow_draws p i).2.trans (crossSpent_draws _ i).2⟩

/-- R109: the commit engine's account of the slot grows by the share. -/
def Part.uncommittedGrown (p : Part) (i : Slot) (share : Nat) : Part :=
  p.updCommit i fun r => { r with uncommitted := satAdd max32 r.uncommitted share }

/-- R109: while fold at write is disabled a share dirties no place. -/
theorem addUncommitted_plain {p : Part} (unfolded : p.hs.foldAtWrite = false) (i : Slot) (share : Nat) :
    p.addUncommitted i share = ((p.uncommittedGrown i share).examineFlush i).testCommit i := by
  unfold Part.addUncommitted
  extract_lets q r
  have still : r = q := by
    have plain : q.hs.foldAtWrite = false := unfolded
    unfold r
    split
    · rw [plain]; rfl
    · rfl
  rw [still]
  rfl

/-- R108, R109: the volumes and the account of the slot have taken the share. -/
def Part.shareTaken (p : Part) (i : Slot) (fell post : Nat) : Part :=
  (p.updVolumes i fun v => v.take fell post).addUncommitted i (fell + post)

/-- R109: what the share leaves to the margin test. -/
def Part.shareCrossed (p : Part) (i : Slot) (fell post : Nat) : Part :=
  if 0 < fell && ((p.shareTaken i fell post).slot i).hasClass .tracked then (p.shareTaken i fell post).crossed i
  else p.shareTaken i fell post

theorem placeShare_eq (p : Part) (i : Slot) (fell post : Nat) : p.placeShare i fell post =
    if fell + post = 0 then p.recordVolumes i
    else (if 0 < post then (p.shareCrossed i fell post).testMargin i else p.shareCrossed i fell post).recordShare i := rfl

/-- Between `p` and `d` a slot has taken a share, but for the margin test. -/
structure Part.Draws (p d : Part) (i : Slot) (fell post : Nat) : Prop where
  acts : Part.Acts (.drawing i) p d
  volumes : d.volumes i = (p.volumes i).shared fell post
  own : (d.commit i).uncommitted =
    if fell + post = 0 then (p.commit i).uncommitted else satAdd max32 (p.commit i).uncommitted (fell + post)
  others : ∀ j, j ≠ i → (d.commit j).uncommitted = (p.commit j).uncommitted

/-- No share is drawn by doing nothing. -/
theorem Part.Draws.none (p : Part) (i : Slot) : p.Draws p i 0 0 := ⟨.refl _ _, rfl, rfl, fun _ _ => rfl⟩

theorem shareTaken_acts {p : Part} (unfolded : p.hs.foldAtWrite = false) (i : Slot) (fell post : Nat) :
    Part.Acts (.drawing i) p (p.shareTaken i fell post) := by
  have linking : Views.le .linking (.drawing i) := Views.le_and_left _ _
  have taken : Part.Acts (.drawing i) p (p.updVolumes i fun v => v.take fell post) :=
    setVolumes_acts p i _ (by simp [Views.drawing, Views.and, Views.only])
  rw [Part.shareTaken, addUncommitted_plain (p := p.updVolumes i _) unfolded]
  exact taken.trans ((updCommit_acts _ i _ rfl).trans
    (((examineFlush_acts _ i).mono (Views.le_trans Views.flushing_le_linking linking)).trans
      ((testCommit_acts _ i).mono linking)))

theorem shareTaken_volumes {p : Part} (unfolded : p.hs.foldAtWrite = false) (i : Slot) (fell post : Nat) :
    (p.shareTaken i fell post).volumes i = (p.volumes i).take fell post := by
  rw [Part.shareTaken, addUncommitted_plain (p := p.updVolumes i _) unfolded]
  have left := ((examineFlush_acts ((p.updVolumes i fun v => v.take fell post).uncommittedGrown i (fell + post)) i).mono
    Views.flushing_le_linking).trans (testCommit_acts _ i)
  exact (left.same (.volumes i) rfl).symm.trans (Part.setVolumes_volumes_self p i _)

theorem shareTaken_uncommitted {p : Part} (unfolded : p.hs.foldAtWrite = false) (i : Slot) (fell post : Nat) (j : Slot) :
    ((p.shareTaken i fell post).commit j).uncommitted =
      if j = i then satAdd max32 (p.commit i).uncommitted (fell + post) else (p.commit j).uncommitted := by
  rw [Part.shareTaken, addUncommitted_plain (p := p.updVolumes i _) unfolded,
    ((examineFlush_flushes _ i).trans (testCommit_flushes _ i)).uncommitted j, Part.uncommittedGrown]
  split
  · rename_i own
    rw [own, updCommit_commit_self]
    rfl
  · rename_i other
    rw [updCommit_commit_ne _ _ other]
    rfl

/-- R109, R111: what a share above 0 leaves to the margin test. A share takes something off the remaining volume of a tracked
slot only. -/
theorem shareCrossed_draws {p : Part} (unfolded : p.hs.foldAtWrite = false) {i : Slot} {fell post : Nat}
    (some_ : fell + post ≠ 0) (tracked : 0 < fell → (p.slot i).hasClass .tracked = true) :
    p.Draws (p.shareCrossed i fell post) i fell post := by
  have acts := shareTaken_acts unfolded i fell post
  have volumes := shareTaken_volumes unfolded i fell post
  have account := shareTaken_uncommitted unfolded i fell post
  have row : (p.shareTaken i fell post).slot i = p.slot i := (acts.same (.slot i) rfl).symm
  have own := account i
  have others := fun j (ne : j ≠ i) => (account j).trans (if_neg ne)
  rw [if_pos rfl] at own
  unfold Part.shareCrossed
  rw [row]
  by_cases falls : 0 < fell
  · obtain ⟨crosses, flushed⟩ := crossed_draws (p.shareTaken i fell post) i
    rw [if_pos (by simp [falls, tracked falls])]
    refine ⟨acts.trans crosses, ?_, ?_, fun j ne => (flushed.uncommitted j).trans (others j ne)⟩
    · rw [crossed_volumes, volumes, Volumes.shared, if_neg some_, if_pos falls]
    · rw [if_neg some_, flushed.uncommitted, own]
  · rw [if_neg (by simp [falls])]
    exact ⟨acts, by rw [volumes, Volumes.shared, if_neg some_, if_neg falls], by rw [if_neg some_, own], others⟩

/-- R73: the margin test that follows the share. -/
theorem Part.Draws.pastMargin_iff {p d : Part} {i : Slot} {fell post : Nat} (h : p.Draws d i fell post) :
    d.pastMargin i = true ↔ (p.slot i).marginTested = true ∧
      marginVolume p.au.margin (p.slot i).volumeClass < ((p.volumes i).shared fell post).postEmpty := by
  rw [Sys2Proof.Machine.pastMargin_iff, ← show p.slot i = _ from h.acts.same (.slot i) rfl, h.volumes,
    ← show p.au.margin = _ from h.acts.same .margin rfl]

theorem Part.Draws.linkedPlace {p d : Part} {i : Slot} {fell post : Nat} (h : p.Draws d i fell post) (j : Slot) :
    d.linkedPlace j = p.linkedPlace j :=
  linkedPlace_congr (fun k => congrArg PlaceRow.serial (h.acts.same (.place k) rfl).symm) (h.acts.same (.slot j) rfl).symm

theorem Part.Draws.volumes_ne {p d : Part} {i j : Slot} {fell post : Nat} (h : p.Draws d i fell post) (ne : j ≠ i) :
    d.volumes j = p.volumes j :=
  (h.acts.same (.volumes j) (by
    simp [Views.drawing, Views.and, Views.only, Views.linking, Views.flushing, Views.completing, ne])).symm

/-! ## A share with its margin test (R73, R109) -/

/-- Between `p` and `q` a slot has taken a share: within the margin, or past it and escalated to REFILLED. -/
inductive Part.Shares (p q : Part) (i : Slot) (fell post : Nat) : Prop where
  | within (d : Part) : p.Draws d i fell post → post = 0 ∨ d.pastMargin i = false → d.SameStock q → p.Shares q i fell post
  | past (d : Part) : p.Draws d i fell post → 0 < post → d.pastMargin i = true →
      (d.carryOutEscalation i .refilled).SameStock q → p.Shares q i fell post

theorem Part.Shares.trans {p q r : Part} {i : Slot} {fell post : Nat} (h : p.Shares q i fell post) (k : q.SameStock r) :
    p.Shares r i fell post := by
  cases h with
  | within d draws still same => exact .within d draws still (same.trans k)
  | past d draws drawn exceeds same => exact .past d draws drawn exceeds (same.trans k)

theorem Part.Shares.none (p : Part) (i : Slot) : p.Shares p i 0 0 := .within p (.none p i) (.inl rfl) (.refl p)

theorem placeShare_shares {p : Part} (unfolded : p.hs.foldAtWrite = false) {i : Slot} {fell post : Nat}
    (tracked : 0 < fell → (p.slot i).hasClass .tracked = true) : p.Shares (p.placeShare i fell post) i fell post := by
  rw [placeShare_eq]
  by_cases nothing : fell + post = 0
  · obtain ⟨rfl, rfl⟩ := Nat.add_eq_zero_iff.1 nothing
    exact (Part.Shares.none p i).trans (recordVolumes_sameStock p i)
  rw [if_neg nothing]
  have draws := shareCrossed_draws unfolded nothing tracked
  have recorded := fun d => recordShare_sameStock d i
  by_cases drawn : 0 < post
  case neg =>
    rw [if_neg drawn]
    exact .within _ draws (.inl (Nat.eq_zero_of_not_pos drawn)) (recorded _)
  rw [if_pos drawn]
  cases exceeds : (p.shareCrossed i fell post).pastMargin i with
  | false =>
    rw [testMargin_within exceeds]
    exact .within _ draws (.inr exceeds) (recorded _)
  | true =>
    rw [testMargin_past exceeds]
    exact .past _ draws drawn exceeds (recorded _)

section Shared

variable {p q : Part} {i : Slot} {fell post : Nat}

/-- R72, R109: of the slot's volumes an escalation changes LOW and SPENT alone. -/
theorem Part.Shares.volumes (h : p.Shares q i fell post) :
    ∃ low spent, q.volumes i = { (p.volumes i).shared fell post with low := low, spent := spent } := by
  cases h with
  | within d draws _ same => exact ⟨_, _, by rw [same.volumes, draws.volumes]⟩
  | past d draws _ _ same =>
    exact ⟨false, false, by rw [same.volumes, (carryOutEscalation_escalated d i _).volumes, draws.volumes]⟩

theorem Part.Shares.remaining (h : p.Shares q i fell post) : (q.volumes i).remaining = (p.volumes i).remaining - fell := by
  obtain ⟨low, spent, volumes⟩ := h.volumes
  rw [volumes, ← Volumes.shared_remaining _ fell post]

theorem Part.Shares.maintenance (h : p.Shares q i fell post) : (q.volumes i).maintenance = (p.volumes i).maintenance := by
  obtain ⟨low, spent, volumes⟩ := h.volumes
  rw [volumes]
  exact Volumes.shared_maintenance _ fell post

/-- R72, R109: an escalation leaves every account. -/
theorem Part.Shares.uncommitted (h : p.Shares q i fell post) :
    (∀ j, j ≠ i → (q.commit j).uncommitted = (p.commit j).uncommitted) ∧
    (q.commit i).uncommitted =
      if fell + post = 0 then (p.commit i).uncommitted else satAdd max32 (p.commit i).uncommitted (fell + post) := by
  cases h with
  | within d draws _ same =>
    exact ⟨fun j ne => by rw [same.commit, draws.others j ne], by rw [same.commit, draws.own]⟩
  | past d draws _ _ same =>
    have kept := fun j => ((carryOutEscalation_escalated d i .refilled).work j).uncommitted
    exact ⟨fun j ne => by rw [same.commit, kept, draws.others j ne], by rw [same.commit, kept, draws.own]⟩

/-- A share and its margin test leave the rows and volumes of the other slots. -/
theorem Part.Shares.others (h : p.Shares q i fell post) {j : Slot} (ne : j ≠ i) :
    q.slot j = p.slot j ∧ q.volumes j = p.volumes j := by
  have left : ∀ d, p.Draws d i fell post → p.slot j = d.slot j ∧ p.volumes j = d.volumes j := fun d draws =>
    ⟨draws.acts.same (.slot j) rfl, (draws.volumes_ne ne).symm⟩
  cases h with
  | within d draws _ same =>
    rw [same.slot, same.volumes, (left d draws).1, (left d draws).2]
    exact ⟨rfl, rfl⟩
  | past d draws _ _ same =>
    have off : justSlot i j = false := by simp [justSlot, ne]
    have acts := carryOutEscalation_acts d i .refilled
    rw [same.slot, same.volumes, (left d draws).1, (left d draws).2]
    exact ⟨(acts.same (.slot j) off).symm, (acts.same (.volumes j) off).symm⟩

/-- A share that draws nothing past empty leaves every row of the slot table, the channels and the history. -/
theorem Part.Shares.undrawn (h : p.Shares q i fell 0) : (∀ j, q.slot j = p.slot j) ∧ (∀ k, q.place k = p.place k) ∧
    (∀ c, (q.channel c).active = (p.channel c).active) ∧ q.au.margin = p.au.margin := by
  cases h with
  | past _ _ drawn => exact absurd drawn (Nat.lt_irrefl 0)
  | within d draws _ same =>
    refine ⟨fun j => ?_, fun k => ?_, fun c => ?_, ?_⟩
    · rw [same.slot, ← show p.slot j = _ from draws.acts.same (.slot j) rfl]
    · rw [same.place, ← show p.place k = _ from draws.acts.same (.place k) rfl]
    · rw [same.active, ← show p.channel c = _ from draws.acts.same (.channel c) rfl]
    · rw [same.margin, ← show p.au.margin = _ from draws.acts.same .margin rfl]

/-- R73: a verdict that the margin test tests is not REFILLED. -/
theorem marginTested_verdict {r : SlotRow} (tested : r.marginTested = true) : r.verdict ≠ some .refilled := fun e => by
  rw [SlotRow.marginTested, e] at tested
  cases tested

/-- R73, R108, R109, R111: what a share does to its slot. -/
theorem Part.Shares.takesShare (h : p.Shares q i fell post) : p.TakesShare q i fell post := by
  have postEmpty : (q.volumes i).postEmpty = ((p.volumes i).shared fell post).postEmpty := by
    obtain ⟨low, spent, volumes⟩ := h.volumes
    rw [volumes]
  have exhausted : (q.volumes i).exhausted = ((p.volumes i).shared fell post).exhausted := by
    obtain ⟨low, spent, volumes⟩ := h.volumes
    rw [volumes]
  refine ⟨h.remaining, postEmpty.trans (Volumes.shared_postEmpty ..), h.uncommitted.2,
    exhausted.trans (Volumes.shared_exhausted ..), fun drawn tested exceeds => ?_, fun still => ?_⟩
  · rw [postEmpty] at exceeds
    cases h with
    | within d draws still same =>
      have past := draws.pastMargin_iff.2 ⟨tested, exceeds⟩
      rcases still with none | within
      · exact absurd drawn (by rw [none]; exact Nat.lt_irrefl 0)
      · exact Bool.noConfusion (past.symm.trans within)
    | past d draws _ _ same =>
      have escalated := carryOutEscalation_escalated d i .refilled
      rw [same.slot, same.volumes, escalated.slot, escalated.volumes]
      refine ⟨rfl, rfl, rfl, same.notice _ escalated.notice, fun k e link entry => ?_⟩
      rw [same.place, escalated.entered nofun, if_pos ((draws.linkedPlace i).trans link),
        ← show p.place k = _ from draws.acts.same (.place k) rfl, entry]
      rfl
  · rw [postEmpty] at still
    cases h with
    | within d draws _ same =>
      rw [same.slot, same.volumes, draws.volumes, ← show p.slot i = _ from draws.acts.same (.slot i) rfl]
      exact ⟨rfl, Volumes.shared_low .., Volumes.shared_spent ..⟩
    | past d draws drawn exceeds _ =>
      obtain ⟨tested, past⟩ := draws.pastMargin_iff.1 exceeds
      rcases still with none | untested | within
      · exact absurd drawn (by rw [none]; exact Nat.lt_irrefl 0)
      · exact Bool.noConfusion (tested.symm.trans untested)
      · exact absurd past (Nat.not_lt.2 within)

/-- R106: a slot whose verdict stays is not re-selected. -/
theorem Part.Shares.active_kept (h : p.Shares q i fell post) (kept : (q.slot i).verdict = (p.slot i).verdict) (c : Channel) :
    (q.channel c).active = (p.channel c).active := by
  cases h with
  | within d draws _ same => rw [same.active, ← show p.channel c = _ from draws.acts.same (.channel c) rfl]
  | past d draws _ exceeds same =>
    rw [same.slot, (carryOutEscalation_escalated d i _).slot] at kept
    exact absurd kept.symm (marginTested_verdict (draws.pastMargin_iff.1 exceeds).1)

end Shared

/-! ## The source of a slot that becomes REFILLED (R105, R106) -/

/-- R105: of a channel none of whose slots qualifies the first present slot becomes the source. -/
theorem chooseSource_unqualified {p : Part} {c : Channel} (source : ∀ a, (p.channel c).active = some a → p.qualifies a = false)
    (fed : ∀ b ∈ (p.channel c).feed.slots, p.qualifies b = false) :
    p.chooseSource c = (p.channel c).feed.slots.find? p.presentForChannel := by
  have unqualified : ∀ o : Option Slot, (∀ b, o = some b → p.qualifies b = false) → optSlot o p.qualifies = false := by
    rintro (_ | b) h
    · rfl
    · exact h b rfl
  unfold Part.chooseSource
  dsimp only
  rw [unqualified _ source, unqualified _ fun b e => fed b (by simp [Feed.slots, e]),
    unqualified _ fun b e => fed b (by simp [Feed.slots, e])]
  unfold Feed.slots
  generalize (p.channel c).feed.primary = primary
  generalize (p.channel c).feed.secondary = secondary
  cases primary with
  | none =>
    cases secondary with
    | none => rfl
    | some j => cases kj : p.presentForChannel j <;> simp [optSlot, kj]
  | some i =>
    cases secondary with
    | none => cases ki : p.presentForChannel i <;> simp [optSlot, ki]
    | some j => cases ki : p.presentForChannel i <;> cases kj : p.presentForChannel j <;> simp [optSlot, ki, kj]

/-- R101: the feed of a slot's channel names the slot. -/
theorem channelOf_names {p : Part} {i : Slot} {c : Channel} (h : p.channelOf i = some c) :
    (p.channel c).feed.primary = some i ∨ (p.channel c).feed.secondary = some i := by
  have named := List.find?_some h
  simpa using named

/-- A feed that names a slot has no third one. -/
theorem Feed.mem_slots {f : Feed} {i b : Slot} (named : f.primary = some i ∨ f.secondary = some i) (h : b ∈ f.slots) :
    b = i ∨ f.other i = some b := by
  have of : f.primary = some b ∨ f.secondary = some b := by simpa [Feed.slots] using h
  unfold Feed.other
  by_cases first : f.primary = some i
  · rw [if_pos first]
    exact of.imp_left fun e => Option.some.inj (e.symm.trans first)
  · rw [if_neg first]
    have second := named.resolve_left first
    exact of.symm.imp_left fun e => Option.some.inj (e.symm.trans second)

theorem reselectIfActive_source {p : Part} {i : Slot} {c : Channel} (active : (p.channel c).active = some i)
    (channel : p.channelOf i = some c) : ((p.reselectIfActive i).channel c).active = p.chooseSource c := by
  unfold Part.reselectIfActive
  rw [channel]
  simp only [active, if_true]
  exact congrArg ChannelRow.active (Part.setChannel_channel_self p c _)

section Refilled

variable {p : Part} {i : Slot}

/-- R72: up to the re-selection the escalation to REFILLED leaves the channels, and the other slots. -/
theorem verdictApplied_refilled : (∀ c, (p.verdictApplied i .refilled).channel c = p.channel c) ∧
    (p.verdictApplied i .refilled).slot i = (p.slot i).moved .refilled ∧
    ∀ j, j ≠ i → (p.verdictApplied i .refilled).slot j = p.slot j ∧ (p.verdictApplied i .refilled).volumes j = p.volumes j := by
  have applied : p.verdictApplied i .refilled = (p.verdictMoved i .refilled).changeLinkedEntry i fun e => { e with verdict := .refilled } :=
    if_neg nofun
  have written := changeLinkedEntry_acts (p.verdictMoved i .refilled) i fun e => { e with verdict := .refilled }
  have moved := verdictMoved_acts p i .refilled
  rw [applied]
  refine ⟨fun c => ?_, ?_, fun j ne => ⟨?_, ?_⟩⟩
  · exact ((moved.same (.channel c) rfl).trans (written.same (.channel c) rfl)).symm
  · exact (written.same (.slot i) rfl).symm.trans (verdictMoved_slot p i _)
  · exact ((moved.same (.slot j) rfl).trans (written.same (.slot j) rfl)).symm.trans (Part.setSlot_slot_ne p i _ j ne)
  · exact ((moved.same (.volumes j) rfl).trans (written.same (.volumes j) rfl)).symm.trans (Part.setVolumes_volumes_ne _ i _ j ne)

/-- R105, R106: the channel of a slot that becomes REFILLED, with no other slot that qualifies. -/
theorem carryOutEscalation_source {c : Channel} (active : (p.channel c).active = some i) (channel : p.channelOf i = some c)
    (alone : ∀ b, b ≠ i → (p.channel c).feed.other i = some b → p.qualifies b = false) :
    ((p.carryOutEscalation i .refilled).channel c).active = (p.channel c).feed.slots.find? p.presentForChannel := by
  obtain ⟨channels, row, others⟩ := verdictApplied_refilled (p := p) (i := i)
  have told := reportToCommit_acts ((p.verdictApplied i .refilled).reselectIfActive i) i
  rw [carryOutEscalation_eq, if_neg nofun, Part.verdictReported, ← show Part.channel _ c = _ from told.same (.channel c) rfl]
  generalize p.verdictApplied i .refilled = q at channels row others ⊢
  have present : q.presentForChannel = p.presentForChannel := funext fun j => by
    unfold Part.presentForChannel
    by_cases own : j = i
    · rw [own, row]; rfl
    · rw [(others j own).1]
  have own : q.qualifies i = false := by
    rw [Part.qualifies, row, show ((p.slot i).moved .refilled).hasClass .tracked = false from rfl, Bool.and_false, Bool.false_and]
  have source : (q.channel c).active = some i := by rw [channels]; exact active
  rw [reselectIfActive_source source (by rw [channelOf_congr channels]; exact channel), chooseSource_unqualified, channels, present]
  · intro a e
    rw [source] at e
    rw [← Option.some.inj e, own]
  · intro b fed
    rw [channels] at fed
    by_cases same : b = i
    · rw [same, own]
    · rw [Part.qualifies, (others b same).1, (others b same).2]
      exact alone b same ((Feed.mem_slots (channelOf_names channel) fed).resolve_left same)

end Refilled

/-- R73, R106: a share past the margin re-selects the channel whose source the slot is. -/
theorem Part.Shares.reselected {p q : Part} {i : Slot} {fell post : Nat} {c : Channel} (h : p.Shares q i fell post)
    (moved : (q.slot i).verdict ≠ (p.slot i).verdict) (active : (p.channel c).active = some i)
    (channel : p.channelOf i = some c) (alone : ∀ b, b ≠ i → (p.channel c).feed.other i = some b → p.qualifies b = false) :
    (q.channel c).active = (p.channel c).feed.slots.find? p.presentForChannel := by
  cases h with
  | within d draws _ same =>
    rw [same.slot, ← show p.slot i = _ from draws.acts.same (.slot i) rfl] at moved
    exact absurd rfl moved
  | past d draws _ _ same =>
    have channels : ∀ c, d.channel c = p.channel c := fun c => (draws.acts.same (.channel c) rfl).symm
    have slots : ∀ j, d.slot j = p.slot j := fun j => (draws.acts.same (.slot j) rfl).symm
    have present : d.presentForChannel = p.presentForChannel := funext fun j => by
      rw [Part.presentForChannel, Part.presentForChannel, slots]
    have others : ∀ j, j ≠ i → d.qualifies j = p.qualifies j := fun j ne => by
      rw [Part.qualifies, Part.qualifies, slots, draws.volumes_ne ne]
    rw [same.active, carryOutEscalation_source (by rw [channels]; exact active)
      (by rw [channelOf_congr channels]; exact channel) fun b ne other => ?_, channels, present]
    rw [channels] at other
    exact (others b ne).trans (alone b ne other)

end Sys2Proof.Machine

end

-- ==== Verdicts: Charges ====
section

/-! PROOFS. Where a volume charged to one channel falls (R91, R93, R105 to R109), and its accounting (R83, R93). -/

set_option Elab.async false
namespace Sys2Proof.Machine
open Sys2Proof

/-! ## A share as seen from before the charge -/

/-- The part against which a share is measured may be any that agrees on the slot, but for its maintenance, and on the margin
and the history. -/
theorem Part.TakesShare.before {p p' q : Part} {i : Slot} {fell post maintenance : Nat} (h : p'.TakesShare q i fell post)
    (volumes : p'.volumes i = { p.volumes i with maintenance := maintenance }) (slot : p'.slot i = p.slot i)
    (account : (p'.commit i).uncommitted = (p.commit i).uncommitted) (margin : p'.au.margin = p.au.margin)
    (place : ∀ k, p'.place k = p.place k) : p.TakesShare q i fell post := by
  obtain ⟨remaining, postEmpty, uncommitted, exhausted, refilled, kept⟩ := h
  rw [volumes] at remaining postEmpty exhausted kept
  rw [account] at uncommitted
  rw [slot, margin, linkedPlace_congr (fun k => congrArg PlaceRow.serial (place k)) slot] at refilled
  rw [slot, margin] at kept
  simp only [place] at refilled
  exact ⟨remaining, postEmpty, uncommitted, exhausted, refilled, kept⟩

/-- A share that draws nothing past empty stands while the slot's verdict, volumes and account stay. -/
theorem Part.TakesShare.keep {p q r : Part} {i : Slot} {fell : Nat} (h : p.TakesShare q i fell 0)
    (volumes : r.volumes i = q.volumes i) (slot : r.slot i = q.slot i)
    (account : (r.commit i).uncommitted = (q.commit i).uncommitted) : p.TakesShare r i fell 0 := by
  obtain ⟨remaining, postEmpty, uncommitted, exhausted, -, kept⟩ := h
  rw [← volumes] at remaining postEmpty exhausted
  rw [← account] at uncommitted
  rw [← volumes, ← slot] at kept
  exact ⟨remaining, postEmpty, uncommitted, exhausted, fun drawn => absurd drawn (Nat.lt_irrefl 0), kept⟩

/-! ## The charging procedure (R107, R108) -/

/-- R91, R93: the maintenance of a charge goes to the source. -/
def Part.maintained (p : Part) (a : Slot) (m : Nat) : Part :=
  p.updVolumes a fun v => { v with maintenance := satAdd max32 v.maintenance m }

theorem maintained_volumes (p : Part) (a : Slot) (m : Nat) : (p.maintained a m).volumes a =
    { p.volumes a with maintenance := satAdd max32 (p.volumes a).maintenance m } := Part.setVolumes_volumes_self p a _

theorem maintained_volumes_ne (p : Part) {a j : Slot} (m : Nat) (ne : j ≠ a) : (p.maintained a m).volumes j = p.volumes j :=
  Part.setVolumes_volumes_ne p a _ j ne

theorem maintained_qualifies (p : Part) (a : Slot) (m : Nat) (b : Slot) : (p.maintained a m).qualifies b = p.qualifies b := by
  by_cases own : b = a
  · rw [own, Part.qualifies, maintained_volumes]; rfl
  · rw [Part.qualifies, maintained_volumes_ne p m own]; rfl

theorem hasClass_exclusive {r : SlotRow} (h : r.hasClass .untracked = true) : r.hasClass .tracked = false := by
  unfold SlotRow.hasClass at h ⊢
  split at h
  · rw [eq_of_beq h]; rfl
  · cases h

section Charge

variable {p : Part} {c : Channel} {a b : Slot} {x m : Nat}

theorem charge_none (pos : 0 < x) (active : (p.channel c).active = none) : p.charge c x m =
    (p.updChannel c fun r => { r with unfed := satAdd max32 r.unfed x }).raise .tally := by
  unfold Part.charge
  rw [if_neg (Nat.pos_iff_ne_zero.1 pos), active]

theorem charge_some (pos : 0 < x) (active : (p.channel c).active = some a) :
    p.charge c x m = (p.maintained a m).chargeSource c a x := by
  unfold Part.charge
  rw [if_neg (Nat.pos_iff_ne_zero.1 pos), active]
  rfl

/-- R107: an untracked source. -/
theorem chargeSource_untracked (untracked : (p.slot a).hasClass .untracked = true) : p.chargeSource c a x = p.placeShare a 0 x :=
  if_neg (by rw [hasClass_exclusive untracked]; exact Bool.noConfusion)

/-- R108: a tracked source with no other slot that qualifies. -/
theorem chargeSource_alone (tracked : (p.slot a).hasClass .tracked = true)
    (alone : ∀ b, (p.channel c).feed.other a = some b → p.qualifies b = false) : p.chargeSource c a x = p.placeWhole a x := by
  unfold Part.chargeSource
  rw [if_pos tracked]
  split
  · rename_i b other
    exact if_neg (by rw [alone b other]; exact Bool.noConfusion)
  · rfl

/-- R108: a tracked source whose feed has another slot that qualifies. -/
theorem chargeSource_tandem (tracked : (p.slot a).hasClass .tracked = true) (other : (p.channel c).feed.other a = some b)
    (qualifies : p.qualifies b = true) : p.chargeSource c a x = p.chargeTandem c a b x := by
  unfold Part.chargeSource
  rw [if_pos tracked, other]
  exact if_pos qualifies

/-- R108: the part in which the other slot of the feed is the source. -/
def Part.handedTo (p : Part) (c : Channel) (b : Slot) : Part := p.updChannel c fun r => { r with active := some b }

theorem chargeTandem_stays {share : Nat} (share_eq : share = min x ((p.volumes a).remaining - (p.volumes a).thresholds.stop))
    (above : (p.volumes a).thresholds.stop < ((p.placeShare a share 0).volumes a).remaining) :
    p.chargeTandem c a b x = p.placeShare a share 0 := by
  subst share_eq
  exact if_neg (Nat.not_le.2 above)

/-- R108: where the source stands at its stop the other slot takes the rest, be it nothing. -/
theorem chargeTandem_hands {share fell : Nat}
    (share_eq : share = min x ((p.volumes a).remaining - (p.volumes a).thresholds.stop))
    (at_ : ((p.placeShare a share 0).volumes a).remaining ≤ (p.volumes a).thresholds.stop)
    (fell_eq : fell = min (x - share) ((p.placeShare a share 0).volumes b).remaining)
    (unfolded : p.hs.foldAtWrite = false) (tracked : ((p.placeShare a share 0).slot b).hasClass .tracked = true) :
    ((p.placeShare a share 0).handedTo c b).Shares (p.chargeTandem c a b x) b fell (x - share - fell) := by
  have hands : p.chargeTandem c a b x = if x - share = 0 then (p.placeShare a share 0).handedTo c b
      else ((p.placeShare a share 0).handedTo c b).placeWhole b (x - share) := by
    subst share_eq
    exact if_pos at_
  have plain : ((p.placeShare a share 0).handedTo c b).hs.foldAtWrite = false :=
    ((placeShare_acts p a share 0).same .foldAtWrite rfl).symm.trans unfolded
  rw [hands]
  by_cases nothing : x - share = 0
  · have fell_none : fell = 0 := by omega
    rw [if_pos nothing, nothing, fell_none]
    exact .none _ b
  · rw [if_neg nothing, fell_eq]
    exact placeShare_shares plain fun _ => tracked

end Charge

/-! ## The cases of a charge (R105 to R109) -/

section Cases

variable {s p q : Part} {c : Channel} {x m : Nat}

/-- R107: a charge of a channel without a source. -/
theorem charged_unfed (before : s.SameStock p) (ends : (p.charge c x m).SameStock q) (pos : 0 < x)
    (active : (s.channel c).active = none) :
    (q.channel c).unfed = satAdd max32 (s.channel c).unfed x ∧ (q.channel c).active = none ∧ q.noticePending .tally = true ∧
      ∀ j, q.volumes j = s.volumes j ∧ q.commit j = s.commit j := by
  have source := (before.active c).trans active
  rw [charge_none pos source] at ends
  have row : ((p.updChannel c fun r => { r with unfed := satAdd max32 r.unfed x }).raise .tally).channel c =
      { p.channel c with unfed := satAdd max32 (p.channel c).unfed x } := Part.setChannel_channel_self p c _
  refine ⟨?_, ?_, ends.notice _ (raise_notice _ _), fun j => ⟨(ends.volumes j).trans (before.volumes j),
    (ends.commit j).trans (before.commit j)⟩⟩
  · rw [ends.unfed, row, ← before.unfed c]
  · rw [ends.active, row]
    exact source

/-- The volumes of the source, its maintenance counted. -/
theorem maintained_source (before : s.SameStock p) (a : Slot) (m : Nat) : (p.maintained a m).volumes a =
    { s.volumes a with maintenance := satAdd max32 (s.volumes a).maintenance m } := by
  rw [maintained_volumes, before.volumes]

theorem maintained_others (before : s.SameStock p) {a j : Slot} (m : Nat) (ne : j ≠ a) :
    (p.maintained a m).volumes j = s.volumes j := (maintained_volumes_ne p m ne).trans (before.volumes j)

variable {a : Slot}

/-- A share of the source with its maintenance, as seen from before the charge. -/
theorem Part.Shares.takesMaintained {r : Part} {fell post : Nat} (before : s.SameStock p)
    (h : (p.maintained a m).Shares r a fell post) : s.TakesShare r a fell post ∧
      (r.volumes a).maintenance = satAdd max32 (s.volumes a).maintenance m := by
  refine ⟨h.takesShare.before (maintained_source before a m) (before.slot a)
    (congrArg CommitRow.uncommitted (before.commit a)) before.margin before.place, ?_⟩
  rw [h.maintenance, maintained_source before]

/-- R107, R108: a charge of which the source takes the whole. -/
theorem charged_alone {fell : Nat} (before : s.SameStock p) (ends : (p.charge c x m).SameStock q)
    (unfolded : s.hs.foldAtWrite = false) (pos : 0 < x) (active : (s.channel c).active = some a)
    (whole : (s.slot a).hasClass .untracked = true ∧ fell = 0 ∨
      (s.slot a).hasClass .tracked = true ∧ fell = min x (s.volumes a).remaining ∧
        (∀ b, (s.channel c).feed.other a = some b → s.qualifies b = false)) :
    (p.maintained a m).Shares q a fell (x - fell) := by
  have plain : (p.maintained a m).hs.foldAtWrite = false := before.folds.trans unfolded
  have row : (p.maintained a m).slot a = s.slot a := before.slot a
  rw [charge_some pos ((before.active c).trans active)] at ends
  refine .trans ?_ ends
  rcases whole with ⟨untracked, rfl⟩ | ⟨tracked, rfl, alone⟩
  · rw [chargeSource_untracked (by rw [row]; exact untracked)]
    exact placeShare_shares plain fun falls => absurd falls (Nat.lt_irrefl 0)
  · rw [chargeSource_alone (by rw [row]; exact tracked) fun b other => ?_, Part.placeWhole, maintained_source before]
    · exact placeShare_shares plain fun _ => by rw [row]; exact tracked
    · rw [maintained_qualifies, before.qualifies]
      exact alone b (by rw [← before.feed c]; exact other)

/-- R105, R106: the source of a channel after a charge that its source took whole. -/
theorem charged_alone_source {fell post : Nat} (before : s.SameStock p) (shares : (p.maintained a m).Shares q a fell post)
    (active : (s.channel c).active = some a) :
    ((q.slot a).verdict = (s.slot a).verdict → (q.channel c).active = some a) ∧
      ((q.slot a).verdict ≠ (s.slot a).verdict → s.channelOf a = some c →
        (∀ b, (s.channel c).feed.other a = some b → s.qualifies b = false) →
        (q.channel c).active = (s.channel c).feed.slots.find? s.presentForChannel) := by
  have source : ((p.maintained a m).channel c).active = some a := (before.active c).trans active
  have feed : ((p.maintained a m).channel c).feed = (s.channel c).feed := before.feed c
  have row : (p.maintained a m).slot a = s.slot a := before.slot a
  have present : (p.maintained a m).presentForChannel = s.presentForChannel := funext fun j =>
    congrArg (fun r : SlotRow => r.state.inServiceGroup) (before.slot j)
  refine ⟨fun kept => (shares.active_kept (by rw [row]; exact kept) c).trans source, fun moved channel alone => ?_⟩
  rw [shares.reselected (by rw [row]; exact moved) source ((before.channelOf a).trans channel) fun b _ other => ?_, feed, present]
  rw [maintained_qualifies, before.qualifies]
  exact alone b (by rw [← feed]; exact other)

/-- R108: a charge of a source beside another slot that qualifies: what it gives, and what the other takes when it stands at
its stop. -/
theorem charged_tandem {b : Slot} {share : Nat} (before : s.SameStock p) (ends : (p.charge c x m).SameStock q)
    (unfolded : s.hs.foldAtWrite = false) (pos : 0 < x) (active : (s.channel c).active = some a)
    (tracked : (s.slot a).hasClass .tracked = true) (other : (s.channel c).feed.other a = some b) (ne : b ≠ a)
    (qualifies : s.qualifies b = true)
    (share_eq : share = min x ((s.volumes a).remaining - (s.volumes a).thresholds.stop)) :
    ∃ r, (p.maintained a m).Shares r a share 0 ∧
      ((s.volumes a).thresholds.stop < (s.volumes a).remaining - share → r.SameStock q) ∧
      ((s.volumes a).remaining - share ≤ (s.volumes a).thresholds.stop →
        ∀ fell, fell = min (x - share) (s.volumes b).remaining → (r.handedTo c b).Shares q b fell (x - share - fell)) := by
  have plain : (p.maintained a m).hs.foldAtWrite = false := before.folds.trans unfolded
  have row : (p.maintained a m).slot a = s.slot a := before.slot a
  have volumes := maintained_source before a m
  have given : share = min x (((p.maintained a m).volumes a).remaining - ((p.maintained a m).volumes a).thresholds.stop) := by
    rw [volumes]; exact share_eq
  have shares : (p.maintained a m).Shares ((p.maintained a m).placeShare a share 0) a share 0 :=
    placeShare_shares plain fun _ => by rw [row]; exact tracked
  have left : (((p.maintained a m).placeShare a share 0).volumes a).remaining = (s.volumes a).remaining - share := by
    rw [shares.remaining, volumes]
  obtain ⟨beside, stock⟩ := shares.others ne
  have trackedB : (s.slot b).hasClass .tracked = true := by
    simp only [Part.qualifies, Bool.and_eq_true] at qualifies
    exact qualifies.1.2
  rw [charge_some pos ((before.active c).trans active),
    chargeSource_tandem (p := p.maintained a m) (b := b) (by rw [row]; exact tracked) ((congrArg (Feed.other · a) (before.feed c)).trans other)
    (by rw [maintained_qualifies, before.qualifies]; exact qualifies)] at ends
  refine ⟨_, shares, fun above => ?_, fun at_ fell fell_eq => ?_⟩
  · rw [chargeTandem_stays given (by rw [left, volumes]; exact above)] at ends
    exact ends
  · refine (chargeTandem_hands given (by rw [left, volumes]; exact at_) ?_ plain ?_).trans ends
    · rw [stock, maintained_others before m ne]
      exact fell_eq
    · rw [beside]
      exact (congrArg (SlotRow.hasClass · .tracked) (before.slot b)).trans trackedB

/-- R108: what the other slot takes once the source has handed over, as seen from before the charge. -/
theorem Part.Shares.takesHanded {r : Part} {b : Slot} {share fell post : Nat} (before : s.SameStock p)
    (given : (p.maintained a m).Shares r a share 0) (ne : b ≠ a) (h : (r.handedTo c b).Shares q b fell post) :
    s.TakesShare q b fell post ∧ (q.volumes b).maintenance = (s.volumes b).maintenance ∧
      ((q.slot b).verdict = (s.slot b).verdict → (q.channel c).active = some b) := by
  obtain ⟨rows, places, -, margin⟩ := given.undrawn
  have slot : r.slot b = s.slot b := (rows b).trans (before.slot b)
  have volumes : r.volumes b = s.volumes b := (given.others ne).2.trans (maintained_others before m ne)
  have account : (r.commit b).uncommitted = (s.commit b).uncommitted :=
    (given.uncommitted.1 b ne).trans (congrArg CommitRow.uncommitted (before.commit b))
  refine ⟨h.takesShare.before (maintenance := (s.volumes b).maintenance) volumes slot account (margin.trans before.margin)
    fun k => (places k).trans (before.place k), ?_, fun kept => ?_⟩
  · rw [h.maintenance, ← volumes]
    rfl
  · rw [h.active_kept (kept.trans (congrArg SlotRow.verdict slot.symm)) c]
    exact congrArg ChannelRow.active (Part.setChannel_channel_self r c _)

end Cases

/-! ## The accounting of a single channel (R83, R93) -/

/-- A pass over the slots that comes to one alone. -/
theorem forSlots_alone {f : Part → Slot → Part} {p : Part} (c : Slot) (before : ∀ j, j ≠ c → f p j = p)
    (after : ∀ j, j ≠ c → f (f p c) j = f p c) : p.forSlots f = f p c :=
  forSlots_visits (P := fun q => q = p) (Q := fun q => q = f p c) c (fun _ j ne e => by rw [e]; exact before j ne)
    (fun _ e => by rw [e]) (fun _ j ne e => by rw [e]; exact after j ne) rfl

theorem oneHot_getLsbD (c j : Slot) : (1#16 <<< c.val).getLsbD j.val = (j == c) := by revert c j; decide

/-- Work of charges leaves the banks as they read. -/
theorem Part.Acts.readByte_bank {p q : Part} (h : Part.Acts (.slotWork everySlot) p q) {a : Nat} (lo : 0x600 ≤ a) (hi : a < 0xA00) :
    q.readByte a = p.readByte a :=
  (h.same (.byte a) (by simp [Views.slotWork, Views.reporting]; omega)).symm

theorem Part.Acts.bandMask {p q : Part} (h : Part.Acts (.slotWork everySlot) p q) (b : BankNo) : q.bandMask b = p.bandMask b := by
  have order : q.port.bigEndian = p.port.bigEndian := (h.same .byteOrder rfl).symm
  have low : 0x600 ≤ bankBase b + 2 ∧ bankBase b + 8 ≤ 0xA00 := by
    have := b.isLt
    simp only [bankBase]; omega
  rw [Part.bandMask, Part.bandMask, Part.readField, Part.readField, order]
  refine congrArg (BitVec.ofNat 16) (congrArg (fieldNumber _) (Memory.readBytes_congr _ _ _ _ fun a lo hi => ?_))
  exact h.readByte_bank (by omega) (by omega)

theorem Part.Acts.pageEnd {p q : Part} (h : Part.Acts (.slotWork everySlot) p q) (b : BankNo) : q.pageEnd b = p.pageEnd b := by
  have := b.isLt
  rw [Part.pageEnd, Part.pageEnd, h.readByte_bank (by simp only [bankBase]; omega) (by simp only [bankBase]; omega)]

theorem checkSequence_eq (p : Part) (b : BankNo) : ∃ seen gaps, ∃ nu : NoticeUnit, p.checkSequence b = { p with
    au := { p.au with bankSeen := seen, lastSequence := p.bandSequence b, sequenceGaps := gaps }, nu := nu } := by
  unfold Part.checkSequence
  extract_lets seq gap gaps _ q
  split
  · exact ⟨_, _, _, rfl⟩
  · exact ⟨_, _, p.nu, rfl⟩

/-- What a new row of one channel has in common with the old one, every channel keeps. -/
theorem setChannel_channel_congr {α : Type} (f : ChannelRow → α) {p : Part} {c : Channel} {r : ChannelRow}
    (same : f r = f (p.channel c)) (d : Channel) : f ((p.setChannel c r).channel d) = f (p.channel d) := by
  by_cases own : d = c
  · rw [own, Part.setChannel_channel_self, same]
  · rw [Part.setChannel_channel_ne p c r d own]

theorem setChannel_sameStock {p : Part} {c : Channel} {r : ChannelRow} (active : r.active = (p.channel c).active)
    (feed : r.feed = (p.channel c).feed) (unfed : r.unfed = (p.channel c).unfed) : p.SameStock (p.setChannel c r) :=
  ⟨fun _ => rfl, fun _ => rfl, fun _ => rfl, fun _ => rfl, setChannel_channel_congr ChannelRow.active active,
    setChannel_channel_congr ChannelRow.feed feed, setChannel_channel_congr ChannelRow.unfed unfed, rfl, rfl, fun _ => id⟩

theorem checkSequence_sameStock (p : Part) (b : BankNo) : p.SameStock (p.checkSequence b) := by
  have raised := (checkSequence_acts p b).raised
  obtain ⟨seen, gaps, nu, e⟩ := checkSequence_eq p b
  rw [e] at raised ⊢
  exact ⟨fun _ => rfl, fun _ => rfl, fun _ => rfl, fun _ => rfl, fun _ => rfl, fun _ => rfl, fun _ => rfl, rfl, rfl,
    fun _ => raised _⟩

/-- A change of the board and of the charge list, its mark of the page's end included. -/
theorem withChargeList_sameStock (p : Part) (m : List Host.Cell) (between : Bool) (l : List ChargeItem) :
    p.SameStock { p with board := m, au := { p.au with betweenPages := between, chargeList := l } } :=
  ⟨fun _ => rfl, fun _ => rfl, fun _ => rfl, fun _ => rfl, fun _ => rfl, fun _ => rfl, fun _ => rfl, rfl, rfl, fun _ => id⟩

theorem complete_sameStock (p : Part) (cell : CellNo) (r : Result) : p.SameStock (p.complete cell r []) :=
  ⟨fun _ => rfl, fun _ => rfl, fun _ => rfl, fun _ => rfl, fun _ => rfl, fun _ => rfl, fun _ => rfl, rfl, rfl,
    fun _ => (complete_acts p cell r [] (FitsIn.nil _)).raised _⟩

/-- A pass over the channels of a mask that names one alone. -/
theorem forSlots_masked {mask : Part → Half} {f : Part → Slot → Part} {p : Part} {c : Channel} (own : mask p = 1#16 <<< c.val)
    (kept : mask (f p c) = 1#16 <<< c.val) :
    (p.forSlots fun q j => if (mask q).getLsbD j.val then f q j else q) = f p c := by
  have visit : (if (mask p).getLsbD c.val then f p c else p) = f p c := if_pos (by rw [own, oneHot_getLsbD]; simp)
  rw [forSlots_alone c, visit]
  · intro j ne
    exact if_neg (by rw [own, oneHot_getLsbD]; simp [ne])
  · intro j ne
    rw [visit]
    exact if_neg (by rw [kept, oneHot_getLsbD]; simp [ne])

/-- R93: a purge of one channel is the growth of its totals and one charge. -/
theorem accountPurge_charges (p : Part) (cell : CellNo) (c : Channel) (volumes : Vector Nat 12) (clamped : Bool) :
    ∃ q, p.SameStock q ∧ (q.charge c volumes[c] volumes[c]).SameStock (p.accountPurge cell (1#16 <<< c.val) volumes clamped) := by
  refine ⟨p.updChannel c fun r => r.grow volumes[c] volumes[c], setChannel_sameStock rfl rfl rfl, ?_⟩
  unfold Part.accountPurge
  rw [forSlots_masked (mask := fun _ => 1#16 <<< c.val) (f := fun q j => q.purgeChannel j volumes[j]) rfl rfl]
  exact (withChargeList_sameStock (p.purgeChannel c volumes[c]) _ _ _).trans (complete_sameStock _ cell _)

/-- R83 step 2: one channel of a bank is the growth of its totals, its new residue and one charge. -/
theorem accountChannel_charges (p : Part) (b : BankNo) (c : Channel) : ∃ q, p.SameStock q ∧ p.accountChannel b c =
    q.charge c (bandVolume (p.channel c).calibration (p.channelBlock b c) (p.channel c).residue)
      (bandMaintenance (p.channel c).calibration (p.channelBlock b c)) := by
  refine ⟨_, ?_, rfl⟩
  exact setChannel_sameStock rfl rfl rfl

/-- R83, R91: a bank that holds one channel and ends no page is the sequence check and the accounting of that channel. -/
theorem accountBank_charges {p : Part} {b : BankNo} {c : Channel} (mask : p.bandMask b = 1#16 <<< c.val)
    (page : p.pageEnd b = false) :
    ∃ q, p.SameStock q ∧
      (q.charge c (bandVolume (p.channel c).calibration (p.channelBlock b c) (p.channel c).residue)
        (bandMaintenance (p.channel c).calibration (p.channelBlock b c))).SameStock (p.accountBank b) := by
  obtain ⟨seen, gaps, nu, checked⟩ := checkSequence_eq p b
  have row : (p.checkSequence b).channel c = p.channel c := by rw [checked]; rfl
  have block : (p.checkSequence b).channelBlock b c = p.channelBlock b c := by rw [checked]; rfl
  have masked : (p.checkSequence b).bandMask b = 1#16 <<< c.val := by rw [checked]; exact mask
  have accounts := accountChannel_acts (p.checkSequence b) b c
  have last : ((p.checkSequence b).accountChannel b c).pageEnd b = false := by
    rw [accounts.pageEnd, checked]
    exact page
  obtain ⟨q, grown, charge⟩ := accountChannel_charges (p.checkSequence b) b c
  rw [row, block] at charge
  refine ⟨q, (checkSequence_sameStock p b).trans grown, ?_⟩
  unfold Part.accountBank
  simp only [forSlots_masked (mask := fun q => q.bandMask b) (f := fun q j => q.accountChannel b j) masked
    ((accounts.bandMask b).trans masked), last, Bool.false_eq_true, if_false]
  rw [charge]
  exact withChargeList_sameStock _ _ _ _

theorem exec_purgeAccounting {s : State} {cell : CellNo} {mask : Half} {volumes : Vector Nat 12} {clamped : Bool}
    {rest : List ChargeItem} (works : s.part.works = true) (head : s.part.au.chargeList = .purge cell mask volumes clamped :: rest) :
    exec .purgeAccounting s = s.after (s.part.accountPurge cell mask volumes clamped) := by
  show execPurgeAccounting s = _
  unfold execPurgeAccounting
  rw [works, head]

theorem exec_bankAccounting {s : State} {b : BankNo} {rest : List ChargeItem} (works : s.part.works = true)
    (head : s.part.au.chargeList = .bank b :: rest) : exec .bankAccounting s = s.after (s.part.accountBank b) := by
  show execBankAccounting s = _
  unfold execBankAccounting
  rw [works, head]

/-- R83, R93: a purge or a bank of one channel is one charge of it. -/
theorem accounting_charges {s : State} {cmd : Instr} {c : Channel} {x m : Nat} (works : s.part.works = true)
    (one : s.part.ChargesOne c cmd x m) :
    ∃ p r, s.part.SameStock p ∧ (p.charge c x m).SameStock r ∧ exec cmd s = s.after r := by
  cases one with
  | purge cell volumes clamped rest head =>
    obtain ⟨p, before, after⟩ := accountPurge_charges s.part cell c volumes clamped
    exact ⟨p, _, before, after, exec_purgeAccounting works head⟩
  | bank b rest head mask page =>
    obtain ⟨p, before, after⟩ := accountBank_charges mask page
    exact ⟨p, _, before, after, exec_bankAccounting works head⟩

/-- Settles O37: the accounting is one charge, and each case of the charge is one share, or the share of the source and the
share of the other slot of its feed. -/
theorem chargeFallsOnTheSource : Obligations.ChargeFallsOnTheSource := by
  intro s cmd c x m works one unfolded pos
  obtain ⟨p, r, before, charged, run⟩ := accounting_charges works one
  have plain : r.hs.foldAtWrite = false :=
    charged.folds.trans (((charge_acts p c x m).same .foldAtWrite rfl).symm.trans (before.folds.trans unfolded))
  have ends := charged.trans (finish_sameStock s.part r plain)
  refine ⟨fun active => completes_after run (charged_unfed before ends pos active),
    fun a active => ⟨fun fell whole => completes_after run ?_,
      fun b share tracked other ne qualifies share_eq => completes_after run ?_⟩⟩
  all_goals generalize Part.finish s.part r = q at ends ⊢
  · have shares := charged_alone before ends unfolded pos active whole
    obtain ⟨share, maintenance⟩ := shares.takesMaintained before
    obtain ⟨kept, moved⟩ := charged_alone_source before shares active
    refine ⟨share, maintenance, kept, moved, fun j ne => ?_⟩
    rw [(shares.others ne).2, maintained_others before m ne]
  · obtain ⟨given, shares, stays, hands⟩ :=
      charged_tandem before ends unfolded pos active tracked other ne qualifies share_eq
    obtain ⟨takes, maintenance⟩ := shares.takesMaintained before
    have kept : (q.slot a = given.slot a ∧ (q.commit a).uncommitted = (given.commit a).uncommitted) ∧
        ∀ j, j ≠ b → q.volumes j = given.volumes j := by
      rcases Nat.lt_or_ge (s.part.volumes a).thresholds.stop ((s.part.volumes a).remaining - share) with above | at_
      · have same := stays above
        exact ⟨⟨same.slot a, congrArg CommitRow.uncommitted (same.commit a)⟩, fun j _ => same.volumes j⟩
      · have taken := hands at_ _ rfl
        exact ⟨⟨(taken.others ne.symm).1, taken.uncommitted.1 a ne.symm⟩, fun j off => (taken.others off).2⟩
    obtain ⟨⟨slot, account⟩, volumes⟩ := kept
    obtain ⟨-, -, source, -⟩ := shares.undrawn
    refine ⟨takes.keep (volumes a ne.symm) slot account, by rw [volumes a ne.symm, maintenance], fun above => ?_,
      fun at_ => ?_, fun j offA offB => ?_⟩
    · have same := stays above
      refine ⟨?_, ?_, ?_⟩
      · rw [same.active, source]
        exact (before.active c).trans active
      · rw [same.volumes, (shares.others ne).2, maintained_others before m ne]
      · rw [same.commit, shares.uncommitted.1 b ne]
        exact congrArg CommitRow.uncommitted (before.commit b)
    · obtain ⟨-, left, handed⟩ := shares.takesHanded before ne (hands at_ _ rfl)
      exact ⟨fun fell fell_eq => (shares.takesHanded before ne (hands at_ fell fell_eq)).1, left, handed⟩
    · rw [volumes j offB, (shares.others offA).2, maintained_others before m offA]

end Sys2Proof.Machine

end

-- ==== Bands: Volumes ====
section

/-! PROOFS. The volume computation of a band (R86 to R89): the temperature factor, the raw sum, the corrected volume, and the
maintenance share. -/

set_option Elab.async false
namespace Sys2Proof.Machine
open Sys2Proof

/-! ## The temperature factor (R86) -/

theorem keyFactor_eq (keys : Vector Nat 8) {i : Nat} (h : i < 8) : keyFactor keys i = keys[i] := by
  rw [keyFactor, Vector.getElem?_eq_getElem h, Option.getD_some]

theorem temperatureFactor_cold (keys : Vector Nat 8) {t : Nat} (cold : t ≤ 10) : temperatureFactor keys t = keys[0] := by
  rw [temperatureFactor, if_pos cold, keyFactor_eq keys (by omega)]

theorem temperatureFactor_hot (keys : Vector Nat 8) {t : Nat} (hot : 80 ≤ t) : temperatureFactor keys t = keys[7] := by
  rw [temperatureFactor, if_neg (by omega), if_pos hot, keyFactor_eq keys (by omega)]

/-- R86: `d` degrees above the temperature of key `i` the factor lies between that key and the next. -/
theorem temperatureFactor_between (keys : Vector Nat 8) (i : Fin 7) (d : Fin 10) (warm : 0 < 10 * i.val + d.val) :
    temperatureFactor keys (10 + 10 * i.val + d.val)
      = (keys[i.val]'(by omega) * (10 - d.val) + keys[i.val + 1]'(by omega) * d.val + 5) / 10 := by
  have key : (10 + 10 * i.val + d.val - 10) / 10 = i.val := by omega
  have above : (10 + 10 * i.val + d.val - 10) % 10 = d.val := by omega
  rw [temperatureFactor, if_neg (by omega), if_neg (by omega)]
  simp only [key, above, keyFactor_eq keys (show i.val < 8 by omega), keyFactor_eq keys (show i.val + 1 < 8 by omega)]

/-- R86: every temperature is clamped to an outer key or lies between two. -/
theorem temperature_cases (t : Nat) : t ≤ 10 ∨ 80 ≤ t ∨ ∃ (i : Fin 7) (d : Fin 10), 0 < 10 * i.val + d.val ∧
    t = 10 + 10 * i.val + d.val := by
  rcases Nat.lt_or_ge 10 t with above | cold
  · rcases Nat.lt_or_ge t 80 with below | hot
    · exact .inr (.inr ⟨⟨(t - 10) / 10, by omega⟩, ⟨(t - 10) % 10, by omega⟩, by dsimp only; omega, by dsimp only; omega⟩)
    · exact .inr (.inl hot)
  · exact .inl cold

/-- A rounded mean of two numbers with weights that add up to 10 stands between bounds of both. -/
theorem weightedMean_bounds {low high a b d : Nat} (inside : d < 10) (la : low ≤ a) (ha : a ≤ high) (lb : low ≤ b)
    (hb : b ≤ high) : low ≤ (a * (10 - d) + b * d + 5) / 10 ∧ (a * (10 - d) + b * d + 5) / 10 ≤ high := by
  have weights : ∀ n : Nat, n * (10 - d) + n * d = 10 * n := fun n => by
    rw [← Nat.mul_add, Nat.sub_add_cancel (by omega), Nat.mul_comm]
  have lower := Nat.add_le_add (Nat.mul_le_mul_right (10 - d) la) (Nat.mul_le_mul_right d lb)
  have upper := Nat.add_le_add (Nat.mul_le_mul_right (10 - d) ha) (Nat.mul_le_mul_right d hb)
  rw [weights] at lower upper
  omega

theorem temperatureFactor_bounds {keys : Vector Nat 8} (range : ∀ i : Fin 8, 512 ≤ keys[i] ∧ keys[i] ≤ 2047) (t : Nat) :
    512 ≤ temperatureFactor keys t ∧ temperatureFactor keys t ≤ 2047 := by
  rcases temperature_cases t with cold | hot | ⟨i, d, warm, rfl⟩
  · rw [temperatureFactor_cold keys cold]
    exact range 0
  · rw [temperatureFactor_hot keys hot]
    exact range 7
  · rw [temperatureFactor_between keys i d warm]
    obtain ⟨la, ha⟩ := range ⟨i.val, by omega⟩
    obtain ⟨lb, hb⟩ := range ⟨i.val + 1, by omega⟩
    exact weightedMean_bounds d.isLt la ha lb hb

/-- 12.2: a byte of the board that lies in no field of a channel block, so that the block reads the same when it is written. -/
theorem writeByte_channelBlock (p : Part) (b : BankNo) (c : Channel) {a : Nat} (v : Byte)
    (unread : a ≠ bankBase b + 16 + 20 * c.val ∧
      (a < bankBase b + 16 + 20 * c.val + 4 ∨ bankBase b + 16 + 20 * c.val + 20 ≤ a)) :
    (p.writeByte a v).channelBlock b c = p.channelBlock b c := by
  have byte : ∀ x, x ≠ a → (p.writeByte a v).readByte x = p.readByte x := fun _ ne => Memory.read_write_ne _ _ ne
  have field : ∀ x w, a < x ∨ x + w ≤ a → (p.writeByte a v).readField x w = p.readField x w := fun x w apart =>
    congrArg (fieldNumber _) (Memory.readBytes_congr _ _ _ _ fun y _ _ => byte y (by omega))
  unfold Part.channelBlock
  dsimp only
  rw [byte _ (by omega), field _ _ (by omega), field _ _ (by omega), field _ _ (by omega), field _ _ (by omega)]

/-- Settles O33: each case of the factor by the place of the temperature among the keys. -/
theorem temperatureFactor_spec : Obligations.TemperatureFactor :=
  ⟨fun k _ => temperatureFactor_cold k, fun k _ => temperatureFactor_hot k, temperatureFactor_between,
    fun _ t range => temperatureFactor_bounds range t,
    fun p b c j v => writeByte_channelBlock p b c v (by omega)⟩

/-! ## The raw sum, the corrected volume and the maintenance share (R87, R89) -/

/-- The largest count that a field of a channel block holds. -/
abbrev maxCount : Nat := 4294967295

/-- R87: the raw sum of four full counts at the largest drop volumes. -/
theorem rawSum_le {k : Calibration} {b : ChannelBlock} (small : b.small ≤ maxCount) (medium : b.medium ≤ maxCount)
    (large : b.large ≤ maxCount) (spit : b.spit ≤ maxCount) (smallDrop : k.small ≤ 1023) (mediumDrop : k.medium ≤ 1023)
    (largeDrop : k.large ≤ 1023) : rawSum k b ≤ 17575006171140 :=
  calc rawSum k b
      = b.small * k.small + b.medium * k.medium + (b.large + b.spit) * k.large := rfl
    _ ≤ maxCount * 1023 + maxCount * 1023 + (maxCount + maxCount) * 1023 :=
        Nat.add_le_add (Nat.add_le_add (Nat.mul_le_mul small smallDrop) (Nat.mul_le_mul medium mediumDrop))
          (Nat.mul_le_mul (Nat.add_le_add large spit) largeDrop)
    _ = 17575006171140 := rfl

/-- R87: a raw sum within its bound stays below 2⁵⁶ at the largest factor. -/
theorem correctedVolume_lt {k : Calibration} {b : ChannelBlock} (sum : rawSum k b ≤ 17575006171140)
    (range : ∀ i : Fin 8, 512 ≤ k.keys[i] ∧ k.keys[i] ≤ 2047) : correctedVolume k b < 2 ^ 56 :=
  calc correctedVolume k b
      = rawSum k b * temperatureFactor k.keys b.temperature := rfl
    _ ≤ 17575006171140 * 2047 := Nat.mul_le_mul sum (temperatureFactor_bounds range b.temperature).2
    _ < 2 ^ 56 := by decide

/-- R89: the spits are a part of the raw sum, and the residue only adds to the volume. -/
theorem bandMaintenance_le (k : Calibration) (b : ChannelBlock) (residue : Nat) :
    bandMaintenance k b ≤ bandVolume k b residue := by
  have spits : b.spit * k.large ≤ rawSum k b :=
    calc b.spit * k.large
        ≤ (b.large + b.spit) * k.large := Nat.mul_le_mul_right _ (Nat.le_add_left _ _)
      _ ≤ rawSum k b := Nat.le_add_left _ _
  exact Nat.div_le_div_right ((Nat.mul_le_mul_right _ spits).trans (Nat.le_add_right _ residue))

theorem bandMaintenance_unspit {k : Calibration} {b : ChannelBlock} (unspit : b.spit = 0) : bandMaintenance k b = 0 := by
  rw [bandMaintenance, unspit, Nat.zero_mul, Nat.zero_mul, Nat.zero_div]

/-- Settles O34: the formulas are the model's own, and the bounds are those of the lemmas above. -/
theorem volumesAndShares : Obligations.VolumesAndShares := by
  intro k b
  refine ⟨rfl, rfl, fun small medium large spit smallDrop mediumDrop largeDrop range => ?_, rfl, bandMaintenance_le k b,
    bandMaintenance_unspit⟩
  have sum := rawSum_le small medium large spit smallDrop mediumDrop largeDrop
  exact ⟨sum, sum.trans_lt (by decide), correctedVolume_lt sum range⟩

end Sys2Proof.Machine

end

-- ==== Bands: Rest ====
section

/-! PROOFS. The end of a step that starts from a part at rest and leaves the digest engine and the saver nothing to take. -/

set_option Elab.async false
namespace Sys2Proof.Machine
open Sys2Proof

section Still

variable {b q : Part} (quiet : b.Quiet)
include quiet

/-- R35: with the queue and the power state of a part at rest the digest engine takes nothing. -/
theorem takeDigest_still (dg : q.dg = b.dg) (power : q.ps.power = b.ps.power) : q.takeDigest = q := by
  unfold Part.takeDigest
  split
  · rename_i takes
    simp only [dg, Bool.and_eq_true, Bool.not_eq_true'] at takes
    obtain ⟨⟨idle, some⟩, awake⟩ := takes
    have empty := quiet.digests idle (by rw [← awake]; unfold Part.asleep; rw [power])
    rw [empty] at some
    cases some
  · rfl

/-- R52: with the store, the slots and the commit engine of a part at rest the saver takes nothing. -/
theorem saverTake_still (hs : q.hs = b.hs) (sm : q.sm = b.sm) (ce : q.ce = b.ce) (works : q.works = b.works) :
    q.saverTake = q := by
  unfold Part.saverTake Part.saverTakeUpTo
  split
  · rename_i takes
    simp only [hs, works, Bool.and_eq_true, decide_eq_true_eq] at takes
    rw [nextWrite_congr hs sm ce, quiet.saver takes.1 takes.2]
  · rfl

/-- The takes at the end of a step that leaves what the digest engine and the saver look at. -/
theorem takes_still (dg : q.dg = b.dg) (hs : q.hs = b.hs) (sm : q.sm = b.sm) (ce : q.ce = b.ce)
    (power : q.ps.power = b.ps.power) (sequence : q.ps.sequence = b.ps.sequence) : q.takeDigest.saverTake = q := by
  have works : q.works = b.works := by unfold Part.works Part.asleep Part.busy Part.inFoldPhase; rw [power, sequence]
  rw [takeDigest_still quiet dg power, saverTake_still quiet hs sm ce works]

/-- Such a step ends with records, patterns, brightness and output alone. -/
theorem finish_rests (dg : q.dg = b.dg) (hs : q.hs = b.hs) (sm : q.sm = b.sm) (ce : q.ce = b.ce)
    (power : q.ps.power = b.ps.power) (sequence : q.ps.sequence = b.ps.sequence) :
    Part.Acts .closing q (Part.finish b q) := by
  have closes := finish_closes b q
  rwa [takes_still quiet dg hs sm ce power sequence] at closes

/-- R151: with the pending classes, the levels, the mask, the polarity and the sequence of a part at rest the output stays. -/
theorem reviewOutput_still (nu : q.nu = b.nu) (port : q.port = b.port) (sequence : q.ps.sequence = b.ps.sequence) :
    q.reviewOutput = q := by
  have output : (q.interruptActive == q.port.activeHigh) = q.nu.outputHigh := by
    rw [nu, quiet.output, Part.interruptActive, Part.interruptActive, Part.busy, Part.busy, nu, port, sequence]
  rw [Part.reviewOutput, output]

end Still

/-- What is read of a cell or a bank stands to the end of a step that touches only what follows the takes. -/
theorem Part.Acts.readByte_low {p q : Part} (h : Part.Acts .closing p q) {a : Nat} (low : a < 0xD00) :
    q.readByte a = p.readByte a :=
  (h.same (.byte a) (by
    have : ¬ 0xD00 ≤ a := by omega
    simp [Views.closing, this])).symm

theorem Part.Acts.sameCell {p q : Part} (h : Part.Acts .closing p q) (c : CellNo) : p.SameCell c q := fun a _ hi =>
  h.readByte_low (by have := cell_end c; omega)

theorem Part.Acts.answered {p q : Part} (h : Part.Acts .closing p q) {c : CellNo} {r : Result} {n : Half}
    (answered : p.Answered c r n) : q.Answered c r n := answered.keep (h.sameCell c) h

theorem Part.Acts.parkedAs {p q : Part} (h : Part.Acts .closing p q) {c : CellNo} {w : ParkedWork} (parked : p.ParkedAs c w) :
    q.ParkedAs c w where
  state := by rw [Part.cellState, h.sameCell c _ (by omega) (by omega)]; exact parked.state
  parked := by rw [← show p.rq.parked = _ from h.same .parked rfl]; exact parked.parked

end Sys2Proof.Machine

end

-- ==== Bands: BoardWrites ====
section

/-! PROOFS. The engine's writes to the board (R79 to R81, R137, R138, R140): which of them land, which are dropped and counted, and
what a step with one of them leaves as it was. -/

set_option Elab.async false
namespace Sys2Proof.Machine
open Sys2Proof

/-! ## Where a write goes (R137) -/

theorem engineWrite_cell (p : Part) (c : CellNo) {o : Nat} (inside : o < 64) (x y : Byte) :
    p.engineWrite (cellBase c + o) x y = p.writeCell c o x y := by
  have low : cellBase c + o < 0x600 := by have := cell_end c; omega
  have number : (⟨(cellBase c + o) / 64, by omega⟩ : CellNo) = c := Fin.ext (by simp only [cellBase]; omega)
  have offset : (cellBase c + o) % 64 = o := by simp only [cellBase]; omega
  rw [Part.engineWrite, dif_pos low, number, offset]

theorem engineWrite_bank (p : Part) (b : BankNo) {o : Nat} (inside : o < 256) (x y : Byte) :
    p.engineWrite (bankBase b + o) x y = p.writeBank b o x y := by
  have := b.isLt
  have high : ¬ bankBase b + o < 0x600 := by simp only [bankBase]; omega
  have low : bankBase b + o < 0xA00 := by simp only [bankBase]; omega
  have number : (⟨(bankBase b + o - 0x600) / 256, by omega⟩ : BankNo) = b := Fin.ext (by simp only [bankBase]; omega)
  have offset : (bankBase b + o - 0x600) % 256 = o := by simp only [bankBase]; omega
  rw [Part.engineWrite, dif_neg high, dif_pos low, number, offset]

theorem engineWrite_record (p : Part) {a : Nat} (above : 0xA00 ≤ a) (below : a < 0xF00) (x y : Byte) :
    p.engineWrite a x y = p.dropCounted := by
  rw [Part.engineWrite, dif_neg (by omega), dif_neg (by omega), if_pos below]

section Commands

variable {s : State} (running : s.part.busy = false)
include running

theorem engineWrite_running (a : Nat) (x y : Byte) : s.engineWrite a x y = s.after (s.part.engineWrite a x y) :=
  if_neg (by rw [running]; exact Bool.false_ne_true)

theorem exec_boardWrite {w : BitVec 11} (low : 2 * w.toNat < 0xFF0) (x y : Byte) :
    exec (.boardWrite w x y) s = s.after (s.part.engineWrite (2 * w.toNat) x y) :=
  (if_pos (decide_eq_true low)).trans (engineWrite_running running _ x y)

theorem exec_boardWrite_cell (c : CellNo) (n : Fin 32) (x y : Byte) :
    exec (.boardWrite (BitVec.ofNat 11 (32 * c.val + n.val)) x y) s = s.after (s.part.writeCell c (2 * n.val) x y) := by
  have address : 2 * (BitVec.ofNat 11 (32 * c.val + n.val)).toNat = cellBase c + 2 * n.val := by
    rw [BitVec.toNat_ofNat, Nat.mod_eq_of_lt (by omega), cellBase]
    omega
  rw [exec_boardWrite running (by have := cell_end c; omega), address, engineWrite_cell _ _ (by omega)]

theorem exec_boardWrite_bank (b : BankNo) (n : Fin 128) (x y : Byte) :
    exec (.boardWrite (BitVec.ofNat 11 (768 + 128 * b.val + n.val)) x y) s = s.after (s.part.writeBank b (2 * n.val) x y) := by
  have address : 2 * (BitVec.ofNat 11 (768 + 128 * b.val + n.val)).toNat = bankBase b + 2 * n.val := by
    rw [BitVec.toNat_ofNat, Nat.mod_eq_of_lt (by omega), bankBase]
    omega
  rw [exec_boardWrite running (by rw [address, bankBase]; omega), address, engineWrite_bank _ _ (by omega)]

/-- R140: whatever its name, a write of a cell's state byte goes by the code that it carries. -/
theorem exec_cellStateWrite {c : CellNo} {i : Instr} (named : ∃ k, i = .cellArrival c k ∨ i = .cellWithdrawal c k ∨ i = .cellGiveBack c k) :
    ∃ code k, exec i s = s.after (s.part.writeCell c 0 code k) := by
  have run : ∀ code k, s.engineWrite (cellBase c) code k = s.after (s.part.writeCell c 0 code k) := fun code k =>
    (engineWrite_running running _ code k).trans (congrArg s.after (engineWrite_cell s.part c (o := 0) (by omega) code k))
  obtain ⟨k, rfl | rfl | rfl⟩ := named
  · exact ⟨_, k, run CellState.posted.code k⟩
  · exact ⟨_, k, run CellState.free.code k⟩
  · exact ⟨_, k, run CellState.free.code k⟩

theorem exec_bankArrival_write (b : BankNo) (f : Byte) :
    exec (.bankArrival b f) s = s.after (s.part.writeBank b 0 BankState.ready.code f) :=
  (engineWrite_running running _ _ f).trans (congrArg s.after (engineWrite_bank s.part b (o := 0) (by omega) _ f))

theorem exec_bankReopen_write (b : BankNo) (f : Byte) :
    exec (.bankReopen b f) s = s.after (s.part.writeBank b 0 BankState.opened.code f) :=
  (engineWrite_running running _ _ f).trans (congrArg s.after (engineWrite_bank s.part b (o := 0) (by omega) _ f))

end Commands

/-! ## What a write does there (R79, R81, R138, R140) -/

section Writes

variable {p : Part} {c : CellNo} {b : BankNo}

theorem writeCell_taken (taken : p.cellState c = .taken) (o : Nat) (x y : Byte) : p.writeCell c o x y = p.dropCounted := by
  unfold Part.writeCell
  split
  · unfold Part.writeCellState
    rw [taken]
  · rfl

theorem writeCell_lands (free : p.cellState c ≠ .taken) {o : Nat} (data : o ≠ 0) (x y : Byte) :
    p.writeCell c o x y = p.landWord (cellBase c + o) x y := by
  rw [Part.writeCell, if_neg data, if_neg free]

/-- R138, R140: a state byte that is neither POSTED nor FREE. -/
theorem writeCell_forbidden {x : Byte} (notFree : x ≠ 0x00) (notPosted : x ≠ 0x5A) (y : Byte) :
    p.writeCell c 0 x y = p.dropCounted := by
  have codes : x ≠ CellState.free.code ∧ x ≠ CellState.posted.code := ⟨notFree, notPosted⟩
  unfold Part.writeCell Part.writeCellState
  rw [if_pos rfl, if_neg codes.1, if_neg codes.2, if_neg codes.1, if_neg codes.2]
  split <;> rfl

theorem writeBank_ready (ready : p.bankState b = .ready) (o : Nat) (x y : Byte) : p.writeBank b o x y = p.dropOverrun := by
  unfold Part.writeBank
  rw [ready]

theorem writeBank_open (unready : p.bankState b ≠ .ready) (o : Nat) (x y : Byte) : p.writeBank b o x y =
    if o = 0 then p.writeBankState b x y else p.landWord (bankBase b + o) x y := by
  unfold Part.writeBank
  split
  · contradiction
  all_goals rfl

theorem writeBank_lands (unready : p.bankState b ≠ .ready) {o : Nat} (data : o ≠ 0) (x y : Byte) :
    p.writeBank b o x y = p.landWord (bankBase b + o) x y := by
  rw [writeBank_open unready, if_neg data]

theorem writeBank_arrives (unready : p.bankState b ≠ .ready) (awake : p.asleep = false) (f : Byte) :
    p.writeBank b 0 BankState.ready.code f = { p.landWord (bankBase b) BankState.ready.code f with
      au := { p.au with chargeList := p.au.chargeList ++ [.bank b] } } := by
  have asleep : (p.landBankState b .ready f).asleep = false := awake
  rw [writeBank_open unready, if_pos rfl, Part.writeBankState, if_pos rfl, Part.bankArrives]
  exact if_neg (fun wakes => by
    rw [Bool.and_eq_true] at wakes
    exact Bool.noConfusion (asleep.symm.trans wakes.1))

theorem writeBank_reopens (unready : p.bankState b ≠ .ready) (f : Byte) :
    p.writeBank b 0 BankState.opened.code f = p.landWord (bankBase b) BankState.opened.code f := by
  rw [writeBank_open unready, if_pos rfl, Part.writeBankState, if_neg (by decide), if_pos rfl]
  rfl

/-- R79, R138: a state byte that is neither READY nor OPEN. -/
theorem writeBank_forbidden (unready : p.bankState b ≠ .ready) {x : Byte} (notOpen : x ≠ 0x00) (notReady : x ≠ 0x5A) (y : Byte) :
    p.writeBank b 0 x y = p.dropCounted := by
  have codes : x ≠ BankState.opened.code ∧ x ≠ BankState.ready.code := ⟨notOpen, notReady⟩
  rw [writeBank_open unready, if_pos rfl, Part.writeBankState, if_neg codes.2, if_neg codes.1]

end Writes

/-! ## A write that lands (R79, R80, R137) -/

section Lands

variable (p : Part) (a : Nat) (x y : Byte)

theorem landWord_changesOnly : p.ChangesOnly (.bytes a 2) (p.landWord a x y) := fun v kept => by
  cases v with
  | byte n =>
    have outside : n ≠ a ∧ n ≠ a + 1 := by
      simp only [Views.bytes, Bool.and_eq_false_iff, decide_eq_false_iff_not] at kept
      omega
    exact ((Memory.read_write_ne _ _ outside.1).trans (Memory.read_write_ne _ _ outside.2)).symm
  | _ => first | rfl | exact ⟨rfl, rfl⟩ | exact ⟨rfl, rfl, rfl⟩

theorem landWord_reads {p : Part} (wf : Memory.wf p.board = true) :
    (p.landWord a x y).readByte a = x ∧ (p.landWord a x y).readByte (a + 1) = y :=
  ⟨Memory.read_write_self (Memory.wf_write _ _ wf) a x,
    (Memory.read_write_ne _ _ (by omega)).trans (Memory.read_write_self wf (a + 1) y)⟩

end Lands

/-- A step that changes the board below the records, or the charge list, has nothing to do at its end. -/
theorem finish_landed {b : Part} (quiet : b.Quiet) (m : List Host.Cell) (l : List ChargeItem) :
    Part.finish b { b with board := m, au := { b.au with chargeList := l } }
      = { b with board := m, au := { b.au with chargeList := l } } :=
  let q := { b with board := m, au := { b.au with chargeList := l } }
  (finish_calm (q := q) quiet rfl rfl rfl rfl rfl rfl rfl rfl rfl rfl rfl rfl rfl rfl (fun _ => rfl) rfl).trans
    (reviewOutput_still (q := q) quiet rfl rfl rfl)

/-- A command whose whole work is a word that lands. -/
theorem completes_landed {i : Instr} {s : State} {a : Nat} {x y : Byte} {R : Part → Prop} (quiet : s.part.Quiet)
    (run : exec i s = s.after (s.part.landWord a x y)) (result : R (s.part.landWord a x y)) : Completes i s (.bytes a 2) R := by
  have ends : Part.finish s.part (s.part.landWord a x y) = s.part.landWord a x y := finish_landed quiet _ s.part.au.chargeList
  refine ⟨_, run, rfl, ?_, ?_⟩ <;> rw [ends]
  · exact landWord_changesOnly s.part a x y
  · exact result

/-- A command whose whole work is a word that lands, and a bank that joins the charge list. -/
theorem completes_listed {i : Instr} {s : State} {a : Nat} {x y : Byte} {l : List ChargeItem} {R : Part → Prop}
    (quiet : s.part.Quiet)
    (run : exec i s = s.after { s.part.landWord a x y with au := { s.part.au with chargeList := l } })
    (result : R { s.part.landWord a x y with au := { s.part.au with chargeList := l } }) :
    Completes i s (.and (.bytes a 2) (.only .chargeList)) R := by
  have listed := (chargeList_acts (s.part.landWord a x y) l).same
  have same := ((landWord_changesOnly s.part a x y).mono (Views.le_and_left _ _)).trans (listed.mono (Views.le_and_right _ _))
  have ends : Part.finish s.part { s.part.landWord a x y with au := { s.part.au with chargeList := l } } =
    { s.part.landWord a x y with au := { s.part.au with chargeList := l } } := finish_landed quiet _ l
  refine ⟨_, run, rfl, ?_, ?_⟩ <;> rw [ends]
  · exact same
  · exact result

/-- R137, R176: the word of a bank's state byte and flags byte, as an engine read shows it outside a sequence. -/
theorem readWord_bank {p : Part} (running : p.busy = false) (b : BankNo) :
    p.readWord (BitVec.ofNat 11 (768 + 128 * b.val)) = (p.readByte (bankBase b), p.readByte (bankBase b + 1) &&& 1) := by
  have := b.isLt
  have address : 2 * (BitVec.ofNat 11 (768 + 128 * b.val)).toNat = bankBase b := by
    rw [BitVec.toNat_ofNat, Nat.mod_eq_of_lt (by omega), bankBase]
    omega
  have state : shownBits (bankBase b) = 0xFF := if_neg (by simp only [bankBase]; omega)
  have flags : shownBits (bankBase b + 1) = 1 := if_pos (by simp only [bankBase]; omega)
  have whole : ∀ v : Byte, v &&& 0xFF = v := fun v => BitVec.and_allOnes
  have below : bankBase b < 0xA00 := by simp only [bankBase]; omega
  unfold Part.readWord
  dsimp only
  rw [address, if_neg (by omega), running, if_neg (by simp only [Bool.false_or, decide_eq_true_eq]; omega),
    Part.shownByte, Part.shownByte, state, flags, whole]

/-- The state that a bank shows, and its word, after a state byte with its flags byte has landed. -/
theorem landed_bank {q : Part} {b : BankNo} {st : BankState} {f : Byte} (running : q.busy = false)
    (reads : q.readByte (bankBase b) = st.code ∧ q.readByte (bankBase b + 1) = f) :
    q.bankState b = st ∧ q.readByte (bankBase b + 1) = f ∧
      q.readWord (BitVec.ofNat 11 (768 + 128 * b.val)) = (st.code, f &&& 1) := by
  have shown : bankStateOf st.code = st := by cases st <;> decide
  exact ⟨by rw [Part.bankState, reads.1, shown], reads.2, by rw [readWord_bank running, reads.1, reads.2]⟩

/-- Settles O39: every such write is a word that lands, at an arrival with the bank on the charge list. -/
theorem bankAndBoardWrites : Obligations.BankAndBoardWrites := by
  intro s normal quiet wf
  refine ⟨fun b f unready => ⟨?_, ?_⟩, fun c n x y data free => ?_, fun b n x y data unready => ?_⟩
  · have run := exec_bankArrival_write normal.running b f
    rw [writeBank_arrives unready normal.awake] at run
    obtain ⟨state, flags, word⟩ := landed_bank (st := .ready) (q := s.part.landWord (bankBase b) BankState.ready.code f)
      normal.running (landWord_reads _ _ _ wf)
    exact completes_listed quiet run ⟨state, flags, word, rfl⟩
  · have run := exec_bankReopen_write normal.running b f
    rw [writeBank_reopens unready] at run
    exact completes_landed quiet run (landed_bank (st := .opened) normal.running (landWord_reads _ _ _ wf))
  · have run := exec_boardWrite_cell normal.running c n x y
    rw [writeCell_lands free (by have := Fin.val_ne_of_ne data; simp only [Fin.val_zero] at this; omega)] at run
    exact completes_landed quiet run (landWord_reads _ _ _ wf)
  · have run := exec_boardWrite_bank normal.running b n x y
    rw [writeBank_lands unready (by have := Fin.val_ne_of_ne data; simp only [Fin.val_zero] at this; omega)] at run
    exact completes_landed quiet run (landWord_reads _ _ _ wf)

/-! ## A write that is dropped (R81, R138) -/

/-- What the port's count of a dropped write touches. -/
def Views.dropping : Views := Views.and (.only .portCounters) (.only .pending)

/-- What a step with a dropped write touches. -/
abbrev Views.dropped : Views := .and (.bytes partInfoBase 128) (.and (.only .portCounters) (.and (.only .pending) (.only .output)))

theorem Views.dropping_le_dropped : Views.le .dropping .dropped := fun v h => by
  cases v <;> simp_all [Views.dropping, Views.and, Views.only]

theorem dropCounted_drops (p : Part) : Part.Acts .dropping p p.dropCounted := by
  refine Part.Acts.trans (q := { p with port := { p.port with droppedWrites := satAdd max16 p.port.droppedWrites 1 } })
    (.raw fun v kept => ?_) (raise_acts _ _)
  cases v <;> first | rfl | exact ⟨rfl, rfl⟩ | exact ⟨rfl, rfl, rfl⟩ | exact absurd kept (by decide)

theorem dropOverrun_drops (p : Part) : Part.Acts .dropping p p.dropOverrun := by
  refine (dropCounted_drops p).trans (Part.Acts.trans (q := { p.dropCounted with
    port := { p.dropCounted.port with bankOverruns := satAdd max16 p.dropCounted.port.bankOverruns 1 } })
    (.raw fun v kept => ?_) (raise_acts _ _))
  cases v <;> first | rfl | exact ⟨rfl, rfl⟩ | exact ⟨rfl, rfl, rfl⟩ | exact absurd kept (by decide)

theorem raise_pending (p : Part) (n : NoticeClass) : (p.raise n).noticePending n = true := by
  cases n <;> simp [Part.noticePending, Part.raise, NoticeClass.bit]

theorem recordPartInfo_acts_own (p : Part) : Part.Acts (.bytes partInfoBase 128) p p.recordPartInfo :=
  writeRecord_acts p _ .partInfo _ (partInfoFields_fit p) fun a lo hi => by
    simp only [RecordId.base, RecordId.size] at lo hi
    simp only [Views.bytes, Bool.and_eq_true, decide_eq_true_eq]
    omega

/-- R102, R147: where no channel and no slot has changed, part information alone can call for a record write. -/
theorem syncRecords_partInfo {b q : Part} (au : q.au = b.au) (sm : q.sm = b.sm) :
    Part.Acts (.bytes partInfoBase 128) q (Part.syncRecords b q) := by
  have fields : ∀ c, b.channelFields c = q.channelFields c := fun c => by
    have e : ∀ r : Part, r.channelFields c = { b with au := r.au, sm := r.sm }.channelFields c := fun _ => rfl
    rw [e q, au, sm]
  have channels : q.forSlots (Part.syncChannel b) = q := forSlots_keeps (P := fun r => r = q) (fun r c e => by
    rw [e, Part.syncChannel, if_pos (fields c)]) rfl
  unfold Part.syncRecords
  split
  · rw [channels]
    unfold Part.syncPartInfo
    split
    · exact .refl _ _
    · exact recordPartInfo_acts_own q
  · exact .refl _ _

/-- R154: with the slots and the patterns of a part at rest the pattern generator chooses what is selected. -/
theorem choosePatterns_still {b q : Part} (quiet : b.Quiet) (sm : q.sm = b.sm) (slots : q.au.slots = b.au.slots)
    (bays : q.bays = b.bays) : q.choosePatterns = q := by
  have chosen : (Vector.ofFn fun c => { q.bay c with selected := selectPattern (q.slot c) (q.volumes c).low (q.volumes c).spent })
      = q.bays := Vector.ext fun n hn => by
    have selected : selectPattern (q.slot ⟨n, hn⟩) (q.volumes ⟨n, hn⟩).low (q.volumes ⟨n, hn⟩).spent = (q.bay ⟨n, hn⟩).selected := by
      simp only [Part.slot, Part.volumes, Part.bay, sm, slots, bays]
      exact (quiet.patterns ⟨n, hn⟩).symm
    rw [Vector.getElem_ofFn, selected]
    rfl
  unfold Part.choosePatterns
  rw [chosen]

/-- The end of a step that changes the port and the notices of a part at rest: the record of part information and the output. -/
theorem finish_dropped {b : Part} (quiet : b.Quiet) (port : Port) (nu : NoticeUnit) :
    Part.Acts (.and (.bytes partInfoBase 128) (.only .output)) { b with port := port, nu := nu }
      (Part.finish b { b with port := port, nu := nu }) := by
  generalize e : ({ b with port := port, nu := nu } : Part) = q
  obtain ⟨dg, hs, sm, ce, power, sequence, au, bays, writes, light⟩ : q.dg = b.dg ∧ q.hs = b.hs ∧ q.sm = b.sm ∧ q.ce = b.ce ∧
      q.ps.power = b.ps.power ∧ q.ps.sequence = b.ps.sequence ∧ q.au = b.au ∧ q.bays = b.bays ∧ q.openWrites = b.openWrites ∧
      q.brightness = b.brightness := by
    subst e
    exact ⟨rfl, rfl, rfl, rfl, rfl, rfl, rfl, rfl, rfl, rfl⟩
  have still : q.takeDigest.saverTake.closeWrites = q := by
    rw [takes_still quiet dg hs sm ce power sequence, Part.closeWrites, ← quiet.writes, ← writes]
  have synced : Part.Acts (.bytes partInfoBase 128) q (Part.syncRecords b q) := syncRecords_partInfo au sm
  obtain ⟨-, sm', -, ps', -, au', -, -, bays'⟩ := syncRecords_parts b q
  have patterns : (Part.syncRecords b q).choosePatterns = Part.syncRecords b q :=
    choosePatterns_still quiet (sm'.trans sm) (congrArg Accounting.slots (au'.trans au)) (bays'.trans bays)
  have brightness : (Part.syncRecords b q).brightness = b.brightness := (synced.same .brightness rfl).symm.trans light
  have power' : (Part.syncRecords b q).ps.power = b.ps.power := (congrArg PowerSupply.power ps').trans power
  unfold Part.finish
  rw [still, patterns, keepBrightness_same power' brightness]
  exact (synced.mono (Views.le_and_left _ _)).trans ((reviewOutput_acts_output _).mono (Views.le_and_right _ _))

/-- A command whose whole work is the count of a dropped write: the counts and the notices stand to the end of the step. -/
theorem completes_dropped {i : Instr} {s : State} {q : Part} (quiet : s.part.Quiet) (run : exec i s = s.after q)
    (e : q = { s.part with port := q.port, nu := q.nu }) (drops : Part.Acts .dropping s.part q) {R : Part → Prop}
    (result : ∀ t : Part, t.port.droppedWrites = q.port.droppedWrites → t.port.bankOverruns = q.port.bankOverruns →
      (∀ n, q.noticePending n = true → t.noticePending n = true) → R t) : Completes i s .dropped R := by
  have ends := finish_dropped quiet q.port q.nu
  rw [← e] at ends
  obtain ⟨dropped, overruns⟩ := ends.same .portCounters rfl
  refine ⟨_, run, rfl, (drops.same.mono Views.dropping_le_dropped).trans (ends.same.mono (Views.and_le (Views.le_and_left _ _) (Views.only_le rfl))),
    result _ dropped.symm overruns.symm fun n => ends.raised _⟩

/-- R138: the write is counted and PORT raised. -/
theorem completes_counted {i : Instr} {s : State} (quiet : s.part.Quiet) (run : exec i s = s.after s.part.dropCounted) :
    Completes i s .dropped fun q => q.port.droppedWrites = satAdd max16 s.part.port.droppedWrites 1 ∧
      q.port.bankOverruns = s.part.port.bankOverruns ∧ q.noticePending .port = true :=
  completes_dropped quiet run rfl (dropCounted_drops _) fun _ dropped overruns notice =>
    ⟨dropped, overruns, notice .port (raise_pending _ .port)⟩

/-- R81: in a READY bank the overrun is counted as well and TALLY raised. -/
theorem completes_overrun {i : Instr} {s : State} (quiet : s.part.Quiet) (run : exec i s = s.after s.part.dropOverrun) :
    Completes i s .dropped fun q => q.port.droppedWrites = satAdd max16 s.part.port.droppedWrites 1 ∧
      q.port.bankOverruns = satAdd max16 s.part.port.bankOverruns 1 ∧ q.noticePending .port = true ∧
      q.noticePending .tally = true :=
  completes_dropped quiet run rfl (dropOverrun_drops _) fun _ dropped overruns notice =>
    ⟨dropped, overruns, notice .port ((raise_acts _ _ (t := .only .pending)).raised _ (raise_pending _ .port)),
      notice .tally (raise_pending _ .tally)⟩

/-- Settles O40: each of these writes is one that the port drops and counts. -/
theorem droppedWrites : Obligations.DroppedWrites := by
  intro s normal quiet
  refine ⟨fun c i taken named => ?_, fun w x y above below => ?_, fun w x y notFree notPosted place => ?_,
    fun b i ready named => ?_⟩
  · refine completes_counted quiet ?_
    rcases named with state | ⟨n, x, y, rfl⟩
    · obtain ⟨code, k, run⟩ := exec_cellStateWrite normal.running state
      rw [run, writeCell_taken taken]
    · rw [exec_boardWrite_cell normal.running, writeCell_taken taken]
  · refine completes_counted quiet ?_
    rw [exec_boardWrite normal.running (by omega), engineWrite_record _ above below]
  · refine completes_counted quiet ?_
    rcases place with ⟨c, -, rfl⟩ | ⟨b, unready, rfl⟩
    · exact (exec_boardWrite_cell normal.running c 0 x y).trans (congrArg s.after (writeCell_forbidden notFree notPosted y))
    · exact (exec_boardWrite_bank normal.running b 0 x y).trans (congrArg s.after (writeBank_forbidden unready notFree notPosted y))
  · refine completes_overrun quiet ?_
    rcases named with ⟨f, rfl | rfl⟩ | ⟨n, x, y, rfl⟩
    · rw [exec_bankArrival_write normal.running, writeBank_ready ready]
    · rw [exec_bankReopen_write normal.running, writeBank_ready ready]
    · rw [exec_boardWrite_bank normal.running, writeBank_ready ready]

end Sys2Proof.Machine

end

-- ==== Bands: Requests ====
section

/-! PROOFS. The requests of the accounting unit: PURGE (R92), SET_THRESHOLDS and RECONCILE (R96, R113 to R115). -/

set_option Elab.async false
namespace Sys2Proof.Machine
open Sys2Proof

/-- R142, R144: a taken cell that is answered at once, without result data. -/
theorem completes_answered_plain {k : Instr} {s : State} {c : CellNo} {r : Result} (wf : Memory.wf s.part.board = true)
    (quiet : s.part.Quiet) (run : exec k s = s.after ((s.part.takeCell c).complete c r [])) :
    Completes k s (.answering c) fun q => q.Answered c r (s.part.rq.completion + 1) :=
  completes_answered quiet (FitsIn.nil _) run (complete_answered (takeCell_wf wf c) c r []).reviewOutput

theorem okOrClamped_decide (p : Prop) [Decidable p] : okOrClamped (decide p) = if p then .clamped else .ok := by
  by_cases h : p <;> simp [okOrClamped, h]

/-! ## PURGE (R92) -/

section Purge

theorem exec_purge {s : State} {c : CellNo} (offers : s.part.Offers (some .purge) c) :
    exec .purge s = s.after ((s.part.takeCell c).doPurge c) := request_offers offers rfl Part.doPurge

/-- R92: the volumes that a PURGE charges, and whether one of them is clamped. -/
def Part.purgeVolumes (p : Part) (c : CellNo) (mask : Half) : Vector Nat 12 :=
  Vector.ofFn fun n => min maxPurge (p.purgeVolume c mask n)

def Part.purgeClamped (p : Part) (c : CellNo) (mask : Half) : Bool :=
  allSlots.any fun n => decide (maxPurge < p.purgeVolume c mask n)

theorem purgeVolumes_get (p : Part) (c : CellNo) (mask : Half) (n : Channel) : (p.purgeVolumes c mask)[n] =
    if mask.getLsbD n.val = true then min 100000000 (p.argument c (4 + 4 * n.val) 4) else 0 := by
  have get : (p.purgeVolumes c mask)[n] = min maxPurge (p.purgeVolume c mask n) := by simp [Part.purgeVolumes]
  rw [get, Part.purgeVolume]
  split
  · rfl
  · exact Nat.min_zero _

theorem purgeClamped_iff (p : Part) (c : CellNo) (mask : Half) : p.purgeClamped c mask = true ↔
    ∃ n : Channel, mask.getLsbD n.val = true ∧ 100000000 < p.argument c (4 + 4 * n.val) 4 := by
  have exceeds : ∀ n : Channel, maxPurge < p.purgeVolume c mask n ↔
      mask.getLsbD n.val = true ∧ 100000000 < p.argument c (4 + 4 * n.val) 4 := fun n => by
    unfold Part.purgeVolume maxPurge
    split <;> simp_all
  simp only [Part.purgeClamped, List.any_eq_true, decide_eq_true_eq, mem_allSlots, true_and, exceeds]

/-- R92: a PURGE that parks. -/
def Part.purgeParked (p : Part) (c : CellNo) (mask : Half) : Part :=
  Part.park { p.takeCell c with
    au := { p.au with chargeList := p.au.chargeList ++ [.purge c mask (p.purgeVolumes c mask) (p.purgeClamped c mask)] } } c .purge

/-- R92: the three answers to a PURGE by its mask. -/
theorem doPurge_eq (p : Part) (c : CellNo) : (p.takeCell c).doPurge c =
    if 4096 ≤ (BitVec.ofNat 16 (p.argument c 0 2)).toNat then (p.takeCell c).complete c .badArgument []
    else if (BitVec.ofNat 16 (p.argument c 0 2)) = 0 then (p.takeCell c).complete c .ok []
    else p.purgeParked c (BitVec.ofNat 16 (p.argument c 0 2)) := by
  have volume : ∀ mask n, (p.takeCell c).purgeVolume c mask n = p.purgeVolume c mask n := fun mask n => by
    rw [Part.purgeVolume, Part.purgeVolume, takeCell_argument]
  unfold Part.doPurge
  simp only [takeCell_argument, volume]
  rfl

theorem purgeParked_acts (p : Part) (c : CellNo) (mask : Half) :
    Part.Acts (.and (.answering c) (.only .chargeList)) p (p.purgeParked c mask) :=
  ((takeCell_acts_answering p c).mono (Views.le_and_left _ _)).trans
    (((chargeList_acts _ _).mono (Views.le_and_right _ _)).trans ((park_acts _ c .purge).mono (Views.only_le rfl)))

theorem purgeParked_parked {p : Part} (wf : Memory.wf p.board = true) (c : CellNo) (mask : Half) :
    (p.purgeParked c mask).ParkedAs c .purge :=
  ⟨takeCell_cellState wf c, List.mem_append_right _ (List.mem_singleton_self _)⟩

/-- Settles O48: the request is answered by its mask, or parks at the tail of the charge list. -/
theorem purgeParks : Obligations.PurgeParks := by
  intro s c mask quiet wf offers mask_eq
  have run := exec_purge offers
  rw [doPurge_eq, ← mask_eq] at run
  refine ⟨fun some_ below => ?_, fun empty => ?_, fun above => ?_⟩
  · rw [if_neg (by omega), if_neg (fun zero => by rw [zero] at some_; exact absurd some_ (by decide))] at run
    have calm : Part.finish s.part (s.part.purgeParked c mask) = (s.part.purgeParked c mask).reviewOutput :=
      finish_calm quiet rfl rfl rfl rfl rfl rfl rfl rfl rfl rfl rfl rfl rfl rfl (fun _ => rfl) rfl
    have acts := (purgeParked_acts s.part c mask).trans
      ((reviewOutput_acts_output _).mono (Views.only_le rfl))
    have parked := purgeParked_parked wf c mask
    refine ⟨_, run, rfl, ?_, ?_⟩ <;> rw [calm]
    · exact acts.same
    · exact ⟨⟨parked.state, parked.parked⟩, s.part.purgeVolumes c mask, s.part.purgeClamped c mask, rfl,
        purgeVolumes_get s.part c mask, purgeClamped_iff s.part c mask⟩
  · rw [if_neg (by rw [empty]; decide), if_pos empty] at run
    exact completes_answered_plain wf quiet run
  · rw [if_pos above] at run
    exact completes_answered_plain wf quiet run

end Purge

/-! ## What a setting of volumes leaves (R96, R113, R115) -/

/-- Between `p` and `q` nothing changes but the accounting unit, the records with their writes under way, and the notices. -/
def Part.Sets (p q : Part) : Prop := q = { p with board := q.board, openWrites := q.openWrites, au := q.au, nu := q.nu }

theorem Part.Sets.refl (p : Part) : p.Sets p := rfl

theorem Part.Sets.trans {p q r : Part} (h : p.Sets q) (k : q.Sets r) : p.Sets r := by
  unfold Part.Sets at *
  rw [k, h]

/-- R35, R52: to a part at rest such work gives neither the digest engine nor the saver anything to take. -/
theorem Part.Sets.rests {b p q : Part} (h : p.Sets q) (quiet : b.Quiet) (dg : p.dg = b.dg) (hs : p.hs = b.hs)
    (sm : p.sm = b.sm) (ce : p.ce = b.ce) (power : p.ps.power = b.ps.power) (sequence : p.ps.sequence = b.ps.sequence) :
    Part.Acts .closing q (Part.finish b q) := by
  have kept : q.dg = p.dg ∧ q.hs = p.hs ∧ q.sm = p.sm ∧ q.ce = p.ce ∧ q.ps = p.ps := by rw [h]; exact ⟨rfl, rfl, rfl, rfl, rfl⟩
  obtain ⟨dg', hs', sm', ce', ps'⟩ := kept
  exact finish_rests quiet (dg'.trans dg) (hs'.trans hs) (sm'.trans sm) (ce'.trans ce) (by rw [ps', power]) (by rw [ps', sequence])

theorem recordVolumes_sets (p : Part) (i : Slot) : p.Sets (p.recordVolumes i) := by
  unfold Part.recordVolumes
  rcases writeSlotRecord_cases p .accountingUnit i (p.slotVolumeFields i) with ⟨-, e⟩ | ⟨-, e⟩ <;> rw [e] <;> rfl

theorem reselectFor_sets (p : Part) (i : Slot) : p.Sets (p.reselectFor i) := by
  unfold Part.reselectFor
  split <;> rfl

/-- R106, R113, R115: what follows a change of a slot's volumes: its record is written and its channel re-selected. -/
def Part.volumesShown (p : Part) (i : Slot) : Part := (p.recordVolumes i).reselectFor i

theorem volumesShown_sets (p : Part) (i : Slot) : p.Sets (p.volumesShown i) :=
  (recordVolumes_sets p i).trans (reselectFor_sets _ i)

theorem volumesShown_acts (p : Part) (i : Slot) : Part.Acts (.and (.slotRecord i) .channels) p (p.volumesShown i) :=
  ((recordVolumes_acts p i).mono (Views.le_and_left _ _)).trans ((reselectFor_acts _ i).mono (Views.le_and_right _ _))

theorem volumesShown_volumes (p : Part) (i j : Slot) : (p.volumesShown i).volumes j = p.volumes j :=
  ((volumesShown_acts p i).same (.volumes j) rfl).symm

theorem volumesShown_wf {p : Part} (wf : Memory.wf p.board = true) (i : Slot) : Memory.wf (p.volumesShown i).board = true := by
  have board : (p.volumesShown i).board = (p.recordVolumes i).board := by
    unfold Part.volumesShown Part.reselectFor
    split <;> rfl
  rw [board]
  exact writeSlotRecord_wf p _ i _ wf

/-! ## A threshold pair takes effect (R113) -/

/-- R113: a slot's volumes under a new pair, which is evaluated where the slot is tracked and in the in-service group. -/
def Volumes.under (v : Volumes) (t : Thresholds) (evaluated : Bool) : Volumes :=
  { v with thresholds := t, pending := none,
           low := if evaluated = true then decide (v.remaining ≤ t.warn) else v.low,
           spent := if evaluated = true then decide (v.remaining ≤ t.stop) else v.spent }

/-- R113: the slot is one whose thresholds are evaluated. -/
def SlotRow.evaluated (r : SlotRow) : Bool := r.state.inServiceGroup && r.hasClass .tracked

/-- R113: the part with a slot's volumes under a new pair, and the notices that the pair raises. -/
def Part.thresholdsSet (p : Part) (i : Slot) (t : Thresholds) (nu : NoticeUnit) : Part :=
  { p.setVolumes i ((p.volumes i).under t (p.slot i).evaluated) with nu := nu }

theorem evaluated_of_served {r : SlotRow} (served : r.state.inServiceGroup = true) : r.evaluated = r.hasClass .tracked := by
  rw [SlotRow.evaluated, served, Bool.true_and]

theorem thresholdsEffect_eq (p : Part) (i : Slot) (t : Thresholds) :
    ∃ nu, p.thresholdsEffect i t = (p.thresholdsSet i t nu).volumesShown i := by
  unfold Part.thresholdsEffect
  extract_lets v v' low spent p1 p2
  split
  · rename_i evaluated
    have row : (p.volumes i).under t (p.slot i).evaluated = { v' with low := low, spent := spent } := by
      unfold Volumes.under SlotRow.evaluated
      rw [if_pos evaluated, if_pos evaluated]
    simp only [Part.thresholdsSet, row]
    unfold p2
    split
    · exact ⟨_, rfl⟩
    · exact ⟨p.nu, rfl⟩
  · rename_i unevaluated
    have row : (p.volumes i).under t (p.slot i).evaluated = v' := by
      unfold Volumes.under SlotRow.evaluated
      rw [if_neg unevaluated, if_neg unevaluated]
    simp only [Part.thresholdsSet, row]
    exact ⟨p.nu, rfl⟩

theorem thresholdsEffect_volumes (p : Part) (i : Slot) (t : Thresholds) :
    (p.thresholdsEffect i t).volumes i = (p.volumes i).under t (p.slot i).evaluated := by
  obtain ⟨nu, e⟩ := thresholdsEffect_eq p i t
  rw [e, volumesShown_volumes]
  exact Part.setVolumes_volumes_self p i _

theorem thresholdsEffect_volumes_ne (p : Part) {i j : Slot} (ne : j ≠ i) (t : Thresholds) :
    (p.thresholdsEffect i t).volumes j = p.volumes j := by
  obtain ⟨nu, e⟩ := thresholdsEffect_eq p i t
  rw [e, volumesShown_volumes]
  exact Part.setVolumes_volumes_ne p i _ j ne

theorem thresholdsEffect_sets (p : Part) (i : Slot) (t : Thresholds) : p.Sets (p.thresholdsEffect i t) := by
  obtain ⟨nu, e⟩ := thresholdsEffect_eq p i t
  rw [e]
  exact Part.Sets.trans (q := p.thresholdsSet i t nu) rfl (volumesShown_sets _ i)

theorem thresholdsEffect_wf {p : Part} (wf : Memory.wf p.board = true) (i : Slot) (t : Thresholds) :
    Memory.wf (p.thresholdsEffect i t).board = true := by
  obtain ⟨nu, e⟩ := thresholdsEffect_eq p i t
  rw [e]
  exact volumesShown_wf (p := p.thresholdsSet i t nu) wf i

/-! ## The slot of a SET_THRESHOLDS or a RECONCILE (R114, R115) -/

section Target

variable {p : Part} {c : CellNo} {i : Slot}

theorem volumeTarget_takeCell (p : Part) (c : CellNo) : (p.takeCell c).volumeTarget c = p.volumeTarget c := by
  unfold Part.volumeTarget
  rw [takeCell_target]
  rfl

theorem volumeTarget_takeService (p : Part) (c : CellNo) : (p.takeService c).volumeTarget c = p.volumeTarget c :=
  volumeTarget_takeCell p c

theorem volumeTarget_served (target : p.target c = some i) (served : (p.slot i).state.inServiceGroup = true) :
    p.volumeTarget c = .inr i := by
  unfold Part.volumeTarget
  rw [target]
  dsimp only
  generalize (p.slot i).state = state at served
  cases state with
  | inService | reverify | linkLost => rfl
  | empty | settling | identify | derive | challenge | check | resolve | rejected => cases served

theorem volumeTarget_untargeted (far : 11 < (p.targetByte c).toNat) : p.volumeTarget c = .inl .badArgument := by
  unfold Part.volumeTarget
  rw [target_none far]

theorem volumeTarget_absent (target : p.target c = some i)
    (absent : (p.slot i).state = .empty ∨ (p.slot i).state = .settling ∨ (p.slot i).state = .rejected) :
    p.volumeTarget c = .inl .noCartridge := by
  unfold Part.volumeTarget
  rw [target]
  rcases absent with e | e | e <;> simp only [e]

theorem volumeTarget_rising (target : p.target c = some i) (rising : (p.slot i).state.bringUp = true) :
    p.volumeTarget c = .inl .busy := by
  unfold Part.volumeTarget
  rw [target]
  dsimp only
  generalize (p.slot i).state = state at rising
  cases state with
  | identify | derive | challenge | check | resolve => rfl
  | empty | settling | inService | reverify | linkLost | rejected => cases rising

end Target

/-! ## SET_THRESHOLDS and RECONCILE (R113 to R115) -/

section VolumeRequests

variable {s : State} {c : CellNo}

theorem exec_setThresholds (offers : s.part.Offers (some .setThresholds) c) :
    exec .setThresholds s = s.after ((s.part.takeCell c).doSetThresholds c) := request_offers offers rfl Part.doSetThresholds

theorem exec_reconcile (offers : s.part.Offers (some .reconcile) c) (mode : s.part.ps.serviceMode = true) :
    exec .reconcile s = s.after ((s.part.takeService c).doReconcile c) := request_service offers rfl mode Part.doReconcile

/-- A request that sets volumes and is answered: the answer and the volumes stand to the end of the step. -/
theorem completes_set {k : Instr} {p q : Part} {r : Result} {R : Part → Prop} (quiet : s.part.Quiet)
    (run : exec k s = s.after (q.complete c r [])) (sets : p.Sets q) (wf : Memory.wf q.board = true)
    (dg : p.dg = s.part.dg) (hs : p.hs = s.part.hs) (sm : p.sm = s.part.sm) (ce : p.ce = s.part.ce)
    (power : p.ps.power = s.part.ps.power) (sequence : p.ps.sequence = s.part.ps.sequence)
    (number : p.rq.completion = s.part.rq.completion) (result : ∀ t : Part, (∀ j, t.volumes j = q.volumes j) → R t) :
    Completes k s (.ofCommand k) fun t => t.Answered c r (s.part.rq.completion + 1) ∧ R t := by
  have answered := complete_answered wf c r []
  have completion : q.rq.completion = p.rq.completion := by rw [sets]
  rw [completion, number] at answered
  have completed : p.Sets q → ({ p with rq := (q.complete c r []).rq } : Part).Sets (q.complete c r []) := fun h => by
    unfold Part.Sets at *
    rw [h]
    rfl
  have rests := (completed sets).rests quiet dg hs sm ce power sequence
  exact completes_after run ⟨rests.answered answered, result _ fun j => finish_volumes _ _ j⟩

/-- R114, R115: a request that is refused leaves the volumes. -/
theorem completes_unset {k : Instr} {p : Part} {r : Result} (quiet : s.part.Quiet) (wf : Memory.wf s.part.board = true)
    (taken : p = s.part.takeCell c ∨ p = s.part.takeService c) (run : exec k s = s.after (p.complete c r [])) :
    Completes k s (.ofCommand k) fun q => q.Answered c r (s.part.rq.completion + 1) ∧ ∀ j, q.volumes j = s.part.volumes j := by
  have wf' := takeCell_wf wf c
  rcases taken with rfl | rfl
  · exact completes_set quiet run (.refl _) wf' rfl rfl rfl rfl rfl rfl rfl fun _ volumes => volumes
  · exact completes_set quiet run (.refl _) wf' rfl rfl rfl rfl rfl rfl rfl fun _ volumes => volumes

theorem doSetThresholds_refused {p : Part} {r : Result} (refused : p.volumeTarget c = .inl r) :
    p.doSetThresholds c = p.complete c r [] := by
  unfold Part.doSetThresholds
  rw [refused]

theorem doReconcile_refused {p : Part} {r : Result} (refused : p.volumeTarget c = .inl r) :
    p.doReconcile c = p.complete c r [] := by
  unfold Part.doReconcile
  rw [refused]

/-- R114: SET_THRESHOLDS of a slot in service. -/
theorem doSetThresholds_served {p : Part} {i : Slot} {warn stop : Nat} (target : p.volumeTarget c = .inr i)
    (stop_eq : stop = min (p.argument c 4 4) (ratedVolume (p.slot i).volumeClass))
    (warn_eq : warn = min (max (p.argument c 0 4) stop) (ratedVolume (p.slot i).volumeClass)) :
    p.doSetThresholds c = (p.placeSetting (.thresholds i ⟨warn, stop⟩)).complete c
      (if warn = p.argument c 0 4 ∧ stop = p.argument c 4 4 then .ok else .clamped) [] := by
  have pair : (Thresholds.mk (p.argument c 0 4) (p.argument c 4 4)).clamp (ratedVolume (p.slot i).volumeClass) = ⟨warn, stop⟩ := by
    rw [warn_eq, stop_eq]
    rfl
  have result : okOrClamped (Thresholds.mk warn stop != ⟨p.argument c 0 4, p.argument c 4 4⟩) =
      if warn = p.argument c 0 4 ∧ stop = p.argument c 4 4 then .ok else .clamped := by
    by_cases same : warn = p.argument c 0 4 ∧ stop = p.argument c 4 4 <;> simp [okOrClamped, same]
  unfold Part.doSetThresholds
  rw [target]
  dsimp only
  rw [pair, result]

/-- R115: the volumes of a slot that is reconciled. -/
def Part.reconciled (p : Part) (i : Slot) (remaining : Nat) : Part :=
  (p.setVolumes i ((p.volumes i).reconcile ((p.slot i).hasClass .tracked) remaining)).volumesShown i

theorem doReconcile_served {p : Part} {i : Slot} {given rated : Nat} (target : p.volumeTarget c = .inr i)
    (given_eq : given = p.argument c 0 4) (rated_eq : rated = ratedVolume (p.slot i).volumeClass) :
    p.doReconcile c = (p.reconciled i (min given rated)).complete c (if rated < given then .clamped else .ok) [] := by
  unfold Part.doReconcile
  rw [target]
  dsimp only
  rw [← given_eq, ← rated_eq, okOrClamped_decide]
  rfl

/-- R96: the volumes of a slot after its threshold pair has been placed, and what the placing leaves. -/
theorem placeThresholds_sets (p : Part) (i : Slot) (t : Thresholds) : p.Sets (p.placeSetting (.thresholds i t)) := by
  unfold Part.placeSetting
  split
  · exact thresholdsEffect_sets p i t
  · rfl

theorem placeThresholds_wf {p : Part} (wf : Memory.wf p.board = true) (i : Slot) (t : Thresholds) :
    Memory.wf (p.placeSetting (.thresholds i t)).board = true := by
  unfold Part.placeSetting
  split
  · exact thresholdsEffect_wf wf i t
  · exact wf

/-- R96: between pages, with no bank on the charge list, a setting takes effect at once. -/
theorem placeSetting_now {p : Part} (between : p.au.betweenPages = true) (none : p.bankWaits = false) (item : SettingItem) :
    p.placeSetting item = p.settingEffect item := by
  rw [Part.placeSetting, between, none]
  rfl

/-- R96: otherwise it is pending. -/
theorem placeSetting_later {p : Part} (later : p.au.betweenPages = false ∨ p.bankWaits = true) (item : SettingItem) :
    p.placeSetting item = p.settingPend item := by
  have pends : (p.au.betweenPages && !p.bankWaits) = false := by rcases later with e | e <;> simp [e]
  rw [Part.placeSetting, pends]
  rfl

theorem placeThresholds_now {p : Part} (between : p.au.betweenPages = true) (none : p.bankWaits = false) (i : Slot) (t : Thresholds) :
    (p.placeSetting (.thresholds i t)).volumes i = (p.volumes i).under t (p.slot i).evaluated := by
  rw [placeSetting_now between none]
  exact thresholdsEffect_volumes p i t

theorem placeThresholds_later {p : Part} (later : p.au.betweenPages = false ∨ p.bankWaits = true) (i : Slot) (t : Thresholds) :
    (p.placeSetting (.thresholds i t)).volumes i = { p.volumes i with pending := some t } := by
  rw [placeSetting_later later]
  exact Part.setVolumes_volumes_self p i _

end VolumeRequests

/-- Settles O44: a refused request changes nothing but its cell, and a served one the volumes of its slot. -/
theorem thresholdsAndReconcile : Obligations.ThresholdsAndReconcile := by
  intro s c quiet wf
  refine ⟨fun k cmd r kinds offers service why => ?_, fun i target served => ⟨fun stop warn offers stop_eq warn_eq => ?_,
    fun given rated offers mode given_eq rated_eq => ?_⟩⟩
  · have refused : s.part.volumeTarget c = .inl r := by
      rcases why with ⟨far, rfl⟩ | ⟨i, target, ⟨absent, rfl⟩ | ⟨rising, rfl⟩⟩
      · exact volumeTarget_untargeted far
      · exact volumeTarget_absent target absent
      · exact volumeTarget_rising target rising
    simp only [List.mem_cons, Prod.mk.injEq, List.not_mem_nil, or_false] at kinds
    rcases kinds with ⟨rfl, rfl⟩ | ⟨rfl, rfl⟩
    · have run := exec_setThresholds offers
      rw [doSetThresholds_refused ((volumeTarget_takeCell s.part c).trans refused)] at run
      exact completes_unset quiet wf (.inl rfl) run
    · have run := exec_reconcile offers (service rfl)
      rw [doReconcile_refused ((volumeTarget_takeService s.part c).trans refused)] at run
      exact completes_unset quiet wf (.inr rfl) run
  · have run := exec_setThresholds offers
    rw [doSetThresholds_served ((volumeTarget_takeCell s.part c).trans (volumeTarget_served target served)) (warn := warn)
      (stop := stop) (by rw [takeCell_argument]; exact stop_eq) (by rw [takeCell_argument]; exact warn_eq),
      takeCell_argument, takeCell_argument] at run
    refine completes_set quiet run (placeThresholds_sets _ i _) (placeThresholds_wf (takeCell_wf wf c) i _)
      rfl rfl rfl rfl rfl rfl rfl fun t volumes => ⟨fun between none => ?_, fun later => ?_⟩ <;> rw [volumes]
    · rw [placeThresholds_now (p := s.part.takeCell c) between none]
      exact congrArg ((s.part.volumes i).under ⟨warn, stop⟩) (evaluated_of_served served)
    · exact placeThresholds_later (p := s.part.takeCell c) later i _
  · have run := exec_reconcile offers mode
    rw [doReconcile_served (given := given) (rated := rated) ((volumeTarget_takeService s.part c).trans (volumeTarget_served target served))
      (by rw [takeService_argument]; exact given_eq) rated_eq] at run
    refine completes_set quiet run (p := s.part.takeService c) (volumesShown_sets _ i)
      (volumesShown_wf (p := (s.part.takeService c).setVolumes i _) (takeCell_wf wf c) i) rfl rfl rfl rfl rfl rfl rfl fun t volumes => ?_
    rw [volumes, Part.reconciled, volumesShown_volumes, Part.setVolumes_volumes_self]
    rfl

end Sys2Proof.Machine

end

-- ==== Bands: SettingsRequests ====
section

/-! PROOFS. LOAD_CALIBRATION and SET_FEED, to the take of the settings page by the saver (R94, R116, R165, R166). -/

set_option Elab.async false
namespace Sys2Proof.Machine
open Sys2Proof

/-! ## The calibration that is asked for (R94) -/

theorem clampTo_eq_self_iff {low high v : Nat} (ordered : low ≤ high) : clampTo low high v = v ↔ low ≤ v ∧ v ≤ high := by
  unfold clampTo
  omega

theorem clamp_keys (k : Calibration) (j : Fin 8) : k.clamp.keys[j] = clampTo 512 2047 k.keys[j] := by
  simp [Calibration.clamp]

theorem clamp_eq_self_iff (k : Calibration) : k.clamp = k ↔
    k.small ≤ 1023 ∧ k.medium ≤ 1023 ∧ k.large ≤ 1023 ∧ ∀ j : Fin 8, 512 ≤ k.keys[j] ∧ k.keys[j] ≤ 2047 := by
  have keys : k.clamp.keys = k.keys ↔ ∀ j : Fin 8, 512 ≤ k.keys[j] ∧ k.keys[j] ≤ 2047 := by
    constructor
    · intro same j
      rw [← clampTo_eq_self_iff (by decide), ← clamp_keys, same]
    · intro inRange
      refine Vector.ext fun j h => ?_
      have get := clamp_keys k ⟨j, h⟩
      rwa [(clampTo_eq_self_iff (by decide)).2 (inRange ⟨j, h⟩)] at get
  rw [← keys]
  obtain ⟨small, medium, large, ks⟩ := k
  simp [Calibration.clamp]

theorem clamp_ne_self_iff (k : Calibration) : (k.clamp != k) = true ↔
    1023 < k.small ∨ 1023 < k.medium ∨ 1023 < k.large ∨ ∃ j : Fin 8, k.keys[j] < 512 ∨ 2047 < k.keys[j] := by
  rw [bne_iff_ne, Ne, clamp_eq_self_iff]
  simp only [not_and_or, not_le, not_forall]

theorem givenCalibration_keys (p : Part) (c : CellNo) (j : Fin 8) :
    (p.givenCalibration c).keys[j] = p.argument c (6 + 2 * j.val) 2 := by
  simp [Part.givenCalibration]

/-- R94: the setting that a LOAD_CALIBRATION asks for. -/
def Part.calibrationAsked (p : Part) (c : CellNo) (n : Channel) : SettingsRequest :=
  ⟨c, n, .calibration (p.givenCalibration c).clamp, (p.givenCalibration c).clamp != p.givenCalibration c⟩

theorem calibrationAsked_clamped (p : Part) (c : CellNo) (n : Channel) : (p.calibrationAsked c n).clamped = true ↔
    1023 < p.argument c 0 2 ∨ 1023 < p.argument c 2 2 ∨ 1023 < p.argument c 4 2 ∨
      ∃ j : Fin 8, p.argument c (6 + 2 * j.val) 2 < 512 ∨ 2047 < p.argument c (6 + 2 * j.val) 2 := by
  rw [Part.calibrationAsked, clamp_ne_self_iff]
  simp only [givenCalibration_keys]
  rfl

theorem clamp_key (p : Part) (c : CellNo) (j : Fin 8) :
    (p.givenCalibration c).clamp.keys[j] = max 512 (min 2047 (p.argument c (6 + 2 * j.val) 2)) := by
  rw [clamp_keys, givenCalibration_keys]
  rfl

theorem doLoadCalibration_eq (p : Part) (c : CellNo) {n : Channel} (target : p.target c = some n) :
    (p.takeService c).doLoadCalibration c = (p.takeService c).queueSettings (p.calibrationAsked c n) := by
  have given : (p.takeService c).givenCalibration c = p.givenCalibration c := by
    simp only [Part.givenCalibration, takeService_argument]
  have target' : (p.takeService c).target c = some n := (takeCell_target p c).trans target
  unfold Part.doLoadCalibration
  rw [target']
  dsimp only
  rw [given]
  rfl

/-! ## The feed that is asked for (R116) -/

theorem slotOf_eq {b : Byte} (inRange : b.toNat < 12) : ∃ i : Slot, slotOf b = some i ∧ i.val = b.toNat :=
  ⟨⟨b.toNat, inRange⟩, dif_pos inRange, rfl⟩

theorem feedSlot_none : feedSlot 255 = some none := rfl

theorem feedSlot_slot {b : Byte} {i : Slot} (h : slotOf b = some i) (inRange : b.toNat < 12) : feedSlot b = some (some i) := by
  have ne : b ≠ 255 := fun e => by rw [e] at inRange; exact absurd inRange (by decide)
  rw [feedSlot, if_neg ne, h]
  rfl

theorem feedSlot_bad {b : Byte} (far : 12 ≤ b.toNat) (ne : b ≠ 255) : feedSlot b = none := by
  rw [feedSlot, if_neg ne, slotOf, dif_neg (by omega)]
  rfl

theorem checkedFeed_bad_primary {ink a b : Byte} (bad : feedSlot a = none) : checkedFeed ink a b = none := by
  rw [checkedFeed, bad]

theorem checkedFeed_bad_secondary {ink a b : Byte} (bad : feedSlot b = none) : checkedFeed ink a b = none := by
  rw [checkedFeed, bad]
  rcases feedSlot a with _ | _ | _ <;> rfl

/-- A slot field of a SET_FEED names no slot, names one, or is neither. -/
theorem feedSlot_cases (b : Byte) : (b = 255 ∧ feedSlot b = some none) ∨
    (b.toNat < 12 ∧ ∃ i : Slot, slotOf b = some i ∧ i.val = b.toNat ∧ feedSlot b = some (some i)) ∨
    (12 ≤ b.toNat ∧ b ≠ 255 ∧ feedSlot b = none) := by
  by_cases none_ : b = 255
  · exact .inl ⟨none_, by rw [none_]; rfl⟩
  by_cases inRange : b.toNat < 12
  · obtain ⟨i, slot, number⟩ := slotOf_eq inRange
    exact .inr (.inl ⟨inRange, i, slot, number, feedSlot_slot slot inRange⟩)
  · exact .inr (.inr ⟨by omega, none_, feedSlot_bad (by omega) none_⟩)

/-- R116: what the check made at once gives for a feed that names a primary and perhaps a secondary slot, or no slot. -/
theorem checkedFeed_good {ink a b : Byte} {f : Feed} (known : ink ≠ 255) (same : f.ink = ink)
    (names : a.toNat < 12 ∧ f.primary = slotOf a ∧
        (b = 255 ∧ f.secondary = none ∨ b.toNat < 12 ∧ b ≠ a ∧ f.secondary = slotOf b) ∨
      a = 255 ∧ b = 255 ∧ f.primary = none ∧ f.secondary = none) : checkedFeed ink a b = some f := by
  obtain ⟨fink, primary, secondary⟩ := f
  dsimp only at same names
  subst same
  rcases names with ⟨inRange, rfl, second⟩ | ⟨rfl, rfl, rfl, rfl⟩
  · obtain ⟨i, slot, number⟩ := slotOf_eq inRange
    rcases second with ⟨rfl, rfl⟩ | ⟨inRange', ne, rfl⟩
    · rw [checkedFeed, feedSlot_slot slot inRange, feedSlot_none, slot]
      exact if_neg (not_or.2 ⟨known, by simp⟩)
    · obtain ⟨j, slot', number'⟩ := slotOf_eq inRange'
      have apart : j ≠ i := fun e => ne (BitVec.eq_of_toNat_eq (by rw [← number, ← number', e]))
      rw [checkedFeed, feedSlot_slot slot inRange, feedSlot_slot slot' inRange', slot, slot']
      exact if_neg (not_or.2 ⟨known, by simp [apart]⟩)
  · rw [checkedFeed, feedSlot_none]
    exact if_neg known

/-- R116: the check made at once fails for an ink code of 255, a field that is not a slot, a secondary slot alone, and one slot
twice. -/
theorem checkedFeed_bad {ink a b : Byte}
    (bad : ink = 255 ∨ 12 ≤ a.toNat ∧ a ≠ 255 ∨ 12 ≤ b.toNat ∧ b ≠ 255 ∨ a = 255 ∧ b ≠ 255 ∨ a.toNat < 12 ∧ b = a) :
    checkedFeed ink a b = none := by
  rcases feedSlot_cases a with ⟨a255, fa⟩ | ⟨aSlot, i, -, -, fa⟩ | ⟨-, -, fa⟩
  · rcases feedSlot_cases b with ⟨b255, fb⟩ | ⟨-, j, -, -, fb⟩ | ⟨-, -, fb⟩
    · have unknown : ink = 255 := by
        subst a255 b255
        simpa using bad
      rw [checkedFeed, fa, fb]
      exact if_pos unknown
    · rw [checkedFeed, fa, fb]
    · exact checkedFeed_bad_secondary fb
  · have primary : a ≠ 255 := fun e => by rw [e] at aSlot; exact absurd aSlot (by decide)
    rcases feedSlot_cases b with ⟨b255, fb⟩ | ⟨bSlot, j, -, -, fb⟩ | ⟨-, -, fb⟩
    · have unknown : ink = 255 := by
        rcases bad with h | h | h | h | h
        · exact h
        · omega
        · exact absurd b255 h.2
        · exact absurd h.1 primary
        · exact absurd (h.2.symm.trans b255) primary
      rw [checkedFeed, fa, fb]
      exact if_pos (.inl unknown)
    · have unfit : ink = 255 ∨ b = a := by
        rcases bad with h | h | h | h | h
        · exact .inl h
        · omega
        · omega
        · exact absurd h.1 primary
        · exact .inr h.2
      rw [checkedFeed, fa, fb]
      refine if_pos (unfit.imp id fun same => ?_)
      rw [same, fa] at fb
      exact (Option.some.inj fb).symm
    · exact checkedFeed_bad_secondary fb
  · exact checkedFeed_bad_primary fa

section DoSetFeed

variable {p : Part} {c : CellNo}

theorem takeService_argumentByte (p : Part) (c : CellNo) (o : Nat) : (p.takeService c).argumentByte c o = p.argumentByte c o :=
  takeCell_byte p c (by omega)

theorem takeService_target (p : Part) (c : CellNo) : (p.takeService c).target c = p.target c := takeCell_target p c

theorem doSetFeed_good {n : Channel} {f : Feed} (target : p.target c = some n)
    (good : checkedFeed (p.argumentByte c 0) (p.argumentByte c 1) (p.argumentByte c 2) = some f) :
    (p.takeService c).doSetFeed c = (p.takeService c).queueSettings ⟨c, n, .feed f, false⟩ := by
  rw [Part.doSetFeed, takeService_target, target]
  simp only [takeService_argumentByte, good]

theorem doSetFeed_untargeted (target : p.target c = none) :
    (p.takeService c).doSetFeed c = (p.takeService c).complete c .badArgument [] := by
  rw [Part.doSetFeed, takeService_target, target]

theorem doSetFeed_bad (bad : checkedFeed (p.argumentByte c 0) (p.argumentByte c 1) (p.argumentByte c 2) = none) :
    (p.takeService c).doSetFeed c = (p.takeService c).complete c .badArgument [] := by
  unfold Part.doSetFeed
  simp only [takeService_argumentByte, bad]
  cases (p.takeService c).target c <;> rfl

end DoSetFeed

/-! ## The settings write queue of a part at rest (R165, R166) -/

/-- R165: without a next write no counter value and no request waits, and the saver may write no place. -/
theorem nextWrite_none {p : Part} (none_ : p.nextWrite = none) :
    p.writablePlace = none ∧ p.hs.counterWaiting = false ∧ p.hs.settingsQueue = [] := by
  have both : p.writablePlace = none ∧ p.nextStored = none := by
    unfold Part.nextWrite at none_
    split at none_
    · obtain ⟨place, stored⟩ := Option.or_eq_none_iff.1 none_
      exact ⟨Option.map_eq_none_iff.1 place, stored⟩
    · obtain ⟨stored, place⟩ := Option.or_eq_none_iff.1 none_
      exact ⟨Option.map_eq_none_iff.1 place, stored⟩
  obtain ⟨place, stored⟩ := both
  unfold Part.nextStored at stored
  split at stored
  · cases stored
  · rename_i still
    exact ⟨place, by simpa using still, by simpa using stored⟩

section Queued

variable {s : State} {c : CellNo} {r : SettingsRequest}

/-- R166: the part with a settings request taken and queued. -/
def Part.settingAsked (p : Part) (r : SettingsRequest) : Part := (p.takeService r.cell).queueSettings r

theorem settingAsked_parked {p : Part} (wf : Memory.wf p.board = true) (r : SettingsRequest) :
    (p.settingAsked r).ParkedAs r.cell .settings :=
  ⟨takeCell_cellState wf r.cell, List.mem_append_right _ (List.mem_singleton_self _)⟩

theorem settingAsked_takes (p : Part) (r : SettingsRequest) :
    (p.settingAsked r).hs = { p.hs with settingsQueue := p.hs.settingsQueue ++ [r] } ∧ (p.settingAsked r).ps.idleRunning = true :=
  ⟨rfl, rfl⟩

/-- R165: to a part at rest, with the saver idle, the request is the next write and the only one queued. -/
theorem settingAsked_next {p : Part} (quiet : p.Quiet) (idle : p.hs.saver = .idle) (works : p.works = true)
    (r : SettingsRequest) : (p.settingAsked r).nextWrite = some (.settings r) ∧ p.hs.settingsQueue = [] := by
  obtain ⟨place, counter, empty⟩ := nextWrite_none (quiet.saver idle works)
  have place' : (p.settingAsked r).writablePlace = none := place
  have stored : (p.settingAsked r).nextStored = some (.settings r) := by
    unfold Part.nextStored
    simp [(settingAsked_takes p r).1, counter, empty]
  refine ⟨?_, empty⟩
  unfold Part.nextWrite
  simp [place', stored]

/-- R166: the head of the settings write queue is taken from it. -/
def Part.dequeueSetting (p : Part) : Part := { p with hs := { p.hs with settingsQueue := p.hs.settingsQueue.drop 1 } }

/-- R166: the write of the settings page begins. -/
def Part.beginSetting (p : Part) (r : SettingsRequest) : Part :=
  { p with hs := { p.hs with saver := .settings r (Page.withSetting p.hs.page r.channel r.value) false } }

theorem saverTakeUpTo_setting {p : Part} {r : SettingsRequest} (n : Nat) (idle : p.hs.saver = .idle) (works : p.works = true)
    (next : p.nextWrite = some (.settings r)) : Part.saverTakeUpTo (n + 1) p =
      if r.passes p.hs.page = true then p.dequeueSetting.beginSetting r
      else Part.saverTakeUpTo n (p.dequeueSetting.complete r.cell .badArgument []) := by
  have ready : (p.hs.saver = .idle && p.works) = true := by simp [idle, works]
  rw [Part.saverTakeUpTo, if_pos ready, next]
  rfl

theorem saverTakeUpTo_none {p : Part} (n : Nat) (next : p.nextWrite = none) : Part.saverTakeUpTo n p = p := by
  cases n with
  | zero => rfl
  | succ n =>
    unfold Part.saverTakeUpTo
    rw [next]
    exact ite_self _

/-- R166: the part with the request taken, and no longer queued. -/
def Part.settingTaken (p : Part) (r : SettingsRequest) : Part := { p.settingAsked r with hs := p.hs }

theorem settingAsked_takeDigest {p : Part} (quiet : p.Quiet) (r : SettingsRequest) : (p.settingAsked r).takeDigest = p.settingAsked r :=
  takeDigest_still quiet rfl rfl

theorem settingAsked_saverTake {p : Part} (quiet : p.Quiet) (idle : p.hs.saver = .idle) (works : p.works = true)
    (r : SettingsRequest) : (p.settingAsked r).saverTake =
      if r.passes p.hs.page = true then (p.settingTaken r).beginSetting r
      else (p.settingTaken r).complete r.cell .badArgument [] := by
  obtain ⟨next, empty⟩ := settingAsked_next quiet idle works r
  have taken : (p.settingAsked r).dequeueSetting = p.settingTaken r := by
    have hs : { p.hs with settingsQueue := (p.hs.settingsQueue ++ [r]).drop 1 } = p.hs := by
      rw [empty, List.nil_append, List.drop_one, List.tail_cons, ← empty]
    exact congrArg (fun hs => { p.settingAsked r with hs := hs }) hs
  have rest : ((p.settingTaken r).complete r.cell .badArgument []).nextWrite = none :=
    (nextWrite_congr rfl rfl rfl).trans (quiet.saver idle works)
  rw [Part.saverTake, saverTakeUpTo_setting (p := p.settingAsked r) _ idle works next, taken, saverTakeUpTo_none _ rest]
  rfl

/-- R166: a request that is queued with the saver busy, or that passes its check, parks to wait or to be written. -/
theorem completes_parked {k : Instr} (quiet : s.part.Quiet) (wf : Memory.wf s.part.board = true) (works : s.part.works = true)
    (run : exec k s = s.after (s.part.settingAsked r))
    (good : s.part.hs.saver ≠ .idle ∨ r.passes s.part.hs.page = true) :
    Completes k s (.ofCommand k) fun q => q.ParkedAs r.cell .settings ∧ q.ps.idleRunning = true ∧
      (r ∈ q.hs.settingsQueue ∨ ∃ page, q.hs.saver = .settings r page false) := by
  have parked := settingAsked_parked wf r
  have timer : (Part.finish s.part (s.part.settingAsked r)).ps.idleRunning = true := by rw [finish_ps]; rfl
  have closes := finish_closes s.part (s.part.settingAsked r)
  rw [settingAsked_takeDigest quiet] at closes
  by_cases idle : s.part.hs.saver = .idle
  · rw [settingAsked_saverTake quiet idle works, if_pos (good.resolve_left (absurd idle))] at closes
    have begun : ((s.part.settingTaken r).beginSetting r).ParkedAs r.cell .settings := ⟨parked.state, parked.parked⟩
    exact completes_after run ⟨closes.parkedAs begun, timer, .inr ⟨_, (closes.same .saver rfl).symm⟩⟩
  · rw [saverTake_writing (p := s.part.settingAsked r) idle] at closes
    have waits : r ∈ (s.part.settingAsked r).hs.settingsQueue := List.mem_append_right _ (List.mem_singleton_self r)
    refine completes_after run ⟨closes.parkedAs parked, timer, .inl ?_⟩
    rwa [← show _ = (Part.finish s.part (s.part.settingAsked r)).hs.settingsQueue from closes.same .settingsQueue rfl]

/-- R116, R166: a request that the idle saver takes at once and that fails its check completes BAD_ARGUMENT. -/
theorem completes_unfit {k : Instr} (quiet : s.part.Quiet) (wf : Memory.wf s.part.board = true) (works : s.part.works = true)
    (run : exec k s = s.after (s.part.settingAsked r)) (idle : s.part.hs.saver = .idle)
    (unfit : r.passes s.part.hs.page = false) :
    Completes k s (.ofCommand k) fun q =>
      q.Answered r.cell .badArgument (s.part.rq.completion + 1) ∧ q.hs.page = s.part.hs.page := by
  have closes := finish_closes s.part (s.part.settingAsked r)
  rw [settingAsked_takeDigest quiet, settingAsked_saverTake quiet idle works, if_neg (by simp [unfit])] at closes
  have answered : ((s.part.settingTaken r).complete r.cell .badArgument []).Answered r.cell .badArgument (s.part.rq.completion + 1) :=
    complete_answered (p := s.part.settingTaken r) (takeCell_wf wf r.cell) r.cell .badArgument []
  obtain ⟨page, -⟩ := closes.same .page rfl
  exact completes_after run ⟨closes.answered answered, page.symm⟩

/-- R142: a service request that is refused at once. -/
theorem completes_service_refused {k : Instr} {x : Result} (quiet : s.part.Quiet) (wf : Memory.wf s.part.board = true)
    (run : exec k s = s.after ((s.part.takeService c).complete c x [])) :
    Completes k s (.ofCommand k) fun q => q.Answered c x (s.part.rq.completion + 1) :=
  completes_after run ((finish_rests (q := (s.part.takeService c).complete c x []) quiet rfl rfl rfl rfl rfl rfl).answered
    (complete_answered (p := s.part.takeService c) (takeCell_wf wf c) c x []))

theorem exec_loadCalibration (offers : s.part.Offers (some .loadCalibration) c) (mode : s.part.ps.serviceMode = true) :
    exec .loadCalibration s = s.after ((s.part.takeService c).doLoadCalibration c) :=
  request_service offers rfl mode Part.doLoadCalibration

theorem exec_setFeed (offers : s.part.Offers (some .setFeed) c) (mode : s.part.ps.serviceMode = true) :
    exec .setFeed s = s.after ((s.part.takeService c).doSetFeed c) := request_service offers rfl mode Part.doSetFeed

end Queued

/-- Settles O49: a request that is not refused at once is queued, and the saver that is idle with nothing to write takes it. -/
theorem settingsRequestsPark : Obligations.SettingsRequestsPark := by
  intro s c quiet wf mode
  refine ⟨fun target => ⟨fun offers => ?_, fun offers => ?_⟩, fun n target => ⟨fun offers => ?_, fun ink a b offers hink ha hb => ?_⟩⟩
  · have run := exec_loadCalibration offers mode
    rw [Part.doLoadCalibration, takeService_target, target] at run
    exact completes_service_refused quiet wf run
  · have run := exec_setFeed offers mode
    rw [doSetFeed_untargeted target] at run
    exact completes_service_refused quiet wf run
  · have run := exec_loadCalibration offers mode
    rw [doLoadCalibration_eq s.part c target] at run
    obtain ⟨t, e, pending, does, parked, timer, waits⟩ :=
      completes_parked (r := s.part.calibrationAsked c n) quiet wf offers.works run (.inr rfl)
    exact ⟨t, e, pending, does, parked, timer, _, waits, rfl, rfl, calibrationAsked_clamped s.part c n, _, rfl, rfl, rfl, rfl,
      clamp_key s.part c⟩
  · subst hink ha hb
    have run := exec_setFeed offers mode
    refine ⟨fun f known same names => ?_, fun bad => ?_⟩
    · rw [doSetFeed_good target (checkedFeed_good known same names)] at run
      refine ⟨fun good => ?_, fun idle _ clash => ?_⟩
      · obtain ⟨t, e, pending, does, parked, timer, waits⟩ :=
          completes_parked (r := ⟨c, n, .feed f, false⟩) quiet wf offers.works run good
        exact ⟨t, e, pending, does, parked, timer, _, waits, rfl, rfl, rfl, rfl⟩
      · exact completes_unfit (r := ⟨c, n, .feed f, false⟩) quiet wf offers.works run idle clash
    · rw [doSetFeed_bad (checkedFeed_bad bad)] at run
      exact completes_service_refused quiet wf run

end Sys2Proof.Machine

end

-- ==== Bands: SettingsWrites ====
section

/-! PROOFS. The end of the write of the settings page, and a feed or a calibration that takes effect (R96, R97, R105, R117, R166). -/

set_option Elab.async false
namespace Sys2Proof.Machine
open Sys2Proof

/-! ## The source of a channel whose feed has changed (R97, R105, R117) -/

section Source

/-- R105: a re-selection takes the present source or the first slot of the feed that qualifies, else the first slot of the feed
that is present. -/
theorem chooseSource_eq (p : Part) (c : Channel) : p.chooseSource c =
    (((p.channel c).active.toList ++ (p.channel c).feed.slots).find? p.qualifies).or
      ((p.channel c).feed.slots.find? p.presentForChannel) := by
  cases source : (p.channel c).active with
  | none => exact chooseSource_none source
  | some a =>
    cases fit : p.qualifies a with
    | true =>
      unfold Part.chooseSource
      simp [source, optSlot, fit]
    | false =>
      have dropped : p.chooseSource c = (p.updChannel c fun r => { r with active := none }).chooseSource c := by
        have row : (p.updChannel c fun r => { r with active := none }).channel c = { p.channel c with active := none } :=
          Part.setChannel_channel_self p c _
        unfold Part.chooseSource
        rw [row]
        simp only [source, optSlot, fit]
        rfl
      have row : (p.updChannel c fun r => { r with active := none }).channel c = { p.channel c with active := none } :=
        Part.setChannel_channel_self p c _
      rw [dropped, chooseSource_none (by rw [row]), row]
      simp only [Option.toList_some, List.singleton_append, List.find?_cons, fit]
      rfl

/-- R117: a source that the feed does not name is dropped. -/
theorem filter_names (f : Feed) (active : Option Slot) :
    active.filter f.names = if active = f.primary ∨ active = f.secondary then active else none := by
  cases active with
  | none => simp
  | some a =>
    have named : f.names a = true ↔ some a = f.primary ∨ some a = f.secondary := by
      simp only [Feed.names, Bool.or_eq_true, beq_iff_eq]
      exact or_congr eq_comm eq_comm
    by_cases names : f.names a = true
    · rw [if_pos (named.1 names), Option.filter_some_pos names]
    · rw [if_neg (mt named.2 names), Option.filter_some_neg (by simpa using names)]

/-- R97, R105, R117: the source of a channel under a new feed, by the slots as `p` has them. -/
def Part.sourceUnder (p : Part) (active : Option Slot) (f : Feed) : Option Slot :=
  (((active.filter f.names).toList ++ f.slots).find? p.qualifies).or (f.slots.find? p.presentForChannel)

theorem feedChanged_channel (p : Part) (c : Channel) : (p.feedChanged c).channel c =
    { p.channel c with active := p.sourceUnder (p.channel c).active (p.channel c).feed } := by
  unfold Part.feedChanged
  extract_lets r q
  have row : q.channel c = { p.channel c with active := (p.channel c).active.filter (p.channel c).feed.names } := by
    rw [filter_names]
    unfold q r
    by_cases named : (p.channel c).active = (p.channel c).feed.primary ∨ (p.channel c).active = (p.channel c).feed.secondary
    · rw [if_pos named, if_pos (by simpa using named)]
    · rw [if_neg named, if_neg (by simpa using named)]
      exact Part.setChannel_channel_self p c _
  have slots : q.qualifies = p.qualifies ∧ q.presentForChannel = p.presentForChannel := by
    unfold q
    split <;> exact ⟨rfl, rfl⟩
  have chosen : (q.reselect c).channel c = { q.channel c with active := q.chooseSource c } := Part.setChannel_channel_self q c _
  rw [chosen, chooseSource_eq, slots.1, slots.2, row]
  rfl

theorem feedChanged_channel_ne (p : Part) {c d : Channel} (ne : d ≠ c) : (p.feedChanged c).channel d = p.channel d := by
  unfold Part.feedChanged
  extract_lets r q
  have row : q.channel d = p.channel d := by
    unfold q
    split
    · rfl
    · exact Part.setChannel_channel_ne p c _ d ne
  exact (Part.setChannel_channel_ne q c _ d ne).trans row

theorem installFeed_channel (p : Part) (c : Channel) (f : Feed) :
    (p.installFeed c f).channel c = { p.channel c with feed := f, pendingFeed := none } := Part.setChannel_channel_self p c _

/-- R97: the row of a channel whose feed takes effect. -/
theorem feedEffect_channel (p : Part) (c : Channel) (f : Feed) : (p.settingEffect (.feed c f)).channel c =
    { p.channel c with
      feed := f, pendingFeed := none,
      active := if (p.channel c).feed = f then (p.channel c).active else p.sourceUnder (p.channel c).active f } := by
  unfold Part.settingEffect
  dsimp only
  split
  · exact installFeed_channel p c f
  · rw [feedChanged_channel, installFeed_channel]
    rfl

end Source

theorem sourceUnder_eq (p : Part) (active : Option Slot) (f : Feed) : p.sourceUnder active f =
    (((active.filter f.names).toList ++ f.primary.toList ++ f.secondary.toList).find? p.qualifies).or
      ((f.primary.toList ++ f.secondary.toList).find? p.presentForChannel) := by
  rw [Part.sourceUnder, Feed.slots, ← List.append_assoc]

theorem calibrationEffect_channel (p : Part) (c : Channel) (v : Calibration) : (p.settingEffect (.calibration c v)).channel c =
    { p.channel c with calibration := v, pendingCalibration := none } := Part.setChannel_channel_self p c _

theorem calibrationPend_channel (p : Part) (c : Channel) (v : Calibration) : (p.settingPend (.calibration c v)).channel c =
    { p.channel c with pendingCalibration := some v } := Part.setChannel_channel_self p c _

theorem feedPend_channel (p : Part) (c : Channel) (f : Feed) : (p.settingPend (.feed c f)).channel c =
    { p.channel c with pendingFeed := some f } := Part.setChannel_channel_self p c _

/-! ## A written setting is placed (R96, R166) -/

/-- R96: the placing of a calibration or a feed touches the accounting unit alone. -/
theorem placeSetting_unit (p : Part) (r : SettingsRequest) :
    p.placeSetting r.item = { p with au := (p.placeSetting r.item).au } := by
  have changed : ∀ (q : Part) c, q.feedChanged c = { q with au := (q.feedChanged c).au } := fun q c => by
    unfold Part.feedChanged
    extract_lets row q'
    have : q' = { q with au := q'.au } := by
      unfold q'
      split <;> rfl
    rw [this]
    rfl
  unfold Part.placeSetting
  split <;> obtain ⟨cell, c, v | f, clamped⟩ := r
  · rfl
  · show (if _ then _ else _ : Part) = _
    unfold Part.settingEffect SettingsRequest.item
    dsimp only
    split
    · rfl
    · rw [changed]
      rfl
  · rfl
  · rfl

/-- R164, R166: the verified page is the current one, in NV under the next generation number. -/
def Part.pageWritten (p : Part) (page : Page) : Part :=
  { p.setPageCopy p.pageTarget (some ⟨p.nextGeneration, page⟩) with
    hs := { p.hs with saver := .idle, page := page, pageCopy := some p.pageTarget } }

/-- R166 step 3: the part with the page written and the setting placed. -/
def Part.settingPlaced (p : Part) (r : SettingsRequest) (page : Page) : Part := (p.pageWritten page).placeSetting r.item

theorem settingPlaced_keeps (p : Part) (r : SettingsRequest) (page : Page) :
    (p.settingPlaced r page).board = p.board ∧ (p.settingPlaced r page).rq = p.rq ∧ (p.settingPlaced r page).ps = p.ps ∧
      (p.settingPlaced r page).ce = p.ce ∧ (p.settingPlaced r page).hs = (p.pageWritten page).hs ∧
      (p.settingPlaced r page).nv = (p.pageWritten page).nv := by
  rw [Part.settingPlaced, placeSetting_unit]
  exact ⟨rfl, rfl, rfl, rfl, rfl, rfl⟩

/-- R167: outside a reset sequence a settings request completes with its result. -/
theorem finishSettings_running {p : Part} (running : p.busy = false) (r : SettingsRequest) (x : Result) :
    p.finishSettings r x = p.complete r.cell x [] := by
  rw [Part.finishSettings, running]
  rfl

theorem settingsVerified_eq {p : Part} (running : p.busy = false) (r : SettingsRequest) (page : Page) :
    p.settingsVerified r page = (p.settingPlaced r page).complete r.cell (okOrClamped r.clamped) [] := by
  obtain ⟨-, -, ps, -⟩ := settingPlaced_keeps p r page
  have busy : (p.settingPlaced r page).busy = false := by rw [Part.busy, ps]; exact running
  exact finishSettings_running busy r _

/-- R166: the part with its settings write given up. -/
def Part.pageUnwritten (p : Part) (nv : NonVolatile) : Part :=
  Part.reportStoreFault { p with nv := nv, hs := { p.hs with saver := .idle } }

/-- R166: a second attempt that fails ends the request. -/
theorem settingsDiffers_second {p : Part} (running : p.busy = false) (r : SettingsRequest) (page : Page) (fails : Bool) :
    ∃ nv, p.settingsDiffers r page true fails = (p.pageUnwritten nv).complete r.cell .storeFailed [] := by
  have given : ∃ nv, p.settingsDiffers r page true fails = (p.pageUnwritten nv).finishSettings r .storeFailed := by
    cases fails <;> exact ⟨_, rfl⟩
  obtain ⟨nv, differs⟩ := given
  exact ⟨nv, differs.trans (finishSettings_running (p := p.pageUnwritten nv) running r _)⟩

theorem settingsDiffers_first (p : Part) (r : SettingsRequest) (page : Page) (fails : Bool) :
    ∃ nv, p.settingsDiffers r page false fails = { p with nv := nv, hs := { p.hs with saver := .settings r page true } } := by
  cases fails <;> exact ⟨_, rfl⟩

section Ends

variable {s : State} {r : SettingsRequest} {page : Page} {second : Bool}

theorem exec_settingsVerified (saver : s.part.hs.saver = .settings r page second) :
    exec (.settingsWriteEnd .equal) s = s.after (s.part.settingsVerified r page) := by
  show execSettingsWriteEnd .equal s = _
  unfold execSettingsWriteEnd
  rw [saver]

theorem exec_settingsDiffers (saver : s.part.hs.saver = .settings r page second) (fails : Bool) :
    exec (.settingsWriteEnd (.differs fails)) s = s.after (s.part.settingsDiffers r page second fails) := by
  show execSettingsWriteEnd (.differs fails) s = _
  unfold execSettingsWriteEnd
  rw [saver]

/-- R164: the current page and its copy stand to the end of a step. -/
theorem finish_page (before p : Part) :
    (Part.finish before p).hs.page = p.hs.page ∧ (Part.finish before p).hs.pageCopy = p.hs.pageCopy := by
  obtain ⟨current, copy⟩ := (finish_acts before p).same .page rfl
  exact ⟨current.symm, copy.symm⟩

end Ends

/-- Settles O32: a verified page is current before its setting is placed; a failed attempt leaves the page. -/
theorem settingsWriteEnds : Obligations.SettingsWriteEnds := by
  intro s r page second wf running saver _ loose
  refine ⟨?_, fun fails => ⟨fun first => ?_, fun last => ?_⟩⟩
  · have run := exec_settingsVerified saver
    rw [settingsVerified_eq running] at run
    obtain ⟨board, rq, -, ce, hs, nv⟩ := settingPlaced_keeps s.part r page
    have answered := complete_answered (p := s.part.settingPlaced r page) (by rw [board]; exact wf) r.cell (okOrClamped r.clamped) []
    rw [rq] at answered
    have loose' : (s.part.settingPlaced r page).Loose r.cell :=
      ⟨fun i => by rw [Part.commit, ce]; exact loose.flushes i, by rw [hs]; exact loose.settings⟩
    have row : (Part.finish s.part ((s.part.settingPlaced r page).complete r.cell (okOrClamped r.clamped) [])).channel r.channel =
        (s.part.settingPlaced r page).channel r.channel := finish_channel _ _ _
    obtain ⟨current, copy⟩ := finish_page s.part ((s.part.settingPlaced r page).complete r.cell (okOrClamped r.clamped) [])
    refine completes_after run ⟨current.trans (congrArg _ hs), copy.trans (congrArg _ hs), (finish_nv _ _).trans nv,
      answered.finish (loose'.complete _ _ _) s.part, fun v asked => ?_, fun f asked => ?_⟩ <;> rw [row, Part.settingPlaced]
    · have item : r.item = .calibration r.channel v := by rw [SettingsRequest.item, asked]
      rw [item]
      refine ⟨fun ⟨between, unlisted⟩ => ?_, fun later => ?_⟩
      · rw [placeSetting_now (p := s.part.pageWritten page) between unlisted, calibrationEffect_channel]
        exact ⟨rfl, rfl⟩
      · rw [placeSetting_later (p := s.part.pageWritten page) later, calibrationPend_channel]
        exact ⟨rfl, rfl⟩
    · have item : r.item = .feed r.channel f := by rw [SettingsRequest.item, asked]
      rw [item]
      refine ⟨fun ⟨between, unlisted⟩ => ?_, fun later => ?_⟩
      · rw [placeSetting_now (p := s.part.pageWritten page) between unlisted, feedEffect_channel]
        exact ⟨rfl, rfl, fun same => if_pos same, fun changed => (if_neg changed).trans (sourceUnder_eq s.part _ f)⟩
      · rw [placeSetting_later (p := s.part.pageWritten page) later, feedPend_channel]
        exact ⟨rfl, rfl, rfl⟩
  · obtain ⟨nv, differs⟩ := settingsDiffers_first s.part r page fails
    subst first
    have run := exec_settingsDiffers saver fails
    rw [differs] at run
    have acts := finish_busySaver (p := { s.part with nv := nv, hs := { s.part.hs with saver := .settings r page true } }) s.part
      (by simp)
    obtain ⟨current, -⟩ := acts.same .page rfl
    exact completes_after run ⟨(acts.same .saver rfl).symm, current.symm⟩
  · obtain ⟨nv, differs⟩ := settingsDiffers_second running r page fails
    subst last
    have run := exec_settingsDiffers saver fails
    rw [differs] at run
    have answered := complete_answered (p := s.part.pageUnwritten nv) wf r.cell .storeFailed []
    have loose' : ((s.part.pageUnwritten nv).complete r.cell .storeFailed []).Loose r.cell := ⟨loose.flushes, loose.settings⟩
    have fault : ((s.part.pageUnwritten nv).complete r.cell .storeFailed []).noticePending .store = true :=
      (complete_acts_cell (s.part.pageUnwritten nv) r.cell .storeFailed [] (FitsIn.nil _)).raised _ (raise_notice _ .store)
    obtain ⟨current, -⟩ := finish_page s.part ((s.part.pageUnwritten nv).complete r.cell .storeFailed [])
    exact completes_after run ⟨((finish_acts s.part ((s.part.pageUnwritten nv).complete r.cell .storeFailed [])).same .storeFault rfl).symm,
      finish_notice fault, current, answered.finish loose' s.part⟩

end Sys2Proof.Machine

end

-- ==== Bands: Ledgers ====
section

/-! PROOFS. What charges leave: the ledgers and settings of the channels, the threshold pairs of the slots, and the cell of a request
that nothing holds (R90, R93, R105 to R111). -/

set_option Elab.async false
namespace Sys2Proof.Machine
open Sys2Proof

/-! ## Ledgers (R85, R88, R90, R96) -/

/-- A channel's row but for its source and its unfed draw: its totals and residue, and its settings with their pending values. -/
def ChannelRow.ledger (r : ChannelRow) : ChannelRow := { r with active := none, unfed := 0 }

/-- Rows of one ledger have the same totals. -/
theorem ledger_totals {r r' : ChannelRow} (same : r.ledger = r'.ledger) : r.total = r'.total ∧ r.maintenance = r'.maintenance := by
  have total := congrArg ChannelRow.total same
  have maintenance := congrArg ChannelRow.maintenance same
  exact ⟨total, maintenance⟩

/-- A slot's threshold pair with its pending one. -/
def Volumes.pairs (v : Volumes) : Thresholds × Option Thresholds := (v.thresholds, v.pending)

/-- Between `p` and `q` no channel's ledger and no slot's threshold pair changes. -/
structure Part.KeepsLedgers (p q : Part) : Prop where
  rows : ∀ c, (q.channel c).ledger = (p.channel c).ledger
  pairs : ∀ i, (q.volumes i).pairs = (p.volumes i).pairs

theorem Part.KeepsLedgers.refl (p : Part) : p.KeepsLedgers p := ⟨fun _ => rfl, fun _ => rfl⟩

theorem Part.KeepsLedgers.trans {p q r : Part} (h : p.KeepsLedgers q) (k : q.KeepsLedgers r) : p.KeepsLedgers r where
  rows c := (k.rows c).trans (h.rows c)
  pairs i := (k.pairs i).trans (h.pairs i)

theorem Part.Acts.keepsLedgers {t : Views} {p q : Part} (h : Part.Acts t p q)
    (k : (∀ c, t (.channel c) = false) ∧ ∀ i, t (.volumes i) = false := by exact ⟨fun _ => rfl, fun _ => rfl⟩) : p.KeepsLedgers q where
  rows c := by rw [show p.channel c = q.channel c from h.same (.channel c) (k.1 c)]
  pairs i := by rw [show p.volumes i = q.volumes i from h.same (.volumes i) (k.2 i)]

theorem setChannel_keepsLedgers {p : Part} {c : Channel} {r : ChannelRow} (same : r.ledger = (p.channel c).ledger) :
    p.KeepsLedgers (p.setChannel c r) := ⟨setChannel_channel_congr ChannelRow.ledger same, fun _ => rfl⟩

theorem setVolumes_keepsLedgers {p : Part} {i : Slot} {v : Volumes} (same : v.pairs = (p.volumes i).pairs) :
    p.KeepsLedgers (p.setVolumes i v) where
  rows _ := rfl
  pairs j := by
    by_cases own : j = i
    · rw [own, Part.setVolumes_volumes_self, same]
    · rw [Part.setVolumes_volumes_ne p i v j own]

/-! ## A charge (R107 to R111) -/

/-- Between `p` and `q` charges have been made: they keep the ledgers and spare the cells that no commit or setting holds. -/
structure Part.Charges (p q : Part) : Prop extends Part.Spares p q, Part.KeepsLedgers p q

theorem Part.Charges.trans {p q r : Part} (h : p.Charges q) (k : q.Charges r) : p.Charges r :=
  ⟨h.toSpares.trans k.toSpares, h.toKeepsLedgers.trans k.toKeepsLedgers⟩

theorem Part.Charges.refl (p : Part) : p.Charges p := ⟨(Part.Flushes.refl p).toSpares, .refl p⟩

theorem Part.Flushes.charges {p q : Part} (h : Part.Flushes p q) (k : p.KeepsLedgers q) : p.Charges q := ⟨h.toSpares, k⟩

theorem setVolumes_charges {p : Part} {i : Slot} {v : Volumes} (same : v.pairs = (p.volumes i).pairs) :
    p.Charges (p.setVolumes i v) :=
  Part.Flushes.charges (p := p) (q := p.setVolumes i v) (.of_same rfl rfl rfl) (setVolumes_keepsLedgers same)

theorem setChannel_charges {p : Part} {c : Channel} {r : ChannelRow} (same : r.ledger = (p.channel c).ledger) :
    p.Charges (p.setChannel c r) :=
  Part.Flushes.charges (p := p) (q := p.setChannel c r) (.of_same rfl rfl rfl) (setChannel_keepsLedgers same)

theorem raise_charges (p : Part) (n : NoticeClass) : p.Charges (p.raise n) :=
  (raise_flushes p n).charges (raise_acts (t := .only .pending) p n).keepsLedgers

theorem recordVolumes_charges (p : Part) (i : Slot) : p.Charges (p.recordVolumes i) :=
  (writeSlotRecord_flushes p _ i _ (slotVolumeFields_fit p i)).charges (recordVolumes_acts p i).keepsLedgers

theorem recordShare_charges (p : Part) (i : Slot) : p.Charges (p.recordShare i) :=
  (writeSlotRecord_flushes p _ i _ ((slotVolumeFields_fit p i).append (slotCommitFields_fit p i))).charges
    (recordShare_acts p i).keepsLedgers

theorem examineFlush_charges (p : Part) (i : Slot) : p.Charges (p.examineFlush i) :=
  (examineFlush_flushes p i).charges (examineFlush_acts p i).keepsLedgers

theorem testCommit_charges (p : Part) (i : Slot) : p.Charges (p.testCommit i) :=
  (testCommit_flushes p i).charges (testCommit_acts p i).keepsLedgers

/-- R109: the account of the slot grows by a share. -/
theorem addUncommitted_charges (p : Part) (i : Slot) (share : Nat) : p.Charges (p.addUncommitted i share) := by
  unfold Part.addUncommitted
  extract_lets q r
  have grown : p.Charges q := ⟨updCommit_spares rfl, fun _ => rfl, fun _ => rfl⟩
  have dirtied : q.Charges r := by
    unfold r
    split
    · split
      · exact (dirtyPlace_flushes q _).charges (dirtyPlace_acts q _).keepsLedgers
      · exact .refl q
    · exact .refl q
  exact ((grown.trans dirtied).trans (examineFlush_charges r i)).trans (testCommit_charges _ i)

theorem crossLow_charges (p : Part) (i : Slot) : p.Charges (p.crossLow i) := by
  unfold Part.crossLow
  extract_lets v
  split
  · exact (setVolumes_charges (p := p) (i := i) (v := { v with low := true }) rfl).trans (raise_charges _ _)
  · exact .refl p

theorem crossSpent_charges (p : Part) (i : Slot) : p.Charges (p.crossSpent i) := by
  unfold Part.crossSpent
  extract_lets v
  split
  · exact (setVolumes_charges (p := p) (i := i) (v := { v with spent := true }) rfl).trans (raise_charges _ _)
  · exact .refl p

theorem reselectIfActive_keepsLedgers (p : Part) (i : Slot) : p.KeepsLedgers (p.reselectIfActive i) := by
  unfold Part.reselectIfActive
  split
  · split
    · exact setChannel_keepsLedgers rfl
    · exact .refl p
  · exact .refl p

/-- R73: the margin test moves a verdict and re-selects a source. -/
theorem testMargin_charges (p : Part) (i : Slot) : p.Charges (p.testMargin i) := by
  refine ⟨testMargin_spares p i, ?_⟩
  cases past : p.pastMargin i with
  | false =>
    rw [testMargin_within past]
    exact .refl p
  | true =>
    rw [testMargin_past past, carryOutEscalation_eq, if_neg nofun]
    have row : p.KeepsLedgers (p.updSlot i fun r => r.moved .refilled) := ⟨fun _ => rfl, fun _ => rfl⟩
    have flags := setVolumes_keepsLedgers (p := p.updSlot i fun r => r.moved .refilled) (i := i)
      (v := { p.volumes i with low := false, spent := false }) rfl
    have moved : p.KeepsLedgers (p.verdictMoved i .refilled) :=
      (row.trans flags).trans (verdictMoved_acts p i .refilled).keepsLedgers
    have applied : (p.verdictMoved i .refilled).KeepsLedgers (p.verdictApplied i .refilled) :=
      (changeLinkedEntry_acts _ i _).keepsLedgers
    exact ((moved.trans applied).trans (reselectIfActive_keepsLedgers _ i)).trans (reportToCommit_acts _ i).keepsLedgers

theorem placeShare_charges (p : Part) (i : Slot) (fell post : Nat) : p.Charges (p.placeShare i fell post) := by
  unfold Part.placeShare
  split
  · exact recordVolumes_charges p i
  · extract_lets p1 p2 p3 p4
    have volumes : p.Charges p1 := setVolumes_charges rfl
    have taken : p.Charges p2 := volumes.trans (addUncommitted_charges p1 i _)
    have crossed : p2.Charges p3 := by
      unfold p3
      split
      · exact (crossLow_charges p2 i).trans (crossSpent_charges _ i)
      · exact .refl p2
    have tested : p3.Charges p4 := by
      unfold p4
      split
      · exact testMargin_charges p3 i
      · exact .refl p3
    exact ((taken.trans crossed).trans tested).trans (recordShare_charges p4 i)

theorem chargeTandem_charges (p : Part) (c : Channel) (a b : Slot) (x : Nat) : p.Charges (p.chargeTandem c a b x) := by
  unfold Part.chargeTandem
  extract_lets stop share p1 p2
  have given : p.Charges p1 := placeShare_charges p a _ _
  split
  · have handed : p1.Charges p2 := setChannel_charges rfl
    split
    · exact given.trans handed
    · exact (given.trans handed).trans (placeShare_charges p2 b _ _)
  · exact given

theorem chargeSource_charges (p : Part) (c : Channel) (a : Slot) (x : Nat) : p.Charges (p.chargeSource c a x) := by
  unfold Part.chargeSource
  split
  · split
    · split
      · exact chargeTandem_charges p c a _ x
      · exact placeShare_charges p a _ _
    · exact placeShare_charges p a _ _
  · exact placeShare_charges p a _ _

/-- R107: a charge leaves the ledgers, and the cell of a request that nothing holds. -/
theorem charge_charges (p : Part) (c : Channel) (x m : Nat) : p.Charges (p.charge c x m) := by
  unfold Part.charge
  split
  · exact .refl p
  · split
    · have drawn : p.Charges (p.updChannel c fun r => { r with unfed := satAdd max32 r.unfed x }) := setChannel_charges rfl
      exact drawn.trans (raise_charges _ _)
    · rename_i a active
      have maintained : p.Charges (p.maintained a m) := setVolumes_charges rfl
      exact maintained.trans (chargeSource_charges _ c a x)

/-! ## A pass of charges over the channels (R83, R93) -/

/-- One channel's row is replaced and the channel charged: its ledger is that of the new row, and no other ledger changes. -/
theorem grownCharge_ledger (p : Part) (c : Channel) (r : ChannelRow) (x m : Nat) (d : Channel) :
    (((p.setChannel c r).charge c x m).channel d).ledger = if d = c then r.ledger else (p.channel d).ledger := by
  rw [(charge_charges (p.setChannel c r) c x m).rows]
  split
  · rename_i own
    rw [own, Part.setChannel_channel_self]
  · rename_i other
    rw [Part.setChannel_channel_ne p c r d other]

theorem grownCharge_spares (p : Part) (c : Channel) (r : ChannelRow) (x m : Nat) : Part.Spares p ((p.setChannel c r).charge c x m) :=
  (Part.Flushes.of_same (p := p) (q := p.setChannel c r) rfl rfl rfl).toSpares.trans (charge_charges _ c x m).toSpares

/-- A pass in which each channel of a mask changes its own ledger alone. -/
theorem forSlots_ledger {f : Part → Slot → Part} {I : Part → Prop} {mask : Half} {g : ChannelRow → ChannelRow} {p : Part}
    (c : Channel) (start : I p) (kept : ∀ q d, I q → I (f q d))
    (others : ∀ q d, I q → d ≠ c → ((f q d).channel c).ledger = (q.channel c).ledger)
    (own : ∀ q, I q → ((f q c).channel c).ledger =
      if mask.getLsbD c.val = true then g (q.channel c).ledger else (q.channel c).ledger) :
    ((p.forSlots f).channel c).ledger = if mask.getLsbD c.val = true then g (p.channel c).ledger else (p.channel c).ledger := by
  have visited : I (p.forSlots f) ∧ ((p.forSlots f).channel c).ledger =
      if mask.getLsbD c.val = true then g (p.channel c).ledger else (p.channel c).ledger :=
    forSlots_visits (P := fun q => I q ∧ (q.channel c).ledger = (p.channel c).ledger)
      (Q := fun q => I q ∧ (q.channel c).ledger =
        if mask.getLsbD c.val = true then g (p.channel c).ledger else (p.channel c).ledger) c
      (fun q d ne ⟨inv, same⟩ => ⟨kept q d inv, (others q d inv ne).trans same⟩)
      (fun q ⟨inv, same⟩ => ⟨kept q c inv, by rw [own q inv, same]⟩)
      (fun q d ne ⟨inv, same⟩ => ⟨kept q d inv, (others q d inv ne).trans same⟩) ⟨start, rfl⟩
  exact visited.2

/-! ## The accounting of a purge (R93) -/

section Purge

variable {mask : Half} {volumes : Vector Nat 12}

/-- R93: the visit of a channel by a purge. -/
def Part.purgeVisit (mask : Half) (volumes : Vector Nat 12) (p : Part) (c : Slot) : Part :=
  if mask.getLsbD c.val then p.purgeChannel c volumes[c] else p

theorem purgeVisit_ledger (p : Part) (c d : Channel) : ((p.purgeVisit mask volumes c).channel d).ledger =
    if d = c ∧ mask.getLsbD c.val = true then ((p.channel d).grow volumes[d] volumes[d]).ledger else (p.channel d).ledger := by
  unfold Part.purgeVisit
  split
  · rename_i named
    have charged := grownCharge_ledger p c ((p.channel c).grow volumes[c] volumes[c]) volumes[c] volumes[c] d
    refine charged.trans ?_
    by_cases own : d = c
    · subst own
      rw [if_pos rfl, if_pos ⟨rfl, named⟩]
    · rw [if_neg own, if_neg fun h => own h.1]
  · rename_i unnamed
    rw [if_neg fun h => unnamed h.2]

theorem purgeVisit_spares (p : Part) (c : Channel) : Part.Spares p (p.purgeVisit mask volumes c) := by
  unfold Part.purgeVisit
  split
  · exact grownCharge_spares p c _ _ _
  · exact (Part.Flushes.refl p).toSpares

theorem purgeVisit_acts (p : Part) (c : Channel) : Part.Acts (.slotWork everySlot) p (p.purgeVisit mask volumes c) := by
  unfold Part.purgeVisit
  split
  · exact Part.Acts.trans (setChannel_acts p c _ rfl) (charge_acts _ c _ _)
  · exact .refl _ _

/-- R93: the part with every channel of the purge charged. -/
def Part.purgeCharged (p : Part) (mask : Half) (volumes : Vector Nat 12) : Part := p.forSlots (Part.purgeVisit mask volumes)

theorem purgeCharged_spares (p : Part) : Part.Spares p (p.purgeCharged mask volumes) := .forSlots purgeVisit_spares p
theorem purgeCharged_acts (p : Part) : Part.Acts (.slotWork everySlot) p (p.purgeCharged mask volumes) := .forSlots purgeVisit_acts p

theorem purgeCharged_ledger (p : Part) (c : Channel) : ((p.purgeCharged mask volumes).channel c).ledger =
    if mask.getLsbD c.val = true then ((p.channel c).grow volumes[c] volumes[c]).ledger else (p.channel c).ledger := by
  refine forSlots_ledger (I := fun _ => True) (g := fun r => r.grow volumes[c] volumes[c]) c trivial (fun _ _ _ => trivial)
    (fun q d _ ne => ?_) fun q _ => ?_
  · rw [purgeVisit_ledger, if_neg fun h => ne h.1.symm]
  · rw [purgeVisit_ledger]
    simp only [true_and]
    rfl

/-- R93: the purge has left the charge list. -/
def Part.purgeTaken (p : Part) (mask : Half) (volumes : Vector Nat 12) (rest : List ChargeItem) : Part :=
  { p.purgeCharged mask volumes with au := { (p.purgeCharged mask volumes).au with chargeList := rest } }

theorem accountPurge_eq {p : Part} {cell : CellNo} {clamped : Bool} {rest : List ChargeItem}
    (head : p.au.chargeList = .purge cell mask volumes clamped :: rest) : p.accountPurge cell mask volumes clamped =
      (p.purgeTaken mask volumes rest).complete cell (okOrClamped clamped) [] := by
  have list : (p.purgeCharged mask volumes).au.chargeList.drop 1 = rest := by
    rw [← show p.au.chargeList = _ from (purgeCharged_acts p).same .chargeList rfl, head]
    rfl
  unfold Part.purgeTaken
  rw [← list]
  rfl

end Purge

/-- Settles O36: a pass of charges gives each channel of the mask its volume, and the request is answered at its end. -/
theorem purgeAccounted : Obligations.PurgeAccounted := by
  intro s cell mask volumes clamped rest works head wf loose _
  have run := exec_purgeAccounting works head
  rw [accountPurge_eq head] at run
  have spares := purgeCharged_spares (mask := mask) (volumes := volumes) s.part
  have answered := complete_answered (p := s.part.purgeTaken mask volumes rest) (spares.wf wf) cell (okOrClamped clamped) []
  have loose' : (s.part.purgeTaken mask volumes rest).Loose cell := ⟨(spares.loose loose).flushes, (spares.loose loose).settings⟩
  refine completes_after run ⟨finish_chargeList _ _, ⟨_, answered.finish (loose'.complete _ _ _) s.part⟩, fun c => ?_⟩
  have row : ((Part.finish s.part ((s.part.purgeTaken mask volumes rest).complete cell (okOrClamped clamped) [])).channel c).ledger =
      if mask.getLsbD c.val = true then ((s.part.channel c).grow volumes[c] volumes[c]).ledger else (s.part.channel c).ledger := by
    rw [finish_channel]
    exact purgeCharged_ledger s.part c
  generalize Part.finish s.part _ = q at row ⊢
  refine ⟨?_, fun named => ?_, fun unnamed => ?_⟩
  · have residue := congrArg ChannelRow.residue row
    split at residue <;> exact residue
  · rw [if_pos named] at row
    exact ledger_totals row
  · rw [if_neg (by rw [unnamed]; nofun)] at row
    exact ledger_totals row

end Sys2Proof.Machine

end

-- ==== Bands: Pages ====
section

/-! PROOFS. The page boundary: every pending calibration, feed and threshold pair takes effect (R97, R113, R117). -/

set_option Elab.async false
namespace Sys2Proof.Machine
open Sys2Proof

/-! ## The pending values of a row take effect (R97, R113, R117) -/

/-- R97: a channel's pending calibration takes effect. -/
def ChannelRow.recalibrated (r : ChannelRow) : ChannelRow :=
  { r with calibration := r.pendingCalibration.getD r.calibration, pendingCalibration := none }

/-- R117: a channel's pending feed takes effect. -/
def ChannelRow.refed (r : ChannelRow) : ChannelRow := { r with feed := r.pendingFeed.getD r.feed, pendingFeed := none }

theorem recalibrated_none {r : ChannelRow} (none_ : r.pendingCalibration = none) : r.recalibrated = r := by
  unfold ChannelRow.recalibrated
  rw [none_, Option.getD_none, ← none_]

theorem refed_none {r : ChannelRow} (none_ : r.pendingFeed = none) : r.refed = r := by
  unfold ChannelRow.refed
  rw [none_, Option.getD_none, ← none_]

/-- R117: the channel's source, if it has one, is a slot that its feed names. -/
def ChannelRow.SourceNamed (r : ChannelRow) : Prop := ∀ a, r.active = some a → r.feed.names a = true

/-- R113: a slot's pending threshold pair takes effect. -/
def Volumes.settled (v : Volumes) (evaluated : Bool) : Volumes :=
  match v.pending with
  | some t => v.under t evaluated
  | none => v

theorem settled_pairs (v : Volumes) (evaluated : Bool) : (v.settled evaluated).pairs = (v.pending.getD v.thresholds, none) := by
  unfold Volumes.settled
  cases pending : v.pending with
  | none => simp [Volumes.pairs, pending]
  | some t => rfl

theorem settled_flags {v : Volumes} {t : Thresholds} (pending : v.pending = some t) :
    (v.settled true).low = decide ((v.settled true).remaining ≤ t.warn) ∧
      (v.settled true).spent = decide ((v.settled true).remaining ≤ t.stop) := by
  rw [Volumes.settled, pending]
  exact ⟨rfl, rfl⟩

/-! ## Passes over the channels -/

/-- Between `p` and `q` nothing changes but the channels' rows. -/
def Part.Rewires (p q : Part) : Prop := q = { p with au := { p.au with channels := q.au.channels } }

theorem Part.Rewires.refl (p : Part) : p.Rewires p := rfl

theorem Part.Rewires.trans {p q r : Part} (h : p.Rewires q) (k : q.Rewires r) : p.Rewires r := by
  unfold Part.Rewires at *
  rw [k, h]

theorem Part.Rewires.forSlots {f : Part → Slot → Part} (h : ∀ (q : Part) c, q.Rewires (f q c)) (p : Part) : p.Rewires (p.forSlots f) :=
  forSlots_keeps (P := fun q => p.Rewires q) (fun q c before => before.trans (h q c)) (.refl p)

theorem Part.Rewires.keeps {p q : Part} (h : p.Rewires q) :
    q.board = p.board ∧ (∀ i, q.slot i = p.slot i) ∧ ∀ i, q.volumes i = p.volumes i := by
  rw [h]
  exact ⟨rfl, fun _ => rfl, fun _ => rfl⟩

/-- A pass in which each channel changes its own row alone. -/
theorem forSlots_channel {f : Part → Slot → Part} {g : ChannelRow → ChannelRow} (own : ∀ q c, (f q c).channel c = g (q.channel c))
    (others : ∀ q c d, d ≠ c → (f q c).channel d = q.channel d) (p : Part) (c : Channel) :
    (p.forSlots f).channel c = g (p.channel c) :=
  forSlots_visits (P := fun q => q.channel c = p.channel c) (Q := fun q => q.channel c = g (p.channel c)) c
    (fun q d ne same => (others q d c ne.symm).trans same) (fun q same => by rw [own, same])
    (fun q d ne done => (others q d c ne.symm).trans done) rfl

theorem installPendingCalibration_channel (p : Part) (c : Channel) :
    (p.installPendingCalibration c).channel c = (p.channel c).recalibrated := by
  unfold Part.installPendingCalibration
  split
  · rename_i v pending
    rw [calibrationEffect_channel, ChannelRow.recalibrated, pending]
    rfl
  · exact (recalibrated_none ‹_›).symm

theorem installPendingCalibration_others (p : Part) (c d : Channel) (ne : d ≠ c) :
    (p.installPendingCalibration c).channel d = p.channel d := by
  unfold Part.installPendingCalibration
  split
  · exact Part.setChannel_channel_ne p c _ d ne
  · rfl

theorem installPendingCalibration_rewires (p : Part) (c : Channel) : p.Rewires (p.installPendingCalibration c) := by
  unfold Part.installPendingCalibration
  split <;> rfl

theorem installPendingFeed_channel (p : Part) (c : Channel) : (p.installPendingFeed c).channel c = (p.channel c).refed := by
  unfold Part.installPendingFeed
  split
  · rename_i v pending
    rw [installFeed_channel, ChannelRow.refed, pending]
    rfl
  · exact (refed_none ‹_›).symm

theorem installPendingFeed_others (p : Part) (c d : Channel) (ne : d ≠ c) : (p.installPendingFeed c).channel d = p.channel d := by
  unfold Part.installPendingFeed
  split
  · exact Part.setChannel_channel_ne p c _ d ne
  · rfl

theorem installPendingFeed_rewires (p : Part) (c : Channel) : p.Rewires (p.installPendingFeed c) := by
  unfold Part.installPendingFeed
  split <;> rfl

theorem feedChanged_rewires (p : Part) (c : Channel) : p.Rewires (p.feedChanged c) := by
  unfold Part.feedChanged
  extract_lets r q
  have dropped : p.Rewires q := by
    unfold q
    split <;> rfl
  exact dropped.trans rfl

/-! ## The source of a channel stays one that its feed names (R105, R117) -/

theorem Feed.names_of_mem {f : Feed} {a : Slot} (h : a ∈ f.slots) : f.names a = true := by
  simp only [Feed.slots, List.mem_append, Option.mem_toList] at h
  simp only [Feed.names, Bool.or_eq_true, beq_iff_eq]
  exact h

/-- A source found among slots that the feed names, or else in the feed, is named. -/
theorem found_named {f : Feed} {l : List Slot} (named : ∀ x ∈ l, f.names x = true) (first second : Slot → Bool) {a : Slot}
    (found : (l.find? first).or (f.slots.find? second) = some a) : f.names a = true := by
  rcases Option.or_eq_some_iff.1 found with h | ⟨-, h⟩
  · exact named a (List.mem_of_find?_eq_some h)
  · exact f.names_of_mem (List.mem_of_find?_eq_some h)

theorem feedChanged_named (p : Part) (c : Channel) : ((p.feedChanged c).channel c).SourceNamed := by
  rw [feedChanged_channel]
  refine fun a source => found_named (fun x h => ?_) _ _ source
  rcases List.mem_append.1 h with kept | fed
  · exact (Option.filter_eq_some_iff.1 (Option.mem_toList.1 kept)).2
  · exact Feed.names_of_mem fed

theorem reselect_named {p : Part} {c : Channel} (named : (p.channel c).SourceNamed) : ((p.reselect c).channel c).SourceNamed := by
  have row : (p.reselect c).channel c = { p.channel c with active := p.chooseSource c } := Part.setChannel_channel_self p c _
  rw [row, chooseSource_eq]
  refine fun a source => found_named (fun x h => ?_) _ _ source
  rcases List.mem_append.1 h with kept | fed
  · exact named x (Option.mem_toList.1 kept)
  · exact Feed.names_of_mem fed

/-- Between `p` and `q` channels have re-selected: no ledger changes, and a source that is named gives way to none that is not. -/
def Part.Reselects (p q : Part) : Prop :=
  ∀ c, (q.channel c).ledger = (p.channel c).ledger ∧ ((p.channel c).SourceNamed → (q.channel c).SourceNamed)

theorem Part.Reselects.trans {p q r : Part} (h : p.Reselects q) (k : q.Reselects r) : p.Reselects r := fun c =>
  ⟨(k c).1.trans (h c).1, (k c).2 ∘ (h c).2⟩

theorem Part.Reselects.of_same {p q : Part} (h : ∀ c, q.channel c = p.channel c) : p.Reselects q := fun c => by
  rw [h c]
  exact ⟨rfl, id⟩

theorem reselectFor_reselects (p : Part) (i : Slot) : p.Reselects (p.reselectFor i) := by
  unfold Part.reselectFor
  split
  · rename_i c _
    have kept := setChannel_keepsLedgers (p := p) (c := c) (r := { p.channel c with active := p.chooseSource c }) rfl
    refine fun d => ⟨kept.rows d, fun named => ?_⟩
    by_cases own : d = c
    · subst own
      exact reselect_named named
    · rwa [show (p.reselect c).channel d = p.channel d from Part.setChannel_channel_ne p c _ d own]
  · exact .of_same fun _ => rfl

theorem thresholdsEffect_reselects (p : Part) (i : Slot) (t : Thresholds) : p.Reselects (p.thresholdsEffect i t) := by
  obtain ⟨nu, e⟩ := thresholdsEffect_eq p i t
  have recorded : ∀ c, ((p.thresholdsSet i t nu).recordVolumes i).channel c = p.channel c := fun c =>
    ((recordVolumes_acts (p.thresholdsSet i t nu) i).same (.channel c) rfl).symm
  rw [e]
  exact (Part.Reselects.of_same recorded).trans (reselectFor_reselects _ i)

/-! ## The pass over the threshold pairs (R97, R113) -/

theorem installPendingThresholds_cases (p : Part) (i : Slot) :
    p.installPendingThresholds i = p ∧ (p.volumes i).pending = none ∨
      ∃ t, p.installPendingThresholds i = p.thresholdsEffect i t ∧ (p.volumes i).pending = some t := by
  unfold Part.installPendingThresholds
  split
  · exact .inr ⟨_, rfl, ‹_›⟩
  · exact .inl ⟨rfl, ‹_›⟩

theorem installPendingThresholds_volumes (p : Part) (i : Slot) :
    (p.installPendingThresholds i).volumes i = (p.volumes i).settled (p.slot i).evaluated := by
  unfold Volumes.settled
  rcases installPendingThresholds_cases p i with ⟨e, pending⟩ | ⟨t, e, pending⟩ <;> rw [e, pending]
  exact thresholdsEffect_volumes p i t

theorem installPendingThresholds_others (p : Part) {i j : Slot} (ne : j ≠ i) :
    (p.installPendingThresholds i).volumes j = p.volumes j := by
  rcases installPendingThresholds_cases p i with ⟨e, -⟩ | ⟨t, e, -⟩ <;> rw [e]
  exact thresholdsEffect_volumes_ne p ne t

theorem installPendingThresholds_sets (p : Part) (i : Slot) : p.Sets (p.installPendingThresholds i) := by
  rcases installPendingThresholds_cases p i with ⟨e, -⟩ | ⟨t, e, -⟩ <;> rw [e]
  · exact .refl p
  · exact thresholdsEffect_sets p i t

theorem installPendingThresholds_slot (p : Part) (i j : Slot) : (p.installPendingThresholds i).slot j = p.slot j := by
  rw [installPendingThresholds_sets p i]
  rfl

theorem installPendingThresholds_reselects (p : Part) (i : Slot) : p.Reselects (p.installPendingThresholds i) := by
  rcases installPendingThresholds_cases p i with ⟨e, -⟩ | ⟨t, e, -⟩ <;> rw [e]
  · exact .of_same fun _ => rfl
  · exact thresholdsEffect_reselects p i t

theorem installPendingThresholds_wf {p : Part} (wf : Memory.wf p.board = true) (i : Slot) :
    Memory.wf (p.installPendingThresholds i).board = true := by
  rcases installPendingThresholds_cases p i with ⟨e, -⟩ | ⟨t, e, -⟩ <;> rw [e]
  · exact wf
  · exact thresholdsEffect_wf wf i t

/-- What the pass over the threshold pairs does. -/
structure Part.PairsSettled (p q : Part) : Prop where
  slots : ∀ i, q.slot i = p.slot i
  volumes : ∀ i, q.volumes i = (p.volumes i).settled (p.slot i).evaluated
  channels : p.Reselects q
  wf : Memory.wf p.board = true → Memory.wf q.board = true

theorem installPendingThresholds_pass (p : Part) : p.PairsSettled (p.forSlots Part.installPendingThresholds) where
  slots i := forSlots_keeps (P := fun q => q.slot i = p.slot i)
    (fun q j same => (installPendingThresholds_slot q j i).trans same) rfl
  volumes i := by
    refine forSlots_visits (P := fun q => q.volumes i = p.volumes i ∧ q.slot i = p.slot i)
      (Q := fun q => q.volumes i = (p.volumes i).settled (p.slot i).evaluated) i
      (fun q j ne ⟨volumes, slot⟩ => ?_) (fun q ⟨volumes, slot⟩ => ?_) (fun q j ne done => ?_) ⟨rfl, rfl⟩
    · exact ⟨(installPendingThresholds_others q ne.symm).trans volumes, (installPendingThresholds_slot q j i).trans slot⟩
    · rw [installPendingThresholds_volumes, volumes, slot]
    · exact (installPendingThresholds_others q ne.symm).trans done
  channels := forSlots_keeps (P := fun q => p.Reselects q)
    (fun q j before => before.trans (installPendingThresholds_reselects q j)) (.of_same fun _ => rfl)
  wf wf := forSlots_keeps (P := fun q => Memory.wf q.board = true) (fun _ j h => installPendingThresholds_wf h j) wf

/-! ## The page boundary (R97, R113, R117) -/

/-- R117 step 2: a channel whose feed differs from the one before re-selects. -/
def Part.changedFrom (p q : Part) (c : Slot) : Part :=
  if (p.channel c).feed = (q.channel c).feed then q else q.feedChanged c

theorem changedFrom_others (p q : Part) {c d : Channel} (ne : d ≠ c) : (p.changedFrom q c).channel d = q.channel d := by
  unfold Part.changedFrom
  split
  · rfl
  · exact feedChanged_channel_ne q ne

theorem changedFrom_rewires (p q : Part) (c : Channel) : q.Rewires (p.changedFrom q c) := by
  unfold Part.changedFrom
  split
  · exact .refl q
  · exact feedChanged_rewires q c

theorem changedFrom_channel (p q : Part) (c : Channel) : ((p.changedFrom q c).channel c).ledger = (q.channel c).ledger ∧
    ((p.channel c).feed ≠ (q.channel c).feed → ((p.changedFrom q c).channel c).SourceNamed) := by
  unfold Part.changedFrom
  split
  · rename_i same
    exact ⟨rfl, fun changed => absurd same changed⟩
  · exact ⟨by rw [feedChanged_channel]; rfl, fun _ => feedChanged_named q c⟩

theorem changedFrom_pass (p q : Part) (c : Channel) : ((q.forSlots p.changedFrom).channel c).ledger = (q.channel c).ledger ∧
    ((p.channel c).feed ≠ (q.channel c).feed → ((q.forSlots p.changedFrom).channel c).SourceNamed) := by
  refine forSlots_visits (P := fun r => r.channel c = q.channel c)
    (Q := fun r => (r.channel c).ledger = (q.channel c).ledger ∧ ((p.channel c).feed ≠ (q.channel c).feed → (r.channel c).SourceNamed))
    c (fun r d ne same => (changedFrom_others p r ne.symm).trans same) (fun r same => ?_) (fun r d ne done => ?_) rfl
  · rw [← same]
    exact changedFrom_channel p r c
  · rwa [changedFrom_others p r ne.symm]

/-- What a page boundary does to the settings of the channels and the threshold pairs of the slots. -/
structure Part.PageEnded (p q : Part) : Prop where
  rows : ∀ c, (q.channel c).ledger = (p.channel c).recalibrated.refed.ledger
  sources : ∀ c, (p.channel c).feed ≠ (p.channel c).refed.feed → (q.channel c).SourceNamed
  slots : ∀ i, q.slot i = p.slot i
  volumes : ∀ i, q.volumes i = (p.volumes i).settled (p.slot i).evaluated
  wf : Memory.wf p.board = true → Memory.wf q.board = true

/-- R97, R113, R117: the calibrations, the feeds, the sources of changed feeds and the pairs, pass by pass. -/
theorem pageBoundary_ended (p : Part) : p.PageEnded p.pageBoundary := by
  have calibrated := forSlots_channel installPendingCalibration_channel installPendingCalibration_others p
  have first := Part.Rewires.forSlots installPendingCalibration_rewires p
  have result : p.pageBoundary = (((p.forSlots Part.installPendingCalibration).forSlots Part.installPendingFeed).forSlots
    (p.forSlots Part.installPendingCalibration).changedFrom).forSlots Part.installPendingThresholds := rfl
  rw [result]
  generalize p.forSlots Part.installPendingCalibration = p1 at calibrated first ⊢
  have fed := forSlots_channel installPendingFeed_channel installPendingFeed_others p1
  have second := first.trans (Part.Rewires.forSlots installPendingFeed_rewires p1)
  generalize p1.forSlots Part.installPendingFeed = p2 at fed second ⊢
  have sourced := changedFrom_pass p1 p2
  obtain ⟨board, slots, volumes⟩ := (second.trans (Part.Rewires.forSlots (changedFrom_rewires p1) p2)).keeps
  generalize p2.forSlots p1.changedFrom = p3 at sourced board slots volumes ⊢
  have pairs := installPendingThresholds_pass p3
  refine ⟨fun c => ?_, fun c changed => ?_, fun i => (pairs.slots i).trans (slots i), fun i => ?_, fun wf => ?_⟩
  · rw [(pairs.channels c).1, (sourced c).1, fed, calibrated]
  · refine (pairs.channels c).2 ((sourced c).2 ?_)
    rw [fed, calibrated]
    exact changed
  · rw [pairs.volumes, volumes, slots]
  · exact pairs.wf (by rw [board]; exact wf)

end Sys2Proof.Machine

end

-- ==== Bands: Banks ====
section

/-! PROOFS. The accounting of a bank (R83, R84, R88, R90, R97). -/

set_option Elab.async false
namespace Sys2Proof.Machine
open Sys2Proof

/-! ## The channels of a bank (R83 step 2, R88 to R90) -/

/-- R88, R90: a channel's row with a band of the bank in its totals. -/
def ChannelRow.accounted (r : ChannelRow) (block : ChannelBlock) : ChannelRow :=
  { r.grow (bandVolume r.calibration block r.residue) (bandMaintenance r.calibration block) with
    residue := bandResidue r.calibration block r.residue }

theorem accountChannel_eq (p : Part) (b : BankNo) (c : Channel) : p.accountChannel b c =
    (p.setChannel c ((p.channel c).accounted (p.channelBlock b c))).charge c
      (bandVolume (p.channel c).calibration (p.channelBlock b c) (p.channel c).residue)
      (bandMaintenance (p.channel c).calibration (p.channelBlock b c)) := rfl

/-- Work of charges leaves the bytes of a bank, and the order in which a field of it is read. -/
theorem Part.Acts.readField_bank {p q : Part} (h : Part.Acts (.slotWork everySlot) p q) {a w : Nat} (lo : 0x600 ≤ a)
    (hi : a + w ≤ 0xA00) : q.readField a w = p.readField a w := by
  have order : q.port.bigEndian = p.port.bigEndian := (h.same .byteOrder rfl).symm
  rw [Part.readField, Part.readField, order]
  exact congrArg (fieldNumber _) (Memory.readBytes_congr _ _ _ _ fun a _ _ => h.readByte_bank (by omega) (by omega))

theorem Part.Acts.channelBlock {p q : Part} (h : Part.Acts (.slotWork everySlot) p q) (b : BankNo) (c : Channel) :
    q.channelBlock b c = p.channelBlock b c := by
  have bank : 0x600 ≤ bankBase b ∧ bankBase b + 256 ≤ 0xA00 := by
    have := b.isLt
    simp only [bankBase]
    omega
  have := c.isLt
  unfold Part.channelBlock
  simp only [h.readByte_bank (a := bankBase b + 16 + 20 * c.val) (by omega) (by omega),
    h.readField_bank (a := bankBase b + 16 + 20 * c.val + 4) (w := 4) (by omega) (by omega),
    h.readField_bank (a := bankBase b + 16 + 20 * c.val + 8) (w := 4) (by omega) (by omega),
    h.readField_bank (a := bankBase b + 16 + 20 * c.val + 12) (w := 4) (by omega) (by omega),
    h.readField_bank (a := bankBase b + 16 + 20 * c.val + 16) (w := 4) (by omega) (by omega)]

/-- R83: the visit of a channel by the accounting of a bank. -/
def Part.bandVisit (b : BankNo) (p : Part) (c : Slot) : Part :=
  if (p.bandMask b).getLsbD c.val then p.accountChannel b c else p

theorem bandVisit_ledger (b : BankNo) (p : Part) (c d : Channel) : ((p.bandVisit b c).channel d).ledger =
    if d = c ∧ (p.bandMask b).getLsbD c.val = true then ((p.channel d).accounted (p.channelBlock b d)).ledger
    else (p.channel d).ledger := by
  unfold Part.bandVisit
  split
  · rename_i named
    rw [accountChannel_eq, grownCharge_ledger]
    by_cases own : d = c
    · subst own
      rw [if_pos rfl, if_pos ⟨rfl, named⟩]
    · rw [if_neg own, if_neg fun h => own h.1]
  · rename_i unnamed
    rw [if_neg fun h => unnamed h.2]

theorem bandVisit_pairs (b : BankNo) (p : Part) (c : Channel) (i : Slot) :
    ((p.bandVisit b c).volumes i).pairs = (p.volumes i).pairs := by
  unfold Part.bandVisit
  split
  · rw [accountChannel_eq, (charge_charges _ c _ _).pairs]
    rfl
  · rfl

theorem bandVisit_spares (b : BankNo) (p : Part) (c : Channel) : Part.Spares p (p.bandVisit b c) := by
  unfold Part.bandVisit
  split
  · exact grownCharge_spares p c _ _ _
  · exact (Part.Flushes.refl p).toSpares

theorem bandVisit_acts (b : BankNo) (p : Part) (c : Channel) : Part.Acts (.slotWork everySlot) p (p.bandVisit b c) := by
  unfold Part.bandVisit
  split
  · exact accountChannel_acts p b c
  · exact .refl _ _

/-- R83 step 2: the part with every channel of the bank accounted. -/
def Part.bandCharged (p : Part) (b : BankNo) : Part := p.forSlots (Part.bandVisit b)

theorem bandCharged_acts (p : Part) (b : BankNo) : Part.Acts (.slotWork everySlot) p (p.bandCharged b) :=
  .forSlots (bandVisit_acts b) p

theorem bandCharged_ledger (p : Part) (b : BankNo) (c : Channel) : ((p.bandCharged b).channel c).ledger =
    if (p.bandMask b).getLsbD c.val = true then ((p.channel c).accounted (p.channelBlock b c)).ledger
    else (p.channel c).ledger := by
  refine forSlots_ledger (I := fun q => Part.Acts (.slotWork everySlot) p q) (g := fun r => r.accounted (p.channelBlock b c)) c
    (.refl _ p) (fun q d before => before.trans (bandVisit_acts b q d)) (fun q d _ ne => ?_) fun q before => ?_
  · rw [bandVisit_ledger, if_neg fun h => ne h.1.symm]
  · rw [bandVisit_ledger, before.bandMask, before.channelBlock]
    simp only [true_and]
    rfl

theorem bandCharged_pairs (p : Part) (b : BankNo) (i : Slot) : ((p.bandCharged b).volumes i).pairs = (p.volumes i).pairs :=
  forSlots_keeps (P := fun q => (q.volumes i).pairs = (p.volumes i).pairs)
    (fun q c same => (bandVisit_pairs b q c i).trans same) rfl

theorem bandCharged_spares (p : Part) (b : BankNo) : Part.Spares p (p.bandCharged b) := .forSlots (bandVisit_spares b) p

/-! ## The sequence check (R84) -/

/-- What the sequence check of a bank leaves in the accounting unit, and the notice of a gap. -/
structure Part.SequenceChecked (p : Part) (b : BankNo) (q : Part) : Prop where
  last : q.au.lastSequence = p.bandSequence b
  seen : q.au.bankSeen = true
  regular : p.au.bankSeen = false ∨ p.bandSequence b = p.au.lastSequence + 1 → q.au.sequenceGaps = p.au.sequenceGaps
  gap : p.au.bankSeen = true → p.bandSequence b ≠ p.au.lastSequence + 1 →
    q.au.sequenceGaps = satAdd max16 p.au.sequenceGaps 1 ∧ q.noticePending .tally = true

theorem checkSequence_checked (p : Part) (b : BankNo) : p.SequenceChecked b (p.checkSequence b) := by
  unfold Part.checkSequence
  extract_lets seq gap gaps _ q
  have gap_iff : gap = true ↔ p.au.bankSeen = true ∧ p.bandSequence b ≠ p.au.lastSequence + 1 := by
    simp only [gap, seq, Bool.and_eq_true, bne_iff_ne]
  split
  · rename_i found
    have counted : gaps = satAdd max16 p.au.sequenceGaps 1 := if_pos found
    refine ⟨rfl, rfl, fun regular => ?_, fun _ _ => ⟨counted, raise_notice q _⟩⟩
    obtain ⟨seen, ne⟩ := gap_iff.1 found
    rcases regular with unseen | next
    · exact absurd (seen.symm.trans unseen) nofun
    · exact absurd next ne
  · rename_i none_
    exact ⟨rfl, rfl, fun _ => if_neg none_, fun seen ne => absurd (gap_iff.2 ⟨seen, ne⟩) none_⟩

/-- The check stands through work that leaves its values. -/
theorem Part.SequenceChecked.acts {p q r : Part} {b : BankNo} {t : Views} (h : p.SequenceChecked b q) (acts : Part.Acts t q r)
    (kept : t .sequenceCheck = false := by rfl) : p.SequenceChecked b r := by
  obtain ⟨last, seen, gaps⟩ := acts.same .sequenceCheck kept
  refine ⟨last.symm.trans h.last, seen.symm.trans h.seen, fun regular => gaps.symm.trans (h.regular regular), fun was ne => ?_⟩
  obtain ⟨counted, notice⟩ := h.gap was ne
  exact ⟨gaps.symm.trans counted, acts.raised _ notice⟩

/-! ## The stages of the accounting (R83) -/

/-- R83 steps 1 and 2: the bank's sequence is checked and its channels accounted; a bank that ends a page is known as such. -/
def Part.bandTaken (p : Part) (b : BankNo) : Part :=
  { (p.checkSequence b).bandCharged b with
    au := { ((p.checkSequence b).bandCharged b).au with betweenPages := p.pageEnd b } }

/-- R97: the settings take effect where the bank ends a page. -/
def Part.bandSettled (p : Part) (b : BankNo) : Part := if p.pageEnd b = true then (p.bandTaken b).pageBoundary else p.bandTaken b

/-- R83: the bank is ACCOUNTED and leaves the list. -/
def Part.bandDone (p : Part) (b : BankNo) (rest : List ChargeItem) : Part :=
  { (p.bandSettled b).setBankState b .accounted with au := { (p.bandSettled b).au with chargeList := rest } }

/-- Before the bank leaves it, the accounting touches none of the charge list. -/
theorem bandSettled_chargeList (p : Part) (b : BankNo) : (p.bandSettled b).au.chargeList = p.au.chargeList := by
  obtain ⟨seen, gaps, nu, checked⟩ := checkSequence_eq p b
  have taken : (p.bandTaken b).au.chargeList = p.au.chargeList :=
    ((bandCharged_acts (p.checkSequence b) b).same .chargeList rfl).symm.trans (by rw [checked])
  unfold Part.bandSettled
  split
  · exact ((pageBoundary_acts (p.bandTaken b)).same .chargeList rfl).symm.trans taken
  · exact taken

theorem accountBank_eq {p : Part} {b : BankNo} {rest : List ChargeItem} (head : p.au.chargeList = .bank b :: rest) :
    p.accountBank b = p.bandDone b rest := by
  obtain ⟨seen, gaps, nu, checked⟩ := checkSequence_eq p b
  have last : ((p.checkSequence b).bandCharged b).pageEnd b = p.pageEnd b := by
    rw [(bandCharged_acts _ b).pageEnd, checked]
    rfl
  have list : (p.bandSettled b).au.chargeList.drop 1 = rest := by
    rw [bandSettled_chargeList, head]
    rfl
  have staged : p.accountBank b = { (p.bandSettled b).setBankState b .accounted with
      au := { (p.bandSettled b).au with chargeList := (p.bandSettled b).au.chargeList.drop 1 } } := by
    unfold Part.bandSettled Part.bandTaken
    rw [← last]
    rfl
  rw [staged, list]
  rfl

theorem bandTaken_checked (p : Part) (b : BankNo) : p.SequenceChecked b (p.bandTaken b) := by
  have charged := (checkSequence_checked p b).acts (bandCharged_acts _ b)
  exact ⟨charged.last, charged.seen, charged.regular, charged.gap⟩

theorem bandTaken_ledger (p : Part) (b : BankNo) (c : Channel) : ((p.bandTaken b).channel c).ledger =
    if (p.bandMask b).getLsbD c.val = true then ((p.channel c).accounted (p.channelBlock b c)).ledger
    else (p.channel c).ledger := by
  obtain ⟨seen, gaps, nu, checked⟩ := checkSequence_eq p b
  have charged := bandCharged_ledger (p.checkSequence b) b c
  rw [checked] at charged
  unfold Part.bandTaken
  rw [checked]
  exact charged

theorem bandTaken_pairs (p : Part) (b : BankNo) (i : Slot) : ((p.bandTaken b).volumes i).pairs = (p.volumes i).pairs := by
  obtain ⟨seen, gaps, nu, checked⟩ := checkSequence_eq p b
  have charged := bandCharged_pairs (p.checkSequence b) b i
  rw [checked] at charged
  unfold Part.bandTaken
  rw [checked]
  exact charged

theorem bandTaken_wf {p : Part} (wf : Memory.wf p.board = true) (b : BankNo) : Memory.wf (p.bandTaken b).board = true := by
  obtain ⟨seen, gaps, nu, checked⟩ := checkSequence_eq p b
  exact (bandCharged_spares (p.checkSequence b) b).wf (by rw [checked]; exact wf)

theorem bandSettled_wf {p : Part} (wf : Memory.wf p.board = true) (b : BankNo) : Memory.wf (p.bandSettled b).board = true := by
  unfold Part.bandSettled
  split
  · exact (pageBoundary_ended _).wf (bandTaken_wf wf b)
  · exact bandTaken_wf wf b

theorem bandSettled_checked (p : Part) (b : BankNo) : p.SequenceChecked b (p.bandSettled b) := by
  unfold Part.bandSettled
  split
  · exact (bandTaken_checked p b).acts (pageBoundary_acts _)
  · exact bandTaken_checked p b

theorem bandSettled_betweenPages (p : Part) (b : BankNo) : (p.bandSettled b).au.betweenPages = p.pageEnd b := by
  unfold Part.bandSettled
  split
  · exact ((pageBoundary_acts (p.bandTaken b)).same .betweenPages rfl).symm
  · rfl

/-! ## What a settled row has (R96, R97) -/

/-- Rows of one ledger have the same settings and pending values. -/
theorem ledger_settings {r r' : ChannelRow} (same : r.ledger = r'.ledger) : r.calibration = r'.calibration ∧ r.feed = r'.feed ∧
    r.pendingCalibration = r'.pendingCalibration ∧ r.pendingFeed = r'.pendingFeed := by
  have calibration := congrArg ChannelRow.calibration same
  have feed := congrArg ChannelRow.feed same
  have pendingCalibration := congrArg ChannelRow.pendingCalibration same
  have pendingFeed := congrArg ChannelRow.pendingFeed same
  exact ⟨calibration, feed, pendingCalibration, pendingFeed⟩

theorem ledger_residue {r r' : ChannelRow} (same : r.ledger = r'.ledger) : r.residue = r'.residue := by
  have residue := congrArg ChannelRow.residue same
  exact residue

/-- The accounting of a bank's channels leaves every setting and pending value. -/
theorem bandTaken_settings (p : Part) (b : BankNo) (c : Channel) :
    ((p.bandTaken b).channel c).calibration = (p.channel c).calibration ∧ ((p.bandTaken b).channel c).feed = (p.channel c).feed ∧
    ((p.bandTaken b).channel c).pendingCalibration = (p.channel c).pendingCalibration ∧
    ((p.bandTaken b).channel c).pendingFeed = (p.channel c).pendingFeed := by
  have row := bandTaken_ledger p b c
  split at row
  · have settings := ledger_settings row
    exact settings
  · exact ledger_settings row

theorem pairs_eq {v w : Volumes} (same : v.pairs = w.pairs) : v.thresholds = w.thresholds ∧ v.pending = w.pending :=
  Prod.mk.inj same

section Outcome

variable {p q : Part} {b : BankNo}

/-- R97, R117: at the end of a page each channel has its pending settings. -/
theorem pageEnded_channel (ended : (p.bandTaken b).PageEnded q) (c : Channel) :
    (q.channel c).calibration = (p.channel c).pendingCalibration.getD (p.channel c).calibration ∧
    (q.channel c).feed = (p.channel c).pendingFeed.getD (p.channel c).feed ∧
    (q.channel c).pendingCalibration = none ∧ (q.channel c).pendingFeed = none ∧
    ∀ f a, (p.channel c).pendingFeed = some f → f ≠ (p.channel c).feed → (q.channel c).active = some a → f.names a = true := by
  obtain ⟨calibration, feed, pendingCalibration, pendingFeed⟩ := bandTaken_settings p b c
  obtain ⟨calibration', feed', pendingCalibration', pendingFeed'⟩ := ledger_settings (ended.rows c)
  have fed : (q.channel c).feed = (p.channel c).pendingFeed.getD (p.channel c).feed := by
    rw [feed', ← pendingFeed, ← feed]
    rfl
  refine ⟨?_, fed, pendingCalibration', pendingFeed', fun f a pending changed source => ?_⟩
  · rw [calibration', ← pendingCalibration, ← calibration]
    rfl
  · have differs : ((p.bandTaken b).channel c).feed ≠ ((p.bandTaken b).channel c).refed.feed := fun same => changed (by
      rw [← feed, same, ChannelRow.refed, pendingFeed, pending]
      rfl)
    have named := ended.sources c differs a source
    rwa [fed, pending] at named

/-- R97, R113: at the end of a page each slot has its pending pair, and LOW and SPENT of a tracked one are set against it. -/
theorem pageEnded_volumes (ended : (p.bandTaken b).PageEnded q) (i : Slot) :
    (q.volumes i).pending = none ∧ (q.volumes i).thresholds = (p.volumes i).pending.getD (p.volumes i).thresholds ∧
    ∀ t, (p.volumes i).pending = some t → (q.slot i).state.inServiceGroup = true → (q.slot i).hasClass .tracked = true →
      (q.volumes i).low = decide ((q.volumes i).remaining ≤ t.warn) ∧
        (q.volumes i).spent = decide ((q.volumes i).remaining ≤ t.stop) := by
  obtain ⟨thresholds, pending⟩ := pairs_eq (bandTaken_pairs p b i)
  have pairs := settled_pairs ((p.bandTaken b).volumes i) ((p.bandTaken b).slot i).evaluated
  rw [← ended.volumes, thresholds, pending] at pairs
  obtain ⟨thresholds', pending'⟩ := Prod.mk.inj pairs
  refine ⟨pending', thresholds', fun t waits served tracked => ?_⟩
  have evaluated : ((p.bandTaken b).slot i).evaluated = true := by
    rw [← ended.slots, evaluated_of_served served, tracked]
  rw [ended.volumes, evaluated]
  exact settled_flags (pending.trans waits)

/-- R88, R90: the totals and residues that the bank's channels have at its end. -/
theorem accounted_totals {r : Part} (rows : ∀ c, (r.channel c).residue = ((p.bandTaken b).channel c).residue ∧
      (r.channel c).total = ((p.bandTaken b).channel c).total ∧
      (r.channel c).maintenance = ((p.bandTaken b).channel c).maintenance) (c : Channel) :
    ((p.bandMask b).getLsbD c.val = true →
      (r.channel c).residue = bandResidue (p.channel c).calibration (p.channelBlock b c) (p.channel c).residue ∧
      (r.channel c).total = (p.channel c).total + BitVec.ofNat 64
        (bandVolume (p.channel c).calibration (p.channelBlock b c) (p.channel c).residue) ∧
      (r.channel c).maintenance = (p.channel c).maintenance + BitVec.ofNat 64
        (bandMaintenance (p.channel c).calibration (p.channelBlock b c))) ∧
    ((p.bandMask b).getLsbD c.val = false →
      (r.channel c).residue = (p.channel c).residue ∧ (r.channel c).total = (p.channel c).total ∧
      (r.channel c).maintenance = (p.channel c).maintenance) := by
  obtain ⟨residue, total, maintenance⟩ := rows c
  have row := bandTaken_ledger p b c
  rw [residue, total, maintenance]
  refine ⟨fun named => ?_, fun unnamed => ?_⟩
  · rw [if_pos named] at row
    exact ⟨ledger_residue row, ledger_totals row⟩
  · rw [if_neg (by rw [unnamed]; nofun)] at row
    exact ⟨ledger_residue row, ledger_totals row⟩

/-- A page boundary leaves totals and residues. -/
theorem bandSettled_totals (p : Part) (b : BankNo) (c : Channel) :
    ((p.bandSettled b).channel c).residue = ((p.bandTaken b).channel c).residue ∧
      ((p.bandSettled b).channel c).total = ((p.bandTaken b).channel c).total ∧
      ((p.bandSettled b).channel c).maintenance = ((p.bandTaken b).channel c).maintenance := by
  unfold Part.bandSettled
  split
  · have row := (pageBoundary_ended (p.bandTaken b)).rows c
    have residue := ledger_residue row
    have totals := ledger_totals row
    exact ⟨residue, totals⟩
  · exact ⟨rfl, rfl, rfl⟩

end Outcome

/-- R83: the state byte that the accounting writes stands to the end of the step. -/
theorem finish_bankState {p : Part} (wf : Memory.wf p.board = true) (b : BankNo) (rest : List ChargeItem) (before : Part) :
    (Part.finish before (p.bandDone b rest)).bankState b = .accounted := by
  have bank : 0x600 ≤ bankBase b ∧ bankBase b < 0xA00 := by
    have := b.isLt
    simp only [bankBase]
    omega
  have written : (p.bandDone b rest).readByte (bankBase b) = BankState.accounted.code :=
    Memory.read_write_self (bandSettled_wf wf b) _ _
  have outside : Views.ending (.byte (bankBase b)) = false := by
    simp only [Views.ending, Bool.or_eq_false_iff, Bool.and_eq_false_iff, decide_eq_false_iff_not]
    omega
  have stands : (p.bandDone b rest).readByte (bankBase b) = (Part.finish before (p.bandDone b rest)).readByte (bankBase b) :=
    (finish_acts before (p.bandDone b rest)).same (.byte (bankBase b)) outside
  rw [Part.bankState, ← stands, written]
  decide

/-- Settles O35: the sequence check, the pass of charges and the page boundary one after another. -/
theorem bankAccounted : Obligations.BankAccounted := by
  intro s b rest works head wf
  have run := exec_bankAccounting works head
  rw [accountBank_eq head] at run
  have channels : ∀ c, (Part.finish s.part (s.part.bandDone b rest)).channel c = (s.part.bandSettled b).channel c :=
    finish_channel s.part _
  have volumes : ∀ i, (Part.finish s.part (s.part.bandDone b rest)).volumes i = (s.part.bandSettled b).volumes i :=
    finish_volumes s.part _
  have slots : ∀ i, (Part.finish s.part (s.part.bandDone b rest)).slot i = (s.part.bandSettled b).slot i :=
    finish_slot s.part _
  have settled := bandSettled_checked s.part b
  have done : s.part.SequenceChecked b (s.part.bandDone b rest) := ⟨settled.last, settled.seen, settled.regular, settled.gap⟩
  have checked := done.acts (finish_acts s.part _)
  have between : (Part.finish s.part (s.part.bandDone b rest)).au.betweenPages = s.part.pageEnd b :=
    ((finish_acts s.part (s.part.bandDone b rest)).same .betweenPages rfl).symm.trans (bandSettled_betweenPages s.part b)
  refine completes_after run ⟨finish_bankState wf b rest s.part, finish_chargeList s.part _, between, fun ends => ?_, fun open_ => ?_,
    checked.last, checked.seen, checked.regular, checked.gap, fun c => ?_⟩
  · have ended : s.part.bandSettled b = (s.part.bandTaken b).pageBoundary := if_pos ends
    have page := pageBoundary_ended (s.part.bandTaken b)
    refine ⟨fun c => ?_, fun i => ?_⟩
    · rw [channels, ended]
      exact pageEnded_channel page c
    · rw [volumes, slots, ended]
      exact pageEnded_volumes page i
  · have same : s.part.bandSettled b = s.part.bandTaken b := if_neg (by rw [open_]; nofun)
    refine ⟨fun c => ?_, fun i => ?_⟩
    · rw [channels, same]
      exact bandTaken_settings s.part b c
    · rw [volumes, same]
      exact pairs_eq (bandTaken_pairs s.part b i)
  · rw [channels]
    exact accounted_totals (bandSettled_totals s.part b) c

end Sys2Proof.Machine

end
